-- ==== Sys2Proof/Word.lean ====
section
/-! DEFINITION. The word types of the Nalras-3 architecture and their plainest
arithmetic (00_scope.md R2 to R6). -/

namespace Sys2Proof

/-- A byte of storage (R4). -/
abbrev Byte := BitVec 8

/-- A general-register pattern (07_scalar_control.md R160). -/
abbrev Word := BitVec 64

/-- An instruction word (06_encoding.md R132). -/
abbrev IWord := BitVec 32

end Sys2Proof
end

