-- ==== Sys2Proof/Config.lean ====
section
/-! DEFINITION. What an implementation fixes and the free values: constants without a
body, so that no proof can see what they are (notes/assumptions/20.md and 21.md). -/

namespace Sys2Proof

/-- The free value of the n-th draw: a value the spec leaves open
(notes/assumptions/20.md). -/
opaque Config.freeValue : Nat → BitVec 64

/-- The bits a bounded special function returns for a finite operand outside its exact
cases, as a count of units in the last place away from the nearest value, by function,
type code and operand (10_vector.md R242; notes/assumptions/21.md). -/
opaque Config.specialUlp : Nat → BitVec 5 → BitVec 32 → Int

/-- The free value of a byte that the spec leaves open: a bank byte after a turn or a save, by
the draw, the logical column and the offset (02_execution_model.md R37;
notes/assumptions/20.md); a byte of the arrival spill area (R33; notes/assumptions/67.md). -/
opaque Config.freeByte : Nat → Nat → Nat → Byte

/-- The HBM channel that holds a host-physical address: the spec gives no interleave
(14_scheduling.md R327; notes/assumptions/75.md). -/
opaque Config.channelOf : Nat → Nat

/-- Where in its channel a host-physical address lies: pseudo-channel, layer, bank, row and word, at
the bits of an array record (23_faults_memory.md R422; notes/assumptions/37.md). -/
opaque Config.placeOf : Nat → BitVec 64

/-- The frames that firmware keeps for itself: the spec gives no count (03_storage_model.md R83;
notes/assumptions/76.md). -/
opaque Config.firmwareReserve : Nat

end Sys2Proof
end

