-- ==== Sys2Proof/Syntax.lean ====
section
/-! DEFINITION. The instructions of Nalras-3 and the events of the machine: one
constructor of `Instr` for each row of spec/opcode_table.json, with the operand
types its fields have (06_encoding.md R137 to R150). Words carry their operand
fields; bit E of a word delimits packets (R133) and is no operand. Event rows have no
fields: the operands of an event stand in the state (`State.ev`), set when the event is
due, because an event has no encoding that could carry them. -/

namespace Sys2Proof

/-- Comparison conditions of `pcmp` and `pcmpi` (R143). -/
inductive Cond | eq | ne | lt | ge | ltn | gen
  deriving DecidableEq, Repr

/-- Comparison conditions of `vcmp` (R146, R243). -/
inductive VCond | eq | ne | lt | le | gt | ge | un
  deriving DecidableEq, Repr

/-- Element types with the codes of R85. -/
inductive EType
  | f32 | bf16 | f16 | e5m2 | e4m3 | e3m2 | e2m3 | e2m1
  | i4 | i8 | i16 | i32 | i64 | n4 | n8 | n16 | n32 | n64
  deriving DecidableEq, Repr

/-- Rounding modes (R95). -/
inductive RMode | rne | rtz | rdn | rup | rsr
  deriving DecidableEq, Repr

/-- Fence scopes (R144, R195). -/
inductive Scope | core | column | position | region | package | domain | system
  deriving DecidableEq, Repr

/-- Ordering variants of atomics and HBM words (R149, R188). -/
inductive Order | none | acq | rel
  deriving DecidableEq, Repr

/-- Kinds of view (R61, R62). -/
inductive ViewKind | v | m | a
  deriving DecidableEq, Repr

/-- Sizes of a composed core (R226). -/
inductive CmpN | two | four | eight
  deriving DecidableEq, Repr

/-- The control and status registers (R172). -/
inductive Csr
  | cyc | ocyc | turnno | devtime | lcid | rgsize | turnh | bankext | vshape | frm
  | fflags | srseed | srcnt | mgamma | gmask | lpbeg | lpend | lpcnt | tlpcnt | ocmp
  | evec | epc | ecause | estat | einfo | escr0 | escr1
  deriving DecidableEq, Repr

/-- A region's context: an owner on a circuit (R26, R27; circuit 0 is whole, prompt
or A, circuit 1 is token or B, R79). -/
structure RegionId where
  owner : Nat
  circ : Nat
  deriving DecidableEq, Repr

/-- A core by its owner-relative name: the region and the 12-bit core number (R29). -/
structure CoreId where
  owner : Nat
  circ : Nat
  num : Nat
  deriving DecidableEq, Repr

/-- A column of a region by its logical number (R28). -/
structure ColId where
  owner : Nat
  circ : Nat
  lcol : Nat
  deriving DecidableEq, Repr

/-- The stores of a column (R12, R399). -/
inductive StoreKind | reg | scratch | bank
  deriving DecidableEq, Repr

/-- What a check of a stored word finds (R397, R419). -/
inductive CellError | none | single (bit : Nat) | double
  deriving DecidableEq, Repr

/-- What the reply of an HBM read meets on its way (R418, R419). -/
inductive ReadOutcome
  | clean | arrayCorrected (bit : Nat) | arrayUncorrectable
  | cacheCorrected | cacheCleanLost | cacheDirtyLost
  deriving DecidableEq, Repr

/-- A 64-byte burst on a vertical lane group (R420, R421, R422). -/
structure Burst where
  stack : Nat
  channel : Nat
  pc : Bool
  write : Bool
  beat : Nat
  addr : Nat
  deriving DecidableEq, Repr

/-- A mint request that creates an object (R339); `obj` and `root` are the number and
the memory the mint chooses, `lm` and `creg` name the capability register. -/
structure MintCreate where
  obj : BitVec 15
  kind : BitVec 2
  length : BitVec 48
  root : BitVec 64
  circ : Bool
  lm : Nat
  creg : BitVec 4
  window : Bool
  deriving DecidableEq, Repr

/-- A firmware image as the boot ROM or the monitor verifies it (R340, R452): whether its two
signatures verify, the hashes of their public keys, its digest. -/
structure Image where
  ecdsaOk : Bool
  lmsOk : Bool
  ecdsaKey : BitVec 384
  lmsKey : BitVec 384
  digest : Option (BitVec 384)
  deriving DecidableEq, Repr

/-- The three circuit configurations (R17). -/
inductive Circuits | whole | split | halves
  deriving DecidableEq, Repr

/-- What the boot of a device reset decides (R13, R17, R30, R333, R340). -/
structure BootChoice where
  config : Circuits
  period : Nat
  rates : List Nat
  failed : List (Nat × Nat)
  fabricId : BitVec 9
  monitor : Image
  scheduler : Image
  /-- Firmware cores that start with the monitor, at level 2, or with the scheduler, at level 1: the
  core, whether it runs the monitor, the pc, and the bytes of its store (R175, R338). -/
  starts : List (Nat × Bool × Nat × List (BitVec 8))
  deriving DecidableEq, Repr

/-- The instructions and events, one constructor per row of spec/opcode_table.json. -/
inductive Instr
  /-- `ADD` (R163): Writes a + b to gd. -/
  | add (rd : BitVec 6) (ra : BitVec 6) (rb : BitVec 6)
  /-- `SUB` (R163): Writes a − b to gd. -/
  | sub (rd : BitVec 6) (ra : BitVec 6) (rb : BitVec 6)
  /-- `AND` (R163): Writes the bitwise AND of a and b. -/
  | and (rd : BitVec 6) (ra : BitVec 6) (rb : BitVec 6)
  /-- `OR` (R163): Writes the bitwise OR of a and b. -/
  | or (rd : BitVec 6) (ra : BitVec 6) (rb : BitVec 6)
  /-- `XOR` (R163): Writes the bitwise exclusive OR of a and b. -/
  | xor (rd : BitVec 6) (ra : BitVec 6) (rb : BitVec 6)
  /-- `SHL` (R163): Shifts a left by b[5:0]. -/
  | shl (rd : BitVec 6) (ra : BitVec 6) (rb : BitVec 6)
  /-- `SHR` (R163): Shifts a logically right by b[5:0]. -/
  | shr (rd : BitVec 6) (ra : BitVec 6) (rb : BitVec 6)
  /-- `SRA` (R163): Shifts a arithmetically right by b[5:0]. -/
  | sra (rd : BitVec 6) (ra : BitVec 6) (rb : BitVec 6)
  /-- `MUL` (R163): Writes the low 64 bits of a × b after 3 cc. -/
  | mul (rd : BitVec 6) (ra : BitVec 6) (rb : BitVec 6)
  /-- `MULH` (R163): Writes the high 64 bits of the signed product. -/
  | mulh (rd : BitVec 6) (ra : BitVec 6) (rb : BitVec 6)
  /-- `MULHN` (R163): Writes the high 64 bits of the unsigned product. -/
  | mulhn (rd : BitVec 6) (ra : BitVec 6) (rb : BitVec 6)
  /-- `DIV` (R164): Signed interlocked division, truncated towards zero. -/
  | div (rd : BitVec 6) (ra : BitVec 6) (rb : BitVec 6)
  /-- `DIVN` (R164): Unsigned interlocked division. -/
  | divn (rd : BitVec 6) (ra : BitVec 6) (rb : BitVec 6)
  /-- `REM` (R164): Signed interlocked remainder. -/
  | rem (rd : BitVec 6) (ra : BitVec 6) (rb : BitVec 6)
  /-- `REMN` (R164): Unsigned interlocked remainder. -/
  | remn (rd : BitVec 6) (ra : BitVec 6) (rb : BitVec 6)
  /-- `MIN` (R163): Writes the signed lesser of a and b. -/
  | min (rd : BitVec 6) (ra : BitVec 6) (rb : BitVec 6)
  /-- `MAX` (R163): Writes the signed greater of a and b. -/
  | max (rd : BitVec 6) (ra : BitVec 6) (rb : BitVec 6)
  /-- `MINN` (R163): Writes the unsigned lesser of a and b. -/
  | minn (rd : BitVec 6) (ra : BitVec 6) (rb : BitVec 6)
  /-- `MAXN` (R163): Writes the unsigned greater of a and b. -/
  | maxn (rd : BitVec 6) (ra : BitVec 6) (rb : BitVec 6)
  /-- `SLT` (R163): Writes 1 if a < b signed, else 0. -/
  | slt (rd : BitVec 6) (ra : BitVec 6) (rb : BitVec 6)
  /-- `SLTN` (R163): Writes 1 if a < b unsigned, else 0. -/
  | sltn (rd : BitVec 6) (ra : BitVec 6) (rb : BitVec 6)
  /-- `CLZ` (R163): Counts leading zero bits of a. -/
  | clz (rd : BitVec 6) (ra : BitVec 6)
  /-- `CTZ` (R163): Counts trailing zero bits of a. -/
  | ctz (rd : BitVec 6) (ra : BitVec 6)
  /-- `POPC` (R163): Counts set bits of a. -/
  | popc (rd : BitVec 6) (ra : BitVec 6)
  /-- `SEXT` (R163): Sign-extends the low w bits of a. -/
  | sext (rd : BitVec 6) (ra : BitVec 6) (w : BitVec 6)
  /-- `ZEXT` (R163): Zero-extends the low w bits of a. -/
  | zext (rd : BitVec 6) (ra : BitVec 6) (w : BitVec 6)
  /-- `BEXT` (R165): Extracts the bit field that b describes from a. -/
  | bext (rd : BitVec 6) (ra : BitVec 6) (rb : BitVec 6)
  /-- `BINS` (R165): Inserts the low bits of a into the field of gd that b describes. -/
  | bins (rd : BitVec 6) (ra : BitVec 6) (rb : BitVec 6)
  /-- `NOP` (R163): Does nothing. -/
  | nop
  /-- `SEL` (R163): Writes a if predicate pk is 1, else b. -/
  | sel (rd : BitVec 6) (ra : BitVec 6) (rb : BitVec 6) (k : BitVec 3)
  /-- `PCMP` (R167): Sets pd to a register comparison under the condition field. -/
  | pcmp (c : Cond) (p : BitVec 3) (ra : BitVec 6) (rb : BitVec 6)
  /-- `PAND` (R167): Sets pd to pa AND pb. -/
  | pand (d : BitVec 3) (a : BitVec 3) (b : BitVec 3)
  /-- `POR` (R167): Sets pd to pa OR pb. -/
  | por (d : BitVec 3) (a : BitVec 3) (b : BitVec 3)
  /-- `PNOT` (R167): Sets pd to NOT pa. -/
  | pnot (d : BitVec 3) (a : BitVec 3)
  /-- `JR` (R168): Jumps to the offset held in ga. -/
  | jr (ra : BitVec 6)
  /-- `TRET` (R178): Returns from a handler, restoring level and lpcnt and replaying the queue image. -/
  | tret
  /-- `WFE` (R181): Waits for the core's event latch and clears it. -/
  | wfe
  /-- `XTAKE` (R207): Waits for presence, takes the inbox value and clears presence. -/
  | xtake (rd : BitVec 6) (x : BitVec 5)
  /-- `XTST` (R207): Copies an inbox presence bit into a predicate. -/
  | xtst (p : BitVec 3) (x : BitVec 5)
  /-- `XCLR` (R207): Clears an inbox presence bit. -/
  | xclr (x : BitVec 5)
  /-- `FEINIT` (R198): Sets full/empty bits of a run of own scratch lines. -/
  | feinit (ra : BitVec 6) (rb : BitVec 6)
  /-- `RINIT` (R203): Loads a checked ring handle image into a q register. -/
  | rinit (q : BitVec 3) (ra : BitVec 6)
  /-- `ADDI` (R166): Writes a + sign-extended immediate. -/
  | addi (rd : BitVec 6) (ra : BitVec 6) (imm : BitVec 12)
  /-- `SLTI` (R166): Writes 1 if a is below the immediate, signed. -/
  | slti (rd : BitVec 6) (ra : BitVec 6) (imm : BitVec 12)
  /-- `ANDI` (R166): ANDs a with the immediate. -/
  | andi (rd : BitVec 6) (ra : BitVec 6) (imm : BitVec 12)
  /-- `ORI` (R166): ORs a with the immediate. -/
  | ori (rd : BitVec 6) (ra : BitVec 6) (imm : BitVec 12)
  /-- `XORI` (R166): Exclusive-ORs a with the immediate. -/
  | xori (rd : BitVec 6) (ra : BitVec 6) (imm : BitVec 12)
  /-- `SHLI` (R166): Shifts a left by an immediate count. -/
  | shli (rd : BitVec 6) (ra : BitVec 6) (n : BitVec 6)
  /-- `SHRI` (R166): Shifts a logically right by an immediate count. -/
  | shri (rd : BitVec 6) (ra : BitVec 6) (n : BitVec 6)
  /-- `SRAI` (R166): Shifts a arithmetically right by an immediate count. -/
  | srai (rd : BitVec 6) (ra : BitVec 6) (n : BitVec 6)
  /-- `PCMPI` (R167): Sets pd to a comparison of a with the immediate. -/
  | pcmpi (c : Cond) (p : BitVec 3) (ra : BitVec 6) (imm : BitVec 12)
  /-- `MOVI` (R166): Writes a sign-extended 18-bit immediate. -/
  | movi (rd : BitVec 6) (imm : BitVec 18)
  /-- `CSRR` (R170): Reads a CSR into gd. -/
  | csrr (rd : BitVec 6) (csr : Csr)
  /-- `CSRW` (R170): Writes a CSR from ga. -/
  | csrw (ra : BitVec 6) (csr : Csr)
  /-- `CSRS` (R170): Sets CSR bits from ga. -/
  | csrs (ra : BitVec 6) (csr : Csr)
  /-- `CSRC` (R170): Clears CSR bits from ga. -/
  | csrc (ra : BitVec 6) (csr : Csr)
  /-- `FENCE` (R195): Waits until the selected ordering pairs hold within the scope. -/
  | fence (o : BitVec 4) (sc : Scope)
  /-- `CSET` (R200): Writes an arrival cell. -/
  | cset (w : BitVec 5) (ra : BitVec 6) (imm : BitVec 12)
  /-- `CADD` (R200): Adds to an arrival cell, wrapping. -/
  | cadd (w : BitVec 5) (ra : BitVec 6) (imm : BitVec 12)
  /-- `WAIT` (R201): Waits until a cell equals 0. -/
  | wait (w : BitVec 5)
  /-- `WAITLE` (R201): Waits until a cell is at most k. -/
  | waitle (w : BitVec 5) (ra : BitVec 6) (imm : BitVec 12)
  /-- `TRAP` (R177): Enters the class 0x01 handler at the next boundary. -/
  | trap (code : BitVec 12)
  /-- `SVC` (R177): Enters the class 0x02 handler at the next boundary. -/
  | svc (code : BitVec 12)
  /-- `BR` (R168): Branches unconditionally. -/
  | br (disp : BitVec 19)
  /-- `BP` (R168): Branches when the predicate is 1. -/
  | bp (p : BitVec 3) (disp : BitVec 19)
  /-- `BNP` (R168): Branches when the predicate is 0. -/
  | bnp (p : BitVec 3) (disp : BitVec 19)
  /-- `JAL` (R168): Branches and writes the link to g1. -/
  | jal (disp : BitVec 19)
  /-- `LOOP` (R169): Sets up a zero-overhead loop, or skips the body when the count is 0. -/
  | loop (ra : BitVec 6) (imm : BitVec 12)
  /-- `LDB` (R184): Loads a sign-extended byte. -/
  | ldb (rt : BitVec 6) (ra : BitVec 6) (disp : BitVec 10)
  /-- `LDBN` (R184): Loads a zero-extended byte. -/
  | ldbn (rt : BitVec 6) (ra : BitVec 6) (disp : BitVec 10)
  /-- `LDH` (R184): Loads a sign-extended half. -/
  | ldh (rt : BitVec 6) (ra : BitVec 6) (disp : BitVec 10)
  /-- `LDHN` (R184): Loads a zero-extended half. -/
  | ldhn (rt : BitVec 6) (ra : BitVec 6) (disp : BitVec 10)
  /-- `LDW` (R184): Loads a sign-extended word. -/
  | ldw (rt : BitVec 6) (ra : BitVec 6) (disp : BitVec 10)
  /-- `LDWN` (R184): Loads a zero-extended word. -/
  | ldwn (rt : BitVec 6) (ra : BitVec 6) (disp : BitVec 10)
  /-- `LDD` (R184): Loads a dword. -/
  | ldd (rt : BitVec 6) (ra : BitVec 6) (disp : BitVec 10)
  /-- `LDB_ACQ` (R188): Byte load with acquire. -/
  | ldbAcq (rt : BitVec 6) (ra : BitVec 6) (disp : BitVec 10)
  /-- `LDBN_ACQ` (R188): Unsigned byte load with acquire. -/
  | ldbnAcq (rt : BitVec 6) (ra : BitVec 6) (disp : BitVec 10)
  /-- `LDH_ACQ` (R188): Half load with acquire. -/
  | ldhAcq (rt : BitVec 6) (ra : BitVec 6) (disp : BitVec 10)
  /-- `LDHN_ACQ` (R188): Unsigned half load with acquire. -/
  | ldhnAcq (rt : BitVec 6) (ra : BitVec 6) (disp : BitVec 10)
  /-- `LDW_ACQ` (R188): Word load with acquire. -/
  | ldwAcq (rt : BitVec 6) (ra : BitVec 6) (disp : BitVec 10)
  /-- `LDWN_ACQ` (R188): Unsigned word load with acquire. -/
  | ldwnAcq (rt : BitVec 6) (ra : BitVec 6) (disp : BitVec 10)
  /-- `LDD_ACQ` (R188): Dword load with acquire. -/
  | lddAcq (rt : BitVec 6) (ra : BitVec 6) (disp : BitVec 10)
  /-- `STB` (R184): Stores a byte. -/
  | stb (rt : BitVec 6) (ra : BitVec 6) (disp : BitVec 10)
  /-- `STH` (R184): Stores a half. -/
  | sth (rt : BitVec 6) (ra : BitVec 6) (disp : BitVec 10)
  /-- `STW` (R184): Stores a word. -/
  | stw (rt : BitVec 6) (ra : BitVec 6) (disp : BitVec 10)
  /-- `STD` (R184): Stores a dword. -/
  | std (rt : BitVec 6) (ra : BitVec 6) (disp : BitVec 10)
  /-- `STB_REL` (R188): Byte store with release. -/
  | stbRel (rt : BitVec 6) (ra : BitVec 6) (disp : BitVec 10)
  /-- `STH_REL` (R188): Half store with release. -/
  | sthRel (rt : BitVec 6) (ra : BitVec 6) (disp : BitVec 10)
  /-- `STW_REL` (R188): Word store with release. -/
  | stwRel (rt : BitVec 6) (ra : BitVec 6) (disp : BitVec 10)
  /-- `STD_REL` (R188): Dword store with release. -/
  | stdRel (rt : BitVec 6) (ra : BitVec 6) (disp : BitVec 10)
  /-- `LDFE` (R198): Waits for a full line, loads a dword and marks the line empty. -/
  | ldfe (rt : BitVec 6) (ra : BitVec 6) (disp : BitVec 10)
  /-- `STFE` (R198): Stores a dword into an empty line and marks it full, as a release. -/
  | stfe (rt : BitVec 6) (ra : BitVec 6) (disp : BitVec 10)
  /-- `VADD` (R239): Element-wise add. -/
  | vadd (vd : BitVec 5) (va : BitVec 5) (vb : BitVec 5) (t : EType)
  /-- `VSUB` (R239): Element-wise subtract. -/
  | vsub (vd : BitVec 5) (va : BitVec 5) (vb : BitVec 5) (t : EType)
  /-- `VMUL` (R239): Element-wise multiply. -/
  | vmul (vd : BitVec 5) (va : BitVec 5) (vb : BitVec 5) (t : EType)
  /-- `VMIN` (R239): Element-wise minimum. -/
  | vmin (vd : BitVec 5) (va : BitVec 5) (vb : BitVec 5) (t : EType)
  /-- `VMAX` (R239): Element-wise maximum. -/
  | vmax (vd : BitVec 5) (va : BitVec 5) (vb : BitVec 5) (t : EType)
  /-- `VABS` (R239): Element-wise absolute value. -/
  | vabs (vd : BitVec 5) (va : BitVec 5) (t : EType)
  /-- `VNEG` (R239): Element-wise negation. -/
  | vneg (vd : BitVec 5) (va : BitVec 5) (t : EType)
  /-- `VDIV` (R239): Element-wise correctly rounded division. -/
  | vdiv (vd : BitVec 5) (va : BitVec 5) (vb : BitVec 5) (t : EType)
  /-- `VSQRT` (R239): Element-wise correctly rounded square root. -/
  | vsqrt (vd : BitVec 5) (va : BitVec 5) (t : EType)
  /-- `VAND` (R238): Element-wise bitwise AND. -/
  | vand (vd : BitVec 5) (va : BitVec 5) (vb : BitVec 5) (t : EType)
  /-- `VOR` (R238): Element-wise bitwise OR. -/
  | vor (vd : BitVec 5) (va : BitVec 5) (vb : BitVec 5) (t : EType)
  /-- `VXOR` (R238): Element-wise exclusive OR. -/
  | vxor (vd : BitVec 5) (va : BitVec 5) (vb : BitVec 5) (t : EType)
  /-- `VNOT` (R238): Element-wise complement. -/
  | vnot (vd : BitVec 5) (va : BitVec 5) (t : EType)
  /-- `VSHL` (R238): Element-wise left shift. -/
  | vshl (vd : BitVec 5) (va : BitVec 5) (vb : BitVec 5) (t : EType)
  /-- `VSHR` (R238): Element-wise logical right shift. -/
  | vshr (vd : BitVec 5) (va : BitVec 5) (vb : BitVec 5) (t : EType)
  /-- `VSRA` (R238): Element-wise arithmetic right shift. -/
  | vsra (vd : BitVec 5) (va : BitVec 5) (vb : BitVec 5) (t : EType)
  /-- `VMULH` (R238): Element-wise high half of the product. -/
  | vmulh (vd : BitVec 5) (va : BitVec 5) (vb : BitVec 5) (t : EType)
  /-- `VEXP` (R242): Element-wise e^x. -/
  | vexp (vd : BitVec 5) (va : BitVec 5) (t : EType)
  /-- `VEXP2` (R242): Element-wise 2^x. -/
  | vexp2 (vd : BitVec 5) (va : BitVec 5) (t : EType)
  /-- `VLOG2` (R242): Element-wise log2. -/
  | vlog2 (vd : BitVec 5) (va : BitVec 5) (t : EType)
  /-- `VRCP` (R242): Element-wise reciprocal. -/
  | vrcp (vd : BitVec 5) (va : BitVec 5) (t : EType)
  /-- `VRSQRT` (R242): Element-wise reciprocal square root. -/
  | vrsqrt (vd : BitVec 5) (va : BitVec 5) (t : EType)
  /-- `VTANH` (R242): Element-wise tanh. -/
  | vtanh (vd : BitVec 5) (va : BitVec 5) (t : EType)
  /-- `VSIGM` (R242): Element-wise logistic sigmoid. -/
  | vsigm (vd : BitVec 5) (va : BitVec 5) (t : EType)
  /-- `VFMA` (R241): Fused a × b + c. -/
  | vfma (vd : BitVec 5) (va : BitVec 5) (vb : BitVec 5) (vc : BitVec 5) (t : EType)
  /-- `VFMS` (R241): Fused a × b − c. -/
  | vfms (vd : BitVec 5) (va : BitVec 5) (vb : BitVec 5) (vc : BitVec 5) (t : EType)
  /-- `VFNMA` (R241): Fused −(a × b) − c. -/
  | vfnma (vd : BitVec 5) (va : BitVec 5) (vb : BitVec 5) (vc : BitVec 5) (t : EType)
  /-- `VFNMS` (R241): Fused −(a × b) + c. -/
  | vfnms (vd : BitVec 5) (va : BitVec 5) (vb : BitVec 5) (vc : BitVec 5) (t : EType)
  /-- `VSEL` (R244): Selects elements of vt or vf by the mask view. -/
  | vsel (vd : BitVec 5) (vm : BitVec 5) (vt : BitVec 5) (vf : BitVec 5) (t : EType)
  /-- `VCMP` (R243): Element-wise compare giving all-ones or zero masks. -/
  | vcmp (vd : BitVec 5) (va : BitVec 5) (vb : BitVec 5) (t : EType) (c : VCond)
  /-- `VCVT` (R251): Converts elements between types. -/
  | vcvt (vd : BitVec 5) (va : BitVec 5) (dt : EType) (st : EType) (rm : Option RMode) (sat : Bool)
  /-- `VQNT` (R252): Quantises blocks of 8 to e2m1 with E3M5 scales. -/
  | vqnt (vd : BitVec 5) (va : BitVec 5) (vs : BitVec 5) (rm : Option RMode)
  /-- `VDQNT` (R253): Dequantises e2m1 elements by their block scales. -/
  | vdqnt (vd : BitVec 5) (va : BitVec 5) (vs : BitVec 5) (dt : EType)
  /-- `VRSUM` (R245): Tree sum of each row. -/
  | vrsum (vd : BitVec 5) (va : BitVec 5) (t : EType)
  /-- `VCSUM` (R245): Tree sum of each column into row 0. -/
  | vcsum (vd : BitVec 5) (va : BitVec 5) (t : EType)
  /-- `VRMAX` (R245): Maximum of each row. -/
  | vrmax (vd : BitVec 5) (va : BitVec 5) (t : EType)
  /-- `VCMAX` (R245): Maximum of each column into row 0. -/
  | vcmax (vd : BitVec 5) (va : BitVec 5) (t : EType)
  /-- `VMOV` (R246): Copies rows. -/
  | vmov (vd : BitVec 5) (va : BitVec 5)
  /-- `VBCAST` (R246): Copies row 0 into every row. -/
  | vbcast (vd : BitVec 5) (va : BitVec 5)
  /-- `VTRN` (R246): Transposes a square tile. -/
  | vtrn (vd : BitVec 5) (va : BitVec 5) (t : EType)
  /-- `VEXT` (R247): Gathers elements within each row by index. -/
  | vext (vd : BitVec 5) (va : BitVec 5) (vb : BitVec 5) (t : EType)
  /-- `VINS` (R247): Scatters elements within each row by index. -/
  | vins (vd : BitVec 5) (va : BitVec 5) (vb : BitVec 5) (t : EType)
  /-- `VSPLAT` (R247): Sets every element from a general register. -/
  | vsplat (vd : BitVec 5) (g : BitVec 5) (t : EType)
  /-- `VLD` (R248): Loads view rows from scratch. -/
  | vld (vd : BitVec 5) (ga : BitVec 5) (gb : BitVec 5)
  /-- `VST` (R248): Stores view rows to scratch. -/
  | vst (vd : BitVec 5) (ga : BitVec 5) (gb : BitVec 5)
  /-- `VGAT` (R249): Gathers elements from scratch by index. -/
  | vgat (vd : BitVec 5) (ga : BitVec 5) (vb : BitVec 5) (t : EType)
  /-- `VSCT` (R249): Scatters elements to scratch by index. -/
  | vsct (vd : BitVec 5) (ga : BitVec 5) (vb : BitVec 5) (t : EType)
  /-- `VVIEW_IMAGE` (R255): Loads a view-table entry from a 16-byte scratch image. -/
  | vviewImage (vd : BitVec 5) (ga : BitVec 5) (k : ViewKind)
  /-- `VVIEW` (R255): Writes a v view entry from base, pitch and type. -/
  | vview (vd : BitVec 5) (ga : BitVec 5) (gb : BitVec 5) (t : EType)
  /-- `VADD_IMM` (R240): Adds a 16-bit immediate to every element. -/
  | vaddImm (vd : BitVec 5) (imm : BitVec 16)
  /-- `VSUB_IMM` (R240): Subtracts an immediate from every element. -/
  | vsubImm (vd : BitVec 5) (imm : BitVec 16)
  /-- `VMUL_IMM` (R240): Multiplies every element by an immediate. -/
  | vmulImm (vd : BitVec 5) (imm : BitVec 16)
  /-- `VMIN_IMM` (R240): Minimum of each element and an immediate. -/
  | vminImm (vd : BitVec 5) (imm : BitVec 16)
  /-- `VMAX_IMM` (R240): Maximum of each element and an immediate. -/
  | vmaxImm (vd : BitVec 5) (imm : BitVec 16)
  /-- `VAND_IMM` (R240): ANDs each element with an immediate. -/
  | vandImm (vd : BitVec 5) (imm : BitVec 16)
  /-- `VOR_IMM` (R240): ORs each element with an immediate. -/
  | vorImm (vd : BitVec 5) (imm : BitVec 16)
  /-- `VXOR_IMM` (R240): Exclusive-ORs each element with an immediate. -/
  | vxorImm (vd : BitVec 5) (imm : BitVec 16)
  /-- `VSHL_IMM` (R240): Shifts each element left by an immediate. -/
  | vshlImm (vd : BitVec 5) (imm : BitVec 16)
  /-- `VSHR_IMM` (R240): Shifts each element logically right by an immediate. -/
  | vshrImm (vd : BitVec 5) (imm : BitVec 16)
  /-- `VSRA_IMM` (R240): Shifts each element arithmetically right by an immediate. -/
  | vsraImm (vd : BitVec 5) (imm : BitVec 16)
  /-- `VSPLAT_IMM` (R240): Sets every element to an immediate. -/
  | vsplatImm (vd : BitVec 5) (imm : BitVec 16)
  /-- `VSHAPE` (R254): Writes the vshape CSR from an immediate. -/
  | vshape (w : BitVec 6) (r : BitVec 4)
  /-- `MMUL` (R266): Dense gang matrix product into an accumulator view. -/
  | mmul (ad : BitVec 3) (ta : BitVec 6) (tb : BitVec 6) (sa : Bool) (sb : Bool) (sat : Bool) (acc : Bool) (fd : Bool) (rsum : Bool) (csum : Bool) (sv : BitVec 3)
  /-- `MMSP` (R269): N:12 sparse gang matrix product into an accumulator view. -/
  | mmsp (ad : BitVec 3) (ta : BitVec 6) (tb : BitVec 6) (sa : Bool) (sb : Bool) (sat : Bool) (acc : Bool) (fd : Bool) (rsum : Bool) (csum : Bool) (sv : BitVec 3)
  /-- `MGANG` (R262): Arms the gang mask for the next product. -/
  | mgang (m : BitVec 8)
  /-- `MZERO` (R270): Clears an accumulator view on the slice path. -/
  | mzero (ad : BitVec 3)
  /-- `MFADE` (R270): Multiplies an f32 accumulator by mgamma. -/
  | mfade (ad : BitVec 3)
  /-- `TIDSET` (R258): Loads a tensor identifier from a scratch descriptor. -/
  | tidset (t : BitVec 6) (ga : BitVec 6)
  /-- `TIDQ` (R259): Reads a stored or derived identifier field. -/
  | tidq (t : BitVec 6) (rd : BitVec 6) (s : BitVec 4)
  /-- `MDRAIN` (R272): Converts accumulator elements into a register-space destination tile. -/
  | mdrain (ad : BitVec 3) (t : BitVec 6) (vp : BitVec 5) (rm : Option RMode) (sat : Bool)
  /-- `MDRAINR` (R274): Converts accumulator rows into another core's scratch and sends a wake message. -/
  | mdrainr (ad : BitVec 3) (t : BitVec 6) (ga : BitVec 6) (vp : BitVec 5) (rm : Option RMode) (sat : Bool)
  /-- `BCOPY` (R211): Starts a bulk copy counted on a cell. -/
  | bcopy (ga : BitVec 6) (gb : BitVec 6) (gc : BitVec 6) (w : BitVec 5)
  /-- `TLOAD` (R211): Starts a tile load into register space counted on a cell. -/
  | tload (ga : BitVec 6) (gb : BitVec 6) (gc : BitVec 6) (w : BitVec 5)
  /-- `TSTORE` (R211): Starts a tile store from register space counted on a cell. -/
  | tstore (ga : BitVec 6) (gb : BitVec 6) (gc : BitVec 6) (w : BitVec 5)
  /-- `AADD` (R192): Atomic add. -/
  | aadd (rd : BitVec 6) (ra : BitVec 6) (rb : BitVec 6) (o : Order)
  /-- `ASWP` (R192): Atomic swap. -/
  | aswp (rd : BitVec 6) (ra : BitVec 6) (rb : BitVec 6) (o : Order)
  /-- `ACAS` (R192): Atomic compare and swap. -/
  | acas (rd : BitVec 6) (ra : BitVec 6) (rb : BitVec 6) (o : Order)
  /-- `AMIN` (R192): Atomic signed minimum. -/
  | amin (rd : BitVec 6) (ra : BitVec 6) (rb : BitVec 6) (o : Order)
  /-- `AMAX` (R192): Atomic signed maximum. -/
  | amax (rd : BitVec 6) (ra : BitVec 6) (rb : BitVec 6) (o : Order)
  /-- `AMINN` (R192): Atomic unsigned minimum. -/
  | aminn (rd : BitVec 6) (ra : BitVec 6) (rb : BitVec 6) (o : Order)
  /-- `AMAXN` (R192): Atomic unsigned maximum. -/
  | amaxn (rd : BitVec 6) (ra : BitVec 6) (rb : BitVec 6) (o : Order)
  /-- `AAND` (R192): Atomic AND. -/
  | aand (rd : BitVec 6) (ra : BitVec 6) (rb : BitVec 6) (o : Order)
  /-- `AOR` (R192): Atomic OR. -/
  | aor (rd : BitVec 6) (ra : BitVec 6) (rb : BitVec 6) (o : Order)
  /-- `AXOR` (R192): Atomic exclusive OR. -/
  | axor (rd : BitVec 6) (ra : BitVec 6) (rb : BitVec 6) (o : Order)
  /-- `AFADD` (R192): Atomic f32 add. -/
  | afadd (rd : BitVec 6) (ra : BitVec 6) (rb : BitVec 6) (o : Order)
  /-- `XPUT` (R206): Sends a deposit into another core's inbox register. -/
  | xput (ga : BitVec 6) (gb : BitVec 6) (x : BitVec 5)
  /-- `AMSG` (R222): Sends an active message as a release. -/
  | amsg (ga : BitVec 6) (gb : BitVec 6)
  /-- `RADV_POP` (R204): Advances a ring's head by c slots. -/
  | radvPop (ga : BitVec 6) (q : BitVec 3)
  /-- `RADV_PUSH` (R204): Advances a ring's tail by c slots. -/
  | radvPush (ga : BitVec 6) (q : BitVec 3)
  /-- `RADV_CREDIT` (R204): Sends c free credits to the ring's peer. -/
  | radvCredit (ga : BitVec 6) (q : BitVec 3)
  /-- `RADV_FILL` (R204): Advances the tail and sends a release-ordered fill advance to the peer. -/
  | radvFill (ga : BitVec 6) (q : BitVec 3)
  /-- `TINIT` (R220): Writes a TCB and pushes it if its counter is 0. -/
  | tinit (ga : BitVec 6) (gb : BitVec 6) (gc : BitVec 6)
  /-- `TSPAWN` (R221): Pushes a TCB-less entry at the bottom of its own deque. -/
  | tspawn (ga : BitVec 6) (gb : BitVec 6)
  /-- `TFORK` (R221): Pushes a TCB-less entry at the top of its own deque. -/
  | tfork (ga : BitVec 6) (gb : BitVec 6)
  /-- `TSIG` (R223): Signals a TCB by reference with one value. -/
  | tsig (ga : BitVec 6) (gb : BitVec 6)
  /-- `TEND` (R224): Ends the task and signals its successors. -/
  | tend
  /-- `CMPO` (R227): Reserves and binds 2, 4 or 8 cores into a composed core. -/
  | cmpo (rd : BitVec 6) (rs : BitVec 6) (n : CmpN)
  /-- `CMPR` (R229): Releases the members of a composed core. -/
  | cmpr
  /-- `CMPQ` (R230): Returns the composition status word. -/
  | cmpq (rd : BitVec 6)
  /-- `HLD` (R281): Loads 8 bytes from HBM through a capability. -/
  | hld (rd : BitVec 6) (c : BitVec 4) (go : BitVec 6) (o : Order)
  /-- `HST` (R281): Stores 8 bytes to HBM through a capability. -/
  | hst (rv : BitVec 6) (c : BitVec 4) (go : BitVec 6) (o : Order)
  /-- `HLDV` (R283): Loads packed view rows from HBM. -/
  | hldv (v : BitVec 5) (c : BitVec 4) (go : BitVec 6)
  /-- `HSTV` (R283): Stores view rows packed into HBM. -/
  | hstv (v : BitVec 5) (c : BitVec 4) (go : BitVec 6)
  /-- `HGAT` (R284): Gathers masked elements from HBM by index. -/
  | hgat (v : BitVec 5) (c : BitVec 4) (i : BitVec 5)
  /-- `HSCT` (R284): Scatters masked elements to HBM by index. -/
  | hsct (v : BitVec 5) (c : BitVec 4) (i : BitVec 5)
  /-- `HLD_X` (R282): Reads 8 bytes from HBM and deposits them into a core's inbox. -/
  | hldX (gt : BitVec 6) (c : BitVec 4) (go : BitVec 6) (o : Order)
  /-- `HSHIP` (R287): Ships HBM rows to a compute core, counted on its cell. -/
  | hship (ga : BitVec 6) (c : BitVec 4) (go : BitVec 6)
  /-- `HPULL` (R288): Pulls on-chip rows into HBM, counted on the memory core's cell. -/
  | hpull (ga : BitVec 6) (c : BitVec 4) (go : BitVec 6)
  /-- `BGEMV` (R290): Runs a bank-side matrix-vector product delivered to a compute core. -/
  | bgemv (ga : BitVec 6) (c : BitVec 4) (go : BitVec 6)
  /-- `HFENCE_L` (R291): Waits until earlier HBM writes reach their bank write buffers. -/
  | hfenceL
  /-- `OXFER` (R292): Moves an object into escrow towards the other circuit. -/
  | oxfer (c : BitVec 4) (gd : BitVec 6)
  /-- `OACQ` (R293): Takes an object out of escrow onto the issuing circuit. -/
  | oacq (c : BitVec 4)
  /-- `CMOV` (R294): Copies a capability and its tag locally. -/
  | cmov (d : BitVec 4) (s : BitVec 4)
  /-- `CMOV_REMOTE` (R294): Deposits a capability into another core's capability register. -/
  | cmovRemote (d : BitVec 4) (s : BitVec 4) (gc : BitVec 6)
  /-- `CDERIVE` (R295): Derives a capability with narrowed bounds. -/
  | cderive (d : BitVec 4) (s : BitVec 4) (gb : BitVec 6)
  /-- `CRIGHTS` (R296): Narrows a capability's rights. -/
  | crights (d : BitVec 4) (s : BitVec 4) (ga : BitVec 6)
  /-- `HATOM_ADD` (R285): HBM atomic add. -/
  | hatomAdd (rd : BitVec 6) (c : BitVec 4) (go : BitVec 6) (o : Order)
  /-- `HATOM_SWP` (R285): HBM atomic swap. -/
  | hatomSwp (rd : BitVec 6) (c : BitVec 4) (go : BitVec 6) (o : Order)
  /-- `HATOM_CAS` (R285): HBM atomic compare and swap. -/
  | hatomCas (rd : BitVec 6) (c : BitVec 4) (go : BitVec 6) (o : Order)
  /-- `HATOM_MIN` (R285): HBM atomic signed minimum. -/
  | hatomMin (rd : BitVec 6) (c : BitVec 4) (go : BitVec 6) (o : Order)
  /-- `HATOM_MAX` (R285): HBM atomic signed maximum. -/
  | hatomMax (rd : BitVec 6) (c : BitVec 4) (go : BitVec 6) (o : Order)
  /-- `HATOM_MINN` (R285): HBM atomic unsigned minimum. -/
  | hatomMinn (rd : BitVec 6) (c : BitVec 4) (go : BitVec 6) (o : Order)
  /-- `HATOM_MAXN` (R285): HBM atomic unsigned maximum. -/
  | hatomMaxn (rd : BitVec 6) (c : BitVec 4) (go : BitVec 6) (o : Order)
  /-- `HATOM_FADD` (R285): HBM atomic f32 add. -/
  | hatomFadd (rd : BitVec 6) (c : BitVec 4) (go : BitVec 6) (o : Order)
  /-- `HWIMM` (R151): Widens the immediate of the following word. -/
  | hwimm (p : BitVec 24)
  /-- `HBLK` (R152): Opens a composed-mode block of stated length. -/
  | hblk (l : BitVec 4)
  /-- `HGRAN` (R153): Sets the split granule of the following command. -/
  | hgran (g : BitVec 3)
  /-- `HRM` (R154): Supplies the rounding mode for the following word. -/
  | hrm (r : RMode)
  /-- `ILLEGAL_INSTRUCTION` (R373): A fetched word that is no instruction takes class 0x12. -/
  | illegalInstruction
  /-- `PACKET_RULE_VIOLATION` (R374): A packet breaking the packet rules executes nothing and takes class 0x11. -/
  | packetRuleViolation
  /-- `FETCH_FAULT` (R375): A packet running past the end of scratch takes class 0x10. -/
  | fetchFault
  /-- `OWNER_TIMER` (R179): ocyc reaches ocmp.when and the class 0x03 handler is entered. -/
  | ownerTimer
  /-- `DEFERRED_CAUSE_ENTRY` (R365): A pending deferred cause is taken at the next level-0 boundary. -/
  | deferredCauseEntry
  /-- `STORE_BUFFER_EXIT` (R186): The head entry leaves the store buffer once its ordering conditions hold. -/
  | storeBufferExit
  /-- `REMOTE_ACK` (R186): A destination's acknowledgement reaches the issuing core. -/
  | remoteAck
  /-- `REMOTE_STORE_APPLY` (R47): A service engine or bank hart applies an arriving remote store. -/
  | remoteStoreApply
  /-- `REMOTE_LOAD_APPLY` (R187): A destination applies an arriving remote load and replies. -/
  | remoteLoadApply
  /-- `REMOTE_LOAD_REPLY` (R187): A remote load or atomic reply writes its destination register. -/
  | remoteLoadReply
  /-- `ATOMIC_APPLY` (R192): A service engine or bank hart applies an atomic indivisibly. -/
  | atomicApply
  /-- `DEPOSIT_APPLY` (R74): An xput or hld.x deposit writes an inbox register and sets presence. -/
  | depositApply
  /-- `CAP_DEPOSIT_APPLY` (R294): A remote cmov deposit replaces a capability register. -/
  | capDepositApply
  /-- `MESSAGE_APPLY` (R222): An active message pushes a task or decrements a TCB counter. -/
  | messageApply
  /-- `SIGNAL_APPLY` (R223): A tsig or successor signal writes a slot and decrements pcnt. -/
  | signalApply
  /-- `SET_ASIDE_PUSH_APPLY` (R390): A set-aside entry is pushed once a deque-spill entry frees. -/
  | setAsidePushApply
  /-- `RING_CREDIT_ARRIVE` (R71): A credit adds to the free count of the peer's q register. -/
  | ringCreditArrive
  /-- `RING_FILL_ARRIVE` (R71): A fill advance adds to the fill count of the peer's q register. -/
  | ringFillArrive
  /-- `FE_REMOTE_APPLY` (R199): A remote ldfe or stfe is applied or parked in the wait list. -/
  | feRemoteApply
  /-- `FE_PARKED_RETRY` (R199): Parked full/empty operations are retried when a line bit changes. -/
  | feParkedRetry
  /-- `BANK_OP_APPLY` (R75): A bank hart applies a load, store or atomic in arrival order. -/
  | bankOpApply
  /-- `BULK_COMMAND_START` (R211): The copy hart starts a bulk command handed to it. -/
  | bulkCommandStart
  /-- `BULK_BEAT` (R211): The copy hart writes one beat and subtracts it from the cell. -/
  | bulkBeat
  /-- `STEAL_PROBE` (R43): An idle core sends a steal request to the next victim. -/
  | stealProbe
  /-- `STEAL_REQUEST_APPLY` (R217): The victim's service engine removes the top entry and replies. -/
  | stealRequestApply
  /-- `STEAL_REPLY` (R217): A steal reply arrives at the thief, empty or with an entry. -/
  | stealReply
  /-- `TASK_POP` (R217): An idle core pops its own bottom entry. -/
  | taskPop
  /-- `COMPOSE_BIND` (R227): Once members end their tasks, cmpo binds them and starts the first block. -/
  | composeBind
  /-- `GANG_BARRIER` (R263): Every core of the gang waits at its product and the barrier completes. -/
  | gangBarrier
  /-- `GANG_MISMATCH` (R393): Waiting gang cores disagree and each takes class 0x22. -/
  | gangMismatch
  /-- `ARRAY_START` (R264): The head gang starts when the array is free and the purse holds its cost. -/
  | arrayStart
  /-- `ARRAY_COMPLETE` (R268): A product writes accumulators and side vectors and frees the array. -/
  | arrayComplete
  /-- `SLICE_COMPLETE` (R274): A slice-path command completes and releases its bytes. -/
  | sliceComplete
  /-- `MDRAINR_WAKE` (R274): After the last row's acknowledgement the wake message enters the store buffer. -/
  | mdrainrWake
  /-- `PURSE_REFILL` (R326): Each cc a purse gains its refill rate up to 2^20. -/
  | purseRefill
  /-- `PURSE_THROTTLE` (R395): An overheated column's refill rate is set to 0 and later restored. -/
  | purseThrottle
  /-- `WATCHDOG` (R394): A gang or purse wait beyond the owner's limit takes class 0x23. -/
  | watchdog
  /-- `TERMINATION_WAVE` (R46): A wave gathers counts and idleness and may report launch completion. -/
  | terminationWave
  /-- `TURN_ANNOUNCE` (R31): cyc reaches k·T and every core and engine stops at its next boundary. -/
  | turnAnnounce
  /-- `TURN_DRAIN` (R33): Ordinary mesh traffic and store buffers drain into old destinations. -/
  | turnDrain
  /-- `TURN_MOVE` (R34): Every movable store streams its stripes to the successor column. -/
  | turnMove
  /-- `TURN_LANE_RETRY` (R400): A stripe failing its CRC is sent again over the turn lane. -/
  | turnLaneRetry
  /-- `TURN_LANE_FALLBACK` (R401): A stripe failing three retries is sent over the ordinary mesh. -/
  | turnLaneFallback
  /-- `TURN_REMAP` (R31): Region maps, memory-core routing and the turn stamp are updated. -/
  | turnRemap
  /-- `TURN_RESUME` (R35): Spilled arrivals, forwarded replies and records are applied and cores restart. -/
  | turnResume
  /-- `RESULT_FORWARD` (R355): A held memory-core result is forwarded over the turn lane after remap. -/
  | resultForward
  /-- `PREEMPT` (R48): The scheduler switches a region to another owner's context. -/
  | preempt
  /-- `CONTEXT_RESTORE` (R49): A context's stripes are returned or fetched and it resumes. -/
  | contextRestore
  /-- `HBM_READ_REPLY` (R278): An HBM load value returns and lands in its destination. -/
  | hbmReadReply
  /-- `HBM_WRITE_ARRIVE` (R291): An HBM write reaches its bank write buffer. -/
  | hbmWriteArrive
  /-- `HSHIP_BEAT` (R287): A shipped beat is written at the target core and subtracted from its cell. -/
  | hshipBeat
  /-- `HPULL_BEAT` (R288): A pulled beat reaches its bank write buffer and is counted. -/
  | hpullBeat
  /-- `BGEMV_BEAT` (R290): A bgemv output beat is delivered to the target and counted. -/
  | bgemvBeat
  /-- `TRANSLATION_RESOLVED` (R406): Earlier translations map and held shadow effects are released. -/
  | translationResolved
  /-- `TRANSLATION_MISS` (R408): A walk misses at level 0 and the core runs ahead from b. -/
  | translationMiss
  /-- `RUN_AHEAD_END` (R427): Run-ahead ends, the batch is submitted and the core rolls back to b. -/
  | runAheadEnd
  /-- `PAGE_REQUEST_DEQUEUE` (R410): A queued request is written when a table entry frees. -/
  | pageRequestDequeue
  /-- `PAGE_REQUEST_TIMEOUT` (R411): An unanswered request is answered refused at its limit. -/
  | pageRequestTimeout
  /-- `CHECKPOINT_REISSUE` (R412): The packet at b is reissued once every granule it needs has a reply. -/
  | checkpointReissue
  /-- `BULK_RECORD_RESUME` (R414): A bulk record stopped at a miss resumes or faults on the reply. -/
  | bulkRecordResume
  /-- `FRAME_RECLAIM` (R417): A frame beyond some owner's guarantee is reclaimed through the PF ring. -/
  | frameReclaim
  /-- `HBM_SCRUB` (R419): A background scrub reads and corrects codewords in refresh slots. -/
  | hbmScrub
  /-- `TRANSFER_PARITY_RETRY` (R420): A burst failing lane parity is transferred again. -/
  | transferParityRetry
  /-- `LANE_TEST` (R421): After four failed retries the lane group is tested. -/
  | laneTest
  /-- `LANE_SWAP` (R421): The test replaces a failing lane and the burst is sent again. -/
  | laneSwap
  /-- `BACKGROUND_SCRUB` (R397): The scrub reads and corrects protected words on spare cycles. -/
  | backgroundScrub
  /-- `LAUNCH` (R45): Host packet pushing a root task onto a logical core. -/
  | launch
  /-- `LAUNCH_START` (R317): A waiting LAUNCH starts once the previous launch completes and no pause runs. -/
  | launchStart
  /-- `LOAD` (R316): Host packet moving host memory into an object. -/
  | load
  /-- `STORE` (R316): Host packet moving object bytes to host memory. -/
  | store
  /-- `SIGNAL_ADD` (R316): Host packet adding to a device semaphore. -/
  | signalAdd
  /-- `SIGNAL_SET` (R316): Host packet setting a device semaphore. -/
  | signalSet
  /-- `WAIT_PACKET` (R317): Host packet blocking its queue until a semaphore condition holds. -/
  | waitPacket
  /-- `WAIT_COMPLETE` (R317): A WAIT's condition holds and it completes. -/
  | waitComplete
  /-- `ARM_ONCE` (R323): Arms a timer for one release. -/
  | armOnce
  /-- `ARM_PERIODIC` (R323): Arms a periodic timer. -/
  | armPeriodic
  /-- `ARM_CANCEL` (R323): Disarms a timer. -/
  | armCancel
  /-- `BARRIER` (R317): Host packet blocking its queue until earlier packets complete. -/
  | barrier
  /-- `BARRIER_COMPLETE` (R317): Every earlier packet completes and the BARRIER completes. -/
  | barrierComplete
  /-- `LOAD_STORE_COMPLETE` (R317): Every byte of a LOAD or STORE is written and it completes. -/
  | loadStoreComplete
  /-- `TIMER_TICK` (R324): A wheel tick releases due timers into their semaphores. -/
  | timerTick
  /-- `NOTIFY` (R314): A notify write sets the producer index and announces the queue. -/
  | notify
  /-- `QUEUE_KILL` (R439): Writing dword 0 with en = 0 to a live queue kills it. -/
  | queueKill
  /-- `REGISTER_WRITE` (R313): A write to a window register without behaviour of its own. -/
  | registerWrite
  /-- `MAPPER_BIND` (R321): The mapper binds an announced queue to a free slot. -/
  | mapperBind
  /-- `MAPPER_EVICT` (R320): A queue idle for 4,096 cc loses its slot. -/
  | mapperEvict
  /-- `PACKET_TAKE` (R318): The front end reads a header and accepts the packet if sseq matches. -/
  | packetTake
  /-- `HEADER_REREAD` (R318): After a back-off wait the front end re-reads a mismatched header. -/
  | headerReread
  /-- `SUBMIT_TIMEOUT` (R441): The 64th mismatch clears en and writes a status 5 entry. -/
  | submitTimeout
  /-- `COMPLETION_WRITE` (R319): A completion entry is written once the ring has room. -/
  | completionWrite
  /-- `PAGE_REPLY_MAPPED` (R411): A mapped reply restarts the waiting walks. -/
  | pageReplyMapped
  /-- `PAGE_REPLY_REFUSED` (R411): A refused reply makes the waiting access fault with class 0x31. -/
  | pageReplyRefused
  /-- `INVALIDATE_OBJECT` (R332): Drops a cached object-table entry. -/
  | invalidateObject
  /-- `INVALIDATE_EXTENT` (R332): Drops a cached extent node. -/
  | invalidateExtent
  /-- `INVALIDATE_SECOND_STAGE` (R332): Drops a second-stage entry; physical function only. -/
  | invalidateSecondStage
  /-- `INVALIDATE_ALL` (R332): Drops everything cached for the owner. -/
  | invalidateAll
  /-- `INVALIDATE_DONE` (R332): Every cache has dropped the target and busy clears. -/
  | invalidateDone
  /-- `MINT_CREATE` (R339): The mint creates an object and deposits a full-rights capability. -/
  | mintCreate
  /-- `MINT_FREE` (R339): The mint frees an object. -/
  | mintFree
  /-- `MINT_ALIAS` (R346): The mint creates an object aliasing an existing one on a named circuit. -/
  | mintAlias
  /-- `MINT_CHECKPOINT` (R434): The mint sets the owner's checkpoint interval. -/
  | mintCheckpoint
  /-- `CXL_MEM_READ` (R330): A host read of an owner window reaches object bytes. -/
  | cxlMemRead
  /-- `CXL_MEM_WRITE` (R330): A host write of an owner window reaches object bytes. -/
  | cxlMemWrite
  /-- `COLLECTIVE_START` (R337): A collective hart starts a kicked command at rendezvous. -/
  | collectiveStart
  /-- `COLLECTIVE_DONE` (R336): The hart finishes and writes the done word with a release. -/
  | collectiveDone
  /-- `COLLECTIVE_TIMEOUT` (R450): Rendezvous expires and members abandon the command. -/
  | collectiveTimeout
  /-- `LINK_RETRY` (R446): The CXL link retries, retrains or narrows. -/
  | linkRetry
  /-- `LINK_DOWN` (R447): The host link goes down and traffic waits. -/
  | linkDown
  /-- `LINK_DOWN_TIMEOUT` (R447): A link down past the limit resets every virtual function. -/
  | linkDownTimeout
  /-- `LOAD_STORE_LINK_TIMEOUT` (R447): A LOAD or STORE waiting over 2^30 cc completes with status 7. -/
  | loadStoreLinkTimeout
  /-- `FABRIC_FLIT_RETRY` (R448): A fabric flit failing its CRC is resent from the replay buffer. -/
  | fabricFlitRetry
  /-- `FABRIC_RETRAIN` (R448): After eight failures the port retrains and drops failing lanes. -/
  | fabricRetrain
  /-- `REMOTE_HOME_TIMEOUT` (R449): An access held 2^28 cc for an unreachable home strikes the owner. -/
  | remoteHomeTimeout
  /-- `PLUGIN_CALL` (R338): The scheduler calls an owner's plug-in for share and slice. -/
  | pluginCall
  /-- `PLUGIN_FAULT` (R451): A plug-in breach or timeout stops it and the default policy applies. -/
  | pluginFault
  /-- `PLUGIN_LOAD` (R340): The physical function loads and verifies a plug-in. -/
  | pluginLoad
  /-- `DEVICE_RESET` (R340): Reset runs training, column test and firmware verification. -/
  | deviceReset
  /-- `ATTESTATION_REQUEST` (R341): Signs a report over measurements and a nonce, or errors when exhausted. -/
  | attestationRequest
  /-- `FUNCTION_LEVEL_RESET` (R439): Kills a function's 32 queues and frees its regions, objects and frames. -/
  | functionLevelReset
  /-- `REGION_CREATE` (R27): The Bamind scheduler creates a region of P positions, assigns its memory cores, and zeroes its column banks. -/
  | regionCreate
  /-- `REGION_RESIZE` (R27): The Bamind scheduler resizes a region while none of the owner's contexts is resident in it. -/
  | regionResize
  /-- `REGION_FREE` (R27): The Bamind scheduler frees a region and its memory-core assignment. -/
  | regionFree
  /-- `LINK_UP` (R447): The host link returns, and the completions, page requests and DMA beats held in the front end flow in order. -/
  | linkUp
  /-- `HOST_ENUMERATION` (R447): The host enumerates the device again after a link-down reset of every virtual function. -/
  | hostEnumeration
  /-- `PAGE_REQUEST_RING_ENABLE` (R411): Writing en = 1 in a function's page-request ring control writes the waiting requests and starts their reply limits. -/
  | pageRequestRingEnable
  /-- `RECLAIM_REPLY` (R417): The hypervisor's reply to a reclaim entry frees the frame for the function below its guarantee. -/
  | reclaimReply
  /-- `FABRIC_REQUEST_ARRIVE` (R415): An access from another module's memory core arrives over the fabric and is walked and applied at this module's HBM. -/
  | fabricRequestArrive
  /-- `DIVISION_COMPLETE` (R164): An interlocked division result lands in gd at most 34 cc after issue. -/
  | divisionComplete
  /-- `FRAME_COUNTS_SET` (R83): The Bamind scheduler sets a function's guaranteed and burstable frame counts. -/
  | frameCountsSet
  /-- `REFILL_RATE_SET` (R14): Firmware or the power controller sets a purse's refill rate from temperature or the power budget. -/
  | refillRateSet
  /-- `OPERATOR_KEY_ENROL` (R340): The physical function enrols an operator key pair for signing plug-ins. -/
  | operatorKeyEnrol
  deriving DecidableEq, Repr

end Sys2Proof
end

