-- ==== Sys2Proof/WellFormed.lean ====
section
/-! DEFINITION. Which instructions of `Instr` the encoding tables can express: the
limits that the operand types do not already hold (06_encoding.md R139, R148, R149;
12_memory_core.md R280, R294; 11_matrix.md R259, R265). -/

namespace Sys2Proof

/-- Whether an instruction is a word with an encoding (an event row has none). -/
def Instr.isWord : Instr → Bool
  | .illegalInstruction => false
  | .packetRuleViolation => false
  | .fetchFault => false
  | .ownerTimer => false
  | .deferredCauseEntry => false
  | .storeBufferExit => false
  | .remoteAck => false
  | .remoteStoreApply => false
  | .remoteLoadApply => false
  | .remoteLoadReply => false
  | .atomicApply => false
  | .depositApply => false
  | .capDepositApply => false
  | .messageApply => false
  | .signalApply => false
  | .setAsidePushApply => false
  | .ringCreditArrive => false
  | .ringFillArrive => false
  | .feRemoteApply => false
  | .feParkedRetry => false
  | .bankOpApply => false
  | .bulkCommandStart => false
  | .bulkBeat => false
  | .stealProbe => false
  | .stealRequestApply => false
  | .stealReply => false
  | .taskPop => false
  | .composeBind => false
  | .gangBarrier => false
  | .gangMismatch => false
  | .arrayStart => false
  | .arrayComplete => false
  | .sliceComplete => false
  | .mdrainrWake => false
  | .purseRefill => false
  | .purseThrottle => false
  | .watchdog => false
  | .terminationWave => false
  | .turnAnnounce => false
  | .turnDrain => false
  | .turnMove => false
  | .turnLaneRetry => false
  | .turnLaneFallback => false
  | .turnRemap => false
  | .turnResume => false
  | .resultForward => false
  | .preempt => false
  | .contextRestore => false
  | .hbmReadReply => false
  | .hbmWriteArrive => false
  | .hshipBeat => false
  | .hpullBeat => false
  | .bgemvBeat => false
  | .translationResolved => false
  | .translationMiss => false
  | .runAheadEnd => false
  | .pageRequestDequeue => false
  | .pageRequestTimeout => false
  | .checkpointReissue => false
  | .bulkRecordResume => false
  | .frameReclaim => false
  | .hbmScrub => false
  | .transferParityRetry => false
  | .laneTest => false
  | .laneSwap => false
  | .backgroundScrub => false
  | .launch => false
  | .launchStart => false
  | .load => false
  | .store => false
  | .signalAdd => false
  | .signalSet => false
  | .waitPacket => false
  | .waitComplete => false
  | .armOnce => false
  | .armPeriodic => false
  | .armCancel => false
  | .barrier => false
  | .barrierComplete => false
  | .loadStoreComplete => false
  | .timerTick => false
  | .notify => false
  | .queueKill => false
  | .registerWrite => false
  | .mapperBind => false
  | .mapperEvict => false
  | .packetTake => false
  | .headerReread => false
  | .submitTimeout => false
  | .completionWrite => false
  | .pageReplyMapped => false
  | .pageReplyRefused => false
  | .invalidateObject => false
  | .invalidateExtent => false
  | .invalidateSecondStage => false
  | .invalidateAll => false
  | .invalidateDone => false
  | .mintCreate => false
  | .mintFree => false
  | .mintAlias => false
  | .mintCheckpoint => false
  | .cxlMemRead => false
  | .cxlMemWrite => false
  | .collectiveStart => false
  | .collectiveDone => false
  | .collectiveTimeout => false
  | .linkRetry => false
  | .linkDown => false
  | .linkDownTimeout => false
  | .loadStoreLinkTimeout => false
  | .fabricFlitRetry => false
  | .fabricRetrain => false
  | .remoteHomeTimeout => false
  | .pluginCall => false
  | .pluginFault => false
  | .pluginLoad => false
  | .deviceReset => false
  | .attestationRequest => false
  | .functionLevelReset => false
  | .regionCreate => false
  | .regionResize => false
  | .regionFree => false
  | .linkUp => false
  | .hostEnumeration => false
  | .pageRequestRingEnable => false
  | .reclaimReply => false
  | .fabricRequestArrive => false
  | .divisionComplete => false
  | .frameCountsSet => false
  | .refillRateSet => false
  | .operatorKeyEnrol => false
  | _ => true

/-- The encoding limits of an instruction: `tidq` selectors 12 to 15 are no fields
(R259); the side view of a product is named only with rsum or csum (R265); the HBM
loads take no release and the HBM stores no acquire (R280); a `vview` image goes to
`m` and `a` views 0 to 7 (R255); a remote `cmov` has a non-zero gc field (R294). -/
def Instr.wf : Instr → Bool
  | .tidq _ _ s => s.toNat ≤ 11
  | .mmul _ _ _ _ _ _ _ _ rsum csum sv => rsum || csum || sv == 0
  | .mmsp _ _ _ _ _ _ _ _ rsum csum sv => rsum || csum || sv == 0
  | .hld _ _ _ o => o != .rel
  | .hldX _ _ _ o => o != .rel
  | .hst _ _ _ o => o != .acq
  | .vviewImage vd _ k => k == .v || vd.toNat ≤ 7
  | .cmovRemote _ _ gc => gc != 0
  | _ => true

end Sys2Proof
end

