-- ==== Sys2Proof/Decode.lean ====
section
/-! DEFINITION. Decoding of instruction words (06_encoding.md R132 to R150), total on
every 32-bit pattern and rejecting by the reasons of R139 in their order, and the
encoder written from the same tables. Bit 31 (E) delimits packets (R133) and is read
by the fetch. -/

namespace Sys2Proof

/-! ## Field codes -/

/-- The code of an element type (R85). -/
def EType.code : EType → BitVec 5
  | .f32 => 0x00 | .bf16 => 0x01 | .f16 => 0x02 | .e5m2 => 0x03 | .e4m3 => 0x04
  | .e3m2 => 0x05 | .e2m3 => 0x06 | .e2m1 => 0x07
  | .i4 => 0x08 | .i8 => 0x09 | .i16 => 0x0A | .i32 => 0x0B | .i64 => 0x0C
  | .n4 => 0x10 | .n8 => 0x11 | .n16 => 0x12 | .n32 => 0x13 | .n64 => 0x14

/-- The element type of a code; the codes R85 does not list are reserved. -/
def EType.ofCode (c : BitVec 5) : Option EType :=
  match c.toNat with
  | 0x00 => some .f32 | 0x01 => some .bf16 | 0x02 => some .f16 | 0x03 => some .e5m2
  | 0x04 => some .e4m3 | 0x05 => some .e3m2 | 0x06 => some .e2m3 | 0x07 => some .e2m1
  | 0x08 => some .i4 | 0x09 => some .i8 | 0x0A => some .i16 | 0x0B => some .i32
  | 0x0C => some .i64 | 0x10 => some .n4 | 0x11 => some .n8 | 0x12 => some .n16
  | 0x13 => some .n32 | 0x14 => some .n64
  | _ => none

theorem EType.ofCode_code (t : EType) : EType.ofCode t.code = some t := by
  cases t <;> rfl

/-- The code of a rounding mode (R95). -/
def RMode.code : RMode → BitVec 3
  | .rne => 0 | .rtz => 1 | .rdn => 2 | .rup => 3 | .rsr => 4

/-- The mode of a code; 0b101 to 0b111 name none (R95). -/
def RMode.ofCode (c : BitVec 3) : Option RMode :=
  match c.toNat with
  | 0 => some .rne | 1 => some .rtz | 2 => some .rdn | 3 => some .rup | 4 => some .rsr
  | _ => none

theorem RMode.ofCode_code (r : RMode) : RMode.ofCode r.code = some r := by
  cases r <;> rfl

/-- An rm field: 0b111 when no mode is written (R138). -/
def rmField : Option RMode → BitVec 3
  | none => 0b111
  | some r => r.code

/-- The code of a condition (R143). -/
def Cond.code : Cond → BitVec 3
  | .eq => 0 | .ne => 1 | .lt => 2 | .ge => 3 | .ltn => 4 | .gen => 5

/-- The condition of a code; 0b110 and 0b111 are reserved (R143). -/
def Cond.ofCode (c : BitVec 3) : Option Cond :=
  match c.toNat with
  | 0 => some .eq | 1 => some .ne | 2 => some .lt | 3 => some .ge | 4 => some .ltn
  | 5 => some .gen | _ => none

theorem Cond.ofCode_code (c : Cond) : Cond.ofCode c.code = some c := by
  cases c <;> rfl

/-- The code of a vector condition (R146). -/
def VCond.code : VCond → BitVec 5
  | .eq => 0 | .ne => 1 | .lt => 2 | .le => 3 | .gt => 4 | .ge => 5 | .un => 6

/-- The vector condition of a code (R146). -/
def VCond.ofCode (c : BitVec 5) : Option VCond :=
  match c.toNat with
  | 0 => some .eq | 1 => some .ne | 2 => some .lt | 3 => some .le | 4 => some .gt
  | 5 => some .ge | 6 => some .un | _ => none

theorem VCond.ofCode_code (c : VCond) : VCond.ofCode c.code = some c := by
  cases c <;> rfl

/-- The code of a fence scope (R144). -/
def Scope.code : Scope → BitVec 3
  | .core => 0 | .column => 1 | .position => 2 | .region => 3 | .package => 4
  | .domain => 5 | .system => 6

/-- The scope of a code; 0b111 is reserved (R144). -/
def Scope.ofCode (c : BitVec 3) : Option Scope :=
  match c.toNat with
  | 0 => some .core | 1 => some .column | 2 => some .position | 3 => some .region
  | 4 => some .package | 5 => some .domain | 6 => some .system | _ => none

theorem Scope.ofCode_code (c : Scope) : Scope.ofCode c.code = some c := by
  cases c <;> rfl

/-- The code of an ordering variant (R149). -/
def Order.code : Order → BitVec 2
  | .none => 0 | .acq => 1 | .rel => 2

/-- The ordering variant of a code; 0b11 is reserved (R149). -/
def Order.ofCode (c : BitVec 2) : Option Order :=
  match c.toNat with
  | 0 => some .none | 1 => some .acq | 2 => some .rel | _ => none

theorem Order.ofCode_code (c : Order) : Order.ofCode c.code = some c := by
  cases c <;> rfl

/-- The code of a view kind in a `vview` image word (R255). -/
def ViewKind.code : ViewKind → BitVec 2
  | .v => 0 | .m => 1 | .a => 2

/-- The view kind of a code (R255). -/
def ViewKind.ofCode (c : BitVec 2) : Option ViewKind :=
  match c.toNat with
  | 0 => some .v | 1 => some .m | 2 => some .a | _ => none

theorem ViewKind.ofCode_code (c : ViewKind) : ViewKind.ofCode c.code = some c := by
  cases c <;> rfl

/-- The minor of a composition size (R226). -/
def CmpN.code : CmpN → BitVec 2
  | .two => 1 | .four => 2 | .eight => 3

/-- The composition size of a minor; 00 is reserved for `cmpo` (R149). -/
def CmpN.ofCode (c : BitVec 2) : Option CmpN :=
  match c.toNat with
  | 1 => some .two | 2 => some .four | 3 => some .eight | _ => none

theorem CmpN.ofCode_code (c : CmpN) : CmpN.ofCode c.code = some c := by
  cases c <;> rfl

/-- The number of a CSR (R172). -/
def Csr.code : Csr → BitVec 12
  | .cyc => 0x000 | .ocyc => 0x001 | .turnno => 0x002 | .devtime => 0x003 | .lcid => 0x004
  | .rgsize => 0x005 | .turnh => 0x008 | .bankext => 0x009 | .vshape => 0x010 | .frm => 0x011
  | .fflags => 0x012 | .srseed => 0x013 | .srcnt => 0x014 | .mgamma => 0x015 | .gmask => 0x016
  | .lpbeg => 0x018 | .lpend => 0x019 | .lpcnt => 0x01A | .tlpcnt => 0x01B | .ocmp => 0x020
  | .evec => 0x030 | .epc => 0x031 | .ecause => 0x032 | .estat => 0x033 | .einfo => 0x034
  | .escr0 => 0x035 | .escr1 => 0x036

/-- The CSR of a number, where R172 has one. -/
def Csr.ofCode (c : BitVec 12) : Option Csr :=
  match c.toNat with
  | 0x000 => some .cyc | 0x001 => some .ocyc | 0x002 => some .turnno | 0x003 => some .devtime
  | 0x004 => some .lcid | 0x005 => some .rgsize | 0x008 => some .turnh | 0x009 => some .bankext
  | 0x010 => some .vshape | 0x011 => some .frm | 0x012 => some .fflags | 0x013 => some .srseed
  | 0x014 => some .srcnt | 0x015 => some .mgamma | 0x016 => some .gmask | 0x018 => some .lpbeg
  | 0x019 => some .lpend | 0x01A => some .lpcnt | 0x01B => some .tlpcnt | 0x020 => some .ocmp
  | 0x030 => some .evec | 0x031 => some .epc | 0x032 => some .ecause | 0x033 => some .estat
  | 0x034 => some .einfo | 0x035 => some .escr0 | 0x036 => some .escr1
  | _ => none

theorem Csr.ofCode_code (c : Csr) : Csr.ofCode c.code = some c := by
  cases c <;> rfl

/-- A Bool as one bit. -/
def bit (b : Bool) : BitVec 1 := BitVec.ofBool b

/-! ## Rejections -/

/-- Why a word is not an instruction: the cases of R139 with their sub values of class
0x12 (R366). `registerRange` carries the number the field names (R368). -/
inductive Illegal
  | reservedMajor | wrongCore | reservedMinor | nonzeroField
  | registerRange (n : BitVec 6) | roundingMode | typeCode | csrAbsent
  deriving DecidableEq, Repr

/-- The sub value of class 0x12 (R366). -/
def Illegal.sub : Illegal → BitVec 8
  | .reservedMajor => 1 | .reservedMinor => 2 | .nonzeroField => 3 | .registerRange _ => 4
  | .roundingMode => 5 | .wrongCore => 6 | .csrAbsent => 7 | .typeCode => 8

/-- The register that `einfo.reg` reports for an illegal word (R368). -/
def Illegal.reg : Illegal → BitVec 6
  | .registerRange n => n
  | _ => 0

/-- The answer of the decoder. -/
inductive Decoded
  | ok (i : Instr)
  | bad (r : Illegal)
  deriving DecidableEq, Repr

/-- Refuse with `r` unless `c` holds. -/
def guardD (c : Bool) (r : Illegal) (k : Decoded) : Decoded := if c then k else .bad r

/-- The value of an optional field, refused with `r` when it has none. -/
def fieldD {α : Type} (o : Option α) (r : Illegal) (k : α → Decoded) : Decoded :=
  match o with
  | some a => k a
  | none => .bad r

/-- A 6-bit field that names one of 2^n registers: its high bits must be zero (R138). -/
def regD (n : Nat) (x : BitVec 6) (k : BitVec n → Decoded) : Decoded :=
  guardD (x.toNat < 2 ^ n) (.registerRange x) (k (x.setWidth n))

/-- An rm field (R138, R139). -/
def rmD (x : BitVec 3) (k : Option RMode → Decoded) : Decoded :=
  if x = 0b111 then k none else fieldD (RMode.ofCode x) .roundingMode fun r => k (some r)

/-- A type field (R138, R139). -/
def typeD (x : BitVec 5) (k : EType → Decoded) : Decoded := fieldD (EType.ofCode x) .typeCode k

/-! ## Formats (R137) -/

/-- Format SR. -/
def packSR (mj : BitVec 6) (rd ra rb : BitVec 6) (mn : BitVec 7) : IWord :=
  0#1 ++ mj ++ rd ++ ra ++ rb ++ mn
/-- Format SI. -/
def packSI (mj : BitVec 6) (rd ra : BitVec 6) (imm : BitVec 12) (m : BitVec 1) : IWord :=
  0#1 ++ mj ++ rd ++ ra ++ imm ++ m
/-- Format SB. -/
def packSB (mj : BitVec 6) (p mn : BitVec 3) (d : BitVec 19) : IWord := 0#1 ++ mj ++ p ++ mn ++ d
/-- Format SL. -/
def packSL (mj : BitVec 6) (rt ga : BitVec 6) (d : BitVec 10) (mn : BitVec 3) : IWord :=
  0#1 ++ mj ++ rt ++ ga ++ d ++ mn
/-- The five 5-bit fields of the VV layouts A and B. -/
def packV (mj : BitVec 6) (a b c d e : BitVec 5) : IWord := 0#1 ++ mj ++ a ++ b ++ c ++ d ++ e
/-- VV layout C. -/
def packVC (mj : BitVec 6) (vd va dt st : BitVec 5) (rm : BitVec 3) (s z : BitVec 1) : IWord :=
  0#1 ++ mj ++ vd ++ va ++ dt ++ st ++ rm ++ s ++ z
/-- VV layout D. -/
def packVD (mj : BitVec 6) (vd va vs dt : BitVec 5) (rm : BitVec 3) (m z : BitVec 1) : IWord :=
  0#1 ++ mj ++ vd ++ va ++ vs ++ dt ++ rm ++ m ++ z
/-- Format VI. -/
def packVI (mj : BitVec 6) (vd : BitVec 5) (mn : BitVec 4) (imm : BitVec 16) : IWord :=
  0#1 ++ mj ++ vd ++ mn ++ imm
/-- Format MX. -/
def packMX (mj : BitVec 6) (af : BitVec 3) (t1 t2 : BitVec 6) (ctl : BitVec 10) : IWord :=
  0#1 ++ mj ++ af ++ t1 ++ t2 ++ ctl
/-- Format CX. -/
def packCX (mj : BitVec 6) (ga gb gc : BitVec 6) (sub : BitVec 5) (mn : BitVec 2) : IWord :=
  0#1 ++ mj ++ ga ++ gb ++ gc ++ sub ++ mn
/-- Format HW. -/
def packHW (mj : BitVec 6) (p : BitVec 25) : IWord := 0#1 ++ mj ++ p

/-- Bits [lo + n - 1 : lo] of a word. -/
def fld (w : IWord) (lo n : Nat) : BitVec n := w.extractLsb' lo n

/-! ## Decoding, by major opcode -/

/-- Major 0x00 (R141). -/
def decAlu (w : IWord) : Decoded :=
  let rd := fld w 19 6; let ra := fld w 13 6; let rb := fld w 7 6
  let z := rb == 0
  match (fld w 0 7).toNat with
  | 0x00 => .ok (.add rd ra rb) | 0x01 => .ok (.sub rd ra rb) | 0x02 => .ok (.and rd ra rb)
  | 0x03 => .ok (.or rd ra rb) | 0x04 => .ok (.xor rd ra rb) | 0x05 => .ok (.shl rd ra rb)
  | 0x06 => .ok (.shr rd ra rb) | 0x07 => .ok (.sra rd ra rb) | 0x08 => .ok (.mul rd ra rb)
  | 0x09 => .ok (.mulh rd ra rb) | 0x0A => .ok (.mulhn rd ra rb) | 0x0B => .ok (.div rd ra rb)
  | 0x0C => .ok (.divn rd ra rb) | 0x0D => .ok (.rem rd ra rb) | 0x0E => .ok (.remn rd ra rb)
  | 0x0F => .ok (.min rd ra rb) | 0x10 => .ok (.max rd ra rb) | 0x11 => .ok (.minn rd ra rb)
  | 0x12 => .ok (.maxn rd ra rb) | 0x13 => .ok (.slt rd ra rb) | 0x14 => .ok (.sltn rd ra rb)
  | 0x15 => guardD z .nonzeroField (.ok (.clz rd ra))
  | 0x16 => guardD z .nonzeroField (.ok (.ctz rd ra))
  | 0x17 => guardD z .nonzeroField (.ok (.popc rd ra))
  | 0x18 => .ok (.sext rd ra rb) | 0x19 => .ok (.zext rd ra rb)
  | 0x1A => .ok (.bext rd ra rb) | 0x1B => .ok (.bins rd ra rb)
  | 0x1C => guardD (z && rd == 0 && ra == 0) .nonzeroField (.ok .nop)
  | 0x40 => .ok (.sel rd ra rb 0) | 0x41 => .ok (.sel rd ra rb 1)
  | 0x42 => .ok (.sel rd ra rb 2) | 0x43 => .ok (.sel rd ra rb 3)
  | 0x44 => .ok (.sel rd ra rb 4) | 0x45 => .ok (.sel rd ra rb 5)
  | 0x46 => .ok (.sel rd ra rb 6) | 0x47 => .ok (.sel rd ra rb 7)
  | _ => .bad .reservedMinor

/-- Major 0x01 (R142). -/
def decPred (w : IWord) : Decoded :=
  let rd := fld w 19 6; let ra := fld w 13 6; let rb := fld w 7 6
  let zd := rd == 0; let za := ra == 0; let zb := rb == 0
  match (fld w 0 7).toNat with
  | 0x00 => fieldD (Cond.ofCode (fld w 22 3)) .reservedMinor fun c => .ok (.pcmp c (fld w 19 3) ra rb)
  | 0x01 => regD 3 rd fun d => regD 3 ra fun a => regD 3 rb fun b => .ok (.pand d a b)
  | 0x02 => regD 3 rd fun d => regD 3 ra fun a => regD 3 rb fun b => .ok (.por d a b)
  | 0x03 => guardD zb .nonzeroField <| regD 3 rd fun d => regD 3 ra fun a => .ok (.pnot d a)
  | 0x04 => guardD (zd && zb) .nonzeroField (.ok (.jr ra))
  | 0x08 => guardD (zd && za && zb) .nonzeroField (.ok .tret)
  | 0x09 => guardD (zd && za && zb) .nonzeroField (.ok .wfe)
  | 0x10 => guardD zb .nonzeroField <| regD 5 ra fun x => .ok (.xtake rd x)
  | 0x11 => guardD zb .nonzeroField <| regD 3 rd fun p => regD 5 ra fun x => .ok (.xtst p x)
  | 0x12 => guardD (zd && zb) .nonzeroField <| regD 5 ra fun x => .ok (.xclr x)
  | 0x13 => guardD zd .nonzeroField (.ok (.feinit ra rb))
  | 0x14 => guardD zb .nonzeroField <| regD 3 rd fun q => .ok (.rinit q ra)
  | _ => .bad .reservedMinor

/-- Majors 0x02 to 0x0D and 0x0F (R144). -/
def decImm (mj : Nat) (w : IWord) : Decoded :=
  let rd := fld w 19 6; let ra := fld w 13 6; let imm := fld w 1 12; let m := fld w 0 1
  let zd := rd == 0; let za := ra == 0
  let one := fun (k : Decoded) => guardD (m == 0) .reservedMinor k
  let csr := fun (k : Csr → Decoded) => fieldD (Csr.ofCode imm) .csrAbsent k
  match mj with
  | 0x02 => if m == 0 then .ok (.addi rd ra imm) else .ok (.slti rd ra imm)
  | 0x03 => if m == 0 then .ok (.andi rd ra imm) else .ok (.ori rd ra imm)
  | 0x04 => one (.ok (.xori rd ra imm))
  | 0x05 => one <|
      let z := fld w 9 4 == 0
      let n := fld w 1 6
      match (fld w 7 2).toNat with
      | 0 => guardD z .nonzeroField (.ok (.shli rd ra n))
      | 1 => guardD z .nonzeroField (.ok (.shri rd ra n))
      | 2 => guardD z .nonzeroField (.ok (.srai rd ra n))
      | _ => .bad .reservedMinor
  | 0x06 => one <| fieldD (Cond.ofCode (fld w 22 3)) .reservedMinor fun c =>
      .ok (.pcmpi c (fld w 19 3) ra imm)
  | 0x07 => one (.ok (.movi rd (fld w 1 18)))
  | 0x08 => if m == 0 then guardD za .nonzeroField <| csr fun c => .ok (.csrr rd c)
            else guardD zd .nonzeroField <| csr fun c => .ok (.csrw ra c)
  | 0x09 => if m == 0 then guardD zd .nonzeroField <| csr fun c => .ok (.csrs ra c)
            else guardD zd .nonzeroField <| csr fun c => .ok (.csrc ra c)
  | 0x0A => one <| fieldD (Scope.ofCode (fld w 1 3)) .reservedMinor fun s =>
      guardD (zd && za && fld w 4 5 == 0) .nonzeroField (.ok (.fence (fld w 9 4) s))
  | 0x0B => regD 5 rd fun k => if m == 0 then .ok (.cset k ra imm) else .ok (.cadd k ra imm)
  | 0x0C => if m == 0 then guardD (za && imm == 0) .nonzeroField <| regD 5 rd fun k => .ok (.wait k)
            else regD 5 rd fun k => .ok (.waitle k ra imm)
  | 0x0D => guardD (zd && za) .nonzeroField <| if m == 0 then .ok (.trap imm) else .ok (.svc imm)
  | 0x0F => one <| guardD zd .nonzeroField (.ok (.loop ra imm))
  | _ => .bad .reservedMajor

/-- Major 0x0E (R145). -/
def decBranch (w : IWord) : Decoded :=
  let p := fld w 22 3; let d := fld w 0 19
  match (fld w 19 3).toNat with
  | 0 => guardD (p == 0) .nonzeroField (.ok (.br d))
  | 1 => .ok (.bp p d)
  | 2 => .ok (.bnp p d)
  | 3 => guardD (p == 0) .nonzeroField (.ok (.jal d))
  | _ => .bad .reservedMinor

/-- Majors 0x10 to 0x15 (R145, R184, R197). -/
def decMem (mj : Nat) (w : IWord) : Decoded :=
  let rt := fld w 19 6; let ga := fld w 13 6; let d := fld w 3 10
  match mj, (fld w 0 3).toNat with
  | 0x10, 0 => .ok (.ldb rt ga d) | 0x10, 1 => .ok (.ldbn rt ga d) | 0x10, 2 => .ok (.ldh rt ga d)
  | 0x10, 3 => .ok (.ldhn rt ga d) | 0x10, 4 => .ok (.ldw rt ga d) | 0x10, 5 => .ok (.ldwn rt ga d)
  | 0x10, 6 => .ok (.ldd rt ga d)
  | 0x11, 0 => .ok (.ldbAcq rt ga d) | 0x11, 1 => .ok (.ldbnAcq rt ga d)
  | 0x11, 2 => .ok (.ldhAcq rt ga d) | 0x11, 3 => .ok (.ldhnAcq rt ga d)
  | 0x11, 4 => .ok (.ldwAcq rt ga d) | 0x11, 5 => .ok (.ldwnAcq rt ga d)
  | 0x11, 6 => .ok (.lddAcq rt ga d)
  | 0x12, 0 => .ok (.stb rt ga d) | 0x12, 2 => .ok (.sth rt ga d) | 0x12, 4 => .ok (.stw rt ga d)
  | 0x12, 6 => .ok (.std rt ga d)
  | 0x13, 0 => .ok (.stbRel rt ga d) | 0x13, 2 => .ok (.sthRel rt ga d)
  | 0x13, 4 => .ok (.stwRel rt ga d) | 0x13, 6 => .ok (.stdRel rt ga d)
  | 0x14, 6 => .ok (.ldfe rt ga d)
  | 0x15, 6 => .ok (.stfe rt ga d)
  | _, _ => .bad .reservedMinor

/-- Majors 0x20 to 0x2D (R146): the VV layouts. -/
def decVec (mj : Nat) (w : IWord) : Decoded :=
  let a := fld w 20 5; let b := fld w 15 5; let c := fld w 10 5; let d := fld w 5 5
  let e := fld w 0 5
  let zc := c == 0; let zt := d == 0
  let un := fun (k : EType → Instr) => guardD zc .nonzeroField <| typeD d fun t => .ok (k t)
  let bi := fun (k : EType → Instr) => typeD d fun t => .ok (k t)
  let fm := fun (k : EType → Instr) => typeD e fun t => .ok (k t)
  match mj, e.toNat with
  | 0x20, 0 => bi (.vadd a b c) | 0x20, 1 => bi (.vsub a b c) | 0x20, 2 => bi (.vmul a b c)
  | 0x20, 3 => bi (.vmin a b c) | 0x20, 4 => bi (.vmax a b c) | 0x20, 5 => un (.vabs a b)
  | 0x20, 6 => un (.vneg a b) | 0x20, 7 => bi (.vdiv a b c) | 0x20, 8 => un (.vsqrt a b)
  | 0x20, 16 => bi (.vand a b c) | 0x20, 17 => bi (.vor a b c) | 0x20, 18 => bi (.vxor a b c)
  | 0x20, 19 => un (.vnot a b) | 0x20, 20 => bi (.vshl a b c) | 0x20, 21 => bi (.vshr a b c)
  | 0x20, 22 => bi (.vsra a b c) | 0x20, 23 => bi (.vmulh a b c)
  | 0x21, 0 => un (.vexp a b) | 0x21, 1 => un (.vexp2 a b) | 0x21, 2 => un (.vlog2 a b)
  | 0x21, 3 => un (.vrcp a b) | 0x21, 4 => un (.vrsqrt a b) | 0x21, 5 => un (.vtanh a b)
  | 0x21, 6 => un (.vsigm a b)
  | 0x22, _ => fm (.vfma a b c d) | 0x23, _ => fm (.vfms a b c d)
  | 0x24, _ => fm (.vfnma a b c d) | 0x25, _ => fm (.vfnms a b c d)
  | 0x26, _ => fm (.vsel a b c d)
  | 0x27, _ => fieldD (VCond.ofCode e) .reservedMinor fun k => typeD d fun t => .ok (.vcmp a b c t k)
  | 0x28, _ => guardD (fld w 0 1 == 0) .nonzeroField <| rmD (fld w 2 3) fun r =>
      typeD c fun dt => typeD d fun st => .ok (.vcvt a b dt st r (fld w 1 1 == 1))
  | 0x29, _ =>
      if fld w 1 1 == 0 then
        -- R252 reserves every dtype but 0x07: a code that R85 lists is reported as sub 2, which is the
        -- model's choice (notes/assumptions/68.md); one that R85 reserves is R139's case 7
        guardD (d == 0x07 || (EType.ofCode d).isNone) .reservedMinor <| guardD (fld w 0 1 == 0) .nonzeroField <|
          rmD (fld w 2 3) fun r => typeD d fun _ => .ok (.vqnt a b c r)
      else
        -- R253 asks for rm 0b111 and R139 names no case for 0b000 to 0b100: sub 2 is the model's
        -- choice (notes/assumptions/68.md); 0b101 and 0b110 are R139's case 6
        guardD (decide (0b101 ≤ (fld w 2 3).toNat)) .reservedMinor <|
          guardD (fld w 0 1 == 0) .nonzeroField <| guardD (fld w 2 3 == 0b111) .roundingMode <|
          typeD d fun dt => .ok (.vdqnt a b c dt)
  | 0x2A, 0 => un (.vrsum a b) | 0x2A, 1 => un (.vcsum a b) | 0x2A, 2 => un (.vrmax a b)
  | 0x2A, 3 => un (.vcmax a b)
  | 0x2B, 0 => guardD (zc && zt) .nonzeroField (.ok (.vmov a b))
  | 0x2B, 1 => guardD (zc && zt) .nonzeroField (.ok (.vbcast a b))
  | 0x2B, 2 => un (.vtrn a b) | 0x2B, 3 => bi (.vext a b c) | 0x2B, 4 => bi (.vins a b c)
  | 0x2B, 5 => un (.vsplat a b)
  | 0x2C, 0 => guardD zt .nonzeroField (.ok (.vld a b c))
  | 0x2C, 1 => guardD zt .nonzeroField (.ok (.vst a b c))
  | 0x2C, 2 => bi (.vgat a b c) | 0x2C, 3 => bi (.vsct a b c)
  -- R255 names no kind 0b11: sub 2 is the model's choice (notes/assumptions/68.md)
  | 0x2D, 0 => fieldD (ViewKind.ofCode (fld w 10 2)) .reservedMinor fun k =>
      guardD (fld w 12 3 == 0 && zt) .nonzeroField <|
        guardD (k == .v || a.toNat ≤ 7) (.registerRange (a.setWidth 6)) (.ok (.vviewImage a b k))
  | 0x2D, 1 => bi (.vview a b c)
  | _, _ => .bad .reservedMinor

/-- Major 0x2E (R147). -/
def decVI (w : IWord) : Decoded :=
  let vd := fld w 20 5; let imm := fld w 0 16
  match (fld w 16 4).toNat with
  | 0 => .ok (.vaddImm vd imm) | 1 => .ok (.vsubImm vd imm) | 2 => .ok (.vmulImm vd imm)
  | 3 => .ok (.vminImm vd imm) | 4 => .ok (.vmaxImm vd imm) | 5 => .ok (.vandImm vd imm)
  | 6 => .ok (.vorImm vd imm) | 7 => .ok (.vxorImm vd imm) | 8 => .ok (.vshlImm vd imm)
  | 9 => .ok (.vshrImm vd imm) | 10 => .ok (.vsraImm vd imm) | 11 => .ok (.vsplatImm vd imm)
  | 12 => guardD (vd == 0 && fld w 10 6 == 0) .nonzeroField (.ok (.vshape (fld w 4 6) (fld w 0 4)))
  | _ => .bad .reservedMinor

/-- Majors 0x30 to 0x35 (R148). -/
def decMat (mj : Nat) (w : IWord) : Decoded :=
  let af := fld w 22 3; let t1 := fld w 16 6; let t2 := fld w 10 6
  let b := fun n => fld w n 1 == 1
  let side := b 4 || b 3 || fld w 0 3 == 0
  match mj with
  | 0x30 => guardD side .nonzeroField (.ok (.mmul af t1 t2 (b 9) (b 8) (b 7) (b 6) (b 5) (b 4) (b 3) (fld w 0 3)))
  | 0x31 => guardD side .nonzeroField (.ok (.mmsp af t1 t2 (b 9) (b 8) (b 7) (b 6) (b 5) (b 4) (b 3) (fld w 0 3)))
  | 0x32 =>
      let z12 := t1 == 0 && t2 == 0
      match (fld w 8 2).toNat with
      | 0 => guardD (af == 0 && z12) .nonzeroField (.ok (.mgang (fld w 0 8)))
      | 1 => guardD (z12 && fld w 0 8 == 0) .nonzeroField (.ok (.mzero af))
      | 2 => guardD (z12 && fld w 0 8 == 0) .nonzeroField (.ok (.mfade af))
      | _ => .bad .reservedMinor
  | 0x33 =>
      match (fld w 8 2).toNat with
      | 0 => guardD (af == 0 && fld w 0 8 == 0) .nonzeroField (.ok (.tidset t1 t2))
      | 1 => guardD (af == 0 && fld w 4 4 == 0 && (fld w 0 4).toNat ≤ 11) .nonzeroField
          (.ok (.tidq t1 t2 (fld w 0 4)))
      | _ => .bad .reservedMinor
  | 0x34 => guardD (t2 == 0 && fld w 0 1 == 0) .nonzeroField <| rmD (fld w 2 3) fun r =>
      .ok (.mdrain af t1 (fld w 5 5) r (b 1))
  | 0x35 => guardD (fld w 0 1 == 0) .nonzeroField <| rmD (fld w 2 3) fun r =>
      .ok (.mdrainr af t1 t2 (fld w 5 5) r (b 1))
  | _ => .bad .reservedMajor

/-- Majors 0x38 to 0x3C (R149, R226). -/
def decCtl (mj : Nat) (w : IWord) : Decoded :=
  let ga := fld w 19 6; let gb := fld w 13 6; let gc := fld w 7 6
  let sub := fld w 2 5; let mn := fld w 0 2
  let za := ga == 0; let zb := gb == 0; let zc := gc == 0
  let at_ := fun (k : Order → Instr) => fieldD (Order.ofCode mn) .reservedMinor fun o => .ok (k o)
  match mj with
  | 0x38 =>
      match mn.toNat with
      | 0 => .ok (.bcopy ga gb gc sub)
      | 1 => .ok (.tload ga gb gc sub)
      | 2 => .ok (.tstore ga gb gc sub)
      | _ => .bad .reservedMinor
  | 0x39 =>
      match sub.toNat with
      | 0 => at_ (.aadd ga gb gc) | 1 => at_ (.aswp ga gb gc) | 2 => at_ (.acas ga gb gc)
      | 3 => at_ (.amin ga gb gc) | 4 => at_ (.amax ga gb gc) | 5 => at_ (.aminn ga gb gc)
      | 6 => at_ (.amaxn ga gb gc) | 7 => at_ (.aand ga gb gc) | 8 => at_ (.aor ga gb gc)
      | 9 => at_ (.axor ga gb gc) | 10 => at_ (.afadd ga gb gc)
      | _ => .bad .reservedMinor
  | 0x3A =>
      match mn.toNat with
      | 0 => guardD zc .nonzeroField (.ok (.xput ga gb sub))
      | 1 => guardD (sub == 0) .reservedMinor <| guardD zc .nonzeroField (.ok (.amsg ga gb))
      | 2 =>
        guardD (zb && zc) .nonzeroField <|
          match (fld w 5 2).toNat with
          | 0 => .ok (.radvPop ga (fld w 2 3)) | 1 => .ok (.radvPush ga (fld w 2 3))
          | 2 => .ok (.radvCredit ga (fld w 2 3)) | _ => .ok (.radvFill ga (fld w 2 3))
      | _ => .bad .reservedMinor
  | 0x3B =>
      guardD (mn == 0) .reservedMinor <|
      match sub.toNat with
      | 0 => .ok (.tinit ga gb gc)
      | 1 => guardD zc .nonzeroField (.ok (.tspawn ga gb))
      | 2 => guardD zc .nonzeroField (.ok (.tfork ga gb))
      | 3 => guardD zc .nonzeroField (.ok (.tsig ga gb))
      | 4 => guardD (za && zb && zc) .nonzeroField (.ok .tend)
      | _ => .bad .reservedMinor
  | 0x3C =>
      match sub.toNat, mn.toNat with
      | 0, _ => fieldD (CmpN.ofCode mn) .reservedMinor fun n => guardD zc .nonzeroField (.ok (.cmpo ga gb n))
      | 1, 0 => guardD (za && zb && zc) .nonzeroField (.ok .cmpr)
      | 2, 0 => guardD (zb && zc) .nonzeroField (.ok (.cmpq ga))
      | _, _ => .bad .reservedMinor
  | _ => .bad .reservedMajor

/-- Major 0x3D (R149, R276, R280, R285). -/
def decHbm (w : IWord) : Decoded :=
  let ga := fld w 19 6; let gb := fld w 13 6; let gc := fld w 7 6
  let sub := fld w 2 5; let mn := fld w 0 2
  let za := ga == 0; let zb := gb == 0; let zc := gc == 0
  let o2 := fld w 2 2
  let noOrd := o2 == 0
  let ordD := fun (k : Order → Decoded) => fieldD (Order.ofCode o2) .reservedMinor k
  let capB := fun (k : BitVec 4 → Decoded) => regD 4 gb k
  match mn.toNat with
  | 0 =>
      match (fld w 4 3).toNat with
      | 0 => ordD fun o => guardD (o != .rel) .reservedMinor <| capB fun c => .ok (.hld ga c gc o)
      | 1 => ordD fun o => guardD (o != .acq) .reservedMinor <| capB fun c => .ok (.hst ga c gc o)
      | 2 => guardD noOrd .reservedMinor <| regD 5 ga fun v => capB fun c => .ok (.hldv v c gc)
      | 3 => guardD noOrd .reservedMinor <| regD 5 ga fun v => capB fun c => .ok (.hstv v c gc)
      | 4 => guardD noOrd .reservedMinor <| regD 5 ga fun v => capB fun c => regD 5 gc fun i => .ok (.hgat v c i)
      | 5 => guardD noOrd .reservedMinor <| regD 5 ga fun v => capB fun c => regD 5 gc fun i => .ok (.hsct v c i)
      | 7 => ordD fun o => guardD (o != .rel) .reservedMinor <| capB fun c => .ok (.hldX ga c gc o)
      | _ => .bad .reservedMinor
  | 1 =>
      match sub.toNat with
      | 0 => capB fun c => .ok (.hship ga c gc)
      | 1 => capB fun c => .ok (.hpull ga c gc)
      | 2 => capB fun c => .ok (.bgemv ga c gc)
      | 3 => guardD (za && zb && zc) .nonzeroField (.ok .hfenceL)
      | _ => .bad .reservedMinor
  | 2 =>
      match sub.toNat with
      | 0 => guardD zc .nonzeroField <| regD 4 ga fun c => .ok (.oxfer c gb)
      | 1 => guardD (zb && zc) .nonzeroField <| regD 4 ga fun c => .ok (.oacq c)
      | 2 => regD 4 ga fun d => capB fun c =>
          if zc then .ok (.cmov d c) else .ok (.cmovRemote d c gc)
      | 3 => regD 4 ga fun d => capB fun c => .ok (.cderive d c gc)
      | 4 => regD 4 ga fun d => capB fun c => .ok (.crights d c gc)
      | _ => .bad .reservedMinor
  | _ =>
      ordD fun o => capB fun c =>
        match (fld w 4 3).toNat with
        | 0 => .ok (.hatomAdd ga c gc o) | 1 => .ok (.hatomSwp ga c gc o)
        | 2 => .ok (.hatomCas ga c gc o) | 3 => .ok (.hatomMin ga c gc o)
        | 4 => .ok (.hatomMax ga c gc o) | 5 => .ok (.hatomMinn ga c gc o)
        | 6 => .ok (.hatomMaxn ga c gc o) | _ => .ok (.hatomFadd ga c gc o)

/-- Majors 0x3E and 0x3F (R150). -/
def decHint (mj : Nat) (w : IWord) : Decoded :=
  match mj with
  | 0x3E =>
      if fld w 24 1 == 0 then .ok (.hwimm (fld w 0 24))
      else guardD (fld w 4 20 == 0) .nonzeroField (.ok (.hblk (fld w 0 4)))
  | _ =>
      match (fld w 23 2).toNat with
      | 0 => guardD (fld w 3 20 == 0) .nonzeroField (.ok (.hgran (fld w 0 3)))
      | 1 => guardD (fld w 3 20 == 0) .nonzeroField <|
          fieldD (RMode.ofCode (fld w 0 3)) .roundingMode fun r => .ok (.hrm r)
      | _ => .bad .reservedMinor

/-- A word's major opcode (R132). -/
def major (w : IWord) : BitVec 6 := fld w 25 6

/-- Words that are no instructions on the kind of core that fetches them (R139). -/
def wrongKind (mem : Bool) (w : IWord) : Bool :=
  let mj := (major w).toNat
  let sub := (fld w 2 5).toNat
  if mem then decide (0x30 ≤ mj ∧ mj ≤ 0x37) || (mj == 0x3C && decide (sub < 2))
  else mj == 0x3D && (fld w 0 2 != 2 || decide (sub < 2))

/-- Majors that R140 leaves reserved. -/
def reservedMajor (mj : Nat) : Bool :=
  decide (0x16 ≤ mj ∧ mj ≤ 0x1F) || mj == 0x2F || mj == 0x36 || mj == 0x37

/-- The instruction of a word, or why it is none (R139, R373), for a memory core
(`mem`) or a compute core. -/
def decode (mem : Bool) (w : IWord) : Decoded :=
  let mj := (major w).toNat
  if reservedMajor mj then .bad .reservedMajor
  else if wrongKind mem w then .bad .wrongCore
  else if mj = 0x00 then decAlu w
  else if mj = 0x01 then decPred w
  else if mj = 0x0E then decBranch w
  else if mj ≤ 0x0F then decImm mj w
  else if mj ≤ 0x15 then decMem mj w
  else if mj = 0x2E then decVI w
  else if mj ≤ 0x2D then decVec mj w
  else if mj ≤ 0x35 then decMat mj w
  else if mj = 0x3D then decHbm w
  else if mj ≤ 0x3C then decCtl mj w
  else decHint mj w

/-- Whether an instruction runs on memory cores only (R139, R276). -/
def Instr.memOnly : Instr → Bool
  | .hld _ _ _ _ | .hst _ _ _ _ | .hldv _ _ _ | .hstv _ _ _ | .hgat _ _ _ | .hsct _ _ _
  | .hldX _ _ _ _ | .hship _ _ _ | .hpull _ _ _ | .bgemv _ _ _ | .hfenceL | .oxfer _ _ | .oacq _
  | .hatomAdd _ _ _ _ | .hatomSwp _ _ _ _ | .hatomCas _ _ _ _ | .hatomMin _ _ _ _
  | .hatomMax _ _ _ _ | .hatomMinn _ _ _ _ | .hatomMaxn _ _ _ _ | .hatomFadd _ _ _ _ => true
  | _ => false

/-! ## Encoding -/

/-- The word of an instruction with E = 0 (R137, R141 to R150); the event rows of the
table have no word. -/
def encode : Instr → Option IWord
  | .add rd ra rb => some (packSR 0x00 rd ra rb 0x0#7)
  | .sub rd ra rb => some (packSR 0x00 rd ra rb 0x1#7)
  | .and rd ra rb => some (packSR 0x00 rd ra rb 0x2#7)
  | .or rd ra rb => some (packSR 0x00 rd ra rb 0x3#7)
  | .xor rd ra rb => some (packSR 0x00 rd ra rb 0x4#7)
  | .shl rd ra rb => some (packSR 0x00 rd ra rb 0x5#7)
  | .shr rd ra rb => some (packSR 0x00 rd ra rb 0x6#7)
  | .sra rd ra rb => some (packSR 0x00 rd ra rb 0x7#7)
  | .mul rd ra rb => some (packSR 0x00 rd ra rb 0x8#7)
  | .mulh rd ra rb => some (packSR 0x00 rd ra rb 0x9#7)
  | .mulhn rd ra rb => some (packSR 0x00 rd ra rb 0xA#7)
  | .div rd ra rb => some (packSR 0x00 rd ra rb 0xB#7)
  | .divn rd ra rb => some (packSR 0x00 rd ra rb 0xC#7)
  | .rem rd ra rb => some (packSR 0x00 rd ra rb 0xD#7)
  | .remn rd ra rb => some (packSR 0x00 rd ra rb 0xE#7)
  | .min rd ra rb => some (packSR 0x00 rd ra rb 0xF#7)
  | .max rd ra rb => some (packSR 0x00 rd ra rb 0x10#7)
  | .minn rd ra rb => some (packSR 0x00 rd ra rb 0x11#7)
  | .maxn rd ra rb => some (packSR 0x00 rd ra rb 0x12#7)
  | .slt rd ra rb => some (packSR 0x00 rd ra rb 0x13#7)
  | .sltn rd ra rb => some (packSR 0x00 rd ra rb 0x14#7)
  | .clz rd ra => some (packSR 0x00 rd ra 0x0#6 0x15#7)
  | .ctz rd ra => some (packSR 0x00 rd ra 0x0#6 0x16#7)
  | .popc rd ra => some (packSR 0x00 rd ra 0x0#6 0x17#7)
  | .sext rd ra w => some (packSR 0x00 rd ra w 0x18#7)
  | .zext rd ra w => some (packSR 0x00 rd ra w 0x19#7)
  | .bext rd ra rb => some (packSR 0x00 rd ra rb 0x1A#7)
  | .bins rd ra rb => some (packSR 0x00 rd ra rb 0x1B#7)
  | .nop => some (packSR 0x00 0x0#6 0x0#6 0x0#6 0x1C#7)
  | .sel rd ra rb k => some (packSR 0x00 rd ra rb (0x8#4 ++ k))
  | .pcmp c p ra rb => some (packSR 0x01 (c.code ++ p) ra rb 0x0#7)
  | .pand d a b => some (packSR 0x01 (0x0#3 ++ d) (0x0#3 ++ a) (0x0#3 ++ b) 0x1#7)
  | .por d a b => some (packSR 0x01 (0x0#3 ++ d) (0x0#3 ++ a) (0x0#3 ++ b) 0x2#7)
  | .pnot d a => some (packSR 0x01 (0x0#3 ++ d) (0x0#3 ++ a) 0x0#6 0x3#7)
  | .jr ra => some (packSR 0x01 0x0#6 ra 0x0#6 0x4#7)
  | .tret => some (packSR 0x01 0x0#6 0x0#6 0x0#6 0x8#7)
  | .wfe => some (packSR 0x01 0x0#6 0x0#6 0x0#6 0x9#7)
  | .xtake rd x => some (packSR 0x01 rd (0x0#1 ++ x) 0x0#6 0x10#7)
  | .xtst p x => some (packSR 0x01 (0x0#3 ++ p) (0x0#1 ++ x) 0x0#6 0x11#7)
  | .xclr x => some (packSR 0x01 0x0#6 (0x0#1 ++ x) 0x0#6 0x12#7)
  | .feinit ra rb => some (packSR 0x01 0x0#6 ra rb 0x13#7)
  | .rinit q ra => some (packSR 0x01 (0x0#3 ++ q) ra 0x0#6 0x14#7)
  | .addi rd ra imm => some (packSI 0x02 rd ra imm 0x0#1)
  | .slti rd ra imm => some (packSI 0x02 rd ra imm 0x1#1)
  | .andi rd ra imm => some (packSI 0x03 rd ra imm 0x0#1)
  | .ori rd ra imm => some (packSI 0x03 rd ra imm 0x1#1)
  | .xori rd ra imm => some (packSI 0x04 rd ra imm 0x0#1)
  | .shli rd ra n => some (packSI 0x05 rd ra (0x0#6 ++ n) 0x0#1)
  | .shri rd ra n => some (packSI 0x05 rd ra (0x1#6 ++ n) 0x0#1)
  | .srai rd ra n => some (packSI 0x05 rd ra (0x2#6 ++ n) 0x0#1)
  | .pcmpi c p ra imm => some (packSI 0x06 (c.code ++ p) ra imm 0x0#1)
  | .movi rd imm => some (packSI 0x07 rd (imm.extractLsb' 12 6) (imm.extractLsb' 0 12) 0#1)
  | .csrr rd csr => some (packSI 0x08 rd 0x0#6 csr.code 0x0#1)
  | .csrw ra csr => some (packSI 0x08 0x0#6 ra csr.code 0x1#1)
  | .csrs ra csr => some (packSI 0x09 0x0#6 ra csr.code 0x0#1)
  | .csrc ra csr => some (packSI 0x09 0x0#6 ra csr.code 0x1#1)
  | .fence o sc => some (packSI 0x0A 0x0#6 0x0#6 (o ++ 0x0#5 ++ sc.code) 0x0#1)
  | .cset w ra imm => some (packSI 0x0B (0x0#1 ++ w) ra imm 0x0#1)
  | .cadd w ra imm => some (packSI 0x0B (0x0#1 ++ w) ra imm 0x1#1)
  | .wait w => some (packSI 0x0C (0x0#1 ++ w) 0x0#6 0x0#12 0x0#1)
  | .waitle w ra imm => some (packSI 0x0C (0x0#1 ++ w) ra imm 0x1#1)
  | .trap code => some (packSI 0x0D 0x0#6 0x0#6 code 0x0#1)
  | .svc code => some (packSI 0x0D 0x0#6 0x0#6 code 0x1#1)
  | .br disp => some (packSB 0x0E 0x0#3 0x0#3 disp)
  | .bp p disp => some (packSB 0x0E p 0x1#3 disp)
  | .bnp p disp => some (packSB 0x0E p 0x2#3 disp)
  | .jal disp => some (packSB 0x0E 0x0#3 0x3#3 disp)
  | .loop ra imm => some (packSI 0x0F 0x0#6 ra imm 0x0#1)
  | .ldb rt ra disp => some (packSL 0x10 rt ra disp 0x0#3)
  | .ldbn rt ra disp => some (packSL 0x10 rt ra disp 0x1#3)
  | .ldh rt ra disp => some (packSL 0x10 rt ra disp 0x2#3)
  | .ldhn rt ra disp => some (packSL 0x10 rt ra disp 0x3#3)
  | .ldw rt ra disp => some (packSL 0x10 rt ra disp 0x4#3)
  | .ldwn rt ra disp => some (packSL 0x10 rt ra disp 0x5#3)
  | .ldd rt ra disp => some (packSL 0x10 rt ra disp 0x6#3)
  | .ldbAcq rt ra disp => some (packSL 0x11 rt ra disp 0x0#3)
  | .ldbnAcq rt ra disp => some (packSL 0x11 rt ra disp 0x1#3)
  | .ldhAcq rt ra disp => some (packSL 0x11 rt ra disp 0x2#3)
  | .ldhnAcq rt ra disp => some (packSL 0x11 rt ra disp 0x3#3)
  | .ldwAcq rt ra disp => some (packSL 0x11 rt ra disp 0x4#3)
  | .ldwnAcq rt ra disp => some (packSL 0x11 rt ra disp 0x5#3)
  | .lddAcq rt ra disp => some (packSL 0x11 rt ra disp 0x6#3)
  | .stb rt ra disp => some (packSL 0x12 rt ra disp 0x0#3)
  | .sth rt ra disp => some (packSL 0x12 rt ra disp 0x2#3)
  | .stw rt ra disp => some (packSL 0x12 rt ra disp 0x4#3)
  | .std rt ra disp => some (packSL 0x12 rt ra disp 0x6#3)
  | .stbRel rt ra disp => some (packSL 0x13 rt ra disp 0x0#3)
  | .sthRel rt ra disp => some (packSL 0x13 rt ra disp 0x2#3)
  | .stwRel rt ra disp => some (packSL 0x13 rt ra disp 0x4#3)
  | .stdRel rt ra disp => some (packSL 0x13 rt ra disp 0x6#3)
  | .ldfe rt ra disp => some (packSL 0x14 rt ra disp 0x6#3)
  | .stfe rt ra disp => some (packSL 0x15 rt ra disp 0x6#3)
  | .vadd vd va vb t => some (packV 0x20 vd va vb t.code 0x0#5)
  | .vsub vd va vb t => some (packV 0x20 vd va vb t.code 0x1#5)
  | .vmul vd va vb t => some (packV 0x20 vd va vb t.code 0x2#5)
  | .vmin vd va vb t => some (packV 0x20 vd va vb t.code 0x3#5)
  | .vmax vd va vb t => some (packV 0x20 vd va vb t.code 0x4#5)
  | .vabs vd va t => some (packV 0x20 vd va 0x0#5 t.code 0x5#5)
  | .vneg vd va t => some (packV 0x20 vd va 0x0#5 t.code 0x6#5)
  | .vdiv vd va vb t => some (packV 0x20 vd va vb t.code 0x7#5)
  | .vsqrt vd va t => some (packV 0x20 vd va 0x0#5 t.code 0x8#5)
  | .vand vd va vb t => some (packV 0x20 vd va vb t.code 0x10#5)
  | .vor vd va vb t => some (packV 0x20 vd va vb t.code 0x11#5)
  | .vxor vd va vb t => some (packV 0x20 vd va vb t.code 0x12#5)
  | .vnot vd va t => some (packV 0x20 vd va 0x0#5 t.code 0x13#5)
  | .vshl vd va vb t => some (packV 0x20 vd va vb t.code 0x14#5)
  | .vshr vd va vb t => some (packV 0x20 vd va vb t.code 0x15#5)
  | .vsra vd va vb t => some (packV 0x20 vd va vb t.code 0x16#5)
  | .vmulh vd va vb t => some (packV 0x20 vd va vb t.code 0x17#5)
  | .vexp vd va t => some (packV 0x21 vd va 0x0#5 t.code 0x0#5)
  | .vexp2 vd va t => some (packV 0x21 vd va 0x0#5 t.code 0x1#5)
  | .vlog2 vd va t => some (packV 0x21 vd va 0x0#5 t.code 0x2#5)
  | .vrcp vd va t => some (packV 0x21 vd va 0x0#5 t.code 0x3#5)
  | .vrsqrt vd va t => some (packV 0x21 vd va 0x0#5 t.code 0x4#5)
  | .vtanh vd va t => some (packV 0x21 vd va 0x0#5 t.code 0x5#5)
  | .vsigm vd va t => some (packV 0x21 vd va 0x0#5 t.code 0x6#5)
  | .vfma vd va vb vc t => some (packV 0x22 vd va vb vc t.code)
  | .vfms vd va vb vc t => some (packV 0x23 vd va vb vc t.code)
  | .vfnma vd va vb vc t => some (packV 0x24 vd va vb vc t.code)
  | .vfnms vd va vb vc t => some (packV 0x25 vd va vb vc t.code)
  | .vsel vd vm vt vf t => some (packV 0x26 vd vm vt vf t.code)
  | .vcmp vd va vb t c => some (packV 0x27 vd va vb t.code c.code)
  | .vcvt vd va dt st rm sat => some (packVC 0x28 vd va dt.code st.code (rmField rm) (bit sat) 0x0#1)
  | .vqnt vd va vs rm => some (packVD 0x29 vd va vs 0x7#5 (rmField rm) 0x0#1 0x0#1)
  | .vdqnt vd va vs dt => some (packVD 0x29 vd va vs dt.code 0x7#3 0x1#1 0x0#1)
  | .vrsum vd va t => some (packV 0x2A vd va 0x0#5 t.code 0x0#5)
  | .vcsum vd va t => some (packV 0x2A vd va 0x0#5 t.code 0x1#5)
  | .vrmax vd va t => some (packV 0x2A vd va 0x0#5 t.code 0x2#5)
  | .vcmax vd va t => some (packV 0x2A vd va 0x0#5 t.code 0x3#5)
  | .vmov vd va => some (packV 0x2B vd va 0x0#5 0x0#5 0x0#5)
  | .vbcast vd va => some (packV 0x2B vd va 0x0#5 0x0#5 0x1#5)
  | .vtrn vd va t => some (packV 0x2B vd va 0x0#5 t.code 0x2#5)
  | .vext vd va vb t => some (packV 0x2B vd va vb t.code 0x3#5)
  | .vins vd va vb t => some (packV 0x2B vd va vb t.code 0x4#5)
  | .vsplat vd g t => some (packV 0x2B vd g 0x0#5 t.code 0x5#5)
  | .vld vd ga gb => some (packV 0x2C vd ga gb 0x0#5 0x0#5)
  | .vst vd ga gb => some (packV 0x2C vd ga gb 0x0#5 0x1#5)
  | .vgat vd ga vb t => some (packV 0x2C vd ga vb t.code 0x2#5)
  | .vsct vd ga vb t => some (packV 0x2C vd ga vb t.code 0x3#5)
  | .vviewImage vd ga k => some (packV 0x2D vd ga (0x0#3 ++ k.code) 0x0#5 0x0#5)
  | .vview vd ga gb t => some (packV 0x2D vd ga gb t.code 0x1#5)
  | .vaddImm vd imm => some (packVI 0x2E vd 0x0#4 imm)
  | .vsubImm vd imm => some (packVI 0x2E vd 0x1#4 imm)
  | .vmulImm vd imm => some (packVI 0x2E vd 0x2#4 imm)
  | .vminImm vd imm => some (packVI 0x2E vd 0x3#4 imm)
  | .vmaxImm vd imm => some (packVI 0x2E vd 0x4#4 imm)
  | .vandImm vd imm => some (packVI 0x2E vd 0x5#4 imm)
  | .vorImm vd imm => some (packVI 0x2E vd 0x6#4 imm)
  | .vxorImm vd imm => some (packVI 0x2E vd 0x7#4 imm)
  | .vshlImm vd imm => some (packVI 0x2E vd 0x8#4 imm)
  | .vshrImm vd imm => some (packVI 0x2E vd 0x9#4 imm)
  | .vsraImm vd imm => some (packVI 0x2E vd 0xA#4 imm)
  | .vsplatImm vd imm => some (packVI 0x2E vd 0xB#4 imm)
  | .vshape w r => some (packVI 0x2E 0x0#5 0xC#4 (0x0#6 ++ w ++ r))
  | .mmul ad ta tb sa sb sat acc fd rsum csum sv => some (packMX 0x30 ad ta tb ((bit sa) ++ (bit sb) ++ (bit sat) ++ (bit acc) ++ (bit fd) ++ (bit rsum) ++ (bit csum) ++ sv))
  | .mmsp ad ta tb sa sb sat acc fd rsum csum sv => some (packMX 0x31 ad ta tb ((bit sa) ++ (bit sb) ++ (bit sat) ++ (bit acc) ++ (bit fd) ++ (bit rsum) ++ (bit csum) ++ sv))
  | .mgang m => some (packMX 0x32 0x0#3 0x0#6 0x0#6 (0x0#2 ++ m))
  | .mzero ad => some (packMX 0x32 ad 0x0#6 0x0#6 0x100#10)
  | .mfade ad => some (packMX 0x32 ad 0x0#6 0x0#6 0x200#10)
  | .tidset t ga => some (packMX 0x33 0x0#3 t ga 0x0#10)
  | .tidq t rd s => some (packMX 0x33 0x0#3 t rd (0x10#6 ++ s))
  | .mdrain ad t vp rm sat => some (packMX 0x34 ad t 0x0#6 (vp ++ (rmField rm) ++ (bit sat) ++ 0x0#1))
  | .mdrainr ad t ga vp rm sat => some (packMX 0x35 ad t ga (vp ++ (rmField rm) ++ (bit sat) ++ 0x0#1))
  | .bcopy ga gb gc w => some (packCX 0x38 ga gb gc w 0x0#2)
  | .tload ga gb gc w => some (packCX 0x38 ga gb gc w 0x1#2)
  | .tstore ga gb gc w => some (packCX 0x38 ga gb gc w 0x2#2)
  | .aadd rd ra rb o => some (packCX 0x39 rd ra rb 0x0#5 o.code)
  | .aswp rd ra rb o => some (packCX 0x39 rd ra rb 0x1#5 o.code)
  | .acas rd ra rb o => some (packCX 0x39 rd ra rb 0x2#5 o.code)
  | .amin rd ra rb o => some (packCX 0x39 rd ra rb 0x3#5 o.code)
  | .amax rd ra rb o => some (packCX 0x39 rd ra rb 0x4#5 o.code)
  | .aminn rd ra rb o => some (packCX 0x39 rd ra rb 0x5#5 o.code)
  | .amaxn rd ra rb o => some (packCX 0x39 rd ra rb 0x6#5 o.code)
  | .aand rd ra rb o => some (packCX 0x39 rd ra rb 0x7#5 o.code)
  | .aor rd ra rb o => some (packCX 0x39 rd ra rb 0x8#5 o.code)
  | .axor rd ra rb o => some (packCX 0x39 rd ra rb 0x9#5 o.code)
  | .afadd rd ra rb o => some (packCX 0x39 rd ra rb 0xA#5 o.code)
  | .xput ga gb x => some (packCX 0x3A ga gb 0x0#6 x 0x0#2)
  | .amsg ga gb => some (packCX 0x3A ga gb 0x0#6 0x0#5 0x1#2)
  | .radvPop ga q => some (packCX 0x3A ga 0x0#6 0x0#6 (0x0#2 ++ q) 0x2#2)
  | .radvPush ga q => some (packCX 0x3A ga 0x0#6 0x0#6 (0x1#2 ++ q) 0x2#2)
  | .radvCredit ga q => some (packCX 0x3A ga 0x0#6 0x0#6 (0x2#2 ++ q) 0x2#2)
  | .radvFill ga q => some (packCX 0x3A ga 0x0#6 0x0#6 (0x3#2 ++ q) 0x2#2)
  | .tinit ga gb gc => some (packCX 0x3B ga gb gc 0x0#5 0x0#2)
  | .tspawn ga gb => some (packCX 0x3B ga gb 0x0#6 0x1#5 0x0#2)
  | .tfork ga gb => some (packCX 0x3B ga gb 0x0#6 0x2#5 0x0#2)
  | .tsig ga gb => some (packCX 0x3B ga gb 0x0#6 0x3#5 0x0#2)
  | .tend => some (packCX 0x3B 0x0#6 0x0#6 0x0#6 0x4#5 0x0#2)
  | .cmpo rd rs n => some (packCX 0x3C rd rs 0x0#6 0x0#5 n.code)
  | .cmpr => some (packCX 0x3C 0x0#6 0x0#6 0x0#6 0x1#5 0x0#2)
  | .cmpq rd => some (packCX 0x3C rd 0x0#6 0x0#6 0x2#5 0x0#2)
  | .hld rd c go o => some (packCX 0x3D rd (0x0#2 ++ c) go (0x0#3 ++ o.code) 0x0#2)
  | .hst rv c go o => some (packCX 0x3D rv (0x0#2 ++ c) go (0x1#3 ++ o.code) 0x0#2)
  | .hldv v c go => some (packCX 0x3D (0x0#1 ++ v) (0x0#2 ++ c) go 0x8#5 0x0#2)
  | .hstv v c go => some (packCX 0x3D (0x0#1 ++ v) (0x0#2 ++ c) go 0xC#5 0x0#2)
  | .hgat v c i => some (packCX 0x3D (0x0#1 ++ v) (0x0#2 ++ c) (0x0#1 ++ i) 0x10#5 0x0#2)
  | .hsct v c i => some (packCX 0x3D (0x0#1 ++ v) (0x0#2 ++ c) (0x0#1 ++ i) 0x14#5 0x0#2)
  | .hldX gt c go o => some (packCX 0x3D gt (0x0#2 ++ c) go (0x7#3 ++ o.code) 0x0#2)
  | .hship ga c go => some (packCX 0x3D ga (0x0#2 ++ c) go 0x0#5 0x1#2)
  | .hpull ga c go => some (packCX 0x3D ga (0x0#2 ++ c) go 0x1#5 0x1#2)
  | .bgemv ga c go => some (packCX 0x3D ga (0x0#2 ++ c) go 0x2#5 0x1#2)
  | .hfenceL => some (packCX 0x3D 0x0#6 0x0#6 0x0#6 0x3#5 0x1#2)
  | .oxfer c gd => some (packCX 0x3D (0x0#2 ++ c) gd 0x0#6 0x0#5 0x2#2)
  | .oacq c => some (packCX 0x3D (0x0#2 ++ c) 0x0#6 0x0#6 0x1#5 0x2#2)
  | .cmov d s => some (packCX 0x3D (0x0#2 ++ d) (0x0#2 ++ s) 0x0#6 0x2#5 0x2#2)
  | .cmovRemote d s gc => some (packCX 0x3D (0x0#2 ++ d) (0x0#2 ++ s) gc 0x2#5 0x2#2)
  | .cderive d s gb => some (packCX 0x3D (0x0#2 ++ d) (0x0#2 ++ s) gb 0x3#5 0x2#2)
  | .crights d s ga => some (packCX 0x3D (0x0#2 ++ d) (0x0#2 ++ s) ga 0x4#5 0x2#2)
  | .hatomAdd rd c go o => some (packCX 0x3D rd (0x0#2 ++ c) go (0x0#3 ++ o.code) 0x3#2)
  | .hatomSwp rd c go o => some (packCX 0x3D rd (0x0#2 ++ c) go (0x1#3 ++ o.code) 0x3#2)
  | .hatomCas rd c go o => some (packCX 0x3D rd (0x0#2 ++ c) go (0x2#3 ++ o.code) 0x3#2)
  | .hatomMin rd c go o => some (packCX 0x3D rd (0x0#2 ++ c) go (0x3#3 ++ o.code) 0x3#2)
  | .hatomMax rd c go o => some (packCX 0x3D rd (0x0#2 ++ c) go (0x4#3 ++ o.code) 0x3#2)
  | .hatomMinn rd c go o => some (packCX 0x3D rd (0x0#2 ++ c) go (0x5#3 ++ o.code) 0x3#2)
  | .hatomMaxn rd c go o => some (packCX 0x3D rd (0x0#2 ++ c) go (0x6#3 ++ o.code) 0x3#2)
  | .hatomFadd rd c go o => some (packCX 0x3D rd (0x0#2 ++ c) go (0x7#3 ++ o.code) 0x3#2)
  | .hwimm p => some (packHW 0x3E (0x0#1 ++ p))
  | .hblk l => some (packHW 0x3E (0x100000#21 ++ l))
  | .hgran g => some (packHW 0x3F (0x0#22 ++ g))
  | .hrm r => some (packHW 0x3F (0x100000#22 ++ r.code))
  | .illegalInstruction => none
  | .packetRuleViolation => none
  | .fetchFault => none
  | .ownerTimer => none
  | .deferredCauseEntry => none
  | .storeBufferExit => none
  | .remoteAck => none
  | .remoteStoreApply => none
  | .remoteLoadApply => none
  | .remoteLoadReply => none
  | .atomicApply => none
  | .depositApply => none
  | .capDepositApply => none
  | .messageApply => none
  | .signalApply => none
  | .setAsidePushApply => none
  | .ringCreditArrive => none
  | .ringFillArrive => none
  | .feRemoteApply => none
  | .feParkedRetry => none
  | .bankOpApply => none
  | .bulkCommandStart => none
  | .bulkBeat => none
  | .stealProbe => none
  | .stealRequestApply => none
  | .stealReply => none
  | .taskPop => none
  | .composeBind => none
  | .gangBarrier => none
  | .gangMismatch => none
  | .arrayStart => none
  | .arrayComplete => none
  | .sliceComplete => none
  | .mdrainrWake => none
  | .purseRefill => none
  | .purseThrottle => none
  | .watchdog => none
  | .terminationWave => none
  | .turnAnnounce => none
  | .turnDrain => none
  | .turnMove => none
  | .turnLaneRetry => none
  | .turnLaneFallback => none
  | .turnRemap => none
  | .turnResume => none
  | .resultForward => none
  | .preempt => none
  | .contextRestore => none
  | .hbmReadReply => none
  | .hbmWriteArrive => none
  | .hshipBeat => none
  | .hpullBeat => none
  | .bgemvBeat => none
  | .translationResolved => none
  | .translationMiss => none
  | .runAheadEnd => none
  | .pageRequestDequeue => none
  | .pageRequestTimeout => none
  | .checkpointReissue => none
  | .bulkRecordResume => none
  | .frameReclaim => none
  | .hbmScrub => none
  | .transferParityRetry => none
  | .laneTest => none
  | .laneSwap => none
  | .backgroundScrub => none
  | .launch => none
  | .launchStart => none
  | .load => none
  | .store => none
  | .signalAdd => none
  | .signalSet => none
  | .waitPacket => none
  | .waitComplete => none
  | .armOnce => none
  | .armPeriodic => none
  | .armCancel => none
  | .barrier => none
  | .barrierComplete => none
  | .loadStoreComplete => none
  | .timerTick => none
  | .notify => none
  | .queueKill => none
  | .registerWrite => none
  | .mapperBind => none
  | .mapperEvict => none
  | .packetTake => none
  | .headerReread => none
  | .submitTimeout => none
  | .completionWrite => none
  | .pageReplyMapped => none
  | .pageReplyRefused => none
  | .invalidateObject => none
  | .invalidateExtent => none
  | .invalidateSecondStage => none
  | .invalidateAll => none
  | .invalidateDone => none
  | .mintCreate => none
  | .mintFree => none
  | .mintAlias => none
  | .mintCheckpoint => none
  | .cxlMemRead => none
  | .cxlMemWrite => none
  | .collectiveStart => none
  | .collectiveDone => none
  | .collectiveTimeout => none
  | .linkRetry => none
  | .linkDown => none
  | .linkDownTimeout => none
  | .loadStoreLinkTimeout => none
  | .fabricFlitRetry => none
  | .fabricRetrain => none
  | .remoteHomeTimeout => none
  | .pluginCall => none
  | .pluginFault => none
  | .pluginLoad => none
  | .deviceReset => none
  | .attestationRequest => none
  | .functionLevelReset => none
  | .regionCreate => none
  | .regionResize => none
  | .regionFree => none
  | .linkUp => none
  | .hostEnumeration => none
  | .pageRequestRingEnable => none
  | .reclaimReply => none
  | .fabricRequestArrive => none
  | .divisionComplete => none
  | .frameCountsSet => none
  | .refillRateSet => none
  | .operatorKeyEnrol => none

/-- The first 32-bit word of a decoded instruction: what `decodeTableWord` reads. The
kind of core is the one the word is an instruction on. -/
def decodeAny (w : IWord) : Decoded :=
  match decode false w with
  | .ok i => .ok i
  | .bad _ => decode true w

/-- The instruction that the decoder reads from the `nbits` bits `w` of a row of
spec/opcode_table.json (one 32-bit word, stored little-endian, R132). -/
def decodeTableWord (nbits w : Nat) : Option Instr :=
  if nbits = 32 then
    match decodeAny (BitVec.ofNat 32 w) with
    | .ok i => some i
    | .bad _ => none
  else none

end Sys2Proof
end

