-- ==== Sys2Proof/Machine/State.lean ====
section
/-! DEFINITION. The state of the machine as plain data: cores, regions, owners'
functions, the device, the messages in flight and the model's own fields (agenda,
issue context). INVENTORY.md lists each field with its rule and its reset value. -/

namespace Sys2Proof.Machine

open Sys2Proof

/-! ## Stops -/

/-- Reasons for which a step could stop with a fault. -/
inductive Fault
  /-- Raised by no meaning and no step: every failure the spec describes is an exception
  entry, a completion status or a strike, and the machine goes on
  (21_faults_instructions.md to 25_containment.md). Safe: a stop proves nothing. -/
  | none
  deriving DecidableEq, Repr

/-- Reasons for which a step could be refused. -/
inductive Refusal
  /-- Raised by exec's arm of an instruction that has no meaning yet. Safe. -/
  | notModelled (mnemonic : String)
  deriving DecidableEq, Repr

/-! ## Storage -/

/-- A byte memory: the cells that differ from what an unlisted address reads as, by
rising address (notes/assumptions/1.md). -/
abbrev Memory := List Host.Cell

/-- What an unlisted address reads as. Scratch, register space and banks read zero
(R49, R75); HBM and host memory by notes/assumptions/15.md. -/
def Memory.unlisted : Byte := 0

/-- The canonical form: addresses strictly rising, no cell equal to `unlisted`. -/
def Memory.wf : Memory → Bool
  | [] => true
  | [c] => c.2 != Memory.unlisted
  | c :: d :: m => c.2 != Memory.unlisted && decide (c.1 < d.1) && Memory.wf (d :: m)

/-- A capability register: 128 bits and a tag (R77). -/
structure Cap where
  bits : BitVec 128
  tag : Bool
  deriving DecidableEq, Repr

/-! ## Remote operations and messages (R47, R56, R75) -/

/-- Operations of atomics (R192, R285). -/
inductive AtomOp | add | swp | cas | min | max | minn | maxn | and | or | xor | fadd
  deriving DecidableEq, Repr

/-- Where a message goes: a core's service engine or a column's bank hart inside a region
(R56), or another module's HBM (R310, R333). -/
inductive Place | core (num : Nat) | bank (lcol : Nat) | home (id : BitVec 9)
  deriving DecidableEq, Repr

/-- What a message asks its destination to do. -/
inductive RemoteOp
  /-- Store bytes at an offset (R47). -/
  | store (off : Nat) (bytes : List Byte)
  /-- A beat of `mdrainr`: bytes of which the first `bits` bits are elements (R272, R274). -/
  | beat (off : Nat) (bytes : List Byte) (bits : Nat)
  /-- Load `size` bytes into general register rd of the sender (R187). -/
  | load (off size : Nat) (signed : Bool) (rd : BitVec 6)
  /-- Atomic (R192). -/
  | atomic (op : AtomOp) (off : Nat) (b exp : BitVec 64) (rd : BitVec 6)
  /-- Remote `ldfe` (R199). -/
  | ldfe (off : Nat) (rd : BitVec 6)
  /-- Remote `stfe` (R199). -/
  | stfe (off : Nat) (v : BitVec 64)
  /-- Inbox deposit (R74, R206). -/
  | deposit (k : BitVec 5) (v : BitVec 64)
  /-- Inbox deposit of `hld.x` (R282). -/
  | depositX (k : BitVec 5) (v : BitVec 64)
  /-- Capability deposit of a remote `cmov` (R294). -/
  | capDeposit (k : BitVec 4) (cap : Cap)
  /-- Active message (R222). -/
  | message (hdr : BitVec 64) (args : List (BitVec 64))
  /-- Signal of `tsig` or `tend` (R223). -/
  | signal (ref v : BitVec 64)
  /-- Ring credits (R204). -/
  | credit (q : BitVec 3) (n : BitVec 11)
  /-- Ring fill advance (R204). -/
  | fill (q : BitVec 3) (n : BitVec 11)
  /-- The state field of a TCB (R213, R218, R224): the byte that holds it, and its value. -/
  | state (off : Nat) (st : BitVec 2)
  /-- Steal request (R217). -/
  | steal
  /-- Reply to a steal request (R217). -/
  | stealReply (entry : Option (BitVec 512))
  /-- Reply of a load or atomic: the value of rd (R187, R192). -/
  | reply (rd : BitVec 6) (v : BitVec 64)
  /-- Acknowledgement of the buffer entry `seq` (R186). -/
  | ack (seq : Nat)
  /-- A delivery beat of a memory core that left while its column's stores moved (R355): bytes of
  register space or of scratch, and the cell that counts them. -/
  | deliver (regs : Bool) (off : Nat) (bytes : List Byte) (cell : BitVec 5)
  deriving DecidableEq, Repr

/-- A message in flight: sender, destination, operation, the sender's buffer entry and
the turn stamp under which the destination was resolved (R36, R304). -/
structure Msg where
  src : CoreId
  dst : Place
  op : RemoteOp
  seq : Nat
  stamp : BitVec 2
  deriving DecidableEq, Repr

/-! ## The scale-up fabric (R310, R333 to R335, R415) -/

/-- What an access asks of the module that its object is homed on, at object offsets (R277). -/
inductive HomeOp
  | load (off : Nat) (rd : BitVec 6)
  | loadX (off dst : Nat) (k : BitVec 5)
  /-- Bytes for a row of the view area: `hldv`, `hgat`. -/
  | loadRow (off len row : Nat)
  | store (parts : List (Nat × List Byte))
  | atomic (op : AtomOp) (off : Nat) (b exp : BitVec 64) (rd : BitVec 6)
  /-- A beat of `hship`: the command and the bytes it reads. -/
  | ship (cmd off len : Nat)
  /-- A beat of `hpull`: the command and the bytes it writes. -/
  | pull (cmd off : Nat) (bytes : List Byte)
  deriving DecidableEq, Repr

/-- Whether it is a load of a core (R281 to R284). -/
def HomeOp.value : HomeOp → Bool
  | .load _ _ | .loadX _ _ _ | .loadRow _ _ _ => true
  | _ => false

/-- A request of this module that the module of its object has not answered (R333, R334), and
the cc for which no path has reached it (R449). -/
structure HomeReq where
  src : CoreId
  seq : Nat
  home : BitVec 9
  obj : BitVec 15
  op : HomeOp
  held : Nat
  deriving DecidableEq, Repr

/-- What the home module answers to the walk of an access (R415). -/
inductive HomeAns
  | mapped
  /-- A miss, which the home module asks its hypervisor about; the elements of an `hgat` or `hsct`
  that translate (R412, R415). -/
  | missed (done : List Nat)
  | fault (cls sub : BitVec 8) (value : BitVec 48)
  deriving DecidableEq, Repr

/-- What another module's access asks of this one (R310). -/
inductive FabricOp
  | read
  | write (bytes : List Byte)
  | atomic (op : AtomOp) (b exp : BitVec 64)
  deriving DecidableEq, Repr

/-- A request of another module: its fabric ID, the owner and the circuit it names, its bytes,
the granules it waits for with their replies (R333, R411, R415). -/
structure FabricReq where
  src : BitVec 9
  fn : Nat
  circ : Nat
  obj : BitVec 15
  off : Nat
  size : Nat
  op : FabricOp
  asked : List Nat
  answered : List (Nat × BitVec 8)
  deriving DecidableEq, Repr

/-- The answer to another module's request: bytes read, an acknowledgement, or the fault of its
walk (R310, R415). -/
inductive FabricVal
  | data (bytes : List Byte)
  | ack
  | fault (cls sub : BitVec 8) (value : BitVec 48)
  deriving DecidableEq, Repr

/-- A lane of a fabric port: whether it works, and the partition whose sub-link it is, by the
owner; none for a lane that is not split off (R335, R448). -/
structure Lane where
  up : Bool
  part : Option Nat
  deriving DecidableEq, Repr

/-! ## Writes waiting to land (R135, R51) -/

/-- One architected write of a core. -/
inductive Write
  | g (n : BitVec 6) (v : BitVec 64)
  | p (n : BitVec 3) (v : Bool)
  | t (n : BitVec 6) (v : BitVec 512)
  /-- A view row with the flags that land with it (R94). -/
  | row (off : Nat) (bytes : List Byte) (flags : BitVec 5)
  /-- A row of `vst` or `vsct` in scratch (R250). -/
  | scr (off : Nat) (bytes : List Byte)
  /-- The result of a local `ldfe` is due (R157, R198). -/
  | lineLoad (rd : BitVec 6)
  | flags (v : BitVec 5)
  | csrSet (c : Csr) (v : BitVec 64)
  | csrOr (c : Csr) (v : BitVec 64)
  | csrClr (c : Csr) (v : BitVec 64)
  /-- `srcnt` after a stochastic word: its value at issue plus the word's draws (R98, R174). -/
  | srAdv (v : BitVec 32)
  | view (n : Nat) (v : BitVec 128)
  | ring (q : BitVec 3) (v : BitVec 256)
  /-- Ring handle q after a pop, or a push, of n slots (R70, R204). -/
  | ringPop (q : BitVec 3) (n : Nat)
  | ringPush (q : BitVec 3) (n : Nat)
  /-- A push port takes a slot of q, and its rows are in the slot (R70). -/
  | ringTake (q : BitVec 3)
  | ringFilled (q : BitVec 3)
  /-- The flags of a word whose rows go to a port (R236). -/
  | portFlags (v : BitVec 5)
  | cellSet (w : BitVec 5) (v : BitVec 32)
  | cellAdd (w : BitVec 5) (v : BitVec 32)
  | cellSub (w : BitVec 5) (v : BitVec 32)
  | xclr (x : BitVec 5)
  | cap (n : BitVec 4) (v : Cap)
  /-- Full/empty bits of lines from `line` upward (R198). -/
  | fe (line count : Nat) (full : Bool)
  /-- A store to register space (R60). -/
  | regs (off : Nat) (bytes : List Byte)
  deriving DecidableEq, Repr

/-- A write that lands `d` cc from now (R51: due at b + d). -/
structure Pend where
  w : Write
  d : Nat
  deriving DecidableEq, Repr

/-! ## Store buffer and outstanding accesses (R186 to R188) -/

/-- A bulk or memory-core transfer command (R209 to R212, R286 to R290). -/
inductive BulkKind | bcopy | tload | tstore | hship | hpull | bgemv | hostLoad | hostStore
  deriving DecidableEq, Repr

/-- A side of a bulk command. -/
inductive Side
  | scratch (num : Nat)
  /-- The issuing core's scratch, over the n members of its composition at issue (R228). -/
  | own (n : Nat)
  | regs (num : Nat)
  | bank (lcol : Nat)
  /-- HBM through a capability (R287, R288). -/
  | hbm (cap : Cap)
  /-- Host memory by DMA (R316). -/
  | host
  deriving DecidableEq, Repr

/-- One delivery beat: source offset, destination offset, bytes (R211). -/
structure Beat where
  src : Nat
  dst : Nat
  len : Nat
  deriving DecidableEq, Repr

/-- An outstanding bulk command: its beats not yet delivered (R211, R212). A `bgemv`
keeps its descriptor, its vector A and its first failed check (R289, R290). -/
structure Bulk where
  id : Nat
  kind : BulkKind
  src : Side
  dst : Side
  beats : List Beat
  /-- Beats delivered (R212). -/
  count : Nat
  cell : BitVec 5
  gran : BitVec 3
  started : Bool
  /-- The remainder is a record that waits (R212, R414). -/
  record : Bool
  /-- The granule whose reply the record waits for, and that reply (R414). -/
  waiting : Option Nat
  answer : Option (BitVec 8)
  desc : BitVec 512
  vec : List (BitVec 16)
  bad : Option (BitVec 48 × BitVec 8)
  /-- The queue packet of a LOAD or STORE: function, queue, sseq, bytes moved. -/
  packet : Option (Nat × Nat × BitVec 16 × Nat)
  /-- cc for which the command has been held for an unreachable home (R449). -/
  held : Nat
  /-- The capability register the word named (R416). -/
  creg : BitVec 4
  deriving DecidableEq, Repr

/-- What a store-buffer entry does when it leaves (R186). -/
inductive SbKind
  | scr (off : Nat) (bytes : List Byte)
  | stfe (off : Nat) (v : BitVec 64)
  | send (dst : Place) (op : RemoteOp)
  | push (entry : BitVec 512) (top : Bool)
  /-- The push of `tinit` for the TCB at an offset (R220). -/
  | pushTcb (off : Nat) (hi : Bool)
  | bulk (b : Bulk)
  /-- The signals of `tend` and the write that frees its TCB (R224): references, value,
  home core, offset of the byte that holds the state. -/
  | finish (refs : List (BitVec 64)) (v : BitVec 64) (home off : Nat)
  /-- The bytes of an HBM store at their host-physical addresses (R281, R283, R284). -/
  | hbm (parts : List (Nat × List Byte))
  /-- An HBM atomic (R285). -/
  | hatom (op : AtomOp) (addr : Nat) (b exp : BitVec 64) (rd : BitVec 6)
  /-- A store or an atomic of an object homed on another module (R277, R333). -/
  | home (id : BitVec 9) (obj : BitVec 15) (op : HomeOp)
  deriving DecidableEq, Repr

/-- A store-buffer entry with its place in program order; `rel` waits for every earlier
access (R188). -/
structure SbEntry where
  kind : SbKind
  rel : Bool
  seq : Nat
  /-- Entered in this cc: a local store that has not yet landed (R135, R186). -/
  fresh : Bool
  /-- Rows in scratch of earlier words that have not landed: they are written first (R250,
  R300). -/
  behind : Nat
  deriving DecidableEq, Repr

/-- Kinds of outstanding result (R157, R187). -/
inductive OutKind | load | atomic | division | hbm | steal
  /-- A local `ldfe`: its value is read at issue and lands when it is due (R157, R198). -/
  | lineLoad
  /-- A remote load of a successor reference by `tend` (R224). -/
  | successor
  deriving DecidableEq, Repr

/-- An outstanding access or division: the register its result will write, its place in
program order, where it goes, and whether it has performed (R186). -/
structure Outst where
  kind : OutKind
  rd : BitVec 6
  seq : Nat
  dst : Option Place
  acq : Bool
  performed : Bool
  v : BitVec 64
  due : Nat
  deriving DecidableEq, Repr

/-- A remote write that has left the buffer and is not acknowledged (R186). -/
structure Unacked where
  seq : Nat
  dst : Place
  /-- The bytes it writes at its destination: offset and count (R302). -/
  off : Nat
  len : Nat
  deriving DecidableEq, Repr

/-- An HBM access of a memory core on its way (R278): the host-physical bytes, where a
load's value goes, and its order. -/
inductive HbmOp
  | load (addr : Nat) (rd : BitVec 6)
  | loadX (addr : Nat) (dst : Nat) (k : BitVec 5)
  /-- One row of `hldv`, or one element of `hgat`: bytes to the view area. -/
  | loadRow (parts : List (Nat × Nat)) (off : Nat)
  deriving DecidableEq, Repr

/-- An HBM access in flight. -/
structure HbmAcc where
  op : HbmOp
  seq : Nat
  acq : Bool
  deriving DecidableEq, Repr

/-- A range of the core's own scratch that a bulk command reads or writes (R68). -/
structure ScoreEntry where
  lo : Nat
  hi : Nat
  write : Bool
  cmd : Nat
  deriving DecidableEq, Repr

/-! ## Matrix commands (R260 to R275) -/

/-- An `mmul` or `mmsp` with the parameters copied at issue (R258, R263, R266): the
descriptors with the base and pitch of their tile views, the bases of the accumulator and
of the side vector, the armed mask and the word's index in its packet. -/
structure Product where
  sparse : Bool
  ad : BitVec 3
  ta : BitVec 512
  tb : BitVec 512
  taNum : BitVec 6
  tbNum : BitVec 6
  sa : Bool
  sb : Bool
  sat : Bool
  acc : Bool
  fd : Bool
  rsum : Bool
  csum : Bool
  side : Nat
  base : Nat
  gamma : BitVec 32
  gran : Nat
  mask : BitVec 8
  word : BitVec 2
  deriving DecidableEq, Repr

/-- Slice-path work (R270 to R274). -/
inductive SliceKind | mzero | mfade | mdrain | mdrainr
  deriving DecidableEq, Repr

/-- A row that a slice-path command has not yet written: its number, the cc until it is written or
sent, its offset, its bytes, and how many bits of them are elements (R272). -/
structure SliceRow where
  row : Nat
  due : Nat
  off : Nat
  bytes : List Byte
  bits : Nat
  deriving DecidableEq, Repr

/-- A slice-path command in flight: rows not yet written, cc to its completion, the core an
`mdrainr` writes to, its rows not acknowledged, its wake message, its granule exponent, and
the register-space bytes it reads or writes (R261, R270 to R275). -/
structure SliceCmd where
  kind : SliceKind
  rows : List SliceRow
  ends : Nat
  dst : Option Nat
  acks : List Nat
  wake : Option (BitVec 64 × List (BitVec 64))
  gran : Nat
  reads : List (Nat × Nat)
  writes : List (Nat × Nat)
  deriving DecidableEq, Repr

/-- The gang whose product is in the array, and the cc to its completion (R268). -/
structure ArrayRun where
  mask : BitVec 8
  ends : Nat
  deriving DecidableEq, Repr

/-- A core's product in the array: its parameters, the accumulator before the first group,
the results written when it completes, the first failed data check, and the
register-space bytes it reads and writes (R261, R266, R267, R378). -/
structure CoreProduct where
  prm : Product
  start : List (BitVec 32)
  /-- Row sums and column sums before the first group, when it has them (R267, R275). -/
  sums : List (BitVec 32) × List (BitVec 32)
  acc : List (BitVec 32)
  side : List (Nat × List (BitVec 32))
  bad : Option (BitVec 6 × BitVec 48 × BitVec 8)
  reads : List (Nat × Nat)
  writes : List (Nat × Nat)
  deriving DecidableEq, Repr

/-! ## The core -/

/-- Why a packet did not issue (R134, R363, R408): nothing, an operand's interlocked
result, a condition, a second-stage miss, or an exception that was entered. -/
inductive Status | ready | operand | waiting | missed | trapped
  deriving DecidableEq, Repr

/-- The packet a core issues and the hints that precede the word in hand (R133, R150);
model's own. `fst` and `nxt` are the offsets of its first word and of the word after its
last; `taken` says that a word has set the pc. -/
structure Issue where
  word : BitVec 2
  fst : Nat
  nxt : Nat
  hw : List (BitVec 24)
  gran : Option (BitVec 3)
  hrm : Option RMode
  status : Status
  taken : Bool
  commit : Bool
  /-- The word waits and keeps what it has begun: the reservations of `cmpo` (R227), the
  successor loads of `tend` (R224). -/
  keep : Bool
  deriving DecidableEq, Repr

/-- A resource that a word reads or writes, for the interlocks (R157, R178). -/
inductive Res
  | g (n : BitVec 6)
  | p (n : BitVec 3)
  | t (n : BitVec 6)
  | c (n : BitVec 4)
  | fflags
  /-- The state area of register space (R60). -/
  | area
  /-- Bytes of register space. -/
  | regs (lo len : Nat)
  /-- Bytes of own scratch. -/
  | scr (lo len : Nat)
  deriving DecidableEq, Repr

/-- An exception as R366 and R386 report it. -/
structure Exc where
  cls : BitVec 8
  sub : BitVec 8
  reg : BitVec 6
  value : BitVec 48
  /-- The failing word's major opcode, where the class reports one (R367). -/
  mj : BitVec 6
  deriving DecidableEq, Repr

/-- Deferred causes (R365, R387, R414), in the order they are taken. -/
inductive Deferred
  | matrix (reg : BitVec 6) (row : BitVec 48) (sub : BitVec 8)
  | overrun (inbox : BitVec 5) (src : BitVec 12)
  | dequeFull (src : BitVec 12)
  | underflow (tcb : BitVec 19) (src : BitVec 12)
  | memory (e : Exc)
  deriving DecidableEq, Repr

/-- An arrival in the arrival spill area (R33, R376, R377, R390). -/
inductive Spilled
  | deposit (k : BitVec 5) (v : BitVec 64)
  | fe (m : Msg)
  | push (entry : BitVec 512)
  | ring (q : BitVec 3) (n : BitVec 11)
  deriving DecidableEq, Repr

/-- A core's place in a composition (R53, R227). `aside` holds the loop CSRs, gd and the
resume offset of the `cmpo`. -/
inductive Compo
  | plain
  | reserved (leader : Nat)
  | member (leader : Nat)
  | leader (n : Nat) (aside : BitVec 19 × BitVec 19 × BitVec 32) (gd : BitVec 6) (resume : Nat)
  deriving DecidableEq, Repr

/-- A `cmpo` that waits for its members (R227). -/
structure Binding where
  n : Nat
  bound : Bool
  deriving DecidableEq, Repr

/-- The CSRs a core keeps (R172); `cyc`, `devtime`, `ocyc`, `turnno`, `lcid` and `rgsize`
are read from the device and the region. -/
structure Csrs where
  turnh : BitVec 11
  bankext : BitVec 6
  vshape : BitVec 10
  frm : BitVec 8
  fflags : BitVec 5
  srseed : BitVec 32
  srcnt : BitVec 32
  mgamma : BitVec 32
  gmask : BitVec 64
  lpbeg : BitVec 19
  lpend : BitVec 19
  lpcnt : BitVec 32
  tlpcnt : BitVec 32
  ocmp : BitVec 64
  evec : BitVec 7
  epc : BitVec 17
  ecause : BitVec 32
  level : BitVec 2
  plev : BitVec 2
  einfo : BitVec 64
  escr0 : BitVec 64
  escr1 : BitVec 64
  deriving DecidableEq, Repr

/-- The state captured at the boundary b of an unresolved translation (R406, R412). -/
structure Ckpt where
  g : Vector (BitVec 64) 64
  p : Vector Bool 8
  x : Vector (BitVec 64) 32
  xpres : Vector Bool 32
  w : Vector (BitVec 32) 32
  c : Vector Cap 16
  q : Vector (BitVec 256) 8
  v : Vector (BitVec 128) 48
  t : Vector (BitVec 512) 64
  csr : Csrs
  vmem : Memory
  fe : List Nat
  latch : Bool
  pend : List Pend
  vbusy : Nat
  pc : Nat
  seq : Nat
  deriving DecidableEq, Repr

/-- Run-ahead from b (R408): packets counted, granules gathered with their access bits,
and the registers and view bytes that are unresolved. -/
structure RunAhead where
  packets : Nat
  batch : List (Nat × Bool × Bool)
  unres : List Res
  deriving DecidableEq, Repr

/-- One core: a compute core, a memory core, or the leader or a member of a composed
core. Field by field in INVENTORY.md. -/
structure Core where
  id : CoreId
  /-- One of the four firmware cores (R175, R338). -/
  firm : Bool
  g : Vector (BitVec 64) 64
  p : Vector Bool 8
  x : Vector (BitVec 64) 32
  xpres : Vector Bool 32
  w : Vector (BitVec 32) 32
  c : Vector Cap 16
  q : Vector (BitVec 256) 8
  v : Vector (BitVec 128) 48
  t : Vector (BitVec 512) 64
  csr : Csrs
  /-- View area of register space (R58). -/
  vmem : Memory
  scr : Memory
  /-- Full lines of scratch, rising (R67). -/
  fe : List Nat
  /-- Stripes that a write has reached: 0 to 7 of scratch, 8 the view area's (R359). -/
  touched : List Nat
  /-- Those of them that a write has reached since the owner's checkpoint (R435). -/
  dirty : List Nat
  /-- Words fetched and kept until `fence.core` (R66), by offset. -/
  fetched : List (Nat × BitVec 32)
  /-- Queue image and queue control word (R158), by register-space offset. -/
  qimg : Memory
  pc : Nat
  pend : List Pend
  vbusy : Nat
  /-- Replayed writes and the V pipe's count stand still until the first packet issues, at b'
  (R51); model's own. -/
  rearmed : Bool
  /-- Cycles, this one included, in which no packet may issue (R136, R218). -/
  bubble : Nat
  /-- The next packet of a composed core starts a block and must carry `hblk` (R366). -/
  blk : Bool
  /-- Where the block in hand of a composed core starts, and how many of its packets have still
  to issue (R152, R228, R396). -/
  blkAt : Nat
  blkLeft : Nat
  /-- What an entry found of these three, for the return (R169, R178, R366). -/
  blkBack : Bool × Nat × Nat
  issue : Issue
  /-- The packet of this cc has issued or stalled; model's own. -/
  done : Bool
  seq : Nat
  sb : List SbEntry
  unacked : List Unacked
  outs : List Outst
  score : List ScoreEntry
  bulks : List Bulk
  /-- When its column's copy hart last served the core, for the round-robin (R211). -/
  copyAt : Nat
  hbmAcc : List HbmAcc
  /-- HBM writes performed and not at their bank write buffer: address and length
  (R278, R291). -/
  hbmWr : List (Nat × Nat)
  waitList : List Msg
  spill : List Spilled
  latch : Bool
  gang : Option (BitVec 8)
  /-- The product that waits at issue, for the barrier (R263). -/
  atBarrier : Option Product
  /-- A `wfe` of the packet at the pc waits on the latch (R181). -/
  onLatch : Bool
  /-- A task, message or composition word of the packet at the pc stalls: entries wait for it
  (R225). -/
  onTask : Bool
  /-- Rows in scratch that a composed core has written in this cc, by composed offset: they
  reach the members' scratch with its end (R237, R250); model's own. -/
  rowsOut : List (Nat × List Byte)
  /-- The gang has started: the waiting product issues (R264). -/
  granted : Bool
  product : Option CoreProduct
  slice : Option SliceCmd
  waited : Nat
  /-- A `trap` or `svc` whose entry waits for the remote accesses of its packet (R176, R190):
  class and code. -/
  trapDue : Option (BitVec 8 × BitVec 12)
  deferred : List Deferred
  /-- Successor references that a waiting `tend` has loaded from another core (R224). -/
  refs : List (BitVec 64)
  hiDeque : List (BitVec 512)
  loDeque : List (BitVec 512)
  /-- Places of the deque spill area of scratch (R42, R65) that hold entries, each deque's
  from its top to its bottom. -/
  hiSpill : List Nat
  loSpill : List Nat
  running : Option (BitVec 512)
  /-- Round-robin steal pointer of each distance of R43 (R325). -/
  stealPtr : List Nat
  /-- Steal sweep: the distance and the victims probed (R43). -/
  sweep : Nat
  awaiting : Bool
  compo : Compo
  binding : Option Binding
  stopped : Bool
  /-- Translations not yet resolved, by their places in program order (R406). -/
  walks : List Nat
  ckpt : Option Ckpt
  ahead : Option RunAhead
  /-- Granules that the packet at b waits for, with their access bits (R412). -/
  needs : List (Nat × Bool × Bool)
  /-- Replies the packet at b has had: 1 refused, 2 no reply in time, 4 mapped (R411). -/
  answered : List (Nat × BitVec 8)
  /-- Granules of the core's last batch (R409, R412). -/
  asked : List Nat
  /-- Object-table cache, and translation cache: guest base, size, host base, whether reads
  and writes are permitted (R82). -/
  objCache : List (Nat × BitVec 512)
  tlb : List (Nat × Nat × Nat × Bool × Bool)
  /-- The module that must answer the walk of the packet at the pc, and the cc for which no path
  has reached it (R415, R449). -/
  homeHeld : Option (BitVec 9 × Nat)
  /-- What the home module has answered to the walk of the packet at the pc (R415). -/
  homeAns : Option HomeAns
  /-- The packet at b has run ahead for a miss at its home: it does not do so again (R412, R415). -/
  homeMissed : Bool
  /-- Rows of the view area that another module's answers have yet to write: the access's place in
  program order, offset, length (R276, R277). -/
  farRows : List (Nat × Nat × Nat)
  /-- What an entry of level 0 found of a packet that waits for replies, for its reissue: its pc,
  `needs`, `answered` and `homeMissed` (R178, R412). -/
  waitBack : Nat × List (Nat × Bool × Bool) × List (Nat × BitVec 8) × Bool
  deriving DecidableEq, Repr

/-! ## Regions (R27, R28) -/

/-- A launch that runs on a region (R45). -/
structure Launch where
  q : Nat
  sseq : BitVec 16
  core : Nat
  dom : BitVec 2
  startOcyc : BitVec 64
  deriving DecidableEq, Repr

/-- A column's joint array: gangs that wait in order, and the running command (R264). -/
structure ColArray where
  queue : List (BitVec 8)
  run : Option ArrayRun
  deriving DecidableEq, Repr

/-- A region of an owner on a circuit with its context. -/
structure Region where
  id : RegionId
  pos : Nat
  head : Nat
  mcs : List Nat
  resident : Bool
  /-- When the context was last resident, for the choice of stripes to claim (R360). -/
  lastRes : Nat
  ocyc : BitVec 64
  turnno : BitVec 64
  missed : Nat
  lastPause : Nat
  launch : Option Launch
  dom : BitVec 2
  inj : Nat
  ej : Nat
  wave : Option (Nat × Nat)
  arrays : List ColArray
  banks : List Memory
  /-- Bank stripes that a write has reached: logical column and number (R359). -/
  bankTouched : List (Nat × Nat)
  /-- Those that a write has reached since the owner's checkpoint (R435). -/
  bankDirty : List (Nat × Nat)
  /-- Pre-emption requested (R50). -/
  preempt : Bool
  started : Bool
  /-- A column has a failed slot that no spare replaces: the region is not resident for this
  turn period (R403, R404). -/
  blocked : Bool
  /-- Extents at which turns and saves have left bank bytes undefined, with the draw that
  stands for those bytes (R37). -/
  veil : List (Nat × Nat)
  /-- The launch is being ended with a status and a detail: the region's contexts stop and its
  store buffers drain first (R438, R439). -/
  ending : Option (BitVec 4 × BitVec 64)
  deriving DecidableEq, Repr

/-- A stripe of a movable store that a context holds (R359): the region, the logical
column, the store and the stripe's number; `saved` when it stands in the save area. -/
structure Stripe where
  r : RegionId
  lcol : Nat
  st : StoreKind
  k : Nat
  saved : Bool
  deriving DecidableEq, Repr

/-! ## Owners' functions (R313 to R324, R329 to R332) -/

/-- A packet that has been taken and not completed (R317). -/
structure Taken where
  type : BitVec 4
  sseq : BitVec 16
  /-- For WAIT: semaphore, equal, value. For LAUNCH: the launch that waits (R45). -/
  wait : Option (BitVec 8 × Bool × BitVec 64)
  launch : Option (BitVec 12 × BitVec 10 × BitVec 2 × List (BitVec 64))
  deriving DecidableEq, Repr

/-- A completion that has been decided and not written (R319). -/
structure Completion where
  status : BitVec 4
  type : BitVec 4
  sseq : BitVec 16
  detail : BitVec 64
  deriving DecidableEq, Repr

/-- A queue: descriptor, producer index and mapper state (R313, R314, R318, R320). -/
structure Queue where
  dw0 : BitVec 64
  dw1 : BitVec 64
  cons : BitVec 16
  csq : BitVec 16
  sseq : BitVec 16
  head : BitVec 16
  ctail : BitVec 16
  prod : BitVec 16
  announced : Bool
  bound : Bool
  idle : Nat
  /-- Header re-reads made since the last packet was taken, and the `devtime` of the next
  (R318). -/
  rereads : Nat
  rereadAt : Nat
  taken : List Taken
  comps : List Completion
  killing : Bool
  /-- A kill that landed in a turn's pause or a rollback, and takes effect at its end (R439). -/
  killAsked : Bool
  deriving DecidableEq, Repr

/-- A timer (R323). -/
structure Timer where
  armed : Bool
  time : BitVec 64
  period : Option (BitVec 64)
  sem : BitVec 8
  v : BitVec 64
  miss : BitVec 32
  deriving DecidableEq, Repr

/-- An outstanding page request (R409 to R411): tag, granule, access bits, the cc since
it was written. -/
structure PageReq where
  tag : BitVec 32
  gran : Nat
  rd : Bool
  wr : Bool
  age : Nat
  written : Bool
  deriving DecidableEq, Repr

/-- A plug-in's state (R338, R451). -/
structure Plugin where
  loaded : Bool
  stopped : Bool
  slice : BitVec 64
  /-- The monitor's limits on the share and on the slice: least and greatest (R338). -/
  shares : BitVec 8 × BitVec 8
  slices : BitVec 64 × BitVec 64
  /-- A call that has not returned: its firmware core and the cc since it; whether an access of it
  fell outside the protection regions (R338, R451). -/
  called : Option (Nat × Nat)
  breach : Bool
  deriving DecidableEq, Repr

/-- What a checkpoint has copied to shadow frames since it was taken (R435): stripes of cores, 0 to 7
of scratch, 8 of the view area, 9 of the state area; stripes of banks; frames. -/
structure Shadow where
  cores : List (CoreId × Nat)
  banks : List (RegionId × Nat × Nat)
  frames : List Nat
  deriving DecidableEq, Repr

/-- The checkpoint of an owner (R434). -/
structure Checkpoint where
  cores : List Core
  regions : List Region
  frames : Memory
  queues : List Queue
  sems : List (BitVec 64)
  timers : List Timer
  /-- Bytes of the packet rings between head and producer index. -/
  rings : List Host.Cell
  /-- The frames it covers. -/
  covered : List Nat
  /-- Results of memory cores that were on their way (R36; notes/assumptions/39.md). -/
  owed : List Msg
  /-- Requests to other modules that were not answered (R415, R434). -/
  far : List HomeReq
  copied : Shadow
  deriving DecidableEq, Repr

/-- A virtual function, the owner's side of the front end and the memory port. -/
structure Fn where
  enabled : Bool
  share : BitVec 8
  plugin : Plugin
  queues : List Queue
  sems : List (BitVec 64)
  timers : List Timer
  prBase : BitVec 64
  prEn : Bool
  prTail : BitVec 16
  reqs : List PageReq
  reqQueue : List (Nat × Bool × Bool)
  nextTag : BitVec 32
  inval : Option (BitVec 2 × BitVec 39)
  invalNext : Option (BitVec 2 × BitVec 39)
  mintReq : Vector (BitVec 64) 8
  mintAns : BitVec 64
  mintBusy : Bool
  window : Option (BitVec 15)
  objBase : Nat
  objCount : Nat
  ssRoot : Nat
  guar : Nat
  burst : Nat
  frames : List Nat
  wdLimit : Nat
  replyLimit : Nat
  rdvLimit : Nat
  ckptK : Nat
  ckpt : Option Checkpoint
  /-- The cause of a strike not yet carried out (R385, R432). -/
  struck : Option (BitVec 8)
  rollback : Bool
  /-- The queues last bound and last served for this owner (R321, R322). -/
  lastQueue : Nat
  lastTake : Nat
  /-- A function-level reset is to be carried out (R439). -/
  flr : Bool
  /-- The monitor has marked the owner privileged (R335). -/
  privileged : Bool
  deriving DecidableEq, Repr

/-! ## The device -/

/-- Phases of a turn (R31). -/
inductive Phase | run | announce | drain | move | remap
  deriving DecidableEq, Repr

/-- A collective hart and the command it serves (R336, R337, R450): `waits` at rendezvous,
then `busy`. -/
structure Hart where
  fn : Nat
  obj : BitVec 15
  seq : BitVec 32
  waits : Bool
  busy : Bool
  waited : Nat
  /-- Bytes of dst that are written, and whether a peer that is switched out halts the
  command (R337). -/
  pos : Nat
  halted : Bool
  deriving DecidableEq, Repr

/-- The physical function's window: its page-request ring, its invalidation and its mint mailbox
(R329, R331, R332, R339). -/
structure PfWindow where
  prBase : BitVec 64
  prEn : Bool
  prTail : BitVec 16
  inval : Option (BitVec 2 × BitVec 39)
  invalNext : Option (BitVec 2 × BitVec 39)
  mintReq : Vector (BitVec 64) 8
  mintBusy : Bool
  /-- The mint mailbox's answer, which in recovery mode reports the failed image (R452). -/
  answer : BitVec 64
  deriving DecidableEq, Repr

/-- An attestation report (R341): the measurement registers, the configuration, the turn period,
the device identity, the nonce, the LMS index. -/
structure Report where
  measures : List (BitVec 384)
  config : Circuits
  period : Nat
  device : BitVec 384
  nonce : BitVec 384
  index : Nat
  deriving DecidableEq, Repr

/-- Service at an HBM channel (R327): tokens and atomics' tokens that owners have used in the
window, and the arbiter's counters. -/
structure Channel where
  used : List (Nat × Nat)
  atomics : List (Nat × Nat)
  ctr : List (Nat × Int)
  deriving DecidableEq, Repr

/-- What Bamind sets for an owner beside its frame counts: the object table (R79), the
second-stage root (R81), the limits of R394, R411 and R450, the plug-in's limits (R338), a floor
at a channel (R327), the privileged mark (R335); and the link's limit (R447). -/
inductive Setting
  | table (base count : Nat)
  | root (r : Nat)
  | watchdog (n : Nat)
  | reply (n : Nat)
  | rendezvous (n : Nat)
  | shares (lo hi : BitVec 8)
  | slices (lo hi : BitVec 64)
  | floor (channel tokens : Nat)
  | privileged (b : Bool)
  | link (n : Nat)
  deriving DecidableEq, Repr

/-- A column's heat purse: its pennies, its refill rate, and whether the monitor holds the
rate at 0 because the column is hot (R14, R326, R395). -/
structure Purse where
  pennies : Nat
  rate : Nat
  hot : Bool
  deriving DecidableEq, Repr

/-- A physical column: the slot that runs each core, failed slots, residue records of the
turn period (R13, R398, R403). -/
structure PhysCol where
  slots : List Nat
  failed : List Nat
  residues : List Nat
  log : List (BitVec 64 × BitVec 64)
  deriving DecidableEq, Repr

/-- A hardware error that the environment has in store for the next packet of the core in
turn (R397, R398). -/
inductive HwError
  /-- In the scalar unit, a lane or the array (R398). -/
  | residue
  /-- In a general register (R396, R397). -/
  | register (k : BitVec 6)
  | stored (st : StoreKind) (off : Nat) (e : CellError)
  /-- In a word of a hardware deque or of the store buffer (R397). -/
  | queued (e : CellError)
  /-- The parity check of entry k of its object-table cache, or else of its translation cache, fails
  (R418). -/
  | cached (obj : Bool) (k : Nat)
  deriving DecidableEq, Repr

/-- The operands of an event row: which core, message, queue or unit it concerns, and what
the environment has chosen. -/
inductive EvArg
  | none
  | illegal (mj : BitVec 6) (sub : BitVec 8) (reg : BitVec 6)
  | rule (sub : BitVec 8) (word : BitVec 2)
  | core (c : CoreId)
  | coreIdx (c : CoreId) (i : Nat)
  | msg (k : Nat)
  | col (l : ColId)
  | region (r : RegionId)
  | num (n : Nat)
  | hot (col : Nat) (b : Bool)
  /-- A stripe that a turn carries fails its check, or has arrived over the mesh (R400, R401). -/
  | stripe (x : Stripe) (ok : Bool)
  | read (c : CoreId) (o : ReadOutcome)
  | scrub (addr : Nat) (e : CellError)
  | burst (x : Burst) (tries : Nat) (lane : Option (BitVec 5)) (ok : Bool)
  | stored (c : CoreId) (st : StoreKind) (off : Nat) (e : CellError)
  | queued (c : CoreId) (e : CellError)
  | fq (f q : Nat)
  | launch (f q : Nat) (sseq : BitVec 16) (core : BitVec 12) (handler : BitVec 10)
      (dom : BitVec 2) (args : List (BitVec 64))
  | move (f q : Nat) (sseq : BitVec 16) (host : BitVec 64) (obj : BitVec 24) (lm : BitVec 7)
      (off len : BitVec 64)
  | sem (f q : Nat) (sseq : BitVec 16) (sem : BitVec 8) (v : BitVec 64)
  | wait (f q : Nat) (sseq : BitVec 16) (sem : BitVec 8) (eq : Bool) (v : BitVec 64)
  | arm (f q : Nat) (sseq : BitVec 16) (tm : BitVec 6) (sem : BitVec 8) (time per v : BitVec 64)
  | packet (f q : Nat) (sseq : BitVec 16)
  | status (f q : Nat) (sseq : BitVec 16) (st : BitVec 4) (detail : BitVec 64)
  | notify (f q : Nat) (v : BitVec 64)
  | reg (f off : Nat) (v : BitVec 64)
  | tag (f : Nat) (tag : BitVec 32)
  | granule (f : Nat) (g : BitVec 39)
  | create (f : Nat) (req : MintCreate)
  | aliased (f : Nat) (src obj : BitVec 15) (circ : Bool) (lm : Nat) (creg : BitVec 4)
  | interval (f : Nat) (k : BitVec 17)
  | cxl (f : Nat) (off v : BitVec 64)
  | hart (h f : Nat) (obj : BitVec 15) (peers : List (List Byte)) (result : BitVec 8)
  | link (width speed : Nat)
  | lanes (port bad : Nat)
  /-- A flit passes its CRC at a port, or fails it (R448). -/
  | flit (port : Nat) (ok : Bool)
  /-- The scheduler calls a function's plug-in on a firmware core (R338). -/
  | call (f core : Nat)
  /-- The monitor writes a protection region of a firmware core (R338). -/
  | protect (core k : Nat) (v : BitVec 64)
  /-- What a called plug-in has done: its level-0 accesses as address, bytes, and whether it
  writes, and what it returns (R338). -/
  | plugin (f core : Nat) (share : BitVec 8) (slice : BitVec 64) (accs : List (Nat × Nat × Bool))
  /-- A plug-in's image, and the protection regions of its firmware core (R338, R340). -/
  | image (f : Nat) (img : Image) (core : Nat) (regions : List (BitVec 64))
  | boot (b : BootChoice)
  | nonce (n : BitVec 384) (counted : Bool)
  | newRegion (r : RegionId) (pos head : Nat) (mcs : List Nat)
  | fabric (x : FabricReq)
  /-- Another module's answer to the k-th request of this one: the bytes it read. -/
  | home (k : Nat) (bytes : List Byte)
  /-- Another module's fault at the walk of the k-th request of this one (R414, R415). -/
  | homeFault (k : Nat) (cls sub : BitVec 8) (value : BitVec 48)
  /-- The home module's answer to the walk of a core's packet (R415). -/
  | homeWalk (c : CoreId) (a : HomeAns)
  | split (port : Nat) (parts : List (Option Nat))
  /-- Whether the paths beyond this module's ports reach a home. -/
  | path (home : BitVec 9) (b : Bool)
  | setting (f : Nat) (x : Setting)
  /-- A pre-emption request (R48, R50): the context to stop, and the one to come in its place. -/
  | switch (out : RegionId) (next : Option RegionId)
  | regRead (f off : Nat)
  | division (c : CoreId) (rd : BitVec 6)
  | frames (f guar burst : Nat)
  | rate (col rate : Nat)
  /-- The hashes of an operator's ECDSA and LMS keys (R340). -/
  | key (ecdsa lms : BitVec 384)
  deriving DecidableEq, Repr

/-- The machine. `me` is the core whose turn it is to issue in this cc, `others` the rest
in their order of turn (model's own arrangement). -/
structure State where
  me : Core
  others : List Core
  regions : List Region
  net : List Msg
  fns : List Fn
  /-- Device-wide counters (R172). -/
  cyc : BitVec 64
  devtime : BitVec 64
  /-- Turn period, phase, first cc of the pause, stamp (R30, R31, R36). -/
  period : Nat
  phase : Phase
  pauseAt : Nat
  /-- cc that the move still takes (R31, R400, R401). -/
  moveFor : Nat
  /-- cc by which retries make a column's stream longer; failed sends of a stripe over its lane
  and over the mesh (R400, R401). -/
  moveExtra : List (Nat × Nat)
  moveTries : List (Stripe × Nat × Nat)
  /-- Pre-emption requests that wait, in the order made, and switches whose outgoing context has
  stopped: it, and the context to come (R50). -/
  switches : List (RegionId × Option RegionId)
  switching : List (RegionId × RegionId)
  stamp : BitVec 2
  turnDue : Bool
  config : Circuits
  purses : List Purse
  cols : List PhysCol
  stripes : List Stripe
  failing : List Nat
  fenced : List Nat
  hbm : Memory
  /-- Frames of HBM written in this cc, for the checkpoints (R435); model's own. -/
  written : List Nat
  host : Memory
  hostOut : List (BitVec 64)
  /-- The array log and the transfer log of each stack base die: rings of 256 records (R422). -/
  arrayLog : List (List (BitVec 64 × BitVec 64))
  xferLog : List (List (BitVec 64 × BitVec 64))
  /-- Codewords of 32 bytes of the stacks that hold an error: number, and the bit of a single-bit
  error or none (R419). -/
  flaws : List (Nat × Option (BitVec 8))
  pfLog : List (BitVec 64 × BitVec 64)
  spares : List (Nat × Nat)
  /-- Floors of owners at HBM channels: channel, owner, tokens (R327). -/
  floors : List (Nat × Nat × Nat)
  chans : List (Nat × Channel)
  /-- Mapper slots: the bound queues; arbiter counters of binding and of taking (R312). -/
  slots : List (Nat × Nat)
  bindCtr : List (Nat × Int)
  takeCtr : List (Nat × Int)
  takeWait : Nat
  wheelTick : Nat
  harts : List Hart
  fabricId : BitVec 9
  ports : List (List Lane)
  /-- Times that the flit in hand of each port has failed its CRC (R448). -/
  resends : List Nat
  /-- Homes that no path beyond this module's ports reaches (R449). -/
  cut : List (BitVec 9)
  homeOut : List HomeReq
  /-- The functions of the page requests that wait for an entry, in the order in which the requests
  came (R410). -/
  reqOrder : List Nat
  fabricIn : List FabricReq
  /-- Answers to other modules, oldest first. -/
  fabricOut : List (BitVec 9 × FabricVal)
  linkUp : Bool
  linkWidth : Nat
  linkSpeed : Nat
  linkDownFor : Nat
  linkLimit : Nat
  measures : List (BitVec 384)
  lms : Nat
  /-- Fuses: hashes of the two public keys (R340); the device's identity (R341). -/
  fuses : BitVec 384 × BitVec 384
  identity : BitVec 384
  operatorKey : Option (BitVec 384 × BitVec 384)
  /-- Answers to report requests: a report, or an error (R341, R453). -/
  reports : List (Option Report)
  regionRegs : List (BitVec 64)
  recovery : Bool
  pf : PfWindow
  /-- Frames asked back: frame, tag, whether its entry is in the ring (R417). -/
  reclaims : List (Nat × BitVec 32 × Bool)
  /-- Ranges of HBM frames and the span of 2^20 cc in which a walk last set their accessed
  bits (R417). -/
  frameUse : List (Nat × Nat × Nat)
  hwErrors : List HwError
  /-- Events due before the next packet issues (model's own). -/
  agenda : List (Instr × EvArg)
  /-- The operands of the event that is due (model's own). -/
  ev : EvArg
  /-- Whether a cc's end schedules the engines' own steps (model's own). -/
  auto : Bool
  /-- Counter of free values drawn (model's own). -/
  draws : Nat
  deriving DecidableEq, Repr

/-! ## Reset -/

/-- CSRs of a context that first becomes resident (R172, R173, R369). -/
def Csrs.reset (mem : Bool) : Csrs where
  turnh := 0
  bankext := 32
  vshape := 0x3FF
  frm := 0x80
  fflags := 0
  srseed := 0
  srcnt := 0
  mgamma := 0x3F800000
  gmask := 0
  lpbeg := 0
  lpend := 0
  lpcnt := 0
  tlpcnt := 0
  ocmp := 0
  evec := if mem then 0x2A else 0x6A
  epc := 0
  ecause := 0
  level := 0
  plev := 0
  einfo := 0
  escr0 := 0
  escr1 := 0

/-- No packet in hand. -/
def Issue.idle : Issue where
  word := 0
  fst := 0
  nxt := 0
  hw := []
  gran := none
  hrm := none
  status := .ready
  taken := false
  commit := false
  keep := false

/-- A core on the first slice of its context: register space and scratch read zero (R49),
CSRs at their reset values (R173), no task. -/
def Core.fresh (id : CoreId) : Core where
  id := id
  firm := false
  g := Vector.replicate 64 0
  p := Vector.replicate 8 false
  x := Vector.replicate 32 0
  xpres := Vector.replicate 32 false
  w := Vector.replicate 32 0
  c := Vector.replicate 16 ⟨0, false⟩
  q := Vector.replicate 8 0
  v := Vector.replicate 48 0
  t := Vector.replicate 64 0
  csr := Csrs.reset (decide (0x800 ≤ id.num))
  vmem := []
  scr := []
  fe := []
  touched := []
  dirty := []
  fetched := []
  qimg := []
  pc := 0
  pend := []
  vbusy := 0
  rearmed := false
  bubble := 0
  blk := false
  blkAt := 0
  blkLeft := 0
  blkBack := (false, 0, 0)
  issue := Issue.idle
  done := false
  seq := 0
  sb := []
  unacked := []
  outs := []
  score := []
  bulks := []
  copyAt := 0
  hbmAcc := []
  hbmWr := []
  waitList := []
  spill := []
  latch := false
  gang := none
  atBarrier := none
  onLatch := false
  onTask := false
  rowsOut := []
  granted := false
  product := none
  slice := none
  waited := 0
  trapDue := none
  deferred := []
  refs := []
  hiDeque := []
  loDeque := []
  hiSpill := []
  loSpill := []
  running := none
  stealPtr := []
  sweep := 0
  awaiting := false
  compo := .plain
  binding := none
  stopped := false
  walks := []
  ckpt := none
  ahead := none
  needs := []
  answered := []
  asked := []
  objCache := []
  tlb := []
  homeHeld := none
  homeAns := none
  homeMissed := false
  farRows := []
  waitBack := (0, [], [], false)

/-- The name of the model's idle core before any region exists: owner 64 is no owner
(R26). -/
def nobody : CoreId := ⟨64, 0, 0⟩

/-- A queue after reset (R313). -/
def Queue.reset : Queue where
  dw0 := 0
  dw1 := 0
  cons := 0
  csq := 0
  sseq := 0
  head := 0
  ctail := 0
  prod := 0
  announced := false
  bound := false
  idle := 0
  rereads := 0
  rereadAt := 0
  taken := []
  comps := []
  killing := false
  killAsked := false

/-- A timer after reset: disarmed. -/
def Timer.reset : Timer where
  armed := false
  time := 0
  period := none
  sem := 0
  v := 0
  miss := 0

/-- A virtual function after reset (R312, R313, R316, R331, R83, R394, R411, R450). -/
def Fn.reset : Fn where
  enabled := true
  share := 16
  plugin := ⟨false, false, 0, (1, 255), (0, 0xFFFFFFFFFFFFFFFF), none, false⟩
  queues := List.replicate 32 Queue.reset
  sems := List.replicate 256 0
  timers := List.replicate 64 Timer.reset
  prBase := 0
  prEn := false
  prTail := 0
  reqs := []
  reqQueue := []
  nextTag := 0
  inval := none
  invalNext := none
  mintReq := Vector.replicate 8 0
  mintAns := 0
  mintBusy := false
  window := none
  objBase := 0
  objCount := 0
  ssRoot := 0
  guar := 0
  burst := 0
  frames := []
  wdLimit := 2 ^ 26
  replyLimit := 2 ^ 30
  rdvLimit := 2 ^ 30
  ckptK := 0
  ckpt := none
  struck := none
  rollback := false
  lastQueue := 0
  lastTake := 0
  flr := false
  privileged := false

/-- A firmware core before any code has been started on it (R175, R338;
notes/assumptions/69.md). -/
def Core.firmware (k : Nat) : Core := { Core.fresh ⟨64, 0, k + 1⟩ with firm := true, stopped := true, running := some 0 }

/-- The machine right after reset: no region, every counter at its reset value (R172),
every purse full (R326), the default turn period (R30). -/
def State.reset : State where
  me := Core.fresh nobody
  others := (List.range 4).map Core.firmware
  regions := []
  net := []
  fns := List.replicate 64 Fn.reset
  cyc := 0
  devtime := 0
  period := 2 ^ 28
  phase := .run
  pauseAt := 0
  moveFor := 0
  moveExtra := []
  moveTries := []
  switches := []
  switching := []
  stamp := 0
  turnDue := false
  config := .whole
  purses := List.replicate 200 ⟨2 ^ 20, 0, false⟩
  cols := List.replicate 200 ⟨[0, 1, 2, 3, 4, 5, 6, 7], [], [], []⟩
  stripes := []
  failing := []
  fenced := []
  hbm := []
  written := []
  host := []
  hostOut := []
  arrayLog := List.replicate 12 []
  xferLog := List.replicate 12 []
  flaws := []
  pfLog := []
  spares := []
  floors := []
  chans := []
  slots := []
  bindCtr := []
  takeCtr := []
  takeWait := 0
  wheelTick := 0
  harts := List.replicate 4 ⟨0, 0, 0, false, false, 0, 0, false⟩
  fabricId := 0
  ports := List.replicate 48 (List.replicate 4 ⟨true, none⟩)
  resends := List.replicate 48 0
  cut := []
  homeOut := []
  reqOrder := []
  fabricIn := []
  fabricOut := []
  linkUp := true
  linkWidth := 16
  linkSpeed := 128
  linkDownFor := 0
  linkLimit := 2 ^ 34
  measures := []
  lms := 0
  fuses := (0, 0)
  identity := 0
  operatorKey := none
  reports := []
  regionRegs := List.replicate 64 0
  recovery := false
  pf := ⟨0, false, 0, none, none, Vector.replicate 8 0, false, 0⟩
  reclaims := []
  frameUse := []
  hwErrors := []
  agenda := []
  ev := .none
  auto := true
  draws := 0

end Sys2Proof.Machine
end

