-- ==== Sys2Proof/Machine/Ops.lean ====
section
/-! DEFINITION. The named operations over memory, registers, CSRs and cores that the
meanings share; the landing of writes (06_encoding.md R135), capture and trap entry
(02_execution_model.md R51, 07_scalar_control.md R177, 21_faults_instructions.md R363,
R370), the return from one (R178), and the frame in which a word issues (R134, R363). -/

namespace Sys2Proof.Machine

open Sys2Proof

/-- What exec and step answer. -/
abbrev Res? := Host.Outcome State Fault Refusal

/-! ## Bytes and byte memories (R4) -/

/-- The value of bytes, the least significant first (R4). -/
def bytesNat : List Byte → Nat
  | [] => 0
  | b :: bs => b.toNat + 256 * bytesNat bs

/-- The `n` bytes of a number, the least significant first (R4). -/
def natBytes : Nat → Nat → List Byte
  | 0, _ => []
  | n + 1, v => BitVec.ofNat 8 v :: natBytes n (v / 256)

/-- The byte at an address. -/
def Memory.get (m : Memory) (a : Nat) : Byte :=
  match m with
  | [] => Memory.unlisted
  | (x, b) :: m => if x = a then b else Memory.get m a

/-- A byte written at an address, in canonical form. -/
def Memory.put : Memory → Nat → Byte → Memory
  | [], a, b => if b = Memory.unlisted then [] else [(a, b)]
  | (x, y) :: m, a, b =>
      if a < x then (if b = Memory.unlisted then (x, y) :: m else (a, b) :: (x, y) :: m)
      else if a = x then (if b = Memory.unlisted then m else (a, b) :: m)
      else (x, y) :: Memory.put m a b

/-- `n` bytes from an address upward. -/
def Memory.bytes (m : Memory) (a : Nat) : Nat → List Byte
  | 0 => []
  | n + 1 => m.get a :: Memory.bytes m (a + 1) n

/-- Bytes written from an address upward. -/
def Memory.putBytes (m : Memory) (a : Nat) : List Byte → Memory
  | [] => m
  | b :: bs => Memory.putBytes (m.put a b) (a + 1) bs

/-- The unsigned value of `n` bytes. -/
def Memory.nat (m : Memory) (a n : Nat) : Nat := bytesNat (m.bytes a n)

/-- Replace entry k of a list. -/
def setAt {α : Type} (l : List α) (k : Nat) (a : α) : List α :=
  match l, k with
  | [], _ => []
  | _ :: xs, 0 => a :: xs
  | x :: xs, k + 1 => x :: setAt xs k a

/-- Change entry k of a list. -/
def modAt {α : Type} (l : List α) (k : Nat) (f : α → α) : List α :=
  match l, k with
  | [], _ => []
  | x :: xs, 0 => f x :: xs
  | x :: xs, k + 1 => x :: modAt xs k f

/-- Drop entry k of a list. -/
def dropAt {α : Type} (l : List α) (k : Nat) : List α := l.take k ++ l.drop (k + 1)

/-- Whether [a, a + n) and [b, b + m) share a byte. -/
def overlap (a n b m : Nat) : Bool := decide (a < b + m) && decide (b < a + n)

/-! ## Kinds and sizes -/

/-- Whether a core is a memory core (R29). -/
def Core.isMem (c : Core) : Bool := decide (0x800 ≤ c.id.num)

/-- Bytes of scratch (R65). -/
def Core.scrSize (c : Core) : Nat := if c.isMem then 0x40000 else 0x80000

/-- End of the open area of scratch (R65). -/
def openEnd (num : Nat) : Nat := if 0x800 ≤ num then 0x2B000 else 0x6B000

/-- End of the view area of register space (R58). -/
def viewEnd (num : Nat) : Nat := if 0x800 ≤ num then 0xA000 else 0x1A000

/-- Bytes of register space (R58). -/
def regSize (num : Nat) : Nat := if 0x800 ≤ num then 0x10000 else 0x20000

/-- The composition size of a leader, 1 in plain mode (R230). -/
def Core.compN (c : Core) : Nat :=
  match c.compo with
  | .leader n _ _ _ => n
  | _ => 1

/-- Whether a core runs composed (R53). -/
def Core.composed (c : Core) : Bool := decide (c.compN ≠ 1)

/-- Whether every latency is interlocked: at level 1 and in composed mode (R178, R53). -/
def Core.interlocked (c : Core) : Bool := c.csr.level != 0 || c.composed

/-! ## Registers (R59, R160) -/

/-- General register n; `g0` reads zero (R160). -/
def Core.gr (c : Core) (n : BitVec 6) : BitVec 64 :=
  if n = 0 then 0 else c.g[n.toNat]'n.isLt

/-- Write general register n; a write to `g0` is discarded (R160). -/
def Core.setG (c : Core) (n : BitVec 6) (v : BitVec 64) : Core :=
  if n = 0 then c else { c with g := c.g.set n.toNat v n.isLt }

/-- Predicate n; `p0` reads 1 (R160). -/
def Core.pr (c : Core) (n : BitVec 3) : Bool :=
  if n = 0 then true else c.p[n.toNat]'n.isLt

/-- Write predicate n; a write to `p0` is discarded (R160). -/
def Core.setP (c : Core) (n : BitVec 3) (v : Bool) : Core :=
  if n = 0 then c else { c with p := c.p.set n.toNat v n.isLt }

/-- Inbox register n (R74). -/
def Core.xr (c : Core) (n : BitVec 5) : BitVec 64 := c.x[n.toNat]'n.isLt
/-- Presence of inbox register n (R74). -/
def Core.xp (c : Core) (n : BitVec 5) : Bool := c.xpres[n.toNat]'n.isLt
/-- Write an inbox register's value. -/
def Core.setX (c : Core) (n : BitVec 5) (v : BitVec 64) : Core :=
  { c with x := c.x.set n.toNat v n.isLt }
/-- Set or clear presence. -/
def Core.setXp (c : Core) (n : BitVec 5) (v : Bool) : Core :=
  { c with xpres := c.xpres.set n.toNat v n.isLt }

/-- Arrival cell n (R72). -/
def Core.cell (c : Core) (n : BitVec 5) : BitVec 32 := c.w[n.toNat]'n.isLt
/-- Write an arrival cell. -/
def Core.setCell (c : Core) (n : BitVec 5) (v : BitVec 32) : Core :=
  { c with w := c.w.set n.toNat v n.isLt }

/-- Capability register n (R77). -/
def Core.cap (c : Core) (n : BitVec 4) : Cap := c.c[n.toNat]'n.isLt
/-- Write a capability register. -/
def Core.setCap (c : Core) (n : BitVec 4) (v : Cap) : Core :=
  { c with c := c.c.set n.toNat v n.isLt }

/-- Ring handle n (R69). -/
def Core.ring (c : Core) (n : BitVec 3) : BitVec 256 := c.q[n.toNat]'n.isLt
/-- Write a ring handle. -/
def Core.setRing (c : Core) (n : BitVec 3) (v : BitVec 256) : Core :=
  { c with q := c.q.set n.toNat v n.isLt }

/-- Tensor-identifier entry n (R256). -/
def Core.tid (c : Core) (n : BitVec 6) : BitVec 512 := c.t[n.toNat]'n.isLt
/-- Write a tensor-identifier entry. -/
def Core.setTid (c : Core) (n : BitVec 6) (v : BitVec 512) : Core :=
  { c with t := c.t.set n.toNat v n.isLt }

/-- View-table entry: `v`0 to 31, `m` 32 to 39, `a` 40 to 47 (R59). -/
def Core.view (c : Core) (n : Nat) : BitVec 128 := c.v.toList.getD n 0
/-- Write a view-table entry. -/
def Core.setView (c : Core) (n : Nat) (v : BitVec 128) : Core :=
  { c with v := c.v.setIfInBounds n v }

/-! ## The cores of the machine -/

/-- Every core. -/
def State.cores (s : State) : List Core := s.me :: s.others

/-- The core of a name. -/
def State.core? (s : State) (id : CoreId) : Option Core := s.cores.find? (·.id == id)

/-- Change the core of a name. -/
def State.updCore (s : State) (id : CoreId) (f : Core → Core) : State :=
  if s.me.id = id then { s with me := f s.me }
  else { s with others := s.others.map fun c => if c.id = id then f c else c }

/-- Change the core in turn. -/
def State.onMe (s : State) (f : Core → Core) : State := { s with me := f s.me }

/-- Put the core of a name in turn and the present one in its place. -/
def State.swap (s : State) (id : CoreId) : State :=
  match s.others.find? (·.id == id) with
  | none => s
  | some c => { s with me := c, others := s.others.map fun d => if d.id = id then s.me else d }

/-- Run an operation of the core in turn for the core of a name, if there is one. -/
def State.onCore (s : State) (id : CoreId) (f : State → State) : State :=
  if s.me.id = id then f s
  else match s.others.find? (·.id == id) with
    | none => s
    | some _ => (f (s.swap id)).swap s.me.id

/-- A region. -/
def State.region? (s : State) (o k : Nat) : Option Region :=
  s.regions.find? fun r => r.id.owner = o ∧ r.id.circ = k

/-- The region of the core in turn. -/
def State.myRegion? (s : State) : Option Region := s.region? s.me.id.owner s.me.id.circ

/-- What veils a bank byte: free values at and above the extents of past turns (R37). A bank
stores its bytes under this veil, so that undefined bytes are free values until they are
written (notes/assumptions/20.md). -/
def Region.veilByte (r : Region) (l a : Nat) : Byte :=
  r.veil.foldl (fun x (e, n) => if e ≤ a then x ^^^ Config.freeByte n l a else x) 0

/-- Bytes from an offset upward, put under the veil or taken from under it. -/
def Region.veiled (r : Region) (l a : Nat) : List Byte → List Byte
  | [] => []
  | b :: bs => (b ^^^ r.veilByte l a) :: Region.veiled r l (a + 1) bs

/-- Bytes of the bank of a logical column (R75). -/
def Region.bankBytes (r : Region) (l a n : Nat) : List Byte := r.veiled l a ((r.banks.getD l []).bytes a n)

/-- Bytes written to the bank of a logical column (R75). -/
def Region.bankPut (r : Region) (l a : Nat) (bs : List Byte) : Region :=
  let reach := fun (t : List (Nat × Nat)) => (List.range ((a + bs.length + 0xFFFF) / 0x10000 - a / 0x10000)).foldl
    (fun t i => if t.contains (l, a / 0x10000 + i) then t else t ++ [(l, a / 0x10000 + i)]) t
  { r with
    banks := modAt r.banks l fun m => m.putBytes a (r.veiled l a bs)
    bankTouched := reach r.bankTouched, bankDirty := reach r.bankDirty }

/-- Change a region. -/
def State.updRegion (s : State) (o k : Nat) (f : Region → Region) : State :=
  { s with regions := s.regions.map fun r => if r.id.owner = o ∧ r.id.circ = k then f r else r }

/-- A function. -/
def State.fn (s : State) (f : Nat) : Fn := s.fns.getD f Fn.reset

/-- Change a function. -/
def State.updFn (s : State) (f : Nat) (g : Fn → Fn) : State := { s with fns := modAt s.fns f g }

/-- Positions of the region of a core, 0 without a region. -/
def State.posOf (s : State) (id : CoreId) : Nat :=
  ((s.region? id.owner id.circ).map (·.pos)).getD 0

/-- Memory cores of the region of a core. -/
def State.mcsOf (s : State) (id : CoreId) : Nat :=
  ((s.region? id.owner id.circ).map (·.mcs.length)).getD 0

/-- Whether a number names a core of the region (R29). -/
def State.names (s : State) (id : CoreId) (n : Nat) : Bool :=
  decide (n < 32 * s.posOf id) || (decide (0x800 ≤ n) && decide (n < 0x800 + s.mcsOf id))

/-- Whether a destination lies in the position of a core; a memory core has none but
itself (R186, R299). -/
def near (id : CoreId) (d : Place) : Bool :=
  match d with
  | .core n => n == id.num || (decide (id.num < 0x800) && decide (n < 0x800) && n / 32 == id.num / 32)
  | .bank l => decide (id.num < 0x800) && l / 4 == id.num / 32
  | .home _ => false

/-! ## Writes of scratch, view area and banks (R359) -/

/-- The stripes of 64 KiB that n bytes from an offset reach, added to those reached before. -/
def reach (l : List Nat) (a n : Nat) : List Nat :=
  (List.range ((a + n + 0xFFFF) / 0x10000 - a / 0x10000)).foldl
    (fun l i => if l.contains (a / 0x10000 + i) then l else l ++ [a / 0x10000 + i]) l

/-- Bytes written to a core's scratch. -/
def Core.writeScr (c : Core) (a : Nat) (bs : List Byte) : Core :=
  { c with scr := c.scr.putBytes a bs, touched := reach c.touched a bs.length, dirty := reach c.dirty a bs.length }

/-- Bytes written to a core's view area: those at 0x1_0000 and above lie in the stripe of the state
area, which a context holds from its first residency (R359). -/
def Core.writeView (c : Core) (a : Nat) (bs : List Byte) : Core :=
  let low := fun (l : List Nat) => if l.contains 8 || decide (0x10000 ≤ a) || bs.isEmpty then l else l ++ [8]
  { c with vmem := c.vmem.putBytes a bs, touched := low c.touched, dirty := low c.dirty }

/-! ## Scratch, plain and composed (R65, R228) -/

/-- The member core and the offset in its scratch of a composed offset (R65). -/
def Core.scrAt (c : Core) (a : Nat) : CoreId × Nat :=
  let n := c.compN
  ({ c.id with num := c.id.num + (a / 128) % n }, (a / 128 / n) * 128 + a % 128)

/-- A byte of the scratch that the core in turn sees. -/
def State.scrByte (s : State) (a : Nat) : Byte :=
  if s.me.composed then
    let (id, o) := s.me.scrAt a
    (s.me.rowsOut.reverse.findSome? fun (x, bs) => if x ≤ a then bs[a - x]? else none).getD
      (match s.core? id with
       | some c => c.scr.get o
       | none => 0)
  else s.me.scr.get a

/-- Bytes of the scratch that the core in turn sees. -/
def State.scrBytes (s : State) (a : Nat) : Nat → List Byte
  | 0 => []
  | n + 1 => s.scrByte a :: State.scrBytes s (a + 1) n

/-- Write bytes of the scratch that the core in turn sees. -/
def State.scrPut (s : State) (a : Nat) (bs : List Byte) : State :=
  if s.me.composed then
    match bs with
    | [] => s
    | b :: bs =>
      let (id, o) := s.me.scrAt a
      State.scrPut (s.updCore id fun c => c.writeScr o [b]) (a + 1) bs
  else s.onMe fun c => c.writeScr a bs

/-- A byte as the core's own loads see it: the youngest buffered store that covers it and
has landed, otherwise scratch (R134, R186). -/
def State.ownByte (s : State) (a : Nat) : Byte :=
  let hit := s.me.sb.reverse.findSome? fun e =>
    if e.fresh then none else match e.kind with
    | .scr o bs => if o ≤ a ∧ a < o + bs.length then bs[a - o]? else none
    | .stfe o v => if o ≤ a ∧ a < o + 8 then some (v.extractLsb' (8 * (a - o)) 8) else none
    | _ => none
  hit.getD (s.scrByte a)

/-- Bytes as the core's own loads see them (R186). -/
def State.ownBytes (s : State) (a : Nat) : Nat → List Byte
  | 0 => []
  | n + 1 => s.ownByte a :: State.ownBytes s (a + 1) n

/-- An unsigned value as the core's own loads see it. -/
def State.ownNat (s : State) (a n : Nat) : Nat := bytesNat (s.ownBytes a n)

/-! ## CSRs (R170 to R174) -/

/-- A CSR's value for the core in turn (R172). -/
def State.csr (s : State) (k : Csr) : BitVec 64 :=
  let c := s.me.csr
  match k with
  | .cyc => s.cyc
  | .ocyc => (s.myRegion?.map (·.ocyc)).getD 0
  | .turnno => (s.myRegion?.map (·.turnno)).getD 0
  | .devtime => s.devtime
  | .lcid => BitVec.ofNat 64 s.me.id.num
  | .rgsize =>
      match s.myRegion? with
      | some r => BitVec.ofNat 64 (r.id.circ % 2 * 65536 + r.mcs.length % 256 * 256 + r.pos % 64)
      | none => 0
  | .turnh => c.turnh.setWidth 64
  | .bankext => c.bankext.setWidth 64
  | .vshape => c.vshape.setWidth 64
  | .frm => c.frm.setWidth 64
  | .fflags => c.fflags.setWidth 64
  | .srseed => c.srseed.setWidth 64
  | .srcnt => c.srcnt.setWidth 64
  | .mgamma => c.mgamma.setWidth 64
  | .gmask => if s.me.isMem then c.gmask else 0
  | .lpbeg => c.lpbeg.setWidth 64
  | .lpend => c.lpend.setWidth 64
  | .lpcnt => c.lpcnt.setWidth 64
  | .tlpcnt => c.tlpcnt.setWidth 64
  | .ocmp => c.ocmp
  | .evec => (c.evec ++ (0 : BitVec 12)).setWidth 64
  | .epc => (c.epc ++ (0 : BitVec 2)).setWidth 64
  | .ecause => (c.ecause &&& 0x0FFF00FF).setWidth 64
  | .estat => (c.level ++ (0 : BitVec 6) ++ c.plev).setWidth 64
  | .einfo => c.einfo
  | .escr0 => c.escr0
  | .escr1 => c.escr1

/-- Write a CSR: read-only and reserved fields keep their values; a bank extent above 32
is stored as 32 (R170, R172). -/
def Core.setCsr (c : Core) (k : Csr) (v : BitVec 64) : Core :=
  let r := c.csr
  match k with
  | .cyc | .ocyc | .turnno | .devtime | .lcid | .rgsize => c
  | .turnh => { c with csr := { r with turnh := v.setWidth 11 } }
  | .bankext => { c with csr := { r with bankext := if 32 < (v.setWidth 6).toNat then 32 else v.setWidth 6 } }
  | .vshape => { c with csr := { r with vshape := v.setWidth 10 } }
  | .frm => { c with csr := { r with frm := v.setWidth 8 &&& 0x87 } }
  | .fflags => { c with csr := { r with fflags := v.setWidth 5 } }
  | .srseed => { c with csr := { r with srseed := v.setWidth 32 } }
  | .srcnt => { c with csr := { r with srcnt := v.setWidth 32 } }
  | .mgamma => { c with csr := { r with mgamma := v.setWidth 32 } }
  | .gmask => if c.isMem then { c with csr := { r with gmask := v } } else c
  | .lpbeg => { c with csr := { r with lpbeg := v.setWidth 19 } }
  | .lpend => { c with csr := { r with lpend := v.setWidth 19 } }
  | .lpcnt => { c with csr := { r with lpcnt := v.setWidth 32 } }
  | .tlpcnt => { c with csr := { r with tlpcnt := v.setWidth 32 } }
  | .ocmp => { c with csr := { r with ocmp := v } }
  | .evec => { c with csr := { r with evec := v.extractLsb' 12 7 } }
  | .epc => { c with csr := { r with epc := v.extractLsb' 2 17 } }
  | .ecause => { c with csr := { r with ecause := v.setWidth 32 &&& 0x0FFF00FF } }
  | .estat => { c with csr := { r with plev := v.setWidth 2 } }
  | .einfo => { c with csr := { r with einfo := v } }
  | .escr0 => { c with csr := { r with escr0 := v } }
  | .escr1 => { c with csr := { r with escr1 := v } }

/-- What a core holds of a CSR, for `csrs` and `csrc` in their landing cc (R170). -/
def Core.heldCsr (c : Core) (k : Csr) : BitVec 64 :=
  let r := c.csr
  match k with
  | .cyc | .ocyc | .turnno | .devtime | .lcid | .rgsize => 0
  | .turnh => r.turnh.setWidth 64
  | .bankext => r.bankext.setWidth 64
  | .vshape => r.vshape.setWidth 64
  | .frm => r.frm.setWidth 64
  | .fflags => r.fflags.setWidth 64
  | .srseed => r.srseed.setWidth 64
  | .srcnt => r.srcnt.setWidth 64
  | .mgamma => r.mgamma.setWidth 64
  | .gmask => if c.isMem then r.gmask else 0
  | .lpbeg => r.lpbeg.setWidth 64
  | .lpend => r.lpend.setWidth 64
  | .lpcnt => r.lpcnt.setWidth 64
  | .tlpcnt => r.tlpcnt.setWidth 64
  | .ocmp => r.ocmp
  | .evec => (r.evec ++ (0 : BitVec 12)).setWidth 64
  | .epc => (r.epc ++ (0 : BitVec 2)).setWidth 64
  | .ecause => (r.ecause &&& 0x0FFF00FF).setWidth 64
  | .estat => (r.level ++ (0 : BitVec 6) ++ r.plev).setWidth 64
  | .einfo => r.einfo
  | .escr0 => r.escr0
  | .escr1 => r.escr1

/-- A CSR only level 1 may read or write (R170). -/
def Csr.level1 : Csr → Bool
  | .tlpcnt | .epc | .ecause | .einfo | .escr0 | .escr1 => true
  | _ => false

/-! ## The state area of register space (R58 to R60, R171) -/

/-- Byte i of a value. -/
def byteOf {n : Nat} (v : BitVec n) (i : Nat) : Byte := v.extractLsb' (8 * i) 8

/-- A value with its byte i replaced. -/
def withByte {n : Nat} (v : BitVec n) (i : Nat) (b : Byte) : BitVec n :=
  (v &&& ~~~((0xFF#n) <<< (8 * i))) ||| (b.setWidth n <<< (8 * i))

/-- The fields of a tensor descriptor, and the bits of a byte of the queue image, that are not
reserved: an entry may hold the others, which read as zero (R5, R158, R256, R258). -/
def tidFields : BitVec 512 := 2 ^ 512 - 1 - (2 ^ 32 - 1) * 2 ^ 160 - (2 ^ 44 - 1) * 2 ^ 20 - 0xCEE0
def entryBits (q : Nat) : Byte :=
  if 0x3C00 ≤ q then 0xFF
  else match q % 320 with
    | 0x103 => 0x3F
    | 0x104 => 0
    | 0x105 => 0xF0
    | 0x106 => 0xF8
    | 0x107 => 0x80
    | _ => 0xFF

/-- A byte of the state area at offset r from its start (R59). -/
def State.areaByte (s : State) (r : Nat) : Byte :=
  let c := s.me
  if r < 0x200 then byteOf (c.gr (BitVec.ofNat 6 (r / 8))) (r % 8)
  else if r < 0x208 then (if c.pr (BitVec.ofNat 3 (r - 0x200)) then 1 else 0)
  else if r < 0x240 then 0
  else if r < 0x340 then byteOf (c.xr (BitVec.ofNat 5 ((r - 0x240) / 8))) (r % 8)
  else if r < 0x344 then
    BitVec.ofNat 8 (((List.range 8).map fun i =>
      if c.xp (BitVec.ofNat 5 (8 * (r - 0x340) + i)) then 2 ^ i else 0).sum)
  else if r < 0x380 then 0
  else if r < 0x400 then byteOf (c.cell (BitVec.ofNat 5 ((r - 0x380) / 4))) (r % 4)
  else if r < 0x600 then
    let k := c.cap (BitVec.ofNat 4 ((r - 0x400) / 32))
    if r % 32 < 16 then byteOf k.bits (r % 32)
    else if r % 32 = 16 then (if k.tag then 1 else 0) else 0
  else if r < 0x700 then byteOf (c.ring (BitVec.ofNat 3 ((r - 0x600) / 32))) (r % 32)
  else if r < 0xA00 then byteOf (c.view ((r - 0x700) / 16)) (r % 16)
  else if r < 0x1000 then
    match Csr.ofCode (BitVec.ofNat 12 ((r - 0xA00) / 8)) with
    | some k => byteOf (s.csr k) (r % 8)
    | none => 0
  else if r < 0x2000 then byteOf (c.tid (BitVec.ofNat 6 ((r - 0x1000) / 64)) &&& tidFields) (r % 64)
  else c.qimg.get (r - 0x2000) &&& entryBits (r - 0x2000)

/-- The fields of a ring handle, of a view-table entry and of a capability that are not
reserved (R61, R69, R77): reserved ones read as zero (R5). -/
def ringFields : BitVec 256 := 2 ^ 128 - 1 - 7 * 2 ^ 111 - (2 ^ 38 - 1) * 2 ^ 19
def viewFields : BitVec 128 :=
  2 ^ 77 - 1 - 0xFF * 2 ^ 64 - 0x7FF * 2 ^ 48 - 0x7FFF * 2 ^ 17
def capFields : BitVec 128 := 2 ^ 128 - 1 - 3 * 2 ^ 30

/-- The bits of a byte of the queue image that are kept: reserved bytes and the reserved
bits of the queue control word read as zero (R5, R158). Descriptors keep theirs, which
`tret` checks. -/
def queueBits (q : Nat) : Byte :=
  if q < 0x3C00 then (if q % 320 < 0x108 then 0xFF else 0) else if q = 0x3FF8 then 0x1F else 0

/-- Store a byte of the state area (R60): a byte of a capability slot clears its tag. -/
def Core.putArea (c : Core) (r : Nat) (b : Byte) : Core :=
  if r < 0x200 then
    let n := BitVec.ofNat 6 (r / 8)
    c.setG n (withByte (c.gr n) (r % 8) b)
  else if r < 0x208 then c.setP (BitVec.ofNat 3 (r - 0x200)) (b.getLsbD 0)
  else if r < 0x240 then c
  else if r < 0x340 then
    let n := BitVec.ofNat 5 ((r - 0x240) / 8)
    c.setX n (withByte (c.xr n) (r % 8) b)
  else if r < 0x344 then
    (List.range 8).foldl (fun c i => c.setXp (BitVec.ofNat 5 (8 * (r - 0x340) + i)) (b.getLsbD i)) c
  else if r < 0x380 then c
  else if r < 0x400 then
    let n := BitVec.ofNat 5 ((r - 0x380) / 4)
    c.setCell n (withByte (c.cell n) (r % 4) b)
  else if r < 0x600 then
    let n := BitVec.ofNat 4 ((r - 0x400) / 32)
    c.setCap n
      ⟨if r % 32 < 16 then withByte (c.cap n).bits (r % 32) b &&& capFields else (c.cap n).bits, false⟩
  else if r < 0x700 then
    let n := BitVec.ofNat 3 ((r - 0x600) / 32)
    c.setRing n (withByte (c.ring n) (r % 32) b &&& ringFields)
  else if r < 0xA00 then
    let n := (r - 0x700) / 16
    c.setView n (withByte (c.view n) (r % 16) b &&& viewFields)
  else if r < 0x1000 then
    match Csr.ofCode (BitVec.ofNat 12 ((r - 0xA00) / 8)) with
    | some k => c.setCsr k (withByte (c.heldCsr k) (r % 8) b)
    | none => c
  else if r < 0x2000 then
    let n := BitVec.ofNat 6 ((r - 0x1000) / 64)
    c.setTid n (withByte (c.tid n) (r % 64) b)
  else { c with qimg := c.qimg.put (r - 0x2000) (b &&& queueBits (r - 0x2000)) }

/-- A byte of register space (R58). -/
def State.regByte (s : State) (a : Nat) : Byte :=
  if a < viewEnd s.me.id.num then s.me.vmem.get a else s.areaByte (a - viewEnd s.me.id.num)

/-- Bytes of register space. -/
def State.regBytes (s : State) (a : Nat) : Nat → List Byte
  | 0 => []
  | n + 1 => s.regByte a :: State.regBytes s (a + 1) n

/-- Store bytes to register space (R58, R60). -/
def Core.putRegs (c : Core) (a : Nat) : List Byte → Core
  | [] => c
  | b :: bs =>
    Core.putRegs
      (if a < viewEnd c.id.num then c.writeView a [b]
       else c.putArea (a - viewEnd c.id.num) b) (a + 1) bs

/-! ## Full/empty bits (R67) -/

/-- A line's bit set to full. -/
def feFull : List Nat → Nat → List Nat
  | [], l => [l]
  | x :: xs, l => if l < x then l :: x :: xs else if l = x then x :: xs else x :: feFull xs l

/-- `n` lines from `l` upward set to `full`. -/
def feLines (fe : List Nat) (l : Nat) (full : Bool) : Nat → List Nat
  | 0 => fe
  | n + 1 => feLines (if full then feFull fe l else fe.filter (· != l)) (l + 1) full n

/-! ## Ring handles (R69, R70, R204) -/

/-- Slots of a ring, as a power of two (R69). -/
def ringLcount (h : BitVec 256) : Nat := (h.extractLsb' 62 4).toNat
/-- Bytes of a slot, as a power of two (R69). -/
def ringLsize (h : BitVec 256) : Nat := (h.extractLsb' 57 5).toNat
/-- Offset of slot 0 (R69). -/
def ringBase (h : BitVec 256) : Nat := (h.extractLsb' 0 19).toNat
/-- Next slot to pop (R69). -/
def ringHead (h : BitVec 256) : BitVec 10 := h.extractLsb' 66 10
/-- Next slot to fill (R69). -/
def ringTail (h : BitVec 256) : BitVec 10 := h.extractLsb' 76 10
/-- Slots holding data (R69). -/
def ringFill (h : BitVec 256) : BitVec 11 := h.extractLsb' 86 11
/-- Slots the producer may fill (R69). -/
def ringFree (h : BitVec 256) : BitVec 11 := h.extractLsb' 97 11
/-- The peer's handle (R69). -/
def ringPq (h : BitVec 256) : BitVec 3 := h.extractLsb' 108 3
/-- The role: 0 local, 1 home end, 2 producer end (R69). -/
def ringRole (h : BitVec 256) : Nat := (h.extractLsb' 114 2).toNat
/-- The peer's core number (R69). -/
def ringPeer (h : BitVec 256) : Nat := (h.extractLsb' 116 12).toNat

/-- Replace `n` bits from bit `lo`. -/
def putBits {w n : Nat} (h : BitVec w) (lo : Nat) (v : BitVec n) : BitVec w :=
  (h &&& ~~~((BitVec.allOnes n).setWidth w <<< lo)) ||| (v.setWidth w <<< lo)

/-- A handle with other head, tail, fill and free. -/
def ringWith (h : BitVec 256) (head tail : BitVec 10) (fill free : BitVec 11) : BitVec 256 :=
  putBits (putBits (putBits (putBits h 66 head) 76 tail) 86 fill) 97 free

/-- A pointer moved by c slots, modulo the slot count (R204). -/
def ringMove (h : BitVec 256) (p : BitVec 10) (c : Nat) : BitVec 10 :=
  BitVec.ofNat 10 ((p.toNat + c) % 2 ^ ringLcount h)

/-- A handle after a pop of c slots (R70, R204). -/
def ringPop (h : BitVec 256) (c : Nat) : BitVec 256 :=
  ringWith h (ringMove h (ringHead h) c) (ringTail h) (ringFill h - BitVec.ofNat 11 c) (ringFree h)

/-- A handle after c slots are filled (R70, R204): with role 00 fill rises. -/
def ringPush (h : BitVec 256) (c : Nat) : BitVec 256 :=
  ringWith h (ringHead h) (ringMove h (ringTail h) c)
    (if ringRole h = 0 then ringFill h + BitVec.ofNat 11 c else ringFill h) (ringFree h - BitVec.ofNat 11 c)

/-! ## Landing (R135, R174, R202) -/

/-- Whether a write lands after the others of its cc: subtractions from cells (R202), and
flags (R174). -/
def Write.late : Write → Nat
  | .cellSub _ _ => 1
  | .flags _ => 2
  | .portFlags _ => 2
  | _ => 0

/-- A handle after a push port takes a slot (R70). -/
def ringTake (h : BitVec 256) : BitVec 256 :=
  ringWith h (ringHead h) (ringMove h (ringTail h) 1) (ringFill h) (ringFree h - 1)

/-- A handle after a push port's rows are written, with role 00 (R70). -/
def ringFilled (h : BitVec 256) : BitVec 256 :=
  ringWith h (ringHead h) (ringTail h) (ringFill h + 1) (ringFree h)

/-- Bytes laid over those of a buffered store that landed in an earlier cc (R250). -/
def SbEntry.overlay (e : SbEntry) (o : Nat) (bs : List Byte) : SbEntry :=
  if e.fresh then e
  else match e.kind with
    | .scr a cs =>
      { e with kind := .scr a ((List.range cs.length).map fun i =>
          if o ≤ a + i ∧ a + i < o + bs.length then bs.getD (a + i - o) 0 else cs.getD i 0) }
    | _ => e

/-- The result of an access lands in a general register: in the shadow, and in the state
kept at b when the access stands before b (R406, R412). -/
def Core.landG (c : Core) (rd : BitVec 6) (v : BitVec 64) (seq : Nat) : Core :=
  let c := c.setG rd v
  match c.ckpt with
  | some k => if seq < k.seq ∧ rd ≠ 0 then { c with ckpt := some { k with g := k.g.set rd.toNat v rd.isLt } } else c
  | none => c

/-- The result of a local `ldfe` lands, in the order of the words of its packet (R135, R157). -/
def Core.landLine (c : Core) (rd : BitVec 6) : Core :=
  let hit := fun (o : Outst) => o.kind == .lineLoad && o.rd == rd
  match c.outs.find? hit with
  | none => c
  | some o => { c.landG rd o.v o.seq with outs := c.outs.filter fun o => !hit o }

/-- A write takes effect. -/
def Core.apply (c : Core) : Write → Core
  | .g n v => c.setG n v
  | .p n v => c.setP n v
  | .t n v => c.setTid n v
  | .row o bs _ => c.writeView o bs
  | .scr o bs =>
    let d := if c.composed then { c with rowsOut := c.rowsOut ++ [(o, bs)] } else c.writeScr o bs
    { d with sb := c.sb.map (·.overlay o bs) }
  | .lineLoad rd => c.landLine rd
  | .flags v | .portFlags v => { c with csr := { c.csr with fflags := c.csr.fflags ||| v } }
  | .csrSet k v => c.setCsr k v
  | .csrOr k v => c.setCsr k (c.heldCsr k ||| v)
  | .csrClr k v => c.setCsr k (c.heldCsr k &&& ~~~v)
  | .srAdv v => { c with csr := { c.csr with srcnt := v } }
  | .view n v => c.setView n v
  | .ring q v => c.setRing q v
  | .ringPop q n => c.setRing q (ringPop (c.ring q) n)
  | .ringPush q n => c.setRing q (ringPush (c.ring q) n)
  | .ringTake q => c.setRing q (ringTake (c.ring q))
  | .ringFilled q => c.setRing q (ringFilled (c.ring q))
  | .cellSet k v => c.setCell k v
  | .cellAdd k v => c.setCell k (c.cell k + v)
  | .cellSub k v => { c.setCell k (c.cell k - v) with latch := true }
  | .xclr k => c.setXp k false
  | .cap n v => c.setCap n v
  | .fe l n full => { c with fe := feLines c.fe l full n }
  | .regs o bs => c.putRegs o bs

/-- The flags that land with a row (R94). -/
def Write.rowFlags : Write → BitVec 5
  | .row _ _ f => f
  | _ => 0

/-- What another party changes in a core's registers, lines and latch: in the shadow, and in
the state kept at b (R406, R412). -/
def Core.both (f : Core → Core) (c : Core) : Core :=
  let d := f c
  match c.ckpt with
  | none => d
  | some k =>
    let e := f { c with x := k.x, xpres := k.xpres, w := k.w, q := k.q, c := k.c, fe := k.fe, latch := k.latch }
    { d with ckpt := some { k with
        x := e.x, xpres := e.xpres, w := e.w, q := e.q, c := e.c, fe := e.fe, latch := e.latch } }

/-- A core with the registers, lines and latch that stand at b, which is what other parties meet
(R406, R412). -/
def Core.arch (c : Core) : Core :=
  match c.ckpt with
  | none => c
  | some k =>
    { c with x := k.x, xpres := k.xpres, w := k.w, q := k.q, c := k.c, fe := k.fe, latch := k.latch }

/-- Bytes counted on cells, in the shadow and in the state kept at b (R72, R288, R406). -/
def Core.countAll (c : Core) (ws : List Write) : Core :=
  (ws.filter fun w => match w with | .cellSub _ _ => true | _ => false).foldl (fun c w => c.both (·.apply w)) c

/-- Writes take effect in the order of their words (R135), subtractions after the other
writes (R202), flags last (R174). -/
def Core.applyAll (c : Core) (ws : List Write) : Core :=
  let c := (ws.filter (·.late = 0)).foldl Core.apply c
  let c := c.countAll ws
  let f := ws.foldl (fun f w => f ||| w.rowFlags) 0
  let c := (ws.filter (·.late = 2)).foldl Core.apply c
  { c with csr := { c.csr with fflags := c.csr.fflags ||| f } }

/-- A handle as the next word of the packet sees it: with the pops and pushes of earlier
words (R205), but not an image that `rinit` writes (R134). -/
def Core.ringNow (c : Core) (q : BitVec 3) : BitVec 256 :=
  c.pend.foldl (fun h p => match p.w with
    | .ringPop k n => if k = q then ringPop h n else h
    | .ringPush k n => if k = q then ringPush h n else h
    | .ringTake k => if k = q then ringTake h else h
    | _ => h) (c.ring q)

/-- Whether a result is computed by the core itself and held until it is due: a division
(R164), a local `ldfe` (R157). -/
def Outst.timed (o : Outst) : Bool := o.kind == .division || o.kind == .lineLoad

/-- One cc passes for the divisions in flight: one that reaches its bound lands (R164). The
result of a local `ldfe` lands among the writes of its packet. -/
def Core.tickDivs (c : Core) : Core :=
  let now := fun (o : Outst) => o.kind == .division && decide (o.due ≤ 1)
  { (c.outs.filter now).foldl (fun c o => c.landG o.rd o.v o.seq) c with
    outs := (c.outs.filter fun o => !now o).map fun o => { o with due := o.due - 1 } }

/-- Whether a write is a row in scratch. -/
def Write.isRow : Write → Bool
  | .scr _ _ => true
  | _ => false

/-- Whether a write is not the core's own register, view or CSR result: bytes counted on a
cell (R72), and rows in scratch (R250). It stands in no state kept at b and is not
replayed. -/
def Write.outward : Write → Bool
  | .cellSub _ _ | .scr _ _ => true
  | _ => false

/-- Whether every beat of a command has been delivered; a LOAD or STORE ends by its own event. -/
def Bulk.spent (b : Bulk) : Bool := b.started && b.beats.isEmpty && b.packet.isNone

/-- Commands whose last beat is counted retire: their places and scoreboard entries are free
(R68, R211). -/
def Core.retire (c : Core) : Core :=
  let gone := (c.bulks.filter Bulk.spent).map (·.id)
  if gone.isEmpty then c
  else { c with bulks := c.bulks.filter fun b => !b.spent, score := c.score.filter fun e => !gone.contains e.cmd }

/-- One cc passes: writes due land, counts fall (R135, R156, R136). Writes that replay stand
still until the first packet issues (R51). -/
def Core.tick (c : Core) : Core :=
  let c := c.tickDivs.retire
  let moves := fun (p : Pend) => !c.rearmed || p.w.outward
  let due := (c.pend.filter fun p => moves p && decide (p.d ≤ 1)).map (·.w)
  let landed := (due.filter Write.isRow).length
  let rest := (c.pend.filter fun p => !(moves p && decide (p.d ≤ 1))).map fun p =>
    if moves p then { p with d := p.d - 1 } else p
  let t := ({ c with pend := rest }).applyAll due
  { t with
    vbusy := if c.rearmed then c.vbusy else c.vbusy - 1, bubble := c.bubble - 1, done := false,
    sb := t.sb.map fun e => { e with fresh := false, behind := e.behind - landed } }

/-- A write due `d` cc after issue. -/
def Core.later (c : Core) (w : Write) (d : Nat) : Core := { c with pend := c.pend ++ [⟨w, d⟩] }

/-- The core in turn owes a write due `d` cc after issue. -/
def State.later (s : State) (w : Write) (d : Nat) : State := s.onMe fun c => c.later w d

/-- Of the rows in scratch that land before what the buffer holds (R250, R300), n have landed. -/
def Core.rowsLanded (c : Core) (n : Nat) : Core := { c with sb := c.sb.map fun e => { e with behind := e.behind - n } }

/-- The pending rows in scratch. -/
def Core.rowsOwed (c : Core) : Nat := (c.pend.filter fun p => p.w.isRow).length

/-- Every pending write takes effect (R54, R178: composed cores and handlers leave none). -/
def Core.landAll (c : Core) : Core := { (c.applyAll (c.pend.map (·.w))).rowsLanded c.rowsOwed with pend := [] }

/-! ## The pending-write queue image (R158, R159) -/

/-- Whether a pending write is captured (R51); the others are written before capture. -/
def Write.captured : Write → Bool
  | .g _ _ | .p _ _ | .t _ _ | .row _ _ _ | .flags _ => true
  | _ => false

/-- The descriptor and value of a queue entry (R158). -/
def queueEntry (p : Pend) : BitVec 64 × List Byte :=
  let d := p.d % 32 * 2 ^ 51 + 2 ^ 63
  match p.w with
  | .g n v => (BitVec.ofNat 64 (d + n.toNat), natBytes 8 v.toNat)
  | .p n v => (BitVec.ofNat 64 (d + 1 * 2 ^ 44 + n.toNat), [if v then 1 else 0])
  | .t n v => (BitVec.ofNat 64 (d + 2 * 2 ^ 44 + n.toNat), natBytes 64 v.toNat)
  | .row o bs f =>
      (BitVec.ofNat 64 (d + 3 * 2 ^ 44 + f.toNat * 2 ^ 25 + (bs.length - 1) * 2 ^ 17 + o), bs)
  | .flags v => (BitVec.ofNat 64 (d + 4 * 2 ^ 44), [v.setWidth 8])
  | _ => (0, [])

/-- Insert by rising d, keeping the order of equal ones (R159). -/
def insertPend (p : Pend) : List Pend → List Pend
  | [] => [p]
  | x :: xs => if p.d < x.d then p :: x :: xs else x :: insertPend p xs

/-- The queue image of captured writes and a V-pipe count (R158, R159). -/
def queueImage (ps : List Pend) (vbusy : Nat) : Memory :=
  let es := ps.foldl (fun l p => insertPend p l) []
  let m := (es.zip (List.range 48)).foldl (init := ([] : Memory)) fun m (p, k) =>
    let (d, bs) := queueEntry p
    Memory.putBytes (Memory.putBytes m (320 * k) bs) (320 * k + 0x100) (natBytes 8 d.toNat)
  Memory.putBytes m 0x3FF8 (natBytes 8 vbusy)

/-- Entry k of a queue image: descriptor and value. -/
def imageEntry (m : Memory) (k : Nat) : BitVec 64 × Nat :=
  (BitVec.ofNat 64 (m.nat (320 * k + 0x100) 8), 320 * k)

/-- The write of a valid queue entry that meets the checks of R158. -/
def entryWrite (num : Nat) (m : Memory) (d : BitVec 64) (at_ : Nat) : Option Write :=
  let kind := (d.extractLsb' 44 4).toNat
  let fl := d.extractLsb' 25 5
  let dest := (d.extractLsb' 0 25).toNat
  let res := d.extractLsb' 56 7 == 0 && d.extractLsb' 48 3 == 0 && d.extractLsb' 30 14 == 0
  if d.extractLsb' 51 5 = 0 ∨ res = false ∨ (kind ≠ 3 ∧ fl ≠ 0) then none
  else match kind with
    | 0 => if dest < 64 then some (.g (BitVec.ofNat 6 dest) (BitVec.ofNat 64 (m.nat at_ 8))) else none
    | 1 => if dest < 8 then some (.p (BitVec.ofNat 3 dest) ((m.get at_).getLsbD 0)) else none
    | 2 => if dest < 64 then some (.t (BitVec.ofNat 6 dest) (BitVec.ofNat 512 (m.nat at_ 64))) else none
    | 3 =>
      let off := dest % 2 ^ 17
      let n := dest / 2 ^ 17 + 1
      if off + n ≤ viewEnd num then some (.row off (m.bytes at_ n) fl) else none
    | 4 => if dest = 0 then some (.flags ((m.get at_).setWidth 5)) else none
    | _ => none

/-- The valid entries of a queue image as writes due at b' + d, or none when an entry
fails a check of R158. -/
def imageWrites (num : Nat) (m : Memory) : List Nat → Option (List Pend)
  | [] => some []
  | k :: ks =>
    let (d, a) := imageEntry m k
    if d.getLsbD 63 then
      match entryWrite num m d a, imageWrites num m ks with
      | some w, some ps => some (⟨w, (d.extractLsb' 51 5).toNat⟩ :: ps)
      | _, _ => none
    else imageWrites num m ks

/-- Every valid bit of a queue image cleared (R178). -/
def clearValid (m : Memory) : Memory :=
  (List.range 48).foldl (init := m) fun m k =>
    m.put (320 * k + 0x107) (m.get (320 * k + 0x107) &&& 0x7F)

/-! ## Capture and entry (R51, R177, R363, R370) -/

/-- Timed results in flight are written before capture (R161). -/
def Core.finishDivs (c : Core) : Core :=
  { (c.outs.filter (·.timed)).foldl (fun c o => c.landG o.rd o.v o.seq) c with
    outs := c.outs.filter fun o => !o.timed }

/-- Capture at the boundary that lies `early` cc ahead (R51): writes due by then, and
those that no entry holds, are made; the rest go to the queue image with the V-pipe
count. Composed cores hold none (R54); above level 0 the image stays the interrupted
task's (R178). -/
def Core.capture (c : Core) (early : Nat) : Core :=
  let c := c.finishDivs
  if c.interlocked then
    { c.landAll with
      vbusy := 0, rearmed := false
      qimg := if c.csr.level = 0 then queueImage [] 0 else c.qimg }
  else
    let keep := c.pend.filter fun p => p.w.captured && decide (early < p.d)
    let now := c.pend.filter fun p => !(p.w.captured && decide (early < p.d))
    let c' := (c.applyAll (now.map (·.w))).rowsLanded c.rowsOwed
    { c' with
      pend := []
      vbusy := 0
      rearmed := false
      qimg := queueImage (keep.map fun p => { p with d := p.d - early }) (c.vbusy - early) }

/-- The vector of a class (R177). -/
def Core.vector (c : Core) (cls : BitVec 8) : Nat := c.csr.evec.toNat * 4096 + 64 * cls.toNat

/-- The registers of an entry from the packet at pc (R177). -/
def Core.enter (c : Core) (cls : BitVec 8) (code : BitVec 12) (info : BitVec 64) : Core :=
  { c with
    csr := { c.csr with
      epc := BitVec.ofNat 17 (c.pc / 4)
      ecause := (0 : BitVec 4) ++ code ++ (0 : BitVec 8) ++ cls
      einfo := info
      plev := c.csr.level
      level := c.csr.level + 1
      tlpcnt := c.csr.lpcnt
      lpcnt := 0 }
    pc := c.vector cls
    blk := c.composed
    blkLeft := 0
    blkBack := (c.blk, c.blkAt, c.blkLeft)
    latch := !c.onLatch
    onLatch := false
    onTask := false
    waited := 0
    homeHeld := none
    homeAns := none
    refs := []
    needs := []
    answered := []
    homeMissed := false
    waitBack :=
      if c.csr.level ≠ 0 then c.waitBack
      else if cls = 0x31 then (0, [], [], false)
      else (c.pc, c.needs, c.answered, c.homeMissed) }

/-- `einfo` of an exception (R368). -/
def Exc.info (e : Exc) (word : BitVec 2) : BitVec 64 := e.value ++ e.sub ++ e.reg ++ word

/-- The code of `ecause` (R367, R387): the major opcode for the classes of a word. -/
def Exc.code (e : Exc) : BitVec 12 :=
  if (decide (0x12 ≤ e.cls.toNat) && decide (e.cls.toNat ≤ 0x1C)) ||
     (decide (0x20 ≤ e.cls.toNat) && decide (e.cls.toNat ≤ 0x23)) ||
     e.cls = 0x30 || e.cls = 0x31
  then e.mj ++ (0 : BitVec 6) else 0

/-- Whether an exception reports the word's index (R368, R386). -/
def Exc.word (e : Exc) (w : BitVec 2) : BitVec 2 :=
  if e.cls = 0x10 ∨ e.cls = 0x1D ∨ e.cls = 0x1E ∨ e.cls = 0x24 then 0 else w

/-- An exception of the packet at pc (R363): at level 0, capture and entry at the boundary
in front of the packet; at level 1 the core stops with the registers written (R370). -/
def Core.raise (c : Core) (e : Exc) : Core :=
  let info := e.info (e.word c.issue.word)
  if c.csr.level = 0 then
    let c := (c.capture 0).enter e.cls e.code info
    { c with issue := { c.issue with status := .trapped, taken := true } }
  else
    let c := c.finishDivs.landAll
    { c with
      csr := { c.csr with
        epc := BitVec.ofNat 17 (c.pc / 4)
        ecause := (0 : BitVec 4) ++ e.code ++ (0 : BitVec 8) ++ e.cls
        einfo := info }
      stopped := true
      issue := { c.issue with status := .trapped, taken := true } }

/-- The packet of the core in turn does not issue in this cc. -/
def State.stall (s : State) (st : Status) : State :=
  s.onMe fun c => { c with issue := { c.issue with status := st } }

/-! ## Moving past a packet (R133, R136, R169) -/

/-- The pc after a packet without a taken branch, with the loop's return, which starts a block
(R152, R169). -/
def Core.advance (c : Core) : Core :=
  let c := { c with blkLeft := c.blkLeft - 1 }
  if c.csr.lpcnt ≠ 0 ∧ c.issue.nxt % 2 ^ 19 = c.csr.lpend.toNat then
    if 1 < c.csr.lpcnt.toNat then
      { c with csr := { c.csr with lpcnt := c.csr.lpcnt - 1 }, pc := c.csr.lpbeg.toNat,
               blk := c.composed, blkLeft := if c.composed then 0 else c.blkLeft }
    else { c with csr := { c.csr with lpcnt := 0 }, pc := c.issue.nxt }
  else { c with pc := c.issue.nxt }

/-- A taken branch: the target issues 2 cc after the branch (R136), and starts a block in a
composed core (R152). -/
def Core.jump (c : Core) (target : Nat) : Core :=
  { c with pc := target, bubble := 2, blk := c.composed, blkLeft := 0, issue := { c.issue with taken := true } }

/-- Whether an issued access that leaves the core has not written its result (R190). -/
def Core.owesRemote (c : Core) : Bool :=
  c.outs.any fun o => o.kind == .load || o.kind == .atomic || o.kind == .hbm || o.kind == .successor

/-- `trap` and `svc` (R176, R177): the packet issues and the entry is made at the boundary
of the next cc, or at the first one at which the remote accesses of the packet have written
their results (R190). -/
def Core.trapTo (c : Core) (cls : BitVec 8) (code : BitVec 12) : Core :=
  let c := c.advance
  let c := if c.owesRemote then { c with trapDue := some (cls, code) } else (c.capture 1).enter cls code 0
  { c with issue := { c.issue with taken := true } }

/-- The entry of a `trap` or `svc` that has waited (R176, R190). -/
def Core.trapNow (c : Core) : Core :=
  match c.trapDue with
  | none => c
  | some (cls, code) => (({ c with trapDue := none }).capture 0).enter cls code 0

/-- Writes that replay, and the V pipe's count, from b' on, which is the cc in which the next
packet issues (R51, R178). -/
def Core.replay (c : Core) (ps : List Pend) (vb : Nat) : Core :=
  { c with pend := c.pend ++ ps, vbusy := vb, rearmed := !ps.isEmpty || decide (vb ≠ 0) }

/-- A packet that waited for replies when its core was entered waits for them again (R178, R412). -/
def Core.waitsAgain (c : Core) : Core :=
  let (pc, needs, answered, missed) := c.waitBack
  if c.csr.level = 0 ∧ c.pc = pc then
    { c with needs := needs, answered := answered, homeMissed := missed, waitBack := (0, [], [], false) }
  else c

/-- `tret` (R178): level, loop count and pc come back, and the queue entries `ps` replay
at b' + d; the packet at epc issues 2 cc after `tret`. Whether it starts a block is what the entry
found, whatever the handler has made of epc (notes/assumptions/88.md). -/
def Core.back (c : Core) (ps : List Pend) : Core :=
  let vb := c.qimg.nat 0x3FF8 8 % 32
  let c := c.landAll
  Core.waitsAgain { c.replay ps vb with
    csr := { c.csr with level := c.csr.plev, lpcnt := c.csr.tlpcnt }
    pc := c.csr.epc.toNat * 4
    bubble := 2
    blk := c.blkBack.1
    blkAt := c.blkBack.2.1
    blkLeft := c.blkBack.2.2
    qimg := clearValid c.qimg
    issue := { c.issue with taken := true } }

/-! ## Interlocks (R134, R157, R178, R261) -/

/-- Whether an outstanding result is owed to a general register (R164, R187, R192). -/
def Core.owes (c : Core) (n : BitVec 6) : Bool := n != 0 && c.outs.any fun o => o.rd == n

/-- Whether a word that touches `r` must wait for a result of the core: an interlocked
one always, any pending one at level 1 and in composed mode (R157, R178). -/
def Core.awaits (c : Core) (r : Res) : Bool :=
  match r with
  | .g n => c.owes n || (c.interlocked && n != 0 && c.pend.any fun p =>
      match p.w with | .g m _ => m == n | _ => false)
  | .p n => c.interlocked && c.pend.any fun p => match p.w with | .p m _ => m == n | _ => false
  | .t n => c.interlocked && c.pend.any fun p => match p.w with | .t m _ => m == n | _ => false
  | .area => c.interlocked && (!c.pend.isEmpty || !c.outs.isEmpty)
  | .c n => c.interlocked && c.pend.any fun p => match p.w with | .cap m _ => m == n | _ => false
  | .fflags => c.interlocked && c.pend.any fun p =>
      match p.w with | .row _ _ f => f != 0 | .flags _ | .portFlags _ => true | _ => false
  | .regs lo len =>
      (c.interlocked && c.pend.any fun p =>
        match p.w with | .row o bs _ => overlap lo len o bs.length | _ => false) ||
      (c.hbmAcc.any fun a => match a.op with
        | .loadRow ps o => overlap lo len o (ps.map (·.2)).sum
        | _ => false) ||
      c.farRows.any fun r => overlap lo len r.2.1 r.2.2
  | .scr lo len => c.interlocked && c.pend.any fun p =>
      match p.w with | .scr o bs => overlap lo len o bs.length | _ => false

/-- Whether [lo, lo + len) meets one of some ranges. -/
def meets (lo len : Nat) (rs : List (Nat × Nat)) : Bool := rs.any fun (o, n) => overlap lo len o n

/-- The product in the array, when its word has issued. -/
def Core.issuedProduct (c : Core) : Option CoreProduct := if c.granted then none else c.product

/-- Ranges that outstanding M commands read (R261). -/
def Core.heldReads (c : Core) : List (Nat × Nat) :=
  ((c.issuedProduct.map (·.reads)).getD []) ++ ((c.slice.map (·.reads)).getD [])
/-- Ranges that outstanding M commands write (R261). -/
def Core.heldWrites (c : Core) : List (Nat × Nat) :=
  ((c.issuedProduct.map (·.writes)).getD []) ++ ((c.slice.map (·.writes)).getD [])

/-- Whether a word reads bytes that an outstanding M command has yet to write: their
results are interlocked (R157, R261). -/
def Core.mOwed (c : Core) (src : List Res) : Bool :=
  src.any fun r => match r with | .regs lo n => meets lo n c.heldWrites | _ => false

/-- Whether outstanding M commands hold bytes that a word writes (R261). -/
def Core.mHeld (c : Core) (dst : List Res) : Bool :=
  (dst.any fun r => match r with
    | .regs lo n => meets lo n c.heldWrites || meets lo n c.heldReads
    | _ => false)

/-- Whether two resources share state. -/
def Res.meets (a b : Res) : Bool :=
  match a, b with
  | .g m, .g n => m == n
  | .p m, .p n => m == n
  | .t m, .t n => m == n
  | .c m, .c n => m == n
  | .fflags, .fflags => true
  | .area, .area => true
  | .regs a n, .regs b m => overlap a n b m
  | .scr a n, .scr b m => overlap a n b m
  | _, _ => false

/-- Whether a word reads an unresolved operand in run-ahead (R408). -/
def Core.unresolved (c : Core) (src : List Res) : Bool :=
  match c.ahead with
  | none => false
  | some a => src.any fun r => a.unres.any r.meets

/-- The results of a word become unresolved (R408). -/
def Core.poison (c : Core) (dst : List Res) : Core :=
  { c with ahead := c.ahead.map fun a => { a with unres := a.unres ++ dst } }

/-- The results of a word become resolved: it writes them from resolved operands (R408). -/
def Core.clean (c : Core) (dst : List Res) : Core :=
  { c with ahead := c.ahead.map fun a =>
      { a with unres := a.unres.filter fun u => !(dst.any fun d => d == u) } }

/-! ## Page requests and the roll-back to b (R408 to R412) -/

/-- Whether an entry is free for a function: one of its 4, or one of the pool of 1,024 below its cap
of 1,024 (R410). -/
def State.entryFree (s : State) (f : Nat) : Bool :=
  let n := (s.fn f).reqs.length
  decide (n < 4) || (decide (n < 1024) && decide ((s.fns.map fun g => g.reqs.length - 4).sum < 1024))

/-- Whether a queued request of another function stands before those of `f` for an entry of the pool
(R410). -/
def State.poolOwed (s : State) (f : Nat) : Bool :=
  (s.reqOrder.takeWhile (· != f)).any fun g => decide (4 ≤ (s.fn g).reqs.length) && decide ((s.fn g).reqs.length < 1024)

/-- A request takes a free entry; it is written once the ring is enabled and the link is up (R409,
R411, R447). -/
def State.enterRequest (s : State) (f gran : Nat) (rd wr : Bool) : State :=
  let fn := s.fn f
  let tag := fn.nextTag
  let now := fn.prEn && s.linkUp
  let q : PageReq := ⟨tag, gran, rd, wr, 0, now⟩
  let s := s.updFn f fun fn =>
    { fn with reqs := fn.reqs ++ [q], nextTag := tag + 1,
              prTail := if now then fn.prTail + 1 else fn.prTail }
  if now then
    let a := fn.prBase.toNat + 16 * (fn.prTail.toNat % 1024)
    let dw0 := gran * 2 ^ 13 + (if rd then 2 else 0) + (if wr then 4 else 0)
    { s with host := s.host.putBytes a (natBytes 8 dw0 ++ natBytes 8 tag.toNat) }
  else s

/-- A granule's request enters the front end: none when one is outstanding; queued, in the order of
requests, when no entry is free or earlier requests wait for one (R409, R410). -/
def State.request (s : State) (f gran : Nat) (rd wr : Bool) : State :=
  let fn := s.fn f
  if fn.reqs.any (·.gran == gran) || fn.reqQueue.any (·.1 == gran) then s
  else if s.entryFree f && fn.reqQueue.isEmpty && (decide (fn.reqs.length < 4) || !s.poolOwed f) then
    s.enterRequest f gran rd wr
  else { s.updFn f fun fn => { fn with reqQueue := fn.reqQueue ++ [(gran, rd, wr)] } with reqOrder := s.reqOrder ++ [f] }

/-- The state captured at b (R406); writes that other parties have queued at the core are not part
of it. -/
def Core.checkpointAt (c : Core) : Ckpt :=
  ⟨c.g, c.p, c.x, c.xpres, c.w, c.c, c.q, c.v, c.t, c.csr, c.vmem, c.fe, c.latch, c.pend.filter fun p => !p.w.outward,
    c.vbusy, c.pc, c.seq⟩

/-- The core runs ahead from b: the granules that the packet at b misses begin its batch (R408). -/
def Core.startAhead (c : Core) : Core := { c with ckpt := some c.checkpointAt, ahead := some ⟨0, c.needs, []⟩ }

/-- The core in turn goes back to the state captured at b (R412); destination elements
and `gmask` bits of elements that have performed are part of what it goes back to. -/
def Core.rollBack (c : Core) : Core :=
  match c.ckpt with
  | none => { c with ahead := none }
  | some k =>
    { c with
      g := k.g, p := k.p, v := k.v, t := k.t, c := k.c, csr := k.csr
      x := k.x, xpres := k.xpres, w := k.w, q := k.q, fe := k.fe, latch := k.latch
      vmem := k.vmem, pc := k.pc
      pend := k.pend ++ c.pend.filter (·.w.outward), vbusy := k.vbusy
      sb := c.sb.filter (·.seq < k.seq)
      outs := c.outs.filter (·.seq < k.seq)
      hbmAcc := c.hbmAcc.filter (·.seq < k.seq)
      farRows := c.farRows.filter (·.1 < k.seq)
      walks := c.walks.filter (· < k.seq)
      ckpt := none, ahead := none }

/-- Run-ahead ends (R408, R427): the batch is submitted in gathering order, and the core rolls back
to b; every walk begun has its granules in the batch. Loads of other modules' objects that it
sent from b on are forgotten (R406, R415). -/
def State.endAhead (s : State) : State :=
  match s.me.ahead with
  | none => s
  | some a =>
    let s := a.batch.foldl (fun s (g, r, w) => s.request s.me.id.owner g r w) s
    let from_ := (s.me.ckpt.map (·.seq)).getD 0
    { s.onMe fun c => { c.rollBack with
        asked := a.batch.map (·.1), answered := [], homeHeld := none, homeAns := none
        done := true, issue := { c.issue with status := .trapped } } with
      homeOut := s.homeOut.filter fun q => !(q.src == s.me.id && decide (from_ ≤ q.seq) && q.op.value) }

/-- An exception of the packet in hand: an entry waits until the core's issued remote and
HBM accesses have written their results (R190, R225); in run-ahead it ends the run (R408). -/
def State.raise (s : State) (e : Exc) : State :=
  if s.me.ahead.isSome then s.endAhead
  else if s.me.csr.level == 0 && !s.me.issue.commit && s.me.owesRemote then s.stall .waiting
  else s.onMe fun c => c.raise e

/-! ## The frame of a word (R134, R363, R364) -/

/-- A word that reads `src` and writes `dst`: it waits for interlocked operands, then its
checks are made, then it waits for its conditions, then it has its effect (R363). In
run-ahead a word with an unresolved operand only leaves its results unresolved (R408). -/
def actNow (src dst : List Res) (chk : Option Exc) (wait : Bool) (eff : State) (s : State) : Res? :=
  if !s.me.issue.commit && (src.any s.me.awaits || dst.any s.me.awaits || s.me.mOwed src) then
    .next (s.stall .operand)
  else if s.me.unresolved src then .next (s.onMe fun c => c.poison dst)
  else match chk with
    | some e => .next (s.raise e)
    | none =>
      if wait then .next (s.stall .waiting)
      else .next (eff.onMe fun c => c.clean dst)

/-- A word whose conditions do not depend on the other words of its packet: they are those
of the state before the packet (R134). -/
def act (src dst : List Res) (chk : Option Exc) (wait : Bool) (eff : State) (s : State) : Res? :=
  actNow src dst chk (!s.me.issue.commit && (wait || s.me.mHeld dst)) eff s

/-- A word whose effect leaves the core: in run-ahead the effect is suppressed and the
results stay unresolved (R408); otherwise as any word. -/
def actOut (src dst : List Res) (chk : Option Exc) (wait : Bool) (eff : State) (s : State) : Res? :=
  if s.me.ahead.isSome then
    if !s.me.issue.commit && (src.any s.me.awaits || dst.any s.me.awaits) then .next (s.stall .operand)
    else if s.me.unresolved src then .next (s.onMe fun c => c.poison dst)
    else match chk with
      | some e => .next (s.raise e)
      | none => .next (s.onMe fun c => c.poison dst)
  else act src dst chk wait eff s

/-- A word that changes state which other parties also change (cells, presence, line bits,
ring handles, the latch): in run-ahead it changes the shadow only, by the effect `dry`, and
waits for nothing (R406, R408; notes/assumptions/31.md). -/
def actShared (src dst : List Res) (chk : Option Exc) (wait : Bool) (eff dry : State) (s : State) : Res? :=
  if s.me.ahead.isSome then act src dst chk false dry s else act src dst chk wait eff s

/-- The first of some checks that fails (R364). -/
def firstOf : List (Option Exc) → Option Exc
  | [] => none
  | some e :: _ => some e
  | none :: l => firstOf l

/-- A check: the exception when `bad`. -/
def check (bad : Bool) (e : Exc) : Option Exc := if bad then some e else none

/-! ## The store buffer and messages (R186 to R188, R304) -/

/-- Whether the store buffer is full (R186). -/
def Core.sbFull (c : Core) : Bool := decide (32 ≤ c.sb.length)

/-- An entry enters the store buffer in program order (R186); in run-ahead it is
suppressed (R408). -/
def Core.buffer (c : Core) (k : SbKind) (rel : Bool) : Core :=
  if c.ahead.isSome then c
  else { c with
    sb := c.sb ++ [⟨k, rel, c.seq, true, c.rowsOwed⟩], seq := c.seq + 1 }

/-- cc for which the core's packet has been held for a module that no path reaches (R449). -/
def Core.heldFor (c : Core) : Nat := (c.homeHeld.map (·.2)).getD 0

/-- Whether a working path of an owner reaches another module: over a lane of the owner's own
partition, when it has one, and over lanes that are not split off otherwise (R335, R449). -/
def State.reaches (s : State) (owner : Nat) (home : BitVec 9) : Bool :=
  let lanes := s.ports.flatten
  let part := if lanes.any (·.part == some owner) then some owner else none
  !s.cut.contains home && lanes.any fun l => l.up && l.part == part

/-- The k-th request to another module, when none before it goes to that module and a path
reaches it (R304, R334, R449). -/
def State.homeReq? (s : State) (k : Nat) : Option HomeReq :=
  match s.homeOut[k]? with
  | none => none
  | some q => if ((s.homeOut.take k).any (·.home == q.home)) || !s.reaches q.src.owner q.home then none else some q

/-- A message enters the network, resolved under the present turn stamp (R36); the
termination tree counts the injection (R46). -/
def State.send (s : State) (src : CoreId) (dst : Place) (op : RemoteOp) (seq : Nat) : State :=
  { s.updRegion src.owner src.circ fun r => { r with inj := r.inj + 1 } with
    net := s.net ++ [⟨src, dst, op, seq, s.stamp⟩] }

/-- The k-th message in flight, when no earlier one goes from its sender to its
destination (R304). -/
def State.msg? (s : State) (k : Nat) : Option Msg :=
  match s.net[k]? with
  | none => none
  | some m => if (s.net.take k).any fun n => n.src = m.src ∧ n.dst = m.dst then none else some m

/-- The k-th message has been applied: it leaves the network and the ejection counts
(R46). -/
def State.eject (s : State) (k : Nat) (m : Msg) : State :=
  { s.updRegion m.src.owner m.src.circ fun r => { r with ej := r.ej + 1 } with net := dropAt s.net k }

/-- The core a message goes to. -/
def Msg.target (m : Msg) : Option CoreId :=
  match m.dst with
  | .core n => some { m.src with num := n }
  | .bank _ | .home _ => none

/-- Answer a message to its sender. -/
def State.answer (s : State) (m : Msg) (op : RemoteOp) : State :=
  let from_ : CoreId := match m.dst with
    | .core n => { m.src with num := n }
    | .bank l => { m.src with num := 0x1000 + l }
    | .home _ => m.src
  s.send from_ (.core m.src.num) op m.seq

/-- Acknowledge a write (R186). -/
def State.acknowledge (s : State) (m : Msg) : State := s.answer m (.ack m.seq)

/-! ## Deques (R42, R216) -/

/-- An entry's deque: the high-priority one when prio is 1 (R216). -/
def entryHi (e : BitVec 512) : Bool := e.getLsbD 10

/-- Places taken in the two deques: hardware and spill entries, the high-priority ones
first (R42). -/
structure Places where
  hwHi : Nat
  hwLo : Nat
  spHi : Nat
  spLo : Nat
  deriving DecidableEq, Repr

/-- The places after one more push, if it finds one (R42). -/
def Places.take (n : Places) (hi top : Bool) : Option Places :=
  let hw := if hi then n.hwHi else n.hwLo
  let sp := if hi then n.spHi else n.spLo
  if hw < 64 ∧ ¬(top ∧ sp ≠ 0) then
    some (if hi then { n with hwHi := hw + 1 } else { n with hwLo := hw + 1 })
  else if n.spHi + n.spLo < 1024 then
    some (if hi then { n with spHi := sp + 1 } else { n with spLo := sp + 1 })
  else none

/-- The places taken, those reserved by the core's own pushes in its store buffer counted
(R389). -/
def Core.places (c : Core) : Places :=
  c.sb.foldl (fun n e => match e.kind with
    | .push x top => (n.take (entryHi x) top).getD n
    | .pushTcb _ hi => (n.take hi false).getD n
    | _ => n) ⟨c.hiDeque.length, c.loDeque.length, c.hiSpill.length, c.loSpill.length⟩

/-- Whether a push finds a place, reserved places counted as taken (R389, R390). -/
def Core.hasPlace (c : Core) (hi top : Bool) : Bool := (c.places.take hi top).isSome

/-- The scratch offset of place k of the deque spill area (R42, R65). -/
def Core.spillAt (c : Core) (k : Nat) : Nat := (if c.isMem then 0x30000 else 0x70000) + 64 * k

/-- The lowest free place of the deque spill area: which place takes an entry is the model's
choice (notes/assumptions/67.md). -/
def Core.freePlace (c : Core) : Nat :=
  ((List.range 1024).find? fun k => !(c.hiSpill ++ c.loSpill).contains k).getD 0

/-- The entry in place k of the deque spill area (R42, R216). -/
def Core.spilled (c : Core) (k : Nat) : BitVec 512 := BitVec.ofNat 512 (c.scr.nat (c.spillAt k) 64)

/-- Write an entry in place k of the deque spill area. -/
def Core.putSpill (c : Core) (k : Nat) (e : BitVec 512) : Core :=
  c.writeScr (c.spillAt k) (natBytes 64 e.toNat)

/-- Push an entry (R42): a bottom push to a full deque first moves the topmost entry to
the deque's bottommost spill entry; a top push goes to the hardware deque only when the
deque has no spill entries and has room. -/
def Core.push (c : Core) (e : BitVec 512) (top : Bool) : Core :=
  let k := c.freePlace
  if entryHi e then
    if top then
      if c.hiSpill = [] ∧ c.hiDeque.length < 64 then { c with hiDeque := e :: c.hiDeque }
      else { c.putSpill k e with hiSpill := k :: c.hiSpill }
    else if c.hiDeque.length < 64 then { c with hiDeque := c.hiDeque ++ [e] }
    else { c.putSpill k (c.hiDeque.headD 0) with hiSpill := c.hiSpill ++ [k], hiDeque := c.hiDeque.drop 1 ++ [e] }
  else
    if top then
      if c.loSpill = [] ∧ c.loDeque.length < 64 then { c with loDeque := e :: c.loDeque }
      else { c.putSpill k e with loSpill := k :: c.loSpill }
    else if c.loDeque.length < 64 then { c with loDeque := c.loDeque ++ [e] }
    else { c.putSpill k (c.loDeque.headD 0) with loSpill := c.loSpill ++ [k], loDeque := c.loDeque.drop 1 ++ [e] }

/-- Pop at the bottom, the high-priority deque first; an empty hardware deque gives its
bottommost spill entry (R42). -/
def Core.pop (c : Core) : Option (BitVec 512 × Core) :=
  match c.hiDeque.getLast?, c.hiSpill.getLast?, c.loDeque.getLast?, c.loSpill.getLast? with
  | some e, _, _, _ => some (e, { c with hiDeque := c.hiDeque.dropLast })
  | none, some k, _, _ => some (c.spilled k, { c with hiSpill := c.hiSpill.dropLast })
  | none, none, some e, _ => some (e, { c with loDeque := c.loDeque.dropLast })
  | none, none, none, some k => some (c.spilled k, { c with loSpill := c.loSpill.dropLast })
  | none, none, none, none => none

/-- Take from the top of the high-priority deque, else of the normal deque (R43, R217):
the topmost spill entry first (R42). -/
def Core.takeTop (c : Core) : Option (BitVec 512 × Core) :=
  match c.hiSpill, c.hiDeque, c.loSpill, c.loDeque with
  | k :: l, _, _, _ => some (c.spilled k, { c with hiSpill := l })
  | [], e :: l, _, _ => some (e, { c with hiDeque := l })
  | [], [], k :: l, _ => some (c.spilled k, { c with loSpill := l })
  | [], [], [], e :: l => some (e, { c with loDeque := l })
  | [], [], [], [] => none

/-- Whether a core has work in its deques. -/
def Core.hasWork (c : Core) : Bool :=
  !(c.hiDeque.isEmpty && c.hiSpill.isEmpty && c.loDeque.isEmpty && c.loSpill.isEmpty)

/-! ## Strikes and error records (R385, R399) -/

/-- An error record of a column (R399). -/
def errorRecord (kind member owner core col slot store off : Nat) : BitVec 64 :=
  BitVec.ofNat 64 (kind * 2 ^ 58 + member * 2 ^ 54 + owner % 64 * 2 ^ 48 + core % 4096 * 2 ^ 36 +
    col % 256 * 2 ^ 28 + slot % 16 * 2 ^ 24 + store % 4 * 2 ^ 22 + off % 2 ^ 22)

/-- Append a record to a column's ring of 64, and to the physical function's log (R399). -/
def State.record (s : State) (col : Nat) (r : BitVec 64) : State :=
  { s with
    cols := modAt s.cols col fun k => { k with log := (k.log ++ [(r, s.cyc)]).drop (k.log.length - 63) }
    pfLog := s.pfLog ++ [(r, s.cyc)] }

/-- An owner is struck with a cause (R385, R432). -/
def State.strike (s : State) (f : Nat) (cause : BitVec 8) : State :=
  s.updFn f fun fn => { fn with struck := some (fn.struck.getD cause) }

/-- A free value: the model's counter advances, the value is opaque
(notes/assumptions/20.md). -/
def State.draw (s : State) : BitVec 64 × State :=
  (Config.freeValue s.draws, { s with draws := s.draws + 1 })

end Sys2Proof.Machine
end

