-- ==== Sys2Proof/Machine/Flags.lean ====
section
/-! DEFINITION. Element types, floating formats, rounding with its flags, and the
arithmetic of one element (04_number_formats.md R85 to R103, R112). A floating value is a
sign, a natural significand and a power of two; every operation forms its exact value
and rounds once. -/

namespace Sys2Proof.Machine

open Sys2Proof

/-! ## Flags (R94) -/

/-- Invalid operation. -/
def nv : BitVec 5 := 0x10
/-- Division by zero. -/
def dz : BitVec 5 := 0x08
/-- Overflow. -/
def of_ : BitVec 5 := 0x04
/-- Underflow. -/
def uf : BitVec 5 := 0x02
/-- Inexact. -/
def nx : BitVec 5 := 0x01

/-- A flag when a condition holds. -/
def flag (b : Bool) (f : BitVec 5) : BitVec 5 := if b then f else 0

/-! ## Types (R85, R87) -/

/-- Kinds of NaN a format has (R87). -/
inductive NanKind | ieee | one | none
  deriving DecidableEq, Repr

/-- A floating format: exponent bits, mantissa bits, bias, NaNs (R87). -/
structure Fmt where
  eb : Nat
  mb : Nat
  bias : Nat
  nan : NanKind
  deriving DecidableEq, Repr

/-- The format of a floating type (R87). -/
def fmtOf : EType → Option Fmt
  | .f32 => some ⟨8, 23, 127, .ieee⟩
  | .bf16 => some ⟨8, 7, 127, .ieee⟩
  | .f16 => some ⟨5, 10, 15, .ieee⟩
  | .e5m2 => some ⟨5, 2, 15, .ieee⟩
  | .e4m3 => some ⟨4, 3, 7, .one⟩
  | .e3m2 => some ⟨3, 2, 3, .none⟩
  | .e2m3 => some ⟨2, 3, 1, .none⟩
  | .e2m1 => some ⟨2, 1, 1, .none⟩
  | _ => none

/-- `f32`. -/
def fmt32 : Fmt := ⟨8, 23, 127, .ieee⟩
/-- `bf16`. -/
def fmtB16 : Fmt := ⟨8, 7, 127, .ieee⟩
/-- `e2m1`. -/
def fmtE2m1 : Fmt := ⟨2, 1, 1, .none⟩

/-- Bits of a type (R85). -/
def widthOf : EType → Nat
  | .f32 | .i32 | .n32 => 32
  | .bf16 | .f16 | .i16 | .n16 => 16
  | .e5m2 | .e4m3 | .i8 | .n8 => 8
  | .e3m2 | .e2m3 => 6
  | .e2m1 | .i4 | .n4 => 4
  | .i64 | .n64 => 64

/-- Whether a type is a signed integer type (R85). -/
def isSigned : EType → Bool
  | .i4 | .i8 | .i16 | .i32 | .i64 => true
  | _ => false

/-- Whether a type is floating. -/
def isFloat (t : EType) : Bool := (fmtOf t).isSome

/-- Bits of a format. -/
def Fmt.width (f : Fmt) : Nat := 1 + f.eb + f.mb
/-- Whether a format has infinities (R87). -/
def Fmt.hasInf (f : Fmt) : Bool := f.nan == .ieee
/-- Exponent of the smallest normal (R87). -/
def Fmt.emin (f : Fmt) : Int := 1 - f.bias
/-- Exponent of the largest finite value (R87). -/
def Fmt.emax (f : Fmt) : Int := (2 ^ f.eb : Nat) - (if f.hasInf then 2 else 1) - f.bias
/-- Significand of the largest finite value: all ones, 1.110 in `e4m3` (R88). -/
def Fmt.qmax (f : Fmt) : Nat := 2 ^ (f.mb + 1) - (if f.nan = .one then 2 else 1)
/-- The sign bit. -/
def Fmt.signed (f : Fmt) (s : Bool) (v : Nat) : Nat := (if s then 2 ^ (f.eb + f.mb) else 0) + v
/-- The signed largest finite value. -/
def Fmt.maxBits (f : Fmt) (s : Bool) : Nat :=
  f.signed s ((f.emax + f.bias).toNat * 2 ^ f.mb + f.qmax % 2 ^ f.mb)
/-- The signed infinity. -/
def Fmt.infBits (f : Fmt) (s : Bool) : Nat := f.signed s ((2 ^ f.eb - 1) * 2 ^ f.mb)
/-- The default NaN (R90); +0 for the formats without one (R103). -/
def Fmt.nanBits (f : Fmt) : Nat :=
  match f.nan with
  | .ieee => f.infBits false + 2 ^ (f.mb - 1)
  | .one => 2 ^ (f.eb + f.mb) - 1
  | .none => 0

/-- A decoded floating code (R87, R88): a NaN with its mantissa and whether it is
signalling, an infinity, or the value (−1)^s × m × 2^e. -/
inductive FVal
  | nan (s : Bool) (m : Nat) (sig : Bool)
  | inf (s : Bool)
  | fin (s : Bool) (m : Nat) (e : Int)
  deriving DecidableEq, Repr

/-- Decode a code of a format (R87, R88, R90). -/
def Fmt.decode (f : Fmt) (v : Nat) : FVal :=
  let s := v / 2 ^ (f.eb + f.mb) % 2 == 1
  let e := v / 2 ^ f.mb % 2 ^ f.eb
  let m := v % 2 ^ f.mb
  if f.nan = .ieee ∧ e = 2 ^ f.eb - 1 then
    if m = 0 then .inf s else .nan s m (decide (m < 2 ^ (f.mb - 1)))
  else if f.nan = .one ∧ e = 2 ^ f.eb - 1 ∧ m = 2 ^ f.mb - 1 then .nan s m false
  else if e = 0 then .fin s m (f.emin - f.mb)
  else .fin s (m + 2 ^ f.mb) (e - f.bias - f.mb)

/-- Whether a value is a NaN. -/
def FVal.isNan : FVal → Bool
  | .nan _ _ _ => true
  | _ => false
/-- Whether a value is a signalling NaN. -/
def FVal.isSig : FVal → Bool
  | .nan _ _ g => g
  | _ => false
/-- Whether a value is ±0. -/
def FVal.isZero : FVal → Bool
  | .fin _ m _ => m == 0
  | _ => false
/-- Whether a value is infinite. -/
def FVal.isInf : FVal → Bool
  | .inf _ => true
  | _ => false
/-- The sign. -/
def FVal.sign : FVal → Bool
  | .nan s _ _ | .inf s | .fin s _ _ => s
/-- The sign inverted, of a value that is no NaN (R241). -/
def FVal.neg : FVal → FVal
  | .nan s m g => .nan s m g
  | .inf s => .inf !s
  | .fin s m e => .fin (!s) m e

/-- A NaN in a format (R91, R100): quieted, its sign and top mantissa bits kept, or what a
format without that NaN holds. `mb` is the mantissa width it comes from. -/
def Fmt.quiet (f : Fmt) (mb : Nat) (s : Bool) (m : Nat) : Nat × BitVec 5 :=
  match f.nan with
  | .none => (0, nv)
  | .one => (f.signed s (2 ^ (f.eb + f.mb) - 1), 0)
  | .ieee =>
    let p := if mb ≤ f.mb then m * 2 ^ (f.mb - mb) else m / 2 ^ (mb - f.mb)
    let p := if p / 2 ^ (f.mb - 1) % 2 = 1 then p else p + 2 ^ (f.mb - 1)
    (f.infBits s + p, 0)

/-! ## Rounding (R93, R95, R99, R100) -/

/-- How a word rounds: the mode, the stochastic draw of the element (R98), and `esat`. -/
structure Rnd where
  rm : RMode
  x : Nat := 0
  esat : Bool := true
  deriving DecidableEq, Repr

/-- The multiple of 2^sh nearest to m + (something below 1 when `st`) by a mode, divided by
2^sh, and whether it is inexact (R95, R99). -/
def cut (r : Rnd) (s : Bool) (m : Nat) (st : Bool) (sh : Nat) : Nat × Bool :=
  let q := m / 2 ^ sh
  let rem := m % 2 ^ sh
  let inexact := rem != 0 || st
  let up := match r.rm with
    | .rne => decide (2 ^ sh < 2 * rem) || (decide (2 * rem = 2 ^ sh) && (st || q % 2 == 1))
    | .rtz => false
    | .rdn => s && inexact
    | .rup => !s && inexact
    | .rsr => decide (r.x < rem * 2 ^ 32 / 2 ^ sh)
  (if up then q + 1 else q, inexact)

/-- What overflow gives (R99, R100). DESIGN CHOICE: R99 names the result of an `rsr` magnitude that
rounds up beyond the largest finite value; of one that is truncated beyond it already, into a type
with infinities, no rule says more than that it overflows, and it gives infinity here as well
(notes/assumptions/73.md). -/
def Fmt.over (f : Fmt) (r : Rnd) (s : Bool) : Nat :=
  if !f.hasInf || (f.eb == 5 && f.mb == 2 && r.esat) then f.maxBits s
  else match r.rm with
    | .rne | .rsr => f.infBits s
    | .rtz => f.maxBits s
    | .rdn => if s then f.infBits s else f.maxBits s
    | .rup => if s then f.maxBits s else f.infBits s

/-- Round (−1)^s × (m + t) × 2^e, with t = 0 or, when `st`, some value strictly between 0
and 1, to a format, with flags (R93, R95, R100). With `st` the caller gives m at least two
bits more than the format keeps. -/
def Fmt.round (f : Fmt) (r : Rnd) (s : Bool) (m : Nat) (e : Int) (st : Bool) : Nat × BitVec 5 :=
  if m = 0 ∧ st = false then (f.signed s 0, 0)
  else
    let top : Int := m.log2 + e
    let at_ := fun (lsb : Int) =>
      if lsb ≤ e then (m * 2 ^ (e - lsb).toNat, st) else cut r s m st (lsb - e).toNat
    -- rounded with an unbounded exponent
    let u := at_ (top - f.mb)
    let uTop := if 2 ^ (f.mb + 1) ≤ u.1 then top + 1 else top
    if f.emax < uTop ∨ (top = f.emax ∧ f.qmax < u.1) then (f.over r s, of_ ||| nx)
    else
      let base := max top f.emin
      let q := at_ (base - f.mb)
      (f.signed s ((base - f.emin).toNat * 2 ^ f.mb + q.1),
       flag q.2 nx ||| flag (q.2 && decide (uTop < f.emin)) uf)

/-- A mode as it acts outside the rsr conversions (R97). -/
def Rnd.plain (r : Rnd) : Rnd := { r with rm := if r.rm = .rsr then .rne else r.rm }

/-- Round a quotient m/d × 2^e to a format: 64 quotient bits and a remainder. -/
def Fmt.roundDiv (f : Fmt) (r : Rnd) (s : Bool) (m d : Nat) (e : Int) : Nat × BitVec 5 :=
  let k := d.log2 + 128
  f.round r s (m * 2 ^ k / d) (e - k) (m * 2 ^ k % d != 0)

/-! ## Exact sums -/

/-- A signed significand at exponent e. -/
def scaled (s : Bool) (m : Nat) (e base : Int) : Int :=
  let v : Int := m * 2 ^ (e - base).toNat
  if s then -v else v

/-- Round the sum of two finite values (R95): an exact zero takes the IEEE sign. -/
def Fmt.sum (f : Fmt) (r : Rnd) (sa : Bool) (ma : Nat) (ea : Int) (sb : Bool) (mb : Nat) (eb : Int) :
    Nat × BitVec 5 :=
  let base := min ea eb
  let t := scaled sa ma ea base + scaled sb mb eb base
  if t = 0 then
    (f.signed (if ma = 0 ∧ mb = 0 ∧ sa = sb then sa else r.rm == .rdn) 0, 0)
  else f.round r (decide (t < 0)) t.natAbs base false

/-! ## Arithmetic on one element (R91, R92, R239, R241) -/

/-- The first NaN of some operands, quieted, with invalid for a signalling one (R91). -/
def Fmt.firstNan (f : Fmt) (l : List FVal) : Option (Nat × BitVec 5) :=
  (l.find? (·.isNan)).bind fun v => match v with
    | .nan s m _ => some ((f.quiet f.mb s m).1, flag (l.any (·.isSig)) nv)
    | _ => none

/-- a + b (R239). -/
def Fmt.add (f : Fmt) (r : Rnd) (a b : FVal) : Nat × BitVec 5 :=
  match f.firstNan [a, b] with
  | some x => x
  | none =>
    match a, b with
    | .inf s, .inf t => if s = t then (f.infBits s, 0) else (f.nanBits, nv)
    | .inf s, _ => (f.infBits s, 0)
    | _, .inf t => (f.infBits t, 0)
    | .fin sa ma ea, .fin sb mb eb => f.sum r sa ma ea sb mb eb
    | _, _ => (f.nanBits, nv)

/-- a × b (R239). -/
def Fmt.mul (f : Fmt) (r : Rnd) (a b : FVal) : Nat × BitVec 5 :=
  match f.firstNan [a, b] with
  | some x => x
  | none =>
    let s := a.sign != b.sign
    if (a.isInf && b.isZero) || (a.isZero && b.isInf) then (f.nanBits, nv)
    else match a, b with
      | .fin _ ma ea, .fin _ mb eb => f.round r s (ma * mb) (ea + eb) false
      | _, _ => (f.infBits s, 0)

/-- a ÷ b (R239). -/
def Fmt.div (f : Fmt) (r : Rnd) (a b : FVal) : Nat × BitVec 5 :=
  match f.firstNan [a, b] with
  | some x => x
  | none =>
    let s := a.sign != b.sign
    if (a.isInf && b.isInf) || (a.isZero && b.isZero) then (f.nanBits, nv)
    else if a.isInf then (f.infBits s, 0)
    else if b.isZero then (f.infBits s, dz)
    else match a, b with
      | .fin _ ma ea, .fin _ mb eb =>
          if ma = 0 then (f.signed s 0, 0) else f.roundDiv r s ma mb (ea - eb)
      | _, _ => (f.signed s 0, 0)

/-- ±(a × b) ± c with one rounding (R92, R241). -/
def Fmt.fma (f : Fmt) (r : Rnd) (np nc : Bool) (a b c : FVal) : Nat × BitVec 5 :=
  let bad := (a.isInf && b.isZero) || (a.isZero && b.isInf)
  match f.firstNan [a, b, c] with
  | some (v, fl) => (v, fl ||| flag (bad && !a.isNan && !b.isNan) nv)
  | none =>
    let sp := (a.sign != b.sign) != np
    let c := if nc then c.neg else c
    if bad then (f.nanBits, nv)
    else match a, b, c with
      | .fin _ ma ea, .fin _ mb eb, .fin sc mc ec => f.sum r sp (ma * mb) (ea + eb) sc mc ec
      | .fin _ _ _, .fin _ _ _, .inf sc => (f.infBits sc, 0)
      | _, _, .inf sc => if sc = sp then (f.infBits sp, 0) else (f.nanBits, nv)
      | _, _, _ => (f.infBits sp, 0)

/-- The order of two values that are no NaNs, −0 below +0 when `zs` (R113, R243). -/
def FVal.below (zs : Bool) (a b : FVal) : Bool :=
  match a, b with
  | .inf s, .inf t => s && !t
  | .inf s, _ => s
  | _, .inf t => !t
  | .fin sa ma ea, .fin sb mb eb =>
    let base := min ea eb
    let x := scaled sa ma ea base
    let y := scaled sb mb eb base
    if x = 0 ∧ y = 0 then zs && sa && !sb else decide (x < y)
  | _, _ => false

/-- The greater, or the lesser, of two codes (R113, R239). -/
def Fmt.maxMin (f : Fmt) (mx : Bool) (a b : Nat) : Nat × BitVec 5 :=
  let x := f.decode a
  let y := f.decode b
  match f.firstNan [x, y] with
  | some r => r
  | none => (if mx then (if x.below true y then b else a) else (if y.below true x then b else a), 0)

/-- The integer square root of n, by halving from the bit 2^k. -/
def isqrt (n : Nat) : Nat → Nat → Nat
  | 0, acc => acc
  | k + 1, acc =>
    let t := acc + 2 ^ k
    isqrt n k (if t * t ≤ n then t else acc)

/-- √a (R239). -/
def Fmt.sqrt (f : Fmt) (r : Rnd) (a : FVal) : Nat × BitVec 5 :=
  match f.firstNan [a] with
  | some x => x
  | none =>
    match a with
    | .fin s m e =>
      if m = 0 then (f.signed s 0, 0)
      else if s then (f.nanBits, nv)
      else
        let m := if e % 2 = 0 then m else 2 * m
        let e := if e % 2 = 0 then e else e - 1
        let n := m * 2 ^ 64
        let q := isqrt n 50 0
        f.round r false q (e / 2 - 32) (q * q != n)
    | .inf s => if s then (f.nanBits, nv) else (f.infBits false, 0)
    | _ => (f.nanBits, 0)

/-- The nx of a special function's result outside the exact cases of R242's table; an exact tiny
quotient raises no uf (R93; notes/assumptions/73.md). -/
def inexactly (x : Nat × BitVec 5) : Nat × BitVec 5 := (x.1, x.2 ||| nx)

/-- 1 ÷ a (R242). -/
def Fmt.rcp (f : Fmt) (r : Rnd) (a : FVal) : Nat × BitVec 5 :=
  match f.firstNan [a] with
  | some x => x
  | none =>
    match a with
    | .fin s m e => if m = 0 then (f.infBits s, dz) else inexactly (f.roundDiv r s 1 m (-e))
    | .inf s => (f.signed s 0, 0)
    | _ => (f.nanBits, 0)

/-- 1 ÷ √a (R242). -/
def Fmt.rsqrt (f : Fmt) (r : Rnd) (a : FVal) : Nat × BitVec 5 :=
  match f.firstNan [a] with
  | some x => x
  | none =>
    match a with
    | .fin s m e =>
      if m = 0 then (f.infBits s, dz)
      else if s then (f.nanBits, nv)
      else
        let m := if e % 2 = 0 then m else 2 * m
        let e := if e % 2 = 0 then e else e - 1
        let n := 2 ^ 128 / m
        let q := isqrt n 66 0
        inexactly (f.round r false q (-64 - e / 2) (q * q * m != 2 ^ 128))
    | .inf s => if s then (f.nanBits, nv) else (f.signed false 0, 0)
    | _ => (f.nanBits, 0)

/-! ## Integers of a type -/

/-- The value of w low bits read by a type's signedness. -/
def intOf (sg : Bool) (w v : Nat) : Int :=
  let v := v % 2 ^ w
  if sg ∧ 2 ^ (w - 1) ≤ v then (v : Int) - 2 ^ w else v

/-- The w-bit code of an integer. -/
def codeOf (w : Nat) (v : Int) : Nat := (v % (2 ^ w : Nat)).toNat

/-- The least value of an integer type. -/
def lowest (sg : Bool) (w : Nat) : Int := if sg then -(2 ^ (w - 1) : Nat) else 0
/-- The greatest value of an integer type. -/
def highest (sg : Bool) (w : Nat) : Int := if sg then (2 ^ (w - 1) : Nat) - 1 else (2 ^ w : Nat) - 1

/-- A value clamped to a type's range (R102). -/
def clampInt (sg : Bool) (w : Nat) (v : Int) : Int := max (lowest sg w) (min (highest sg w) v)

/-! ## Conversion of one element (R97, R100 to R102) -/

/-- A floating value converted to another floating format (R91, R100). `mb` is the
mantissa width of the source; `same` says that the source holds no value beyond the format's.
DESIGN CHOICE: a signalling NaN into `e4m3` raises nv as R91 says of reading one; R100's table
shows no flag there (notes/assumptions/73.md). -/
def Fmt.convert (f : Fmt) (r : Rnd) (mb : Nat) (same : Bool) (v : FVal) : Nat × BitVec 5 :=
  match v with
  | .nan s m sig => let q := f.quiet mb s m; (q.1, q.2 ||| flag (sig && f.nan != .none) nv)
  | .inf s =>
    if f.hasInf && (same || !(f.eb == 5 && f.mb == 2 && r.esat)) then (f.infBits s, 0)
    else (f.maxBits s, of_ ||| nx)
  | .fin s m e => f.round r s m e false

/-- A floating value converted to an integer type (R101). -/
def toInt (r : Rnd) (sg : Bool) (w : Nat) (v : FVal) : Nat × BitVec 5 :=
  match v with
  | .nan _ _ _ => (0, nv)
  | .inf s => (codeOf w (if s then lowest sg w else highest sg w), nv)
  | .fin s m e =>
    let q := if 0 ≤ e then (m * 2 ^ e.toNat, false) else cut r s m false (-e).toNat
    let x : Int := if s then -(q.1 : Int) else q.1
    if x < lowest sg w ∨ highest sg w < x then
      (codeOf w (if s then lowest sg w else highest sg w), nv)
    else (codeOf w x, flag q.2 nx)

/-- One element converted between types (R251). -/
def convertElem (r : Rnd) (sat : Bool) (dt st : EType) (v : Nat) : Nat × BitVec 5 :=
  let w := widthOf dt
  match fmtOf dt, fmtOf st with
  | some f, some g => f.convert r g.mb (f == g) (g.decode v)
  | none, some g => toInt r (isSigned dt) w (g.decode v)
  | some f, none =>
    let x := intOf (isSigned st) (widthOf st) v
    f.round r (decide (x < 0)) x.natAbs 0 false
  | none, none =>
    let x := intOf (isSigned st) (widthOf st) v
    (codeOf w (if sat then clampInt (isSigned dt) w x else x), 0)

/-- Whether a floating format holds every value of another, its infinities and NaNs
included (R97, R251). -/
def Fmt.holds (f g : Fmt) : Bool :=
  decide (g.mb ≤ f.mb) && decide (f.emin - f.mb ≤ g.emin - g.mb) && decide (g.emax ≤ f.emax) &&
  (decide (g.emax < f.emax) || decide (g.qmax * 2 ^ (f.mb - g.mb) ≤ f.qmax)) &&
  (f.hasInf || !g.hasInf) && (f.nan != .none || g.nan == .none)

/-- Whether a conversion between types is an rsr conversion (R97). -/
def rsrPair (dt st : EType) : Bool :=
  match fmtOf dt, fmtOf st with
  | some f, some g => !f.holds g
  | some _, none => true
  | none, some _ => true
  | none, none => false

/-- The stochastic draw of R98. -/
def srDraw (lc sid n : BitVec 32) : BitVec 32 :=
  let x := (lc * 0x9E3779B9) ^^^ sid ^^^ (n * 0x85EBCA6B)
  let x := x ^^^ (x >>> 16)
  let x := x * 0x7FEB352D
  let x := x ^^^ (x >>> 15)
  let x := x * 0x846CA68B
  x ^^^ (x >>> 16)

/-- The immediate of a vector word as an element (R103, R151): 16 bits, or 32 when `wide`. -/
def vectorImm (esat : Bool) (t : EType) (wide : Bool) (imm : BitVec 32) : Nat :=
  match fmtOf t with
  | none =>
    if isSigned t then codeOf (widthOf t) (intOf true (if wide then 32 else 16) imm.toNat)
    else imm.toNat % 2 ^ widthOf t
  | some f =>
    let g := if wide then fmt32 else fmtB16
    match g.decode imm.toNat with
    | .nan _ _ _ => f.nanBits
    | v => (f.convert ⟨.rne, 0, esat⟩ g.mb (f == g) v).1

/-! ## FP4 scales and requantisation (R104, R112) -/

/-- An E3M5 code as significand and exponent (R104). -/
def e3m5 (c : Nat) : Nat × Int := if c / 32 = 0 then (c % 32, -7) else (32 + c % 32, (c / 32 : Int) - 8)

/-- Requantisation of an accumulator (R112). -/
def requant (sg : Bool) (w : Nat) (acc mult : Int) (s : Nat) (zo : Int) : Nat :=
  let p := acc * mult
  let p := if 0 < s then p + 2 ^ (s - 1) else p
  codeOf w (clampInt sg w (p / (2 ^ s : Nat) + zo))

/-! ## Rows of elements (R86) -/

/-- `n` codes of `w` bits from a row value (R86). -/
def unpackNat (w : Nat) (v : Nat) : Nat → List Nat
  | 0 => []
  | n + 1 => v % 2 ^ w :: unpackNat w (v / 2 ^ w) n

/-- A row value of codes of `w` bits (R86). -/
def packNat (w : Nat) : List Nat → Nat
  | [] => 0
  | x :: xs => x % 2 ^ w + 2 ^ w * packNat w xs

/-- The elements of a row of bytes (R86). -/
def unpack (w n : Nat) (bs : List Byte) : List Nat := unpackNat w (bytesNat bs) n

/-- The bytes of a row of `len` bytes (R86). -/
def pack (w len : Nat) (els : List Nat) : List Byte := natBytes len (packNat w els)

end Sys2Proof.Machine
end

