-- ==== Sys2Proof/Machine/Operands.lean ====
section
/-! DEFINITION. The operand forms that words share: widened immediates
(06_encoding.md R151), effective on-chip addresses (03_storage_model.md R55,
08_storage_sync.md R182), the waits of loads and stores (R68, R186 to R188), register
ranges and identifiers of TCBs and cores. -/

namespace Sys2Proof.Machine

open Sys2Proof

/-! ## Immediates (R151) -/

/-- The 64-bit value of a signed immediate field with the payloads of the hints before
its word (R151). -/
def State.widen {n : Nat} (s : State) (f : BitVec n) : BitVec 64 :=
  match s.me.issue.hw with
  | [] => f.signExtend 64
  | [a] => (a ++ f).signExtend 64
  | a :: b :: _ => (a ++ (b ++ f)).signExtend 64

/-- The value of `loop`'s unsigned field, widened as R151 when hints precede it (R169). -/
def State.widenLoop (s : State) (f : BitVec 12) : Int :=
  match s.me.issue.hw with
  | [] => f.toNat
  | _ => (s.widen f).toInt

/-- The value of register a plus a widened immediate. -/
def State.regImm {n : Nat} (s : State) (ra : BitVec 6) (f : BitVec n) : BitVec 64 :=
  s.me.gr ra + s.widen f

/-! ## On-chip addresses (R55, R182) -/

/-- A byte range of storage that a valid address names. -/
inductive Loc
  | scratch (off : Nat)
  | regs (off : Nat)
  | remote (num off : Nat)
  | bank (lcol off : Nat)
  deriving DecidableEq, Repr

/-- The spaces that a word accepts: own scratch, own register space, remote scratch,
column bank (R182). -/
structure Accepts where
  own : Bool := false
  regs : Bool := false
  remote : Bool := false
  bank : Bool := false

/-- Loads and stores accept every space (R182). -/
def anySpace : Accepts := ⟨true, true, true, true⟩

/-- The address exception of a word of major `mj` whose address field names register `reg`
(R366, R368; notes/assumptions/70.md). -/
def addrExc (mj : BitVec 6) (sub : BitVec 8) (reg : BitVec 6) (ea : BitVec 64) : Exc :=
  ⟨0x15, sub, reg, ea.setWidth 48, mj⟩

/-- Bytes of scratch of core n of a region (R65). -/
def scrSizeOf (n : Nat) : Nat := if 0x800 ≤ n then 0x40000 else 0x80000

/-- Take an address apart for an access of `n` bytes aligned to `al`, by the conditions of
R182 in the order of their sub values (R366); the privilege check of the state area is made
first of those that look at the offset (R60, R364). -/
def State.locate (s : State) (mj reg : BitVec 6) (acc : Accepts) (ea : BitVec 64) (n al : Nat) :
    Except Exc Loc :=
  let space := (ea.extractLsb' 45 3).toNat
  let bad := fun sub => Except.error (addrExc mj sub reg ea)
  let off19 := (ea.extractLsb' 0 19).toNat
  let hi := ea.extractLsb' 48 16 != 0
  if space = 0 then
    let off := if s.me.composed then (ea.extractLsb' 0 25).toNat else off19
    let zero := if s.me.composed then ea.extractLsb' 25 20 == 0 else ea.extractLsb' 19 26 == 0
    if !acc.own then bad 1
    else if hi || !zero then bad 2
    else if off % al ≠ 0 then bad 3
    else if s.me.composed then
      if s.me.compN * 0x6B000 < off + n then bad 6 else .ok (.scratch off)
    else if s.me.scrSize < off + n then bad 4
    else .ok (.scratch off)
  else if space = 1 then
    let off := (ea.extractLsb' 0 17).toNat
    if !acc.regs then bad 1
    else if hi || ea.extractLsb' 17 28 != 0 then bad 2
    else if viewEnd s.me.id.num < off + n ∧ off < regSize s.me.id.num ∧ s.me.csr.level = 0 then
      .error ⟨0x13, 3, reg, 0, mj⟩
    else if off % al ≠ 0 then bad 3
    else if regSize s.me.id.num < off + n then bad 4
    else .ok (.regs off)
  else if space = 2 then
    let num := (ea.extractLsb' 33 12).toNat
    if !acc.remote then bad 1
    else if hi || ea.extractLsb' 19 14 != 0 then bad 2
    else if off19 % al ≠ 0 then bad 3
    else if !s.names s.me.id num then bad 5
    else if scrSizeOf num < off19 + n then bad 4
    else .ok (.remote num off19)
  else if space = 4 then
    let lcol := (ea.extractLsb' 37 8).toNat
    let off := (ea.extractLsb' 0 25).toNat
    if !acc.bank then bad 1
    else if hi || ea.extractLsb' 33 4 != 0 || ea.extractLsb' 25 8 != 0 then bad 2
    else if off % al ≠ 0 then bad 3
    else if 4 * s.posOf s.me.id ≤ lcol then bad 5
    else if 2 ^ 25 < off + n then bad 4
    else .ok (.bank lcol off)
  else bad 1

/-- The exception of a location that could not be taken, or none. -/
def excOf {α : Type} : Except Exc α → Option Exc
  | .error e => some e
  | .ok _ => none

/-- Where a remote location is applied. -/
def Loc.place (l : Loc) (me : Nat) : Place :=
  match l with
  | .remote n _ => .core n
  | .bank c _ => .bank c
  | _ => .core me

/-- The offset that a location names in its store. -/
def Loc.off : Loc → Nat
  | .scratch o | .regs o | .remote _ o | .bank _ o => o

/-- Whether a location is reached by a remote operation (R56). -/
def Loc.isRemote : Loc → Bool
  | .remote _ _ | .bank _ _ => true
  | _ => false

/-- The resources a location of `n` bytes is, for the interlocks of local accesses. -/
def Loc.res (l : Loc) (n num : Nat) : List Res :=
  match l with
  | .scratch o => [.scr o n]
  | .regs o => if viewEnd num < o + n then [.regs o n, .area] else [.regs o n]
  | _ => []

/-! ## Waits of loads and stores (R68, R186 to R188) -/

/-- The bytes that a remote store or atomic of the store buffer covers at its destination
(R187). -/
def RemoteOp.covers : RemoteOp → Option (Nat × Nat)
  | .store o bs => some (o, bs.length)
  | .atomic op o _ _ _ => some (o, if op = .fadd then 4 else 8)
  | .ldfe o _ => some (o, 8)
  | .stfe o _ => some (o, 8)
  | .state o _ => some (o, 1)
  | _ => none

/-- Whether an earlier acquire holds back later loads and atomics (R188). -/
def Core.acquiring (c : Core) : Bool := c.outs.any fun o => o.acq && !o.performed

/-- Whether an access to the core's own position is outstanding, which holds every later
load or atomic word (R187). -/
def Core.nearLoad (c : Core) : Bool :=
  c.outs.any fun o => !o.performed && match o.dst with | some d => near c.id d | none => false

/-- The composed offset of an offset of member i's own scratch (R65, R228); of a plain core, the
offset itself. -/
def Core.compOff (c : Core) (i o : Nat) : Nat := (o / 128 * c.compN + i) * 128 + o % 128

/-- The bytes [o, o + n) of the scratch that a core sees, line by line at the members of a
composition: the core that applies them, their offset there, their count (R228, R298). -/
def Core.lines (c : Core) (o n : Nat) : List (Place × Nat × Nat) :=
  if c.composed then
    (List.range ((o + n - 1) / 128 + 1 - o / 128)).map fun i =>
      let lo := max o (128 * (o / 128 + i))
      let hi := min (o + n) (128 * (o / 128 + i + 1))
      (.core (c.scrAt lo).1.num, (c.scrAt lo).2, hi - lo)
  else [(.core c.id.num, o, n)]

/-- The bytes of a location at their appliers. -/
def Core.pieces (c : Core) (l : Loc) (n : Nat) : List (Place × Nat × Nat) :=
  match l with
  | .scratch o => c.lines o n
  | .regs _ => []
  | l => [(l.place c.id.num, l.off, n)]

/-- The bytes that a store-buffer entry writes, at their appliers. -/
def SbKind.writes (k : SbKind) (c : Core) : List (Place × Nat × Nat) :=
  match k with
  | .scr o bs => c.lines o bs.length
  | .stfe o _ => c.lines o 8
  | .send p op => match op.covers with
    | some (o, m) => [(p, o, m)]
    | none => []
  | .finish _ _ n off => [(.core n, off, 1)]
  | _ => []

/-- Whether the core's own loads read an entry's bytes in the buffer (R186). -/
def SbKind.forwards : SbKind → Bool
  | .scr _ _ | .stfe _ _ => true
  | _ => false

/-- Whether two lists of pieces share a byte. -/
def shareByte (a b : List (Place × Nat × Nat)) : Bool :=
  a.any fun (p, o, n) => b.any fun (q, r, m) => p == q && overlap o n r m

/-- Whether a buffered store covers bytes that a load or atomic reads and cannot be read in
the buffer (R187, R302); a local access waits for such a store until it is acknowledged. -/
def Core.behindStore (c : Core) (l : Loc) (n : Nat) : Bool :=
  let ps := c.pieces l n
  (c.sb.any fun e => (l.isRemote || !e.kind.forwards) && shareByte (e.kind.writes c) ps) ||
  (!l.isRemote && c.unacked.any fun u => shareByte [(u.dst, u.off, u.len)] ps)

/-- Whether a buffered atomic or full/empty load goes to the place that a load goes to: remote
reads of one applier are applied in issue order (R300, R304). -/
def Core.behindRead (c : Core) (d : Place) : Bool :=
  c.sb.any fun e => match e.kind with
    | .send p (.atomic _ _ _ _ _) | .send p (.ldfe _ _) => p == d
    | _ => false

/-- Whether a load or atomic of `n` bytes must wait (R187, R188). -/
def Core.loadWaits (c : Core) (l : Loc) (n : Nat) : Bool :=
  c.acquiring || c.nearLoad || c.behindStore l n

/-- Whether a local read that is no load (an inbox register, a cell, a port's slot) must wait
for an earlier read (R188, R300). -/
def Core.readHeld (c : Core) : Bool := c.acquiring || c.nearLoad

/-- Whether an earlier load or atomic has not performed (R186). -/
def Core.readsOpen (c : Core) : Bool :=
  (c.outs.any fun o => !o.performed && o.kind != .steal) || !c.hbmAcc.isEmpty

/-- Whether an earlier write to the core's own stores or position has not performed (R300). -/
def Core.nearWrites (c : Core) : Bool :=
  (c.sb.any fun e => match e.kind with
    | .scr _ _ | .stfe _ _ | .push _ _ | .pushTcb _ _ => true
    | .send p _ => near c.id p
    | .finish _ _ home _ => near c.id (.core home)
    | _ => false) ||
  c.unacked.any fun u => near c.id u.dst

/-- Whether rows of a `vst` or `vsct` have not landed: local stores not yet performed
(R250). -/
def Core.rowsPending (c : Core) : Bool := c.pend.any (·.w.isRow)

/-- Whether a local write that enters no store buffer must wait: earlier reads, earlier near
writes and rows in scratch perform first (R186, R250, R300). -/
def Core.writeHeld (c : Core) : Bool := c.readsOpen || c.nearWrites || c.rowsPending

/-- Whether a store of the packet in hand could leave the buffer after rows of a later word of
the packet land: older entries or acknowledgements stand before it (R250, R300). -/
def Core.lagging (c : Core) : Bool :=
  ({ c with sb := c.sb.filter (·.fresh), unacked := [] } : Core).nearWrites &&
  (c.sb.any (!·.fresh) || !c.unacked.isEmpty)

/-- Outstanding remote loads and atomics (R187). -/
def Core.remoteOuts (c : Core) : Nat :=
  (c.outs.filter fun o => o.kind = .load ∨ o.kind = .atomic).length

/-- Whether the range scoreboard holds a local access: a store against any range, a load
against write ranges (R68). -/
def Core.scoreHolds (c : Core) (lo n : Nat) (store : Bool) : Bool :=
  c.score.any fun e => overlap lo n e.lo (e.hi - e.lo) && (store || e.write)

/-- Whether bytes of own scratch that a word reads at issue must wait as a local load does (R68,
R186, R250, R300). -/
def Core.readsHeld (c : Core) (rs : List (Nat × Nat)) : Bool :=
  rs.any fun (o, n) => c.loadWaits (.scratch o) n || c.scoreHolds o n false

/-- Whether bytes of own scratch that a word writes without the store buffer must wait (R68, R186,
R250, R300). -/
def Core.writesHeld (c : Core) (rs : List (Nat × Nat)) : Bool :=
  c.readsOpen || c.nearWrites || rs.any fun (o, n) => c.scoreHolds o n true

/-! ## Registers in a run (R219, R274) -/

/-- The values of `n` registers from ra upward. -/
def Core.grRun (c : Core) (ra : BitVec 6) : Nat → List (BitVec 64)
  | 0 => []
  | n + 1 => c.gr ra :: Core.grRun c (ra + 1) n

/-- The registers of a run, for the interlocks. -/
def resRun (ra : BitVec 6) : Nat → List Res
  | 0 => []
  | n + 1 => .g ra :: resRun (ra + 1) n

/-! ## TCB references and message headers (R214, R215) -/

/-- The exception of an operand (class 0x18, R366). -/
def operandExc (mj : BitVec 6) (sub : BitVec 8) (reg : BitVec 6) (v : BitVec 64) : Exc :=
  ⟨0x18, sub, reg, v.setWidth 48, mj⟩

/-- Whether a TCB line lies in the open area of core n (R215). -/
def lineOk (n line : Nat) : Bool := decide (64 * line < openEnd n)

/-- The class 0x18 check of a TCB reference held in register r (R214, R215, R381). -/
def refCheck (mj : BitVec 6) (r : BitVec 6) (ref : BitVec 64) : Option Exc :=
  let line := ref.extractLsb' 19 13
  if ref.extractLsb' 32 32 != 0 || ref.extractLsb' 15 4 != 0 then some (operandExc mj 1 r ref)
  else if ref.extractLsb' 12 3 = 7 then some (operandExc mj 2 r 7)
  else if !lineOk (ref.extractLsb' 0 12).toNat line.toNat then
    some (operandExc mj 2 r (line.setWidth 64))
  else none

/-- The check of a core number (class 0x20, R388). -/
def State.coreCheck (s : State) (mj : BitVec 6) (sub : BitVec 8) (reg : BitVec 6) (n : BitVec 12) : Option Exc :=
  check (!s.names s.me.id n.toNat) ⟨0x20, sub, reg, n.setWidth 48, mj⟩

/-- The reserved bits of a message header (R215). -/
def headerReserved (h : BitVec 64) : Bool :=
  h.extractLsb' 44 20 != 0 || h.extractLsb' 29 3 != 0 || h.getLsbD 14

/-- Argument words a header carries (R215). -/
def headerArgc (h : BitVec 64) : Nat := (h.extractLsb' 11 3).toNat

/-- The class 0x18 checks of a header in register r whose arguments start at register a
(R215, R219, R381); `own` for the words that push on their own core. -/
def headerCheck (mj : BitVec 6) (r a : BitVec 6) (own : Bool) (h : BitVec 64) : Option Exc :=
  let n := headerArgc h
  let line := h.extractLsb' 16 13
  let tcb := h.getLsbD 15
  firstOf [
    check (headerReserved h) (operandExc mj 1 r h),
    check (decide (6 < n)) (operandExc mj 2 r (BitVec.ofNat 64 n)),
    check (own && tcb) (operandExc mj 2 r 1),
    check (!own && tcb && !lineOk (h.extractLsb' 32 12).toNat line.toNat)
      (operandExc mj 2 r (line.setWidth 64)),
    check (n ≠ 0 && decide (64 < a.toNat + n)) (operandExc mj 3 a (a.setWidth 64))]

/-- An entry of a deque built from a header without a TCB (R216, R221, R222). -/
def headerEntry (h : BitVec 64) (args : List (BitVec 64)) : BitVec 512 :=
  let a := fun i => args.getD i 0
  a 5 ++ a 4 ++ a 3 ++ a 2 ++ a 1 ++ a 0 ++ (0 : BitVec 64) ++ (h.extractLsb' 0 11).setWidth 64

/-! ## Values of lanes -/

/-- Pieces of `k` bits of a list of bytes. -/
def chunks {α : Type} (k : Nat) (l : List α) : Nat → List (List α)
  | 0 => []
  | n + 1 => l.take k :: chunks k (l.drop k) n

end Sys2Proof.Machine
end

