-- ==== Sys2Proof/Machine/LoadStore.lean ====
section
/-! DEFINITION. Loads, stores and full/empty accesses (08_storage_sync.md R184 to R188,
R197 to R199). -/

namespace Sys2Proof.Machine

open Sys2Proof

/-! ## Shared operations -/

/-- The effective address of an SL word (R138, R182): the displacement is scaled after
widening. -/
def State.slAddress (s : State) (ra : BitVec 6) (disp : BitVec 10) (n : Nat) : BitVec 64 :=
  s.me.gr ra + s.widen disp * BitVec.ofNat 64 n

/-- The 64-bit value of `n` loaded bytes (R185). -/
def extendBytes (signed : Bool) (n : Nat) (v : Nat) : BitVec 64 :=
  let b := BitVec.ofNat 64 v
  if signed then (b <<< (64 - 8 * n)).sshiftRight (64 - 8 * n) else b

/-- An access whose result is owed by another party (R187, R192). -/
def Core.owe (c : Core) (k : OutKind) (rd : BitVec 6) (dst : Option Place) (acq : Bool) : Core :=
  { c with outs := c.outs ++ [⟨k, rd, c.seq, dst, acq, false, 0, 0⟩] }

/-- The next place in program order. -/
def Core.count (c : Core) : Core := { c with seq := c.seq + 1 }

/-- A load that another party answers: sent at issue (R187). -/
def State.sendLoad (s : State) (d : Place) (off n : Nat) (signed : Bool) (rd : BitVec 6) (acq : Bool) : State :=
  let id := s.me.id
  let seq := s.me.seq
  (s.onMe fun c => (c.owe .load rd (some d) acq).count).send id d (.load off n signed rd) seq

/-- The bytes at a local location as the core's own loads see them (R186). -/
def State.localBytes (s : State) (l : Loc) (n : Nat) : List Byte :=
  match l with
  | .regs o => s.regBytes o n
  | l => s.ownBytes l.off n

/-- A load of `n` bytes (R184 to R187). -/
def loadWord (mj : BitVec 6) (n : Nat) (signed acq : Bool) (rt ra : BitVec 6) (disp : BitVec 10)
    (s : State) : Res? :=
  let ea := s.slAddress ra disp n
  match s.locate mj ra anySpace ea n n with
  | .error e => act [.g ra] [.g rt] (some e) false s s
  | .ok l =>
    let num := s.me.id.num
    if l.isRemote then
      actOut [.g ra] [.g rt] none (s.me.loadWaits l n || s.me.behindRead (l.place num) || decide (16 ≤ s.me.remoteOuts))
        (s.sendLoad (l.place num) l.off n signed rt acq) s
    else
      let held := match l with | .scratch o => s.me.scoreHolds o n false | _ => false
      act (.g ra :: l.res n num) [.g rt] none (s.me.loadWaits l n || held)
        (s.later (.g rt (extendBytes signed n (bytesNat (s.localBytes l n)))) 4) s

/-- A store of `n` bytes (R184 to R186). -/
def storeWord (mj : BitVec 6) (n : Nat) (rel : Bool) (rt ra : BitVec 6) (disp : BitVec 10)
    (s : State) : Res? :=
  let ea := s.slAddress ra disp n
  let bs := natBytes n (s.me.gr rt).toNat
  match s.locate mj ra anySpace ea n n with
  | .error e => act [.g ra, .g rt] [] (some e) false s s
  | .ok l =>
    let num := s.me.id.num
    match l with
    | .regs o => act [.g ra, .g rt] (l.res n num) none s.me.writeHeld (s.later (.regs o bs) 1) s
    | .scratch o =>
      actOut [.g ra, .g rt] [] none (s.me.sbFull || s.me.scoreHolds o n true)
        (s.onMe fun c => c.buffer (.scr o bs) rel) s
    | l =>
      actOut [.g ra, .g rt] [] none s.me.sbFull
        (s.onMe fun c => c.buffer (.send (l.place num) (.store l.off bs)) rel) s

/-- The core and line of a full/empty bit of own scratch (R67, R228). -/
def State.feLine (s : State) (o : Nat) : CoreId × Nat :=
  if s.me.composed then ((s.me.scrAt o).1, (s.me.scrAt o).2 / 128) else (s.me.id, o / 128)

/-- Whether a line of own scratch is full (R67). -/
def State.feIs (s : State) (o : Nat) : Bool :=
  let (id, l) := s.feLine o
  ((s.core? id).map fun c => c.fe.contains l).getD false

/-- Set the bit of a line of own scratch. -/
def State.feSet (s : State) (o : Nat) (full : Bool) : State :=
  let (id, l) := s.feLine o
  s.updCore id fun c => { c with fe := feLines c.fe l full 1 }

/-- A result that the core itself holds until it is due (R157, R164). -/
def Core.owed (c : Core) (k : OutKind) (rd : BitVec 6) (v : BitVec 64) (due : Nat) : Core :=
  { c with outs := c.outs ++ [⟨k, rd, c.seq, none, false, true, v, due⟩], seq := c.seq + 1 }

/-- The spaces of full/empty words (R182). -/
def feSpace : Accepts := ⟨true, false, true, false⟩

/-! ## The words (R145, R184) -/

/-- `ldb` (R184). -/
def execLdb (rt ra : BitVec 6) (disp : BitVec 10) (s : State) : Res? :=
  loadWord 0x10 1 true false rt ra disp s

/-- `ldbn` (R184). -/
def execLdbn (rt ra : BitVec 6) (disp : BitVec 10) (s : State) : Res? :=
  loadWord 0x10 1 false false rt ra disp s

/-- `ldh` (R184). -/
def execLdh (rt ra : BitVec 6) (disp : BitVec 10) (s : State) : Res? :=
  loadWord 0x10 2 true false rt ra disp s

/-- `ldhn` (R184). -/
def execLdhn (rt ra : BitVec 6) (disp : BitVec 10) (s : State) : Res? :=
  loadWord 0x10 2 false false rt ra disp s

/-- `ldw` (R184). -/
def execLdw (rt ra : BitVec 6) (disp : BitVec 10) (s : State) : Res? :=
  loadWord 0x10 4 true false rt ra disp s

/-- `ldwn` (R184). -/
def execLdwn (rt ra : BitVec 6) (disp : BitVec 10) (s : State) : Res? :=
  loadWord 0x10 4 false false rt ra disp s

/-- `ldd` (R184). -/
def execLdd (rt ra : BitVec 6) (disp : BitVec 10) (s : State) : Res? :=
  loadWord 0x10 8 false false rt ra disp s

/-- `ldb.acq` (R184, R188). -/
def execLdbAcq (rt ra : BitVec 6) (disp : BitVec 10) (s : State) : Res? :=
  loadWord 0x11 1 true true rt ra disp s

/-- `ldbn.acq` (R184, R188). -/
def execLdbnAcq (rt ra : BitVec 6) (disp : BitVec 10) (s : State) : Res? :=
  loadWord 0x11 1 false true rt ra disp s

/-- `ldh.acq` (R184, R188). -/
def execLdhAcq (rt ra : BitVec 6) (disp : BitVec 10) (s : State) : Res? :=
  loadWord 0x11 2 true true rt ra disp s

/-- `ldhn.acq` (R184, R188). -/
def execLdhnAcq (rt ra : BitVec 6) (disp : BitVec 10) (s : State) : Res? :=
  loadWord 0x11 2 false true rt ra disp s

/-- `ldw.acq` (R184, R188). -/
def execLdwAcq (rt ra : BitVec 6) (disp : BitVec 10) (s : State) : Res? :=
  loadWord 0x11 4 true true rt ra disp s

/-- `ldwn.acq` (R184, R188). -/
def execLdwnAcq (rt ra : BitVec 6) (disp : BitVec 10) (s : State) : Res? :=
  loadWord 0x11 4 false true rt ra disp s

/-- `ldd.acq` (R184, R188). -/
def execLddAcq (rt ra : BitVec 6) (disp : BitVec 10) (s : State) : Res? :=
  loadWord 0x11 8 false true rt ra disp s

/-- `stb` (R184). -/
def execStb (rt ra : BitVec 6) (disp : BitVec 10) (s : State) : Res? :=
  storeWord 0x12 1 false rt ra disp s

/-- `sth` (R184). -/
def execSth (rt ra : BitVec 6) (disp : BitVec 10) (s : State) : Res? :=
  storeWord 0x12 2 false rt ra disp s

/-- `stw` (R184). -/
def execStw (rt ra : BitVec 6) (disp : BitVec 10) (s : State) : Res? :=
  storeWord 0x12 4 false rt ra disp s

/-- `std` (R184). -/
def execStd (rt ra : BitVec 6) (disp : BitVec 10) (s : State) : Res? :=
  storeWord 0x12 8 false rt ra disp s

/-- `stb.rel` (R184, R188). -/
def execStbRel (rt ra : BitVec 6) (disp : BitVec 10) (s : State) : Res? :=
  storeWord 0x13 1 true rt ra disp s

/-- `sth.rel` (R184, R188). -/
def execSthRel (rt ra : BitVec 6) (disp : BitVec 10) (s : State) : Res? :=
  storeWord 0x13 2 true rt ra disp s

/-- `stw.rel` (R184, R188). -/
def execStwRel (rt ra : BitVec 6) (disp : BitVec 10) (s : State) : Res? :=
  storeWord 0x13 4 true rt ra disp s

/-- `std.rel` (R184, R188). -/
def execStdRel (rt ra : BitVec 6) (disp : BitVec 10) (s : State) : Res? :=
  storeWord 0x13 8 true rt ra disp s

/-- `ldfe` (R198, R199): a load-acquire that waits for a full line and empties it. -/
def execLdfe (rt ra : BitVec 6) (disp : BitVec 10) (s : State) : Res? :=
  let ea := s.slAddress ra disp 8
  match s.locate 0x14 ra feSpace ea 8 8 with
  | .error e => act [.g ra] [.g rt] (some e) false s s
  | .ok l =>
    if l.isRemote then
      let d := l.place s.me.id.num
      actOut [.g ra] [.g rt] none (s.me.sbFull || s.me.loadWaits l 8 || decide (16 ≤ s.me.remoteOuts))
        (s.onMe fun c => (c.owe .load rt (some d) true).buffer (.send d (.ldfe l.off rt)) false) s
    else
      let v := BitVec.ofNat 64 (s.ownNat l.off 8)
      actShared [.g ra] [.g rt] none
        (s.me.loadWaits l 8 || s.me.scoreHolds l.off 8 false || !s.feIs l.off)
        (((s.feSet l.off false).onMe fun c => c.owed .lineLoad rt v 4).later (.lineLoad rt) 4)
        (((s.feSet l.off false).onMe fun c => c.owed .lineLoad rt v 4).later (.lineLoad rt) 4) s

/-- `stfe` (R198, R199): a store-release that leaves the buffer when its line is empty. -/
def execStfe (rt ra : BitVec 6) (disp : BitVec 10) (s : State) : Res? :=
  let ea := s.slAddress ra disp 8
  let v := s.me.gr rt
  match s.locate 0x15 ra feSpace ea 8 8 with
  | .error e => act [.g ra, .g rt] [] (some e) false s s
  | .ok l =>
    if l.isRemote then
      actOut [.g ra, .g rt] [] none s.me.sbFull
        (s.onMe fun c => c.buffer (.send (l.place s.me.id.num) (.stfe l.off v)) true) s
    else
      actOut [.g ra, .g rt] [] none (s.me.sbFull || s.me.scoreHolds l.off 8 true)
        (s.onMe fun c => c.buffer (.stfe l.off v) true) s

end Sys2Proof.Machine
end

