-- ==== Sys2Proof/Machine/Bulk.lean ====
section
/-! DEFINITION. The bulk words (08_storage_sync.md R209 to R212): their checks, the beats
they move, and what they take at issue. -/

namespace Sys2Proof.Machine

open Sys2Proof

/-! ## Beats (R211) -/

/-- The beats of a `bcopy`: each ends at a 256-byte boundary of the destination (R211). -/
def copyBeats : Nat → Nat → Nat → Nat → List Beat
  | 0, _, _, _ => []
  | f + 1, src, dst, n =>
    if n = 0 then []
    else
      let k := min n (256 - dst % 256)
      ⟨src, dst, k⟩ :: copyBeats f (src + k) (dst + k) (n - k)

/-- The beats of a row: one, or two when it is longer than 256 bytes (R211). -/
def rowBeats (src dst n : Nat) : List Beat :=
  if n ≤ 256 then [⟨src, dst, n⟩] else [⟨src, dst, 256⟩, ⟨src + 256, dst + 256, n - 256⟩]

/-- The beats of rows, in rising order: the order in which a `tload` writes its tile is not
specified (R64), and this one is the model's choice (notes/assumptions/71.md). -/
def tileBeats (src spitch dst dpitch n rows : Nat) : List Beat :=
  (List.range rows).flatMap fun i => rowBeats (src + i * spitch) (dst + i * dpitch) n

/-! ## Commands (R68, R211) -/

/-- The granule exponent of the word in hand: 4 without the hint (R153). -/
def State.granExp (s : State) : BitVec 3 := s.me.issue.gran.getD 4

/-- The side that a location is. -/
def Loc.side (l : Loc) (n me : Nat) : Side :=
  match l with
  | .scratch _ => .own n
  | .regs _ => .regs me
  | .remote k _ => .scratch k
  | .bank c _ => .bank c

/-- The range of the core's own scratch that a side covers, also one named by the number of the
core or of a member of its composition (R68, R228). -/
def Core.ownRange (c : Core) (l : Loc) (n : Nat) (write : Bool) : List ScoreEntry :=
  match l with
  | .scratch o => [⟨o, o + n, write, c.seq⟩]
  | .remote k o =>
    let i := k - c.id.num
    if c.id.num ≤ k ∧ i < c.compN then [⟨c.compOff i o, c.compOff i (o + n - 1) + 1, write, c.seq⟩] else []
  | _ => []

/-- Bulk commands of a core, in its store buffer or started (R211). -/
def Core.bulkCount (c : Core) : Nat :=
  (c.sb.filter fun e => match e.kind with | .bulk _ => true | _ => false).length + c.bulks.length

/-- Whether a bulk word must wait at issue (R68, R186, R211). -/
def Core.bulkWaits (c : Core) (score : List ScoreEntry) : Bool :=
  c.sbFull || decide (8 ≤ c.bulkCount) || decide (16 < c.score.length + score.length)

/-- A command between two on-chip sides, or to or from HBM. -/
def State.command (s : State) (k : BulkKind) (src dst : Side) (beats : List Beat) (cell : BitVec 5) : Bulk where
  id := s.me.seq
  kind := k
  src := src
  dst := dst
  beats := beats
  count := 0
  cell := cell
  gran := s.granExp
  started := false
  record := false
  waiting := none
  answer := none
  desc := 0
  vec := []
  bad := none
  packet := none
  held := 0
  creg := 0

/-- A bulk word enters the store buffer as a release (R188, R211). -/
def State.kick (s : State) (b : Bulk) (score : List ScoreEntry) : State :=
  s.onMe fun c => { c.buffer (.bulk b) true with score := c.score ++ score }

/-- The rows of register space a command reads or writes. -/
def rowRes (base pitch n rows : Nat) : List Res := (List.range rows).map fun i => .regs (base + i * pitch) n

/-! ## `bcopy` (R209) -/

/-- The spaces of `bcopy`, and of the far side of a tile (R182). -/
def bulkSpace : Accepts := ⟨true, false, true, true⟩

/-- `bcopy` (R209, R380). -/
def execBcopy (ga gb gc : BitVec 6) (w : BitVec 5) (s : State) : Res? :=
  let n := (s.me.gr gc).toNat
  let bad := decide (n % 4 ≠ 0) || decide (n < 4) || decide (16777216 < n)
  let span := if bad then 4 else n
  let src : List Res := [.g ga, .g gb, .g gc]
  match s.locate 0x38 ga bulkSpace (s.me.gr ga) span 4, s.locate 0x38 gb bulkSpace (s.me.gr gb) span 4 with
  | .error e, _ => act src [] (some e) false s s
  | .ok _, .error e => act src [] (some e) false s s
  | .ok d, .ok a =>
    let c := s.me
    let score := c.ownRange a n false ++ c.ownRange d n true
    let b := s.command .bcopy (a.side c.compN c.id.num) (d.side c.compN c.id.num)
      (copyBeats (n / 256 + 2) a.off d.off n) w
    actOut src []
      (firstOf [check bad (operandExc 0x38 2 gc (s.me.gr gc)),
        check (shareByte (c.pieces a span) (c.pieces d span)) (operandExc 0x38 4 0 0)])
      (c.bulkWaits score) (s.kick b score) s

/-! ## `tload` and `tstore` (R210) -/

/-- A tile geometry word (R210). -/
structure Tile where
  fpitch : Nat
  rpitch : Nat
  n : Nat
  rows : Nat
  deriving DecidableEq, Repr

/-- The fields of a geometry word (R210). -/
def Tile.of (v : BitVec 64) : Tile where
  fpitch := 4 * (v.extractLsb' 48 16).toNat
  rpitch := (v.extractLsb' 32 16).toNat
  n := 4 * (v.extractLsb' 16 7).toNat + 4
  rows := (v.extractLsb' 0 4).toNat + 1

/-- The exception of a geometry word in register gc (R210, R380). -/
def tileExc (gc : BitVec 6) (v : BitVec 64) : Option Exc :=
  let t := Tile.of v
  firstOf [
    check (v.extractLsb' 23 9 != 0 || v.extractLsb' 4 12 != 0) (operandExc 0x38 1 gc v),
    check (decide (t.rpitch % 4 ≠ 0) || (decide (1 < t.rows) && (decide (t.fpitch < t.n) || decide (t.rpitch < t.n))))
      (operandExc 0x38 2 gc v)]

/-- The register-space side of a tile: the address of row 0, by the conditions of R182. -/
def State.tileBase (s : State) (reg : BitVec 6) (ea : BitVec 64) : Except Exc Nat :=
  let off := (ea.extractLsb' 0 17).toNat
  if ea.extractLsb' 45 3 ≠ 1 then .error (addrExc 0x38 1 reg ea)
  else if ea.extractLsb' 48 16 ≠ 0 ∨ ea.extractLsb' 17 28 ≠ 0 then .error (addrExc 0x38 2 reg ea)
  else if off % 4 ≠ 0 then .error (addrExc 0x38 3 reg ea)
  else if regSize s.me.id.num < off + 4 then .error (addrExc 0x38 4 reg ea)
  else .ok off

/-- The first error of two answers, the one of the word's first field first. -/
def firstError {α β : Type} (a : Except Exc α) (b : Except Exc β) (swap : Bool) : Option Exc :=
  if swap then firstOf [excOf b, excOf a] else firstOf [excOf a, excOf b]

/-- A tile between register space and a far side; `load` for `tload` (R209, R210, R380). -/
def tileWord (load : Bool) (ga gb gc : BitVec 6) (w : BitVec 5) (s : State) : Res? :=
  let v := s.me.gr gc
  let t := Tile.of v
  let bad := tileExc gc v
  let src : List Res := [.g ga, .g gb, .g gc]
  let (rega, fara) := if load then (s.me.gr ga, s.me.gr gb) else (s.me.gr gb, s.me.gr ga)
  let span := if bad.isSome then 4 else (t.rows - 1) * t.fpitch + t.n
  let reg := s.tileBase (if load then ga else gb) rega
  let far := s.locate 0x38 (if load then gb else ga) bulkSpace fara span 4
  match reg, far with
  | .ok r, .ok f =>
    let c := s.me
    let out := decide (viewEnd c.id.num < r + (if bad.isSome then 4 else (t.rows - 1) * t.rpitch + t.n))
    let score := c.ownRange f span !load
    let side := f.side c.compN c.id.num
    let rows := rowRes r t.rpitch t.n t.rows
    let (b, rd, wr) :=
      if load then
        (s.command .tload side (.regs c.id.num) (tileBeats f.off t.fpitch r t.rpitch t.n t.rows) w, [], rows)
      else
        (s.command .tstore (.regs c.id.num) side (tileBeats r t.rpitch f.off t.fpitch t.n t.rows) w, rows, [])
    actOut (src ++ rd) wr
      (firstOf [check out ⟨0x16, 2, if load then ga else gb, 0, 0x38⟩, bad]) (c.bulkWaits score) (s.kick b score) s
  | _, _ => act src [] (firstError reg far (!load)) false s s

/-- `tload` (R209). -/
def execTload (ga gb gc : BitVec 6) (w : BitVec 5) (s : State) : Res? := tileWord true ga gb gc w s

/-- `tstore` (R209). -/
def execTstore (ga gb gc : BitVec 6) (w : BitVec 5) (s : State) : Res? := tileWord false ga gb gc w s

end Sys2Proof.Machine
end

