-- ==== Sys2Proof/Machine/Special.lean ====
section
/-! DEFINITION. The bounded special functions of one element (10_vector.md R242): the exact
cases of its table, and otherwise a value within the bound, chosen among those by the
opaque `Config.specialUlp` (notes/assumptions/21.md). The exact value is enclosed in
fixed point with 256 fraction bits. -/

namespace Sys2Proof.Machine

open Sys2Proof

/-- Fraction bits of the fixed-point values. -/
def fixBits : Nat := 256

/-- ln 2 in fixed point, rounded down. -/
def fixLn2 : Nat := 0xB17217F7D1CF79ABC9E3B39803F2F6AF40F343267298B62D8A0D175B8BAAFA2B

/-- log₂ e in fixed point, rounded down. -/
def fixLog2e : Nat := 0x171547652B82FE1777D0FFDA0D23A7D11D6AEF551BAD2B4B1164A2CD9A3426491

/-- The terms t^k ÷ k! from k = i upward, `n` of them, the first being `term`. -/
def expTerms (t : Nat) : Nat → Nat → Nat → Nat
  | 0, _, _ => 0
  | n + 1, i, term => term + expTerms t n (i + 1) (term * t / 2 ^ fixBits / (i + 1))

/-- 2^y for a fixed-point y: significand and exponent. -/
def pow2Fix (y : Int) : Nat × Int :=
  let n := y / (2 ^ fixBits : Nat)
  let f := (y % (2 ^ fixBits : Nat)).toNat
  (expTerms (f * fixLn2 / 2 ^ fixBits) 70 0 (2 ^ fixBits), n - fixBits)

/-- A finite value in fixed point. -/
def toFix (m : Nat) (e : Int) : Nat :=
  if 0 ≤ e + fixBits then m * 2 ^ (e + fixBits).toNat else m / 2 ^ (-(e + fixBits)).toNat

/-- e^x: significand and exponent; a magnitude above 1,024 stands for 1,024, which lies
beyond every format's range. -/
def expFix (s : Bool) (x : Nat) : Nat × Int :=
  let x := min x (1024 * 2 ^ fixBits)
  let y : Int := x * fixLog2e / 2 ^ fixBits
  pow2Fix (if s then -y else y)

/-- A significand and exponent in fixed point. -/
def ofFloat (v : Nat × Int) : Nat := toFix v.1 v.2

/-- The odd powers z^k ÷ k from k = i upward, `n` of them, the first being `p` ÷ i. -/
def atanhTerms (z2 : Nat) : Nat → Nat → Nat → Nat
  | 0, _, _ => 0
  | n + 1, i, p => p / i + atanhTerms z2 n (i + 2) (p * z2 / 2 ^ fixBits)

/-- log₂ of m × 2^e in fixed point. -/
def log2Fix (m : Nat) (e : Int) : Int :=
  let k := m.log2
  let x := m * 2 ^ (fixBits - k)
  let one := 2 ^ fixBits
  let z := (x - one) * one / (x + one)
  let l := 2 * atanhTerms (z * z / one) 90 1 z
  (k + e) * one + (l * fixLog2e / one : Nat)

/-- Names of the bounded functions. -/
inductive Bounded | exp | exp2 | log2 | tanh | sigm
  deriving DecidableEq, Repr

/-- The exact cases of R242, when the operand is one (no NaN). -/
def exactCase (f : Fmt) (op : Bounded) (v : FVal) : Option (Nat × BitVec 5) :=
  let one := (f.round ⟨.rne, 0, true⟩ false 1 0 false).1
  let half := (f.round ⟨.rne, 0, true⟩ false 1 (-1) false).1
  match op, v with
  | .exp, .inf s | .exp2, .inf s => some (if s then 0 else f.infBits false, 0)
  | .log2, .inf s => some (if s then (f.nanBits, nv) else (f.infBits false, 0))
  | .tanh, .inf s => some (f.signed s one, 0)
  | .sigm, .inf s => some (if s then 0 else one, 0)
  | .exp, .fin _ 0 _ => some (one, 0)
  | .exp2, .fin s m e =>
    if m = 0 then some (one, 0)
    else if 0 ≤ e ∨ m % 2 ^ (-e).toNat = 0 then
      let k : Int := if 0 ≤ e then (m * 2 ^ e.toNat : Nat) else (m / 2 ^ (-e).toNat : Nat)
      let k := if s then -k else k
      if f.emin - f.mb ≤ k ∧ k ≤ f.emax then some ((f.round ⟨.rne, 0, true⟩ false 1 k false).1, 0) else none
    else none
  | .log2, .fin s m e =>
    if m = 0 then some (f.infBits true, dz)
    else if s then some (f.nanBits, nv)
    else if m = 2 ^ m.log2 then
      let k : Int := m.log2 + e
      some ((f.round ⟨.rne, 0, true⟩ (decide (k < 0)) k.natAbs 0 false).1, 0)
    else none
  | .tanh, .fin s 0 _ => some (f.signed s 0, 0)
  | .sigm, .fin _ 0 _ => some (half, 0)
  | _, _ => none

/-- The exact value of a function at (−1)^s × m × 2^e, as a sign, significand and exponent;
the true value lies strictly between the significand and the next. -/
def exactValue (op : Bounded) (s : Bool) (m : Nat) (e : Int) : Bool × Nat × Int :=
  let one := 2 ^ fixBits
  match op with
  | .exp => let v := expFix s (toFix m e); (false, v.1, v.2)
  | .exp2 =>
    let x : Int := (min (toFix m e) (1024 * one) : Nat)
    let v := pow2Fix (if s then -x else x)
    (false, v.1, v.2)
  | .log2 => let v := log2Fix m e; (decide (v < 0), v.natAbs, -(fixBits : Int))
  | .tanh =>
    if (m.log2 : Int) + e < -12 then (s, 4 * m - 1, e - 2)
    else if 6 ≤ (m.log2 : Int) + e then (s, one - 1, -(fixBits : Int))
    else
      let x := ofFloat (expFix false (2 * toFix m e))
      (s, (x - one) * one / (x + one), -(fixBits : Int))
  | .sigm =>
    let v := expFix true (toFix m e)
    let x := ofFloat v
    if s then (false, v.1 * one / (one + x), v.2)
    else (false, min (one * one / (one + x)) (one - 1), -(fixBits : Int))

/-- The number of the function, for `Config.specialUlp`. -/
def boundedNo : Bounded → Nat
  | .exp => 0
  | .exp2 => 1
  | .log2 => 2
  | .tanh => 5
  | .sigm => 6

/-- The multiples of the last place below and above the value rounded down that lie within
the bound of R242: 2 ulp for three functions in `f32`, 1 ulp elsewhere. -/
def ulpRange (op : Bounded) (t : EType) : Int × Int :=
  match op, t with
  | .exp, .f32 | .tanh, .f32 | .sigm, .f32 => (-1, 2)
  | _, _ => (0, 1)

/-- A result within the bound of R242, with its flags: uf when the result itself is below the
smallest normal (R93). -/
def boundedResult (f : Fmt) (op : Bounded) (t : EType) (code x : Nat) (s : Bool) (m : Nat) (e : Int) :
    Nat × BitVec 5 :=
  let base : Int := max (m.log2 + e) f.emin
  let lsb := base - f.mb
  let q0 : Int := if lsb ≤ e then m * 2 ^ (e - lsb).toNat else (m / 2 ^ (lsb - e).toNat : Nat)
  let r := ulpRange op t
  let off := max r.1 (min r.2 (Config.specialUlp (boundedNo op) (BitVec.ofNat 5 code) (BitVec.ofNat 32 x)))
  let q := min (q0 + off).toNat (2 ^ (f.mb + 1))
  if f.emax < base ∨ (base = f.emax ∧ f.qmax < q) then (f.infBits s, of_ ||| nx)
  else
    let v := (base - f.emin).toNat * 2 ^ f.mb + q
    (f.signed s v, nx ||| flag (decide (v < 2 ^ f.mb)) uf)

/-- A bounded special function of one element (R242). -/
def special (op : Bounded) (t : EType) (f : Fmt) (code x : Nat) : Nat × BitVec 5 :=
  let v := f.decode x
  match f.firstNan [v] with
  | some r => r
  | none =>
    match exactCase f op v with
    | some r => r
    | none =>
      match v with
      | .fin s m e =>
        let (s', m', e') := exactValue op s m e
        boundedResult f op t code x s' m' e'
      | _ => (f.nanBits, 0)

end Sys2Proof.Machine
end

