-- ==== Sys2Proof/Machine/Views.lean ====
section
/-! DEFINITION. View operands, ports and the frame in which a vector word runs
(03_storage_model.md R61 to R64, R70; 10_vector.md R233 to R236; 06_encoding.md R156). -/

namespace Sys2Proof.Machine

open Sys2Proof

/-! ## View-table entries (R61) -/

/-- Base of a view-table entry. -/
def viewBase (v : BitVec 128) : Nat := (v.extractLsb' 0 17).toNat
/-- Pitch of a view-table entry. -/
def viewPitch (v : BitVec 128) : Nat := (v.extractLsb' 32 16).toNat
/-- Type of a view-table entry; none for a reserved code. -/
def viewType (v : BitVec 128) : Option EType := EType.ofCode (v.extractLsb' 59 5)
/-- Port code of a view-table entry. -/
def viewPort (v : BitVec 128) : Nat := (v.extractLsb' 72 2).toNat
/-- Ring handle of a port. -/
def viewRing (v : BitVec 128) : BitVec 3 := v.extractLsb' 74 3
/-- Whether the reserved fields of an entry are zero. -/
def viewReservedZero (v : BitVec 128) : Bool :=
  v.extractLsb' 77 51 == 0 && v.extractLsb' 64 8 == 0 && v.extractLsb' 48 11 == 0 && v.extractLsb' 17 15 == 0

/-! ## Geometry (R63, R233) -/

/-- Rows that `vshape` gives (R63). -/
def State.shapeRows (s : State) : Nat := (s.me.csr.vshape.extractLsb' 0 4).toNat + 1
/-- Bytes per row that `vshape` gives (R63). -/
def State.shapeBytes (s : State) : Nat := 4 * ((s.me.csr.vshape.extractLsb' 4 6).toNat + 1)

/-- Elements of a row of B bytes under a type (R233). -/
def elemsOf (t : EType) (b : Nat) : Nat := 8 * b / widthOf t

/-- Whether a row of B bytes holds whole elements of a type (R233). -/
def rowFits (t : EType) (b : Nat) : Bool :=
  if widthOf t = 6 then b % 12 == 0 else if widthOf t = 64 then b % 8 == 0 else true

/-! ## Resolved operands (R62, R70, R234) -/

/-- A port that an operand names: its handle, whether it is a push port, and the handle's
role, peer and peer handle. -/
structure Port where
  q : BitVec 3
  push : Bool
  role : Nat
  peer : Nat
  pq : BitVec 3
  deriving DecidableEq, Repr

/-- A resolved view operand: row addresses, in register space or, for a port, in scratch. -/
structure VRows where
  addrs : List Nat
  len : Nat
  port : Option Port
  deriving DecidableEq, Repr

/-- The view exception of a word (R366, R368). -/
def viewExc (mj : BitVec 6) (sub : BitVec 8) (n : BitVec 6) : Exc := ⟨0x16, sub, n, 0, mj⟩

/-- A resolved operand with its first failing check of class 0x16 and of class 0x20. -/
structure VOperand where
  rows : VRows
  chk : Option Exc
  peer : Option Exc

/-- Resolve view `v`n over `rows` rows of `len` bytes, read or written (R62, R70, R382,
R388); `plain` when the word both reads and writes it, so that no port is allowed. -/
def State.vop (s : State) (mj : BitVec 6) (n : BitVec 5) (rows len : Nat) (write : Bool)
    (plain : Bool := false) : VOperand :=
  let v := s.me.view n.toNat
  let k : BitVec 6 := n.setWidth 6
  let base := viewBase v
  let pitch := viewPitch v
  let port := viewPort v
  let geo := check (decide (pitch % 4 ≠ 0) || (decide (1 < rows) && decide (pitch < len)) ||
    (port == 0 && decide (base % 4 ≠ 0))) (viewExc mj 1 k)
  let span := (rows - 1) * pitch + len
  if port = 0 then
    { rows := ⟨(List.range rows).map fun i => base + i * pitch, len, none⟩
      chk := firstOf [geo, check (decide (viewEnd s.me.id.num < base + span)) (viewExc mj 2 k)]
      peer := none }
  else
    let q := viewRing v
    let h := s.me.ringNow q
    let role := ringRole h
    let push := port == 2
    let slot := ringBase h + 2 ^ ringLsize h * (if push then ringTail h else ringHead h).toNat
    let wrong := port == 3 || plain || push != write || (if push then role != 0 && role != 2 else role != 0 && role != 1)
    { rows := ⟨(List.range rows).map fun i => slot + i * pitch, len, some ⟨q, push, role, ringPeer h, ringPq h⟩⟩
      chk := firstOf [geo,
        check (decide (2 ^ ringLsize h < span) && !wrong) (viewExc mj 4 k),
        check wrong (viewExc mj 6 k)]
      peer := if (push && role == 2) || (!push && role == 1) then
          s.coreCheck mj 4 (q.setWidth 6) (BitVec.ofNat 12 (ringPeer h)) else none }

/-- The rows of a resolved source operand (R6, R70, R234). -/
def State.vread (s : State) (r : VRows) : List (List Byte) :=
  r.addrs.map fun a => if r.port.isSome then s.ownBytes a r.len else s.me.vmem.bytes a r.len

/-- The resources of an operand for the interlocks. -/
def VRows.res (r : VRows) : List Res :=
  if r.port.isSome then [] else r.addrs.map fun a => .regs a r.len

/-- The distinct ports of some operands: one slot from each (R70). DESIGN CHOICE: the spec does
not say whether two views bound to one handle in one direction are one port; they are here, so
such a word takes one slot (notes/assumptions/73.md). -/
def portsOf (l : List VRows) : List Port :=
  l.foldl (fun ps r => match r.port with
    | some p => if ps.any (fun x => x.q == p.q && x.push == p.push) then ps else ps ++ [p]
    | none => ps) []

/-- Store-buffer entries that a port needs (R70, R186). -/
def Port.entries (p : Port) (rows : Nat) : Nat :=
  if p.push then (if p.role = 2 then rows + 1 else 0) else if p.role = 1 then 1 else 0

/-- Whether the ports must wait: for slots, or for room in the store buffer (R70, R186). -/
def State.portWaits (s : State) (ps : List Port) (rows : Nat) : Bool :=
  ps.any (fun p => if p.push then ringFree (s.me.ringNow p.q) == 0 else ringFill (s.me.ringNow p.q) == 0) ||
  (let need := (ps.map fun p => p.entries rows).sum
   need != 0 && decide (32 < s.me.sb.length + need))

/-- The ports' handles advance, and pops from a home end send their credit (R70). -/
def State.portsAdvance (s : State) (ps : List Port) : State :=
  ps.foldl (fun s p =>
    if p.push then s.later (.ringTake p.q) 1
    else
      let s := s.later (.ringPop p.q 1) 1
      if p.role = 1 then s.onMe fun c => c.buffer (.send (.core p.peer) (.credit p.pq 1)) false else s) s

/-! ## Results (R94, R156, R236, R250) -/

/-- Scratch rows land one per cc from issue + L, in a composed core too (R156, R237). -/
def State.scrRows (s : State) (L : Nat) (i : Nat) : List (Nat × List Byte) → State
  | [] => s
  | (a, bs) :: l =>
    State.scrRows (s.later (.scr a bs) (L + i)) L (i + 1) l

/-- Register-space rows land one per cc from issue + L, the flags with the last (R94). -/
def State.regRows (s : State) (L : Nat) (i : Nat) (fl : BitVec 5) : List (Nat × List Byte) → State
  | [] => s
  | [(a, bs)] => s.later (.row a bs fl) (L + i)
  | (a, bs) :: l => State.regRows (s.later (.row a bs 0) (L + i)) L (i + 1) fl l

/-- Result rows of an operand (R70, R156). -/
def State.vwrite (s : State) (r : VRows) (rows : List (List Byte)) (L : Nat) (fl : BitVec 5) : State :=
  let l := r.addrs.zip rows
  match r.port with
  | none => s.regRows L 0 fl l
  | some p =>
    let last := L + (l.length - 1)
    let s :=
      if p.role = 2 then
        (l.foldl (fun s (a, bs) => s.onMe fun c => c.buffer (.send (.core p.peer) (.store a bs)) false) s).onMe
          fun c => c.buffer (.send (.core p.peer) (.fill p.pq 1)) true
      else (s.scrRows L 0 l).later (.ringFilled p.q) last
    if fl = 0 then s else s.later (.portFlags fl) last

/-- The V pipe is held (R156). -/
def State.holdPipe (s : State) (n : Nat) : State := s.onMe fun c => { c with vbusy := n }

/-- A result operand: its rows, their bytes, the flags that land with them. -/
structure VOut where
  rows : VRows
  bytes : List (List Byte)
  flags : BitVec 5

/-- The checks of view operands in order: class 0x16, then 0x20 (R364, R387). -/
def vchecks (l : List VOperand) : Option Exc := firstOf [firstOf (l.map (·.chk)), firstOf (l.map (·.peer))]

/-- The bytes of own scratch that port operands read, or write with role 00 (R70). -/
def slotBytes (l : List VRows) : List (Nat × Nat) :=
  l.flatMap fun r => match r.port with
    | some p => if p.push && p.role != 0 then [] else r.addrs.map fun a => (a, r.len)
    | none => []

/-- Whether a vector word's operands must wait: the pipe (R156), and slots that a local load or
store would wait for (R68, R300). -/
def State.slotsHeld (s : State) (srcs dsts : List VRows) : Bool :=
  decide (s.me.vbusy ≠ 0) || s.me.readsHeld (slotBytes srcs) ||
    (!(slotBytes dsts).isEmpty && s.me.writesHeld (slotBytes dsts))

/-- Whether a word that writes rows in scratch waits for the sake of an earlier store of its own
packet (R250, R300). -/
def State.lateStore (s : State) : Bool := s.me.issue.commit && s.me.lagging

/-- A word with ports: it waits at issue for what its packet found, and for slots that no earlier
word of its packet has taken (R70, R134, R205). -/
def portWord (src dst : List Res) (chk : Option Exc) (short wait : Bool) (eff s : State) : Res? :=
  actNow src dst chk (short || (!s.me.issue.commit && (wait || s.me.mHeld dst))) eff s

/-- A vector word: other resources `g`, checks, operands read and written, pipe hold,
latency, extra wait, results, stochastic draws used (R156, R174, R234). -/
def vectorWord (g : List Res) (chk : Option Exc) (srcs dsts : List VRows) (wait : Bool) (hold L : Nat)
    (outs : List VOut) (draws : Nat) (s : State) : Res? :=
  let ps := portsOf (srcs ++ dsts)
  let rows := (dsts.map (·.addrs.length)).foldl max 0
  let src := g ++ srcs.flatMap (·.res)
  let dst := dsts.flatMap (·.res)
  let wait := wait || s.slotsHeld srcs dsts
  let eff := outs.foldl (fun s o => s.vwrite o.rows o.bytes L o.flags) ((s.portsAdvance ps).holdPipe hold)
  let eff := if draws = 0 then eff else eff.later (.srAdv (s.me.csr.srcnt + BitVec.ofNat 32 draws)) 1
  if ps.isEmpty then act src dst chk wait eff s
  else if s.me.ahead.isSome then actOut src dst chk false s s
  else portWord src dst chk (s.portWaits ps rows || (!(slotBytes dsts).isEmpty && s.lateStore)) wait eff s

/-! ## Modes (R96 to R98) -/

/-- The rounding mode of a word: its own, its hint's, or that of `frm` (R96, R97). -/
def State.rmode (s : State) (rm : Option RMode) : RMode :=
  match rm, s.me.issue.hrm with
  | some r, _ => r
  | none, some r => r
  | none, none => (RMode.ofCode (s.me.csr.frm.extractLsb' 0 3)).getD .rne

/-- Whether narrowing to `e5m2` saturates (R96). -/
def State.esat (s : State) : Bool := s.me.csr.frm.getLsbD 7

/-- The rounding of an ordinary word: `rsr` acts as `rne` (R97). -/
def State.rnd (s : State) : Rnd := Rnd.plain ⟨s.rmode none, 0, s.esat⟩

/-- The draw of element k of a word (R98). -/
def State.drawAt (s : State) (k : Nat) : Nat :=
  (srDraw (BitVec.ofNat 32 s.me.id.num) s.me.csr.srseed (s.me.csr.srcnt + BitVec.ofNat 32 k)).toNat

end Sys2Proof.Machine
end

