-- ==== Sys2Proof/Machine/Vector.lean ====
section
/-! DEFINITION. The vector words of majors 0x20 to 0x27 and the immediate forms: element-wise
arithmetic and logic, fused multiply-add, special functions, compare and select
(10_vector.md R238 to R244). -/

namespace Sys2Proof.Machine

open Sys2Proof

/-! ## Element-wise words -/

/-- Pair the elements of rows. -/
def zipRows (f : Nat → Nat → Nat × BitVec 5) (a b : List Nat) : List (Nat × BitVec 5) :=
  (a.zip b).map fun (x, y) => f x y

/-- Bytes and flags of rows of elements. -/
def packRows (w len : Nat) (rows : List (List (Nat × BitVec 5))) : List (List Byte) × BitVec 5 :=
  (rows.map fun r => pack w len (r.map (·.1)),
   rows.foldl (fun f r => r.foldl (fun f x => f ||| x.2) f) 0)

/-- The checks of a word's type: one it accepts, and rows of whole elements (R233, R234). -/
def typeCheck (mj : BitVec 6) (ok : Bool) (t : EType) (b : Nat) : Option Exc :=
  firstOf [check (!ok) (viewExc mj 3 0), check (!rowFits t b) (viewExc mj 1 0)]

/-- An element-wise word of one source (R238, R242). -/
def vmap1 (mj : BitVec 6) (L : Nat) (ok : EType → Bool) (f : EType → Nat → Nat × BitVec 5)
    (vd va : BitVec 5) (t : EType) (s : State) : Res? :=
  let r := s.shapeRows
  let b := s.shapeBytes
  let a := s.vop mj va r b false
  let d := s.vop mj vd r b true
  let out := packRows (widthOf t) b ((s.vread a.rows).map fun x => (unpack (widthOf t) (elemsOf t b) x).map (f t))
  vectorWord [] (firstOf [typeCheck mj (ok t) t b, vchecks [a, d]]) [a.rows] [d.rows] false r L
    [⟨d.rows, out.1, out.2⟩] 0 s

/-- An element-wise word of two sources (R238, R243). -/
def vmap2 (mj : BitVec 6) (L : Nat) (ok : EType → Bool) (f : EType → Nat → Nat → Nat × BitVec 5)
    (vd va vb : BitVec 5) (t : EType) (s : State) : Res? :=
  let r := s.shapeRows
  let n := s.shapeBytes
  let w := widthOf t
  let a := s.vop mj va r n false
  let b := s.vop mj vb r n false
  let d := s.vop mj vd r n true
  let row := fun x => unpack w (elemsOf t n) x
  let out := packRows w n (((s.vread a.rows).zip (s.vread b.rows)).map fun (x, y) => zipRows (f t) (row x) (row y))
  vectorWord [] (firstOf [typeCheck mj (ok t) t n, vchecks [a, b, d]]) [a.rows, b.rows] [d.rows] false r L
    [⟨d.rows, out.1, out.2⟩] 0 s

/-- An element-wise word of three sources (R241, R244). -/
def vmap3 (mj : BitVec 6) (L : Nat) (ok : EType → Bool) (f : EType → Nat → Nat → Nat → Nat × BitVec 5)
    (vd va vb vc : BitVec 5) (t : EType) (s : State) : Res? :=
  let r := s.shapeRows
  let n := s.shapeBytes
  let w := widthOf t
  let a := s.vop mj va r n false
  let b := s.vop mj vb r n false
  let c := s.vop mj vc r n false
  let d := s.vop mj vd r n true
  let row := fun x => unpack w (elemsOf t n) x
  let out := packRows w n
    (((s.vread a.rows).zip ((s.vread b.rows).zip (s.vread c.rows))).map fun (x, y, z) =>
      ((row x).zip ((row y).zip (row z))).map fun (i, j, k) => f t i j k)
  vectorWord [] (firstOf [typeCheck mj (ok t) t n, vchecks [a, b, c, d]]) [a.rows, b.rows, c.rows] [d.rows]
    false r L [⟨d.rows, out.1, out.2⟩] 0 s

/-- An immediate word: vd = vd op imm, the type from vd's entry (R240). -/
def vmapImm (ok : EType → Bool) (f : EType → Nat → Nat → Nat × BitVec 5) (vd : BitVec 5) (imm : BitVec 16)
    (s : State) : Res? :=
  let r := s.shapeRows
  let n := s.shapeBytes
  let k : BitVec 6 := vd.setWidth 6
  match viewType (s.me.view vd.toNat) with
  | none => vectorWord [] (some (viewExc 0x2E 3 k)) [] [] false r 4 [] 0 s
  | some t =>
    let w := widthOf t
    let d := s.vop 0x2E vd r n true true
    let i := match s.me.issue.hw with
      | [] => vectorImm s.esat t false (imm.setWidth 32)
      | p :: _ => vectorImm s.esat t true ((p.setWidth 16) ++ imm)
    let out := packRows w n ((s.vread d.rows).map fun x => (unpack w (elemsOf t n) x).map fun a => f t a i)
    vectorWord []
      (firstOf [check (!ok t) (viewExc 0x2E 3 k), check (!rowFits t n) (viewExc 0x2E 1 k), vchecks [d]])
      [d.rows] [d.rows] false r 4 [⟨d.rows, out.1, out.2⟩] 0 s

/-! ## The classes of types (R238) -/

/-- Every type. -/
def tAll (_ : EType) : Bool := true
/-- F and S. -/
def tFS (t : EType) : Bool := isFloat t || isSigned t
/-- W. -/
def tW : EType → Bool
  | .f32 | .bf16 | .f16 => true
  | _ => false
/-- I. -/
def tI (t : EType) : Bool := !isFloat t
/-- S. -/
def tS (t : EType) : Bool := isSigned t
/-- W and I. -/
def tWI (t : EType) : Bool := tW t || tI t
/-- I of at least 8 bits. -/
def tI8 (t : EType) : Bool := tI t && decide (8 ≤ widthOf t)

/-! ## Elements (R238, R239) -/

/-- An element operation: integers exactly mod 2^w, floats rounded once. -/
def arith (r : Rnd) (fi : Int → Int → Int) (ff : Fmt → Rnd → Nat → Nat → Nat × BitVec 5)
    (t : EType) (a b : Nat) : Nat × BitVec 5 :=
  match fmtOf t with
  | none => (codeOf (widthOf t) (fi (intOf (isSigned t) (widthOf t) a) (intOf (isSigned t) (widthOf t) b)), 0)
  | some f => ff f r a b

/-- a + b. -/
def elemAdd (r : Rnd) : EType → Nat → Nat → Nat × BitVec 5 :=
  arith r (· + ·) fun f r a b => f.add r (f.decode a) (f.decode b)
/-- a − b. -/
def elemSub (r : Rnd) : EType → Nat → Nat → Nat × BitVec 5 :=
  arith r (· - ·) fun f r a b => f.add r (f.decode a) (f.decode b).neg
/-- a × b. -/
def elemMul (r : Rnd) : EType → Nat → Nat → Nat × BitVec 5 :=
  arith r (· * ·) fun f r a b => f.mul r (f.decode a) (f.decode b)
/-- The lesser. -/
def elemMin (r : Rnd) : EType → Nat → Nat → Nat × BitVec 5 := arith r min fun f _ a b => f.maxMin false a b
/-- The greater. -/
def elemMax (r : Rnd) : EType → Nat → Nat → Nat × BitVec 5 := arith r max fun f _ a b => f.maxMin true a b

/-- |a|: a cleared sign bit of a float (R239). -/
def elemAbs (t : EType) (a : Nat) : Nat × BitVec 5 :=
  let w := widthOf t
  if isFloat t then (a % 2 ^ (w - 1), 0)
  else (codeOf w (intOf true w a).natAbs, 0)

/-- −a: an inverted sign bit of a float (R239). -/
def elemNeg (t : EType) (a : Nat) : Nat × BitVec 5 :=
  let w := widthOf t
  if isFloat t then ((a + 2 ^ (w - 1)) % 2 ^ w, 0) else (codeOf w (-(intOf true w a)), 0)

/-- A floating operation of one element of a type in W. -/
def floatOne (g : Fmt → FVal → Nat × BitVec 5) (t : EType) (a : Nat) : Nat × BitVec 5 :=
  match fmtOf t with
  | some f => g f (f.decode a)
  | none => (0, 0)

/-- A bitwise operation on the codes. -/
def bitsOp (f : Nat → Nat → Nat) (t : EType) (a b : Nat) : Nat × BitVec 5 := (f a b % 2 ^ widthOf t, 0)

/-- Shifts by b mod w (R238). -/
def elemShl (t : EType) (a b : Nat) : Nat × BitVec 5 := (a * 2 ^ (b % widthOf t) % 2 ^ widthOf t, 0)
/-- Logical right shift (R238). -/
def elemShr (t : EType) (a b : Nat) : Nat × BitVec 5 := (a / 2 ^ (b % widthOf t), 0)
/-- Arithmetic right shift (R238). -/
def elemSra (t : EType) (a b : Nat) : Nat × BitVec 5 :=
  let w := widthOf t
  (codeOf w (intOf true w a / (2 ^ (b % w) : Nat)), 0)
/-- The high half of the product (R238). -/
def elemMulh (t : EType) (a b : Nat) : Nat × BitVec 5 :=
  let w := widthOf t
  (codeOf w (intOf (isSigned t) w a * intOf (isSigned t) w b / (2 ^ w : Nat)), 0)

/-- ±(a × b) ± c (R241). -/
def elemFma (r : Rnd) (np nc : Bool) (t : EType) (a b c : Nat) : Nat × BitVec 5 :=
  match fmtOf t with
  | some f => f.fma r np nc (f.decode a) (f.decode b) (f.decode c)
  | none =>
    let i := intOf (isSigned t) (widthOf t)
    let p := i a * i b
    (codeOf (widthOf t) ((if np then -p else p) + (if nc then -(i c) else i c)), 0)

/-- Whether a comparison holds, with its flags (R243). -/
def compareElem (c : VCond) (t : EType) (a b : Nat) : Bool × BitVec 5 :=
  match fmtOf t with
  | none =>
    let x := intOf (isSigned t) (widthOf t) a
    let y := intOf (isSigned t) (widthOf t) b
    (match c with
     | .eq => decide (x = y) | .ne => decide (x ≠ y) | .lt => decide (x < y) | .le => decide (x ≤ y)
     | .gt => decide (y < x) | .ge => decide (y ≤ x) | .un => false, 0)
  | some f =>
    let x := f.decode a
    let y := f.decode b
    if x.isNan || y.isNan then
      (c == .ne || c == .un,
       flag (x.isSig || y.isSig || c == .lt || c == .le || c == .gt || c == .ge) nv)
    else
      let l := x.below false y
      let g := y.below false x
      (match c with
       | .eq => !l && !g | .ne => l || g | .lt => l | .le => !g | .gt => g | .ge => !l | .un => false, 0)

/-- The mask of a comparison (R243). -/
def elemCmp (c : VCond) (t : EType) (a b : Nat) : Nat × BitVec 5 :=
  let r := compareElem c t a b
  (if r.1 then 2 ^ widthOf t - 1 else 0, r.2)

/-- Selection by a mask element (R244). -/
def elemSel (t : EType) (m a b : Nat) : Nat × BitVec 5 := ((if m % 2 ^ widthOf t ≠ 0 then a else b), 0)

/-- A special function of a word's type (R242). -/
def elemSpecial (op : Bounded) (t : EType) (a : Nat) : Nat × BitVec 5 :=
  match fmtOf t with
  | some f => special op t f t.code.toNat a
  | none => (0, 0)

/-! ## Major 0x20 (R238, R239) -/

/-- `vadd` (R238). -/
def execVadd (vd va vb : BitVec 5) (t : EType) (s : State) : Res? := vmap2 0x20 4 tAll (elemAdd s.rnd) vd va vb t s
/-- `vsub` (R238). -/
def execVsub (vd va vb : BitVec 5) (t : EType) (s : State) : Res? := vmap2 0x20 4 tAll (elemSub s.rnd) vd va vb t s
/-- `vmul` (R238). -/
def execVmul (vd va vb : BitVec 5) (t : EType) (s : State) : Res? := vmap2 0x20 4 tAll (elemMul s.rnd) vd va vb t s
/-- `vmin` (R238). -/
def execVmin (vd va vb : BitVec 5) (t : EType) (s : State) : Res? := vmap2 0x20 4 tAll (elemMin s.rnd) vd va vb t s
/-- `vmax` (R238). -/
def execVmax (vd va vb : BitVec 5) (t : EType) (s : State) : Res? := vmap2 0x20 4 tAll (elemMax s.rnd) vd va vb t s
/-- `vabs` (R238). -/
def execVabs (vd va : BitVec 5) (t : EType) (s : State) : Res? := vmap1 0x20 4 tFS elemAbs vd va t s
/-- `vneg` (R238). -/
def execVneg (vd va : BitVec 5) (t : EType) (s : State) : Res? := vmap1 0x20 4 tFS elemNeg vd va t s
/-- `vdiv` (R238, R239): 10 cc (R155). -/
def execVdiv (vd va vb : BitVec 5) (t : EType) (s : State) : Res? :=
  vmap2 0x20 10 tW (arith s.rnd (fun a _ => a) fun f r a b => f.div r (f.decode a) (f.decode b)) vd va vb t s
/-- `vsqrt` (R238, R239): 10 cc (R155). -/
def execVsqrt (vd va : BitVec 5) (t : EType) (s : State) : Res? :=
  vmap1 0x20 10 tW (floatOne fun f a => f.sqrt s.rnd a) vd va t s
/-- `vand` (R238). -/
def execVand (vd va vb : BitVec 5) (t : EType) (s : State) : Res? := vmap2 0x20 4 tAll (bitsOp (· &&& ·)) vd va vb t s
/-- `vor` (R238). -/
def execVor (vd va vb : BitVec 5) (t : EType) (s : State) : Res? := vmap2 0x20 4 tAll (bitsOp (· ||| ·)) vd va vb t s
/-- `vxor` (R238). -/
def execVxor (vd va vb : BitVec 5) (t : EType) (s : State) : Res? := vmap2 0x20 4 tAll (bitsOp (· ^^^ ·)) vd va vb t s
/-- `vnot` (R238). -/
def execVnot (vd va : BitVec 5) (t : EType) (s : State) : Res? :=
  vmap1 0x20 4 tAll (fun t a => (2 ^ widthOf t - 1 - a, 0)) vd va t s
/-- `vshl` (R238). -/
def execVshl (vd va vb : BitVec 5) (t : EType) (s : State) : Res? := vmap2 0x20 4 tI elemShl vd va vb t s
/-- `vshr` (R238). -/
def execVshr (vd va vb : BitVec 5) (t : EType) (s : State) : Res? := vmap2 0x20 4 tI elemShr vd va vb t s
/-- `vsra` (R238). -/
def execVsra (vd va vb : BitVec 5) (t : EType) (s : State) : Res? := vmap2 0x20 4 tS elemSra vd va vb t s
/-- `vmulh` (R238). -/
def execVmulh (vd va vb : BitVec 5) (t : EType) (s : State) : Res? := vmap2 0x20 4 tI8 elemMulh vd va vb t s

/-! ## Special functions (R242) -/

/-- `vexp` (R242). -/
def execVexp (vd va : BitVec 5) (t : EType) (s : State) : Res? := vmap1 0x21 10 tW (elemSpecial .exp) vd va t s
/-- `vexp2` (R242). -/
def execVexp2 (vd va : BitVec 5) (t : EType) (s : State) : Res? := vmap1 0x21 10 tW (elemSpecial .exp2) vd va t s
/-- `vlog2` (R242). -/
def execVlog2 (vd va : BitVec 5) (t : EType) (s : State) : Res? := vmap1 0x21 10 tW (elemSpecial .log2) vd va t s
/-- `vrcp` (R242): correctly rounded in every mode. -/
def execVrcp (vd va : BitVec 5) (t : EType) (s : State) : Res? :=
  vmap1 0x21 10 tW (floatOne fun f a => f.rcp s.rnd a) vd va t s
/-- `vrsqrt` (R242): correctly rounded in every mode. -/
def execVrsqrt (vd va : BitVec 5) (t : EType) (s : State) : Res? :=
  vmap1 0x21 10 tW (floatOne fun f a => f.rsqrt s.rnd a) vd va t s
/-- `vtanh` (R242). -/
def execVtanh (vd va : BitVec 5) (t : EType) (s : State) : Res? := vmap1 0x21 10 tW (elemSpecial .tanh) vd va t s
/-- `vsigm` (R242). -/
def execVsigm (vd va : BitVec 5) (t : EType) (s : State) : Res? := vmap1 0x21 10 tW (elemSpecial .sigm) vd va t s

/-! ## Fused multiply-add and select (R241, R244) -/

/-- `vfma` (R241). -/
def execVfma (vd va vb vc : BitVec 5) (t : EType) (s : State) : Res? :=
  vmap3 0x22 5 tWI (elemFma s.rnd false false) vd va vb vc t s
/-- `vfms` (R241). -/
def execVfms (vd va vb vc : BitVec 5) (t : EType) (s : State) : Res? :=
  vmap3 0x23 5 tWI (elemFma s.rnd false true) vd va vb vc t s
/-- `vfnma` (R241). -/
def execVfnma (vd va vb vc : BitVec 5) (t : EType) (s : State) : Res? :=
  vmap3 0x24 5 tWI (elemFma s.rnd true true) vd va vb vc t s
/-- `vfnms` (R241). -/
def execVfnms (vd va vb vc : BitVec 5) (t : EType) (s : State) : Res? :=
  vmap3 0x25 5 tWI (elemFma s.rnd true false) vd va vb vc t s
/-- `vsel` (R244). -/
def execVsel (vd vm vt vf : BitVec 5) (t : EType) (s : State) : Res? := vmap3 0x26 4 tAll elemSel vd vm vt vf t s
/-- `vcmp` (R243). -/
def execVcmp (vd va vb : BitVec 5) (t : EType) (c : VCond) (s : State) : Res? :=
  vmap2 0x27 4 tAll (elemCmp c) vd va vb t s

/-! ## Immediate forms (R240) -/

/-- `vadd` with an immediate (R240). -/
def execVaddImm (vd : BitVec 5) (imm : BitVec 16) (s : State) : Res? := vmapImm tAll (elemAdd s.rnd) vd imm s
/-- `vsub` with an immediate (R240). -/
def execVsubImm (vd : BitVec 5) (imm : BitVec 16) (s : State) : Res? := vmapImm tAll (elemSub s.rnd) vd imm s
/-- `vmul` with an immediate (R240). -/
def execVmulImm (vd : BitVec 5) (imm : BitVec 16) (s : State) : Res? := vmapImm tAll (elemMul s.rnd) vd imm s
/-- `vmin` with an immediate (R240). -/
def execVminImm (vd : BitVec 5) (imm : BitVec 16) (s : State) : Res? := vmapImm tAll (elemMin s.rnd) vd imm s
/-- `vmax` with an immediate (R240). -/
def execVmaxImm (vd : BitVec 5) (imm : BitVec 16) (s : State) : Res? := vmapImm tAll (elemMax s.rnd) vd imm s
/-- `vand` with an immediate (R240). -/
def execVandImm (vd : BitVec 5) (imm : BitVec 16) (s : State) : Res? := vmapImm tAll (bitsOp (· &&& ·)) vd imm s
/-- `vor` with an immediate (R240). -/
def execVorImm (vd : BitVec 5) (imm : BitVec 16) (s : State) : Res? := vmapImm tAll (bitsOp (· ||| ·)) vd imm s
/-- `vxor` with an immediate (R240). -/
def execVxorImm (vd : BitVec 5) (imm : BitVec 16) (s : State) : Res? := vmapImm tAll (bitsOp (· ^^^ ·)) vd imm s
/-- `vshl` with an immediate (R240). -/
def execVshlImm (vd : BitVec 5) (imm : BitVec 16) (s : State) : Res? := vmapImm tI elemShl vd imm s
/-- `vshr` with an immediate (R240). -/
def execVshrImm (vd : BitVec 5) (imm : BitVec 16) (s : State) : Res? := vmapImm tI elemShr vd imm s
/-- `vsra` with an immediate (R240). -/
def execVsraImm (vd : BitVec 5) (imm : BitVec 16) (s : State) : Res? := vmapImm tS elemSra vd imm s

/-- `vsplat` with an immediate (R240): vd is only written. -/
def execVsplatImm (vd : BitVec 5) (imm : BitVec 16) (s : State) : Res? :=
  let r := s.shapeRows
  let n := s.shapeBytes
  let k : BitVec 6 := vd.setWidth 6
  match viewType (s.me.view vd.toNat) with
  | none => vectorWord [] (some (viewExc 0x2E 3 k)) [] [] false r 4 [] 0 s
  | some t =>
    let w := widthOf t
    let d := s.vop 0x2E vd r n true
    let i := match s.me.issue.hw with
      | [] => vectorImm s.esat t false (imm.setWidth 32)
      | p :: _ => vectorImm s.esat t true ((p.setWidth 16) ++ imm)
    let row := pack w n (List.replicate (elemsOf t n) i)
    vectorWord [] (firstOf [check (!rowFits t n) (viewExc 0x2E 1 k), vchecks [d]])
      [] [d.rows] false r 4 [⟨d.rows, List.replicate r row, 0⟩] 0 s

/-- `vshape` (R254): the CSR is written 1 cc after issue; the pipe is held 1 cc. -/
def execVshape (w : BitVec 6) (r : BitVec 4) (s : State) : Res? :=
  act [] [] none (decide (s.me.vbusy ≠ 0))
    ((s.holdPipe 1).later (.csrSet .vshape ((w ++ r).setWidth 64)) 1) s

end Sys2Proof.Machine
end

