-- ==== Sys2Proof/Machine/VectorMove.lean ====
section
/-! DEFINITION. Conversions, quantisation, reductions, data movement, view memory and
views (10_vector.md R245 to R255; 04_number_formats.md R104, R113). -/

namespace Sys2Proof.Machine

open Sys2Proof

/-! ## Conversion (R235, R251) -/

/-- Bytes of a row of C elements of a type. -/
def rowBytes (t : EType) (c : Nat) : Nat := c * widthOf t / 8

/-- Whether C elements of a type are whole bytes, and whole 3-byte groups for 6-bit types
(R235). -/
def rowWhole (t : EType) (c : Nat) : Bool :=
  c * widthOf t % 8 == 0 && (widthOf t != 6 || c % 4 == 0)

/-- Rows of elements with their position in row-major order, each given the word's
rounding and, under `rsr`, the draw of its position (R98, R251). -/
def State.mapDrawn (s : State) (rm : RMode) (c : Nat) (f : Rnd → Nat → Nat × BitVec 5)
    (rows : List (List Nat)) : List (List (Nat × BitVec 5)) :=
  (rows.zip (List.range rows.length)).map fun (row, i) =>
    (row.zip (List.range c)).map fun (x, j) =>
      f ⟨rm, if rm = .rsr then s.drawAt (i * c + j) else 0, s.esat⟩ x

/-- `vcvt` (R251): `srcnt` advances by one for each element of an rsr conversion. -/
def execVcvt (vd va : BitVec 5) (dt st : EType) (rm : Option RMode) (sat : Bool) (s : State) : Res? :=
  let r := s.shapeRows
  let b := s.shapeBytes
  let wide := if widthOf st ≤ widthOf dt then dt else st
  let c := elemsOf wide b
  let a := s.vop 0x28 va r (rowBytes st c) false
  let d := s.vop 0x28 vd r (rowBytes dt c) true
  let m := s.rmode rm
  let els := (s.vread a.rows).map fun x => unpack (widthOf st) c x
  let out := packRows (widthOf dt) (rowBytes dt c) (s.mapDrawn m c (fun q x => convertElem q sat dt st x) els)
  let chk := firstOf [
    check (!rowFits wide b) (viewExc 0x28 1 0),
    check (!rowWhole dt c || !rowWhole st c) (viewExc 0x28 5 0),
    vchecks [a, d]]
  vectorWord [] chk [a.rows] [d.rows] false r 4 [⟨d.rows, out.1, out.2⟩]
    (if m = .rsr ∧ rsrPair dt st then r * c else 0) s

/-! ## Quantisation (R252, R253) -/

/-- Whether a · 2^x is at least b · 2^y. -/
def atLeast (a : Nat) (x : Int) (b : Nat) (y : Int) : Bool :=
  let base := min x y
  decide (b * 2 ^ (y - base).toNat ≤ a * 2 ^ (x - base).toNat)

/-- The smallest E3M5 code whose value is at least m · 2^e / 6, or 0xFF (R252). -/
def scaleCode (m : Nat) (e : Int) : Nat :=
  ((List.range 256).find? fun c => c ≠ 0 && atLeast (6 * (e3m5 c).1) (e3m5 c).2 m e).getD 0xFF

/-- The scale code of a block (R252). -/
def blockCode (l : List FVal) : Nat :=
  let big := l.foldl (fun (q : Nat × Int) v => match v with
    | .fin _ m e => if m ≠ 0 ∧ (q.1 = 0 ∨ atLeast m e q.1 q.2) then (m, e) else q
    | _ => q) (0, 0)
  if l.any FVal.isInf then 0xFF else if big.1 = 0 then 0 else scaleCode big.1 big.2

/-- An element quantised under its block's code (R252). -/
def quantElem (code : Nat) (r : Rnd) (v : FVal) : Nat × BitVec 5 :=
  match v with
  | .nan _ _ _ => (0, nv)
  | .inf s => if code = 0 then (0, 0) else (fmtE2m1.maxBits s, of_ ||| nx)
  | .fin s m e =>
    if code = 0 then (0, 0)
    else fmtE2m1.roundDiv r s m (e3m5 code).1 (e - (e3m5 code).2)

/-- `vqnt` (R252). -/
def execVqnt (vd va vs : BitVec 5) (rm : Option RMode) (s : State) : Res? :=
  let r := s.shapeRows
  let b := s.shapeBytes
  let k : BitVec 6 := va.setWidth 6
  match (viewType (s.me.view va.toNat)).bind fun t => if tW t then (fmtOf t).map fun f => (t, f) else none with
  | none => vectorWord [] (some (viewExc 0x29 3 k)) [] [] false r 4 [] 0 s
  | some (t, f) =>
    let c := elemsOf t b
    let a := s.vop 0x29 va r b false
    let d := s.vop 0x29 vd r (c / 2) true
    let sc := s.vop 0x29 vs r (c / 8) true
    let m := s.rmode rm
    let vals := (s.vread a.rows).map fun x => (unpack (widthOf t) c x).map f.decode
    let codes := vals.map fun row => (chunks 8 row (c / 8)).map blockCode
    let draw := fun i j => (⟨m, if m = .rsr then s.drawAt (i * c + j) else 0, s.esat⟩ : Rnd)
    let out := packRows 4 (c / 2) (((vals.zip codes).zip (List.range r)).map fun ((row, cs), i) =>
      (row.zip (List.range c)).map fun (x, j) => quantElem (cs.getD (j / 8) 0) (draw i j) x)
    vectorWord [] (firstOf [check (c % 8 != 0) (viewExc 0x29 5 0), vchecks [a, d, sc]])
      [a.rows] [d.rows, sc.rows] false r 4
      [⟨d.rows, out.1, out.2⟩, ⟨sc.rows, codes.map fun cs => cs.map (BitVec.ofNat 8), 0⟩]
      (if m = .rsr then r * c else 0) s

/-- An element times the value of its scale code, exactly (R253). -/
def dequantElem (f : Fmt) (code x : Nat) : Nat × BitVec 5 :=
  match fmtE2m1.decode x with
  | .fin s m e => f.round ⟨.rne, 0, true⟩ s (m * (e3m5 code).1) (e + (e3m5 code).2) false
  | _ => (0, 0)

/-- `vdqnt` (R253): the elements are exact and raise no flag; a last block of fewer than eight
elements has a scale byte of its own. -/
def execVdqnt (vd va vs : BitVec 5) (dt : EType) (s : State) : Res? :=
  let r := s.shapeRows
  let b := s.shapeBytes
  let c := elemsOf dt b
  let a := s.vop 0x29 va r (c / 2) false
  let blocks := (c + 7) / 8
  let sc := s.vop 0x29 vs r blocks false
  let d := s.vop 0x29 vd r b true
  let f := (fmtOf dt).getD fmt32
  let out := packRows (widthOf dt) b (((s.vread a.rows).zip (s.vread sc.rows)).map fun (x, y) =>
    ((unpack 4 c x).zip (List.range c)).map fun (e, j) => dequantElem f (y.getD (j / 8) 0).toNat e)
  let chk := firstOf [
    check (!tW dt) (viewExc 0x29 3 0),
    check (viewType (s.me.view va.toNat) != some .e2m1) (viewExc 0x29 3 (va.setWidth 6)),
    check (!rowWhole .e2m1 c) (viewExc 0x29 5 0),
    vchecks [a, sc, d]]
  vectorWord [] chk [a.rows, sc.rows] [d.rows] false r 4 [⟨d.rows, out.1, 0⟩] 0 s

/-! ## Reductions (R113, R245) -/

/-- One level of the tree: neighbours combine, an absent side passes the other (R113). -/
def pairUp {α : Type} (f : α → α → α) : List α → List α
  | a :: b :: l => f a b :: pairUp f l
  | l => l

/-- The pairwise tree of at most 2^n inputs (R113). -/
def treeFold {α : Type} (f : α → α → α) : Nat → List α → List α
  | 0, l => l
  | n + 1, l => treeFold f n (pairUp f l)

/-- The reduction of some elements of a type, a maximum or a sum (R113, R245). A maximum is
exact: it goes back to the source type as it is, an infinity too. -/
def reduceElems (mx : Bool) (r : Rnd) (t : EType) (l : List Nat) : Nat × BitVec 5 :=
  let w := widthOf t
  match fmtOf t with
  | none =>
    let l := l.map (intOf (isSigned t) w)
    (codeOf w (if mx then ((treeFold max 8 l).head?).getD 0 else l.sum), 0)
  | some f =>
    let wide := l.map fun v =>
      if f = fmt32 then (v, 0) else fmt32.convert ⟨.rne, 0, true⟩ f.mb false (f.decode v)
    let comb := fun (a b : Nat × BitVec 5) =>
      let c := if mx then fmt32.maxMin true a.1 b.1 else fmt32.add r (fmt32.decode a.1) (fmt32.decode b.1)
      (c.1, a.2 ||| b.2 ||| c.2)
    let v := ((treeFold comb 8 wide).head?).getD (0, 0)
    if f = fmt32 then v
    else
      let c := f.convert r fmt32.mb mx (fmt32.decode v.1)
      (c.1, v.2 ||| c.2)

/-- A reduction of each row to every element of the row (R245). -/
def rowReduce (mx : Bool) (vd va : BitVec 5) (t : EType) (s : State) : Res? :=
  let r := s.shapeRows
  let b := s.shapeBytes
  let w := widthOf t
  let c := elemsOf t b
  let a := s.vop 0x2A va r b false
  let d := s.vop 0x2A vd r b true
  let out := packRows w b ((s.vread a.rows).map fun x => List.replicate c (reduceElems mx s.rnd t (unpack w c x)))
  vectorWord [] (firstOf [typeCheck 0x2A (decide (16 ≤ w)) t b, vchecks [a, d]]) [a.rows] [d.rows] false r 6
    [⟨d.rows, out.1, out.2⟩] 0 s

/-- A reduction of each column into row 0 (R245). -/
def columnReduce (mx : Bool) (vd va : BitVec 5) (t : EType) (s : State) : Res? :=
  let r := s.shapeRows
  let b := s.shapeBytes
  let w := widthOf t
  let c := elemsOf t b
  let a := s.vop 0x2A va r b false
  let d := s.vop 0x2A vd 1 b true
  let els := (s.vread a.rows).map fun x => unpack w c x
  let row := (List.range c).map fun j => reduceElems mx s.rnd t (els.map fun e => e.getD j 0)
  let out := packRows w b [row]
  vectorWord [] (firstOf [typeCheck 0x2A true t b, vchecks [a, d]]) [a.rows] [d.rows] false 1 6
    [⟨d.rows, out.1, out.2⟩] 0 s

/-- `vrsum` (R245). -/
def execVrsum (vd va : BitVec 5) (t : EType) (s : State) : Res? := rowReduce false vd va t s
/-- `vcsum` (R245). -/
def execVcsum (vd va : BitVec 5) (t : EType) (s : State) : Res? := columnReduce false vd va t s
/-- `vrmax` (R245). -/
def execVrmax (vd va : BitVec 5) (t : EType) (s : State) : Res? := rowReduce true vd va t s
/-- `vcmax` (R245). -/
def execVcmax (vd va : BitVec 5) (t : EType) (s : State) : Res? := columnReduce true vd va t s

/-! ## Data movement (R246, R247) -/

/-- `vmov` (R246). -/
def execVmov (vd va : BitVec 5) (s : State) : Res? :=
  let r := s.shapeRows
  let b := s.shapeBytes
  let a := s.vop 0x2B va r b false
  let d := s.vop 0x2B vd r b true
  vectorWord [] (vchecks [a, d]) [a.rows] [d.rows] false r 4 [⟨d.rows, s.vread a.rows, 0⟩] 0 s

/-- `vbcast` (R246). -/
def execVbcast (vd va : BitVec 5) (s : State) : Res? :=
  let r := s.shapeRows
  let b := s.shapeBytes
  let a := s.vop 0x2B va 1 b false
  let d := s.vop 0x2B vd r b true
  vectorWord [] (vchecks [a, d]) [a.rows] [d.rows] false r 4
    [⟨d.rows, List.replicate r ((s.vread a.rows).getD 0 []), 0⟩] 0 s

/-- `vtrn` (R246): a square tile of whole-byte elements. -/
def execVtrn (vd va : BitVec 5) (t : EType) (s : State) : Res? :=
  let r := s.shapeRows
  let b := s.shapeBytes
  let w := widthOf t
  let c := elemsOf t b
  let a := s.vop 0x2B va r b false
  let d := s.vop 0x2B vd r b true
  let els := (s.vread a.rows).map fun x => unpack w c x
  let rows := (List.range r).map fun i => pack w b (els.map fun e => e.getD i 0)
  vectorWord []
    (firstOf [typeCheck 0x2B (decide (w % 8 = 0)) t b, check (c != r) (viewExc 0x2B 5 0), vchecks [a, d]])
    [a.rows] [d.rows] false r 6 [⟨d.rows, rows, 0⟩] 0 s

/-- `vext` (R247). -/
def execVext (vd va vb : BitVec 5) (t : EType) (s : State) : Res? :=
  let r := s.shapeRows
  let n := s.shapeBytes
  let w := widthOf t
  let c := elemsOf t n
  let a := s.vop 0x2B va r n false
  let b := s.vop 0x2B vb r n false
  let d := s.vop 0x2B vd r n true
  let rows := ((s.vread a.rows).zip (s.vread b.rows)).map fun (x, y) =>
    let e := unpack w c x
    pack w n ((unpack w c y).map fun k => e.getD (k % c) 0)
  vectorWord [] (firstOf [typeCheck 0x2B true t n, vchecks [a, b, d]]) [a.rows, b.rows] [d.rows] false r 4
    [⟨d.rows, rows, 0⟩] 0 s

/-- `vins` (R247): vd is read and written. -/
def execVins (vd va vb : BitVec 5) (t : EType) (s : State) : Res? :=
  let r := s.shapeRows
  let n := s.shapeBytes
  let w := widthOf t
  let c := elemsOf t n
  let a := s.vop 0x2B va r n false
  let b := s.vop 0x2B vb r n false
  let d := s.vop 0x2B vd r n true true
  let rows := ((s.vread a.rows).zip ((s.vread b.rows).zip (s.vread d.rows))).map fun (x, y, z) =>
    pack w n (((unpack w c x).zip (unpack w c y)).foldl (fun l (v, k) => setAt l (k % c) v) (unpack w c z))
  vectorWord [] (firstOf [typeCheck 0x2B true t n, vchecks [a, b, d]]) [a.rows, b.rows, d.rows] [d.rows]
    false r 4 [⟨d.rows, rows, 0⟩] 0 s

/-- The element that `vsplat` draws from a register (R247). -/
def splatElem (esat : Bool) (t : EType) (a : BitVec 64) : Nat × BitVec 5 :=
  match fmtOf t with
  | none => (a.toNat % 2 ^ widthOf t, 0)
  | some f =>
    match fmt32.decode (a.setWidth 32).toNat with
    | .nan _ _ sg => (f.nanBits, flag sg nv)
    | v => f.convert ⟨.rne, 0, esat⟩ fmt32.mb (f == fmt32) v

/-- `vsplat` (R247). -/
def execVsplat (vd g : BitVec 5) (t : EType) (s : State) : Res? :=
  let r := s.shapeRows
  let n := s.shapeBytes
  let ga : BitVec 6 := g.setWidth 6
  let d := s.vop 0x2B vd r n true
  let e := splatElem s.esat t (s.me.gr ga)
  let row := pack (widthOf t) n (List.replicate (elemsOf t n) e.1)
  vectorWord [.g ga] (firstOf [typeCheck 0x2B true t n, vchecks [d]]) [] [d.rows] false r 4
    [⟨d.rows, List.replicate r row, e.2⟩] 0 s

/-! ## View memory (R248 to R250) -/

/-- The spaces of `vld`, `vst`, `vgat` and `vsct` (R248, R249). -/
def ownSpace : Accepts := ⟨true, false, false, false⟩

/-- The check of a stride (R248, R382): class 0x18 whatever the address. -/
def strideCheck (r bytes : Nat) (gb : BitVec 6) (b : BitVec 64) : Option Exc :=
  check (b.toNat % 4 != 0 || (decide (1 < r) && decide (b.toNat < bytes))) (operandExc 0x2C 2 gb b)

/-- A word that writes rows of scratch (R236, R250): it waits for the pipe, its ports and
the bytes, and while a translation is unresolved; in run-ahead the rows are suppressed. -/
def scratchRowsWord (g : List Res) (chk : Option Exc) (src : List VRows) (rs : List (Nat × Nat)) (L : Nat)
    (rows : List (List (Nat × List Byte))) (s : State) : Res? :=
  let ps := portsOf src
  let wait := s.slotsHeld src [] || s.me.writesHeld rs
  let put := fun (s : State) (d : Nat) (l : List (Nat × List Byte)) =>
    l.foldl (fun s (a, bs) => s.later (.scr a bs) d) s
  let eff := (rows.zip (List.range rows.length)).foldl (fun s (l, i) => put s (L + i) l)
    ((s.portsAdvance ps).holdPipe s.shapeRows)
  let reads := g ++ src.flatMap (·.res)
  let writes := rs.map fun (o, n) => Res.scr o n
  if s.me.ahead.isSome then actOut reads [] chk false s s
  else portWord reads writes chk (s.portWaits ps 0 || s.lateStore) wait eff s

/-- The address check of a strided word, made when its stride has passed (R248, R364). -/
def State.rowsLocate (s : State) (ga gb : BitVec 6) : Except Exc Loc :=
  let r := s.shapeRows
  let n := s.shapeBytes
  s.locate 0x2C ga ownSpace (s.me.gr ga) ((r - 1) * (s.me.gr gb).toNat + n) 4

/-- Rows of scratch from an offset. -/
def rowRanges (off stride r n : Nat) : List (Nat × Nat) := (List.range r).map fun i => (off + i * stride, n)

/-- `vld` (R248). -/
def execVld (vd ga gb : BitVec 5) (s : State) : Res? :=
  let r := s.shapeRows
  let n := s.shapeBytes
  let a : BitVec 6 := ga.setWidth 6
  let b : BitVec 6 := gb.setWidth 6
  let d := s.vop 0x2C vd r n true
  let g : List Res := [.g a, .g b]
  let stride := strideCheck r n b (s.me.gr b)
  match stride, s.rowsLocate a b with
  | some e, _ => vectorWord g (firstOf [d.chk, some e]) [] [d.rows] false r 6 [] 0 s
  | none, .error e => vectorWord g (some e) [] [d.rows] false r 6 [] 0 s
  | none, .ok l =>
    let rs := rowRanges l.off (s.me.gr b).toNat r n
    vectorWord (g ++ rs.map fun (o, k) => Res.scr o k) (vchecks [d]) [] [d.rows] (s.me.readsHeld rs) r 6
      [⟨d.rows, rs.map fun (o, k) => s.ownBytes o k, 0⟩] 0 s

/-- `vst` (R248, R250). -/
def execVst (vd ga gb : BitVec 5) (s : State) : Res? :=
  let r := s.shapeRows
  let n := s.shapeBytes
  let a : BitVec 6 := ga.setWidth 6
  let b : BitVec 6 := gb.setWidth 6
  let d := s.vop 0x2C vd r n false
  let g : List Res := [.g a, .g b]
  let stride := strideCheck r n b (s.me.gr b)
  match stride, s.rowsLocate a b with
  | some e, _ => scratchRowsWord g (firstOf [d.chk, some e]) [d.rows] [] 6 [] s
  | none, .error e => scratchRowsWord g (some e) [d.rows] [] 6 [] s
  | none, .ok l =>
    let rs := rowRanges l.off (s.me.gr b).toNat r n
    scratchRowsWord g (vchecks [d]) [d.rows] rs 6
      ((rs.zip (s.vread d.rows)).map fun ((o, _), bs) => [(o, bs)]) s

/-- The first element address outside scratch (R249, R382). -/
def State.elementExc (s : State) (ga : BitVec 6) (sz : Nat) (as : List Nat) : Option Exc :=
  let top := if s.me.composed then s.me.compN * 0x6B000 else s.me.scrSize
  let sub : BitVec 8 := if s.me.composed then 6 else 4
  (as.find? fun x => decide (top < x + sz)).map fun x => addrExc 0x2C sub ga (BitVec.ofNat 64 x)

/-- The base of gathered elements: a space-000 address aligned to the element (R249). -/
def State.elementBase (s : State) (ga : BitVec 6) (sz : Nat) : Option Exc :=
  match s.locate 0x2C ga ownSpace (s.me.gr ga) 0 sz with
  | .error e => if e.sub.toNat ≤ 3 then some e else none
  | .ok _ => none

/-- Addresses of the elements that an index view names, row by row (R249). -/
def State.elementAddrs (s : State) (base sz w c : Nat) (ix : VRows) : List (List Nat) :=
  (s.vread ix).map fun row => (unpack w c row).map fun k => base + k * sz

/-- The type check of the gathering words (R249). -/
def gatherType (t : EType) (n : Nat) : Option Exc :=
  typeCheck 0x2C (decide (16 ≤ widthOf t)) t n

/-- `vgat` (R249). -/
def execVgat (vd ga vb : BitVec 5) (t : EType) (s : State) : Res? :=
  let r := s.shapeRows
  let n := s.shapeBytes
  let w := widthOf t
  let sz := w / 8
  let c := elemsOf t n
  let a : BitVec 6 := ga.setWidth 6
  let ix := s.vop 0x2C vb r n false
  let d := s.vop 0x2C vd r n true
  let as := s.elementAddrs (s.me.gr a).toNat sz w c ix.rows
  let chk := firstOf [gatherType t n, ix.chk, s.elementBase a sz, s.elementExc a sz as.flatten, d.chk, ix.peer, d.peer]
  let rs := as.flatten.map fun x => (x, sz)
  vectorWord (.g a :: (if chk.isSome then [] else rs.map fun (o, k) => Res.scr o k)) chk [ix.rows] [d.rows]
    (s.me.readsHeld rs) r 8 [⟨d.rows, as.map fun row => row.flatMap fun x => s.ownBytes x sz, 0⟩] 0 s

/-- `vsct` (R249, R250). -/
def execVsct (vd ga vb : BitVec 5) (t : EType) (s : State) : Res? :=
  let r := s.shapeRows
  let n := s.shapeBytes
  let w := widthOf t
  let sz := w / 8
  let c := elemsOf t n
  let a : BitVec 6 := ga.setWidth 6
  let ix := s.vop 0x2C vb r n false
  let d := s.vop 0x2C vd r n false
  let as := s.elementAddrs (s.me.gr a).toNat sz w c ix.rows
  let chk := firstOf [gatherType t n, ix.chk, s.elementBase a sz, s.elementExc a sz as.flatten, d.chk, ix.peer, d.peer]
  let rs := if chk.isSome then [] else as.flatten.map fun x => (x, sz)
  scratchRowsWord [.g a] chk [ix.rows, d.rows] rs 8
    ((as.zip (s.vread d.rows)).map fun (row, bs) => row.zip (chunks sz bs c)) s

/-! ## Views (R255) -/

/-- The place of a view in the view table (R59). -/
def viewIndex (k : ViewKind) (n : BitVec 5) : Nat :=
  match k with
  | .v => n.toNat
  | .m => 32 + n.toNat % 8
  | .a => 40 + n.toNat % 8

/-- `vview` from an image (R255, R382). -/
def execVviewImage (vd ga : BitVec 5) (k : ViewKind) (s : State) : Res? :=
  let a : BitVec 6 := ga.setWidth 6
  let o := (s.me.gr a).toNat
  let size := if s.me.composed then s.me.compN * 0x6B000 else s.me.scrSize
  let img := BitVec.ofNat 128 (s.ownNat o 16)
  let inside := decide (o % 16 = 0) && decide (o + 16 ≤ size)
  let held := inside && s.me.readsHeld [(o, 16)]
  let chk := firstOf [
    check (o % 16 != 0) (addrExc 0x2D 3 a (s.me.gr a)),
    check (decide (size < o + 16)) (addrExc 0x2D 4 a (s.me.gr a)),
    check (!held && (!viewReservedZero img || viewPort img == 3 || (viewPort img != 0 && k != .v)))
      (operandExc 0x2D 1 a (img.setWidth 64))]
  act (.g a :: (if inside then [.scr o 16] else [])) [] chk
    (decide (s.me.vbusy ≠ 0) || held)
    ((s.holdPipe 1).later (.view (viewIndex k vd) img) 1) s

/-- `vview` from registers (R255, R382). -/
def execVview (vd ga gb : BitVec 5) (t : EType) (s : State) : Res? :=
  let a : BitVec 6 := ga.setWidth 6
  let b : BitVec 6 := gb.setWidth 6
  let x := s.me.gr a
  let y := s.me.gr b
  let chk := firstOf [
    check (x.extractLsb' 17 47 != 0) (operandExc 0x2D 1 a x),
    check (y.extractLsb' 16 48 != 0) (operandExc 0x2D 1 b y)]
  let e := x.setWidth 128 ||| (y.setWidth 128 <<< 32) ||| (t.code.setWidth 128 <<< 59)
  act [.g a, .g b] [] chk (decide (s.me.vbusy ≠ 0)) ((s.holdPipe 1).later (.view vd.toNat e) 1) s

end Sys2Proof.Machine
end

