-- ==== Sys2Proof/Machine/MatrixData.lean ====
section
/-! DEFINITION. Tensor descriptors, operand elements and the arithmetic of the joint array
(04_number_formats.md R104 to R112; 11_matrix.md R256, R257, R266 to R269, R272;
21_faults_instructions.md R378). -/

namespace Sys2Proof.Machine

open Sys2Proof

/-! ## Tensor descriptors (R256, R257) -/

/-- Dword i of a descriptor. -/
def tdDword (d : BitVec 512) (i : Nat) : BitVec 64 := d.extractLsb' (64 * i) 64
/-- The element type; none for a code R85 leaves reserved. -/
def tdType (d : BitVec 512) : Option EType := EType.ofCode (d.extractLsb' 0 5)
/-- Whether code 0b1000 of `e2m1` is an escape. -/
def tdEsc (d : BitVec 512) : Bool := d.getLsbD 8
/-- The sparse field. -/
def tdSparse (d : BitVec 512) : Nat := (d.extractLsb' 12 2).toNat
/-- N of N:12, 0 for a dense tensor. -/
def tdN (d : BitVec 512) : Nat := if tdSparse d = 0 then 0 else 2 + 2 * tdSparse d
/-- The tile-view field. -/
def tdTv (d : BitVec 512) : Nat := (d.extractLsb' 16 4).toNat
/-- Rows stored. -/
def tdRows (d : BitVec 512) : Nat := (d.extractLsb' 64 32).toNat
/-- Logical K. -/
def tdCols (d : BitVec 512) : Nat := (d.extractLsb' 96 32).toNat
/-- Bytes from row to row. -/
def tdPitch (d : BitVec 512) : Nat := (d.extractLsb' 128 32).toNat
/-- Address of row 0. -/
def tdBase (d : BitVec 512) : Nat := (tdDword d 3).toNat
/-- Block-scale base. -/
def tdBscale (d : BitVec 512) : Nat := (tdDword d 4).toNat
/-- Band-scale base. -/
def tdBand (d : BitVec 512) : Nat := (tdDword d 5).toNat
/-- Side-list base. -/
def tdSide (d : BitVec 512) : Nat := (tdDword d 6).toNat
/-- Metadata base. -/
def tdMeta (d : BitVec 512) : Nat := (tdDword d 7).toNat

/-- The conditions of `tidset` (R258). -/
def tdOk (d : BitVec 512) : Bool :=
  d.extractLsb' 20 44 == 0 && d.extractLsb' 14 2 == 0 && d.extractLsb' 9 3 == 0 && d.extractLsb' 5 3 == 0 &&
  d.extractLsb' 160 32 == 0 && (tdType d).isSome && (tdTv d == 0 || decide (8 ≤ tdTv d))

/-- Whether the type is `e2m1`. -/
def tdFp4 (d : BitVec 512) : Bool := tdType d == some .e2m1

/-- n divided by k, rounded up. -/
def ceilDiv (n k : Nat) : Nat := (n + k - 1) / k

/-- Positions of a row before the padding of `e2m1` (R108, R257). -/
def tdKept (d : BitVec 512) : Nat := if tdN d = 0 then tdCols d else ceilDiv (tdCols d) 12 * tdN d

/-- Stored elements per row (R257). -/
def tdStored (d : BitVec 512) : Nat := if tdFp4 d then ceilDiv (tdKept d) 8 * 8 else tdKept d

/-- Bytes of n stored elements of a type (R257): whole groups for 6-bit types. Half a byte at the end
of an odd count of 4-bit elements takes a whole one, which is the model's choice
(notes/assumptions/86.md). -/
def storedBytes (t : EType) (n : Nat) : Nat :=
  if widthOf t = 6 then 3 * ceilDiv n 4 else ceilDiv (n * widthOf t) 8

/-- Row bytes (R257); of a reserved type code, which only a trap-level store leaves, those of `i8`,
which is the model's choice (notes/assumptions/86.md). -/
def tdRowBytes (d : BitVec 512) : Nat := storedBytes ((tdType d).getD .i8) (tdStored d)

/-- Block scales of a row (R257). -/
def tdScales (d : BitVec 512) : Nat := if tdFp4 d then ceilDiv (tdStored d) 8 else 0

/-- Metadata bytes of a row (R257). -/
def tdMetaBytes (d : BitVec 512) : Nat := ceilDiv (tdCols d) 12 * tdN d / 2

/-! ## Element values (R88, R105, R110) -/

/-- The exact value of an operand element: a quieted `f32` NaN, an infinity, or v · 2^e. -/
inductive MVal
  | nan (bits : Nat)
  | inf (s : Bool)
  | num (v : Int) (e : Int)
  deriving DecidableEq, Repr

/-- Zero. -/
def MVal.zero : MVal := .num 0 0

/-- The value of a floating pattern (R88, R110). -/
def MVal.ofFloat (f : Fmt) (v : Nat) : MVal :=
  match f.decode v with
  | .nan s m _ => .nan (fmt32.quiet f.mb s m).1
  | .inf s => .inf s
  | .fin s m e => .num (if s then -(m : Int) else m) e

/-- The value of an element code: an integer is read by the word's signedness (R266). -/
def MVal.ofCode (t : EType) (signed : Bool) (v : Nat) : MVal :=
  match fmtOf t with
  | some f => MVal.ofFloat f v
  | none => .num (intOf signed (widthOf t) v) 0

/-- The default `f32` NaN (R90). -/
def dnan : MVal := .nan fmt32.nanBits

/-- An exact product (R110). -/
def MVal.mul (a b : MVal) : MVal :=
  match a, b with
  | .nan x, _ => .nan x
  | _, .nan y => .nan y
  | .inf s, .inf t => .inf (s != t)
  | .inf s, .num v _ => if v = 0 then dnan else .inf (s != decide (v < 0))
  | .num v _, .inf s => if v = 0 then dnan else .inf (s != decide (v < 0))
  | .num v e, .num w f => .num (v * w) (e + f)

/-- An exact sum (R110). -/
def MVal.add (a b : MVal) : MVal :=
  match a, b with
  | .nan x, _ => .nan x
  | _, .nan y => .nan y
  | .inf s, .inf t => if s = t then .inf s else dnan
  | .inf s, .num _ _ => .inf s
  | .num _ _, .inf s => .inf s
  | .num v e, .num w f =>
    let base := min e f
    .num (v * 2 ^ (e - base).toNat + w * 2 ^ (f - base).toNat) base

/-- The first NaN of some values. -/
def MVal.firstNan (l : List MVal) : Option MVal :=
  l.find? fun v => match v with | .nan _ => true | _ => false

/-- The exact sum of values: the first NaN, if any (R267). -/
def exactSum (l : List MVal) : MVal := (MVal.firstNan l).getD (l.foldl MVal.add MVal.zero)

/-- The exact sum of products of a K-group: the first NaN in increasing k, A before B, if
any (R110). -/
def groupSum (a b : List MVal) : MVal :=
  (MVal.firstNan ((a.zip b).flatMap fun (x, y) => [x, y])).getD
    ((a.zip b).foldl (fun s (x, y) => s.add (x.mul y)) MVal.zero)

/-! ## Accumulation (R109, R266) -/

/-- A floating accumulator after one exact sum (R109, R110). -/
def floatUpdate (acc : BitVec 32) (s : MVal) : BitVec 32 :=
  BitVec.ofNat 32 <|
    match fmt32.decode acc.toNat, s with
    | .nan sg m _, _ => (fmt32.quiet fmt32.mb sg m).1
    | _, .nan b => b
    | .inf s, .inf t => if s = t then fmt32.infBits s else fmt32.nanBits
    | .inf s, .num _ _ => fmt32.infBits s
    | .fin _ _ _, .inf t => fmt32.infBits t
    | .fin sg m e, .num v x => (fmt32.sum ⟨.rne, 0, false⟩ sg m e (decide (v < 0)) v.natAbs x).1

/-- An integer accumulator after one exact sum (R109). -/
def intUpdate (sat : Bool) (acc : BitVec 32) (s : MVal) : BitVec 32 :=
  match s with
  | .num v _ =>
    let t := acc.toInt + v
    BitVec.ofInt 32 (if sat then clampInt true 32 t else t)
  | _ => acc

/-- An accumulator after one exact sum. -/
def accUpdate (fl sat : Bool) (acc : BitVec 32) (s : MVal) : BitVec 32 :=
  if fl then floatUpdate acc s else intUpdate sat acc s

/-- Products of a K-group (R109). -/
def groupSize (a b : EType) : Nat :=
  let w := max (widthOf a) (widthOf b)
  if w = 16 then 8 else if w = 8 then 16 else 32

/-- An accumulator after the first `n` groups of `g` products of two rows (R109). -/
def accumulate (fl sat : Bool) (acc : BitVec 32) (a b : List MVal) (g n : Nat) : BitVec 32 :=
  ((chunks g a n).zip (chunks g b n)).foldl (fun c (x, y) => accUpdate fl sat c (groupSum x y)) acc

/-- A faded accumulator (R111, R270). -/
def fadeElem (gamma acc : BitVec 32) : BitVec 32 :=
  BitVec.ofNat 32 (fmt32.mul ⟨.rne, 0, false⟩ (fmt32.decode acc.toNat) (fmt32.decode gamma.toNat)).1

/-! ## Rows of an operand (R104 to R108, R378) -/

/-- What a scan of an operand has met: side-list entries consumed, whether an entry has
not matched, the first failed data check (row, sub). -/
structure Scan where
  used : Nat
  miss : Bool
  bad : Option (Nat × Nat)
  deriving DecidableEq, Repr

/-- Note a failed check, the first only (R378). -/
def Scan.fail (c : Scan) (row sub : Nat) : Scan := { c with bad := some (c.bad.getD (row, sub)) }

/-- Little-endian number of n bytes that a reader gives. -/
def readNat (rd : Nat → Byte) (a : Nat) : Nat → Nat
  | 0 => 0
  | n + 1 => (rd a).toNat + 256 * readNat rd (a + 1) n

/-- Where the stored positions of row i stand: none for padding, `some none` for a group
with bad metadata, else the logical k (R107, R108); and whether a group is bad. -/
def positions (rd : Nat → Byte) (d : BitVec 512) (i : Nat) : List (Option (Option Nat)) × Bool :=
  let st := tdStored d
  let n := tdN d
  if n = 0 then ((List.range st).map fun p => if p < tdCols d then some (some p) else none, false)
  else
    let groups := (List.range (ceilDiv (tdCols d) 12)).map fun g =>
      let ix := unpackNat 4 (readNat rd (tdMeta d + i * tdMetaBytes d + g * n / 2) (n / 2)) n
      let good := ((ix.zip (ix.drop 1)).all fun (a, b) => decide (a < b)) && ix.all (decide <| · ≤ 11)
      (ix.map fun k => some (if good then some (12 * g + k) else none), good)
    let l := groups.flatMap (·.1)
    (l ++ List.replicate (st - l.length) none, groups.any fun g => !g.2)

/-- The value of a stored element that is no escape (R88, R105, R266). -/
def storedValue (rd : Nat → Byte) (d : BitVec 512) (t : EType) (signed : Bool) (band : MVal) (i p v : Nat) : MVal :=
  if tdFp4 d then
    let sc := e3m5 (rd (tdBscale d + i * tdScales d + p / 8)).toNat
    ((MVal.ofCode t signed v).mul (.num sc.1 sc.2)).mul band
  else MVal.ofCode t signed v

/-- The scan of one stored element of row i (R106, R378); `sd` reads a side-list entry. -/
def scanElem (rd : Nat → Byte) (sd : Nat → Nat) (d : BitVec 512) (t : EType) (signed : Bool) (band : Option MVal) (i : Nat)
    (c : Scan × List (Nat × MVal)) (x : Nat × Nat × Option (Option Nat)) : Scan × List (Nat × MVal) :=
  let p := x.1
  let v := x.2.1
  let put := fun (k : Option Nat) (m : MVal) => match k with | some k => c.2 ++ [(k, m)] | none => c.2
  match x.2.2 with
  | none => c
  | some k =>
    let inside := match k with | some k => decide (k < tdCols d) | none => true
    if tdFp4 d && tdEsc d && v == 8 then
      if !inside || c.1.miss then c
      else
        let e := sd (tdSide d + 8 * c.1.used)
        let s := if tdN d = 0 then tdCols d else tdKept d
        let ix := i % 64 * s + (if tdN d = 0 then k.getD 0 else p)
        if e / 2 ^ 32 % 2 ^ 16 = i / 64 ∧ e % 2 ^ 32 = ix then
          ({ c.1 with used := c.1.used + 1 },
            if band.isSome then put k (MVal.ofFloat fmtB16 (e / 2 ^ 48 % 2 ^ 16)) else c.2)
        else ({ c.1.fail i 1 with miss := true }, c.2)
    else if !inside then c
    else match band with
      | some b => (c.1, put k (storedValue rd d t signed b i p v))
      | none => c

/-- Values placed at their logical k, zeros elsewhere: k rises. -/
def spread : List (Nat × MVal) → Nat → Nat → List MVal
  | _, _, 0 => []
  | [], k, n + 1 => MVal.zero :: spread [] (k + 1) n
  | (x, v) :: l, k, n + 1 =>
    if x = k then v :: spread l (k + 1) n else MVal.zero :: spread ((x, v) :: l) (k + 1) n

/-- The band scale of row i, none when it is not finite (R104, R378). -/
def bandScale (rd : Nat → Byte) (d : BitVec 512) (i : Nat) : Option MVal :=
  if tdFp4 d then
    match MVal.ofFloat fmtB16 (readNat rd (tdBand d + 2 * (i / 64)) 2) with
    | .num v e => some (.num v e)
    | _ => none
  else some (.num 1 0)

/-- Row i of an operand over logical K (R104 to R108, R378). -/
def scanRow (rd : Nat → Byte) (sd : Nat → Nat) (d : BitVec 512) (t : EType) (signed : Bool) (c : Scan) (i : Nat) : Scan × List MVal :=
  let band := bandScale rd d i
  let pos := positions rd d i
  let c := if band.isNone then c.fail i 3 else c
  let c := if pos.2 then c.fail i 2 else c
  let codes := unpackNat (widthOf t) (readNat rd (tdBase d + i * tdPitch d) (tdRowBytes d)) (tdStored d)
  let r := ((List.range (tdStored d)).zip (codes.zip pos.1)).foldl (scanElem rd sd d t signed band i) (c, [])
  (r.1, spread r.2 0 (tdCols d))

/-- The rows of an operand in order (R378). -/
def scanRows (rd : Nat → Byte) (sd : Nat → Nat) (d : BitVec 512) (t : EType) (signed : Bool) (rows : Nat) : Scan × List (List MVal) :=
  (List.range rows).foldl (fun (c : Scan × List (List MVal)) i =>
    let r := scanRow rd sd d t signed c.1 i
    (r.1, c.2 ++ [r.2])) (⟨0, false, none⟩, [])

/-- Side-list entries that a scan has read. -/
def Scan.entries (c : Scan) : Nat := c.used + (if c.miss then 1 else 0)

/-! ## Operands of a compute core (R257) -/

/-- The uses of an identifier (R257). -/
inductive Role | a | sparseA | b | drain | drainRemote
  deriving DecidableEq, Repr

/-- An operand as an M word uses it: its type, its values by row, its first failed data
check, the bytes it reads. -/
structure Operand where
  t : EType
  k : Nat
  vals : List (List MVal)
  bad : Option (Nat × Nat)
  spans : List (Nat × Nat)
  deriving DecidableEq, Repr

/-- The identifier exception of a word (R366, R368). -/
def tidExc (mj : BitVec 6) (sub : BitVec 8) (t : BitVec 6) : Exc := ⟨0x17, sub, t, 0, mj⟩

/-- A descriptor with the base and pitch of the tile view it names (R256). -/
def Core.resolveTile (c : Core) (d : BitVec 512) : BitVec 512 :=
  if tdTv d = 0 then d
  else
    let v := c.view (32 + tdTv d % 8)
    putBits (putBits (putBits d 16 (0 : BitVec 4)) 128 (v.extractLsb' 32 16 |>.setWidth 32)) 192
      (v.extractLsb' 0 17 |>.setWidth 64)

/-- The limits of the tile view that a descriptor names, for the rows and bytes it uses
(R62); `write` of a remote drain reads no base. -/
def Core.tileCheck (c : Core) (mj : BitVec 6) (role : Role) (d : BitVec 512) : Option Exc :=
  if tdTv d = 0 then none
  else
    let v := c.view (32 + tdTv d % 8)
    let n : BitVec 6 := BitVec.ofNat 6 (tdTv d % 8)
    let rb := tdRowBytes d
    let rows := tdRows d
    firstOf [
      check (viewBase v % 64 != 0 || viewPitch v % 64 != 0 || decide (512 < rb) || decide (viewPitch v < rb))
        (viewExc mj 1 n),
      check (role != .drainRemote && rows != 0 && decide (viewEnd c.id.num < viewBase v + (rows - 1) * viewPitch v + rb))
        (viewExc mj 2 n)]

/-- The types of the operands of a product (R257). -/
def productType (t : EType) : Bool :=
  match t with
  | .f16 | .bf16 | .e5m2 | .e4m3 | .e3m2 | .e2m3 | .e2m1 | .i8 | .n8 | .i4 | .n4 => true
  | _ => false

/-- Whether type, rows, cols and sparse lie within a role (R257). -/
def roleOk (role : Role) (d : BitVec 512) : Bool :=
  let rows := tdRows d
  let k := tdCols d
  match role with
  | .a | .b | .sparseA =>
    ((tdType d).map productType).getD false && decide (rows ≤ 16) && decide (1 ≤ k) && decide (k ≤ 16384) &&
    ((tdSparse d != 0) == (role == .sparseA))
  | .drain =>
    decide (1 ≤ rows) && decide (rows ≤ 16) && decide (1 ≤ k) && decide (k ≤ 128) && tdSparse d == 0 && !tdEsc d &&
    (!tdFp4 d || k % 8 == 0)
  | .drainRemote =>
    !tdFp4 d && decide (1 ≤ rows) && decide (rows ≤ 16) && decide (1 ≤ k) && decide (k ≤ 128) && tdSparse d == 0

/-- Whether base and pitch meet a role's layout (R257). -/
def layoutOk (role : Role) (d : BitVec 512) : Bool :=
  match role with
  | .drainRemote => tdPitch d % 4 == 0
  | _ => tdBase d % 64 == 0 && tdPitch d % 64 == 0 && (decide (tdRows d ≤ 1) || decide (tdRowBytes d ≤ tdPitch d))

/-- The bytes an identifier names: rows, block scales, band scales, metadata (R257). -/
def tdSpans (role : Role) (d : BitVec 512) : List (Nat × Nat) :=
  let rows := tdRows d
  if role = .drainRemote ∨ rows = 0 then []
  else
    (List.range rows).map (fun i => (tdBase d + i * tdPitch d, tdRowBytes d)) ++
    (if tdFp4 d then
      (tdBscale d, rows * tdScales d) :: (if role = .drain then [] else [(tdBand d, 2 * ceilDiv rows 64)])
     else []) ++
    (if tdN d ≠ 0 then [(tdMeta d, rows * tdMetaBytes d)] else [])

/-- An operand of a word, or the first check of class 0x17 that fails (R257, R383). `d` has
its tile view resolved; `tv` says that it named one. -/
def Core.operand (c : Core) (mj : BitVec 6) (role : Role) (signed tv : Bool) (n : BitVec 6) (d : BitVec 512) :
    Except Exc Operand :=
  let t := (tdType d).getD .i8
  let rd := fun a => c.vmem.get a
  let rows := tdRows d
  let spans := tdSpans role d
  let outside := fun (l : List (Nat × Nat)) => l.any fun (o, k) => decide (viewEnd c.id.num < o + k)
  if !roleOk role d then .error (tidExc mj 2 n)
  else if !tv && !layoutOk role d then .error (tidExc mj 3 n)
  else if outside spans then .error (tidExc mj 4 n)
  else match role with
    | .drain | .drainRemote => .ok ⟨t, tdCols d, [], none, spans⟩
    | _ =>
      let r := scanRows rd (fun a => readNat rd a 8) d t signed rows
      let side := if r.1.entries = 0 then [] else [(tdSide d, 8 * r.1.entries)]
      if outside side then .error (tidExc mj 4 n)
      else .ok ⟨t, tdCols d, r.2, r.1.bad, spans ++ side⟩

/-- The bytes that the checks of an operand read (R261, R383): its rows and metadata, once their
places are known to lie in the view area. -/
def Core.scanned (c : Core) (role : Role) (tv : Bool) (d : BitVec 512) : List (Nat × Nat) :=
  let spans := tdSpans role d
  if !roleOk role d || (!tv && !layoutOk role d) || spans.any fun (o, k) => decide (viewEnd c.id.num < o + k) then []
  else spans

/-- Row r of an operand, zeros beyond its rows (R257). -/
def Operand.row (o : Operand) (r : Nat) : List MVal := o.vals.getD r (List.replicate o.k MVal.zero)

/-! ## Drained elements (R272) -/

/-- A drained element of an accumulator: floating or `i32` source, destination type, and
for a requantisation its multiplier, shift and zero point. -/
def drainElem (r : Rnd) (fl : Bool) (dt : EType) (mult : Int) (sh : Nat) (zo : Int) (acc : BitVec 32) : Nat :=
  match fmtOf dt, fl with
  | some f, true => (f.convert r fmt32.mb (f == fmt32) (fmt32.decode acc.toNat)).1
  | some f, false => (f.round r acc.msb acc.toInt.natAbs 0 false).1
  | none, true => (toInt r (isSigned dt) (widthOf dt) (fmt32.decode acc.toNat)).1
  | none, false => requant (isSigned dt) (widthOf dt) acc.toInt mult sh zo

end Sys2Proof.Machine
end

