-- ==== Sys2Proof/Machine/Sync.lean ====
section
/-! DEFINITION. Fences, arrival cells, inbox words, full/empty initialisation and ring
handles (08_storage_sync.md R194 to R207). -/

namespace Sys2Proof.Machine

open Sys2Proof

/-! ## Fences (R194, R195, R278) -/

/-- Whether a destination lies in a fence scope of a core (R195); `none` is this module's HBM,
reached from `package` outward, and another module's is reached from `domain` outward (R278). -/
def inScope (id : CoreId) (sc : Scope) (d : Option Place) : Bool :=
  let wide := match sc with | .package | .domain | .system => true | _ => false
  match d with
  | none => wide
  | some (.home _) => sc == .domain || sc == .system
  | some d =>
    wide || d == .core id.num ||
    (if 0x800 ≤ id.num then sc != .core
     else match sc, d with
      | .core, _ => false
      | .column, .core n => decide (n < 0x800) && n / 8 == id.num / 8
      | .column, .bank l => l == id.num / 8
      | .position, d => near id d
      | _, .core n => decide (n < 0x800)
      | _, .bank _ => true
      | _, .home _ => false)

/-- Whether an earlier load or atomic within the scope has not performed (R195). -/
def Core.loadsOpen (c : Core) (sc : Scope) : Bool :=
  c.outs.any fun o => !o.performed && o.kind != .division && o.kind != .steal && inScope c.id sc o.dst

/-- Whether an earlier buffer entry has not left, or one within the scope has not performed
(R195). -/
def Core.storesOpen (c : Core) (sc : Scope) : Bool :=
  !c.sb.isEmpty || c.rowsPending || c.unacked.any fun u => inScope c.id sc (some u.dst)

/-- `fence` (R195): o selects ll, ls, sl, ss from the high bit down; `fence.core` discards
what the core has fetched (R66). -/
def execFence (o : BitVec 4) (sc : Scope) (s : State) : Res? :=
  let wait := (o.extractLsb' 2 2 != 0 && s.me.loadsOpen sc) || (o.extractLsb' 0 2 != 0 && s.me.storesOpen sc)
  act [] [] none (wait && s.me.ahead.isNone)
    (if sc = .core then s.onMe fun c => { c with fetched := [] } else s) s

/-! ## Arrival cells (R200 to R202) -/

/-- The 32-bit operand of `cset` and `cadd` (R200). -/
def State.cellOperand (s : State) (ra : BitVec 6) (imm : BitVec 12) : BitVec 32 :=
  (s.regImm ra imm).setWidth 32

/-- `cset` (R200); it performs after earlier reads and near writes (R300). -/
def execCset (w : BitVec 5) (ra : BitVec 6) (imm : BitVec 12) (s : State) : Res? :=
  actShared [.g ra] [] none s.me.writeHeld (s.later (.cellSet w (s.cellOperand ra imm)) 1)
    (s.later (.cellSet w (s.cellOperand ra imm)) 1) s

/-- `cadd` (R200); it performs after earlier reads and near writes (R300). -/
def execCadd (w : BitVec 5) (ra : BitVec 6) (imm : BitVec 12) (s : State) : Res? :=
  actShared [.g ra] [] none s.me.writeHeld (s.later (.cellAdd w (s.cellOperand ra imm)) 1)
    (s.later (.cellAdd w (s.cellOperand ra imm)) 1) s

/-- `wait` (R201). -/
def execWait (w : BitVec 5) (s : State) : Res? := act [] [] none ((s.me.cell w != 0 || s.me.readHeld) && s.me.ahead.isNone) s s

/-- `waitle` (R201). -/
def execWaitle (w : BitVec 5) (ra : BitVec 6) (imm : BitVec 12) (s : State) : Res? :=
  act [.g ra] [] none
    (((s.regImm ra imm).slt ((s.me.cell w).signExtend 64) || s.me.readHeld) && s.me.ahead.isNone) s s

/-! ## Inbox words (R74, R207) -/

/-- `xtake` (R207): presence is cleared at issue, gd lands 1 cc later; it performs after earlier
reads and near writes (R300). -/
def execXtake (rd : BitVec 6) (x : BitVec 5) (s : State) : Res? :=
  if s.me.ahead.isSome && !s.me.xp x then actOut [] [.g rd] none false s s
  else actShared [] [.g rd] none (!s.me.xp x || s.me.writeHeld)
    ((s.onMe fun c => c.setXp x false).later (.g rd (s.me.xr x)) 1)
    ((s.onMe fun c => c.setXp x false).later (.g rd (s.me.xr x)) 1) s

/-- `xtst` (R207). -/
def execXtst (p : BitVec 3) (x : BitVec 5) (s : State) : Res? :=
  act [] [.p p] none (s.me.readHeld && s.me.ahead.isNone) (s.later (.p p (s.me.xp x)) 1) s

/-- `xclr` (R207). -/
def execXclr (x : BitVec 5) (s : State) : Res? := actShared [] [] none s.me.writeHeld (s.later (.xclr x) 1) (s.later (.xclr x) 1) s

/-! ## Full/empty initialisation (R198, R380) -/

/-- Set the bits of `n` composed lines from `l` upward (R65, R228). -/
def State.feComposed (s : State) (l : Nat) (full : Bool) : Nat → State
  | 0 => s
  | n + 1 =>
    let (id, o) := s.me.scrAt (128 * l)
    State.feComposed (s.updCore id fun c => { c with fe := feLines c.fe (o / 128) full 1 }) (l + 1) full n

/-- `feinit` (R198). -/
def execFeinit (ra rb : BitVec 6) (s : State) : Res? :=
  let a := s.me.gr ra
  let b := s.me.gr rb
  let l := (a.extractLsb' 7 12).toNat
  let n := (b.extractLsb' 0 13).toNat
  let full := b.getLsbD 63
  let size := if s.me.composed then s.me.compN * 0x80000 else s.me.scrSize
  let chk := firstOf [
    check (a.extractLsb' 0 7 != 0) (operandExc 0x01 1 ra a),
    check (b.extractLsb' 13 50 != 0) (operandExc 0x01 1 rb b),
    check (decide (n = 0) || decide (4096 < n)) (operandExc 0x01 2 rb (BitVec.ofNat 64 n)),
    check (decide (size < 128 * (l + n))) (operandExc 0x01 2 ra a)]
  let eff := if s.me.composed then s.feComposed l full n else s.later (.fe l n full) 1
  actShared [.g ra, .g rb] [] chk s.me.writeHeld eff eff s

/-! ## Ring handles (R69, R203, R204) -/

/-- The conditions of R203 on an image. -/
def State.ringImageOk (s : State) (h : BitVec 256) : Bool :=
  let lc := ringLcount h
  let ls := ringLsize h
  let role := ringRole h
  let bytes := 2 ^ (lc + ls)
  decide (1 ≤ lc) && decide (lc ≤ 10) && decide (7 ≤ ls) && decide (ls ≤ 16) &&
  decide ((ringHead h).toNat < 2 ^ lc) && decide ((ringTail h).toNat < 2 ^ lc) &&
  decide ((ringFill h).toNat ≤ 1024) && decide ((ringFree h).toNat ≤ 1024) &&
  decide (role ≠ 3) && decide (ringBase h % 128 = 0) &&
  (role != 0 || decide ((ringFill h).toNat + (ringFree h).toNat = 2 ^ lc)) &&
  (role == 2 || decide (ringBase h + bytes ≤ openEnd s.me.id.num)) &&
  (role == 0 || s.names s.me.id (ringPeer h)) &&
  (role != 2 || decide (ringBase h < scrSizeOf (ringPeer h)))

/-- Whether an image's reserved fields are zero (R69). -/
def ringReservedZero (h : BitVec 256) : Bool :=
  h.extractLsb' 128 128 == 0 && h.extractLsb' 111 3 == 0 && h.extractLsb' 19 38 == 0

/-- `rinit` (R203, R380). -/
def execRinit (q : BitVec 3) (ra : BitVec 6) (s : State) : Res? :=
  let a := s.me.gr ra
  let size := if s.me.composed then s.me.compN * 0x6B000 else s.me.scrSize
  let img := BitVec.ofNat 256 (s.ownNat a.toNat 32)
  let inside := decide (a.toNat + 32 ≤ size)
  let held := s.me.readsHeld [(a.toNat, 32)]
  let chk := firstOf [
    check (a.extractLsb' 0 5 != 0) (addrExc 0x01 3 ra a),
    check (!inside) (addrExc 0x01 4 ra a),
    check (!held && !ringReservedZero img) (operandExc 0x01 1 ra 0),
    check (!held && !s.ringImageOk img) (operandExc 0x01 2 ra 0)]
  actShared [.g ra] [] chk held
    (s.later (.ring q img) 1) (s.later (.ring q img) 1) s

end Sys2Proof.Machine
end

