-- ==== Sys2Proof/Machine/Translate.lean ====
section
/-! DEFINITION. Objects, extents and the second stage: the walk of an HBM access
(03_storage_model.md R77 to R84; 23_faults_memory.md R406, R407, R411, R416) and the
checks of a capability (R78). -/

namespace Sys2Proof.Machine

open Sys2Proof

/-! ## Capabilities (R77, R78) -/

/-- A right, by its bit in a capability (R77). -/
inductive Right | read | write | atomic | derive | transfer | gather
  deriving DecidableEq, Repr

/-- The bit of a right (R77). -/
def Right.bit : Right → Nat
  | .read => 24
  | .write => 25
  | .atomic => 26
  | .derive => 27
  | .transfer => 28
  | .gather => 29

/-- The lower bound (R77). -/
def Cap.lower (c : Cap) : Nat := (c.bits.extractLsb' 32 48).toNat
/-- The upper bound, exclusive (R77). -/
def Cap.upper (c : Cap) : Nat := (c.bits.extractLsb' 80 48).toNat
/-- The index in the owner's object table (R77). -/
def Cap.index (c : Cap) : Nat := (c.bits.extractLsb' 0 15).toNat
/-- The fabric ID of the home module (R77). -/
def Cap.home (c : Cap) : BitVec 9 := c.bits.extractLsb' 15 9

/-- The first right of some that a capability lacks. -/
def Cap.lacks (c : Cap) (rs : List Right) : Option Right := rs.find? fun r => !c.bits.getLsbD r.bit

/-- The checks of R78 in the order of their classes (R364, R366): tag, bounds of each range,
rights. A range is what `einfo.value` reports of it, its offset and its length. -/
def capCheck (mj : BitVec 6) (n : BitVec 4) (c : Cap) (rs : List Right) (first : Nat)
    (ranges : List (Nat × Nat × Nat)) : Option Exc :=
  let reg := n.setWidth 6
  firstOf [
    check (!c.tag) ⟨0x19, 0, reg, BitVec.ofNat 48 first, mj⟩,
    (ranges.findSome? fun (v, o, k) =>
      firstOf [check (decide (o < c.lower)) ⟨0x1A, 1, reg, BitVec.ofNat 48 v, mj⟩,
               check (decide (c.upper < o + k)) ⟨0x1A, 2, reg, BitVec.ofNat 48 v, mj⟩]),
    (c.lacks rs).map fun r => ⟨0x1B, BitVec.ofNat 8 r.bit, reg, BitVec.ofNat 48 first, mj⟩]

/-! ## The second stage (R81) -/

/-- What a second-stage walk gives (R407). -/
inductive Stage
  /-- The guest range that the entry maps, its host base, its permissions, and the entry. -/
  | mapped (base size hpa : Nat) (rd w : Bool) (entry : Nat)
  | miss
  | malformed
  deriving DecidableEq, Repr

/-- A table entry (R81). -/
def stageEntry (hbm : Memory) (a : Nat) : BitVec 64 := BitVec.ofNat 64 (hbm.nat a 8)

/-- The address field of an entry (R81). -/
def stageAddr (e : BitVec 64) : Nat := (e.extractLsb' 13 39).toNat * 2 ^ 13

/-- Whether the group of eight under one contig bit is consistent (R81). -/
def contigOk (hbm : Memory) (a : Nat) : Bool :=
  let base := a / 64 * 64
  let host := stageAddr (stageEntry hbm base)
  host % 2 ^ 16 == 0 && (List.range 8).all fun i =>
    let e := stageEntry hbm (base + 8 * i)
    e.getLsbD 0 && e.getLsbD 2 && stageAddr e == host + i * 2 ^ 13

/-- An entry that maps a block or a page of level l, for an access (R81, R407). The spec does not say
whose rd and w hold when the entries of a contig group differ in them: the walked entry's, over
the whole 64 KiB (notes/assumptions/80.md). -/
def stageLeaf (hbm : Memory) (l gpa a : Nat) (e : BitVec 64) (rd wr : Bool) : Stage :=
  let size := 2 ^ (13 + 10 * l)
  let contig := l == 0 && e.getLsbD 2
  if stageAddr e % size ≠ 0 ∨ (contig && !contigOk hbm a) then .malformed
  else if (rd && !e.getLsbD 3) || (wr && !e.getLsbD 4) then .miss
  else if contig then
    .mapped (gpa / 2 ^ 16 * 2 ^ 16) (2 ^ 16) (stageAddr e / 2 ^ 16 * 2 ^ 16) (e.getLsbD 3) (e.getLsbD 4) a
  else .mapped (gpa / size * size) size (stageAddr e) (e.getLsbD 3) (e.getLsbD 4) a

/-- The walk from the table of level l downward (R81, R407). -/
def stageWalk (hbm : Memory) (gpa : Nat) (rd wr : Bool) : Nat → Nat → Stage
  | 0, table =>
    let a := table + 8 * (gpa / 2 ^ 13 % 1024)
    let e := stageEntry hbm a
    if !e.getLsbD 0 then .miss
    else if e.extractLsb' 52 12 != 0 || e.extractLsb' 6 7 != 0 || e.getLsbD 1 then .malformed
    else stageLeaf hbm 0 gpa a e rd wr
  | l + 1, table =>
    let a := table + 8 * (gpa / 2 ^ (13 + 10 * (l + 1)) % 1024)
    let e := stageEntry hbm a
    if !e.getLsbD 0 then .miss
    else if e.extractLsb' 52 12 != 0 || e.extractLsb' 6 7 != 0 then .malformed
    else if e.getLsbD 1 then stageWalk hbm gpa rd wr l (stageAddr e)
    else if l = 2 then .malformed
    else stageLeaf hbm (l + 1) gpa a e rd wr

/-! ## The memory port of a core (R82) -/

/-- What a walk reads and changes: HBM, where accessed bits are set, and the core's two
caches. -/
structure Mmu where
  hbm : Memory
  tlb : List (Nat × Nat × Nat × Bool × Bool)
  objs : List (Nat × BitVec 512)
  deriving DecidableEq, Repr

/-- Why an access does not translate (R407, R416). -/
inductive TxFail
  /-- Class 0x30 with its sub and value. -/
  | object (sub : BitVec 8) (value : Nat)
  /-- A malformed second-stage entry for a granule. -/
  | malformed (gran : Nat)
  /-- A miss at a granule for reads or writes. -/
  | miss (gran : Nat) (rd wr : Bool)
  deriving DecidableEq, Repr

/-- The last `n` entries of a list: a cache that drops its oldest entry
(notes/assumptions/27.md). -/
def lastN {α : Type} (n : Nat) (l : List α) : List α := l.drop (l.length - n)

/-- What the walk needs to know of the owner and the region: table base, entry count,
second-stage root, circuit (R79, R81, R84), and the granules that a reply has refused: an
access to one does not translate, whatever its entry now is (R411, R417). -/
structure Guest where
  base : Nat
  count : Nat
  root : Nat
  circ : Nat
  refused : List Nat
  deriving DecidableEq, Repr

/-- Granules of replies that refuse (R411): any but mapped. -/
def refusals (answered : List (Nat × BitVec 8)) : List Nat := (answered.filter (·.2 ≠ 4)).map (·.1)

/-- A guest-physical address to a host-physical one (R81, R82). -/
def Mmu.stage (m : Mmu) (g : Guest) (gpa : Nat) (rd wr : Bool) : Except TxFail Nat × Mmu :=
  if g.refused.contains (gpa / 2 ^ 13) then (.error (.miss (gpa / 2 ^ 13) rd wr), m)
  else match m.tlb.find? fun (b, n, _, r, w) => decide (b ≤ gpa) && decide (gpa < b + n) && (!rd || r) && (!wr || w) with
  | some (b, _, h, _, _) => (.ok (h + (gpa - b)), m)
  | none =>
    match stageWalk m.hbm gpa rd wr 3 g.root with
    | .miss => (.error (.miss (gpa / 2 ^ 13) rd wr), m)
    | .malformed => (.error (.malformed (gpa / 2 ^ 13)), m)
    | .mapped b n h r w a =>
      (.ok (h + (gpa - b)),
        { m with
          hbm := m.hbm.put a (m.hbm.get a ||| 0x20)
          tlb := lastN 512 (m.tlb ++ [(b, n, h, r, w)]) })

/-- The state field of an object-table entry (R79). -/
def objState (e : BitVec 512) : Nat := (e.extractLsb' 0 2).toNat
/-- The kind field (R79). -/
def objKind (e : BitVec 512) : Nat := (e.extractLsb' 2 2).toNat
/-- The owning circuit (R79). -/
def objCirc (e : BitVec 512) : Nat := (e.extractLsb' 4 1).toNat
/-- The escrow destination (R79). -/
def objEdst (e : BitVec 512) : Nat := (e.extractLsb' 5 1).toNat
/-- The length in bytes (R79). -/
def objLength (e : BitVec 512) : Nat := (e.extractLsb' 64 48).toNat
/-- The root (R79). -/
def objRoot (e : BitVec 512) : Nat := (e.extractLsb' 128 64).toNat

/-- The object-table entry of an index (R79, R82). -/
def Mmu.entry (m : Mmu) (g : Guest) (ix : Nat) : Except TxFail (BitVec 512) × Mmu :=
  if g.count ≤ ix then (.error (.object 1 ix), m)
  else match m.objs.lookup ix with
    | some e => (.ok e, m)
    | none =>
      match m.stage g ((g.base + 64 * ix) % 2 ^ 52) true false with
      | (.error e, m) => (.error e, m)
      | (.ok h, m) =>
        let e := BitVec.ofNat 512 (m.hbm.nat h 64)
        (.ok e, { m with objs := lastN 64 (m.objs ++ [(ix, e)]) })

/-- The checks of an entry for an access of n bytes at offset o (R407, R416). -/
def entryFault (g : Guest) (e : BitVec 512) (o n : Nat) : Option TxFail :=
  if objState e = 0 then some (.object 2 o)
  else if objState e = 2 then some (.object 3 o)
  else if objState e = 3 then some (.object 5 o)
  else if objCirc e ≠ g.circ then some (.object 4 o)
  else if objKind e = 3 ∨ objRoot e % 2 ^ 13 ≠ 0 then some (.object 5 o)
  else if objLength e < o + n then some (.object 6 o)
  else none

/-- An entry of an extent node at a guest-physical address (R80). -/
def Mmu.node (m : Mmu) (g : Guest) (a o : Nat) : Except TxFail Nat × Mmu :=
  match m.stage g (a % 2 ^ 52) true false with
  | (.error e, m) => (.error e, m)
  | (.ok h, m) =>
    let v := m.hbm.nat h 8
    if v % 2 ^ 13 ≠ 0 then (.error (.object 5 o), m) else (.ok v, m)

/-- The guest-physical address of offset o of an object (R79, R80). The spec does not say what bits
above [51:0] of a root or of an extent entry do, which entry an offset of 8 GiB or more has
in an object of kind 01, nor which entry of the top node one of 8 TiB or more has in an object of
kind 10: the address is taken modulo 2^52, the offset modulo 2^33, and the top node read on past its
1,024 entries (notes/assumptions/80.md). -/
def Mmu.guestOf (m : Mmu) (g : Guest) (e : BitVec 512) (o : Nat) : Except TxFail Nat × Mmu :=
  if objKind e = 0 then (.ok ((objRoot e + o) % 2 ^ 52), m)
  else
    let top := if objKind e = 1 then (Except.ok (objRoot e), m) else m.node g (objRoot e + 8 * (o / 2 ^ 33)) o
    match top with
    | (.error f, m) => (.error f, m)
    | (.ok t, m) =>
      match m.node g (t + 8 * (o % 2 ^ 33 / 2 ^ 23)) o with
      | (.error f, m) => (.error f, m)
      | (.ok b, m) => (.ok ((b + o % 2 ^ 23) % 2 ^ 52), m)

/-- One piece of an access inside one object granule, with the access's own offset for
reports (R407, R416). -/
def Mmu.piece (m : Mmu) (g : Guest) (e : BitVec 512) (rd wr : Bool) (o k at_ : Nat) :
    Except TxFail (Nat × Nat) × Mmu :=
  match m.guestOf g e o with
  | (.error (.object s _), m) => (.error (.object s at_), m)
  | (.error f, m) => (.error f, m)
  | (.ok gpa, m) =>
    match m.stage g gpa rd wr with
    | (.error f, m) => (.error f, m)
    | (.ok h, m) => (.ok (h, k), m)

/-- An access cut where object granules end. -/
def granules : Nat → Nat → Nat → List (Nat × Nat)
  | 0, _, _ => []
  | f + 1, o, n =>
    if n = 0 then []
    else
      let k := min n (2 ^ 13 - o % 2 ^ 13)
      (o, k) :: granules f (o + k) (n - k)

/-- The host-physical pieces of an access of n bytes at offset o of an object, or why each
does not translate (R406, R407). -/
def Mmu.access (m : Mmu) (g : Guest) (ix o n : Nat) (rd wr : Bool) : List (Except TxFail (Nat × Nat)) × Mmu :=
  match m.entry g ix with
  | (.error f, m) => ([.error f], m)
  | (.ok e, m) =>
    match entryFault g e o n with
    | some f => ([.error f], m)
    | none =>
      (granules (n / 2 ^ 13 + 2) o n).foldl (init := (([] : List (Except TxFail (Nat × Nat))), m))
        fun (l, m) (a, k) => let r := m.piece g e rd wr a k o; (l ++ [r.1], r.2)

/-! ## Translation by a core -/

/-- The memory port of the core in turn. -/
def State.mmu (s : State) : Mmu := ⟨s.hbm, s.me.tlb, s.me.objCache⟩

/-- The frames of the entries whose accessed bits a walk has set have been used in this span
of 2^20 cc (R417). -/
def State.touch (s : State) (old new : List (Nat × Nat × Nat × Bool × Bool)) : State :=
  let walked := new.filter fun e => !old.contains e
  { s with frameUse := walked.map (fun (_, n, h, _, _) => (h / 2 ^ 13, n / 2 ^ 13, s.cyc.toNat / 2 ^ 20)) ++ s.frameUse }

/-- Keep what a walk has changed. -/
def State.setMmu (s : State) (m : Mmu) : State :=
  { (s.touch s.me.tlb m.tlb).onMe fun c => { c with tlb := m.tlb, objCache := m.objs } with hbm := m.hbm }

/-- The owner's tables and the region's circuit for the core in turn. -/
def State.guest (s : State) : Guest :=
  let f := s.fn s.me.id.owner
  ⟨f.objBase, f.objCount, f.ssRoot, s.me.id.circ % 2, refusals s.me.answered⟩

/-- What an access becomes: its pieces, granules that miss, or an exception (R407, R411). -/
inductive Tx
  | ok (parts : List (Nat × Nat))
  | misses (l : List (Nat × Bool × Bool))
  | fault (cls sub : BitVec 8) (value : BitVec 48)
  deriving DecidableEq, Repr

/-- The outcome of walks given the replies the packet has had: a granule that still misses
after a reply is class 0x31 (R411, R412). The first failure decides; misses behind a first
miss are gathered up to the first fault. -/
def settle (answered : List (Nat × BitVec 8)) (l : List (Except TxFail (Nat × Nat))) : Tx :=
  l.foldl (init := .ok []) fun acc r =>
    match acc, r with
    | .ok ps, .ok p => .ok (ps ++ [p])
    | .ok _, .error (.object sub v) => .fault 0x30 sub (BitVec.ofNat 48 v)
    | .ok _, .error (.malformed g) => .fault 0x31 3 (BitVec.ofNat 48 g)
    | .ok _, .error (.miss g rd wr) =>
      match answered.lookup g with
      | some sub => .fault 0x31 sub (BitVec.ofNat 48 g)
      | none => .misses [(g, rd, wr)]
    | .misses ms, .error (.miss g rd wr) =>
      .misses (if ms.any (·.1 == g) then ms else ms ++ [(g, rd, wr)])
    | acc, _ => acc

/-- An access of the core in turn (R406, R407). -/
def State.translate (s : State) (ix o n : Nat) (rd wr : Bool) : Tx × Mmu :=
  let r := s.mmu.access s.guest ix o n rd wr
  (settle s.me.answered r.1, r.2)

/-! ## Bytes in HBM -/

/-- Bytes at host-physical pieces. -/
def partBytes (hbm : Memory) (ps : List (Nat × Nat)) : List Byte := ps.flatMap fun (a, n) => hbm.bytes a n

/-- Bytes laid out over host-physical pieces. -/
def spreadParts : List (Nat × Nat) → List Byte → List (Nat × List Byte)
  | [], _ => []
  | (a, n) :: ps, bs => (a, bs.take n) :: spreadParts ps (bs.drop n)

/-- Write bytes at host-physical addresses. -/
def putParts (hbm : Memory) (ps : List (Nat × List Byte)) : Memory :=
  ps.foldl (fun m (a, bs) => m.putBytes a bs) hbm

/-- Bytes are written in HBM, and their frames are known to have been (R435). -/
def State.putHbm (s : State) (ps : List (Nat × List Byte)) : State :=
  { s with hbm := putParts s.hbm ps, written := ps.map (fun p => p.1 / 2 ^ 13) ++ s.written }

end Sys2Proof.Machine
end

