-- ==== Sys2Proof/Machine/MemoryCore.lean ====
section
/-! DEFINITION. The memory-core and capability words (12_memory_core.md R276 to R296;
21_faults_instructions.md R384; 23_faults_memory.md R406 to R416). -/

namespace Sys2Proof.Machine

open Sys2Proof

/-! ## The frame of an HBM word (R277, R363, R406 to R408, R412) -/

/-- A word that reaches HBM: it waits for its operands; in run-ahead one with an unresolved
address operand is skipped (R408). `val` are operands no address comes from. -/
def actHbm (src val dst : List Res) (k : State → Res?) (s : State) : Res? :=
  if !s.me.issue.commit && (src ++ val ++ dst).any s.me.awaits then .next (s.stall .operand)
  else if s.me.unresolved src then .next (s.onMe fun c => c.poison dst)
  else k s

/-- A word's walks miss: in run-ahead the granules join the batch (R408); otherwise the
elements that translate perform (`part`, R412) and the miss is due. -/
def State.missed (s : State) (l : List (Nat × Bool × Bool)) (part : State → State) (dst : List Res) : State :=
  match s.me.ahead with
  | some a =>
    let new := l.filter fun m => !(a.batch.any (·.1 == m.1))
    s.onMe fun c => { c with ahead := some { a with batch := a.batch ++ new } }.poison dst
  | none =>
    let t := (part s).onMe fun c => { c with needs := l, issue := { c.issue with status := .missed } }
    { t with agenda := t.agenda ++ [(.translationMiss, .core t.me.id)] }

/-- Whether an access of an object homed on module `id` must wait: for an earlier acquire or near
load (R187, R188), and behind buffered stores and atomics to the same module, so that a load sees
them there (R281, R302, R304). -/
def Core.farWaits (c : Core) (id : BitVec 9) : Bool :=
  c.acquiring || c.nearLoad || c.sb.any fun e => match e.kind with
    | .home h _ _ => h == id
    | _ => false

/-- A miss at the home of the packet at the pc (R412, R415): the elements that translate have
performed. The core runs ahead from here, once; a packet that has run ahead, and one at level 1, asks
again. -/
def State.homeMiss (s : State) (n : BitVec 4) : State :=
  s.onMe fun c =>
    let c := { c with homeAns := none, issue := { c.issue with status := .missed } }
    if c.csr.level = 0 ∧ c.homeMissed = false then
      { c with homeMissed := true, homeAns := some (.missed []) }.startAhead
    else { c with homeHeld := some ((c.cap n).home, c.heldFor) }

/-- An HBM word whose object is homed on another module (R277, R333, R415): its walk is made
there, and the packet is held until the answer; a fault there is the word's own; at a miss the
elements that translate perform; otherwise its access leaves the core (`far`, with the elements that
perform where not all do). In run-ahead a load that translates gives its value to the shadow, and a
word that misses, or whose effect leaves the core (`out`), leaves its results unresolved (R408). -/
def homeWord (n : BitVec 4) (dst : List Res) (out : Bool) (far : Option (List Nat) → State → State) (s : State) : Res? :=
  match s.me.homeAns with
  | none => .next ((s.onMe fun c => { c with homeHeld := some ((c.cap n).home, c.heldFor) }).stall .waiting)
  | some (.fault cls sub v) => .next (s.raise ⟨cls, sub, n.setWidth 6, v, 0x3D⟩)
  | some (.missed l) => .next (if s.me.ahead.isSome then s.onMe fun c => c.poison dst else (far (some l) s).homeMiss n)
  | some .mapped =>
    if s.me.ahead.isSome && out then .next (s.onMe fun c => c.poison dst)
    else if !s.me.issue.commit && (s.me.sbFull || s.me.farWaits (s.me.cap n).home) then .next (s.stall .waiting)
    else .next ((far none s).onMe fun c => c.clean dst)

/-- An HBM word through capability register n: its checks, the home module (R277), a
translation fault (R364: after every other class), a miss, its wait, its effect. `out` for
a word whose effect leaves the core (R408). -/
def hbmWord (n : BitVec 4) (src val dst : List Res) (chk : Option Exc) (tx : Tx) (wait out : Bool)
    (part eff : State → State) (far : Option (List Nat) → State → State) (s : State) : Res? :=
  actHbm (.c n :: src) val dst (fun s =>
    match chk with
    | some e => .next (s.raise e)
    | none =>
      if (s.me.cap n).home ≠ s.fabricId then homeWord n dst out far s
      else match tx with
        | .fault cls sub v => .next (s.raise ⟨cls, sub, n.setWidth 6, v, 0x3D⟩)
        | .misses l =>
          if !s.me.issue.commit && wait && s.me.ahead.isNone then .next (s.stall .waiting) else .next (s.missed l part dst)
        | .ok _ =>
          if out && s.me.ahead.isSome then .next (s.onMe fun c => c.poison dst)
          else if !s.me.issue.commit && wait then .next (s.stall .waiting)
          else .next ((eff s).onMe fun c => c.clean dst)) s

/-- A word that performs whole or not at all does nothing at a miss (R412). -/
def whole (s : State) : State := s

/-- The same at another module: `eff` when its whole access translates. -/
def farWhole (eff : State → State) (part : Option (List Nat)) (s : State) : State :=
  match part with
  | some _ => s
  | none => eff s

/-- The pieces of a translation. -/
def Tx.parts : Tx → List (Nat × Nat)
  | .ok ps => ps
  | _ => []

/-- Whether an HBM atomic of the core is still buffered: reads of HBM are applied in issue order
(R300, R304). -/
def Core.behindAtom (c : Core) : Bool :=
  c.sb.any fun e => match e.kind with
    | .hatom _ _ _ _ _ => true
    | _ => false

/-- Whether an HBM load must wait (R187, R188, R304). -/
def Core.hbmWaits (c : Core) : Bool := c.acquiring || c.nearLoad || c.behindAtom

/-- The core's translation is unresolved until TRANSLATION_RESOLVED (R406). -/
def Core.shadow (c : Core) : Core := { c with walks := c.walks ++ [c.seq] }

/-- HBM reads leave the core as one load (R278): accesses, the register owed, acquire. -/
def State.hbmLoad (s : State) (m : Mmu) (ops : List HbmOp) (rd : BitVec 6) (acq : Bool) : State :=
  (s.setMmu m).onMe fun c =>
    let c := (c.owe .hbm rd none acq).shadow
    { c with hbmAcc := c.hbmAcc ++ ops.map fun o => (⟨o, c.seq, acq⟩ : HbmAcc) }.count

/-- Accesses leave the core for the home module as one load (R277, R278, R333). -/
def State.farLoad (s : State) (k : Cap) (ops : List HomeOp) (rd : BitVec 6) (acq : Bool) : State :=
  let rows := ops.filterMap fun o => match o with
    | .loadRow _ n x => some (s.me.seq, x, n)
    | _ => none
  { s.onMe fun c => { (c.owe .hbm rd (some (.home k.home)) acq).count with farRows := c.farRows ++ rows } with
    homeOut := s.homeOut ++ ops.map fun o => ⟨s.me.id, s.me.seq, k.home, k.bits.extractLsb' 0 15, o, 0⟩ }

/-- A store or an atomic for the home module enters the store buffer (R277, R333). -/
def Core.farBuffer (c : Core) (k : Cap) (op : HomeOp) (rel : Bool) : Core :=
  c.buffer (.home k.home (k.bits.extractLsb' 0 15) op) rel

/-- HBM bytes enter the store buffer (R281, R283, R284). -/
def State.hbmStore (s : State) (m : Mmu) (ps : List (Nat × List Byte)) (rel : Bool) : State :=
  (s.setMmu m).onMe fun c => c.shadow.buffer (.hbm ps) rel

/-- The alignment check of an offset in register go (R384). -/
def alignCheck (go : BitVec 6) (o : BitVec 64) (n : Nat) : Option Exc :=
  check (decide (o.toNat % n ≠ 0)) (operandExc 0x3D 2 go o)

/-- R78 over one range. -/
def oneRange (n : BitVec 4) (c : Cap) (r : Right) (o : BitVec 64) (k : Nat) : Option Exc :=
  capCheck 0x3D n c [r] 0 [(o.toNat, o.toNat, k)]

/-! ## Single accesses (R280 to R282) -/

/-- `hld` (R281, R384). -/
def execHld (rd : BitVec 6) (c : BitVec 4) (go : BitVec 6) (o : Order) (s : State) : Res? :=
  let k := s.me.cap c
  let a := s.me.gr go
  let (tx, m) := s.translate k.index a.toNat 8 true false
  hbmWord c [.g go] [] [.g rd] (firstOf [alignCheck go a 8, oneRange c k .read a 8]) tx
    s.me.hbmWaits false whole
    (fun s => s.hbmLoad m (tx.parts.map fun (h, _) => .load h rd) rd (o = .acq))
    (farWhole fun s => s.farLoad k [.load a.toNat rd] rd (o = .acq)) s

/-- `hst` (R281, R384). -/
def execHst (rv : BitVec 6) (c : BitVec 4) (go : BitVec 6) (o : Order) (s : State) : Res? :=
  let k := s.me.cap c
  let a := s.me.gr go
  let (tx, m) := s.translate k.index a.toNat 8 false true
  hbmWord c [.g go] [.g rv] [] (firstOf [alignCheck go a 8, oneRange c k .write a 8]) tx s.me.sbFull true whole
    (fun s => s.hbmStore m (spreadParts tx.parts (natBytes 8 (s.me.gr rv).toNat)) (o = .rel))
    (farWhole fun s => s.onMe fun c => c.farBuffer k (.store [(a.toNat, natBytes 8 (c.gr rv).toNat)]) (o = .rel)) s

/-- `hld.x` (R282, R384, R388). -/
def execHldX (gt : BitVec 6) (c : BitVec 4) (go : BitVec 6) (o : Order) (s : State) : Res? :=
  let k := s.me.cap c
  let a := s.me.gr go
  let t := s.me.gr gt
  let n := t.extractLsb' 0 12
  let (tx, m) := s.translate k.index a.toNat 8 true false
  hbmWord c [.g go, .g gt] [] []
    (firstOf [check (t.extractLsb' 17 47 != 0) (operandExc 0x3D 1 gt t), alignCheck go a 8,
      oneRange c k .read a 8, s.coreCheck 0x3D 1 gt n]) tx
    s.me.hbmWaits true whole
    (fun s => s.hbmLoad m (tx.parts.map fun (h, _) => .loadX h n.toNat (t.extractLsb' 12 5)) 0 (o = .acq))
    (farWhole fun s => s.farLoad k [.loadX a.toNat n.toNat (t.extractLsb' 12 5)] 0 (o = .acq)) s

/-! ## Rows (R283) -/

/-- The first n bytes of some pieces. -/
def takeParts : List (Nat × Nat) → Nat → List (Nat × Nat)
  | [], _ => []
  | (a, k) :: l, n => if n = 0 then [] else if k ≤ n then (a, k) :: takeParts l (n - k) else [(a, n)]

/-- Some pieces without their first n bytes. -/
def dropParts : List (Nat × Nat) → Nat → List (Nat × Nat)
  | [], _ => []
  | (a, k) :: l, n => if n = 0 then (a, k) :: l else if k ≤ n then dropParts l (n - k) else (a + n, k - n) :: l

/-- Pieces cut into rows of n bytes. -/
def rowParts : Nat → List (Nat × Nat) → Nat → List (List (Nat × Nat))
  | 0, _, _ => []
  | r + 1, ps, n => takeParts ps n :: rowParts r (dropParts ps n) n

/-- The row addresses of view `v`n over rows of `len` bytes. -/
def State.rowAddrs (s : State) (n : BitVec 5) (rows : Nat) : List Nat :=
  let v := s.me.view n.toNat
  (List.range rows).map fun i => viewBase v + i * viewPitch v

/-- The limits of a view whose base and pitch a memory-core word uses (R62, R283, R284). -/
def State.viewLimits (s : State) (n : BitVec 5) (rows len : Nat) : Option Exc :=
  let v := s.me.view n.toNat
  let k : BitVec 6 := n.setWidth 6
  firstOf [
    check (decide (viewBase v % 4 ≠ 0) || decide (viewPitch v % 4 ≠ 0) || (decide (1 < rows) && decide (viewPitch v < len)))
      (viewExc 0x3D 1 k),
    check (decide (viewEnd s.me.id.num < viewBase v + (rows - 1) * viewPitch v + len)) (viewExc 0x3D 2 k)]

/-- `hldv` (R283, R384). -/
def execHldv (v : BitVec 5) (c : BitVec 4) (go : BitVec 6) (s : State) : Res? :=
  let k := s.me.cap c
  let a := s.me.gr go
  let r := s.shapeRows
  let n := s.shapeBytes
  let (tx, m) := s.translate k.index a.toNat (r * n) true false
  let rows := s.rowAddrs v r
  hbmWord c [.g go] [] (rows.map fun x => .regs x n)
    (firstOf [s.viewLimits v r n, alignCheck go a 4, oneRange c k .read a (r * n)]) tx
    s.me.hbmWaits false whole
    (fun s => s.hbmLoad m ((rowParts r tx.parts n).zip rows |>.map fun (ps, x) => .loadRow ps x) 0 false)
    (farWhole fun s => s.farLoad k ((rows.zip (List.range r)).map fun (x, i) => .loadRow (a.toNat + i * n) n x) 0 false) s

/-- `hstv` (R283, R384). -/
def execHstv (v : BitVec 5) (c : BitVec 4) (go : BitVec 6) (s : State) : Res? :=
  let k := s.me.cap c
  let a := s.me.gr go
  let r := s.shapeRows
  let n := s.shapeBytes
  let (tx, m) := s.translate k.index a.toNat (r * n) false true
  let rows := s.rowAddrs v r
  hbmWord c [.g go] (rows.map fun x => .regs x n) []
    (firstOf [s.viewLimits v r n, alignCheck go a 4, oneRange c k .write a (r * n)]) tx s.me.sbFull true whole
    (fun s => s.hbmStore m (spreadParts tx.parts (rows.flatMap fun x => s.me.vmem.bytes x n)) false)
    (farWhole fun s => s.onMe fun c => c.farBuffer k (.store [(a.toNat, rows.flatMap fun x => c.vmem.bytes x n)]) false) s

/-! ## Elements by index (R284, R412) -/

/-- An element that takes part: its number, its offset in the object, its bytes in the data
view (R284). -/
structure Elem where
  e : Nat
  off : Nat
  at_ : Nat
  deriving DecidableEq, Repr

/-- The elements whose `gmask` bit is 1 (R284): `sz` bytes each, C in a row, indices of `iw`
bytes. -/
def State.elems (s : State) (v i : BitVec 5) (sz c iw : Nat) : List Elem :=
  let rows := s.shapeRows
  ((List.range (rows * c)).filter fun e => s.me.csr.gmask.getLsbD e).map fun e =>
    let ix := viewBase (s.me.view i.toNat) + e / c * viewPitch (s.me.view i.toNat) + e % c * iw
    ⟨e, s.me.vmem.nat ix iw * sz, viewBase (s.me.view v.toNat) + e / c * viewPitch (s.me.view v.toNat) + e % c * sz⟩

/-- The walks of some elements in order (R284, R412, R427): those that translate with their
host addresses; the granules that miss; a fault when the first failure is one. -/
def State.walkElems (s : State) (ix sz : Nat) (rd wr : Bool) (es : List Elem) : List (Elem × Nat) × Tx × Mmu :=
  es.foldl (init := (([] : List (Elem × Nat)), Tx.ok [], s.mmu)) fun (ok, t, m) x =>
    let r := m.access s.guest ix x.off sz rd wr
    match t, settle s.me.answered r.1 with
    | .fault c u v, _ => (ok, .fault c u v, m)
    | t, .ok ps => (ok ++ ps.map fun p => (x, p.1), t, r.2)
    | .ok _, .fault c u v => (ok, .fault c u v, r.2)
    | .ok _, .misses l => (ok, .misses l, r.2)
    | .misses l, .misses l' => (ok, .misses (l ++ l'.filter fun g => !(l.any (·.1 == g.1))), r.2)
    | t, _ => (ok, t, r.2)

/-- The `gmask` bits of some elements. -/
def elemBits (es : List Nat) : BitVec 64 := es.foldl (fun m e => m ||| (1 : BitVec 64) <<< e) 0

/-- `gmask` bits of elements that perform at a miss fall (R284, R412). -/
def Core.perform (c : Core) (es : List Nat) : Core :=
  { c with csr := { c.csr with gmask := c.csr.gmask &&& ~~~elemBits es } }

/-- The checks of `hgat` and `hsct` (R284, R364, R384): the index view before what it feeds. -/
def State.gatherCheck (s : State) (v i : BitVec 5) (cn : BitVec 4) (r : Right) (sz c iw : Nat) (es : List Elem) :
    Option Exc :=
  let rows := s.shapeRows
  let n := s.shapeBytes
  let t := viewType (s.me.view v.toNat)
  let it := viewType (s.me.view i.toNat)
  let k := s.me.cap cn
  firstOf [
    check (it != some .n32 && it != some .n64) (viewExc 0x3D 3 (i.setWidth 6)),
    check (((t.map fun t => widthOf t != 16 && widthOf t != 32 && widthOf t != 64).getD true)) (viewExc 0x3D 3 (v.setWidth 6)),
    check (((t.map fun t => !rowFits t n).getD true)) (viewExc 0x3D 1 (v.setWidth 6)),
    check (decide (64 < rows * c)) (viewExc 0x3D 5 (v.setWidth 6)),
    s.viewLimits i rows (c * iw),
    s.viewLimits v rows n,
    match es with
    | [] => none
    | x :: _ => capCheck 0x3D cn k [r, .gather] x.e (es.map fun x => (x.e, x.off, sz))]

/-- `hgat` and `hsct` (R284, R384, R412, R416). -/
def gatherWord (load : Bool) (v : BitVec 5) (cn : BitVec 4) (i : BitVec 5) (s : State) : Res? :=
  let rows := s.shapeRows
  let n := s.shapeBytes
  let w := ((viewType (s.me.view v.toNat)).map widthOf).getD 32
  let sz := w / 8
  let c := n / sz
  let iw := if viewType (s.me.view i.toNat) = some .n64 then 8 else 4
  let es := s.elems v i sz c iw
  let chk := s.gatherCheck v i cn (if load then .read else .write) sz c iw es
  let es := if chk.isSome then [] else es
  let (ok, tx, m) := s.walkElems (s.me.cap cn).index sz load (!load) es
  let data := (s.rowAddrs v rows).map fun x => Res.regs x n
  let index := (s.rowAddrs i rows).map fun x => Res.regs x (c * iw)
  -- at a miss the bits fall with the elements; otherwise with the packet (R134, R284)
  let fall := fun (part : Bool) (l : List Nat) (s : State) =>
    if part then s.onMe fun k => k.perform l else s.later (.csrClr .gmask (elemBits l)) 1
  let go := fun (part : Bool) (s : State) =>
    if ok.isEmpty then s.setMmu m
    else
      let s := fall part (ok.map fun x => x.1.e) s
      if load then s.hbmLoad m (ok.map fun (x, h) => .loadRow [(h, sz)] x.at_) 0 false
      else s.hbmStore m (ok.map fun (x, h) => (h, s.me.vmem.bytes x.at_ sz)) false
  let far := fun (part : Option (List Nat)) (s : State) =>
    let k := s.me.cap cn
    let es : List Elem := match part with
      | some l => es.filter fun x => l.contains x.e
      | none => es
    if es.isEmpty then s
    else
      let s := fall part.isSome (es.map (·.e)) s
      if load then s.farLoad k (es.map fun x => .loadRow x.off sz x.at_) 0 false
      else s.onMe fun c => c.farBuffer k (.store (es.map fun x => (x.off, c.vmem.bytes x.at_ sz))) false
  if load then hbmWord cn index [] data chk tx s.me.hbmWaits false (go true) (go false) far s
  else hbmWord cn index data [] chk tx s.me.sbFull true (go true) (go false) far s

/-- `hgat` (R284). -/
def execHgat (v : BitVec 5) (c : BitVec 4) (i : BitVec 5) (s : State) : Res? := gatherWord true v c i s

/-- `hsct` (R284). -/
def execHsct (v : BitVec 5) (c : BitVec 4) (i : BitVec 5) (s : State) : Res? := gatherWord false v c i s

/-! ## Atomics (R285) -/

/-- An HBM atomic (R285, R384): `cas` reads the register after gd as the expected value. -/
def hatomWord (op : AtomOp) (rd : BitVec 6) (c : BitVec 4) (go : BitVec 6) (o : Order) (s : State) : Res? :=
  let n := if op = .fadd then 4 else 8
  let k := s.me.cap c
  let a := s.me.gr go
  let cas := op == .cas
  let exp := if cas then s.me.gr (rd + 1) else 0
  let (tx, m) := s.translate k.index a.toNat n true true
  hbmWord c [.g go] (.g rd :: (if cas then [.g (rd + 1)] else [])) [.g rd]
    (firstOf [alignCheck go a n, check (cas && rd == 63) (operandExc 0x3D 3 rd (rd.setWidth 64)),
      oneRange c k .atomic a n]) tx
    (s.me.sbFull || s.me.acquiring || s.me.nearLoad) true whole
    (fun s => (s.setMmu m).onMe fun c =>
      (c.owe .hbm rd none (o = .acq)).shadow.buffer
        (.hatom op ((tx.parts.map (·.1)).headD 0) (s.me.gr rd) exp rd) (o = .rel))
    (farWhole fun s => s.onMe fun c =>
      (c.owe .hbm rd (some (.home k.home)) (o = .acq)).farBuffer k (.atomic op a.toNat (s.me.gr rd) exp rd) (o = .rel)) s

/-- `hatom.add` (R285). -/
def execHatomAdd (rd : BitVec 6) (c : BitVec 4) (go : BitVec 6) (o : Order) (s : State) : Res? := hatomWord .add rd c go o s
/-- `hatom.swp` (R285). -/
def execHatomSwp (rd : BitVec 6) (c : BitVec 4) (go : BitVec 6) (o : Order) (s : State) : Res? := hatomWord .swp rd c go o s
/-- `hatom.cas` (R285). -/
def execHatomCas (rd : BitVec 6) (c : BitVec 4) (go : BitVec 6) (o : Order) (s : State) : Res? := hatomWord .cas rd c go o s
/-- `hatom.min` (R285). -/
def execHatomMin (rd : BitVec 6) (c : BitVec 4) (go : BitVec 6) (o : Order) (s : State) : Res? := hatomWord .min rd c go o s
/-- `hatom.max` (R285). -/
def execHatomMax (rd : BitVec 6) (c : BitVec 4) (go : BitVec 6) (o : Order) (s : State) : Res? := hatomWord .max rd c go o s
/-- `hatom.minn` (R285). -/
def execHatomMinn (rd : BitVec 6) (c : BitVec 4) (go : BitVec 6) (o : Order) (s : State) : Res? := hatomWord .minn rd c go o s
/-- `hatom.maxn` (R285). -/
def execHatomMaxn (rd : BitVec 6) (c : BitVec 4) (go : BitVec 6) (o : Order) (s : State) : Res? := hatomWord .maxn rd c go o s
/-- `hatom.fadd` (R285). -/
def execHatomFadd (rd : BitVec 6) (c : BitVec 4) (go : BitVec 6) (o : Order) (s : State) : Res? := hatomWord .fadd rd c go o s

/-! ## Transfers (R286 to R288) -/

/-- The geometry word of `hship` and `hpull` (R286). -/
structure ShipGeo where
  hpitch : Nat
  regs : Bool
  cell : BitVec 5
  n : Nat
  dpitch : Nat
  rows : Nat
  deriving DecidableEq, Repr

/-- The fields of a geometry word (R286). -/
def ShipGeo.of (v : BitVec 64) : ShipGeo where
  hpitch := (v.extractLsb' 32 32).toNat
  regs := v.getLsbD 31
  cell := v.extractLsb' 24 5
  n := 4 * (v.extractLsb' 16 7).toNat + 4
  dpitch := 4 * (v.extractLsb' 4 12).toNat
  rows := (v.extractLsb' 0 4).toNat + 1

/-- The on-chip side of a transfer (R286, R289): a 4-aligned space-010 address of a compute
core. -/
def State.shipTarget (s : State) (ga : BitVec 6) (ea : BitVec 64) : Except Exc (Nat × Nat) :=
  match s.locate 0x3D ga ⟨false, false, true, false⟩ ea 4 4 with
  | .error e => .error e
  | .ok (.remote n o) => if 0x800 ≤ n then .error (addrExc 0x3D 1 ga ea) else .ok (n, o)
  | .ok _ => .error (addrExc 0x3D 1 ga ea)

/-- A register one after another; register 63 has none (R286, R289). -/
def Core.next (c : Core) (a : BitVec 6) : BitVec 64 := if a = 63 then 0 else c.gr (a + 1)

/-- `hship` and `hpull` (R286 to R288, R384). -/
def shipWord (pull : Bool) (ga : BitVec 6) (c : BitVec 4) (go : BitVec 6) (s : State) : Res? :=
  let k := s.me.cap c
  let ea := s.me.gr ga
  let v := s.me.next ga
  let g := ShipGeo.of v
  let o := (s.me.gr go).toNat
  let src : List Res := [.c c, .g ga, .g (ga + 1), .g go]
  match s.shipTarget ga ea with
  | .error e => act src [] (some e) false s s
  | .ok (num, off) =>
    let span := (g.rows - 1) * g.dpitch + g.n
    let last := check (ga == 63) (operandExc 0x3D 3 ga (ga.setWidth 64))
    let res := check (v.extractLsb' 29 2 != 0 || v.getLsbD 23) (operandExc 0x3D 1 (ga + 1) v)
    let lim := check (decide (g.hpitch % 4 ≠ 0) || (decide (1 < g.rows) && (decide (g.hpitch < g.n) || decide (g.dpitch < g.n))))
      (operandExc 0x3D 2 (ga + 1) v)
    let good := last.isNone && res.isNone && lim.isNone
    let side : Side := if g.regs then .regs num else .scratch num
    let oc := tileBeats o g.hpitch off g.dpitch g.n g.rows
    let b : Bulk :=
      if pull then { s.command .hpull side (.hbm k) (oc.map fun b => ⟨b.dst, b.src, b.len⟩) g.cell with creg := c }
      else { s.command .hship (.hbm k) side oc g.cell with creg := c }
    actOut src []
      (firstOf [
        check (good && !g.regs && decide (0x80000 < off + span)) (addrExc 0x3D 4 ga ea),
        check (good && g.regs && decide (viewEnd 0 < off + span)) ⟨0x16, 2, ga, 0, 0x3D⟩,
        res, lim, last,
        capCheck 0x3D c k [if pull then .write else .read] 0 [(o, o, (g.rows - 1) * g.hpitch + g.n)]])
      (s.me.bulkWaits []) (s.kick b []) s

/-- `hship` (R287). -/
def execHship (ga : BitVec 6) (c : BitVec 4) (go : BitVec 6) (s : State) : Res? := shipWord false ga c go s

/-- `hpull` (R288). -/
def execHpull (ga : BitVec 6) (c : BitVec 4) (go : BitVec 6) (s : State) : Res? := shipWord true ga c go s

/-! ## `bgemv` (R289, R290) -/

/-- The types of B (R289). -/
def bgemvType : Option EType → Bool
  | some .e4m3 | some .e5m2 | some .i8 | some .n8 | some .e2m1 => true
  | _ => false

/-- The object ranges that a `bgemv` reads for certain: rows, block scales, band scales
(R277, R290). -/
def bgemvRanges (d : BitVec 512) : List (Nat × Nat × Nat) :=
  let rng := fun (o n : Nat) => (o, o, n)
  rng (tdBase d) ((tdRows d - 1) * tdPitch d + tdRowBytes d) ::
    (if tdFp4 d then [rng (tdBscale d) (tdRows d * tdScales d), rng (tdBand d) (2 * ceilDiv (tdRows d) 64)] else [])

/-- `bgemv` (R289, R290, R384): A and the descriptor are read at issue. The spec does not say where its
output is cut into beats: every 256 bytes from the destination's start (notes/assumptions/81.md). -/
def execBgemv (ga : BitVec 6) (c : BitVec 4) (go : BitVec 6) (s : State) : Res? :=
  let k := s.me.cap c
  let ea := s.me.gr ga
  let p := s.me.next ga
  let da := s.me.gr go
  let fits := decide (da.toNat % 64 = 0) && decide (da.toNat + 64 ≤ s.me.scrSize)
  let d : BitVec 512 := if fits then BitVec.ofNat 512 (s.ownNat da.toNat 64) else 0
  let held := s.me.readsHeld [(da.toNat, 64)]
  let n := tdRows d
  let kk := tdCols d
  let va := (p.extractLsb' 0 17).toNat
  let src : List Res := [.c c, .g ga, .g (ga + 1), .g go]
  match s.shipTarget ga ea with
  | .error e => act src [] (some e) false s s
  | .ok (num, off) =>
    let cols := decide (1 ≤ kk) && decide (kk ≤ 16384)
    let rows := decide (1 ≤ n) && decide (n ≤ 16384)
    let dres := check (!held && !((d.extractLsb' 20 44 == 0) && (d.extractLsb' 14 2 == 0) && (d.extractLsb' 9 3 == 0) &&
      (d.extractLsb' 5 3 == 0) && (d.extractLsb' 160 32 == 0))) (operandExc 0x3D 1 go da)
    let dfit := check (!fits) (operandExc 0x3D 2 go da)
    let dlim := check (!held && (tdTv d != 0 || tdSparse d != 0 || !bgemvType (tdType d) || !rows || !cols))
      (operandExc 0x3D 2 go (tdDword d 0))
    let last := check (ga == 63) (operandExc 0x3D 3 ga (ga.setWidth 64))
    let pres := check (p.extractLsb' 29 35 != 0 || p.extractLsb' 17 7 != 0) (operandExc 0x3D 1 (ga + 1) p)
    let plim := check (decide (va % 4 ≠ 0) || (!held && decide (viewEnd s.me.id.num < va + 2 * kk))) (operandExc 0x3D 2 (ga + 1) p)
    let good := fits && dres.isNone && dlim.isNone
    let n := if good then n else 1
    let len := 4 * n
    let b : Bulk := { s.command .bgemv (.hbm k) (.scratch num) (copyRows 0 off len (len / 256 + 1)) (p.extractLsb' 24 5) with
      creg := c, desc := d
      vec := (List.range kk).map fun i => BitVec.ofNat 16 (s.me.vmem.nat (va + 2 * i) 2) }
    actOut (src ++ (if good then [.regs va (2 * kk)] else [])) []
      (firstOf [
        check (!held && good && decide (0x80000 < off + len)) (addrExc 0x3D 4 ga ea),
        dres, pres, dfit, dlim, plim, last,
        capCheck 0x3D c k [.read] 0 (if good && !held then bgemvRanges d else []),
        check (k.home != s.fabricId) ⟨0x1C, 5, c.setWidth 6, 0, 0x3D⟩])
      (s.me.bulkWaits [] || held) (s.kick b []) s
where
  /-- Beats of 256 bytes (R287, R290). -/
  copyRows (src dst n : Nat) : Nat → List Beat
    | 0 => []
    | f + 1 =>
      if n = 0 then []
      else ⟨src, dst, min n 256⟩ :: copyRows (src + 256) (dst + 256) (n - 256) f

/-! ## The layer fence and escrow (R291 to R293) -/

/-- Whether an HBM write of the core has not reached its bank write buffer, here or at another
module (R277, R291, R423). -/
def Core.writesOpen (c : Core) : Bool :=
  !c.hbmWr.isEmpty ||
  (c.sb.any fun e => match e.kind with
    | .hbm _ | .hatom _ _ _ _ _ | .home _ _ _ => true
    | .bulk b => b.kind == .hpull
    | _ => false) || (c.bulks.any fun b => b.kind == .hpull) ||
  c.unacked.any fun u => match u.dst with
    | .home _ => true
    | _ => false

/-- `hfence.l` (R291). -/
def execHfenceL (s : State) : Res? := act [] [] none s.me.writesOpen s s

/-- Whether an earlier access of the core has not performed (R188, R292). -/
def Core.accessesOpen (c : Core) : Bool :=
  !c.sb.isEmpty || !c.unacked.isEmpty || c.rowsPending ||
  c.outs.any fun o => !o.performed && o.kind != .division && o.kind != .steal

/-- The address of an object-table entry for a change at the memory port (R84, R292). -/
def State.entryAddr (s : State) (ix : Nat) : Tx × Mmu :=
  let g := s.guest
  let r := s.mmu.stage g ((g.base + 64 * ix) % 2 ^ 52) true true
  (settle s.me.answered [r.1.map fun h => (h, 64)], r.2)

/-- The object-table entry changes, and every memory core drops its cached copy (R84, R292,
R293). -/
def State.setEntry (s : State) (h ix : Nat) (e : BitVec 512) : State :=
  let o := s.me.id.owner
  let drop := fun (c : Core) => if c.id.owner = o then { c with objCache := c.objCache.filter (·.1 ≠ ix) } else c
  { s.putHbm [(h, natBytes 64 e.toNat)] with me := drop s.me, others := s.others.map drop }

/-- The escrow words share their frame: the checks up to the home (class 0x1C sub 5), the
checks of the entry, their wait, their change of the entry (R292, R293, R384). No rule says what an
index at or above the entry count reports there: `absent`, as an object in no such state
(notes/assumptions/82.md). -/
def escrowWord (cn : BitVec 4) (src : List Res) (chk : Option Exc) (absent : BitVec 8)
    (test : BitVec 512 → Option (BitVec 8)) (wait : Bool) (new : BitVec 512 → BitVec 512) (s : State) : Res? :=
  if s.me.ahead.isSome then .next s.endAhead
  else
    let k := s.me.cap cn
    let reg := cn.setWidth 6
    let bad := fun (sub : BitVec 8) => (⟨0x1C, sub, reg, 0, 0x3D⟩ : Exc)
    let chk := firstOf [chk, capCheck 0x3D cn k [.transfer] 0 [], check (k.home != s.fabricId) (bad 5),
      check (decide (s.guest.count ≤ k.index)) (bad absent)]
    let (tx, m) := s.entryAddr k.index
    let h := (tx.parts.map (·.1)).headD 0
    let e : BitVec 512 := BitVec.ofNat 512 (s.hbm.nat h 64)
    let chk := if chk.isNone && !tx.parts.isEmpty then (test e).map bad else chk
    hbmWord cn src [] [] chk tx wait false whole (fun s => (s.setMmu m).setEntry h k.index (new e)) (farWhole whole) s

/-- `oxfer` (R292, R384). -/
def execOxfer (c : BitVec 4) (gd : BitVec 6) (s : State) : Res? :=
  let d := s.me.gr gd
  let to_ := (d.extractLsb' 0 1).toNat
  escrowWord c [.g gd] (check (d.extractLsb' 1 63 != 0) (operandExc 0x3D 1 gd d)) 1
    (fun e => if objState e ≠ 1 then some 1 else if objCirc e ≠ s.guest.circ then some 6
      else if to_ = objCirc e then some 2 else none)
    (s.me.writesOpen || s.me.accessesOpen)
    (fun e => putBits (putBits e 0 (2 : BitVec 2)) 5 (d.extractLsb' 0 1)) s

/-- `oacq` (R293, R384). -/
def execOacq (c : BitVec 4) (s : State) : Res? :=
  escrowWord c [] none 3
    (fun e => if objState e ≠ 2 then some 3 else if objEdst e ≠ s.guest.circ then some 4 else none)
    s.me.writeHeld
    (fun e => putBits (putBits (putBits e 0 (1 : BitVec 2)) 4 (e.extractLsb' 5 1)) 32 (e.extractLsb' 32 32 + 1)) s

/-! ## Capability words (R294 to R296) -/

/-- Local `cmov` (R294). -/
def execCmov (d cs : BitVec 4) (s : State) : Res? :=
  act [.c cs] [.c d] none false (s.later (.cap d (s.me.cap cs)) 1) s

/-- Remote `cmov` (R294, R384, R388). -/
def execCmovRemote (d cs : BitVec 4) (gc : BitVec 6) (s : State) : Res? :=
  let t := s.me.gr gc
  let n := t.extractLsb' 0 12
  actOut [.c cs, .g gc] []
    (firstOf [check (t.extractLsb' 12 52 != 0) (operandExc 0x3D 1 gc t), s.coreCheck 0x3D 1 gc n]) s.me.sbFull
    (s.onMe fun c => c.buffer (.send (.core n.toNat) (.capDeposit d (c.cap cs))) true) s

/-- `cderive` (R295, R384). -/
def execCderive (d cs : BitVec 4) (gb : BitVec 6) (s : State) : Res? :=
  let k := s.me.cap cs
  let lo := (s.me.gr gb).extractLsb' 0 48
  let up := (s.me.next gb).extractLsb' 0 48
  let nested := decide (k.lower ≤ lo.toNat) && decide (lo.toNat ≤ up.toNat) && decide (up.toNat ≤ k.upper)
  let lowBad := decide (lo.toNat < k.lower) || decide (up.toNat < lo.toNat)
  let reg := cs.setWidth 6
  act [.c cs, .g gb, .g (gb + 1)] [.c d]
    (firstOf [
      check (gb == 63) (operandExc 0x3D 3 gb (gb.setWidth 64)),
      check (!k.tag) ⟨0x19, 0, reg, 0, 0x3D⟩,
      check (!nested) ⟨0x1A, 3, reg, if lowBad then lo else up, 0x3D⟩,
      check (!k.bits.getLsbD Right.derive.bit) ⟨0x1B, BitVec.ofNat 8 Right.derive.bit, reg, 0, 0x3D⟩]) false
    (s.later (.cap d ⟨up ++ lo ++ k.bits.extractLsb' 0 32, true⟩) 1) s

/-- `crights` (R296, R384). -/
def execCrights (d cs : BitVec 4) (ga : BitVec 6) (s : State) : Res? :=
  let k := s.me.cap cs
  let r : BitVec 8 := k.bits.extractLsb' 24 8 &&& (s.me.gr ga).setWidth 8 &&& 0x3F
  act [.c cs, .g ga] [.c d] (check (!k.tag) ⟨0x19, 0, cs.setWidth 6, 0, 0x3D⟩) false
    (s.later (.cap d ⟨putBits k.bits 24 r, k.tag⟩) 1) s

end Sys2Proof.Machine
end

