-- ==== Sys2Proof/Machine/Objects.lean ====
section
/-! DEFINITION. Objects as parties other than cores reach them: bytes of an object, collective
descriptors, requests of other modules (03_storage_model.md R79 to R82;
15_host_fabric_firmware.md R330, R333, R336; 23_faults_memory.md R415). -/

namespace Sys2Proof.Machine

open Sys2Proof

/-! ## Bytes of an object -/

/-- The pieces of n bytes at offset o of an object (R79 to R82), reached on its own circuit. -/
def State.reach (s : State) (f obj o n : Nat) (rd wr : Bool) : Tx × Mmu :=
  let fn := s.fn f
  let g := fun (c : Nat) => (⟨fn.objBase, fn.objCount, fn.ssRoot, c, []⟩ : Guest)
  match (⟨s.hbm, [], []⟩ : Mmu).entry (g 0) obj with
  | (.error e, m) => (settle [] [.error e], m)
  | (.ok e, m) =>
    let r := m.access (g (objCirc e)) obj o n rd wr
    (settle [] r.1, r.2)

/-- Bytes of an object, when the access translates. -/
def State.readObj (s : State) (f obj o n : Nat) : Option (List Byte) :=
  match s.reach f obj o n true false with
  | (.ok ps, _) => some (partBytes s.hbm ps)
  | _ => none

/-! ## Collective descriptors (R336) -/

/-- A collective descriptor as its object holds it (R336). -/
structure Collective where
  op : Nat
  type : EType
  p : Nat
  seq : BitVec 32
  src : Nat
  dst : Nat
  len : Nat
  group : List (BitVec 9)
  kick : BitVec 32
  done : BitVec 32
  deriving DecidableEq, Repr

/-- A dword of an object. -/
def State.objDword (s : State) (f obj o : Nat) : Option (BitVec 64) :=
  (s.readObj f obj o 8).map fun bs => BitVec.ofNat 64 (bytesNat bs)

/-- The collective descriptor of an object, when its fields are none of the reserved ones. -/
def State.collective (s : State) (f obj : Nat) : Option Collective :=
  match s.objDword f obj 0, s.objDword f obj 8, s.objDword f obj 0x10, s.objDword f obj 0x18,
      s.objDword f obj 0x20, s.objDword f obj 0x40, s.objDword f obj 0x48 with
  | some d, some src, some dst, some len, some g, some kick, some done =>
    let p := (d.extractLsb' 32 16).toNat
    match EType.ofCode (d.extractLsb' 51 5), s.readObj f obj g.toNat (2 * p) with
    | some t, some ids =>
      if (d.extractLsb' 56 8).toNat ≤ 3 ∧ (t = .f32 ∨ t = .bf16 ∨ t = .i32) ∧ 2 ≤ p ∧ p ≤ 432 ∧ len.toNat % 256 = 0 then
        some {
          op := (d.extractLsb' 56 8).toNat, type := t, p := p, seq := d.setWidth 32, src := src.toNat, dst := dst.toNat
          len := len.toNat, group := (List.range p).map fun i => BitVec.ofNat 9 (bytesNat ((ids.drop (2 * i)).take 2))
          kick := kick.setWidth 32, done := done.setWidth 32 }
      else none
    | _, _ => none
  | _, _, _, _, _, _, _ => none

/-- Bytes that each member contributes: p pieces to a reduce-scatter, one piece otherwise. -/
def Collective.given (c : Collective) : Nat := if c.op = 2 then c.p * c.len else c.len

/-- Bytes that each member receives. -/
def Collective.taken (c : Collective) : Nat := if c.op = 1 then c.p * c.len else c.len

/-! ## Requests of other modules (R310, R333, R415) -/

/-- Bytes of an atomic (R192). -/
def atomSize (op : AtomOp) : Nat := if op = .fadd then 4 else 8

/-- Bytes that a request of another module touches. -/
def FabricReq.bytes (x : FabricReq) : Nat :=
  match x.op with
  | .atomic op _ _ => atomSize op
  | _ => x.size

/-- Whether a request of another module reads, and whether it writes. -/
def FabricReq.rights (x : FabricReq) : Bool × Bool :=
  match x.op with
  | .read => (true, false)
  | .write _ => (false, true)
  | .atomic _ _ _ => (true, true)

/-- The walk of a request of another module, under the owner's object table here (R415). -/
def State.fabricWalk (s : State) (x : FabricReq) : Tx × Mmu :=
  let fn := s.fn x.fn
  let g : Guest := ⟨fn.objBase, fn.objCount, fn.ssRoot, x.circ % 2, refusals x.answered⟩
  let r := (⟨s.hbm, [], []⟩ : Mmu).access g x.obj.toNat x.off x.bytes x.rights.1 x.rights.2
  (settle x.answered r.1, r.2)

end Sys2Proof.Machine
end

