-- ==== Sys2Proof/Machine/Channels.lean ====
section
/-! DEFINITION. Weighted choice among owners and the service of HBM channels
(14_scheduling.md R312, R327), and the errors of the stacks (23_faults_memory.md R419 to R424). -/

namespace Sys2Proof.Machine

open Sys2Proof

/-! ## Weighted choice (R312) -/

/-- An arbiter's counter. -/
def ctrOf (l : List (Nat × Int)) (o : Nat) : Int := (l.lookup o).getD 0

/-- Set an arbiter's counter. -/
def ctrSet (l : List (Nat × Int)) (o : Nat) (v : Int) : List (Nat × Int) := (o, v) :: l.filter (·.1 ≠ o)

/-- The owner with the largest counter, the lowest number of equals. -/
def largest (l : List (Nat × Int)) : List Nat → Option Nat
  | [] => none
  | o :: os =>
    match largest l os with
    | none => some o
    | some p => if ctrOf l o < ctrOf l p ∨ (ctrOf l o = ctrOf l p ∧ p < o) then some p else some o

/-- One weighted choice among the owners with demand, and the counters afterwards (R312). -/
def weighted (share : Nat → Nat) (l : List (Nat × Int)) (os : List Nat) : Option (Nat × List (Nat × Int)) :=
  let l := os.foldl (fun l o => ctrSet l o (ctrOf l o + share o)) l
  (largest l os).map fun o => (o, ctrSet l o (ctrOf l o - (os.map share).sum))

/-! ## HBM channels (R327) -/

/-- The first host-physical address of an HBM access. -/
def HbmOp.addr : HbmOp → Nat
  | .load a _ => a
  | .loadX a _ _ => a
  | .loadRow ps _ => (ps.head?.map (·.1)).getD 0

/-- What a walk at a beat of a command gives its core (R414): its pieces, a granule to ask for,
a fault. -/
def State.beatWalk (s : State) (id : CoreId) (b : Bulk) (cap : Cap) (o n : Nat) (rd wr : Bool) : Tx × Mmu :=
  match s.core? id with
  | none => (.ok [], s.mmu)
  | some c =>
    let f := s.fn id.owner
    let answered := match b.waiting, b.answer with
      | some g, some a => [(g, a)]
      | _, _ => []
    let r := (⟨s.hbm, c.tlb, c.objCache⟩ : Mmu).access ⟨f.objBase, f.objCount, f.ssRoot, id.circ % 2, refusals answered⟩ cap.index o n rd wr
    (settle answered r.1, r.2)

/-- The next access of a command to HBM: its capability, offset and length, and whether it
writes. -/
def Bulk.asks (b : Bulk) : Option (Cap × Nat × Nat × Bool) :=
  match b.kind, b.src, b.dst, b.beats with
  | .hship, .hbm c, _, t :: _ => some (c, t.src, t.len, false)
  | .hostStore, .hbm c, _, t :: _ => some (c, t.src, min 256 t.len, false)
  | .hpull, _, .hbm c, t :: _ => some (c, t.dst, t.len, true)
  | .hostLoad, _, .hbm c, t :: _ => some (c, t.dst, min 256 t.len, true)
  | _, _, _, _ => none

/-- The host-physical address at which a command waits for a channel of this module. -/
def State.bulkWant (s : State) (id : CoreId) (b : Bulk) : Option Nat :=
  match b.asks with
  | some (c, o, n, w) =>
    if b.started && !b.record && c.home == s.fabricId then
      match (s.beatWalk id b c o n (!w) w).1 with
      | .ok ((a, _) :: _) => some a
      | _ => none
    else none
  | none => none

/-- The channel, of 384, of a host-physical address (R20, R327). -/
def hbmChannel (a : Nat) : Nat := Config.channelOf a % 384

/-- Where a collective hart writes next (R337). -/
def State.hartWant (s : State) (k : Hart) : Option Nat :=
  if !k.busy || k.halted then none
  else match s.collective k.fn k.obj.toNat with
    | none => none
    | some c =>
      match (s.reach k.fn k.obj.toNat (c.dst + k.pos) (min 256 (c.taken - k.pos)) false true).1 with
      | .ok ((a, _) :: _) => some a
      | _ => none

/-- Where a request of another module goes that stands first of its module's and translates (R304,
R415). -/
def State.fabricWant (s : State) (i : Nat) (x : FabricReq) : Option (Nat × Nat × Bool) :=
  if (s.fabricIn.take i).any (·.src == x.src) then none
  else match (s.fabricWalk x).1 with
    | .ok ((a, _) :: _) => some (x.fn, a, match x.op with | .atomic _ _ _ => true | _ => false)
    | _ => none

/-- Requests that wait at the channels: owner, address, and whether it is an atomic. The rows that
`bgemv` reads cross no channel's interface (R22; notes/assumptions/75.md). -/
def State.wants (s : State) : List (Nat × Nat × Bool) :=
  (s.cores.flatMap fun c =>
    (c.bulks.filterMap fun b => (s.bulkWant c.id b).map fun a => (c.id.owner, a, false)) ++
    (c.hbmAcc.head?.map fun a => (c.id.owner, a.op.addr, false)).toList ++
    (c.hbmWr.head?.map fun w => (c.id.owner, w.1, false)).toList ++
    (match (c.sb.head?.map (·.kind) : Option SbKind) with
     | some (.hatom _ a _ _ _) => [(c.id.owner, a, true)]
     | _ => [])) ++
  (s.harts.filterMap fun k => (s.hartWant k).map fun a => (k.fn, a, false)) ++
  ((s.fabricIn.zip (List.range s.fabricIn.length)).filterMap fun (x, i) => s.fabricWant i x)

/-- Tokens of an owner in a list of counts. -/
def tokensOf (l : List (Nat × Nat)) (o : Nat) : Nat := (l.lookup o).getD 0

/-- More tokens of an owner. -/
def tokensAdd (l : List (Nat × Nat)) (o n : Nat) : List (Nat × Nat) := (o, tokensOf l o + n) :: l.filter (·.1 ≠ o)

/-- An owner's floor at a channel. -/
def State.floorOf (s : State) (ch o : Nat) : Nat :=
  ((s.floors.find? fun f => f.1 == ch && f.2.1 == o).map (·.2.2)).getD 0

/-- A channel as its window stands. -/
def State.chan (s : State) (ch : Nat) : Channel := (s.chans.lookup ch).getD ⟨[], [], []⟩

/-- Whether an owner's atomic finds the cap of 128 tokens while another owner waits (R327). -/
def Channel.capped (k : Channel) (o : Nat) (atomic alone : Bool) : Bool :=
  atomic && !alone && decide (128 < tokensOf k.atomics o + 4)

/-- The channels of the bursts of 64 bytes that some pieces touch (R327). -/
def burstsOf (ps : List (Nat × Nat)) : List Nat :=
  ps.flatMap fun (a, n) =>
    (List.range ((a + max 1 n - 1) / 64 + 1 - a / 64)).map fun i => hbmChannel (64 * (a / 64 + i))

/-- Owners that wait at a channel, beside `o`, and whose atomics' cap lets them (R327). -/
def State.rivals (s : State) (o ch : Nat) : List Nat :=
  let k := s.chan ch
  let l := s.wants.filter fun w => w.1 != o && hbmChannel w.2.1 == ch
  ((l.filter fun w => !k.capped w.1 w.2.2 false).map (·.1)).eraseDups

/-- Whether a channel has `cost` tokens for an owner in this window, over what the floors of the
owners that wait there still ask for (R327). -/
def State.hasTokens (s : State) (o ch cost : Nat) : Bool :=
  let k := s.chan ch
  let room := cost + (k.used.map (·.2)).sum
  let owed := ((s.rivals o ch).map fun p => s.floorOf ch p - tokensOf k.used p).sum
  decide (room ≤ 512) && (decide (tokensOf k.used o + cost ≤ s.floorOf ch o) || decide (room + owed ≤ 512))

/-- An owner's turn at a channel where others wait: owners below their floors first, then every
owner that waits, by share (R312, R327). The counters after the choice, when it is `o`. -/
def State.winsChannel (s : State) (o ch : Nat) : Option (List (Nat × Int)) :=
  let k := s.chan ch
  let all := o :: s.rivals o ch
  let low := all.filter fun p => decide (tokensOf k.used p < s.floorOf ch p)
  match weighted (fun p => (s.fn p).share.toNat) k.ctr (if low.isEmpty then all else low) with
  | some (p, ctr) => if p = o then some ctr else none
  | none => none

/-- Tokens of an owner at a channel are used. -/
def State.useTokens (s : State) (o ch cost : Nat) (atomic : Bool) : State :=
  let k := s.chan ch
  let k : Channel := ⟨tokensAdd k.used o cost, if atomic then tokensAdd k.atomics o cost else k.atomics, k.ctr⟩
  { s with chans := (ch, k) :: s.chans.filter (·.1 ≠ ch) }

/-- The channels of an access serve it in this cc: a burst costs a token of its own channel, an
atomic 4, and a window has 512; the turn is taken at the channel of the first burst, and the others
must have the tokens (R327; notes/assumptions/75.md). None when they do not serve it now. -/
def State.serve (s : State) (o : Nat) (ps : List (Nat × Nat)) (atomic : Bool) : Option State :=
  let bs := burstsOf ps
  match bs with
  | [] => some s
  | ch :: _ =>
    let chs := bs.eraseDups
    let cost := fun (c : Nat) => if atomic then 4 else bs.count c
    let capped := (s.chan ch).capped o atomic (s.wants.all fun w => w.1 == o || hbmChannel w.2.1 != ch)
    if !chs.all (fun c => s.hasTokens o c (cost c)) || capped then none
    else (s.winsChannel o ch).map fun ctr =>
      chs.foldl (fun s c => s.useTokens o c (cost c) atomic)
        { s with chans := (ch, { s.chan ch with ctr := ctr }) :: s.chans.filter (·.1 ≠ ch) }

/-- A new window begins (R327). -/
def State.newWindow (s : State) : State :=
  { s with chans := s.chans.map fun (c, k) => (c, ({ k with used := [], atomics := [] } : Channel)) }

/-! ## Records and uncorrectable data (R397, R399, R419, R422, R424) -/

/-- The owner to which a frame is charged (R417). -/
def State.frameOwner (s : State) (a : Nat) : Option Nat :=
  (List.range s.fns.length).find? fun f => (s.fn f).frames.contains (a / 2 ^ 13)

/-- An array record of an address (R422): the place in its channel is the implementation's
(notes/assumptions/37.md); the monitor drains it into the physical function's log. -/
def State.arrayRecord (s : State) (kind bit a : Nat) : State :=
  let ch := hbmChannel a
  let r := (Config.placeOf (a / 32) &&& 0x01FFFFFFFF000000) |||
    BitVec.ofNat 64 (kind * 2 ^ 62 + ch % 32 * 2 ^ 57 + bit % 256 * 2 ^ 16 + (s.frameOwner a).getD 0x3F % 64 * 2 ^ 10 + ch / 32 * 2 ^ 6)
  { s with arrayLog := modAt s.arrayLog (ch / 32) fun l => lastN 256 (l ++ [(r, s.cyc)]), pfLog := s.pfLog ++ [(r, s.cyc)] }

/-- A frame's bytes are cleared, and its codewords with them. -/
def State.clearFrame (s : State) (a : Nat) : State :=
  { s with
    hbm := s.hbm.filter fun (x, _) => x / 2 ^ 13 ≠ a / 2 ^ 13
    flaws := s.flaws.filter fun x => x.1 / 256 ≠ a / 2 ^ 13 }

/-- Data at an HBM address is lost: the owner of the frame is struck with cause 0x05, and
without a checkpoint to restore the frame is cleared, as is a frame of no function (R419,
R424, R432, R437). -/
def State.lose (s : State) (a : Nat) : State :=
  match s.frameOwner a with
  | some f => (if (s.fn f).ckpt.isNone then s.clearFrame a else s).strike f 0x05
  | none => s.clearFrame a

/-- What array ECC finds in a codeword that is read: one bad bit is corrected and written back, with a
record of kind 00; more are uncorrectable, with one of kind 01 (R419). -/
def State.meetFlaw (s : State) (x : Nat × Option (BitVec 8)) : State :=
  match x.2 with
  | some bit => { s.arrayRecord 0 bit.toNat (32 * x.1) with flaws := s.flaws.erase x }
  | none => (s.arrayRecord 1 0 (32 * x.1)).lose (32 * x.1)

/-- A read of the stacks: `f` is what becomes of the data, which is never data known to be corrupt:
where a codeword is uncorrectable, its owner is struck and the access stops (R419, R424, R443). -/
def State.arrayRead (s : State) (ps : List (Nat × Nat)) (f : State → State) : State :=
  let hit := s.flaws.filter fun x => ps.any fun (a, n) => decide (a / 32 ≤ x.1) && decide (32 * x.1 < a + n)
  let t := hit.foldl State.meetFlaw s
  if hit.all (·.2.isSome) then f t else t

end Sys2Proof.Machine
end

