-- ==== Sys2Proof/Machine/Layout.lean ====
section
/-! DEFINITION. Where regions stand on the device: circuits, positions, physical columns and
slots (01_organisation.md R13, R15, R17; 02_execution_model.md R28), and the records and
strikes that name them (22_faults_machinery.md R385, R392, R399). -/

namespace Sys2Proof.Machine

open Sys2Proof

/-- First position and positions of a circuit (R17). -/
def circuitSpan (c : Circuits) (circ : Nat) : Nat × Nat :=
  match c, circ with
  | .whole, _ => (0, 50)
  | .split, 0 => (0, 33)
  | .split, _ => (33, 17)
  | .halves, 0 => (0, 25)
  | .halves, _ => (25, 25)

/-- Assignable positions of a circuit (R17). -/
def assignable (c : Circuits) (circ : Nat) : Nat :=
  let n := (circuitSpan c circ).2
  match c with
  | .whole => n - 2
  | _ => n - 1

/-- Whether a circuit exists in a configuration (R17). -/
def circuitIs (c : Circuits) (circ : Nat) : Bool :=
  match c with
  | .whole => circ == 0
  | _ => decide (circ < 2)

/-- The positions of a circuit in order, without those that are fenced (R15, R402). -/
def State.ring (s : State) (circ : Nat) : List Nat :=
  let (a, k) := circuitSpan s.config circ
  ((List.range k).map (a + ·)).filter fun p => !s.fenced.contains p

/-- The position n places forward on a circuit (R15, R18, R402). -/
def State.forward (s : State) (circ p n : Nat) : Nat :=
  let l := s.ring circ
  l.getD ((l.idxOf p + n) % l.length) p

/-- The positions that a region occupies (R27). -/
def State.positions (s : State) (r : Region) : List Nat := (List.range r.pos).map (s.forward r.id.circ r.head)

/-- The physical column of a region's logical column (R15, R28). -/
def State.physCol (s : State) (r : Region) (lcol : Nat) : Nat :=
  4 * s.forward r.id.circ r.head (lcol / 4) + lcol % 4

/-- The physical column of a compute core; none for a memory core (R21, R28). -/
def State.colOf (s : State) (id : CoreId) : Option Nat :=
  if 0x800 ≤ id.num then none
  else (s.region? id.owner id.circ).map fun r => s.physCol r (id.num / 8)

/-- The physical slot that runs a compute core (R13). -/
def State.slotOf (s : State) (id : CoreId) : Nat :=
  match s.colOf id with
  | none => 15
  | some k => ((s.cols[k]?).bind fun c => c.slots[id.num % 8]?).getD (id.num % 8)

/-- The first architected core of a column whose slot has failed. -/
def PhysCol.broken (c : PhysCol) : Option Nat := (List.range 8).find? fun j => c.failed.contains (c.slots.getD j j)

/-- Whether slot 8 cannot replace every failed slot of a column (R13, R404). -/
def PhysCol.lost (c : PhysCol) : Bool :=
  let broken := (List.range 8).filter fun j => c.failed.contains (c.slots.getD j j)
  decide ((if c.slots.contains 8 ∨ c.failed.contains 8 then 0 else 1) < broken.length)

/-- Whether a region stands on a column with a failed slot that nothing has replaced yet (R403). -/
def State.onBroken (s : State) (r : Region) : Bool :=
  (List.range (4 * r.pos)).any fun l => ((s.cols[s.physCol r l]?).bind PhysCol.broken).isSome

/-- Whether two regions overlap on one circuit (R27). -/
def State.shares (s : State) (a b : Region) : Bool :=
  a.id.circ == b.id.circ && (s.positions a).any fun p => (s.positions b).contains p

/-- Whether two contexts have places that overlap (R27, R48). -/
def State.clash (s : State) (a b : RegionId) : Bool :=
  a == b || (match s.region? a.owner a.circ, s.region? b.owner b.circ with
    | some p, some q => s.shares p q
    | _, _ => false)

/-- The requests that may begin now: the first for its place, with no switch of that place in
progress, no pause, and no turn that waits for its announce (R50). -/
def State.openSwitches (s : State) : List (RegionId × Option RegionId) :=
  if s.phase != .run || s.turnDue then []
  else s.switches.filter fun x =>
    ((s.switches.find? fun y => s.clash x.1 y.1) == some x) && !(s.switching.any fun y => s.clash x.1 y.1)

/-- The contexts that stop when the requests that may begin now do (R48, R50). -/
def State.stopsNow (s : State) : List RegionId :=
  (s.openSwitches.map (·.1)).filter fun id =>
    ((s.region? id.owner id.circ).map fun r => r.resident && !r.preempt).getD false

/-- A pre-emption request joins those that wait (R50). -/
def State.askSwitch (s : State) (out : RegionId) (next : Option RegionId) : State :=
  { s with switches := s.switches ++ [(out, next)] }

/-- Stripes that a store of a column has for contexts (R12). -/
def storeStripes : StoreKind → Nat
  | .reg => 16
  | .scratch => 64
  | .bank => 512

/-- The stripes of a context's state areas, which it holds from its first residency (R58, R359). -/
def Region.stateStripes (r : Region) : List Stripe :=
  (List.range (4 * r.pos)).flatMap fun l => (List.range 8).map fun j => ⟨r.id, l, .reg, 2 * j + 1, false⟩

/-- The member that a block at a composed offset goes to (R228). -/
def blockMember (a n : Nat) : Nat := Nat.xor (a / 64) (a / 2048) % n

/-- The leader's number and the member index that a core's records name (R396, R399): a leader's
own stores are member 0's. -/
def State.recordName (s : State) (id : CoreId) : Nat × Nat :=
  match s.core? id with
  | none => (id.num, 15)
  | some c =>
    match c.compo with
    | .member l => (l, id.num - l)
    | .leader _ _ _ _ => (id.num, 0)
    | _ => (id.num, 15)

/-- An error record about a core, against its column (R399); a memory core's stands against
the column of its number on the base die (notes/assumptions/34.md). -/
def State.coreRecord (s : State) (kind : Nat) (id : CoreId) (store off : Nat) : State :=
  let (num, mem) := s.recordName id
  let col := (s.colOf id).getD (id.num % 256)
  s.record col (errorRecord kind mem id.owner num col (s.slotOf id) store off)

/-- An arrival enters the arrival spill area of a core; one that finds it full is discarded
and its owner struck (R376, R377, R390, R392). The spec gives the area's place and size and
no layout of an arrival: the model keeps the arrivals in a list, and the 64 bytes of scratch
at the place that the arrival takes become free values (notes/assumptions/67.md). -/
def State.spillTo (s : State) (id : CoreId) (x : Spilled) : State :=
  match s.core? id with
  | none => s
  | some c =>
    if 256 ≤ c.spill.length then (s.coreRecord 0x0C id 3 0).strike id.owner 0x04
    else
      let a := (if c.isMem then 0x2C000 else 0x6C000) + 64 * c.spill.length
      let bs := (List.range 64).map fun i => Config.freeByte s.draws 0 (a + i)
      { s with draws := s.draws + 1 }.updCore id fun c => { c.writeScr a bs with spill := c.spill ++ [x] }

/-- Whether a turn's pause is in progress (R31). -/
def State.paused (s : State) : Bool := s.phase != .run

/-- Whether traffic moves: outside a pause, and from its announce to the end of its drain
(R31, R33). -/
def State.flows (s : State) : Bool := s.phase == .run || s.phase == .announce || s.phase == .drain

/-- A deferred cause becomes pending, the first of its class only (R365, R376, R390, R391). -/
def Core.deferOnce (c : Core) (d : Deferred) : Core :=
  let same := c.deferred.any fun x => match x, d with
    | .overrun _ _, .overrun _ _ => true
    | .dequeFull _, .dequeFull _ => true
    | .underflow _ _, .underflow _ _ => true
    | _, _ => false
  if same then c else { c with deferred := c.deferred ++ [d] }

/-- A deferred cause becomes pending. -/
def Core.defer (c : Core) (d : Deferred) : Core := { c with deferred := c.deferred ++ [d] }

/-- Change a queue of a function. -/
def State.updQueue (s : State) (f q : Nat) (g : Queue → Queue) : State :=
  s.updFn f fun fn => { fn with queues := modAt fn.queues q g }

/-- A queue of a function. -/
def State.queue (s : State) (f q : Nat) : Queue := (s.fn f).queues.getD q Queue.reset

/-- A taken packet completes: its entry is decided (R319). -/
def State.complete (s : State) (f q : Nat) (sseq : BitVec 16) (type status : BitVec 4) (detail : BitVec 64) : State :=
  s.updQueue f q fun k =>
    { k with
      taken := k.taken.filter fun t => t.sseq ≠ sseq
      comps := k.comps ++ [⟨status, type, sseq, detail⟩] }

/-- An event that is due before the next packet. -/
def State.due (s : State) (i : Instr) (a : EvArg) : State := { s with agenda := s.agenda ++ [(i, a)] }

end Sys2Proof.Machine
end

