-- ==== Sys2Proof/Machine/Fetch.lean ====
section
/-! DEFINITION. Fetching and issuing a packet (06_encoding.md R132 to R136, R150 to R154;
21_faults_instructions.md R363, R364, R374, R375), with the meaning of a word passed as
an argument, and placing one word for the next fetch. -/

namespace Sys2Proof.Machine

open Sys2Proof

/-! ## The words of a packet -/

/-- Slot classes of words (R132). -/
inductive Slot | s | v | m | c | h
  deriving DecidableEq, Repr

/-- A word's slot class (R132). -/
def slotOf (w : IWord) : Slot :=
  let mj := (major w).toNat
  if mj ≤ 0x1F then .s else if mj ≤ 0x2F then .v else if mj ≤ 0x37 then .m
  else if mj ≤ 0x3D then .c else .h

/-- The E bit (R132). -/
def eBit (w : IWord) : Bool := w.getLsbD 31

/-- The end of the range a core fetches from (R65, R232). -/
def Core.fetchEnd (c : Core) : Nat := if c.composed then 0x80000 else c.scrSize

/-- The word that the core in turn fetches at an offset: one it has fetched since its last
`fence.core`, otherwise the word of its scratch (R66). -/
def State.wordAt (s : State) (a : Nat) : IWord :=
  (s.me.fetched.lookup a).getD (BitVec.ofNat 32 (bytesNat (s.scrBytes a 4)))

/-- The core keeps the words it has fetched from an offset upward (R66). -/
def Core.keep (c : Core) (a : Nat) : List IWord → Core
  | [] => c
  | w :: ws =>
    Core.keep (if (c.fetched.lookup a).isSome then c else { c with fetched := (a, w) :: c.fetched })
      (a + 4) ws

/-- Whether a word with E = 1 lies at or after offset `a`, before the end of fetching
(R375): bit 7 of some byte at an offset of 3 modulo 4. -/
def State.closes (s : State) (a : Nat) : Bool :=
  let n := s.me.compN
  (List.range n).any fun i =>
    match (if n = 1 then some s.me else s.core? { s.me.id with num := s.me.id.num + i }) with
    | none => false
    | some c => c.scr.any fun (o, b) =>
        let x := (o / 128 * n + i) * 128 + o % 128
        decide (a ≤ x) && decide (x % 4 = 3) && decide (x < s.me.fetchEnd) && b.getLsbD 7

/-- The words from an offset up to the first with E = 1, at most `n` (R133). -/
def State.packetAt (s : State) (a : Nat) : Nat → List IWord
  | 0 => []
  | n + 1 =>
    let w := s.wordAt a
    w :: (if eBit w then [] else State.packetAt s (a + 4) n)

/-! ## Packet rules (R133, R151, R366 class 0x11, R374) -/

/-- Whether `hwimm` can widen a word (R151). -/
def widens (w : IWord) : Bool :=
  let mj := (major w).toNat
  (decide (0x02 ≤ mj) && decide (mj ≤ 0x15)) || mj == 0x2E

/-- Whether a word is `hwimm`, by its bits (R150). -/
def isHwimm (w : IWord) : Bool := major w == 0x3E && !w.getLsbD 24
/-- Whether a word is `hblk`, by its bits (R150). -/
def isHblk (w : IWord) : Bool := major w == 0x3E && w.getLsbD 24

/-- The rules that word i of a packet breaks, given the words before it and after it, as
(index, sub). -/
def ruleAt (pre : List IWord) (w : IWord) (post : List IWord) : List (Nat × Nat) :=
  let i := pre.length
  let nexts := post.dropWhile fun x => slotOf x == .h
  if slotOf w == .h then
    let hs := (pre.filter fun x => slotOf x == .h).length
    -- the run of hints that stands before w and attaches to the same word
    let run := (pre.reverse.takeWhile fun x => slotOf x == .h).filter isHwimm
    let later := (post.takeWhile fun x => slotOf x == .h).filter isHwimm
    (if hs = 2 then [(i, 3)] else []) ++
    (match nexts with
     | [] => [(i, 4)]
     | t :: _ =>
       if isHwimm w then
         (if !widens t && run.isEmpty then [(i, 6)] else []) ++
         (if major t == 0x2E && run.length == 1 && later.isEmpty then [(i, 6)] else [])
       else []) ++
    (if isHblk w && i ≠ 0 then [(i, 5)] else [])
  else if pre.any fun x => slotOf x == slotOf w then [(i, 2)] else []

/-- All broken rules of a packet, each with its index. -/
def rulesFrom (pre : List IWord) : List IWord → List (Nat × Nat)
  | [] => []
  | w :: post => ruleAt pre w post ++ rulesFrom (pre ++ [w]) post

/-- The lower of two broken rules: by index, then by sub. -/
def lowerRule (a b : Nat × Nat) : Nat × Nat :=
  if a.1 < b.1 ∨ (a.1 = b.1 ∧ a.2 ≤ b.2) then a else b

/-- The packet rule that is reported: the lowest word index at which one is broken (R364). -/
def packetRule (ws : List IWord) : Option (Nat × Nat) :=
  let all := (if 4 < ws.length then [(4, 1)] else []) ++ rulesFrom [] ws
  match all with
  | [] => none
  | r :: rs => some (rs.foldl lowerRule r)

/-! ## Words with their hints -/

/-- A word of a packet with the hints that attach to it (R133, R150). -/
structure PWord where
  ix : BitVec 2
  i : Instr
  hints : List Instr
  deriving DecidableEq, Repr

/-- Whether a word's imm12 is a CSR number (R170). -/
def namesCsr : Instr → Bool
  | .csrr _ _ | .csrw _ _ | .csrs _ _ | .csrc _ _ => true
  | _ => false

/-- Whether a hint is an `hwimm` that changes the value of a natural number it widens. -/
def widening : Instr → Bool
  | .hwimm p => p != 0
  | _ => false

/-- What decoding a packet's words gives: each word's instruction, or why it is none; a
payload that an immediate of a VI word cannot take is the hint's (R151), and one that widens
a CSR number names no CSR (R151, R170). -/
def decodeWords (mem : Bool) (ix : Nat) (hs : List Instr) :
    List IWord → List (BitVec 6 × BitVec 2 × (Illegal ⊕ PWord))
  | [] => []
  | w :: ws =>
    let k : BitVec 2 := BitVec.ofNat 2 ix
    match decode mem w with
    | .bad r => (major w, k, .inl r) :: decodeWords mem (ix + 1) [] ws
    | .ok i =>
      match i with
      | .hwimm p =>
        let target := ws.dropWhile fun x => slotOf x == .h
        if (target.head?.map fun t => major t == 0x2E) == some true && p.extractLsb' 16 8 != 0 then
          (major w, k, .inl .nonzeroField) :: decodeWords mem (ix + 1) (hs ++ [.hwimm p]) ws
        else decodeWords mem (ix + 1) (hs ++ [.hwimm p]) ws
      | .hgran g => decodeWords mem (ix + 1) (hs ++ [.hgran g]) ws
      | .hrm r => decodeWords mem (ix + 1) (hs ++ [.hrm r]) ws
      | .hblk l => decodeWords mem (ix + 1) (hs ++ [.hblk l]) ws
      | i =>
        (major w, k, if namesCsr i && hs.any widening then .inl .csrAbsent else .inr ⟨k, i, hs⟩) ::
          decodeWords mem (ix + 1) [] ws

/-- Where a word stands in the order in which the words of one packet act: word order
(R135), but for the words that take effect after their packet (R136, R176, R224, R227), which
come last; a `cmpo` that is refused only writes its register, `bound` tells of one that is not. -/
def rank (bound : Bool) : Instr → Nat
  | .trap _ | .svc _ | .tret | .tend | .cmpr => 1
  | .cmpo _ _ _ => if bound then 1 else 0
  | _ => 0

/-- The words of a packet in the order in which they act: of two local writes of one packet to the
same bytes, the one placed later takes effect where both take the same time (R135; of different
times: notes/assumptions/87.md). -/
def actOrder (bound : Bool) (ws : List PWord) : List PWord :=
  (ws.filter fun w => rank bound w.i = 0) ++ (ws.filter fun w => rank bound w.i = 1)

/-- The task, message and composition words, which entries wait for while they stall (R225). -/
def taskWord : Instr → Bool
  | .amsg _ _ | .tspawn _ _ | .tfork _ _ | .tsig _ _ | .tinit _ _ _ | .tend | .cmpo _ _ _ | .cmpr => true
  | _ => false

/-- The hints before a word leave their payloads (R150). -/
def runHints (ex : Instr → State → Res?) : List Instr → State → State
  | [], s => s
  | h :: hs, s => runHints ex hs (match ex h s with | .next t => t | _ => s)

/-- The core in turn holds a word of its packet, with its hints. -/
def State.hold (ex : Instr → State → Res?) (s : State) (w : PWord) (commit : Bool) : State :=
  runHints ex w.hints (s.onMe fun c => { c with issue := { c.issue with
    word := w.ix, hw := [], gran := none, hrm := none, status := .ready, commit := commit } })

/-- An event row with its operands. -/
def fire (ex : Instr → State → Res?) (i : Instr) (a : EvArg) (s : State) : Res? :=
  ex i { s with ev := a }

/-! ## Issuing a packet (R134, R363, R364) -/

/-- The class of the exception that a trapped state reports. -/
def State.trapClass (s : State) : Nat := (s.me.csr.ecause.setWidth 8).toNat

/-- What a word answers on the state before its packet. -/
inductive Probe
  | fine
  | operand
  | waits (t : State)
  | misses (r : Res?)
  | traps (cls : Nat) (r : Res?)
  | stops (r : Res?)

/-- A word is tried on the state before its packet (R363). -/
def probe (ex : Instr → State → Res?) (s : State) (w : PWord) : Probe :=
  match ex w.i (s.hold ex w false) with
  | .next t =>
    match t.me.issue.status with
    | .ready => .fine
    | .operand => .operand
    | .waiting => .waits t
    | .missed => .misses (.next t)
    | .trapped => .traps t.trapClass (.next t)
  | r => .stops r

/-- The packet waits and nothing of it has acted, but a word that keeps what it has begun
keeps it (R224, R227), a product that waits at the barrier stays known there (R263), and so
do an access held for its home module (R449) and a `wfe` on its latch (R181). -/
def State.waits (s0 t : State) : State :=
  if t.me.issue.keep then t.onMe fun c => { c with issue := { s0.me.issue with status := .waiting } }
  else (s0.onMe fun c => { c with atBarrier := t.me.atBarrier, onLatch := t.me.onLatch, homeHeld := t.me.homeHeld }).stall .waiting

/-- The states that the waiting words of a packet leave, in word order. -/
def waiting (ps : List (BitVec 6 × BitVec 2 × (Illegal ⊕ Probe))) : List State :=
  ps.filterMap fun p => match p with
    | (_, _, .inr (.waits t)) => some t
    | _ => none

/-- A packet of which several words wait: none has come to its own wait yet, but the time
for which an access is held for its home runs (R449). -/
def State.waitsAll (s0 : State) (ts : List State) : State :=
  match ts with
  | [t] => s0.waits t
  | ts => (s0.onMe fun c => { c with homeHeld := ts.findSome? (·.me.homeHeld) }).stall .waiting

/-- Whether the words of a packet together found less room than each of them alone: the
store buffer (R186), outstanding loads and atomics (R187). -/
def Core.crowded (before c : Core) : Bool :=
  let more := fun (n : Nat) (l : Core → Nat) => decide (n < l c) && decide (l before < l c)
  more 32 (·.sb.length) || more 16 fun c => (c.outs.filter fun o => o.kind = .load ∨ o.kind = .atomic).length

/-- The words act one after another on what their packet found (R134); a word that finds a
ring used up by another of the packet (R205) leaves the packet unissued. -/
def commitAll (ex : Instr → State → Res?) (s0 : State) : List PWord → State → Res?
  | [], s => if Core.crowded s0.me s.me then .next (s0.stall .waiting) else .next s
  | w :: ws, s =>
    match ex w.i (s.hold ex w true) with
    | .next t =>
      match t.me.issue.status with
      | .ready => commitAll ex s0 ws t
      | .trapped => .next t
      | _ => .next (s0.waits t)
    | r => r

/-- The first of the answers that is reported in encoding checks (R364): an illegal word,
or a privilege or composed-misuse exception, in word order. -/
def encodingFault (ps : List (BitVec 6 × BitVec 2 × (Illegal ⊕ Probe))) :
    Option (BitVec 6 × BitVec 2 × (Illegal ⊕ Res?)) :=
  match ps with
  | [] => none
  | (m, k, .inl r) :: _ => some (m, k, .inl r)
  | (m, k, .inr (.traps cls r)) :: ps =>
    if cls = 0x13 ∨ cls = 0x14 then some (m, k, .inr r) else encodingFault ps
  | (_, _, .inr _) :: ps => encodingFault ps

/-- The first operand exception, in word order (R364). -/
def operandFault (ps : List (BitVec 6 × BitVec 2 × (Illegal ⊕ Probe))) : Option Res? :=
  ps.findSome? fun p => match p with
    | (_, _, .inr (.traps _ r)) => some r
    | (_, _, .inr (.stops r)) => some r
    | _ => none

/-- What a packet answers in which a translation misses and no word waits: elements that
translate have performed, and the miss is due (R408, R412). -/
def missAnswer (ps : List (BitVec 6 × BitVec 2 × (Illegal ⊕ Probe))) : Option Res? :=
  if ps.any (fun p => match p with | (_, _, .inr (.waits _)) => true | _ => false) then none
  else ps.findSome? fun p => match p with
    | (_, _, .inr (.misses r)) => some r
    | _ => none

/-- A packet has issued: the pc moves on unless a word has set it (R136), the wait count
restarts (R394), replies are spent (R411), and the core is done in this cc. -/
def Core.issued (c : Core) : Core :=
  let c := if c.issue.taken then c else { c.advance with blk := c.advance.blk }
  { c with
    issue := Issue.idle, done := true, waited := 0, homeHeld := none, homeAns := none, rearmed := false
    answered := if c.ahead.isSome then c.answered else []
    homeMissed := c.homeMissed && c.ahead.isSome
    ahead := c.ahead.map fun a => { a with packets := a.packets + 1 } }

/-- The outcome of a packet's words: an entry leaves the core to issue again in the same
cc (R363); a wait ends the core's turn. -/
def State.afterPacket (s : State) : State :=
  match s.me.issue.status with
  | .ready =>
    let s := s.onMe Core.issued
    match s.me.ahead with
    | some a => if 256 ≤ a.packets ∨ 32 ≤ a.batch.length then s.endAhead else s
    | none => s
  | .trapped => s.onMe fun c => { c with issue := Issue.idle }
  | _ => s.onMe fun c => { c with issue := Issue.idle, done := true }

/-- Apply a state change to a next state. -/
def mapNext (f : State → State) : Res? → Res?
  | .next s => .next (f s)
  | r => r

/-- Whether run-ahead ends in front of a packet that holds such a word (R408). -/
def endsAhead : Instr → Bool
  | .tend | .trap _ | .svc _ | .wfe | .hfenceL | .oxfer _ _ | .oacq _ => true
  | _ => false

/-- The words of a packet that is longer than its rules allow, up to its end, for the rule
that looks past word 3 (R133). -/
def State.wholePacket (s : State) (a : Nat) (ws : List IWord) : List IWord :=
  if ws.length < 5 then ws else s.packetAt a ((s.me.fetchEnd - a) / 4)

/-- Whether a packet of such words stalls. -/
def stalls (ex : Instr → State → Res?) (s : State) (ws : List PWord) : Bool :=
  ws.any fun w => match probe ex s w with | .operand | .waits _ => true | _ => false

/-- A packet stalls. When it waits for nothing but what is itself to be replayed (a pending write,
the V pipe's count), the replay goes on from this cc, since the packet would never issue otherwise
(R51; notes/assumptions/55.md); entries wait for a task word of it (R225). -/
def State.stuck (ex : Instr → State → Res?) (ws : List PWord) (s : State) : State :=
  let free := !stalls ex (s.onMe fun c => { c with pend := [], vbusy := 0 }) ws
  s.onMe fun c => { c with rearmed := c.rearmed && !free, onTask := ws.any fun w => taskWord w.i }

/-- Issue the packet at the pc of the core in turn (R133, R134, R363, R364, R375). `einfo` names the
word at which a rule is broken in 2 bits: a fifth word is named 0, which is the model's choice
(notes/assumptions/85.md). -/
def issuePacket (ex : Instr → State → Res?) (s : State) : Res? :=
  let pc := s.me.pc
  let ws := s.packetAt pc 5
  if s.me.fetchEnd ≤ pc ∨
      (if ws.any eBit then s.me.fetchEnd < pc + 4 * ws.length else s.closes pc = false) then
    mapNext State.afterPacket (fire ex .fetchFault .none s)
  else
    let s := s.onMe fun c => c.keep pc ws
    let fst := pc
    let nxt := pc + 4 * ws.length
    let s := s.onMe fun c => { c with issue := { Issue.idle with fst := fst, nxt := nxt } }
    match packetRule (s.wholePacket pc ws) with
    | some (i, sub) =>
      mapNext State.afterPacket
        (fire ex .packetRuleViolation (.rule (BitVec.ofNat 8 sub) (BitVec.ofNat 2 i)) s)
    | none =>
      if s.me.blk ∧ (ws.head?.map isHblk) ≠ some true then
        .next (s.raise ⟨0x14, 5, 0, 0, (ws.head?.map major).getD 0⟩).afterPacket
      else
        let ps := (decodeWords s.me.isMem 0 [] ws).map fun (m, k, d) =>
          match d with
          | .inl r => (m, k, (.inl r : Illegal ⊕ Probe))
          | .inr w => (m, k, .inr (probe ex s w))
        let words := (decodeWords s.me.isMem 0 [] ws).filterMap fun (_, _, d) =>
          match d with
          | .inl _ => none
          | .inr w => some w
        if s.me.ahead.isSome ∧ (words.any fun w => endsAhead w.i) then .next s.endAhead.afterPacket
        else if ps.any fun p => match p with | (_, _, .inr .operand) => true | _ => false then
          .next ((s.stuck ex words).stall .operand).afterPacket
        else match encodingFault ps with
          | some (m, k, .inl r) =>
            mapNext State.afterPacket (fire ex .illegalInstruction (.illegal m r.sub r.reg)
              (s.onMe fun c => { c with issue := { c.issue with word := k } }))
          | some (_, _, .inr r) => mapNext State.afterPacket r
          | none =>
            match operandFault ps with
            | some r => mapNext State.afterPacket r
            | none =>
             match missAnswer ps with
             | some r => mapNext State.afterPacket r
             | none =>
              match waiting ps with
              | t :: ts => .next ((s.waitsAll (t :: ts)).stuck ex words).afterPacket
              | [] =>
                mapNext (fun t => (t.onMe fun c => { c with blk := c.blk && c.issue.taken }).afterPacket)
                  (commitAll ex s (actOrder s.me.binding.isSome words) (s.onMe fun c => { c with blk := false }))

/-! ## Whose turn it is -/

/-- Whether a core may issue in this cc: its region is resident and the machine is not in
a turn's pause (R31, R32, R48), it runs, and no composition holds it (R54, R370). A firmware core
never turns (R24, R338); at level 0 it runs plug-ins, whose calls are events. -/
def State.mayIssue (s : State) (c : Core) : Bool :=
  if c.firm then !c.stopped && c.csr.level != 0 else s.phase == .run && !c.stopped &&
  ((s.region? c.id.owner c.id.circ).map fun r =>
    r.resident && !r.preempt && !r.blocked && r.ending.isNone).getD false &&
  (let f := s.fn c.id.owner; f.struck.isNone && !f.rollback) &&
  (match c.compo with | .member _ => false | _ => true)

/-- Whether the owner timer is due at this boundary (R179). -/
def State.timerDue (s : State) : Bool :=
  s.me.csr.level == 0 && s.me.csr.ocmp.getLsbD 63 &&
  decide ((s.me.csr.ocmp.setWidth 63).toNat ≤ (s.csr .ocyc).toNat)

/-- A `wfe` that waits at an interruption completes at the stop, and its packet with it
(R181); `onLatch` then tells the stop to leave the latch cleared. -/
def State.finishWfe (ex : Instr → State → Res?) (waits : Bool) (s : State) : State :=
  if !waits then s
  else match issuePacket ex (s.onMe fun c => { c with latch := true }) with
    | .next t => t.onMe fun c => { c with onLatch := !c.latch }
    | _ => s

/-- The entry that is due at the boundary of the core in turn, in front of its packet: a `trap`
or `svc` that has waited, a deferred cause, the owner timer (R180, R365, R387); none while a
remote access is owed (R190), in run-ahead, between a branch and its target, or in front of a
packet of which a task word stalls (R225). -/
def State.dueEntry (ex : Instr → State → Res?) (waits task : Bool) (s : State) : Option Res? :=
  if s.me.running.isNone || decide (0 < s.me.bubble) || s.me.ahead.isSome || s.me.owesRemote then none
  else if s.me.trapDue.isSome then some (.next (s.onMe Core.trapNow))
  else if task then none
  else if s.me.csr.level == 0 && !s.me.deferred.isEmpty then
    some (fire ex .deferredCauseEntry .none (s.finishWfe ex waits))
  else if s.timerDue then some (fire ex .ownerTimer .none (s.finishWfe ex waits))
  else none

/-- Whether an entry is due and waits for remote accesses (R190). -/
def State.entryWaits (s : State) : Bool :=
  s.me.owesRemote &&
    (s.me.trapDue.isSome || (s.me.csr.level == 0 && !s.me.deferred.isEmpty) || s.timerDue)

/-- The entry that the core in turn makes at the boundary at which it stops (R178, R180, R372):
one that is due, or the exception of a packet that would issue there. A packet that raises
none has not issued. -/
def State.lastEntry (ex : Instr → State → Res?) (s : State) : State :=
  match s.dueEntry ex false s.me.onTask with
  | some (.next t) => t
  | some _ => s
  | none =>
    if s.me.running.isNone || decide (0 < s.me.bubble) || s.me.ahead.isSome || s.entryWaits ||
        !s.me.needs.isEmpty then s
    else match issuePacket ex (s.onMe fun c => { c with done := false }) with
      | .next t => if t.me.done then s else t
      | _ => s

/-- The cores that an event stops: a `wfe` on its latch completes first (R31, R48, R181), and an
entry that falls at the same boundary is made first (R178, R372). -/
def State.finishWaits (ex : Instr → State → Res?) (e : Instr) (s : State) : State :=
  let next := match e, s.ev with
    | .preempt, .switch out x => (s.askSwitch out x).stopsNow
    | .preempt, .none => s.stopsNow
    | _, _ => []
  let stops := fun (r : Region) => r.resident && s.phase == .run &&
    (match e with
     | .turnAnnounce => s.turnDue && s.switching.isEmpty && s.regions.all fun r => !r.preempt
     | _ => next.contains r.id)
  let hit := s.cores.filter fun c =>
    s.mayIssue c && ((s.region? c.id.owner c.id.circ).map stops).getD false
  hit.foldl (fun s c => s.onCore c.id fun s => (s.finishWfe ex s.me.onLatch).lastEntry ex) s

/-- The turn of a core: causes that meet at the boundary (R365, R387), a pop by an idle
core (R217), or its packet. A core that cannot issue is done in this cc. -/
def takeTurn (ex : Instr → State → Res?) (s : State) : Res? :=
  let waits := s.me.onLatch
  let task := s.me.onTask
  let s := s.onMe fun c => { c with atBarrier := none, onLatch := false, onTask := false }
  let rest := fun (s : State) => Host.Outcome.next (s.onMe fun c => { c with done := true })
  if !s.mayIssue s.me then rest s
  else if s.me.running.isNone then
    (match s.me.compo with
     | .plain =>
       if s.me.hasWork && !s.me.awaiting then fire ex .taskPop (.core s.me.id) s else rest s
     | _ => rest s)
  else if 0 < s.me.bubble then rest s
  else if s.me.ahead.isSome then issuePacket ex s
  else match s.dueEntry ex waits task with
    | some r => r
    | none =>
      if s.entryWaits || !s.me.needs.isEmpty then rest s
      else issuePacket ex s

/-! ## Placing one word for the next fetch -/

/-- A region of owner 0 that holds every position of the circuit and 96 memory cores. -/
def wholeRegion : Region where
  id := ⟨0, 0⟩
  pos := 48
  head := 0
  mcs := List.range 96
  resident := true
  lastRes := 0
  ocyc := 0
  turnno := 0
  missed := 0
  lastPause := 0
  launch := none
  dom := 0
  inj := 0
  ej := 0
  wave := none
  arrays := List.replicate 192 ⟨[], none⟩
  banks := List.replicate 192 []
  bankTouched := []
  bankDirty := []
  preempt := false
  started := true
  blocked := false
  veil := []
  ending := none

/-- Place a word where the core in turn fetches next, with a closing word when its E is
0: the core runs a task of a resident region at level 0 with the word at offset 0 of its
scratch. It is a memory core when the word is an instruction on memory cores only. -/
def State.place (s : State) (w : IWord) : State :=
  let mem := match decode false w with | .ok _ => false | .bad _ => true
  let close : IWord := if major w = 0x3E ∨ major w = 0x3F then 0x84000000 else 0x8000001C
  let bs := natBytes 4 w.toNat ++ (if eBit w then [] else natBytes 4 close.toNat)
  let num := if mem then 0x800 else 0
  let kind := decide (0x800 ≤ s.me.id.num)
  let id : CoreId := if s.me.id.owner < 64 && kind == mem then s.me.id else ⟨0, 0, num⟩
  let have_ := (s.region? id.owner id.circ).isSome
  { s with
    agenda := []
    phase := .run
    hwErrors := []
    regions := if have_ then
        s.regions.map fun r => if r.id.owner = id.owner ∧ r.id.circ = id.circ
          then { r with resident := true, preempt := false, blocked := false, ending := none } else r
      else { wholeRegion with id := ⟨id.owner, id.circ⟩ } :: s.regions
    stripes := if have_ then s.stripes.map fun x => if x.r == ⟨id.owner, id.circ⟩ then ⟨x.r, x.lcol, x.st, x.k, false⟩ else x
      else s.stripes ++ { wholeRegion with id := ⟨id.owner, id.circ⟩ }.stateStripes
    fns := s.fns.map fun f => { f with struck := none, rollback := false }
    me := { s.me with
      id := id
      firm := false
      csr := { s.me.csr with
        ocmp := 0
        level := 0
        evec := if have_ then s.me.csr.evec else if mem then 0x2A else 0x6A }
      pc := 0
      fetched := []
      bubble := 0
      blk := false
      blkLeft := 0
      onTask := false
      rowsOut := []
      done := false
      issue := Issue.idle
      running := some (s.me.running.getD 0)
      compo := .plain
      stopped := false
      trapDue := none
      deferred := []
      ckpt := none
      ahead := none
      walks := []
      needs := []
      answered := []
      asked := []
      onLatch := false
      scr := s.me.scr.putBytes 0 bs
      touched := (s.me.writeScr 0 bs).touched } }

end Sys2Proof.Machine
end

