-- ==== Sys2Proof/Machine/Scalar.lean ====
section
/-! DEFINITION. The scalar words of majors 0x00 to 0x07: integer, bit, division,
immediate and predicate words (07_scalar_control.md R160 to R167). -/

namespace Sys2Proof.Machine

open Sys2Proof

/-! ## Shared operations -/

/-- A word that reads the resources `src` and whose value lands in register rd after L cc
(R155, R160, R162). -/
def scalar (src : List Res) (rd : BitVec 6) (v : BitVec 64) (L : Nat) (s : State) : Res? :=
  act src [.g rd] none false (s.later (.g rd v) L) s

/-- A register-register word (R162). -/
def scalar2 (f : BitVec 64 → BitVec 64 → BitVec 64) (L : Nat) (rd ra rb : BitVec 6) (s : State) : Res? :=
  scalar [.g ra, .g rb] rd (f (s.me.gr ra) (s.me.gr rb)) L s

/-- A register word with one source (R162). -/
def scalar1 (f : BitVec 64 → BitVec 64) (rd ra : BitVec 6) (s : State) : Res? :=
  scalar [.g ra] rd (f (s.me.gr ra)) 1 s

/-- An immediate word (R166). -/
def scalarI (f : BitVec 64 → BitVec 64 → BitVec 64) (rd ra : BitVec 6) (imm : BitVec 12) (s : State) : Res? :=
  scalar [.g ra] rd (f (s.me.gr ra) (s.widen imm)) 1 s

/-- A predicate word: its value lands after 1 cc (R167). -/
def scalarP (src : List Res) (pd : BitVec 3) (v : Bool) (s : State) : Res? :=
  act src [.p pd] none false (s.later (.p pd v) 1) s

/-- An interlocked division (R164): the result is fixed at issue and lands at most 34 cc
later. -/
def divide (f : BitVec 64 → BitVec 64 → BitVec 64) (rd ra rb : BitVec 6) (s : State) : Res? :=
  act [.g ra, .g rb] [.g rd] none false
    (s.onMe fun c => c.owed .division rd (f (s.me.gr ra) (s.me.gr rb)) 34) s

/-! ## Values (R163 to R165) -/

/-- 1 if a condition holds, else 0. -/
def ofBool64 (b : Bool) : BitVec 64 := if b then 1 else 0

/-- Leading zero bits (R163). -/
def countLead (a : BitVec 64) : BitVec 64 :=
  BitVec.ofNat 64 (((List.range 64).reverse.takeWhile fun i => !a.getLsbD i).length)

/-- Trailing zero bits (R163). -/
def countTrail (a : BitVec 64) : BitVec 64 :=
  BitVec.ofNat 64 (((List.range 64).takeWhile fun i => !a.getLsbD i).length)

/-- Set bits (R163). -/
def countOnes (a : BitVec 64) : BitVec 64 :=
  BitVec.ofNat 64 (((List.range 64).filter fun i => a.getLsbD i).length)

/-- The mask of the low `w` bits. -/
def lowMask (w : Nat) : BitVec 64 := BitVec.ofNat 64 (2 ^ w - 1)

/-- Sign extension of the low w bits (R163). -/
def signLow (a : BitVec 64) (w : Nat) : BitVec 64 := (a <<< (64 - w)).sshiftRight (64 - w)

/-- The field of R165 taken from a. -/
def bitField (a b : BitVec 64) : BitVec 64 :=
  (a >>> (b.extractLsb' 0 6).toNat) &&& lowMask ((b.extractLsb' 8 6).toNat + 1)

/-- The old value with the field of R165 replaced by the low bits of a. -/
def putField (old a b : BitVec 64) : BitVec 64 :=
  let pos := (b.extractLsb' 0 6).toNat
  let m := lowMask ((b.extractLsb' 8 6).toNat + 1)
  (old &&& ~~~(m <<< pos)) ||| ((a &&& m) <<< pos)

/-- The signed quotient of R164. -/
def quotS (a b : BitVec 64) : BitVec 64 := if b = 0 then -1 else BitVec.ofInt 64 (a.toInt.tdiv b.toInt)
/-- The unsigned quotient of R164. -/
def quotN (a b : BitVec 64) : BitVec 64 := if b = 0 then -1 else a / b
/-- The signed remainder of R164. -/
def remS (a b : BitVec 64) : BitVec 64 := if b = 0 then a else BitVec.ofInt 64 (a.toInt.tmod b.toInt)
/-- The unsigned remainder of R164. -/
def remN (a b : BitVec 64) : BitVec 64 := if b = 0 then a else a % b

/-- A comparison condition (R143, R167). -/
def condHolds (c : Cond) (a b : BitVec 64) : Bool :=
  match c with
  | .eq => a == b
  | .ne => a != b
  | .lt => a.slt b
  | .ge => b.sle a
  | .ltn => a.ult b
  | .gen => b.ule a

/-! ## Register-register words (R162, R163) -/

/-- `add` (R163): a plus b modulo 2^64. -/
def execAdd (rd ra rb : BitVec 6) (s : State) : Res? := scalar2 (fun a b => a + b) 1 rd ra rb s

/-- `sub` (R163): a minus b. -/
def execSub (rd ra rb : BitVec 6) (s : State) : Res? := scalar2 (fun a b => a - b) 1 rd ra rb s

/-- `and` (R163): bitwise AND. -/
def execAnd (rd ra rb : BitVec 6) (s : State) : Res? := scalar2 (fun a b => a &&& b) 1 rd ra rb s

/-- `or` (R163): bitwise OR. -/
def execOr (rd ra rb : BitVec 6) (s : State) : Res? := scalar2 (fun a b => a ||| b) 1 rd ra rb s

/-- `xor` (R163): bitwise exclusive OR. -/
def execXor (rd ra rb : BitVec 6) (s : State) : Res? := scalar2 (fun a b => a ^^^ b) 1 rd ra rb s

/-- `shl` (R163): a shifted left by b[5:0]. -/
def execShl (rd ra rb : BitVec 6) (s : State) : Res? := scalar2 (fun a b => a <<< (b.extractLsb' 0 6).toNat) 1 rd ra rb s

/-- `shr` (R163): a shifted right by b[5:0]. -/
def execShr (rd ra rb : BitVec 6) (s : State) : Res? := scalar2 (fun a b => a >>> (b.extractLsb' 0 6).toNat) 1 rd ra rb s

/-- `sra` (R163): a shifted arithmetically right by b[5:0]. -/
def execSra (rd ra rb : BitVec 6) (s : State) : Res? := scalar2 (fun a b => a.sshiftRight (b.extractLsb' 0 6).toNat) 1 rd ra rb s

/-- `mul` (R163): low 64 bits of the product. -/
def execMul (rd ra rb : BitVec 6) (s : State) : Res? := scalar2 (fun a b => a * b) 3 rd ra rb s

/-- `mulh` (R163): high 64 bits of the signed product. -/
def execMulh (rd ra rb : BitVec 6) (s : State) : Res? := scalar2 (fun a b => (a.signExtend 128 * b.signExtend 128).extractLsb' 64 64) 3 rd ra rb s

/-- `mulhn` (R163): high 64 bits of the unsigned product. -/
def execMulhn (rd ra rb : BitVec 6) (s : State) : Res? := scalar2 (fun a b => (a.setWidth 128 * b.setWidth 128).extractLsb' 64 64) 3 rd ra rb s

/-- `min` (R163): lesser, signed. -/
def execMin (rd ra rb : BitVec 6) (s : State) : Res? := scalar2 (fun a b => if b.slt a then b else a) 1 rd ra rb s

/-- `max` (R163): greater, signed. -/
def execMax (rd ra rb : BitVec 6) (s : State) : Res? := scalar2 (fun a b => if a.slt b then b else a) 1 rd ra rb s

/-- `minn` (R163): lesser, unsigned. -/
def execMinn (rd ra rb : BitVec 6) (s : State) : Res? := scalar2 (fun a b => if b.ult a then b else a) 1 rd ra rb s

/-- `maxn` (R163): greater, unsigned. -/
def execMaxn (rd ra rb : BitVec 6) (s : State) : Res? := scalar2 (fun a b => if a.ult b then b else a) 1 rd ra rb s

/-- `slt` (R163): 1 if a < b signed. -/
def execSlt (rd ra rb : BitVec 6) (s : State) : Res? := scalar2 (fun a b => ofBool64 (a.slt b)) 1 rd ra rb s

/-- `sltn` (R163): 1 if a < b unsigned. -/
def execSltn (rd ra rb : BitVec 6) (s : State) : Res? := scalar2 (fun a b => ofBool64 (a.ult b)) 1 rd ra rb s

/-- `bext` (R163): the field of R165. -/
def execBext (rd ra rb : BitVec 6) (s : State) : Res? := scalar2 (fun a b => bitField a b) 1 rd ra rb s

/-- `div` (R164). -/
def execDiv (rd ra rb : BitVec 6) (s : State) : Res? := divide quotS rd ra rb s

/-- `divn` (R164). -/
def execDivn (rd ra rb : BitVec 6) (s : State) : Res? := divide quotN rd ra rb s

/-- `rem` (R164). -/
def execRem (rd ra rb : BitVec 6) (s : State) : Res? := divide remS rd ra rb s

/-- `remn` (R164). -/
def execRemn (rd ra rb : BitVec 6) (s : State) : Res? := divide remN rd ra rb s

/-- `clz` (R163). -/
def execClz (rd ra : BitVec 6) (s : State) : Res? := scalar1 countLead rd ra s

/-- `ctz` (R163). -/
def execCtz (rd ra : BitVec 6) (s : State) : Res? := scalar1 countTrail rd ra s

/-- `popc` (R163). -/
def execPopc (rd ra : BitVec 6) (s : State) : Res? := scalar1 countOnes rd ra s

/-- `sext` (R162, R163): w is held as w − 1. -/
def execSext (rd ra w : BitVec 6) (s : State) : Res? := scalar1 (fun a => signLow a (w.toNat + 1)) rd ra s

/-- `zext` (R162, R163): w is held as w − 1. -/
def execZext (rd ra w : BitVec 6) (s : State) : Res? :=
  scalar1 (fun a => a &&& lowMask (w.toNat + 1)) rd ra s

/-- `bins` (R165): gd is also a source. -/
def execBins (rd ra rb : BitVec 6) (s : State) : Res? :=
  scalar [.g ra, .g rb, .g rd] rd (putField (s.me.gr rd) (s.me.gr ra) (s.me.gr rb)) 1 s

/-- `nop` (R163). -/
def execNop (s : State) : Res? := act [] [] none false s s

/-- `sel` (R163). -/
def execSel (rd ra rb : BitVec 6) (k : BitVec 3) (s : State) : Res? :=
  scalar [.g ra, .g rb, .p k] rd (if s.me.pr k then s.me.gr ra else s.me.gr rb) 1 s

/-! ## Predicate words (R167) -/

/-- `pcmp` (R167). -/
def execPcmp (c : Cond) (p : BitVec 3) (ra rb : BitVec 6) (s : State) : Res? :=
  scalarP [.g ra, .g rb] p (condHolds c (s.me.gr ra) (s.me.gr rb)) s

/-- `pand` (R167). -/
def execPand (d a b : BitVec 3) (s : State) : Res? := scalarP [.p a, .p b] d (s.me.pr a && s.me.pr b) s

/-- `por` (R167). -/
def execPor (d a b : BitVec 3) (s : State) : Res? := scalarP [.p a, .p b] d (s.me.pr a || s.me.pr b) s

/-- `pnot` (R167). -/
def execPnot (d a : BitVec 3) (s : State) : Res? := scalarP [.p a] d (!s.me.pr a) s

/-- `pcmpi` (R167): the sign-extended immediate is compared. -/
def execPcmpi (c : Cond) (p : BitVec 3) (ra : BitVec 6) (imm : BitVec 12) (s : State) : Res? :=
  scalarP [.g ra] p (condHolds c (s.me.gr ra) (s.widen imm)) s

/-! ## Immediate words (R166) -/

/-- `addi` (R166). -/
def execAddi (rd ra : BitVec 6) (imm : BitVec 12) (s : State) : Res? := scalarI (fun a i => a + i) rd ra imm s

/-- `slti` (R166). -/
def execSlti (rd ra : BitVec 6) (imm : BitVec 12) (s : State) : Res? := scalarI (fun a i => ofBool64 (a.slt i)) rd ra imm s

/-- `andi` (R166). -/
def execAndi (rd ra : BitVec 6) (imm : BitVec 12) (s : State) : Res? := scalarI (fun a i => a &&& i) rd ra imm s

/-- `ori` (R166). -/
def execOri (rd ra : BitVec 6) (imm : BitVec 12) (s : State) : Res? := scalarI (fun a i => a ||| i) rd ra imm s

/-- `xori` (R166). -/
def execXori (rd ra : BitVec 6) (imm : BitVec 12) (s : State) : Res? := scalarI (fun a i => a ^^^ i) rd ra imm s

/-- `shli` (R166). -/
def execShli (rd ra n : BitVec 6) (s : State) : Res? := scalar1 (fun a => a <<< n.toNat) rd ra s

/-- `shri` (R166). -/
def execShri (rd ra n : BitVec 6) (s : State) : Res? := scalar1 (fun a => a >>> n.toNat) rd ra s

/-- `srai` (R166). -/
def execSrai (rd ra n : BitVec 6) (s : State) : Res? := scalar1 (fun a => a.sshiftRight n.toNat) rd ra s

/-- `movi` (R166). -/
def execMovi (rd : BitVec 6) (imm : BitVec 18) (s : State) : Res? := scalar [] rd (s.widen imm) 1 s

end Sys2Proof.Machine
end

