-- ==== Sys2Proof/Machine/Control.lean ====
section
/-! DEFINITION. Branches, loops, CSR words, traps and return (07_scalar_control.md R168 to
R181). -/

namespace Sys2Proof.Machine

open Sys2Proof

/-! ## Branches (R136, R168) -/

/-- A word that decides where the thread goes: with an unresolved operand it ends
run-ahead (R408); otherwise as any word. -/
def actBranch (src dst : List Res) (chk : Option Exc) (eff : State) (s : State) : Res? :=
  if s.me.unresolved src then .next s.endAhead else act src dst chk false eff s

/-- The end of the range that a branch target must lie below (R168, R232). -/
def Core.branchEnd (c : Core) : Int := c.fetchEnd

/-- The target of a displacement in words from the packet's first word (R138, R168). -/
def State.target (s : State) (disp : BitVec 19) : Int := s.me.issue.fst + 4 * (s.widen disp).toInt

/-- The check of a branch target (R168, R379). -/
def State.targetCheck (s : State) (mj : BitVec 6) (t : Int) : Option Exc :=
  check (decide (t < 0) || decide (s.me.branchEnd ≤ t)) ⟨0x15, 7, 0, BitVec.ofInt 48 t, mj⟩

/-- A displacement branch, taken or not (R168). -/
def branch (src : List Res) (dst : List Res) (taken : Bool) (disp : BitVec 19) (pre : State) (s : State) : Res? :=
  let t := s.target disp
  actBranch src dst (s.targetCheck 0x0E t) (if taken then pre.onMe fun c => c.jump t.toNat else pre) s

/-- `br` (R168). -/
def execBr (disp : BitVec 19) (s : State) : Res? := branch [] [] true disp s s

/-- `bp` (R168). -/
def execBp (p : BitVec 3) (disp : BitVec 19) (s : State) : Res? := branch [.p p] [] (s.me.pr p) disp s s

/-- `bnp` (R168). -/
def execBnp (p : BitVec 3) (disp : BitVec 19) (s : State) : Res? := branch [.p p] [] (!s.me.pr p) disp s s

/-- `jal` (R168): the link is the offset of the word after the packet. -/
def execJal (disp : BitVec 19) (s : State) : Res? :=
  branch [] [.g 1] true disp (s.later (.g 1 (BitVec.ofNat 64 s.me.issue.nxt)) 1) s

/-- `jr` (R168, R379). -/
def execJr (ra : BitVec 6) (s : State) : Res? :=
  let a := s.me.gr ra
  let bad := a.extractLsb' 0 2 != 0 || decide (s.me.branchEnd ≤ (a.toNat : Int))
  actBranch [.g ra] [] (check bad ⟨0x15, 7, ra, a.setWidth 48, 0x01⟩) (s.onMe fun c => c.jump a.toNat) s

/-- `loop` (R169, R379). -/
def execLoop (ra : BitVec 6) (imm : BitVec 12) (s : State) : Res? :=
  let d := s.widenLoop imm
  let e := s.me.issue.fst + 4 * d
  let bad := decide (e ≤ s.me.issue.nxt) || decide (s.me.branchEnd < e)
  let n := (s.me.gr ra).setWidth 32
  actBranch [.g ra] [] (check bad ⟨0x18, 2, 0, BitVec.ofInt 48 d, 0x0F⟩)
    (s.onMe fun c =>
      let c := { c with csr := { c.csr with
        lpbeg := BitVec.ofNat 19 c.issue.nxt, lpend := BitVec.ofInt 19 e, lpcnt := n } }
      if n = 0 then c.jump e.toNat else c) s

/-! ## CSR words (R170, R174) -/

/-- The privilege check of a CSR word (R170, R366). -/
def State.csrCheck (s : State) (mj : BitVec 6) (k : Csr) (write : Bool) : Option Exc :=
  check (s.me.csr.level == 0 && (Csr.level1 k || (write && k == .estat))) ⟨0x13, 1, 0, 0, mj⟩

/-- What the interlocks of a CSR are. -/
def csrRes (k : Csr) : List Res := if k = .fflags then [.fflags] else []

/-- A write of a CSR lands 1 cc after issue (R170). -/
def csrWrite (mj : BitVec 6) (ra : BitVec 6) (k : Csr) (w : BitVec 64 → Write) (s : State) : Res? :=
  act [.g ra] (csrRes k) (s.csrCheck mj k true) false (s.later (w (s.me.gr ra)) 1) s

/-- `csrr` (R170). -/
def execCsrr (rd : BitVec 6) (k : Csr) (s : State) : Res? :=
  act (csrRes k) [.g rd] (s.csrCheck 0x08 k false) false (s.later (.g rd (s.csr k)) 1) s

/-- `csrw` (R170). -/
def execCsrw (ra : BitVec 6) (k : Csr) (s : State) : Res? := csrWrite 0x08 ra k (.csrSet k) s

/-- `csrs` (R170): combined in the landing cc. -/
def execCsrs (ra : BitVec 6) (k : Csr) (s : State) : Res? := csrWrite 0x09 ra k (.csrOr k) s

/-- `csrc` (R170): combined in the landing cc. -/
def execCsrc (ra : BitVec 6) (k : Csr) (s : State) : Res? := csrWrite 0x09 ra k (.csrClr k) s

/-! ## Traps and return (R175 to R178) -/

/-- `trap` and `svc` (R176, R177): not at level 1 (R366 class 0x13 sub 4), where only `svc` on
a firmware core enters level 2 (R175, R176; `trap` there: notes/assumptions/69.md); the entry
waits for issued remote accesses (R190, R225). -/
def trapWord (cls : BitVec 8) (code : BitVec 12) (s : State) : Res? :=
  let level := s.me.csr.level
  let up := level == 0 || (level == 1 && s.me.firm && cls == 0x02)
  act [] [] (check (!up) ⟨0x13, 4, 0, 0, 0x0D⟩) s.me.owesRemote (s.onMe fun c => c.trapTo cls code) s

/-- `trap` (R176). -/
def execTrap (code : BitVec 12) (s : State) : Res? := trapWord 0x01 code s

/-- `svc` (R176). -/
def execSvc (code : BitVec 12) (s : State) : Res? := trapWord 0x02 code s

/-- Whether an issued result of the core has not landed, or its V pipe is held (R178,
R224). -/
def Core.unfinished (c : Core) : Bool :=
  !c.pend.isEmpty || decide (c.vbusy ≠ 0) || c.outs.any (·.rd ≠ 0) || !c.hbmAcc.isEmpty

/-- The descriptor of the first valid queue entry that fails a check of R158. -/
def firstBad (num : Nat) (m : Memory) : BitVec 64 :=
  ((List.range 48).findSome? fun k =>
    let (d, a) := imageEntry m k
    if d.getLsbD 63 && (entryWrite num m d a).isNone then some d else none).getD 0

/-- `tret` (R178): at level 0 a privilege exception; it waits for the handler's results,
checks the queue image, and returns. -/
def execTret (s : State) : Res? :=
  if s.me.csr.level = 0 then act [] [] (some ⟨0x13, 2, 0, 0, 0x01⟩) false s s
  else if !s.me.issue.commit && s.me.unfinished then .next (s.stall .operand)
  else match imageWrites s.me.id.num s.me.qimg (List.range 48) with
    | none =>
      act [] [] (some ⟨0x18, 1, 0, (firstBad s.me.id.num s.me.qimg).setWidth 48, 0x01⟩) false s s
    | some ps => act [] [] none false (s.onMe fun c => c.back ps) s

/-- `wfe` (R181). -/
def execWfe (s : State) : Res? :=
  actShared [] [] none (!s.me.latch) (s.onMe fun c => { c with latch := false }) s
    (s.onMe fun c => { c with onLatch := !s.me.latch })

end Sys2Proof.Machine
end

