-- ==== Sys2Proof/Machine/Messages.lean ====
section
/-! DEFINITION. Atomics, deposits, active messages, ring advances and the task words
(08_storage_sync.md R191 to R193, R204 to R206; 09_tasks_compose.md R213 to R224). -/

namespace Sys2Proof.Machine

open Sys2Proof

/-! ## Atomics (R191 to R193) -/

/-- The spaces of atomics (R182). -/
def atomSpace : Accepts := ⟨true, false, true, true⟩

/-- Where an atomic on a location is applied (R182, R193): one on own scratch by the
service engine of the core that holds the bytes. -/
def State.atomPlace (s : State) (l : Loc) : Place × Nat :=
  match l with
  | .scratch o => if s.me.composed then (.core (s.me.scrAt o).1.num, (s.me.scrAt o).2) else (.core s.me.id.num, o)
  | l => (l.place s.me.id.num, l.off)

/-- An atomic word (R191, R192): `acas` reads gd as the expected value. -/
def atomWord (op : AtomOp) (rd ra rb : BitVec 6) (o : Order) (s : State) : Res? :=
  let n := if op = .fadd then 4 else 8
  let src : List Res := [.g ra, .g rb, .g rd]
  match s.locate 0x39 ra atomSpace (s.me.gr ra) n n with
  | .error e => act src [.g rd] (some e) false s s
  | .ok l =>
    let (d, off) := s.atomPlace l
    let b := s.me.gr rb
    let exp := s.me.gr rd
    actOut src [.g rd] none
      (s.me.sbFull || s.me.loadWaits l n || decide (16 ≤ s.me.remoteOuts))
      (s.onMe fun c =>
        (c.owe .atomic rd (some d) (o = .acq)).buffer (.send d (.atomic op off b exp rd)) (o = .rel)) s

/-- `aadd` (R192). -/
def execAadd (rd ra rb : BitVec 6) (o : Order) (s : State) : Res? := atomWord .add rd ra rb o s
/-- `aswp` (R192). -/
def execAswp (rd ra rb : BitVec 6) (o : Order) (s : State) : Res? := atomWord .swp rd ra rb o s
/-- `acas` (R192). -/
def execAcas (rd ra rb : BitVec 6) (o : Order) (s : State) : Res? := atomWord .cas rd ra rb o s
/-- `amin` (R192). -/
def execAmin (rd ra rb : BitVec 6) (o : Order) (s : State) : Res? := atomWord .min rd ra rb o s
/-- `amax` (R192). -/
def execAmax (rd ra rb : BitVec 6) (o : Order) (s : State) : Res? := atomWord .max rd ra rb o s
/-- `aminn` (R192). -/
def execAminn (rd ra rb : BitVec 6) (o : Order) (s : State) : Res? := atomWord .minn rd ra rb o s
/-- `amaxn` (R192). -/
def execAmaxn (rd ra rb : BitVec 6) (o : Order) (s : State) : Res? := atomWord .maxn rd ra rb o s
/-- `aand` (R192). -/
def execAand (rd ra rb : BitVec 6) (o : Order) (s : State) : Res? := atomWord .and rd ra rb o s
/-- `aor` (R192). -/
def execAor (rd ra rb : BitVec 6) (o : Order) (s : State) : Res? := atomWord .or rd ra rb o s
/-- `axor` (R192). -/
def execAxor (rd ra rb : BitVec 6) (o : Order) (s : State) : Res? := atomWord .xor rd ra rb o s
/-- `afadd` (R192). -/
def execAfadd (rd ra rb : BitVec 6) (o : Order) (s : State) : Res? := atomWord .fadd rd ra rb o s

/-! ## Deposits and messages (R206, R222, R223) -/

/-- `xput` (R206, R380, R388). -/
def execXput (ga gb : BitVec 6) (x : BitVec 5) (s : State) : Res? :=
  let a := s.me.gr ga
  let n := a.extractLsb' 0 12
  actOut [.g ga, .g gb] []
    (firstOf [check (a.extractLsb' 12 52 != 0) (operandExc 0x3A 1 ga a), s.coreCheck 0x3A 1 ga n])
    s.me.sbFull
    (s.onMe fun c => c.buffer (.send (.core n.toNat) (.deposit x (s.me.gr gb))) false) s

/-- The registers that a header's argument words come from (R219). -/
def argRes (h : BitVec 64) (a : BitVec 6) : List Res := resRun a (min (headerArgc h) 6)

/-- The argument words of a header (R219). -/
def State.args (s : State) (h : BitVec 64) (a : BitVec 6) : List (BitVec 64) :=
  s.me.grRun a (min (headerArgc h) 6)

/-- `amsg` (R222, R381, R388). -/
def execAmsg (ga gb : BitVec 6) (s : State) : Res? :=
  let h := s.me.gr ga
  let n := h.extractLsb' 32 12
  actOut (.g ga :: argRes h gb) []
    (firstOf [headerCheck 0x3A ga gb false h, s.coreCheck 0x3A 2 ga n]) s.me.sbFull
    (s.onMe fun c => c.buffer (.send (.core n.toNat) (.message h (s.args h gb))) true) s

/-- `tspawn` and `tfork` (R221, R381, R389). -/
def pushWord (top : Bool) (ga gb : BitVec 6) (s : State) : Res? :=
  let h := s.me.gr ga
  actOut (.g ga :: argRes h gb) []
    (firstOf [headerCheck 0x3B ga gb true h,
      check (!s.me.hasPlace (h.getLsbD 10) top) ⟨0x21, 1, 0, 0, 0x3B⟩]) s.me.sbFull
    (s.onMe fun c => c.buffer (.push (headerEntry h (s.args h gb)) top) true) s

/-- `tspawn` (R221). -/
def execTspawn (ga gb : BitVec 6) (s : State) : Res? := pushWord false ga gb s

/-- `tfork` (R221). -/
def execTfork (ga gb : BitVec 6) (s : State) : Res? := pushWord true ga gb s

/-- `tsig` (R223, R381, R388). -/
def execTsig (ga gb : BitVec 6) (s : State) : Res? :=
  let r := s.me.gr ga
  let n := r.extractLsb' 0 12
  actOut [.g ga, .g gb] [] (firstOf [refCheck 0x3B ga r, s.coreCheck 0x3B 3 ga n]) s.me.sbFull
    (s.onMe fun c => c.buffer (.send (.core n.toNat) (.signal r (s.me.gr gb))) true) s

/-! ## Ring advances (R204, R205) -/

/-- Whether a kind of `radv` is allowed for a role (R204): pop, push, credit, fill. -/
def radvRole (kind : Nat) (role : Nat) : Bool :=
  match kind with
  | 0 => role == 0 || role == 1
  | 1 => role == 0 || role == 2
  | 2 => role == 1
  | _ => role == 2

/-- The checks of a `radv` of a kind with count c (R204, R380, R388). -/
def State.radvCheck (s : State) (kind : Nat) (ga : BitVec 6) (q : BitVec 3) (c : Nat) : Option Exc :=
  let h := s.me.ringNow q
  firstOf [
    check (!radvRole kind (ringRole h)) (operandExc 0x3A 5 (q.setWidth 6) (BitVec.ofNat 64 kind)),
    check (decide (2 ^ ringLcount h < c)) (operandExc 0x3A 2 ga (BitVec.ofNat 64 c)),
    if 2 ≤ kind then s.coreCheck 0x3A 4 (q.setWidth 6) (BitVec.ofNat 12 (ringPeer h)) else none]

/-- A `radv` of a kind, which changes its ring after earlier reads and near writes (R300): its local change lands in the next cc, its message enters the store
buffer; a count of 0 does nothing (R204). What it finds in the ring is what earlier
words of its packet leave (R205). -/
def radv (kind : Nat) (rel : Bool) (ga : BitVec 6) (q : BitVec 3) (short : BitVec 256 → Nat → Bool)
    (loc : Nat → Option Write) (msg : BitVec 256 → BitVec 11 → Option (Place × RemoteOp)) (s : State) : Res? :=
  let c := ((s.me.gr ga).extractLsb' 0 11).toNat
  let h := s.me.ringNow q
  let send := msg h (BitVec.ofNat 11 c)
  let eff :=
    if c = 0 then s
    else
      let s := match loc c with | some w => s.later w 1 | none => s
      match send with
      | some (d, op) => s.onMe fun k => k.buffer (.send d op) rel
      | none => s
  let chk := s.radvCheck kind ga q c
  if s.me.ahead.isSome then act [.g ga] [] chk false eff s
  else actNow [.g ga] [] chk
    (short h c || (!s.me.issue.commit &&
      ((if (loc c).isSome then s.me.writeHeld else s.me.acquiring) || (send.isSome && s.me.sbFull)))) eff s

/-- `radv.pop` (R204). -/
def execRadvPop (ga : BitVec 6) (q : BitVec 3) (s : State) : Res? :=
  radv 0 false ga q (fun h c => decide ((ringFill h).toNat < c)) (fun c => some (.ringPop q c)) (fun _ _ => none) s

/-- `radv.push` (R204). -/
def execRadvPush (ga : BitVec 6) (q : BitVec 3) (s : State) : Res? :=
  radv 1 false ga q (fun h c => decide ((ringFree h).toNat < c)) (fun c => some (.ringPush q c)) (fun _ _ => none) s

/-- `radv.credit` (R204). -/
def execRadvCredit (ga : BitVec 6) (q : BitVec 3) (s : State) : Res? :=
  radv 2 false ga q (fun _ _ => false) (fun _ => none)
    (fun h n => some (.core (ringPeer h), .credit (ringPq h) n)) s

/-- `radv.fill` (R204). -/
def execRadvFill (ga : BitVec 6) (q : BitVec 3) (s : State) : Res? :=
  radv 3 true ga q (fun _ _ => false) (fun c => some (.ringPush q c))
    (fun h n => some (.core (ringPeer h), .fill (ringPq h) n)) s

/-! ## Task control blocks (R213, R216, R220) -/

/-- `tinit` (R220, R381, R389). -/
def execTinit (ga gb gc : BitVec 6) (s : State) : Res? :=
  let t := s.me.gr ga
  let w := s.me.gr gb
  let l := s.me.gr gc
  let push := w.extractLsb' 16 16 == 0
  let hi := w.getLsbD 10
  let size := if s.me.composed then s.me.compN * 0x6B000 else openEnd s.me.id.num
  let res := w.extractLsb' 48 16 != 0 || w.extractLsb' 14 2 != 0 || w.getLsbD 11
  let chk := firstOf [
    check (t.extractLsb' 0 6 != 0) (addrExc 0x3B 3 ga t),
    check (l.extractLsb' 0 3 != 0) (addrExc 0x3B 3 gc l),
    check (decide (size < t.toNat + 64)) (addrExc 0x3B 4 ga t),
    check res (operandExc 0x3B 1 gb w),
    check (l.extractLsb' 19 45 != 0) (operandExc 0x3B 1 gc l),
    check (push && !s.me.hasPlace hi false) ⟨0x21, 1, 0, 0, 0x3B⟩]
  let dw0 := (w &&& 0xFFFFFFFFFFFFCFFF) ||| (if push then 0x2000 else 0x1000)
  let bs := natBytes 8 dw0.toNat ++ natBytes 8 l.toNat
  actOut [.g ga, .g gb, .g gc] [] chk
    (decide ((if push then 31 else 32) ≤ s.me.sb.length) || s.me.scoreHolds t.toNat 16 true)
    (s.onMe fun c =>
      let c := c.buffer (.scr t.toNat bs) false
      if push then c.buffer (.pushTcb t.toNat hi) false else c) s

/-! ## The end of a task (R224) -/

/-- Whether a deque entry came from a TCB (R216). -/
def entryTcb (e : BitVec 512) : Bool := e.getLsbD 11
/-- The core that holds an entry's TCB (R216). -/
def entryHome (e : BitVec 512) : Nat := (e.extractLsb' 12 12).toNat
/-- The offset of an entry's TCB (R216). -/
def entryOff (e : BitVec 512) : Nat := 64 * (e.extractLsb' 24 13).toNat
/-- An entry's handler (R216). -/
def entryHandler (e : BitVec 512) : Nat := (e.extractLsb' 0 10).toNat
/-- An entry's successor count (R216). -/
def entryScount (e : BitVec 512) : Nat := (e.extractLsb' 64 16).toNat
/-- An entry's successor list (R216). -/
def entrySlist (e : BitVec 512) : Nat := (e.extractLsb' 96 19).toNat

/-- The byte of a TCB that holds its state, with a new state: the other fields keep their
values (R213, R218, R224). -/
def withState (b : Byte) (st : BitVec 2) : Byte := putBits b 4 st

/-- The successor references of the running task (R214, R224): from the core's own scratch, or
those that remote loads have brought. -/
def State.successors (s : State) (e : BitVec 512) : List (BitVec 64) :=
  if !entryTcb e then []
  else if entryHome e = s.me.id.num then
    (List.range (entryScount e)).map fun i => BitVec.ofNat 64 (s.ownNat (s.me.compOff 0 (entrySlist e + 8 * i)) 8)
  else s.me.refs

/-- Where the list of successor references lies when this core holds it (R224). -/
def Core.listRanges (c : Core) (e : BitVec 512) : List (Nat × Nat) :=
  if entryTcb e && entryHome e == c.id.num then
    (List.range (entryScount e)).map fun i => (c.compOff 0 (entrySlist e + 8 * i), 8)
  else []

/-- Whether the state of an entry's TCB, when this core holds it, must not be written yet: a
command reads or writes its bytes (R68, R218, R224). -/
def Core.tcbHeld (c : Core) (e : BitVec 512) : Bool :=
  entryTcb e && entryHome e == c.id.num && c.scoreHolds (c.compOff 0 (entryOff e + 1)) 1 true

/-- Whether successor references of the running task have still to be loaded from another
core (R224). -/
def Core.refsOwed (c : Core) (e : BitVec 512) : Bool :=
  entryTcb e && entryHome e != c.id.num && decide (c.refs.length < entryScount e)

/-- The next remote load of a successor reference by a waiting `tend`, once the loads' own waits
permit it (R187, R224). -/
def State.loadRef (s : State) (e : BitVec 512) : State :=
  let l : Loc := .remote (entryHome e) (entrySlist e + 8 * s.me.refs.length)
  let d : Place := .core (entryHome e)
  let id := s.me.id
  let seq := s.me.seq
  if (s.me.outs.any fun o => o.kind == .successor) || s.me.loadWaits l 8 || s.me.behindRead d then s
  else
    (s.onMe fun c => { c.owe .successor 0 (some d) false with
      seq := c.seq + 1, issue := { c.issue with keep := true } }).send id d (.load l.off 8 false 0) seq

/-- The first reference of a list whose core is outside the region (R388). -/
def State.badRef (s : State) : Nat → List (BitVec 64) → Option Exc
  | _, [] => none
  | i, r :: rs =>
    let n := r.extractLsb' 0 12
    if s.names s.me.id n.toNat then State.badRef s (i + 1) rs
    else some ⟨0x20, 3, 0, BitVec.ofNat 48 (i * 2 ^ 16 + n.toNat), 0x3B⟩

/-- The core becomes idle (R217): the next task issues no sooner than 4 cc later (R218). -/
def Core.idle (c : Core) : Core :=
  { c with running := none, bubble := 4, refs := [], issue := { c.issue with taken := true } }

/-- `tend` (R224, R381, R388): it waits until every result has landed and the successor
references are there, which it loads as local loads when it holds them (R68, R187), then signals the successors, frees the TCB and leaves the core idle. -/
def execTend (s : State) : Res? :=
  if s.me.ahead.isSome then .next s.endAhead
  else if !s.me.issue.commit && s.me.unfinished then .next (s.stall .operand)
  else
    let e := s.me.running.getD 0
    if !s.me.issue.commit && s.me.refsOwed e then .next ((s.loadRef e).stall .waiting)
    else
      let refs := s.successors e
      let tcb := entryTcb e
      let eff := s.onMe fun c =>
        (if tcb then c.buffer (.finish refs (c.gr 10) (entryHome e) (entryOff e + 1)) true else c).idle
      let held := s.me.readsHeld (s.me.listRanges e)
      act [.g 10] [] (if held then none else firstOf [firstOf (refs.map (refCheck 0x3B 0)), s.badRef 0 refs])
        ((tcb && s.me.sbFull) || held || s.me.tcbHeld e) eff s

end Sys2Proof.Machine
end

