-- ==== Sys2Proof/Machine/Arrivals.lean ====
section
/-! DEFINITION. What leaves a store buffer and what service engines and bank harts apply:
exits, acknowledgements, stores, loads, atomics, deposits, messages, ring counts and
full/empty operations (02_execution_model.md R41, R47; 03_storage_model.md R70 to R75;
08_storage_sync.md R186 to R199; 09_tasks_compose.md R222, R223; 21_faults_instructions.md
R376, R377; 22_faults_machinery.md R390, R391). -/

namespace Sys2Proof.Machine

open Sys2Proof

/-! ## Atomics (R192, R285) -/

/-- The new bytes of an atomic on old bytes (R192, R285). -/
def atomNew (op : AtomOp) (old b exp : BitVec 64) : BitVec 64 :=
  match op with
  | .add => old + b
  | .swp => b
  | .cas => if old = exp then b else old
  | .min => if old.slt b then old else b
  | .max => if old.slt b then b else old
  | .minn => if old.ult b then old else b
  | .maxn => if old.ult b then b else old
  | .and => old &&& b
  | .or => old ||| b
  | .xor => old ^^^ b
  | .fadd => BitVec.ofNat 64 (fmt32.add ⟨.rne, 0, false⟩ (fmt32.decode (old.toNat % 2 ^ 32)) (fmt32.decode (b.toNat % 2 ^ 32))).1

/-- An atomic on a memory: the old value and the bytes that take its place. -/
def atomOn (m : Memory) (op : AtomOp) (a : Nat) (b exp : BitVec 64) : BitVec 64 × List Byte :=
  let n := atomSize op
  let old := BitVec.ofNat 64 (m.nat a n)
  (old, natBytes n (atomNew op old b exp).toNat)

/-! ## Results that come back (R187, R192, R406) -/

/-- Bytes of the view area land: in the shadow, and in the state kept at b when the access
stands before b (R406, R412). -/
def Core.landView (c : Core) (off : Nat) (bs : List Byte) (seq : Nat) : Core :=
  let c := c.writeView off bs
  match c.ckpt with
  | some k => if seq < k.seq then { c with ckpt := some { k with vmem := k.vmem.putBytes off bs } } else c
  | none => c

/-- The first unacknowledged entry of a place in program order is acknowledged. -/
def dropSeq (l : List Unacked) (seq : Nat) : List Unacked :=
  match l with
  | [] => []
  | u :: us => if u.seq = seq then us else u :: dropSeq us seq

/-- The sender's access of a place in program order has performed (R186). -/
def State.performed (s : State) (m : Msg) : State :=
  s.updCore m.src fun c =>
    { c with outs := c.outs.map fun o => if o.seq = m.seq then { o with performed := true } else o }

/-! ## Leaving the store buffer (R186, R188, R198) -/

/-- Whether the head entry may leave (R186, R188, R406): also not before rows of an earlier
`vst` or `vsct`, which are local stores performed at their landing (R250, R300). -/
def Core.mayExit (c : Core) (e : SbEntry) : Bool :=
  let loads := c.outs.any fun o => decide (o.seq < e.seq) && !o.performed && o.kind != .division && o.kind != .steal
  let rel := e.rel || (match e.kind with | .bulk _ => true | _ => false)
  !loads && !(c.unacked.any fun u => near c.id u.dst) && e.behind == 0 && !(rel && !c.unacked.isEmpty) &&
  !(c.walks.any fun w => decide (w ≤ e.seq))

/-- The deque entry that a TCB at an offset of core n's scratch becomes (R216). -/
def tcbEntry (scr : Memory) (n off : Nat) : BitVec 512 :=
  let d0 : BitVec 64 := BitVec.ofNat 64 (scr.nat off 8)
  let d1 : BitVec 64 := BitVec.ofNat 64 (scr.nat (off + 8) 8)
  let args : BitVec 384 := BitVec.ofNat 384 (scr.nat (off + 16) 48)
  let w0 : Nat := (d0.extractLsb' 0 11).toNat + 2 ^ 11 + n % 4096 * 2 ^ 12 + off / 64 % 8192 * 2 ^ 24
  let w1 : Nat := (d0.extractLsb' 32 16).toNat + (d1.extractLsb' 0 19).toNat * 2 ^ 32
  args ++ BitVec.ofNat 64 w1 ++ BitVec.ofNat 64 w0

/-- The head entry has left. -/
def Core.popSb (c : Core) : Core := { c with sb := c.sb.drop 1 }

/-- An entry goes to a destination that acknowledges it (R186). -/
def State.sendEntry (s : State) (dst : Place) (op : RemoteOp) (seq : Nat) : State :=
  let (o, n) := op.covers.getD (0, 0)
  (s.onMe fun c => { c with unacked := c.unacked ++ [⟨seq, dst, o, n⟩] }).send s.me.id dst op seq

/-- The core and offset that hold a byte of the scratch that the core in turn sees (R65, R228). -/
def State.holds (s : State) (o : Nat) : CoreId × Nat :=
  if s.me.composed then s.me.scrAt o else (s.me.id, o)

/-- The effect of an entry of the core in turn that leaves (R186); none while a local `stfe`
waits for its line (R198) or an HBM atomic for its channel (R327). The signals of `tend` leave one after another, each a release
(R223, R224). -/
def State.exit (s : State) (e : SbEntry) : Option State :=
  let pop := s.onMe Core.popSb
  match e.kind with
  | .scr o bs => some (pop.scrPut o bs)
  | .stfe o v => if s.feIs o then none else some ((pop.scrPut o (natBytes 8 v.toNat)).feSet o true)
  | .send d op => some (pop.sendEntry d op e.seq)
  | .push x top => some (pop.onMe fun c => c.push x top)
  | .pushTcb o _ =>
    let (id, x) := pop.holds o
    let e := tcbEntry (((pop.core? id).map (·.scr)).getD []) id.num x
    some (pop.onMe fun c => c.push e false)
  | .bulk b => some (pop.onMe fun c => { c with bulks := c.bulks ++ [b] })
  | .finish (r :: rs) v home o =>
    let s := s.onMe fun c => { c with sb := { e with kind := .finish rs v home o } :: c.sb.drop 1 }
    some (s.sendEntry (.core (r.extractLsb' 0 12).toNat) (.signal r v) e.seq)
  | .finish [] _ home o =>
    if home = s.me.id.num then some (pop.onMe fun c => c.writeScr o [withState (c.scr.get o) 0])
    else some (pop.sendEntry (.core home) (.state o 0) e.seq)
  | .hbm ps =>
    let pop := pop.onMe fun c => { c with hbmWr := c.hbmWr ++ ps.map fun (a, bs) => (a, bs.length) }
    some (pop.putHbm ps)
  | .hatom op a b exp rd =>
    (s.serve s.me.id.owner [(a, atomSize op)] true).map fun s => s.arrayRead [(a, atomSize op)] fun s =>
      let r := atomOn s.hbm op a b exp
      let pop := s.onMe fun c =>
        { c.popSb.landG rd r.1 e.seq with
          outs := c.outs.filter fun o => o.seq ≠ e.seq, hbmWr := c.hbmWr ++ [(a, atomSize op)] }
      pop.putHbm [(a, r.2)]
  | .home h obj op =>
    let pop := pop.onMe fun c => { c with unacked := c.unacked ++ [⟨e.seq, .home h, 0, 0⟩] }
    some { pop with homeOut := pop.homeOut ++ [⟨s.me.id, e.seq, h, obj, op, 0⟩] }

/-- STORE_BUFFER_EXIT (R186): the head entry leaves once its conditions hold; none leaves from
an announce until the drain begins (R354). -/
def execStoreBufferExit (s : State) : Res? :=
  match s.ev with
  | .core id =>
    if s.flows && s.phase != .announce then
      .next (s.onCore id fun s =>
        match s.me.sb with
        | [] => s
        | e :: _ => if s.me.mayExit e then (s.exit e).getD s else s)
    else .next s
  | _ => .next s

/-! ## Applying a message (R47, R304) -/

/-- A message leaves the network to be applied, when none before it goes between the same
parties, its stamp is the present one and traffic moves (R33, R36, R304). `f` says what
becomes of it; `true` when it has been applied whole and the ejection counts (R46). -/
def State.deliver (s : State) (f : Msg → State → Option (State × Bool)) : Res? :=
  match s.ev with
  | .msg k =>
    match s.msg? k with
    | none => .next s
    | some m =>
      if s.flows && m.stamp == s.stamp then
        match f m { s with net := dropAt s.net k } with
        | none => .next s
        | some (t, done) => .next (if done then t.updRegion m.src.owner m.src.circ fun r => { r with ej := r.ej + 1 } else t)
      else .next s
  | _ => .next s

/-- The core that a message is for, when there is one. -/
def State.targetOf (s : State) (m : Msg) : Option Core := m.target.bind s.core?

/-- A remote operation is applied by a core's service engine, which sets its latch (R181); in
run-ahead it acts on what stands at b as well (R406). -/
def State.atCore (s : State) (c : Core) (f : Core → Core) : State :=
  s.updCore c.id fun d => d.both fun d => { f d with latch := true }

/-- n bytes from an offset of the bank of a logical column in the sender's region, as a memory
that lists only them. -/
def State.bankOf (s : State) (m : Msg) (l a n : Nat) : Memory :=
  match s.region? m.src.owner m.src.circ with
  | some r => Memory.putBytes [] a (r.bankBytes l a n)
  | none => []

/-- Write bytes of that bank. -/
def State.setBank (s : State) (m : Msg) (l a : Nat) (bs : List Byte) : State :=
  s.updRegion m.src.owner m.src.circ fun r => r.bankPut l a bs

/-- Bytes of which only the first `bits` bits are written (R272, R274). -/
def maskTail (old new : List Byte) (bits : Nat) : List Byte :=
  (new.zip (List.range new.length)).map fun (b, i) =>
    let n := bits - 8 * i
    if 8 ≤ n then b
    else
      let m : Byte := BitVec.ofNat 8 (2 ^ n - 1)
      (b &&& m) ||| (old.getD i 0 &&& ~~~m)

/-- A store at a bank or a core, acknowledged (R47, R75, R186); beats with partial bytes go to
cores only (R274). -/
def applyStore (m : Msg) (off : Nat) (bs : Nat → Memory → List Byte) (s : State) : Option (State × Bool) :=
  match m.dst with
  | .bank l =>
    some ((s.setBank m l off (bs off [])).acknowledge m, true)
  | _ => (s.targetOf m).map fun c =>
    ((s.atCore c fun d => d.writeScr off (bs off d.scr)).acknowledge m, true)

/-- A load at a bank or a core, answered (R75, R187). -/
def applyLoad (m : Msg) (off n : Nat) (sg : Bool) (rd : BitVec 6) (s : State) : Option (State × Bool) :=
  let v := fun (b : Memory) => extendBytes sg n (b.nat off n)
  match m.dst with
  | .bank l => some (((s.performed m).answer m (.reply rd (v (s.bankOf m l off n)))), true)
  | _ => (s.targetOf m).map fun c =>
    ((((s.atCore c id).performed m).answer m (.reply rd (v c.scr))), true)

/-- An atomic at a bank or a core, answered with the old value (R192, R193). -/
def applyAtomic (m : Msg) (op : AtomOp) (off : Nat) (b exp : BitVec 64) (rd : BitVec 6) (s : State) :
    Option (State × Bool) :=
  match m.dst with
  | .bank l =>
    let r := atomOn (s.bankOf m l off (atomSize op)) op off b exp
    some ((((s.setBank m l off r.2).performed m).answer m (.reply rd r.1)), true)
  | _ => (s.targetOf m).map fun c =>
    let r := atomOn c.scr op off b exp
    ((((s.atCore c fun d => d.writeScr off r.2).performed m).answer m (.reply rd r.1)), true)

/-- A held delivery beat lands and is counted, at the core itself (R72, R287, R290, R355). -/
def Core.takeBeat (c : Core) (regs : Bool) (off : Nat) (bs : List Byte) (cell : BitVec 5) : Core :=
  (if regs then c.writeView off bs else c.writeScr off bs).later (.cellSub cell (BitVec.ofNat 32 bs.length)) 1

/-- A held delivery beat reaches its target (R355). -/
def applyBeat (m : Msg) (regs : Bool) (off : Nat) (bs : List Byte) (cell : BitVec 5) (s : State) : Option (State × Bool) :=
  (s.targetOf m).map fun c => (s.updCore c.id fun d => d.takeBeat regs off bs cell, true)

/-- REMOTE_STORE_APPLY (R47): a store, a beat of `mdrainr` (R274), the new state of a TCB (R218,
R224), or a memory core's delivery beat that a turn has held (R355). -/
def execRemoteStoreApply (s : State) : Res? :=
  s.deliver fun m s => match m.op with
    | .store o bs => applyStore m o (fun _ _ => bs) s
    | .beat o bs n => applyStore m o (fun o b => maskTail (b.bytes o bs.length) bs n) s
    | .state o st => applyStore m o (fun o b => [withState (b.get o) st]) s
    | .deliver regs o bs cell => applyBeat m regs o bs cell s
    | _ => none

/-- REMOTE_LOAD_APPLY (R187): the destination reads the bytes and replies. -/
def execRemoteLoadApply (s : State) : Res? :=
  s.deliver fun m s => match m.op with
    | .load o n sg rd => applyLoad m o n sg rd s
    | _ => none

/-- ATOMIC_APPLY (R192): one indivisible step. -/
def execAtomicApply (s : State) : Res? :=
  s.deliver fun m s => match m.op with
    | .atomic op o b exp rd => applyAtomic m op o b exp rd s
    | _ => none

/-- BANK_OP_APPLY (R75): a bank hart applies what has arrived at its bank. -/
def execBankOpApply (s : State) : Res? :=
  s.deliver fun m s => match m.dst, m.op with
    | .bank _, .store o bs => applyStore m o (fun _ _ => bs) s
    | .bank _, .load o n sg rd => applyLoad m o n sg rd s
    | .bank _, .atomic op o b exp rd => applyAtomic m op o b exp rd s
    | _, _ => none

/-- A reply writes its register; an atomic's also acknowledges its store half (R186); a reference
is kept for `tend` (R224). -/
def applyReply (m : Msg) (rd : BitVec 6) (v : BitVec 64) (s : State) : Option (State × Bool) :=
  (s.targetOf m).map fun c =>
    (s.updCore c.id fun d =>
      if d.outs.any (·.seq == m.seq) then
        { d.landG rd v m.seq with
          refs := if d.outs.any fun o => o.seq == m.seq && o.kind == .successor then d.refs ++ [v] else d.refs
          outs := d.outs.filter (·.seq ≠ m.seq), unacked := dropSeq d.unacked m.seq }
      else d, true)

/-- REMOTE_LOAD_REPLY (R187, R192). -/
def execRemoteLoadReply (s : State) : Res? :=
  s.deliver fun m s => match m.op with
    | .reply rd v => applyReply m rd v s
    | _ => none

/-- REMOTE_ACK (R186, R274): an acknowledgement reaches the issuing core. -/
def execRemoteAck (s : State) : Res? :=
  s.deliver fun m s => match m.op with
    | .ack seq => (s.targetOf m).map fun c =>
      (s.updCore c.id fun d =>
        { d with
          unacked := dropSeq d.unacked seq
          slice := d.slice.map fun k => { k with acks := k.acks.erase seq } }, true)
    | _ => none

/-! ## Deposits (R74, R294, R376) -/

/-- A deposit writes an inbox register. -/
def Core.deposit (c : Core) (k : BitVec 5) (v : BitVec 64) : Core := { (c.setX k v).setXp k true with latch := true }

/-- Whether a deposit for register k waits in the arrival spill area (R74). -/
def Core.queued (c : Core) (k : BitVec 5) : Bool := c.spill.any fun x => match x with | .deposit j _ => j == k | _ => false

/-- A deposit arrives: onto a present register it is spilled, and outside a turn's pause class
0x1D becomes pending (R74, R376). -/
def applyDeposit (m : Msg) (k : BitVec 5) (v : BitVec 64) (s : State) : Option (State × Bool) :=
  (s.targetOf m).map fun c =>
    let s :=
      if c.arch.xp k || c.queued k then
        let s := s.spillTo c.id (.deposit k v)
        if s.paused then s else s.updCore c.id fun d => d.deferOnce (.overrun k (BitVec.ofNat 12 m.src.num))
      else s.updCore c.id fun d => d.both (·.deposit k v)
    (s.acknowledge m, true)

/-- DEPOSIT_APPLY (R74, R282, R376): of `xput`, or of `hld.x`. -/
def execDepositApply (s : State) : Res? :=
  s.deliver fun m s => match m.op with
    | .deposit k v | .depositX k v => applyDeposit m k v s
    | _ => none

/-- CAP_DEPOSIT_APPLY (R294): the target capability is replaced. -/
def execCapDepositApply (s : State) : Res? :=
  s.deliver fun m s => match m.op with
    | .capDeposit k v => (s.targetOf m).map fun c => ((s.atCore c fun d => d.setCap k v).acknowledge m, true)
    | _ => none

/-- The k-th message, a memory core's result, lands (R35, R355). -/
def State.landResult (s : State) (k : Nat) : Option State :=
  (s.msg? k).bind fun m =>
    let t : State := { s with net := dropAt s.net k }
    let r := match m.op with
      | .reply rd v => applyReply m rd v t
      | .depositX k v => applyDeposit m k v t
      | .deliver regs o bs cell => applyBeat m regs o bs cell t
      | _ => none
    r.map fun r => r.1.updRegion m.src.owner m.src.circ fun q => { q with ej := q.ej + 1 }

/-! ## Messages and signals (R41, R222, R223, R390, R391) -/

/-- A push that arrives at a core: when it finds no place, or others wait in the spill area,
it is set aside and class 0x21 sub 2 becomes pending (R390). -/
def State.arrivePush (s : State) (id : CoreId) (x : BitVec 512) (src : Nat) : State × Bool :=
  match s.core? id with
  | none => (s, true)
  | some c =>
    let waiting := c.spill.any fun y => match y with | .push _ => true | _ => false
    if c.hasPlace (entryHi x) false && !waiting then
      (s.updCore id fun d => (d.push x false).both fun d => { d with latch := true }, true)
    else
      let full := decide (256 ≤ c.spill.length)
      ((s.spillTo id (.push x)).updCore id fun d => d.deferOnce (.dequeFull (BitVec.ofNat 12 src)), full)

/-- A push that the machine makes by itself, a root task or a turn handler: an injection, and an
ejection once it stands in the deque (R46). It comes from no core: one that is set aside reports
core 0 (notes/assumptions/78.md). -/
def State.pushRoot (s : State) (id : CoreId) (x : BitVec 512) : State :=
  let r := s.arrivePush id x 0
  r.1.updRegion id.owner id.circ fun q => { q with inj := q.inj + 1, ej := if r.2 then q.ej + 1 else q.ej }

/-- A TCB at an offset of a core takes arguments and one decrement (R41, R222, R223). -/
def State.decrement (s : State) (id : CoreId) (off : Nat) (args : List (Nat × BitVec 64)) (src : Nat) : State × Bool :=
  match s.core? id with
  | none => (s, true)
  | some c =>
    let pcnt := c.scr.nat (off + 2) 2
    if pcnt = 0 then
      (s.updCore id fun d =>
        (d.deferOnce (.underflow (BitVec.ofNat 19 off) (BitVec.ofNat 12 src))).both fun d => { d with latch := true }, true)
    else
      let d := args.foldl (fun d (i, v) => d.writeScr (off + 8 + 8 * i) (natBytes 8 v.toNat)) c
      let d := d.writeScr (off + 2) (natBytes 2 (pcnt - 1))
      let d := if pcnt = 1 then d.writeScr (off + 1) [withState (d.scr.get (off + 1)) 2] else d
      let s := s.updCore id fun _ => d.both fun d => { d with latch := true }
      if pcnt = 1 then s.arrivePush id (tcbEntry d.scr id.num off) src else (s, true)

/-- MESSAGE_APPLY (R222): a task pushed, or a TCB's counter decremented. -/
def execMessageApply (s : State) : Res? :=
  s.deliver fun m s => match m.op with
    | .message h args => (s.targetOf m).map fun c =>
      let r :=
        if h.getLsbD 15 then
          s.decrement c.id (64 * (h.extractLsb' 16 13).toNat) ((List.range args.length).map fun i => (i + 1, args.getD i 0)) m.src.num
        else s.arrivePush c.id (headerEntry h args) m.src.num
      (r.1.acknowledge m, r.2)
    | _ => none

/-- SIGNAL_APPLY (R223). -/
def execSignalApply (s : State) : Res? :=
  s.deliver fun m s => match m.op with
    | .signal ref v => (s.targetOf m).map fun c =>
      let slot := (ref.extractLsb' 12 3).toNat
      let r := s.decrement c.id (64 * (ref.extractLsb' 19 13).toNat) (if slot = 0 then [] else [(slot, v)]) m.src.num
      (r.1.acknowledge m, r.2)
    | _ => none

/-- SET_ASIDE_PUSH_APPLY (R390): the oldest entry set aside is pushed when it finds a place,
and its ejection counts (R46). -/
def execSetAsidePushApply (s : State) : Res? :=
  match s.ev with
  | .core id =>
    match s.core? id with
    | none => .next s
    | some c =>
      match c.spill.find? fun y => match y with | .push _ => true | _ => false with
      | some (.push x) =>
        if c.hasPlace (entryHi x) false then
          .next ((s.updCore id fun d => { d.push x false with spill := d.spill.erase (.push x), latch := true }).updRegion
            id.owner id.circ fun r => { r with ej := r.ej + 1 })
        else .next s
      | _ => .next s
  | _ => .next s

/-! ## Ring counts (R69 to R71) -/

/-- Whether handle q of a core is bound to the other end of a ring (R71). -/
def boundTo (h : BitVec 256) (role peer : Nat) : Bool := ringRole h == role && ringPeer h == peer

/-- An arrival at a handle: an unbound handle's counts hold undefined values (R71): a free
value (notes/assumptions/20.md). -/
def State.ringArrive (s : State) (c : Core) (q : BitVec 3) (ok : Bool) (f : BitVec 256 → BitVec 256) : State :=
  let (v, s) := if ok then ((0 : BitVec 64), s) else s.draw
  s.atCore c fun d =>
    let h := d.ring q
    d.setRing q (if ok then f h else ringWith h (ringHead h) (ringTail h) (v.extractLsb' 0 11) (v.extractLsb' 11 11))

/-- RING_CREDIT_ARRIVE (R71): the free count rises. -/
def execRingCreditArrive (s : State) : Res? :=
  s.deliver fun m s => match m.op with
    | .credit q n => (s.targetOf m).map fun c =>
      ((s.ringArrive c q (boundTo (c.arch.ring q) 2 m.src.num)
        fun h => ringWith h (ringHead h) (ringTail h) (ringFill h) (ringFree h + n)).acknowledge m, true)
    | _ => none

/-- A fill advance is taken (R71). -/
def ringAdvance (n : BitVec 11) (h : BitVec 256) : BitVec 256 :=
  ringWith h (ringHead h) (ringTail h) (ringFill h + n) (ringFree h)

/-- Whether a ring has fewer than n slots without data. -/
def ringFull (h : BitVec 256) (n : BitVec 11) : Bool := decide (2 ^ ringLcount h < (ringFill h).toNat + n.toNat)

/-- RING_FILL_ARRIVE (R71): the fill count rises; in a pause one that finds the ring full is
spilled (R33, R74). -/
def execRingFillArrive (s : State) : Res? :=
  s.deliver fun m s => match m.op with
    | .fill q n => (s.targetOf m).map fun c =>
      let behind := c.spill.any fun x => match x with | .ring j _ => j == q | _ => false
      let h := c.arch.ring q
      if (s.paused && boundTo h 1 m.src.num && ringFull h n) || behind then
        ((s.spillTo c.id (.ring q n)).acknowledge m, true)
      else ((s.ringArrive c q (boundTo h 1 m.src.num) (ringAdvance n)).acknowledge m, true)
    | _ => none

/-- Spilled deposits and fill advances apply, in arrival order, where presence has cleared or
slots have freed (R35, R74, R376). -/
def Core.drainSpill (c : Core) : Core :=
  c.spill.foldl (init := { c with spill := [] }) fun d x =>
    match x with
    | .deposit k v =>
      if d.arch.xp k || d.queued k then { d with spill := d.spill ++ [x] } else d.both (·.deposit k v)
    | .ring q n =>
      let behind := d.spill.any fun y => match y with | .ring j _ => j == q | _ => false
      if ringFull (d.arch.ring q) n || behind then { d with spill := d.spill ++ [x] }
      else d.both fun d => { d.setRing q (ringAdvance n (d.ring q)) with latch := true }
    | x => { d with spill := d.spill ++ [x] }

/-! ## Full/empty operations of other cores (R199, R377) -/

/-- Whether a full/empty operation finds its line in the state it needs (R198). -/
def Core.feReady (c : Core) (m : Msg) : Bool :=
  match m.op with
  | .ldfe o _ => c.arch.fe.contains (o / 128)
  | .stfe o _ => !c.arch.fe.contains (o / 128)
  | _ => false

/-- A full/empty operation is applied at a core in the right state, and answered (R198,
R199). -/
def State.feApply (s : State) (c : Core) (m : Msg) : State :=
  match m.op with
  | .ldfe o rd =>
    let v := BitVec.ofNat 64 (c.scr.nat o 8)
    ((s.atCore c fun d => { d with fe := feLines d.fe (o / 128) false 1 }).performed m).answer m (.reply rd v)
  | .stfe o v =>
    (s.atCore c fun d => { d.writeScr o (natBytes 8 v.toNat) with fe := feLines d.fe (o / 128) true 1 }).acknowledge m
  | _ => s

/-- The operations of a core that are parked, each with whether it stands in the wait list or in
the spill area, in arrival order (R199, R377). -/
def Core.parkedFe (c : Core) : List (Msg × Bool) :=
  c.waitList.map (fun m => (m, true)) ++
  c.spill.filterMap fun x => match x with | .fe m => some (m, false) | _ => none

/-- The oldest parked operation of a core that finds its line in the state it needs is applied;
an application may ready an older one, so the search starts again (R199, R377). -/
def State.retryFe (s : State) (id : CoreId) : Nat → State
  | 0 => s
  | n + 1 =>
    match s.core? id with
    | none => s
    | some c =>
      match c.parkedFe.find? fun m => c.feReady m.1 with
      | none => s
      | some (m, parked) =>
        let s := s.feApply c m
        let s := s.updCore id fun d =>
          if parked then { d with waitList := d.waitList.erase m } else { d with spill := d.spill.erase (.fe m) }
        State.retryFe (s.updRegion m.src.owner m.src.circ fun r => { r with ej := r.ej + 1 }) id n

/-- The parked operations of a core are retried in arrival order (R199). -/
def State.retryAll (s : State) (id : CoreId) : State :=
  s.retryFe id (((s.core? id).map (·.parkedFe.length)).getD 0)

/-- FE_REMOTE_APPLY (R199): applied, and the parked operations of its line retried; parked in the
wait list of 16; or written to the arrival spill area (R377). -/
def execFeRemoteApply (s : State) : Res? :=
  s.deliver fun m s => match m.op with
    | .ldfe _ _ | .stfe _ _ => (s.targetOf m).map fun c =>
      if c.feReady m then ((s.feApply c m).retryAll c.id, true)
      else if c.waitList.length < 16 then (s.updCore c.id fun d => { d with waitList := d.waitList ++ [m] }, false)
      else (s.spillTo c.id (.fe m), decide (256 ≤ c.spill.length))
    | _ => none

/-- FE_PARKED_RETRY (R199): retried in arrival order when a bit of their line changes. -/
def execFeParkedRetry (s : State) : Res? :=
  match s.ev with
  | .core id => .next (s.retryAll id)
  | _ => .next s

end Sys2Proof.Machine
end

