-- ==== Sys2Proof/Machine/Compose.lean ====
section
/-! DEFINITION. The composition words (09_tasks_compose.md R226 to R232). -/

namespace Sys2Proof.Machine

open Sys2Proof

/-- The size a `cmpo` names (R226). -/
def cmpSize : CmpN → Nat
  | .two => 2
  | .four => 4
  | .eight => 8

/-- The core i places after the core in turn, in its column. -/
def State.sibling (s : State) (i : Nat) : CoreId := { s.me.id with num := s.me.id.num + i }

/-- Change the cores 1 to n − 1 places after the core in turn. -/
def State.updMembers (s : State) (n : Nat) (f : Core → Core) : State :=
  (List.range (n - 1)).foldl (fun s i => s.updCore (s.sibling (i + 1)) f) s

/-- Whether a core takes part in a composition, leads one whose `cmpo` waits, or is reserved for
one (R227). -/
def Core.taken (c : Core) : Bool := c.binding.isSome || match c.compo with | .plain => false | _ => true

/-- Whether a `cmpo` is refused (R227): also in a column with a failed slot that no spare has
replaced (R396). -/
def State.composeRefused (s : State) (n : Nat) : Bool :=
  s.me.taken || (((s.colOf s.me.id).bind (s.cols[·]?)).bind PhysCol.broken).isSome || (List.range (n - 1)).any fun i =>
    match s.core? (s.sibling (i + 1)) with
    | some c => c.taken
    | none => true

/-- `cmpo` (R227, R231, R381): the refusal test and the reservations are one step; the word
then waits until COMPOSE_BIND has bound the members, and starts the first block. -/
def execCmpo (rd rs : BitVec 6) (n : CmpN) (s : State) : Res? :=
  let k := cmpSize n
  let a := s.me.gr rs
  let chk := firstOf [
    check s.me.composed ⟨0x14, 2, 0, 0, 0x3C⟩,
    check (s.me.csr.level != 0) ⟨0x14, 3, 0, 0, 0x3C⟩,
    check (a.extractLsb' 0 2 != 0) (addrExc 0x3C 3 rs a),
    check (decide (8 < s.me.id.num % 8 + k)) (operandExc 0x3C 2 0 (BitVec.ofNat 64 k))]
  match s.me.binding with
  | some ⟨_, true⟩ =>
    act [.g rs] [.g rd] chk false
      (s.onMe fun c =>
        { ({ c with
            compo := .leader k (c.csr.lpbeg, c.csr.lpend, c.csr.lpcnt) rd c.issue.nxt
            binding := none
            fetched := []
            csr := { c.csr with lpcnt := 0 } }.jump a.toNat) with blk := true }) s
  | some ⟨_, false⟩ => act [.g rs] [.g rd] chk true s s
  | none =>
    if s.composeRefused k then act [.g rs] [.g rd] chk false (s.later (.g rd 0) 1) s
    else
      -- the reservations are kept while the word waits (commitAll)
      let lead := s.me.id.num
      let s' := (s.updMembers k fun c => { c with compo := .reserved lead }).onMe fun c =>
        { c with binding := some ⟨k, false⟩, issue := { c.issue with status := .waiting, keep := true } }
      act [.g rs] [.g rd] chk false s' s

/-- `cmpr` (R229, R231): it waits until every composed store to scratch has been written, with
the pushes that read it (R220), the members' store buffers are empty and every result has landed,
then releases the members. -/
def execCmpr (s : State) : Res? :=
  match s.me.compo with
  | .leader n (lb, le, lc) gd resume =>
    if !s.me.issue.commit && s.me.unfinished then .next (s.stall .operand)
    else
      let stores := s.me.sb.any fun e => match e.kind with
        | .scr _ _ | .stfe _ _ | .pushTcb _ _ => true
        | _ => false
      let held := (List.range (n - 1)).any fun i =>
        ((s.core? (s.sibling (i + 1))).map fun c => !c.sb.isEmpty).getD false
      let s' := s.updMembers n fun c =>
        { c with
          g := Vector.replicate 64 0, p := Vector.replicate 8 false
          compo := .plain, running := none, bubble := 1 }
      act [] [] none (stores || held)
        (s'.onMe fun c =>
          let c := { c.landAll with compo := .plain, fetched := [] }
          let c := { c with csr := { c.csr with lpbeg := lb, lpend := le, lpcnt := lc } }
          (c.setG gd (BitVec.ofNat 64 n)).jump resume) s
  | _ => act [] [] (some ⟨0x14, 4, 0, 0, 0x3C⟩) false s s

/-- `cmpq` (R230). -/
def execCmpq (rd : BitVec 6) (s : State) : Res? :=
  let v := (if s.me.composed then 2 ^ 16 else 0) + s.me.id.num * 16 + s.me.compN
  act [] [.g rd] none false (s.later (.g rd (BitVec.ofNat 64 v)) 4) s

end Sys2Proof.Machine
end

