-- ==== Sys2Proof/Machine/Tasks.lean ====
section
/-! DEFINITION. Starting tasks: pops, steals and task entry (02_execution_model.md R42 to
R44; 09_tasks_compose.md R217, R218), the binding of a composition (R227), and the
termination wave (R46). -/

namespace Sys2Proof.Machine

open Sys2Proof

/-! ## Entry to a task (R218) -/

/-- Offset of the handler table in scratch (R65). -/
def handlerTable (num : Nat) : Nat := if 0x800 ≤ num then 0x2B000 else 0x6B000

/-- An argument word of a deque entry, from 1 (R216). -/
def entryArg (e : BitVec 512) (i : Nat) : BitVec 64 := e.extractLsb' (64 * (i + 1)) 64

/-- The value of `g9` at entry (R218). -/
def entryG9 (e : BitVec 512) (num : Nat) : BitVec 64 :=
  if !entryTcb e then 0xFFFFFFFFFFFFFFFF
  else if entryHome e = num then BitVec.ofNat 64 (entryOff e)
  else BitVec.ofNat 64 (2 * 2 ^ 45 + entryHome e * 2 ^ 33 + entryOff e)

/-- The core in turn starts a taken entry (R218): the TCB's state is written, by a remote
store when another core holds it; its other fields stay. -/
def State.begin (s : State) (e : BitVec 512) : State :=
  let num := s.me.id.num
  let s := s.onMe fun c =>
    let c := (List.range 6).foldl (fun c i => c.setG (BitVec.ofNat 6 (3 + i)) (entryArg e (i + 1))) c
    let c := c.setG 9 (entryG9 e num)
    { c with
      running := some e
      awaiting := false
      sweep := 0
      pc := c.scr.nat (handlerTable num + 4 * entryHandler e) 4
      bubble := max c.bubble 1
      blk := false
      csr := { c.csr with level := 0 } }
  if entryTcb e then
    let o := entryOff e + 1
    if entryHome e = num then s.onMe fun c => c.writeScr o [withState (c.scr.get o) 3]
    else s.onMe fun c => c.buffer (.send (.core (entryHome e)) (.state o 3)) false
  else s

/-- Whether a core is idle and may take work (R54, R217, R227). -/
def Core.free (c : Core) : Bool :=
  c.running.isNone && !c.awaiting && !c.stopped && (match c.compo with | .plain => true | _ => false)

/-- TASK_POP (R217): an idle core takes the bottom entry of its own deques (R42), once the entry's
TCB may be written (R68). -/
def execTaskPop (s : State) : Res? :=
  match s.ev with
  | .core id =>
    .next (s.onCore id fun s =>
      if s.mayIssue s.me && s.me.free then
        match s.me.pop with
        | some (e, c) => if s.me.tcbHeld e then s else { s with me := c }.begin e
        | none => s
      else s)
  | _ => .next s

/-! ## Stealing (R43, R217, R325) -/

/-- The victims at a distance of R43, in order of their numbers. -/
def victims (num pos d : Nat) : List Nat :=
  let col := num / 8
  let lp := num / 32
  if d = 0 then (List.range 8).map (8 * col + ·) |>.filter (· ≠ num)
  else if d = 1 then (List.range 32).map (32 * lp + ·) |>.filter fun n => n / 8 ≠ col
  else
    (if d - 1 ≤ lp then (List.range 32).map (32 * (lp - (d - 1)) + ·) else []) ++
    (if lp + (d - 1) < pos then (List.range 32).map (32 * (lp + (d - 1)) + ·) else [])

/-- Distances of a steal domain: column, position, region (R43, R316). -/
def distances (dom : BitVec 2) (pos : Nat) : Nat := if dom = 0 then 1 else if dom = 1 then 2 else pos + 1

/-- The distance of the k-th probe of a sweep, from distance d on; none past the last. -/
def probeAt (num pos : Nat) : Nat → Nat → Nat → Option Nat
  | 0, _, _ => none
  | n + 1, d, k =>
    let m := (victims num pos d).length
    if k < m then some d else probeAt num pos n (d + 1) (k - m)

/-- The next victim of the core in turn, and its distance (R43). -/
def State.nextVictim (s : State) : Option (Nat × Nat) :=
  match s.myRegion? with
  | none => none
  | some r =>
    (probeAt s.me.id.num r.pos (distances r.dom r.pos) 0 s.me.sweep).bind fun d =>
      let vs := victims s.me.id.num r.pos d
      (vs[s.me.stealPtr.getD d 0 % vs.length]?).map fun v => (d, v)

/-- A round-robin pointer moves past a victim. -/
def bump (l : List Nat) (d : Nat) : List Nat :=
  let l := l ++ List.replicate (d + 1 - l.length) 0
  modAt l d (· + 1)

/-- STEAL_PROBE (R43): an idle compute core with empty deques probes its next victim; a
sweep that has found nothing starts again. -/
def execStealProbe (s : State) : Res? :=
  match s.ev with
  | .core id =>
    .next (s.onCore id fun s =>
      if s.mayIssue s.me && s.me.free && !s.me.hasWork && !s.me.isMem && (s.myRegion?.bind (·.launch)).isSome then
        match s.nextVictim with
        | none => s.onMe fun c => { c with sweep := 0 }
        | some (d, v) =>
          (s.onMe fun c => { c with awaiting := true, sweep := c.sweep + 1, stealPtr := bump c.stealPtr d }).send
            id (.core v) .steal 0
      else s)
  | _ => .next s

/-- STEAL_REQUEST_APPLY (R217): the victim's service engine gives its top entry, or
nothing. -/
def execStealRequestApply (s : State) : Res? :=
  s.deliver fun m s => match m.op with
    | .steal => (s.targetOf m).map fun c =>
      match c.takeTop with
      | some (e, d) => ((s.updCore c.id fun _ => d.both fun d => { d with latch := true }).answer m (.stealReply (some e)), true)
      | none => ((s.atCore c id).answer m (.stealReply none), true)
    | _ => none

/-- STEAL_REPLY (R217): the thief starts the entry, or probes on. -/
def execStealReply (s : State) : Res? :=
  s.deliver fun m s => match m.op with
    | .stealReply e => (s.targetOf m).bind fun c =>
      if (e.map c.tcbHeld).getD false then none
      else some (s.onCore c.id fun s =>
        match e with
        | some e => s.begin e
        | none => s.onMe fun c => { c with awaiting := false }, true)
    | _ => none

/-! ## Binding a composition (R227, R309) -/

/-- Whether a place lies in the column of a compute core. -/
def inColumn (id : CoreId) (d : Place) : Bool :=
  match d with
  | .core n => decide (n < 0x800) && n / 8 == id.num / 8
  | .bank l => l == id.num / 8
  | .home _ => false

/-- Whether stores of a core to its own column are still open (R309). -/
def Core.columnOpen (c : Core) : Bool :=
  (c.sb.any fun e => match e.kind with
    | .scr _ _ | .stfe _ _ | .push _ _ | .pushTcb _ _ => true
    | .send d _ => inColumn c.id d
    | .finish rs _ h _ => inColumn c.id (.core h) || rs.any fun r => inColumn c.id (.core (r.extractLsb' 0 12).toNat)
    | .bulk b => match b.dst with
      | .scratch n | .regs n => inColumn c.id (.core n)
      | .own _ => true
      | .bank l => inColumn c.id (.bank l)
      | _ => false
    | _ => false) || c.rowsPending || c.unacked.any fun u => inColumn c.id u.dst

/-- Whether a core is reserved by a leader and has ended its task (R227). -/
def Core.readyFor (c : Core) (lead : Nat) : Bool :=
  (match c.compo with | .reserved l => l == lead | _ => false) && c.running.isNone && !c.awaiting && !c.columnOpen

/-- COMPOSE_BIND (R227, R309): once every member has ended its task, the leader's results have
landed and the stores of all of them to the column have performed, the members are bound. -/
def execComposeBind (s : State) : Res? :=
  match s.ev with
  | .core id =>
    .next (s.onCore id fun s =>
      match s.me.binding with
      | some ⟨n, false⟩ =>
        let ready := (List.range (n - 1)).all fun i =>
          ((s.core? (s.sibling (i + 1))).map fun c => c.readyFor id.num).getD false
        if ready && !s.me.unfinished && !s.me.columnOpen && s.flows then
          (s.updMembers n fun c => { c with compo := .member id.num }).onMe fun c => { c with binding := some ⟨n, true⟩ }
        else s
      | _ => s)
  | _ => .next s

/-! ## Termination (R46) -/

/-- Whether a core and its engines are idle for the termination tree (R46). -/
def Core.quiet (c : Core) : Bool :=
  c.running.isNone && !c.awaiting && !c.hasWork && (match c.compo with | .plain => true | _ => false) &&
  c.sb.isEmpty && c.bulks.isEmpty && c.hbmAcc.isEmpty && c.product.isNone && c.slice.isNone && c.pend.isEmpty

/-- TERMINATION_WAVE (R46): the launch completes at the second of two waves that find every
core and engine idle, injections equal to ejections, and unchanged totals. -/
def execTerminationWave (s : State) : Res? :=
  match s.ev with
  | .region id =>
    match s.region? id.owner id.circ with
    | none => .next s
    | some r =>
      let idle := (s.cores.filter fun c => c.id.owner = id.owner ∧ c.id.circ = id.circ).all Core.quiet &&
        r.arrays.all fun a => a.queue.isEmpty && a.run.isNone
      if idle && r.inj == r.ej && s.phase == .run then
        match r.launch with
        | some l =>
          if r.wave = some (r.inj, r.ej) then
            .next ((s.updRegion id.owner id.circ fun r => { r with launch := none, wave := none }).complete
              id.owner l.q l.sseq 1 0 (r.ocyc - l.startOcyc))
          else .next (s.updRegion id.owner id.circ fun r => { r with wave := some (r.inj, r.ej) })
        | none => .next s
      else .next (s.updRegion id.owner id.circ fun r => { r with wave := none })
  | _ => .next s

end Sys2Proof.Machine
end

