-- ==== Sys2Proof/Machine/Engines.lean ====
section
/-! DEFINITION. Bulk commands at work: the kick, the beats of copy harts and memory cores,
and what a beat that does not translate leaves (03_storage_model.md R72;
08_storage_sync.md R211, R212; 12_memory_core.md R287 to R290; 23_faults_memory.md R414;
14_scheduling.md R316). -/

namespace Sys2Proof.Machine

open Sys2Proof

/-! ## Sides of a command (R211) -/

/-- The member core and offset of an offset in scratch interleaved over n members (R65). -/
def memberAt (num n a : Nat) : Nat × Nat := (num + a / 128 % n, a / 128 / n * 128 + a % 128)

/-- A byte of an on-chip side of a command of core id. -/
def State.sideByte (s : State) (id : CoreId) (d : Side) (a : Nat) : Byte :=
  let scr := fun (n o : Nat) => ((s.core? { id with num := n }).map fun c => c.scr.get o).getD 0
  match d with
  | .scratch n => scr n a
  | .own n => let (k, o) := memberAt id.num n a; scr k o
  | .regs n => ((s.core? { id with num := n }).map fun c => c.vmem.get a).getD 0
  | .bank l => match s.region? id.owner id.circ with
    | some r => (r.bankBytes l a 1).getD 0 0
    | none => 0
  | .hbm _ => 0
  | .host => s.host.get a

/-- Bytes of an on-chip side. -/
def State.sideBytes (s : State) (id : CoreId) (d : Side) (a : Nat) : Nat → List Byte
  | 0 => []
  | n + 1 => s.sideByte id d a :: State.sideBytes s id d (a + 1) n

/-- Write a byte of an on-chip side; a byte of scratch leaves full/empty bits alone (R67). -/
def State.sidePut (s : State) (id : CoreId) (d : Side) (a : Nat) (b : Byte) : State :=
  let scr := fun (n o : Nat) => s.updCore { id with num := n } fun c => c.writeScr o [b]
  match d with
  | .scratch n => scr n a
  | .own n => let (k, o) := memberAt id.num n a; scr k o
  | .regs n => s.updCore { id with num := n } fun c => c.writeView a [b]
  | .bank l => s.updRegion id.owner id.circ fun r => r.bankPut l a [b]
  | .hbm _ => s
  | .host => { s with host := s.host.put a b }

/-- Write bytes of an on-chip side. -/
def State.sidePutBytes (s : State) (id : CoreId) (d : Side) (a : Nat) : List Byte → State
  | [] => s
  | b :: bs => State.sidePutBytes (s.sidePut id d a b) id d (a + 1) bs

/-- The core whose cell a beat is subtracted from: the destination core, the issuing core
for a bank, for `tload` and for `hpull` (R211, R287, R288). -/
def Bulk.cellCore (b : Bulk) (id : CoreId) : CoreId :=
  match b.dst with
  | .scratch n => { id with num := n }
  | .regs n => { id with num := n }
  | _ => id

/-- A beat's byte count is subtracted from a cell in the cc after its bytes are written
(R72). -/
def State.countBeat (s : State) (b : Bulk) (id : CoreId) (n : Nat) : State :=
  s.updCore (b.cellCore id) fun c => c.later (.cellSub b.cell (BitVec.ofNat 32 n)) 1

/-- Change the i-th bulk command of a core. -/
def State.updBulk (s : State) (id : CoreId) (i : Nat) (f : Bulk → Bulk) : State :=
  s.updCore id fun c => { c with bulks := modAt c.bulks i f }

/-- A command leaves: its place among the 8 and its scoreboard entries are free (R211). -/
def State.dropBulk (s : State) (id : CoreId) (i : Nat) : State :=
  s.updCore id fun c =>
    match c.bulks[i]? with
    | none => c
    | some b => { c with bulks := dropAt c.bulks i, score := c.score.filter (·.cmd ≠ b.id) }

/-- A beat has been delivered; a command whose last it was retires when that is counted (R211). -/
def State.beatDone (s : State) (id : CoreId) (i : Nat) (rest : List Beat) : State :=
  s.updBulk id i fun b => { b with beats := rest, count := b.count + 1 }

/-- Whether a command may go on: while its region stops it runs only up to the end of a
granule (R31, R48, R212). -/
def State.mayBeat (s : State) (id : CoreId) (b : Bulk) : Bool :=
  (s.phase == .run && !((s.region? id.owner id.circ).map (·.preempt)).getD false) ||
  b.count % 2 ^ b.gran.toNat != 0

/-- A command that may move a beat: started, and no record (R211, R212). -/
def State.bulk? (s : State) (id : CoreId) (i : Nat) : Option Bulk :=
  match (s.core? id).bind (·.bulks[i]?) with
  | some b => if b.started && !b.record && s.mayBeat id b then some b else none
  | none => none

/-- Whether the engines of a core work: its region is resident, and no move or remap is in
progress (R31, R48). -/
def State.engineRuns (s : State) (id : CoreId) : Bool :=
  (s.phase == .run || s.phase == .announce) && ((s.region? id.owner id.circ).map fun r => r.resident && !r.blocked).getD false

/-- Whether the delivery beats that a memory core owes go on: its region is resident, in a pause
too (R355). -/
def State.delivers (s : State) (id : CoreId) : Bool :=
  ((s.region? id.owner id.circ).map fun r => r.resident && !r.blocked).getD false

/-- A memory core's delivery beat (R287, R290): written and counted at its target, or sent off to
the router that holds it while stores move (R355). -/
def State.deliverBeat (s : State) (b : Bulk) (id : CoreId) (off : Nat) (bs : List Byte) : State :=
  match s.flows, b.dst with
  | false, .scratch n => s.send id (.core n) (.deliver false off bs b.cell) b.id
  | false, .regs n => s.send id (.core n) (.deliver true off bs b.cell) b.id
  | _, _ => (s.sidePutBytes id b.dst off bs).countBeat b id bs.length

/-! ## The kick (R211) -/

/-- BULK_COMMAND_START (R211): a core's commands start in issue order. -/
def execBulkCommandStart (s : State) : Res? :=
  match s.ev with
  | .coreIdx id i =>
    match s.core? id with
    | none => .next s
    | some c =>
      let first := !((c.bulks.take i).any fun b => !b.started)
      match c.bulks[i]? with
      | some b => if first && !b.started && s.engineRuns id then .next (s.updBulk id i fun b => { b with started := true }) else .next s
      | none => .next s
  | _ => .next s

/-! ## Beats of copy harts (R211) and of LOAD and STORE packets (R316) -/

/-- The next 256 bytes of a host move. -/
def hostBeat (b : Beat) (rest : List Beat) : Beat × List Beat :=
  if b.len ≤ 256 then (b, rest) else (⟨b.src, b.dst, 256⟩, ⟨b.src + 256, b.dst + 256, b.len - 256⟩ :: rest)

/-- Keep what a beat's walk has changed; earlier replies are spent. -/
def State.keepWalk (s : State) (id : CoreId) (i : Nat) (m : Mmu) : State :=
  let old := ((s.core? id).map (·.tlb)).getD []
  ({ s.touch old m.tlb with hbm := m.hbm }.updCore id fun c => { c with tlb := m.tlb, objCache := m.objs }).updBulk id i fun b =>
    { b with waiting := none, answer := none }

/-- A command stops at the beat that misses: its remainder is a record that waits for the
reply (R414). -/
def State.beatMiss (s : State) (id : CoreId) (i : Nat) (g : Nat) (rd wr : Bool) : State :=
  (s.updBulk id i fun b => { b with record := true, waiting := some g, answer := none }).request id.owner g rd wr

/-- A command stops at a fault: the remainder is discarded and the issuing core takes the
class as a deferred cause; a LOAD or STORE completes with status 6 (R414, R431). -/
def State.beatFault (s : State) (id : CoreId) (i : Nat) (b : Bulk) (cls sub : BitVec 8) (v : BitVec 48) : State :=
  let s := s.dropBulk id i
  match b.packet with
  | some (f, q, sseq, _) =>
    s.complete f q sseq (if b.kind = .hostLoad then 2 else 3) 6 (BitVec.ofNat 64 (cls.toNat * 256 + sub.toNat))
  | none => s.updCore id fun c => c.defer (.memory ⟨cls, sub, b.creg.setWidth 6, v, 0⟩)

/-! ## Commands that reach another module's objects (R277, R333) -/

/-- A request of a command to the home module of its object, one at a time (R304). -/
def State.askHome (s : State) (id : CoreId) (b : Bulk) (cap : Cap) (op : HomeOp) : State :=
  let cmd := fun (o : HomeOp) => match o with
    | .ship k _ _ | .pull k _ _ => k == b.id
    | _ => false
  if s.homeOut.any fun q => q.src == id && cmd q.op then s
  else { s with homeOut := s.homeOut ++ [⟨id, b.id, cap.home, cap.bits.extractLsb' 0 15, op, 0⟩] }

/-- The command of a request, and its place at its core. -/
def State.bulkOf (s : State) (q : HomeReq) : Option (Nat × Bulk) :=
  match s.core? q.src with
  | none => none
  | some c => (List.range c.bulks.length).findSome? fun i => (c.bulks[i]?).bind fun b => if b.id = q.seq then some (i, b) else none

/-- The rest of a LOAD or STORE after n bytes have moved (R319). -/
def State.moved (s : State) (id : CoreId) (i n : Nat) (rest : List Beat) : State :=
  s.updBulk id i fun b => { b with
    beats := rest, count := b.count + 1, held := 0
    packet := b.packet.map fun (f, q, x, k) => (f, q, x, k + n) }

/-- The home module's answer to a beat of a command: bytes read, or an acknowledgement. -/
def State.homeBeat (s : State) (k : Nat) (bs : List Byte) : State :=
  match s.homeReq? k with
  | none => s
  | some q =>
    let t : State := { s with homeOut := dropAt s.homeOut k }
    match s.bulkOf q with
    | none => t
    | some (i, b) =>
      match b.kind, q.op, b.beats with
      | .hship, .ship _ _ n, x :: rest =>
        (t.deliverBeat b q.src x.dst ((List.range n).map fun j => bs.getD j 0)).beatDone q.src i rest
      | .hpull, .pull _ _ _, x :: rest => (t.countBeat b q.src x.len).beatDone q.src i rest
      | .hostStore, .ship _ _ n, x :: rest =>
        let (x, rest) := hostBeat x rest
        ({ t with host := t.host.putBytes x.dst ((List.range n).map fun j => bs.getD j 0) }).moved q.src i x.len rest
      | .hostLoad, .pull _ _ _, x :: rest =>
        let (x, rest) := hostBeat x rest
        t.moved q.src i x.len rest
      | _, _, _ => t

/-- The home module's fault at a beat of a command (R414, R415). -/
def State.homeBeatFault (s : State) (k : Nat) (cls sub : BitVec 8) (v : BitVec 48) : State :=
  match s.homeReq? k with
  | none => s
  | some q =>
    let t : State := { s with homeOut := dropAt s.homeOut k }
    match s.bulkOf q with
    | none => t
    | some (i, b) => t.beatFault q.src i b cls sub v

/-- A beat of a LOAD or STORE packet (R316, R317). -/
def State.hostMove (s : State) (id : CoreId) (i : Nat) (b : Bulk) (beat : Beat) (rest : List Beat) : State :=
  let load := b.kind == .hostLoad
  let cap := match b.src, b.dst with | .hbm c, _ => c | _, .hbm c => c | _, _ => ⟨0, false⟩
  if cap.home ≠ s.fabricId then
    s.askHome id b cap (if load then .pull b.id beat.dst (s.host.bytes beat.src beat.len) else .ship b.id beat.src beat.len)
  else
  let (tx, m) := s.beatWalk id b cap (if load then beat.dst else beat.src) beat.len (!load) load
  match tx with
  | .fault c u v => s.beatFault id i b c u v
  | .misses ((g, r, w) :: _) => s.beatMiss id i g r w
  | .misses [] => s
  | .ok ps =>
    match s.serve id.owner ps false with
    | none => s
    | some s =>
      let s := s.keepWalk id i m
      if load then (s.putHbm (spreadParts ps (s.host.bytes beat.src beat.len))).moved id i beat.len rest
      else s.arrayRead ps fun s => { s with host := s.host.putBytes beat.dst (partBytes s.hbm ps) }.moved id i beat.len rest

/-- BULK_BEAT (R211): the copy hart writes one beat and subtracts it from the cell; for a LOAD
or STORE, the memory core moves 256 bytes. -/
def execBulkBeat (s : State) : Res? :=
  match s.ev with
  | .coreIdx id i =>
    match s.bulk? id i with
    | none => .next s
    | some b =>
      if !s.engineRuns id then .next s
      else match b.kind, b.beats with
        | .bcopy, t :: rest | .tload, t :: rest | .tstore, t :: rest =>
          .next (((s.sidePutBytes id b.dst t.dst (s.sideBytes id b.src t.src t.len)).countBeat b id t.len).beatDone id i rest)
        | .hostLoad, t :: rest | .hostStore, t :: rest =>
          if s.linkUp then
            let (t, rest) := hostBeat t rest
            .next (s.hostMove id i b t rest)
          else .next s
        | _, _ => .next s
  | _ => .next s

/-! ## Beats of memory cores (R287, R288) -/

/-- Whether a command reaches an object homed on this module (R277, R449). -/
def State.homed (s : State) (c : Cap) : Bool := c.home == s.fabricId

/-- HSHIP_BEAT (R287, R355): a beat read from HBM is written at the target core; from an object of
another module it is asked for, and written when it comes (R277, R333). -/
def execHshipBeat (s : State) : Res? :=
  match s.ev with
  | .coreIdx id i =>
    match s.bulk? id i with
    | none => .next s
    | some b =>
      match b.kind, b.src, b.beats with
      | .hship, .hbm cap, t :: rest =>
        if !s.delivers id then .next s
        else if !s.homed cap then .next (s.askHome id b cap (.ship b.id t.src t.len))
        else
          let (tx, m) := s.beatWalk id b cap t.src t.len true false
          match tx with
          | .fault c u v => .next (s.beatFault id i b c u v)
          | .misses ((g, r, w) :: _) => .next (s.beatMiss id i g r w)
          | .misses [] => .next s
          | .ok ps =>
            match s.serve id.owner ps false with
            | none => .next s
            | some s => .next ((s.keepWalk id i m).arrayRead ps fun s =>
                (s.deliverBeat b id t.dst (partBytes s.hbm ps)).beatDone id i rest)
      | _, _, _ => .next s
  | .home k bs => .next (s.homeBeat k bs)
  | .homeFault k c u v => .next (s.homeBeatFault k c u v)
  | _ => .next s

/-- HPULL_BEAT (R288): a beat read at the target reaches its bank write buffer and is counted
on the memory core's own cell; for an object of another module it is sent, and counted when
that module acknowledges it (R277, R310, R333). -/
def execHpullBeat (s : State) : Res? :=
  match s.ev with
  | .coreIdx id i =>
    match s.bulk? id i with
    | none => .next s
    | some b =>
      match b.kind, b.dst, b.beats with
      | .hpull, .hbm cap, t :: rest =>
        let bs := s.sideBytes id b.src t.src t.len
        if !s.engineRuns id then .next s
        else if !s.homed cap then .next (s.askHome id b cap (.pull b.id t.dst bs))
        else
          let (tx, m) := s.beatWalk id b cap t.dst t.len false true
          match tx with
          | .fault c u v => .next (s.beatFault id i b c u v)
          | .misses ((g, r, w) :: _) => .next (s.beatMiss id i g r w)
          | .misses [] => .next s
          | .ok ps =>
            match s.serve id.owner ps false with
            | none => .next s
            | some s =>
              let s := s.keepWalk id i m
              .next (((s.putHbm (spreadParts ps bs)).countBeat b id t.len).beatDone id i rest)
      | _, _, _ => .next s
  | .home k bs => .next (s.homeBeat k bs)
  | .homeFault k c u v => .next (s.homeBeatFault k c u v)
  | _ => .next s

/-! ## `bgemv` (R290) -/

/-- The walks of some ranges of an object, in order. -/
def State.rangeWalks (s : State) (id : CoreId) (b : Bulk) (cap : Cap) (rs : List (Nat × Nat)) : Tx × Mmu :=
  match s.core? id with
  | none => (.ok [], s.mmu)
  | some c =>
    let f := s.fn id.owner
    let answered := match b.waiting, b.answer with
      | some g, some a => [(g, a)]
      | _, _ => []
    let g : Guest := ⟨f.objBase, f.objCount, f.ssRoot, id.circ % 2, refusals answered⟩
    let r := rs.foldl (init := (([] : List (Except TxFail (Nat × Nat))), (⟨s.hbm, c.tlb, c.objCache⟩ : Mmu)))
      fun (l, m) (o, n) => let r := m.access g cap.index o n true false; (l ++ r.1, r.2)
    (settle answered r.1, r.2)

/-- A byte of an object through a memory port that has walked its granule. -/
def State.objByte (s : State) (id : CoreId) (m : Mmu) (cap : Cap) (a : Nat) : Byte :=
  let f := s.fn id.owner
  match (m.access ⟨f.objBase, f.objCount, f.ssRoot, id.circ % 2, []⟩ cap.index a 1 true false).1 with
  | [.ok (h, _)] => m.hbm.get h
  | _ => 0

/-- Whether a side-list entry lies inside the capability's bounds and the object (R290). -/
def State.sideInside (s : State) (id : CoreId) (m : Mmu) (cap : Cap) (a : Nat) : Bool :=
  let f := s.fn id.owner
  let len := match (m.entry ⟨f.objBase, f.objCount, f.ssRoot, id.circ % 2, []⟩ cap.index).1 with
    | .ok e => objLength e
    | .error _ => 0
  decide (cap.lower ≤ a) && decide (a + 8 ≤ cap.upper) && decide (a + 8 ≤ len)

/-- The outputs of rows 0 to `rows` − 1, and the scan of B (R290). -/
def gemvRows (d : BitVec 512) (a : List (BitVec 16)) (r : Scan × List (List MVal)) : List (BitVec 32) :=
  let av := a.map fun x => MVal.ofFloat fmtB16 x.toNat
  r.2.map fun row => accumulate true false 0 av row 8 (ceilDiv (tdCols d) 8)

/-- BGEMV_BEAT (R290): the rows of the next output beat are computed from B as it now stands
and delivered; class 0x1E follows the last beat when a check has failed. The spec does not say whether
the reads inside the channels cost tokens of their interfaces (R22, R327): they cost none
(notes/assumptions/75.md). -/
def execBgemvBeat (s : State) : Res? :=
  match s.ev with
  | .coreIdx id i =>
    match s.bulk? id i with
    | none => .next s
    | some b =>
      match b.kind, b.src, b.beats with
      | .bgemv, .hbm cap, t :: rest =>
        if !s.delivers id then .next s
        else
          let d := b.desc
          let hi := (t.src + t.len) / 4
          let rows := (List.range hi).map fun n => (tdBase d + n * tdPitch d, tdRowBytes d)
          let more := if tdFp4 d then [(tdBscale d, hi * tdScales d), (tdBand d, 2 * ceilDiv hi 64)] else []
          let w := s.rangeWalks id b cap (rows ++ more)
          let m := w.2
          let rd := s.objByte id m cap
          let sd := fun x => if s.sideInside id m cap x then readNat rd x 8 else 0xFFFF00000000
          let scan := scanRows rd sd d ((tdType d).getD .i8) (tdType d == some .i8) hi
          let side := (List.range scan.1.entries).map fun k => tdSide d + 8 * k
          let w := s.rangeWalks id b cap (rows ++ more ++ (side.filter (s.sideInside id m cap)).map fun x => (x, 8))
          match w.1 with
          | .fault c u v => .next (s.beatFault id i b c u v)
          | .misses ((g, r, w) :: _) => .next (s.beatMiss id i g r w)
          | .misses [] => .next s
          | .ok ps =>
            let ys := (gemvRows d b.vec scan).drop (t.src / 4)
            let bad := b.bad.or (scan.1.bad.map fun (r, u) => (BitVec.ofNat 48 r, BitVec.ofNat 8 u))
            .next ((s.keepWalk id i w.2).arrayRead ps fun s =>
              let s := s.updBulk id i fun b => { b with bad := bad }
              let s := (s.deliverBeat b id t.dst (ys.flatMap fun y => natBytes 4 y.toNat)).beatDone id i rest
              match rest, bad with
              | [], some (r, u) => s.updCore id fun c => c.defer (.matrix 0 r u)
              | _, _ => s)
      | _, _, _ => .next s
  | _ => .next s

/-! ## Records (R212, R414) -/

/-- BULK_RECORD_RESUME (R414): a record whose granule has a reply goes on; its beat walks
again, and a refused one faults there. -/
def execBulkRecordResume (s : State) : Res? :=
  match s.ev with
  | .coreIdx id i =>
    match (s.core? id).bind (·.bulks[i]?) with
    | some b =>
      if b.record && b.waiting.isSome && b.answer.isSome && s.engineRuns id then
        .next (s.updBulk id i fun b => { b with record := false })
      else .next s
    | none => .next s
  | _ => .next s

end Sys2Proof.Machine
end

