-- ==== Sys2Proof/Machine/HbmEvents.lean ====
section
/-! DEFINITION. HBM accesses that return, second-stage misses and page requests, run-ahead,
frames, and the errors of caches, stacks and lanes (03_storage_model.md R83;
12_memory_core.md R278, R291; 22_faults_machinery.md R397 to R399; 23_faults_memory.md R406
to R424). -/

namespace Sys2Proof.Machine

open Sys2Proof

/-! ## Results of HBM loads (R278, R281 to R284, R418, R419) -/

/-- Bytes at host-physical pieces as an access of a core sees them: with the core's own earlier
stores that are still in its buffer (R76, R281). -/
def State.hbmBytes (s : State) (c : Core) (seq : Nat) (ps : List (Nat × Nat)) : List Byte :=
  partBytes (c.sb.foldl (init := s.hbm) fun m e =>
    match e.kind with
    | .hbm qs => if e.seq < seq then putParts m qs else m
    | _ => m) ps

/-- The pieces that an access reads. -/
def HbmOp.parts : HbmOp → List (Nat × Nat)
  | .load a _ => [(a, 8)]
  | .loadX a _ _ => [(a, 8)]
  | .loadRow ps _ => ps

/-- The access has performed: it leaves, and its load is no longer owed once no other part of
it is in flight. -/
def Core.accDone (c : Core) (a : HbmAcc) : Core :=
  let l := c.hbmAcc.erase a
  { c with
    hbmAcc := l
    outs := if l.any (·.seq == a.seq) then c.outs else c.outs.filter fun o => !(o.kind == .hbm && o.seq == a.seq) }

/-- The value of an access lands (R278): in its register, in a view row, or as a deposit that
leaves the core (R282). -/
def State.landHbm (s : State) (c : Core) (a : HbmAcc) : State :=
  let bs := s.hbmBytes c a.seq a.op.parts
  let v := BitVec.ofNat 64 (bytesNat bs)
  match a.op with
  | .load _ rd => s.updCore c.id fun d => (d.landG rd v a.seq).accDone a
  | .loadRow _ o => s.updCore c.id fun d => (d.landView o bs a.seq).accDone a
  | .loadX _ n k =>
    (s.updCore c.id fun d => { d.accDone a with unacked := d.unacked ++ [⟨a.seq, .core n, 0, 0⟩] }).send
      c.id (.core n) (.depositX k v) a.seq

/-- Whether a request asks for bytes or an old value. -/
def HomeOp.reads : HomeOp → Bool
  | .load _ _ | .loadX _ _ _ | .loadRow _ _ _ | .atomic _ _ _ _ _ => true
  | _ => false

/-- The first row of an access that another module's answer writes is no longer awaited. -/
def Core.rowHome (c : Core) (seq off n : Nat) : Core := { c with farRows := c.farRows.erase (seq, off, n) }

/-- What another module returns lands at the core (R278, R333): an access is no longer owed once
no other part of it is on its way. -/
def State.landHome (s : State) (q : HomeReq) (bs : List Byte) : State :=
  let v := BitVec.ofNat 64 (bytesNat bs)
  let more := s.homeOut.any fun r => r.src == q.src && r.seq == q.seq
  let done := fun (c : Core) =>
    { c with outs := if more then c.outs else c.outs.filter fun o => !(o.kind == .hbm && o.seq == q.seq) }
  match q.op with
  | .load _ rd => s.updCore q.src fun d => done (d.landG rd v q.seq)
  | .loadX _ n k =>
    (s.updCore q.src fun d => { done d with unacked := d.unacked ++ [⟨q.seq, .core n, 0, 0⟩] }).send
      q.src (.core n) (.depositX k v) q.seq
  | .loadRow _ n o => s.updCore q.src fun d =>
      done ((d.landView o ((List.range n).map fun i => bs.getD i 0) q.seq).rowHome q.seq o n)
  | .atomic _ _ _ _ rd => s.updCore q.src fun d => { done (d.landG rd v q.seq) with unacked := dropSeq d.unacked q.seq }
  | _ => s

/-- HBM_READ_REPLY (R278, R418, R419, R424): the oldest access of a core returns, when its
channel serves it (R327); errors on the way are corrected and logged, or strike the owner and
give no value. The reply of another module lands in the order of its requests (R304, R334). -/
def execHbmReadReply (s : State) : Res? :=
  match s.ev with
  | .read id o =>
    match s.core? id with
    | none => .next s
    | some c =>
      match c.hbmAcc with
      | [] => .next s
      | a :: _ =>
        match s.serve id.owner a.op.parts false with
        | none => .next s
        | some s =>
          let x := (a.op.parts.head?.map (·.1)).getD 0
          let land := fun (s : State) => s.arrayRead a.op.parts fun s => s.landHbm c a
          .next (match o with
            | .clean | .cacheCleanLost => land s
            | .arrayCorrected bit => (land s).arrayRecord 0 bit x
            | .cacheCorrected => (land s).coreRecord 0x03 id 3 0
            | .arrayUncorrectable => (s.arrayRecord 1 0 x).lose x
            | .cacheDirtyLost => (s.coreRecord 0x04 id 3 0).lose x)
  | .home k bs =>
    match s.homeReq? k with
    | some q => .next (if q.op.reads then { s with homeOut := dropAt s.homeOut k }.landHome q bs else s)
    | none => .next s
  | _ => .next s

/-- HBM_WRITE_ARRIVE (R291, R423): a write of a core reaches its bank write buffer, when its
channel serves it (R327); or another module has applied a store (R310). -/
def execHbmWriteArrive (s : State) : Res? :=
  match s.ev with
  | .coreIdx id i =>
    match (s.core? id).bind (·.hbmWr[i]?) with
    | none => .next s
    | some (a, n) =>
      match s.serve id.owner [(a, n)] false with
      | none => .next s
      | some s => .next (s.updCore id fun c => { c with hbmWr := dropAt c.hbmWr i })
  | .home k _ =>
    match s.homeReq? k with
    | some ⟨src, seq, _, _, .store _, _⟩ =>
      .next ({ s with homeOut := dropAt s.homeOut k }.updCore src fun c => { c with unacked := dropSeq c.unacked seq })
    | _ => .next s
  | _ => .next s

/-- The module that a core's packet waits for, when a path reaches it (R415, R449). -/
def State.homeAsked (s : State) (id : CoreId) : Bool :=
  match (s.core? id).bind (·.homeHeld) with
  | some (h, _) => s.reaches id.owner h
  | none => false

/-- TRANSLATION_RESOLVED (R406, R415): the core's earlier translations are mapped, and what its
shadow held is released; or another module answers the walk of the packet at the pc. -/
def execTranslationResolved (s : State) : Res? :=
  match s.ev with
  | .core id => .next (s.updCore id fun c => { c with walks := [] })
  | .homeWalk id a =>
    .next (if s.homeAsked id then s.updCore id fun c => { c with homeAns := some a, homeHeld := none } else s)
  | _ => .next s

/-! ## Misses and run-ahead (R408 to R412, R427) -/

/-- Whether a request of a function for a granule is outstanding (R409). -/
def Fn.requested (f : Fn) (g : Nat) : Bool := f.reqs.any (·.gran == g) || f.reqQueue.any (·.1 == g)

/-- TRANSLATION_MISS (R408, R412): at level 0 the core runs ahead from b, but a packet that
needs a granule of the core's last batch that is still outstanding waits for it; at level 1 one
request is submitted and the packet waits. A miss at another module is that module's to request
(R415): the packet learns of it, and the core runs ahead in the same way. -/
def execTranslationMiss (s : State) : Res? :=
  match s.ev with
  | .core id =>
    .next (s.onCore id fun s =>
      match s.me.needs with
      | [] => s
      | (g, r, w) :: l =>
        if s.me.csr.level ≠ 0 then
          (s.request id.owner g r w).onMe fun c => { c with needs := [(g, r, w)], asked := [g] }
        else
          let late := ((g, r, w) :: l).filter fun n => s.me.asked.contains n.1 && (s.fn id.owner).requested n.1
          if late.isEmpty then s.onMe Core.startAhead else s.onMe fun c => { c with needs := late })
  | .homeWalk id (.missed l) =>
    .next (if s.homeAsked id then s.updCore id fun c => { c with homeAns := some (.missed l), homeHeld := none } else s)
  | _ => .next s

/-- RUN_AHEAD_END (R408, R427): at 256 packets or 32 granules the batch is submitted and the
core goes back to b. -/
def execRunAheadEnd (s : State) : Res? :=
  match s.ev with
  | .core id =>
    .next (s.onCore id fun s =>
      match s.me.ahead with
      | some a => if 256 ≤ a.packets ∨ 32 ≤ a.batch.length then s.endAhead else s
      | none => s)
  | _ => .next s

/-- Every granule that the packet at b needs has a reply (R412). -/
def Core.repliesIn (c : Core) : Bool := !c.needs.isEmpty && c.needs.all fun n => c.answered.any (·.1 == n.1)

/-- CHECKPOINT_REISSUE (R412): the packet at b is issued again. -/
def execCheckpointReissue (s : State) : Res? :=
  match s.ev with
  | .core id => .next (s.updCore id fun c => if c.repliesIn then { c with needs := [] } else c)
  | _ => .next s

/-! ## Page requests (R409 to R411) -/

/-- Replies that a packet has had, with one more for a granule that it waits for. -/
def heard (needs : List (Nat × Bool × Bool)) (answered : List (Nat × BitVec 8)) (g : Nat) (sub : BitVec 8) :
    List (Nat × BitVec 8) :=
  if needs.any (·.1 == g) && !answered.any (·.1 == g) then answered ++ [(g, sub)] else answered

/-- A core has the reply for a granule that a packet or a command of it waits for (R411). -/
def Core.hear (c : Core) (g : Nat) (sub : BitVec 8) : Core :=
  { c with
    bulks := c.bulks.map fun b => if b.waiting = some g then { b with answer := some sub } else b
    answered := heard c.needs c.answered g sub
    waitBack := (c.waitBack.1, c.waitBack.2.1, heard c.waitBack.2.1 c.waitBack.2.2.1 g sub, c.waitBack.2.2.2) }

/-- Another module's access has the reply for a granule that it waits for (R415). -/
def FabricReq.hear (x : FabricReq) (g : Nat) (sub : BitVec 8) : FabricReq :=
  if x.asked.contains g then { x with answered := x.answered ++ [(g, sub)] } else x

/-- A request is answered with a sub of class 0x31, 4 for a mapping: its entry frees (R411). -/
def State.reply (s : State) (f : Nat) (r : PageReq) (sub : BitVec 8) : State :=
  let s := s.updFn f fun fn => { fn with reqs := fn.reqs.filter (·.tag ≠ r.tag) }
  let s : State := { s with fabricIn := s.fabricIn.map fun (x : FabricReq) => if x.fn = f then x.hear r.gran sub else x }
  (s.cores.filter fun c => c.id.owner = f).foldl (fun s c => s.updCore c.id fun d => d.hear r.gran sub) s

/-- The outstanding request that a tag names; one not yet written has no tag the host knows. -/
def State.requestOf (s : State) (f : Nat) (tag : BitVec 32) : Option PageReq :=
  (s.fn f).reqs.find? fun r => r.tag == tag && r.written

/-- The frames that the leaf of a granule of a function now points at: eight under a contig
bit (R81, R417), all of a block's. -/
def State.framesOf (s : State) (f g : Nat) : List Nat :=
  match stageWalk s.hbm (g * 2 ^ 13) false false 3 (s.fn f).ssRoot with
  | .mapped _ n h _ _ _ => (List.range (n / 2 ^ 13)).map fun i => h / 2 ^ 13 + i
  | _ => []

/-- Frames that a function may hold (R83). -/
def Fn.limit (f : Fn) : Nat := max f.burst f.guar

/-- Frames of a checkpoint's copies: 8 for a stripe, 1 for a frame (R435). -/
def Shadow.size (k : Shadow) : Nat := 8 * (k.cores.length + k.banks.length) + k.frames.length

/-- Frames that are charged to a function, its checkpoint's copies too (R417, R435). -/
def Fn.held (f : Fn) : Nat := f.frames.length + ((f.ckpt.map fun k => k.copied.size).getD 0)

/-- Frames that no function holds, beside firmware's (R83). -/
def State.freeFrames (s : State) : Nat := 100663296 - Config.firmwareReserve - (s.fns.map Fn.held).sum

/-- Whether a function has a request that a mapping would answer with a frame (R417). -/
def Fn.needsFrame (f : Fn) : Bool := f.reqs.any (·.written)

/-- PAGE_REPLY_MAPPED (R83, R411, R417): the waiting walks go on; the leaf's frames are charged,
or the reply turned into refused when they would take the function beyond its burstable count,
or beyond its guarantee while they are not free. -/
def execPageReplyMapped (s : State) : Res? :=
  match s.ev with
  | .tag f tag =>
    match s.requestOf f tag with
    | none => .next s
    | some r =>
      let fn := s.fn f
      let new := (s.framesOf f r.gran).filter fun x => !fn.frames.contains x
      if new.isEmpty then .next (s.reply f r 4)
      else if fn.limit < fn.held + new.length ∨
          (fn.guar < fn.frames.length + new.length ∧ s.freeFrames < new.length) then .next (s.reply f r 1)
      else .next ((s.updFn f fun fn => { fn with frames := fn.frames ++ new }).reply f r 4)
  | _ => .next s

/-- PAGE_REPLY_REFUSED (R411). -/
def execPageReplyRefused (s : State) : Res? :=
  match s.ev with
  | .tag f tag =>
    match s.requestOf f tag with
    | none => .next s
    | some r => .next (s.reply f r 1)
  | _ => .next s

/-- PAGE_REQUEST_TIMEOUT (R411): a request that has been unanswered for longer than the reply
limit is answered refused by the device. -/
def execPageRequestTimeout (s : State) : Res? :=
  match s.ev with
  | .tag f tag =>
    match s.requestOf f tag with
    | none => .next s
    | some r => .next (if (s.fn f).replyLimit < r.age then s.reply f r 2 else s)
  | _ => .next s

/-- PAGE_REQUEST_DEQUEUE (R410): the first queued request of a function takes an entry, one of the
pool in the order of all requests. -/
def execPageRequestDequeue (s : State) : Res? :=
  match s.ev with
  | .num f =>
    match (s.fn f).reqQueue with
    | [] => .next s
    | (g, r, w) :: l =>
      .next (if s.entryFree f && (decide ((s.fn f).reqs.length < 4) || !s.poolOwed f) then
        { (s.updFn f fun fn => { fn with reqQueue := l }).enterRequest f g r w with reqOrder := s.reqOrder.erase f }
      else s)
  | _ => .next s

/-- A waiting request is written to the ring (R331, R411). -/
def State.writeRequest (s : State) (f : Nat) (r : PageReq) : State :=
  let fn := s.fn f
  let dw0 := r.gran * 2 ^ 13 + (if r.rd then 2 else 0) + (if r.wr then 4 else 0)
  { s.updFn f fun fn =>
      { fn with
        prTail := fn.prTail + 1
        reqs := fn.reqs.map fun q => if q.tag = r.tag then { q with written := true, age := 0 } else q } with
    host := s.host.putBytes (fn.prBase.toNat + 16 * (fn.prTail.toNat % 1024))
      (natBytes 8 dw0 ++ natBytes 8 r.tag.toNat) }

/-- The waiting requests of a function are written, in order (R411, R447). -/
def State.writeRequests (s : State) (f : Nat) : State :=
  if (s.fn f).prEn && s.linkUp then ((s.fn f).reqs.filter fun r => !r.written).foldl (fun s r => s.writeRequest f r) s else s

/-- An entry goes into the physical function's ring: a frame that is asked back, and its tag
(R331, R417; notes/assumptions/77.md). -/
def State.writeReclaim (s : State) (x : Nat) (tag : BitVec 32) : State :=
  { s with
    host := s.host.putBytes (s.pf.prBase.toNat + 16 * (s.pf.prTail.toNat % 1024)) (natBytes 8 (x * 2 ^ 13) ++ natBytes 8 tag.toNat)
    pf := { s.pf with prTail := s.pf.prTail + 1 }
    reclaims := s.reclaims.map fun (y, t, b) => (y, t, b || t == tag) }

/-- Reclaim entries that wait are written, in order (R417, R447). -/
def State.writeReclaims (s : State) : State :=
  if s.pf.prEn && s.linkUp then
    (s.reclaims.filter fun r => !r.2.2).foldl (fun s (x, tag, _) => s.writeReclaim x tag) s
  else s

/-- PAGE_REQUEST_RING_ENABLE (R331, R411): en = 1 writes the waiting requests, in order; the
physical function's ring is that of index 64. -/
def execPageRequestRingEnable (s : State) : Res? :=
  match s.ev with
  | .reg f _ v =>
    if v.getLsbD 0 then
      .next (if f = 64 then { s with pf := { s.pf with prBase := v &&& 0xFFFFFFFFFFFFF000, prEn := true } }.writeReclaims
        else (s.updFn f fun fn => { fn with prBase := v &&& 0xFFFFFFFFFFFFF000, prEn := true }).writeRequests f)
    else .next s
  | _ => .next s

/-! ## Frames (R83, R417) -/

/-- A floor of an owner at one of the 384 channels, when those there sum to at most 512 tokens (R20,
R327). -/
def State.setFloor (s : State) (f ch n : Nat) : State :=
  let l := (ch, f, n) :: s.floors.filter fun x => !(x.1 == ch && x.2.1 == f)
  if ch < 384 ∧ ((l.filter (·.1 == ch)).map (·.2.2)).sum ≤ 512 then { s with floors := l } else s

/-- A setting of Bamind's, when it is in its range (R79, R81, R327, R335, R338, R394, R411,
R447, R450; notes/assumptions/74.md). -/
def State.apply (s : State) (f : Nat) (x : Setting) : State :=
  let within := fun (n lo hi : Nat) (g : Fn → Fn) => if 2 ^ lo ≤ n ∧ n ≤ 2 ^ hi then s.updFn f g else s
  match x with
  | .table b n => s.updFn f fun fn => { fn with objBase := b, objCount := n }
  | .root r => s.updFn f fun fn => { fn with ssRoot := r }
  | .watchdog n => within n 20 32 fun fn => { fn with wdLimit := n }
  | .reply n => within n 24 34 fun fn => { fn with replyLimit := n }
  | .rendezvous n => within n 24 34 fun fn => { fn with rdvLimit := n }
  | .shares lo hi => if 1 ≤ lo ∧ lo ≤ hi then s.updFn f fun fn => { fn with plugin := { fn.plugin with shares := (lo, hi) } } else s
  | .slices lo hi => if lo ≤ hi then s.updFn f fun fn => { fn with plugin := { fn.plugin with slices := (lo, hi) } } else s
  | .floor ch n => s.setFloor f ch n
  | .privileged b => s.updFn f fun fn => { fn with privileged := b }
  | .link n => { s with linkLimit := n }

/-- FRAME_COUNTS_SET (R83): the sum of guaranteed counts never exceeds the frames of the module
that firmware leaves. The other settings of Bamind arrive in the same way. -/
def execFrameCountsSet (s : State) : Res? :=
  match s.ev with
  | .frames f guar burst =>
    let t := s.updFn f fun fn => { fn with guar := guar, burst := burst }
    .next (if (t.fns.map (·.guar)).sum ≤ 100663296 - Config.firmwareReserve then t else s)
  | .setting f x => .next (s.apply f x)
  | _ => .next s

/-- The span in which a frame was last used (R417). -/
def State.lastUse (s : State) (x : Nat) : Nat :=
  s.frameUse.foldl (fun m (b, n, t) => if b ≤ x ∧ x < b + n then max m t else m) 0

/-- The frames beyond their owners' guarantees. A function's guarantee is held by the frames it
used last (R417; notes/assumptions/38.md). -/
def State.surplus (s : State) : List Nat :=
  s.fns.flatMap fun fn =>
    let n := fn.frames.length - fn.guar
    (fn.frames.mergeSort fun a b => s.lastUse a < s.lastUse b || (s.lastUse a == s.lastUse b && a ≤ b)).take n

/-- The frame that is reclaimed first: least recently used, then lowest (R417). -/
def State.reclaimed (s : State) : Option Nat :=
  (s.surplus.filter fun x => !s.reclaims.any (·.1 == x)).foldl (init := none) fun best x =>
    match best with
    | none => some x
    | some b => if s.lastUse x < s.lastUse b ∨ (s.lastUse x = s.lastUse b ∧ x < b) then some x else best

/-- FRAME_RECLAIM (R417): for a function below its guarantee that needs a frame, when none is free,
the scheduler asks the hypervisor for a frame beyond some owner's guarantee, by an entry in the
physical function's ring. -/
def execFrameReclaim (s : State) : Res? :=
  match s.ev with
  | .num f =>
    if (s.fn f).frames.length < (s.fn f).guar ∧ (s.fn f).needsFrame ∧ s.freeFrames = 0 then
      match s.reclaimed with
      | some x => .next { s with reclaims := s.reclaims ++ [(x, BitVec.ofNat 32 x, false)] }.writeReclaims
      | none => .next s
    else .next s
  | _ => .next s

/-- RECLAIM_REPLY (R417): the frame is free, and its charge ends. -/
def execReclaimReply (s : State) : Res? :=
  match s.ev with
  | .tag _ tag =>
    match s.reclaims.find? fun r => r.2.1 == tag && r.2.2 with
    | none => .next s
    | some (x, _, _) =>
      .next { s with
        fns := s.fns.map fun (fn : Fn) => ({ fn with frames := fn.frames.filter (· ≠ x) } : Fn)
        reclaims := s.reclaims.filter (·.2.1 ≠ tag) }
  | _ => .next s

/-! ## Stacks and lanes (R419 to R424) -/

/-- HBM_SCRUB (R419): the scrub corrects a codeword, or finds one uncorrectable. -/
def execHbmScrub (s : State) : Res? :=
  match s.ev with
  | .scrub a e =>
    .next (match e with
      | .none => s
      | .single bit => { s.arrayRecord 2 bit a with flaws := s.flaws.filter fun x => x.1 ≠ a / 32 }
      | .double => (s.arrayRecord 1 0 a).lose a)
  | _ => .next s

/-- The global channel of a burst: channel k of stack s is 32s + k (R20). -/
def burstChannel (x : Burst) : Nat := 32 * x.stack + x.channel

/-- Whether a burst is at one of the 32 channels of one of the 12 stacks (R20). -/
def burstReal (x : Burst) : Bool := decide (x.stack < 12) && decide (x.channel < 32)

/-- Spare lanes left on a channel of a stack (R421). -/
def State.sparesOf (s : State) (x : Burst) : Nat := (s.spares.lookup (burstChannel x)).getD 4

/-- A transfer record, whose cyc is that of the first failure, `ago` cc before (R422). -/
def State.transferRecord (s : State) (kind tries lane ago : Nat) (x : Burst) : State :=
  let owner := (s.frameOwner x.addr).getD 0x3F
  let r := BitVec.ofNat 64 (kind * 2 ^ 62 + (if x.write then 2 ^ 61 else 0) + x.channel % 32 * 2 ^ 56 +
    (if x.pc then 2 ^ 55 else 0) + tries % 8 * 2 ^ 52 + lane % 32 * 2 ^ 47 + s.sparesOf x % 8 * 2 ^ 44 +
    x.beat % 16 * 2 ^ 40 + x.stack % 16 * 2 ^ 36 + owner % 64 * 2 ^ 30)
  let e := (r, s.cyc - BitVec.ofNat 64 ago)
  { s with xferLog := modAt s.xferLog x.stack fun l => lastN 256 (l ++ [e]), pfLog := s.pfLog ++ [e] }

/-- A burst is uncorrectable (R421). -/
def State.loseBurst (s : State) (tries lane ago : Nat) (x : Burst) : State :=
  (s.transferRecord 2 tries lane ago x).lose x.addr

/-- TRANSFER_PARITY_RETRY (R420): a burst is transferred again, up to 4 times; one that is
delivered writes a record. A retry starts 12 cc after the burst before it ends, and takes 4. -/
def execTransferParityRetry (s : State) : Res? :=
  match s.ev with
  | .burst x tries _ ok =>
    .next (if burstReal x && ok && decide (1 ≤ tries) && decide (tries ≤ 4) then s.transferRecord 0 tries 0 (16 * tries) x else s)
  | _ => .next s

/-- LANE_TEST (R421): after 4 failed retries, in 1,024 cc; a test that finds no single failing lane,
or a channel without a spare, leaves the burst uncorrectable. -/
def execLaneTest (s : State) : Res? :=
  match s.ev with
  | .burst x _ lane _ =>
    .next (if !burstReal x then s else match lane with
      | none => s.loseBurst 4 0 (64 + 1024) x
      | some l => if s.sparesOf x = 0 then s.loseBurst 4 l.toNat (64 + 1024) x else s)
  | _ => .next s

/-- LANE_SWAP (R421): a spare takes the failing lane's place, and the burst is sent once
more. -/
def execLaneSwap (s : State) : Res? :=
  match s.ev with
  | .burst x _ (some l) ok =>
    if s.sparesOf x = 0 ∨ !burstReal x then .next s
    else
      let k := (burstChannel x)
      let t := { s with spares := (k, s.sparesOf x - 1) :: s.spares.filter (·.1 ≠ k) }
      .next (if ok then t.transferRecord 1 4 l.toNat (64 + 1024 + 4) x else t.loseBurst 4 l.toNat (64 + 1024 + 4) x)
  | _ => .next s

/-! ## Protected words of cores and banks (R397, R398) -/

/-- The code of a store in a record (R399). -/
def storeCode : StoreKind → Nat
  | .reg => 0
  | .scratch => 1
  | .bank => 2

/-- The offset of a byte of a core in the store of its column (R360); a bank offset is its
own. -/
def storeOffset (num : Nat) (st : StoreKind) (o : Nat) : Nat :=
  match st with
  | .reg => 0x20000 * (num % 8) + o
  | .scratch => 0x80000 * (num % 8) + o
  | .bank => o

/-- Whether a stripe belongs to a context (R359): it is in the stripe map, or a state area;
every stripe of a memory core belongs to the core's context. -/
def State.allocated (s : State) (id : CoreId) (st : StoreKind) (o : Nat) : Bool :=
  let k := storeOffset id.num st o / 0x10000
  decide (0x800 ≤ id.num) || (st == .reg && k % 2 == 1) ||
  s.stripes.any fun x => x.r.owner == id.owner && x.r.circ == id.circ && x.lcol == id.num / 8 && x.st == st && x.k == k

/-- The 8 bytes of a word read zero. -/
def State.clearWord (s : State) (id : CoreId) (st : StoreKind) (o : Nat) : State :=
  let zero := fun (m : Memory) => m.putBytes (o / 8 * 8) (List.replicate 8 0)
  match st with
  | .reg => s.updCore id fun c => { c with vmem := zero c.vmem }
  | .scratch => s.updCore id fun c => { c with scr := zero c.scr }
  | .bank => s.updRegion id.owner id.circ fun r => { r with banks := modAt r.banks (id.num / 8) zero }

/-- A record about a word of a store: a bank is no core's, and lies in no slot (R399). -/
def State.storeRecord (s : State) (kind : Nat) (id : CoreId) (st : StoreKind) (off : Nat) : State :=
  match st with
  | .bank =>
    let col := (s.colOf id).getD (id.num % 256)
    s.record col (errorRecord kind 15 id.owner 0xFFF col 15 2 off)
  | st => s.coreRecord kind id (storeCode st) off

/-- What a check of a protected word finds (R397): a single-bit error is corrected and
recorded; a double-bit error strikes the owner of the stripe, and in an unallocated stripe is
cleared. -/
def State.checkWord (s : State) (id : CoreId) (st : StoreKind) (o : Nat) (e : CellError) : State :=
  let off := storeOffset id.num st o / 8
  match e with
  | .none => s
  | .single _ => s.storeRecord (1 + storeCode st) id st off
  | .double =>
    let t := s.storeRecord 0x04 id st off
    if s.allocated id st o then t.strike id.owner 0x01 else t.clearWord id st o

/-- What a check of a word of a hardware deque or of a store buffer finds (R397): their places in the
core's register space, which the record names, are not given, so that the record's offset is a free
value (notes/assumptions/84.md). -/
def State.checkQueued (s : State) (id : CoreId) (e : CellError) : State :=
  let (v, t) := s.draw
  let off := v.toNat % 2 ^ 22
  match e with
  | .none => s
  | .single _ => t.coreRecord 0x01 id 0 off
  | .double => (t.coreRecord 0x04 id 0 off).strike id.owner 0x01

/-- BACKGROUND_SCRUB (R397). -/
def execBackgroundScrub (s : State) : Res? :=
  match s.ev with
  | .stored id st o e => .next (s.checkWord id st o e)
  | .queued id e => .next (s.checkQueued id e)
  | _ => .next s

end Sys2Proof.Machine
end

