-- ==== Sys2Proof/Machine/Matrix.lean ====
section
/-! DEFINITION. The M words: identifiers, gangs, products at the barrier, clearing and
fading, drains (11_matrix.md R258 to R274; 21_faults_instructions.md R383). -/

namespace Sys2Proof.Machine

open Sys2Proof

/-! ## Shared checks and reads -/

/-- An M word in a composed core (R366 class 0x14). -/
def Core.noMatrix (c : Core) (mj : BitVec 6) : Option Exc := check c.composed ⟨0x14, 1, 0, 0, mj⟩

/-- The check of accumulator view k (R62, R265): `fl` says which type it must have. -/
def Core.accCheck (c : Core) (mj : BitVec 6) (k : BitVec 3) (fl : Option Bool) : Option Exc :=
  let v := c.view (40 + k.toNat)
  let n : BitVec 6 := k.setWidth 6
  let t := viewType v
  let ok := match fl with
    | some b => t == some (if b then .f32 else .i32)
    | none => t == some .f32 || t == some .i32
  firstOf [
    check (!ok) (viewExc mj 3 n),
    check (viewBase v % 512 != 0 || viewPitch v != 512) (viewExc mj 1 n),
    check (decide (viewEnd c.id.num < viewBase v + 0x2000)) (viewExc mj 2 n)]

/-- The base of accumulator view k. -/
def Core.accBase (c : Core) (k : BitVec 3) : Nat := viewBase (c.view (40 + k.toNat))

/-- Whether accumulator view k is `f32`. -/
def Core.accFloat (c : Core) (k : BitVec 3) : Bool := viewType (c.view (40 + k.toNat)) == some .f32

/-- The check of a view that gives only its base and type (R267, R273). -/
def Core.blockCheck (c : Core) (mj : BitVec 6) (k : BitVec 5) (t : EType) (n : Nat) : Option Exc :=
  let v := c.view k.toNat
  let r : BitVec 6 := k.setWidth 6
  firstOf [
    check (viewType v != some t) (viewExc mj 3 r),
    check (viewBase v % 4 != 0) (viewExc mj 1 r),
    check (decide (viewEnd c.id.num < viewBase v + n)) (viewExc mj 2 r)]

/-- n 32-bit words of the view area. -/
def Core.words (c : Core) (a : Nat) : Nat → List (BitVec 32)
  | 0 => []
  | n + 1 => BitVec.ofNat 32 (c.vmem.nat a 4) :: Core.words c (a + 4) n

/-- The bytes of 32-bit words. -/
def wordBytes (l : List (BitVec 32)) : List Byte := l.flatMap fun w => natBytes 4 w.toNat

/-- The granule exponent of a command (R153, R275). -/
def State.granule (s : State) : Nat := (s.me.issue.gran.map (·.toNat)).getD 4

/-! ## Identifiers (R258, R259) -/

/-- `tidset` (R258, R383). -/
def execTidset (t ga : BitVec 6) (s : State) : Res? :=
  let a := s.me.gr ga
  match s.me.noMatrix 0x33, s.locate 0x33 ga ownSpace a 64 64 with
  | some e, _ => act [.g ga] [.t t] (some e) false s s
  | none, .error e => act [.g ga] [.t t] (some e) false s s
  | none, .ok l =>
    let d := BitVec.ofNat 512 (s.ownNat l.off 64)
    let held := s.me.readsHeld [(l.off, 64)]
    act [.g ga, .scr l.off 64] [.t t] (check (!held && !tdOk d) (tidExc 0x33 1 t)) held
      (s.later (.t t d) 4) s

/-- What `tidq` reads (R259); reserved fields read as zero (R5). -/
def tidField (d : BitVec 512) (sel : BitVec 4) : BitVec 64 :=
  match sel.toNat with
  | 0 => tdDword (d &&& tidFields) 0
  | 1 => BitVec.ofNat 64 (tdRows d)
  | 2 => BitVec.ofNat 64 (tdCols d)
  | 3 => BitVec.ofNat 64 (tdPitch d)
  | 4 => tdDword d 3
  | 5 => tdDword d 4
  | 6 => tdDword d 5
  | 7 => tdDword d 6
  | 8 => tdDword d 7
  | 9 => BitVec.ofNat 64 (tdStored d)
  | 10 => BitVec.ofNat 64 (tdScales d)
  | _ => BitVec.ofNat 64 (tdRowBytes d)

/-- `tidq` (R259). -/
def execTidq (t rd : BitVec 6) (sel : BitVec 4) (s : State) : Res? :=
  act [.t t] [.g rd] (s.me.noMatrix 0x33) false (s.later (.g rd (tidField (s.me.tid t) sel)) 4) s

/-! ## Gangs and products (R262 to R266, R269) -/

/-- A core's own bit in a mask. -/
def Core.ownBit (c : Core) : BitVec 8 := 1 <<< (c.id.num % 8)

/-- `mgang` (R262). -/
def execMgang (m : BitVec 8) (s : State) : Res? :=
  act [] [] (firstOf [s.me.noMatrix 0x32,
      check (m &&& s.me.ownBit == 0) (operandExc 0x32 6 0 (m.setWidth 64))]) false
    (s.onMe fun c => { c with gang := some m }) s

/-- The role of A. -/
def roleA (sparse : Bool) : Role := if sparse then .sparseA else .a

/-- The first operand of a word that fails, or the two operands. -/
def bothOperands (a b : Except Exc Operand) : Except Exc (Operand × Operand) :=
  match a, b with
  | .error e, _ => .error e
  | .ok _, .error e => .error e
  | .ok x, .ok y => .ok (x, y)

/-- `mmul` and `mmsp` (R263 to R266): the word waits for its port and its bytes, then at
the barrier; it issues when its gang has started (`granted`). A check that reads an operand's bytes
waits for them like the word (R261). -/
def productWord (sparse : Bool) (ad : BitVec 3) (ta tb : BitVec 6) (sa sb sat acc fd rsum csum : Bool)
    (sv : BitVec 3) (s : State) : Res? :=
  let mj : BitVec 6 := if sparse then 0x31 else 0x30
  let c := s.me
  let da := c.tid ta
  let db := c.tid tb
  let fl := ((tdType da).map isFloat).getD false
  let ra := c.resolveTile da
  let rb := c.resolveTile db
  let sides := rsum || csum
  let vs : BitVec 5 := 24 + sv.setWidth 5
  let src0 : List Res := [.t ta, .t tb]
  -- a check that needs an identifier is made once the identifier has passed (R364)
  let okA := tdOk da
  let tSide : EType := if okA then (if fl then .f32 else .i32)
    else if viewType (c.view vs.toNat) == some .f32 then .f32 else .i32
  let before := firstOf [
    c.noMatrix mj,
    c.accCheck mj ad (if okA then some fl else none),
    if sides then c.blockCheck mj vs tSide 576 else none,
    if okA then c.tileCheck mj (roleA sparse) da else none,
    if tdOk db then c.tileCheck mj .b db else none,
    check (!okA) (tidExc mj 1 ta),
    check (!tdOk db) (tidExc mj 1 tb)]
  match before, bothOperands (c.operand mj (roleA sparse) sa (tdTv da ≠ 0) ta ra)
      (c.operand mj .b sb (tdTv db ≠ 0) tb rb) with
  | some e, _ => act src0 [] (some e) false s s
  | none, .error e =>
    let read := c.scanned (roleA sparse) (tdTv da ≠ 0) ra ++ c.scanned .b (tdTv db ≠ 0) rb
    act (src0 ++ read.map fun (o, n) => Res.regs o n) [] (some e) false s s
  | none, .ok (a, b) =>
    let chk := firstOf [
      check (isFloat a.t != isFloat b.t || a.k != b.k) (tidExc mj 5 tb),
      check (fl && (sa || sb)) (operandExc mj 2 0 1)]
    let base := c.accBase ad
    let side := viewBase (c.view vs.toNat)
    let p : Product :=
      ⟨sparse, ad, ra, rb, ta, tb, sa, sb, sat, acc, fd, rsum, csum, side, base, c.csr.mgamma, s.granule,
       c.gang.getD c.ownBit, c.issue.word⟩
    let src := src0 ++ (a.spans ++ b.spans ++ (if acc then [(base, 0x2000)] else [])).map fun (o, n) => Res.regs o n
    let dst := ((base, 0x2000) :: (if sides then [(side, 576)] else [])).map fun (o, n) => Res.regs o n
    let eff :=
      if c.granted then s.onMe fun c => { c with granted := false, gang := none }
      else (s.onMe fun c => { c with atBarrier := some p }).stall .waiting
    act src dst chk (!c.granted && c.product.isSome) eff s

/-- `mmul` (R265, R266). -/
def execMmul (ad : BitVec 3) (ta tb : BitVec 6) (sa sb sat acc fd rsum csum : Bool) (sv : BitVec 3)
    (s : State) : Res? :=
  productWord false ad ta tb sa sb sat acc fd rsum csum sv s

/-- `mmsp` (R265, R269). -/
def execMmsp (ad : BitVec 3) (ta tb : BitVec 6) (sa sb sat acc fd rsum csum : Bool) (sv : BitVec 3)
    (s : State) : Res? :=
  productWord true ad ta tb sa sb sat acc fd rsum csum sv s

/-! ## Clearing and fading (R270) -/

/-- A slice-path word: it waits for the slice path and for its bytes (R261). -/
def sliceWord (g : List Res) (chk : Option Exc) (cmd : SliceCmd) (draws : Nat) (s : State) : Res? :=
  let src := g ++ cmd.reads.map fun (o, n) => Res.regs o n
  let dst := cmd.writes.map fun (o, n) => Res.regs o n
  let eff := s.onMe fun c => { c with slice := some cmd }
  act src dst chk s.me.slice.isSome
    (if draws = 0 then eff else eff.later (.srAdv (s.me.csr.srcnt + BitVec.ofNat 32 draws)) 1) s

/-- `mzero` (R270). -/
def execMzero (ad : BitVec 3) (s : State) : Res? :=
  let base := s.me.accBase ad
  sliceWord [] (firstOf [s.me.noMatrix 0x32, s.me.accCheck 0x32 ad none])
    ⟨.mzero, [⟨0, 16, base, List.replicate 0x2000 0, 0x10000⟩], 16, none, [], none, 4, [], [(base, 0x2000)]⟩ 0 s

/-- `mfade` (R270): an `i32` view is unchanged. -/
def execMfade (ad : BitVec 3) (s : State) : Res? :=
  let base := s.me.accBase ad
  let bs := wordBytes ((s.me.words base 2048).map (fadeElem s.me.csr.mgamma))
  let rows := if s.me.accFloat ad then [⟨0, 16, base, bs, 0x10000⟩] else []
  sliceWord [] (firstOf [s.me.noMatrix 0x32, s.me.accCheck 0x32 ad none])
    ⟨.mfade, rows, 16, none, [], none, 4, [(base, 0x2000)], [(base, 0x2000)]⟩ 0 s

/-! ## Drains (R271 to R274) -/

/-- The parameter block at the base of a view: multipliers, shift, zero point (R273). -/
def Core.params (c : Core) (base : Nat) : List Int × Int × Int :=
  ((c.words base 128).map (·.toInt), (BitVec.ofNat 32 (c.vmem.nat (base + 512) 4)).toInt,
   (BitVec.ofNat 32 (c.vmem.nat (base + 516) 4)).toInt)

/-- A drain's row: its bytes and its block scales (R252, R272). -/
structure DrainRow where
  bytes : List Byte
  scales : List Byte

/-- Row r of a drain: `cs` its accumulator elements (R272). -/
def drainRow (rnd : Nat → Rnd) (fl : Bool) (dt : EType) (mult : List Int) (sh : Nat) (zo : Int) (r k : Nat)
    (cs : List (BitVec 32)) : DrainRow :=
  let n := storedBytes dt k
  if dt = .e2m1 then
    let vs := cs.map fun c => fmt32.decode c.toNat
    let codes := (chunks 8 vs (k / 8)).map blockCode
    ⟨pack 4 n ((vs.zip (List.range k)).map fun (x, j) => (quantElem (codes.getD (j / 8) 0) (rnd (r * k + j)) x).1),
     codes.map (BitVec.ofNat 8)⟩
  else
    ⟨pack (widthOf dt) n ((cs.zip (List.range k)).map fun (x, j) =>
      drainElem (rnd (r * k + j)) fl dt (mult.getD j 0) sh zo x), []⟩

/-- The checks that both drains share, in order (R383): class 0x16, 0x17, the parameter
block. `rows` is the check of the rows' place, made once the identifier has passed. -/
def Core.drainCheck (c : Core) (mj : BitVec 6) (role : Role) (t : BitVec 6) (a : BitVec 3) (vp : BitVec 5)
    (d r : BitVec 512) (rows : Option Exc) : Option Exc :=
  let fl := c.accFloat a
  let dt := (tdType d).getD .i8
  let req := !fl && !isFloat dt
  let acc := c.accCheck mj a none
  let ok := tdOk d
  let tile := if ok then c.tileCheck mj role d else none
  let ident := excOf (c.operand mj role false (tdTv d ≠ 0) t r)
  let pb := if ok && req then c.blockCheck mj vp .i32 520 else none
  let q := c.params (viewBase (c.view vp.toNat))
  let badS := q.2.1 < 0 ∨ 62 < q.2.1
  let badZ := q.2.2 < lowest (isSigned dt) (widthOf dt) ∨ highest (isSigned dt) (widthOf dt) < q.2.2
  firstOf [
    c.noMatrix mj,
    if ok && tile.isNone && ident.isNone then rows else none,
    acc,
    pb,
    tile,
    check (!ok) (tidExc mj 1 t),
    ident,
    check (!fl && dt == .e2m1) (tidExc mj 2 t),
    check (req && (decide badS || decide badZ))
      (operandExc mj 7 (vp.setWidth 6) (BitVec.ofInt 64 (if badS then q.2.1 else q.2.2)))]

/-- The rows of a drain (R272). -/
def State.drainRows (s : State) (a : BitVec 3) (vp : BitVec 5) (rm : Option RMode) (sat : Bool) (d : BitVec 512) :
    List DrainRow :=
  let c := s.me
  let fl := c.accFloat a
  let dt := (tdType d).getD .i8
  let k := tdCols d
  let m := s.rmode rm
  let esat := (dt == .e5m2 && sat) || s.esat
  let rnd := fun i => (⟨m, if m = .rsr then s.drawAt i else 0, esat⟩ : Rnd)
  let q := c.params (viewBase (c.view vp.toNat))
  (List.range (tdRows d)).map fun r =>
    drainRow rnd fl dt q.1 q.2.1.toNat q.2.2 r k (c.words (c.accBase a + 512 * r) k)

/-- Draws of a drain (R97, R98, R272): none from `f32` into `f32`, which every value survives
exactly and which R97 therefore leaves out (notes/assumptions/72.md). -/
def State.drainDraws (s : State) (a : BitVec 3) (rm : Option RMode) (d : BitVec 512) : Nat :=
  let dt := (tdType d).getD .i8
  let fl := s.me.accFloat a
  if s.rmode rm = .rsr ∧ (fl || isFloat dt) ∧ ¬(fl ∧ dt = .f32) then tdRows d * tdCols d else 0

/-- Bytes that a drain reads: the accumulator and the parameter block (R261). -/
def Core.drainReads (c : Core) (a : BitVec 3) (vp : BitVec 5) (d : BitVec 512) : List (Nat × Nat) :=
  let req := !c.accFloat a && !isFloat ((tdType d).getD .i8)
  (c.accBase a, 0x2000) :: (if req then [(viewBase (c.view vp.toNat), 520)] else [])

/-- `mdrain` (R271 to R274). -/
def execMdrain (ad : BitVec 3) (t : BitVec 6) (vp : BitVec 5) (rm : Option RMode) (sat : Bool) (s : State) : Res? :=
  let c := s.me
  let d := c.resolveTile (c.tid t)
  let chk := c.drainCheck 0x34 .drain t ad vp (c.tid t) d none
  let dt := (tdType d).getD .i8
  let bits := tdCols d * widthOf dt
  let rows := if chk.isSome then [] else
    ((s.drainRows ad vp rm sat d).zip (List.range (tdRows d))).flatMap fun (r, i) =>
      ⟨i, 4 + i, tdBase d + i * tdPitch d, r.bytes, bits⟩ ::
      (if r.scales.isEmpty then [] else
        [(⟨i, 4 + i, tdBscale d + i * tdScales d, r.scales, 8 * r.scales.length⟩ : SliceRow)])
  sliceWord [.t t] chk
    ⟨.mdrain, rows, 20, none, [], none, s.granule, c.drainReads ad vp d,
     if chk.isSome then [] else tdSpans .drain d⟩ (s.drainDraws ad rm d) s

/-- The spaces of `mdrainr` (R182, R274). -/
def remoteSpace : Accepts := ⟨false, false, true, false⟩

/-- The remote address of `mdrainr`, before the rows are known (R274). -/
def State.drainLocate (s : State) (ga : BitVec 6) (ea : BitVec 64) : Except Exc Loc :=
  match s.locate 0x35 ga remoteSpace ea 0 4 with
  | .error e => .error e
  | .ok l =>
    match l with
    | .remote n _ => if 0x800 ≤ n then .error (addrExc 0x35 1 ga ea) else .ok l
    | l => .ok l

/-- `mdrainr` (R271 to R274, R383, R388). -/
def execMdrainr (ad : BitVec 3) (t ga : BitVec 6) (vp : BitVec 5) (rm : Option RMode) (sat : Bool) (s : State) : Res? :=
  let c := s.me
  let ea := c.gr ga
  let d := c.resolveTile (c.tid t)
  let h := if ga = 63 then 0 else c.gr (ga + 1)
  let argc := min (headerArgc h) 6
  let src : List Res := [.t t, .g ga, .g (ga + 1)] ++ resRun (ga + 2) argc
  match c.noMatrix 0x35, s.drainLocate ga ea with
  | some e, _ => sliceWord src (some e) ⟨.mdrainr, [], 0, none, [], none, 4, [], []⟩ 0 s
  | none, .error e => sliceWord src (some e) ⟨.mdrainr, [], 0, none, [], none, 4, [], []⟩ 0 s
  | none, .ok l =>
    let dt := (tdType d).getD .i8
    let n := storedBytes dt (tdCols d)
    let num := match l with | .remote k _ => k | _ => 0
    let out := check (decide (0x80000 < l.off + (tdRows d - 1) * tdPitch d + n)) (addrExc 0x35 4 ga ea)
    let tcb := h.getLsbD 15
    let line := h.extractLsb' 16 13
    let home := h.extractLsb' 32 12
    let chk := firstOf [
      c.drainCheck 0x35 .drainRemote t ad vp (c.tid t) d out,
      check (ga == 63) (operandExc 0x35 3 ga (ga.setWidth 64)),
      check (headerReserved h) (operandExc 0x35 1 (ga + 1) h),
      check (decide (6 < headerArgc h)) (operandExc 0x35 2 (ga + 1) (BitVec.ofNat 64 (headerArgc h))),
      check (tcb && !lineOk home.toNat line.toNat) (operandExc 0x35 2 (ga + 1) (line.setWidth 64)),
      check (decide (63 < ga.toNat + 1 + argc)) (operandExc 0x35 3 ga (ga.setWidth 64)),
      s.coreCheck 0x35 2 (ga + 1) home]
    let bits := tdCols d * widthOf dt
    let rows := if chk.isSome then [] else
      ((s.drainRows ad vp rm sat d).zip (List.range (tdRows d))).flatMap fun (r, i) =>
        ((chunks 256 r.bytes (ceilDiv n 256)).zip (List.range (ceilDiv n 256))).map fun (bs, j) =>
          (⟨i, 4 + i, l.off + i * tdPitch d + 256 * j, bs, bits - 2048 * j⟩ : SliceRow)
    sliceWord src chk
      ⟨.mdrainr, rows, 0, some num, [], some (h, c.grRun (ga + 2) argc), s.granule, c.drainReads ad vp d, []⟩
      (s.drainDraws ad rm d) s

end Sys2Proof.Machine
end

