-- ==== Sys2Proof/Machine/MatrixEvents.lean ====
section
/-! DEFINITION. The joint array at work: barriers, mismatches, the array queue, the purse and
the watchdog, completion of products and slice-path commands (11_matrix.md R260 to R275;
14_scheduling.md R326; 21_faults_instructions.md R378; 22_faults_machinery.md R393 to R395). -/

namespace Sys2Proof.Machine

open Sys2Proof

/-! ## Columns and gangs (R260, R263) -/

/-- Core j of a logical column. -/
def ColId.coreAt (l : ColId) (j : Nat) : CoreId := ⟨l.owner, l.circ, 8 * l.lcol + j⟩

/-- The logical column of a compute core. -/
def Core.column (c : Core) : ColId := ⟨c.id.owner, c.id.circ, c.id.num / 8⟩

/-- The cores that a mask names, in order. -/
def gangOf (m : BitVec 8) : List Nat := (List.range 8).filter fun j => m.getLsbD j

/-- The product with which core j of a column waits at its `mmul` or `mmsp`. -/
def State.waiting (s : State) (l : ColId) (j : Nat) : Option Product := (s.core? (ColId.coreAt l j)).bind (·.atBarrier)

/-- The first of the differences of R386 between two products: mask, word, types, sa or sb,
K, N. -/
def Product.differs (p q : Product) : Option (BitVec 8) :=
  if p.mask ≠ q.mask then some 1
  else if p.sparse ≠ q.sparse then some 2
  else if tdType p.ta ≠ tdType q.ta then some 3
  else if tdType p.tb ≠ tdType q.tb then some 4
  else if p.sa ≠ q.sa ∨ p.sb ≠ q.sb then some 5
  else if tdCols p.ta ≠ tdCols q.ta then some 6
  else if tdN p.ta ≠ tdN q.ta then some 7
  else none

/-- Whether every core of a mask waits with that mask and equal array parameters (R263). -/
def State.gangReady (s : State) (l : ColId) (m : BitVec 8) : Bool :=
  match gangOf m with
  | [] => false
  | a :: js =>
    match s.waiting l a with
    | none => false
    | some p => p.mask == m && js.all fun j => ((s.waiting l j).map fun q => (p.differs q).isNone) == some true

/-- The masks of complete gangs of a column, by their lowest cores (R263, R264). -/
def State.completeGangs (s : State) (l : ColId) : List (BitVec 8) :=
  (List.range 8).filterMap fun j =>
    match s.waiting l j with
    | some p => if (gangOf p.mask).head? = some j ∧ s.gangReady l p.mask then some p.mask else none
    | none => none

/-- The joint array of a column. -/
def State.array (s : State) (l : ColId) : ColArray :=
  ((s.region? l.owner l.circ).bind fun r => r.arrays[l.lcol]?).getD ⟨[], none⟩

/-- Change the joint array of a column. -/
def State.updArray (s : State) (l : ColId) (f : ColArray → ColArray) : State :=
  s.updRegion l.owner l.circ fun r => { r with arrays := modAt r.arrays l.lcol f }

/-- GANG_BARRIER (R263, R264): complete gangs join the column's queue in the order of their
lowest cores; a queued gang of which a core no longer waits leaves it. -/
def execGangBarrier (s : State) : Res? :=
  match s.ev with
  | .col l =>
    let ready := s.completeGangs l
    .next (s.updArray l fun a =>
      let q := a.queue.filter fun m => ready.contains m
      { a with queue := q ++ ready.filter fun m => !q.contains m })
  | _ => .next s

/-- An exception of a packet that waits at its product: entered in front of it, and the core
issues again in the same cc (R363, R393, R394). -/
def Core.raiseWaiting (c : Core) (p : Product) (cls sub : BitVec 8) (value : BitVec 48) : Core :=
  let c := { c with issue := { c.issue with word := p.word }, atBarrier := none }
  let c := c.raise ⟨cls, sub, p.ad.setWidth 6, value, if p.sparse then 0x31 else 0x30⟩
  { c with issue := Issue.idle, done := false }

/-- What a waiting core of a column takes for a mismatch: sub and value (R386, R393). -/
def State.mismatch (s : State) (l : ColId) (p : Product) : Option (BitVec 8 × BitVec 48) :=
  let js := gangOf p.mask
  if js.all fun j => (s.waiting l j).isSome then
    js.findSome? fun j =>
      match s.waiting l j with
      | none => none
      | some q => (p.differs q).map fun d => (d, (BitVec.ofNat 40 j ++ q.mask : BitVec 48))
  else none

/-- GANG_MISMATCH (R393): every waiting core of the column that qualifies takes class 0x22 in
the same cc; its mask stays armed. -/
def execGangMismatch (s : State) : Res? :=
  match s.ev with
  | .col l =>
    .next ((List.range 8).foldl (init := s) fun t j =>
      match s.waiting l j with
      | none => t
      | some p =>
        match s.mismatch l p with
        | none => t
        | some (sub, v) => t.updCore (ColId.coreAt l j) fun c => c.raiseWaiting p 0x22 sub v)
  | _ => .next s

/-! ## The products (R264 to R268, R378) -/

/-- Array cc of a command (R268). -/
def Product.arrayCc (p : Product) : Nat :=
  let wa := widthOf ((tdType p.ta).getD .i8)
  let wb := widthOf ((tdType p.tb).getD .i8)
  let n := if p.sparse then ceilDiv (tdCols p.ta) 12 * tdN p.ta else tdCols p.ta
  if wa = 4 ∧ wb = 4 then ceilDiv n 2 else if max wa wb = 16 then 2 * n else n

/-- Whether a product is floating. -/
def Product.float (p : Product) : Bool := ((tdType p.ta).map isFloat).getD false

/-- The A operand of a core's product. -/
def Core.operandA (c : Core) (p : Product) : Option Operand :=
  (c.operand 0x30 (if p.sparse then .sparseA else .a) p.sa true p.taNum p.ta).toOption

/-- The B operand of a core's product. -/
def Core.operandB (c : Core) (p : Product) : Option Operand :=
  (c.operand 0x30 .b p.sb true p.tbNum p.tb).toOption

/-- The row of B that a column of the product draws from: zeros for a core outside the gang
(R260). `bs` gives the B operand of each core of the gang. -/
def columnRow (bs : Nat → Option Operand) (k c : Nat) : List MVal :=
  match bs (c / 16) with
  | some b => b.row (c % 16)
  | none => List.replicate k MVal.zero

/-- The accumulator before the first group: zeros, or the view, faded (R266). -/
def Core.startAcc (c : Core) (p : Product) : List (BitVec 32) :=
  if !p.acc then List.replicate 2048 0
  else
    let l := c.words p.base 2048
    if p.fd && p.float then l.map (fadeElem p.gamma) else l

/-- The accumulator after the first n K-groups (R266). -/
def productAcc (p : Product) (start : List (BitVec 32)) (a : Operand) (bs : Nat → Option Operand) (g n : Nat) :
    List (BitVec 32) :=
  let cols := (List.range 128).map (columnRow bs a.k)
  (List.range 16).flatMap fun r =>
    ((start.drop (128 * r)).zip cols).map fun (x, b) => accumulate p.float p.sat x (a.row r) b g n

/-- A written element of the side vector (R267). -/
def sideElem (p : Product) (old : BitVec 32) (vals : List MVal) : BitVec 32 :=
  accUpdate p.float p.sat (if p.acc then old else 0) (exactSum vals)

/-- The side vector as it stands: row sums and column sums, those that a product has. -/
def Core.sideSums (c : Core) (p : Product) : List (BitVec 32) × List (BitVec 32) :=
  (if p.rsum then c.words p.side 16 else [], if p.csum then c.words (p.side + 64) 128 else [])

/-- The side vector after the first k positions of K, from what it held before the first: offsets
and the words there (R267). -/
def sideVector (p : Product) (old : List (BitVec 32) × List (BitVec 32)) (a : Operand) (bs : Nat → Option Operand) (k : Nat) :
    List (Nat × List (BitVec 32)) :=
  (if p.rsum then [(p.side, (old.1.zip (List.range 16)).map fun (x, r) => sideElem p x ((a.row r).take k))] else []) ++
  (if p.csum then
    [(p.side + 64, (old.2.zip (List.range 128)).map fun (x, i) => sideElem p x ((columnRow bs a.k i).take k))]
   else [])

/-- The B operands of a gang's cores. -/
def State.gangB (s : State) (l : ColId) (m : BitVec 8) (prm : Nat → Option Product) (j : Nat) : Option Operand :=
  if m.getLsbD j then
    match s.core? (ColId.coreAt l j), prm j with
    | some c, some p => c.operandB p
    | _, _ => none
  else none

/-- A core's part of a product that starts (R266, R267, R378). -/
def Core.startProduct (c : Core) (p : Product) (bs : Nat → Option Operand) : Option CoreProduct :=
  match c.operandA p, c.operandB p with
  | some a, some b =>
    let start := c.startAcc p
    let g := groupSize a.t b.t
    let bad := match a.bad, b.bad with
      | some (r, u), _ => some (p.taNum, BitVec.ofNat 48 r, BitVec.ofNat 8 u)
      | none, some (r, u) => some (p.tbNum, BitVec.ofNat 48 r, BitVec.ofNat 8 u)
      | none, none => none
    let sums := c.sideSums p
    let side := sideVector p sums a bs a.k
    some ⟨p, start, sums, productAcc p start a bs g (ceilDiv a.k g), side, bad,
      a.spans ++ b.spans ++ (if p.acc then [(p.base, 0x2000)] else []),
      (p.base, 0x2000) :: side.map fun (o, ws) => (o, 4 * ws.length)⟩
  | _, _ => none

/-! ## Starting and completing (R264, R268) -/

/-- The physical column of a logical one. -/
def State.physOf (s : State) (l : ColId) : Nat := ((s.region? l.owner l.circ).map fun r => s.physCol r l.lcol).getD 0

/-- The purse of a physical column. -/
def State.purse (s : State) (k : Nat) : Purse := s.purses.getD k ⟨0, 0, false⟩

/-- The gang at the head of a column's queue that may start: the array is free and the purse
holds its cost (R264). -/
def State.startable (s : State) (l : ColId) : Option (BitVec 8 × Nat) :=
  let a := s.array l
  match a.run, a.queue with
  | none, m :: _ =>
    match (gangOf m).head?.bind (s.waiting l) with
    | some p =>
      let cost := 2 * (gangOf m).length * p.arrayCc
      if s.gangReady l m ∧ cost ≤ (s.purse (s.physOf l)).pennies then some (m, p.arrayCc) else none
    | none => none
  | _, _ => none

/-- ARRAY_START (R264): the whole cost is taken, and the words of the gang issue. -/
def execArrayStart (s : State) : Res? :=
  match s.ev with
  | .col l =>
    match s.startable l with
    | none => .next s
    | some (m, cc) =>
      let bs := s.gangB l m (s.waiting l)
      let t := (gangOf m).foldl (init := s) fun t j =>
        t.updCore (ColId.coreAt l j) fun c =>
          match c.atBarrier with
          | some p => { c with product := c.startProduct p bs, granted := true, atBarrier := none, done := false }
          | none => c
      let t := { t with purses := modAt t.purses (s.physOf l) fun p =>
        { p with pennies := p.pennies - 2 * (gangOf m).length * cc } }
      .next (t.updArray l fun a => { queue := a.queue.drop 1, run := some ⟨m, cc + 16⟩ })
  | _ => .next s

/-- Words written to a core's view area. -/
def Core.putWords (c : Core) (o : Nat) (ws : List (BitVec 32)) : Core := c.writeView o (wordBytes ws)

/-- A core's product is written, and a failed data check becomes a deferred cause (R378). -/
def Core.endProduct (c : Core) : Core :=
  match c.product with
  | none => c
  | some p =>
    let c := c.putWords p.prm.base p.acc
    let c := p.side.foldl (fun c (o, ws) => c.putWords o ws) c
    let c := { c with product := none }
    match p.bad with
    | some (t, row, sub) => c.defer (.matrix t row sub)
    | none => c

/-- ARRAY_COMPLETE (R268): accumulators and side vectors are written, and the array is
free. -/
def execArrayComplete (s : State) : Res? :=
  match s.ev with
  | .col l =>
    match (s.array l).run with
    | some ⟨m, 0⟩ =>
      .next (((gangOf m).foldl (init := s) fun t j => t.updCore (ColId.coreAt l j) Core.endProduct).updArray l
        fun a => { a with run := none })
    | _ => .next s
  | _ => .next s

/-! ## The slice path (R270 to R274) -/

/-- A row of a slice-path command that is due is written in the core's own register space. -/
def Core.putRow (c : Core) (r : SliceRow) : Core :=
  c.writeView r.off (maskBits (c.vmem.bytes r.off r.bytes.length) r.bytes r.bits)
where
  /-- Bytes of which only the first `bits` bits are written. -/
  maskBits (old new : List Byte) (bits : Nat) : List Byte :=
    (new.zip (List.range new.length)).map fun (b, i) =>
      let n := bits - 8 * i
      if 8 ≤ n then b
      else
        let m : Byte := BitVec.ofNat 8 (2 ^ n - 1)
        (b &&& m) ||| (old.getD i 0 &&& ~~~m)

/-- A row goes out: written here, or sent to the core it is for (R274). -/
def State.emitRow (s : State) (id : CoreId) (dst : Option Nat) (r : SliceRow) : State :=
  match dst with
  | none => s.updCore id fun c => c.putRow r
  | some n =>
    match s.core? id with
    | none => s
    | some c =>
      (s.updCore id fun d =>
        { d with seq := d.seq + 1, slice := d.slice.map fun k => { k with acks := k.acks ++ [c.seq] } }).send
        id (.core n) (.beat r.off r.bytes r.bits) c.seq

/-- Rows of a core's slice-path command are written or sent. -/
def State.emitRows (s : State) (id : CoreId) (dst : Option Nat) (rs : List SliceRow) : State :=
  rs.foldl (fun s r => s.emitRow id dst r) s

/-- One cc of a core's slice path: rows that are due go out, and the count to its completion
falls (R270, R274). -/
def State.tickSlice (s : State) (id : CoreId) : State :=
  match (s.core? id).bind (·.slice) with
  | none => s
  | some k =>
    let due := k.rows.filter (·.due ≤ 1)
    let rest := (k.rows.filter fun r => 1 < r.due).map fun r => { r with due := r.due - 1 }
    (s.updCore id fun c => { c with slice := some { k with rows := rest, ends := k.ends - 1 } }).emitRows id k.dst due

/-- SLICE_COMPLETE (R270, R274): `mzero`, `mfade` and `mdrain` complete and release their
bytes. -/
def execSliceComplete (s : State) : Res? :=
  match s.ev with
  | .core id =>
    .next (s.updCore id fun c =>
      match c.slice with
      | some k => if k.dst.isNone ∧ k.rows.isEmpty ∧ k.ends = 0 then { c with slice := none } else c
      | none => c)
  | _ => .next s

/-- Whether the wake message of a core's `mdrainr` may enter the store buffer (R274). -/
def Core.wakes (c : Core) : Bool :=
  match c.slice with
  | some k => k.dst.isSome && k.rows.isEmpty && k.acks.isEmpty && !c.sbFull
  | none => false

/-- Whether the cores of a region go on: outside a pause, and no switch stops it (R31, R48). -/
def State.unstopped (s : State) (id : CoreId) : Bool :=
  s.phase == .run && ((s.region? id.owner id.circ).map fun r => r.resident && !r.preempt && !r.blocked).getD false

/-- MDRAINR_WAKE (R274, R275): the message enters the store buffer at its tail as a release, and the
command completes; at a stop it waits. -/
def execMdrainrWake (s : State) : Res? :=
  match s.ev with
  | .core id =>
    .next (s.updCore id fun c =>
      if s.unstopped id && c.wakes then
        match c.slice.bind (·.wake) with
        | some (h, args) =>
          { c.buffer (.send (.core (h.extractLsb' 32 12).toNat) (.message h args)) true with slice := none }
        | none => { c with slice := none }
      else c)
  | _ => .next s

/-! ## Purses and the watchdog (R14, R326, R394, R395) -/

/-- One cc's refill. -/
def Purse.refill (p : Purse) : Purse := if p.hot then p else { p with pennies := min (2 ^ 20) (p.pennies + p.rate) }

/-- PURSE_REFILL (R326): a column's purse gains its refill rate. -/
def execPurseRefill (s : State) : Res? :=
  match s.ev with
  | .num k => .next { s with purses := modAt s.purses k Purse.refill }
  | _ => .next s

/-- The owner whose resident region stands on a physical column. -/
def State.ownerAt (s : State) (k : Nat) : Nat :=
  ((s.regions.find? fun r => r.resident && (List.range (4 * r.pos)).any fun i => s.physCol r i == k).map (·.id.owner)).getD 0

/-- PURSE_THROTTLE (R395): the rate of a hot column is 0, with a record, until it has cooled. -/
def execPurseThrottle (s : State) : Res? :=
  match s.ev with
  | .hot k b =>
    let t := { s with purses := modAt s.purses k fun p => { p with hot := b } }
    .next (if b then t.record k (errorRecord 0x0D 15 (s.ownerAt k) 0xFFF k 15 3 0) else t)
  | _ => .next s

/-- REFILL_RATE_SET (R14): a rate of 0 to 16. -/
def execRefillRateSet (s : State) : Res? :=
  match s.ev with
  | .rate k r => .next (if r ≤ 16 then { s with purses := modAt s.purses k fun p => { p with rate := r } } else s)
  | _ => .next s

/-- WATCHDOG (R394): a packet that has waited longer than its owner's limit takes class 0x23:
sub 1 at a barrier, sub 2 in every core of a gang that waits for pennies, which leaves the
queue. -/
def execWatchdog (s : State) : Res? :=
  match s.ev with
  | .core id =>
    match s.core? id with
    | none => .next s
    | some c =>
      match c.atBarrier with
      | some p =>
        if (s.fn id.owner).wdLimit < c.waited then
          let l := c.column
          if (s.array l).queue.contains p.mask then
            let t := (gangOf p.mask).foldl (init := s) fun t j =>
              t.updCore (ColId.coreAt l j) fun d =>
                match d.atBarrier with
                | some q => d.raiseWaiting q 0x23 2 (BitVec.ofNat 48 d.waited)
                | none => d
            .next (t.updArray l fun a => { a with queue := a.queue.filter (· ≠ p.mask) })
          else .next (s.updCore id fun d => d.raiseWaiting p 0x23 1 (BitVec.ofNat 48 c.waited))
        else .next s
      | none => .next s
  | _ => .next s

end Sys2Proof.Machine
end

