-- ==== Sys2Proof/Machine/Turn.lean ====
section
/-! DEFINITION. Turns, switches of contexts and regions (01_organisation.md R13, R17 to R19;
02_execution_model.md R27 to R39, R48 to R51; 08_storage_sync.md R190, R212; 11_matrix.md
R275; 19_prog_turn.md R354, R355; 20_prog_linear_attention.md R359, R360;
22_faults_machinery.md R400 to R405). -/

namespace Sys2Proof.Machine

open Sys2Proof

/-! ## Stopping and starting a core (R31, R32, R35, R48, R51) -/

/-- A core stops in front of its packet: its pending writes are captured (R51), a reservation
for a composition that is not bound is given up (R227), and its latch is set, unless a
`wfe` has just completed there (R181). -/
def Core.halt (c : Core) : Core :=
  let c := { c.capture (if c.rearmed then 0 else c.bubble) with bubble := 0, latch := !c.onLatch, atBarrier := none, onLatch := false, onTask := false, waited := c.waited }
  let c := match c.compo with
    | .reserved _ => { c with compo := .plain }
    | _ => c
  match c.binding with
  | some ⟨_, false⟩ => { c with binding := none }
  | _ => c

/-- A core stops; run-ahead ends with its batch submitted (R408). -/
def State.haltCore (s : State) (id : CoreId) : State := s.onCore id fun s => s.endAhead.onMe Core.halt

/-- Names of the cores of a region. -/
def State.coresOf (s : State) (r : RegionId) : List CoreId :=
  (s.cores.map (·.id)).filter fun c => c.owner = r.owner ∧ c.circ = r.circ

/-- The cores of a region stop. -/
def State.haltRegion (s : State) (r : RegionId) : State := (s.coresOf r).foldl State.haltCore s

/-- A core starts again: a task's captured writes replay, and its V pipe is held for the captured
count, from the cc in which its first packet issues (R35, R51); a handler and a composed core
hold none (R54, R178). -/
def Core.rearm (c : Core) : Core :=
  if c.interlocked then c
  else match imageWrites c.id.num c.qimg (List.range 48) with
    | some ps => { c.replay ps (c.qimg.nat 0x3FF8 8 % 32) with qimg := clearValid c.qimg }
    | none => c

/-- Whether a command stands within a granule whose delivery beats a memory core still owes: a
pause does not stop them (R212, R355). -/
def Bulk.owes (b : Bulk) : Bool := (b.kind == .hship || b.kind == .bgemv) && b.count % 2 ^ b.gran.toNat != 0

/-- The remainder of a bulk command becomes a record; a record that waits for no reply is
reissued (R212, R414). -/
def Core.recordBulks (c : Core) (b : Bool) : Core :=
  { c with bulks := c.bulks.map fun k =>
      if k.waiting.isSome then k else { k with record := b && k.started && !k.owes } }

/-- Spilled arrivals apply, before anything else at resume (R35); a `tend` that waits loads its
references anew (R224). -/
def Core.restart (c : Core) : Core := { c.drainSpill with refs := [] }

/-- The last steps of a core's resume: records, and the queue (R35). -/
def Core.reissue (c : Core) : Core := (c.recordBulks false).rearm

/-! ## Granule points (R153, R212, R275) -/

/-- Whether a core's bulk commands stand at granule points, but those whose beats go on. -/
def Core.bulksStopped (c : Core) : Bool :=
  c.bulks.all fun b => !b.started || b.record || b.beats.isEmpty || b.count % 2 ^ b.gran.toNat == 0 || b.owes

/-- Whether a core's slice path stands at a granule point: no command, or a drain whose next
row begins a granule. -/
def Core.sliceStopped (c : Core) : Bool :=
  match c.slice with
  | none => true
  | some k =>
    match k.kind, k.rows with
    | .mzero, _ | .mfade, _ => false
    | .mdrain, [] => k.ends == 0
    | .mdrainr, [] => true
    | _, r :: _ => r.row == 0 || (decide (k.gran < 4) && r.row % 2 ^ k.gran == 0)

/-- Array cc of one K-group (R268). -/
def Product.groupCc (p : Product) : Nat :=
  let wa := widthOf ((tdType p.ta).getD .i8)
  let wb := widthOf ((tdType p.tb).getD .i8)
  let g := groupSize ((tdType p.ta).getD .i8) ((tdType p.tb).getD .i8)
  if wa = 4 ∧ wb = 4 then ceilDiv g 2 else if max wa wb = 16 then 2 * g else g

/-- The products of the gang in a column's array. -/
def State.inArray (s : State) (l : ColId) : List CoreProduct :=
  match (s.array l).run with
  | none => []
  | some r => (gangOf r.mask).filterMap fun j => (s.core? (ColId.coreAt l j)).bind (·.product)

/-- K-groups that a column's array has added, and whether it stands between two groups at a
granule point: the largest granule of the gang's cores counts (R275). A group of a sparse
product takes N of 12 of a dense group's cc, rounded down (notes/assumptions/35.md). -/
def State.arrayPoint (s : State) (l : ColId) : Nat × Bool :=
  match (s.array l).run, s.inArray l with
  | some r, p :: ps =>
    let groups := ceilDiv (tdCols p.prm.ta) (groupSize ((tdType p.prm.ta).getD .i8) ((tdType p.prm.tb).getD .i8))
    let done := p.prm.arrayCc + 16 - r.ends
    let per := if p.prm.sparse then max 1 (p.prm.groupCc * tdN p.prm.ta / 12) else max 1 p.prm.groupCc
    let exp := (p :: ps).foldl (fun m q => max m (min q.prm.gran 5)) 0
    let n := min groups (done / per)
    (n, decide (n < groups) && done % per == 0 && n % 2 ^ exp == 0)
  | _, _ => (0, true)

/-- Whether a column's array stands at a granule point or is free. -/
def State.arrayStopped (s : State) (l : ColId) : Bool := (s.array l).run.isNone || (s.arrayPoint l).2

/-- The columns of a region. -/
def Region.colIds (r : Region) : List ColId := (List.range r.arrays.length).map fun l => ⟨r.id.owner, r.id.circ, l⟩

/-- Whether every engine of a region stands at a granule point. -/
def State.enginesStopped (s : State) (r : Region) : Bool :=
  (s.coresOf r.id).all (fun id => ((s.core? id).map fun c => c.bulksStopped && c.sliceStopped).getD true) &&
  r.colIds.all s.arrayStopped

/-- A column's array at a stop: each core of the gang writes what every group so far has
given (R275). -/
def State.stopArray (s : State) (l : ColId) : State :=
  match (s.array l).run with
  | none => s
  | some r =>
    let n := (s.arrayPoint l).1
    let prm := fun j => ((s.core? (ColId.coreAt l j)).bind (·.product)).map (·.prm)
    let bs := s.gangB l r.mask prm
    (gangOf r.mask).foldl (init := s) fun t j =>
      t.updCore (ColId.coreAt l j) fun c =>
        match c.product with
        | none => c
        | some p =>
          match c.operandA p.prm, c.operandB p.prm with
          | some a, some b =>
            let g := groupSize a.t b.t
            (sideVector p.prm p.sums a bs (n * g)).foldl (fun c (o, ws) => c.putWords o ws)
              (c.putWords p.prm.base (productAcc p.prm p.start a bs g n))
          | _, _ => c

/-- The engines of a region stop: partial results are written, remainders become records. -/
def State.stopEngines (s : State) (r : Region) : State :=
  let s := r.colIds.foldl State.stopArray s
  (s.coresOf r.id).foldl (fun s id => s.updCore id fun c => c.recordBulks true) s

/-! ## Draining (R33, R190) -/

/-- Whether a full/empty operation of a core that stands before a place of its program order is
parked at another core (R199). -/
def State.feOwed (s : State) (c : Core) (seq : Nat) : Bool :=
  s.cores.any fun d => d.parkedFe.any fun m => m.1.src == c.id && decide (m.1.seq < seq)

/-- Whether a write of a core to another module is on its way: a pause waits for it, but not for a
module that no path reaches (R307, R449; notes/assumptions/41.md). -/
def State.farOpen (s : State) (c : Core) : Bool :=
  c.unacked.any fun u => match u.dst with
    | .home h => s.reaches c.id.owner h
    | _ => false

/-- Whether nothing more leaves a core's store buffer in a drain: it is empty, or its head is held
by a full/empty operation that stays parked, its own or an earlier one (R198, R199), or by a write to
a module that no path reaches (R449). -/
def State.bufferDry (s : State) (c : Core) : Bool :=
  match c.sb with
  | [] => true
  | e :: _ =>
    (match e.kind with
     | .stfe o _ =>
       let (id, x) := if c.composed then c.scrAt o else (c.id, o)
       ((s.core? id).map fun d => d.fe.contains (x / 128)).getD false
     | _ => false) ||
    (!c.mayExit e && (s.feOwed c e.seq || (!s.farOpen c && c.unacked.any fun u => match u.dst with | .home _ => true | _ => false)))

/-- A result of a memory core, which a turn does not wait for: a reply, the deposit of `hld.x`, a
delivery beat (R36, R307, R355). -/
def Msg.result (m : Msg) : Bool :=
  decide (0x800 ≤ m.src.num) && decide (m.src.num < 0x1000) && match m.op with
    | .reply _ _ | .depositX _ _ | .deliver _ _ _ _ => true
    | _ => false

/-- Whether a message is a region's. -/
def Msg.ofRegion (m : Msg) (r : RegionId) : Bool := m.src.owner == r.owner && m.src.circ == r.circ

/-! ## Stripes (R34, R359, R360) -/

/-- The bank extent of a region in bytes: `bankext` of its `lc` 0 (R37). -/
def State.extent (s : State) (r : Region) : Nat :=
  (((s.core? ⟨r.id.owner, r.id.circ, 0⟩).map fun c => c.csr.bankext.toNat).getD 32) * 2 ^ 20

/-- The stripes of a context that a write has reached, of its bank those in the extent (R359). -/
def State.touched (s : State) (r : Region) : List Stripe :=
  ((s.cores.filter fun c => c.id.owner == r.id.owner && c.id.circ == r.id.circ && !c.isMem).flatMap fun c =>
    c.touched.map fun k =>
      if k = 8 then ⟨r.id, c.id.num / 8, .reg, 2 * (c.id.num % 8), false⟩
      else ⟨r.id, c.id.num / 8, .scratch, 8 * (c.id.num % 8) + k, false⟩) ++
  (r.bankTouched.filter fun x => decide (0x10000 * x.2 < s.extent r)).map fun (l, k) => ⟨r.id, l, .bank, k, false⟩

/-- Two names of one stripe. -/
def Stripe.same (a b : Stripe) : Bool := a.r == b.r && a.lcol == b.lcol && a.st == b.st && a.k == b.k

/-- Stripes that the stripe map gets. -/
def State.addStripes (s : State) (l : List Stripe) : State :=
  { s with stripes := s.stripes ++ l.filter fun x => !s.stripes.any x.same }

/-- The stripe that is claimed next in a column's store: of the non-resident context least
recently resident, the lowest (R360). -/
def State.victim (s : State) (col : Nat) (st : StoreKind) : Option Stripe :=
  let here := s.stripes.filter fun x =>
    x.st == st && !x.saved && (match s.region? x.r.owner x.r.circ with
      | some r => !r.resident && s.physCol r x.lcol == col
      | none => false)
  here.foldl (init := none) fun best x =>
    let age := fun (y : Stripe) => ((s.region? y.r.owner y.r.circ).map (·.lastRes)).getD 0
    match best with
    | none => some x
    | some b => if age x < age b ∨ (age x = age b ∧ x.k < b.k) then some x else best

/-- Stripes that stand in a column's store. -/
def State.standing (s : State) (col : Nat) (st : StoreKind) : Nat :=
  (s.stripes.filter fun x => x.st == st && !x.saved && (match s.region? x.r.owner x.r.circ with
    | some r => s.physCol r x.lcol == col
    | none => false)).length

/-- A stripe that stands in the save area, or not. -/
def Stripe.put (x : Stripe) (b : Bool) : Stripe := ⟨x.r, x.lcol, x.st, x.k, b⟩

/-- Claims in a column's store until its stripes fit (R360). -/
def State.claim (col : Nat) (st : StoreKind) : Nat → State → State
  | 0, s => s
  | n + 1, s =>
    if s.standing col st ≤ storeStripes st then s
    else match s.victim col st with
      | none => s
      | some v => State.claim col st n { s with stripes := s.stripes.map fun (x : Stripe) => if x.same v then x.put true else x }

/-- A context that becomes resident has its stripes back, and others' are claimed for it
(R49, R359, R360). -/
def State.fetchStripes (s : State) (r : Region) : State :=
  let s := { s with stripes := s.stripes.map fun (x : Stripe) => if x.r == r.id then x.put false else x }
  let s := s.addStripes (r.stateStripes ++ s.touched r)
  (List.range (4 * r.pos)).foldl (init := s) fun s l =>
    [StoreKind.reg, .scratch, .bank].foldl (fun s st => State.claim (s.physCol r l) st 512 s) s

/-- The stripes that writes of this cc have reached are the contexts' from now on, and others'
are claimed where a store is full (R359, R360). -/
def State.growStripes (s : State) : State :=
  (s.regions.filter (·.resident)).foldl (init := s) fun s r =>
    let new := (s.touched r).filter fun x => !s.stripes.any x.same
    new.foldl (fun s x => State.claim (s.physCol r x.lcol) x.st 512 s) (s.addStripes new)

/-! ## The turn (R30 to R39) -/

/-- Bank bytes at and above the extent become undefined, and are no longer held (R37, R49, R359). -/
def State.forget (s : State) (r : Region) : State :=
  let e := s.extent r
  if 2 ^ 25 ≤ e then s
  else
    { s.updRegion r.id.owner r.id.circ fun q =>
        { q with
          veil := q.veil ++ [(e, s.draws)], banks := q.banks.map fun m => m.filter fun x => x.1 < e
          bankTouched := q.bankTouched.filter fun x => decide (0x10000 * x.2 < e) } with
      stripes := s.stripes.filter fun x => !(x.r == r.id && x.st == .bank && decide (e ≤ 0x10000 * x.k))
      draws := s.draws + 1 }

/-- TURN_ANNOUNCE (R31, R32, R50): a turn that is due, with no switch in progress: every core
stops at its boundary and no traffic is injected. The cores of a region that a failed slot has
stopped stand already (R403). -/
def execTurnAnnounce (s : State) : Res? :=
  if s.turnDue && s.phase == .run && s.switching.isEmpty && s.regions.all fun r => !r.preempt then
    let s := (s.regions.filter fun r => r.resident && !r.blocked && !(s.fn r.id.owner).rollback).foldl
      (fun s r => s.haltRegion r.id) s
    .next { s with phase := .announce, pauseAt := s.cyc.toNat, turnDue := false }
  else .next s

/-- TURN_DRAIN (R33, R212, R275): every engine stands at a granule point; store buffers may
empty. -/
def execTurnDrain (s : State) : Res? :=
  if s.phase == .announce && s.regions.all (fun r => !r.resident || s.enginesStopped r) then
    let s := (s.regions.filter (·.resident)).foldl State.stopEngines s
    .next { s with phase := .drain }
  else .next s

/-- Whether the drain is over: no ordinary message moves, no buffer has more to send, and no write to
another module is on its way (R33, R307). -/
def State.drained (s : State) : Bool :=
  s.net.all Msg.result && s.cores.all fun c => s.bufferDry c && !s.farOpen c

/-- The circuit of a position. -/
def State.circuitOf (s : State) (p : Nat) : Nat :=
  let a := circuitSpan s.config 1
  if circuitIs s.config 1 && decide (a.1 ≤ p) then 1 else 0

/-- Whether a region occupies a position (R19). -/
def State.occupied (s : State) (p : Nat) : Bool :=
  s.regions.any fun r => s.circuitOf p == r.id.circ && (s.positions r).contains p

/-- The position before another on its circuit. -/
def State.before (s : State) (p : Nat) : Nat :=
  let l := s.ring (s.circuitOf p)
  l.getD ((l.idxOf p + l.length - 1) % l.length) p

/-- The number of a stripe in a turn's record: register store, scratch store, bank in turn
(notes/assumptions/36.md). -/
def Stripe.number (x : Stripe) : Nat :=
  match x.st with
  | .reg => x.k
  | .scratch => 17 + x.k
  | .bank => 82 + x.k

/-- The column that a stripe goes to in this move, when the move sends it: it stands in its store,
and lies in the extent if it is a bank's (R34, R37, R359). -/
def State.sentTo (s : State) (x : Stripe) : Option Nat :=
  match s.region? x.r.owner x.r.circ with
  | some r =>
    if x.saved || (x.st == .bank && decide (s.extent r ≤ 0x10000 * x.k)) then none
    else some (4 * s.forward r.id.circ (s.forward r.id.circ r.head (x.lcol / 4)) 1 + x.lcol % 4)
  | none => none

/-- The stripes that go to a column in this move. -/
def State.incoming (s : State) (col : Nat) : List Stripe := s.stripes.filter fun x => s.sentTo x == some col

/-- The record of a stripe that a turn carries to a column, with the owner that holds it (R399). -/
def State.stripeRecord (s : State) (kind col : Nat) (x : Stripe) : State :=
  s.record col (errorRecord kind 15 x.r.owner 0xFFF col 15 3 x.number)

/-- A column's stream takes longer; the move ends when every column has finished (R400). -/
def State.prolong (s : State) (col n : Nat) : State :=
  let most := fun (l : List (Nat × Nat)) => l.foldl (fun m x => max m x.2) 0
  let l := (col, (s.moveExtra.lookup col).getD 0 + n) :: s.moveExtra.filter (·.1 ≠ col)
  { s with moveExtra := l, moveFor := s.moveFor + (most l - most s.moveExtra) }

/-- The failing positions that a region's state enters in this move (R402). -/
def State.entered (s : State) : List Nat := s.failing.filter fun p => s.occupied (s.before p)

/-- Every stripe into a failing position goes over the mesh, at 64 bytes per cc where the lane
takes 256, with a record each (R401, R402). -/
def State.meshColumn (s : State) (n col : Nat) : State :=
  ((s.incoming col).foldl (fun s x => s.stripeRecord 0x07 col x) s).prolong col (n / 64 - n / 256)

/-- TURN_MOVE (R34, R37): the stores stream for (1 MiB + 4 MiB + E) / 256 bytes cc, E the
largest extent of a region, which is that of the context that is resident: other contexts' banks are
saved (R49). The stripes into a failing position go over the mesh (R402). -/
def execTurnMove (s : State) : Res? :=
  if s.phase == .drain && s.drained then
    let live := s.regions.filter (·.resident)
    let n := 5 * 2 ^ 20 + live.foldl (fun m r => max m (s.extent r)) 0
    let s : State := { s.growStripes with moveFor := n / 256, moveExtra := [], moveTries := [] }
    let s := (s.entered.flatMap fun p => (List.range 4).map (4 * p + ·)).foldl (fun s k => s.meshColumn n k) s
    .next { live.foldl State.forget s with phase := .move }
  else .next s

/-- Failed sends of a stripe: over the lane, and over the mesh. -/
def State.triesOf (s : State) (x : Stripe) : Nat × Nat :=
  ((s.moveTries.find? fun y => y.1.same x).map (·.2)).getD (0, 0)

/-- Set them. -/
def State.setTries (s : State) (x : Stripe) (n : Nat × Nat) : State :=
  { s with moveTries := (x, n) :: s.moveTries.filter fun y => !y.1.same x }

/-- Whether a position was failing before this move, so that its stripes go over the mesh (R402). -/
def State.meshOnly (s : State) (p : Nat) : Bool :=
  s.failing.contains p && !s.moveTries.any fun y => (s.sentTo y.1).map (· / 4) == some p && y.2.1 == 3

/-- The stripe that an event names, and the column it goes to in this move. -/
def State.sent? (s : State) (x : Stripe) : Option (Stripe × Nat) :=
  (s.stripes.find? x.same).bind fun y => (s.sentTo y).map fun col => (y, col)

/-- TURN_LANE_RETRY (R400): a stripe to a column fails its CRC and is sent again, up to 3 times;
each holds the column's stream for 256 cc. -/
def execTurnLaneRetry (s : State) : Res? :=
  match s.ev with
  | .stripe x _ =>
    match s.sent? x with
    | none => .next s
    | some (x, col) =>
      let (lane, mesh) := s.triesOf x
      if s.phase == .move && decide (lane < 3) && !s.meshOnly (col / 4) then
        .next (((s.stripeRecord 0x06 col x).setTries x (lane + 1, mesh)).prolong col 256)
      else .next s
  | _ => .next s

/-- TURN_LANE_FALLBACK (R401, R402): after three retries over the lane the stripe goes over the
mesh in 1,024 cc, with up to 3 retries, and the receiving position is marked failing; into a
position that already was one every stripe goes so. One that fails there too is discarded and
its owner struck. -/
def execTurnLaneFallback (s : State) : Res? :=
  match s.ev with
  | .stripe x ok =>
    match s.sent? x with
    | none => .next s
    | some (x, col) =>
      let (lane, mesh) := s.triesOf x
      let p := col / 4
      let late := s.meshOnly p
      if s.phase == .move && decide (mesh < 4) && (lane == 3 || late) then
        let t := if mesh = 0 ∧ lane = 3 then s.stripeRecord 0x07 col x else s
        let t : State := { t with failing := if s.failing.contains p then s.failing else s.failing ++ [p] }
        let t := (if late && mesh == 0 then t else t.prolong col 1024).setTries x (lane, mesh + 1)
        .next (if ok || decide (mesh < 3) then t
          else { t with stripes := t.stripes.filter fun y => !x.same y }.strike x.r.owner 0x03)
      else .next s
  | _ => .next s

/-- Failing positions that an empty place enters at this turn are fenced: the places are those at
which the turn found them (R402). -/
def State.fence (s : State) : State :=
  (s.failing.filter fun p => !s.fenced.contains p && !s.occupied (s.before p)).foldl (init := s) fun s p =>
    { s.record (4 * p) (errorRecord 0x08 15 0 0xFFF (4 * p) 15 3 0) with
      fenced := s.fenced ++ [p], failing := s.failing.filter (· ≠ p) }

/-- A position is marked failing (R401, R404). -/
def State.markFailing (s : State) (p : Nat) : State :=
  { s with failing := if s.failing.contains p || s.fenced.contains p then s.failing else s.failing ++ [p] }

/-- A failed slot is replaced by slot 8, when it is free and sound (R13, R403); a column that keeps
one makes its position failing (R404). -/
def State.mend (s : State) : State :=
  (List.range s.cols.length).foldl (init := s) fun s k =>
    match s.cols[k]? with
    | none => s
    | some c =>
      match c.broken with
      | none => s
      | some j =>
        let t := if c.lost then s.markFailing (k / 4) else s
        if c.slots.contains 8 ∨ c.failed.contains 8 then t
        else
          { t with cols := modAt t.cols k fun c => { c with slots := setAt c.slots j 8 } }.record k
            (errorRecord 0x0A 15 (s.ownerAt k) 0xFFF k 8 3 0)

/-- Regions on columns with a failed slot that nothing replaces are not resident (R403, R404);
residue records count within one turn period (R398). -/
def State.block (s : State) : State :=
  { s with
    regions := s.regions.map fun (r : Region) => ({ r with blocked := s.onBroken r } : Region)
    cols := s.cols.map fun (c : PhysCol) => ({ c with residues := [] } : PhysCol) }

/-- TURN_REMAP (R19, R31, R402 to R404): every region moves one position forward, positions
are fenced, slots replaced, and the stamp changes. -/
def execTurnRemap (s : State) : Res? :=
  if s.phase == .move && s.moveFor == 0 then
    let heads := s.regions.map fun (r : Region) => ({ r with head := s.forward r.id.circ r.head 1 } : Region)
    .next { (({ s.fence with regions := heads } : State).mend).block with
      phase := .remap, stamp := s.stamp + 1, moveExtra := [], moveTries := [] }
  else .next s

/-- The turn handler's entry (R39). -/
def turnEntry (turnh : BitVec 11) (args : List (BitVec 64)) : BitVec 512 :=
  headerEntry ((1 : BitVec 1) ++ turnh.extractLsb' 0 10 |>.setWidth 64) args

/-- The turn handler's task is pushed for a region whose `lc` 0 asks for it (R39): an injection and
an ejection (R46). -/
def State.pushTurn (s : State) (r : RegionId) (turns pause count : Nat) : State :=
  let id : CoreId := ⟨r.owner, r.circ, 0⟩
  match s.core? id with
  | none => s
  | some c =>
    if c.csr.turnh.getLsbD 10 then
      s.pushRoot id (turnEntry c.csr.turnh
        [BitVec.ofNat 64 turns, BitVec.ofNat 64 pause, s.stamp.setWidth 64, BitVec.ofNat 64 count, 0, 0])
    else s

/-- A step for every core of a region. -/
def State.eachCore (s : State) (r : RegionId) (f : Core → Core) : State :=
  (s.coresOf r).foldl (fun s id => s.updCore id f) s

/-- The cores of a region start (R35). -/
def State.restartRegion (s : State) (r : RegionId) : State := (s.eachCore r Core.restart).eachCore r Core.reissue

/-! ## Checkpoints (R434, R435) -/

/-- Address and length of a queue's packet ring (R313). -/
def Queue.ring (k : Queue) : Nat × Nat := ((k.dw0 &&& 0xFFFFFFFFFFFFF000).toNat, 64 * 2 ^ (6 + (k.dw0.extractLsb' 4 4).toNat))

/-- The host bytes of the packets of a queue's ring from its head to its producer index (R434). -/
def State.ringBytes (s : State) (k : Queue) : List Host.Cell :=
  let (a, n) := k.ring
  (List.range (k.prod - k.head).toNat).flatMap fun i =>
    let x := a + (64 * (k.head.toNat + i)) % n
    (List.range 64).map fun j => (x + j, s.host.get (x + j))

/-- The checkpoint of an owner as its state stands (R434). -/
def State.checkpointOf (s : State) (f : Nat) : Checkpoint where
  cores := s.cores.filter fun c => c.id.owner = f
  regions := s.regions.filter fun r => r.id.owner = f
  frames := s.hbm.filter fun (a, _) => (s.fn f).frames.contains (a / 2 ^ 13)
  queues := (s.fn f).queues
  sems := (s.fn f).sems
  timers := (s.fn f).timers
  rings := (s.fn f).queues.flatMap s.ringBytes
  covered := (s.fn f).frames
  owed := s.net.filter fun m => m.src.owner == f
  far := s.homeOut.filter fun q => q.src.owner == f
  copied := ⟨[], [], []⟩

/-- Nothing of an owner has been written since its checkpoint (R435). -/
def State.allClean (s : State) (f : Nat) : State :=
  let core := fun (c : Core) => if c.id.owner = f then { c with dirty := [] } else c
  { s with
    me := core s.me, others := s.others.map core
    written := s.written.filter fun x => !(s.fn f).frames.contains x
    regions := s.regions.map fun (r : Region) => if r.id.owner = f then ({ r with bankDirty := [] } : Region) else r }

/-- Checkpoints are taken of owners that have a region whose new `turnno` is a multiple of
their interval (R434). -/
def State.takeCheckpoints (s : State) : State :=
  (List.range s.fns.length).foldl (init := s) fun s f =>
    let k := (s.fn f).ckptK
    if k ≠ 0 ∧ (s.fn f).struck.isNone ∧
        s.regions.any fun r => r.id.owner == f && r.resident && !r.blocked && r.turnno.toNat % k == 0 then
      (s.updFn f fun fn => { fn with ckpt := some (s.checkpointOf f) }).allClean f
    else s

/-- Resume step 2 (R35, R355): the results that have been forwarded since remap are due, in arrival
order, at their successors, before any packet issues. -/
def State.applyForwarded (s : State) : State :=
  s.net.foldl (init := s) fun t m =>
    if m.result && m.stamp == s.stamp then
      match t.net.idxOf? m with
      | none => t
      | some k => (t.landResult k).getD t
    else t

/-- The requests to switch that may begin now do so; a turn that is due is announced first (R50). -/
def State.dueSwitch (s : State) : State := if s.openSwitches.isEmpty then s else s.due .preempt .none

/-- TURN_RESUME (R35, R38, R39, R405): counters advance, turn handlers are pushed,
checkpoints taken (R434), and cores and engines restart, those of owners rolled back too
(R436); a switch asked for in the pause begins. Arrivals that find their place taken are spilled
until the resume ends (R74, R376). The turn handler's task is pushed before spilled arrivals apply
(notes/assumptions/78.md). The spec does not say what a context reports that a failed slot kept
stopped through earlier turns and that is live again: one task whose fourth argument counts those
turns too (notes/assumptions/83.md). -/
def execTurnResume (s : State) : Res? :=
  if s.phase == .remap then
    let pause := s.cyc.toNat - s.pauseAt
    let live := s.regions.filter fun r => r.resident && !r.blocked
    let turned := fun (r : Region) =>
      if r.resident && !r.blocked then
        ({ r with turnno := r.turnno + BitVec.ofNat 64 (r.missed + 1), missed := 0, lastPause := pause } : Region)
      else { r with missed := r.missed + 1, lastPause := pause }
    let s : State := { s with regions := s.regions.map turned }
    let s := if 2 ^ 18 < pause then s.record 0 (errorRecord 0x0B 15 0 0xFFF 0 15 3 0) else s
    let s := live.foldl (fun s r => s.pushTurn r.id (r.turnno.toNat + r.missed + 1) pause (r.missed + 1)) s
    let s := s.takeCheckpoints
    let s : State := { s with fns := s.fns.map fun (fn : Fn) => ({ fn with rollback := false } : Fn) }
    let s := live.foldl (fun s r => s.eachCore r.id Core.restart) s
    let s := s.applyForwarded
    let s := live.foldl (fun s r => s.eachCore r.id Core.reissue) s
    .next { s with phase := .run }.dueSwitch
  else .next s

/-- RESULT_FORWARD (R36, R355): after remap a held result of the previous turn goes on to the
successor column. -/
def execResultForward (s : State) : Res? :=
  match s.ev with
  | .msg k =>
    match s.msg? k with
    | none => .next s
    | some m =>
      if m.stamp + 1 = s.stamp ∧ (s.phase = .remap ∨ s.phase = .run) then
        .next { s with net := setAt s.net k { m with stamp := s.stamp } }
      else .next s
  | _ => .next s

/-! ## Switching contexts (R48 to R50) -/

/-- Whether a region's switch may complete: engines at granule points, buffers and traffic
drained, no HBM result or delivery beat owed. -/
def State.switchable (s : State) (r : Region) : Bool :=
  s.enginesStopped r && !(s.net.any fun m => m.ofRegion r.id) &&
  (s.coresOf r.id).all fun id =>
    ((s.core? id).map fun c => s.bufferDry c && !s.farOpen c && c.hbmAcc.isEmpty && !c.bulks.any Bulk.owes &&
      !(s.homeOut.any fun q => q.src == id && q.op.value)).getD true

/-- A request begins: the context stops, or, when it is not resident, only the one to come is
waited for (R50). -/
def State.beginSwitch (s : State) (x : RegionId × Option RegionId) : State :=
  match s.region? x.1.owner x.1.circ with
  | some r =>
    if r.resident && !r.preempt then
      let t := s.updRegion r.id.owner r.id.circ fun r => { r with preempt := true }
      if r.blocked then t else t.haltRegion r.id
    else if r.resident then s
    else { s with switches := s.switches.erase x, switching := s.switching ++ (x.2.map fun n => (x.1, n)).toList }
  | none => { s with switches := s.switches.erase x }

/-- The outgoing context of a switch has stopped: the context to come is waited for (R50). -/
def State.switchedOut (s : State) (id : RegionId) : State :=
  match s.switches.find? (·.1 == id) with
  | some x => { s with switches := s.switches.erase x, switching := s.switching ++ (x.2.map fun n => (id, n)).toList }
  | none => s

/-- The bank stripes of a context are in its save area (R49). -/
def State.saveBank (s : State) (id : RegionId) : State :=
  { s with stripes := s.stripes.map fun (x : Stripe) => if x.r == id && x.st == .bank then x.put true else x }

/-- PREEMPT (R48 to R50): a request is made, and begins when no pause and no other switch of its
place is in progress and every earlier request for it is served; when the engines and the
traffic of a context that stops have stopped it is no longer resident; its bank is saved up to its
extent at once, the other stores stay until they are claimed (R49). -/
def execPreempt (s : State) : Res? :=
  match s.ev with
  | .switch out x =>
    let s := s.askSwitch out x
    .next (s.openSwitches.foldl State.beginSwitch s)
  | .none => .next (s.openSwitches.foldl State.beginSwitch s)
  | .region id =>
    match s.region? id.owner id.circ with
    | none => .next s
    | some r =>
      if r.resident && r.preempt && s.phase == .run && s.switchable r then
        .next (((((s.growStripes.stopEngines r).forget r).updRegion id.owner id.circ fun r =>
          { r with resident := false, preempt := false, lastRes := s.cyc.toNat, lastPause := 0 }).saveBank id).switchedOut id).dueSwitch
      else .next s
  | _ => .next s

/-- Whether a switch keeps a context out: another one is to come to its place (R50). -/
def State.keptOut (s : State) (id : RegionId) : Bool := s.switching.any fun x => x.2 != id && s.clash id x.2

/-- CONTEXT_RESTORE (R35, R39, R49): a context whose place is free has its stripes back, its
`turnno` counts the turns it has missed, and its cores start; on a column with a failed slot it
waits, stopped, for the next turn (R403). The switch that brings it is complete (R50). -/
def execContextRestore (s : State) : Res? :=
  match s.ev with
  | .region id =>
    match s.region? id.owner id.circ with
    | none => .next s
    | some r =>
      if s.phase == .run && !r.resident && !s.keptOut id &&
          !(s.regions.any fun q => q.resident && q.id != id && s.shares q r) then
        let turns := r.turnno.toNat + r.missed
        let t := s.updRegion id.owner id.circ fun r =>
          { r with resident := true, started := true, turnno := BitVec.ofNat 64 turns, missed := 0, blocked := s.onBroken r }
        let t := if r.missed = 0 then t else t.pushTurn id turns r.lastPause r.missed
        let t : State := { t.fetchStripes r with switching := s.switching.filter (·.2 ≠ id) }
        .next (if s.onBroken r then t else t.restartRegion id).dueSwitch
      else .next s
  | _ => .next s

/-! ## Regions (R27 to R29) -/

/-- The core numbers of a region (R29). -/
def coreNums (pos mcs : Nat) : List Nat := List.range (32 * pos) ++ (List.range mcs).map (0x800 + ·)

/-- Whether a place is one a region may have: positions of a circuit that leave its spare ones,
memory cores that exist, and nothing of it held by another region but contexts of the same place
(R17, R21, R27, R48). -/
def State.placeOk (s : State) (id : RegionId) (pos head : Nat) (mcs : List Nat) : Bool :=
  let r : Region := { wholeRegion with id := id, pos := pos, head := head, mcs := mcs }
  let rest := s.regions.filter fun q => q.id != id && q.id.circ == id.circ
  let held := (s.ring id.circ).filter fun p => (s.positions r).contains p || rest.any fun q => (s.positions q).contains p
  circuitIs s.config id.circ && decide (id.owner < 64) && decide (1 ≤ pos) && decide (pos ≤ (s.ring id.circ).length) &&
  decide (held.length ≤ assignable s.config id.circ) && (s.ring id.circ).contains head &&
  mcs.all (decide <| · < 96) && mcs.eraseDups.length == mcs.length &&
  s.regions.all fun q =>
    q.id == id || (if q.id.circ == id.circ && q.head == head && q.pos == pos then q.mcs == mcs
      else !s.shares q r && !(q.mcs.any mcs.contains))

/-- REGION_CREATE (R27 to R29, R75, R173): fresh cores, banks that read zero. It is resident
when no other context has its place, and holds stripes from then on (R359). -/
def execRegionCreate (s : State) : Res? :=
  match s.ev with
  | .newRegion id pos head mcs =>
    if (s.region? id.owner id.circ).isNone && s.placeOk id pos head mcs then
      let r : Region := { wholeRegion with
        id := id, pos := pos, head := head, mcs := mcs, resident := false, started := false,
        arrays := List.replicate (4 * pos) ⟨[], none⟩, banks := List.replicate (4 * pos) [] }
      let free := !(s.regions.any fun q => q.resident && s.shares q r) && !s.switching.any fun x => s.clash x.1 id
      let r := { r with resident := free, started := free, blocked := free && s.onBroken r }
      let t : State := { s with
        regions := s.regions ++ [r]
        others := s.others ++ (coreNums pos mcs.length).map fun n => Core.fresh ⟨id.owner, id.circ, n⟩ }
      .next (if free then t.fetchStripes r else t)
    else .next s
  | _ => .next s

/-- Without the cores that do not satisfy p. -/
def State.keepCores (s : State) (p : CoreId → Bool) : State :=
  let l := s.others.filter fun c => p c.id
  if p s.me.id then { s with others := l }
  else match l with
    | c :: cs => { s with me := c, others := cs }
    | [] => { s with me := Core.fresh nobody, others := [] }

/-- Whether a core is of a region. -/
def inRegion (c : CoreId) (r : RegionId) : Bool := c.owner == r.owner && c.circ == r.circ

/-- REGION_RESIZE (R27): while no context is resident, a region has another size, place or
memory cores; cores it keeps keep their state, new ones are fresh. -/
def execRegionResize (s : State) : Res? :=
  match s.ev with
  | .newRegion id pos head mcs =>
    match s.region? id.owner id.circ with
    | none => .next s
    | some r =>
      if !r.resident && s.placeOk id pos head mcs then
        let nums := coreNums pos mcs.length
        let old := (s.coresOf id).map (·.num)
        let t := s.keepCores fun c => !inRegion c id || nums.contains c.num
        let new := nums.filter fun n => !old.contains n
        let grow := fun (l : List Memory) => (l ++ List.replicate (4 * pos - l.length) []).take (4 * pos)
        .next ({ t with
          others := t.others ++ new.map (fun n => Core.fresh ⟨id.owner, id.circ, n⟩)
          stripes := t.stripes.filter fun x => !(x.r == id && 4 * pos ≤ x.lcol) }.updRegion id.owner id.circ fun r =>
          { r with pos := pos, head := head, mcs := mcs, banks := grow r.banks
                   arrays := List.replicate (4 * pos) ⟨[], none⟩ })
      else .next s
  | _ => .next s

/-- A region, its cores and its stripes are gone. -/
def State.dropRegion (s : State) (id : RegionId) : State :=
  let t := s.keepCores fun c => !inRegion c id
  { t with
    regions := t.regions.filter (·.id ≠ id), net := t.net.filter fun m => !m.ofRegion id
    homeOut := t.homeOut.filter fun q => !(q.src.owner == id.owner && q.src.circ == id.circ)
    stripes := t.stripes.filter (·.r ≠ id)
    switches := t.switches.filter fun x => x.1 != id && x.2 != some id
    switching := t.switching.filter fun x => x.1 != id && x.2 != id }

/-- REGION_FREE (R27): while no context is resident. -/
def execRegionFree (s : State) : Res? :=
  match s.ev with
  | .region id =>
    match s.region? id.owner id.circ with
    | none => .next s
    | some r => .next (if r.resident then s else s.dropRegion id)
  | _ => .next s

end Sys2Proof.Machine
end

