-- ==== Sys2Proof/Machine/FrontEnd.lean ====
section
/-! DEFINITION. The front end: queues, the mapper, packets, completions, timers, register
windows, the mint and host accesses (14_scheduling.md R312 to R324;
15_host_fabric_firmware.md R329 to R332, R339; 17_prog_kv_handover.md R346;
25_containment.md R431 to R445). -/

namespace Sys2Proof.Machine

open Sys2Proof

/-! ## Objects reached by parties other than cores (R330, R336) -/

/-- Write bytes of an object, when the access translates. -/
def State.writeObj (s : State) (f obj o : Nat) (bs : List Byte) : Option State :=
  match s.reach f obj o bs.length false true with
  | (.ok ps, m) => some (State.putHbm { s with hbm := m.hbm } (spreadParts ps bs))
  | _ => none

/-- An event in the physical function's log whose record's content the spec does not give: a
free value (notes/assumptions/20.md). -/
def State.note (s : State) : State :=
  let (v, s) := s.draw
  { s with pfLog := s.pfLog ++ [(v, s.cyc)] }

/-! ## Queues (R313, R314, R317 to R320) -/

/-- Whether a queue is live. -/
def Queue.en (k : Queue) : Bool := k.dw0.getLsbD 0
/-- The mapper priority. -/
def Queue.prio (k : Queue) : Nat := (k.dw0.extractLsb' 2 2).toNat
/-- The circuit that LAUNCH packets name. -/
def Queue.circ (k : Queue) : Nat := (k.dw0.extractLsb' 1 1).toNat
/-- Entries of the packet ring. -/
def Queue.size (k : Queue) : Nat := 2 ^ (6 + (k.dw0.extractLsb' 4 4).toNat)
/-- Entries of the completion ring. -/
def Queue.csize (k : Queue) : Nat := 2 ^ (6 + (k.dw1.extractLsb' 4 4).toNat)

/-- Whether a packet of the queue keeps later ones from being taken (R317). -/
def Queue.blocked (k : Queue) : Bool := k.taken.any fun t => t.wait.isSome || t.launch.isSome || t.type == 7

/-- Whether a queue is idle for the mapper (R320): empty, or blocked at a WAIT, or at a LAUNCH that
waits for its region's previous one. -/
def State.resting (s : State) (f : Nat) (k : Queue) : Bool :=
  let earlier := ((s.region? f k.circ).map fun r => r.launch.isSome || r.ending.isSome).getD false
  k.rereads == 0 && (k.head == k.prod || k.taken.any fun t => t.wait.isSome || (t.launch.isSome && earlier))

/-- Whether a queue's next packet may be taken (R318, R322). -/
def Queue.takeable (k : Queue) : Bool := k.bound && k.en && !k.killing && !k.blocked && k.head != k.prod && k.rereads == 0

/-- A taken packet starts. -/
def State.take (s : State) (f q : Nat) (t : Taken) : State := s.updQueue f q fun k => { k with taken := k.taken ++ [t] }

/-- NOTIFY (R314): the producer index; a queue that is not live, and a write with a bit of
[63:16] set, are ignored. -/
def execNotify (s : State) : Res? :=
  match s.ev with
  | .notify f q v =>
    if (s.queue f q).en && v.extractLsb' 16 48 == 0 then
      .next (s.updQueue f q fun k =>
        let p := v.setWidth 16
        { k with prod := p, announced := k.announced || (!k.bound && k.head != p) })
    else .next s
  | _ => .next s

/-! ## The mapper (R320, R321) -/

/-- The queues of a property, by function and number. -/
def State.queuesWith (s : State) (p : Queue → Bool) : List (Nat × Nat) :=
  (List.range s.fns.length).flatMap fun f =>
    if (s.fn f).enabled then ((List.range 32).filter fun q => p (s.queue f q)).map fun q => (f, q) else []

/-- Strict priority: the queues of the highest priority. -/
def State.highest (s : State) (l : List (Nat × Nat)) : List (Nat × Nat) :=
  let m := l.foldl (fun m (f, q) => max m (s.queue f q).prio) 0
  l.filter fun (f, q) => (s.queue f q).prio == m

/-- Round-robin among an owner's queues, starting after the last one chosen. -/
def roundRobin (l : List (Nat × Nat)) (f last : Nat) : Option Nat :=
  let qs := (l.filter (·.1 == f)).map (·.2)
  (qs.find? (last < ·)).or qs.head?

/-- MAPPER_BIND (R321): a free slot takes an announced queue: by priority, then by share of
owners, then round-robin. -/
def execMapperBind (s : State) : Res? :=
  if 64 ≤ s.slots.length then .next s
  else
    let l := s.highest (s.queuesWith fun k => k.announced && k.en && !k.killing)
    match weighted (fun f => (s.fn f).share.toNat) s.bindCtr (l.map (·.1)).eraseDups with
    | none => .next s
    | some (f, ctr) =>
      match roundRobin l f (s.fn f).lastQueue with
      | none => .next s
      | some q =>
        let t := s.updFn f fun fn => { fn with lastQueue := q }
        let t := t.updQueue f q fun k => { k with announced := false, bound := true, idle := 0 }
        .next { t with slots := t.slots ++ [(f, q)], bindCtr := ctr }

/-- A queue loses its slot. -/
def State.release (s : State) (f q : Nat) : State :=
  { s.updQueue f q fun k => { k with bound := false, idle := 0 } with slots := s.slots.filter (· ≠ (f, q)) }

/-- MAPPER_EVICT (R320): a queue idle for 4,096 cc loses its slot; one that still holds packets
or is blocked is announced again. -/
def execMapperEvict (s : State) : Res? :=
  match s.ev with
  | .fq f q =>
    let k := s.queue f q
    if k.bound && s.resting f k && decide (4096 ≤ k.idle) then
      .next ((s.release f q).updQueue f q fun k => { k with announced := k.head != k.prod || k.blocked })
    else .next s
  | _ => .next s

/-! ## Taking a packet (R315, R316, R318, R322, R433) -/

/-- Dword i of the packet at a queue's head, as it stands in host memory. -/
def State.dword (s : State) (k : Queue) (i : Nat) : BitVec 64 :=
  BitVec.ofNat 64 (s.host.nat (k.ring.1 + 64 * (k.head.toNat % k.size) + 8 * i) 8)

/-- The reason for which an accepted packet is rejected, the lowest first (R433). -/
def State.badPacket (s : State) (f : Nat) (k : Queue) : Option Nat :=
  let d := s.dword k
  let ty := ((d 0).extractLsb' 0 4).toNat
  let zero := fun (i : Nat) => d i == 0
  let tail := fun (i : Nat) => (List.range (8 - i)).all fun j => zero (i + j)
  let r := s.region? f k.circ
  let mode := ((d 1).extractLsb' 8 2).toNat
  let clean := (d 0).extractLsb' 4 44 == 0 && match ty with
    | 1 => (d 1).extractLsb' 24 40 == 0
    | 2 | 3 => (d 2).extractLsb' 31 33 == 0 && tail 5
    | 4 | 5 => (d 1).extractLsb' 9 55 == 0 && tail 3
    | 6 => (d 1).extractLsb' 18 46 == 0 && (d 1).extractLsb' 6 2 == 0 && tail 5
    | _ => tail 1
  let len := (d 4).toNat
  let move := ty == 2 || ty == 3
  let per := (d 3).toNat
  if ty = 0 ∨ 8 ≤ ty then some 1
  else if !clean then some 2
  else if ty = 1 ∧ (d 1).extractLsb' 22 2 = 3 then some 3
  else if (ty = 1 ∨ move) ∧ r.isNone then some 4
  else if ty = 1 ∧ !(s.names ⟨f, k.circ, 0⟩ ((d 1).extractLsb' 0 12).toNat) then some 5
  else if move ∧ ((d 1).toNat % 64 ≠ 0 ∨ (d 3).toNat % 64 ≠ 0 ∨ len % 64 ≠ 0 ∨ len < 64 ∨ 2 ^ 32 < len ∨
      s.mcsOf ⟨f, k.circ, 0⟩ ≤ ((d 2).extractLsb' 24 7).toNat) then some 6
  else if ty = 6 ∧ (mode = 3 ∨ (mode = 1 ∧ (per < 250 ∨ 2 ^ 40 < per))) then some 7
  else none

/-- The event that a packet is. -/
def packetEvent (f q : Nat) (d : Nat → BitVec 64) : Option (Instr × EvArg) :=
  let sseq := (d 0).extractLsb' 48 16
  let w := d 1
  match ((d 0).extractLsb' 0 4).toNat with
  | 1 => some (.launch, .launch f q sseq (w.setWidth 12) (w.extractLsb' 12 10) (w.extractLsb' 22 2)
      ((List.range 6).map fun i => d (2 + i)))
  | 2 => some (.load, .move f q sseq w ((d 2).setWidth 24) ((d 2).extractLsb' 24 7) (d 3) (d 4))
  | 3 => some (.store, .move f q sseq w ((d 2).setWidth 24) ((d 2).extractLsb' 24 7) (d 3) (d 4))
  | 4 => some (if w.getLsbD 8 then .signalSet else .signalAdd, .sem f q sseq (w.setWidth 8) (d 2))
  | 5 => some (.waitPacket, .wait f q sseq (w.setWidth 8) (w.getLsbD 8) (d 2))
  | 6 =>
    let a := EvArg.arm f q sseq (w.setWidth 6) (w.extractLsb' 10 8) (d 2) (d 3) (d 4)
    some (match (w.extractLsb' 8 2).toNat with
      | 0 => (.armOnce, a)
      | 1 => (.armPeriodic, a)
      | _ => (.armCancel, a))
  | 7 => some (.barrier, .packet f q sseq)
  | _ => none

/-- An accepted packet: `sseq` and head advance in one step, and the packet's event is due
next, or it is rejected with status 8 (R318, R433, R442). -/
def State.accept (s : State) (f q : Nat) : State :=
  let k := s.queue f q
  let t := s.updQueue f q fun k => { k with sseq := k.sseq + 1, head := k.head + 1, rereads := 0 }
  match s.badPacket f k with
  | some r => t.complete f q ((s.dword k 0).extractLsb' 48 16) ((s.dword k 0).setWidth 4) 8 (BitVec.ofNat 64 r)
  | none =>
    match packetEvent f q (s.dword k) with
    | some e => { t with agenda := e :: t.agenda }
    | none => t

/-- Whether the header at a queue's head carries the submit sequence it must (R318). -/
def State.arrived (s : State) (k : Queue) : Bool := (s.dword k 0).extractLsb' 48 16 == k.sseq

/-- PACKET_TAKE (R318, R322): the front end reads the header of a queue chosen by priority,
share and round-robin; on a mismatch it waits 64 ns before it reads again. -/
def execPacketTake (s : State) : Res? :=
  if s.takeWait ≠ 0 ∨ s.linkUp = false then .next s
  else
    let l := s.highest (s.queuesWith Queue.takeable)
    match weighted (fun f => (s.fn f).share.toNat) s.takeCtr (l.map (·.1)).eraseDups with
    | none => .next s
    | some (f, ctr) =>
      match roundRobin l f (s.fn f).lastTake with
      | none => .next s
      | some q =>
        let t := { s.updFn f fun fn => { fn with lastTake := q } with takeCtr := ctr, takeWait := 4 }
        if s.arrived (s.queue f q) then .next (t.accept f q)
        else .next (t.updQueue f q fun k => { k with rereads := 1, rereadAt := s.devtime.toNat + 64 })

/-- The wait before re-read n in ns: 64, doubling up to 65,536 (R318). -/
def backOff (n : Nat) : Nat := min 65536 (64 * 2 ^ (n - 1))

/-- HEADER_REREAD (R318, R322): the header is read again after its wait; a packet that has arrived
makes its queue one of those of which the front end takes. -/
def execHeaderReread (s : State) : Res? :=
  match s.ev with
  | .fq f q =>
    let k := s.queue f q
    if k.rereads = 0 ∨ 64 < k.rereads ∨ k.killing ∨ s.linkUp = false ∨ s.devtime.toNat < k.rereadAt then .next s
    else if s.arrived k then .next (s.updQueue f q fun k => { k with rereads := 0 })
    else
      let n := k.rereads + 1
      let t := s.updQueue f q fun k => { k with rereads := n, rereadAt := s.devtime.toNat + backOff n }
      .next (if 64 < n then t.due .submitTimeout (.fq f q) else t)
  | _ => .next s

/-- SUBMIT_TIMEOUT (R441): after the 64th mismatch en is cleared, with an entry of status 5; packets
that have been taken stay as they are. -/
def execSubmitTimeout (s : State) : Res? :=
  match s.ev with
  | .fq f q =>
    if 64 < (s.queue f q).rereads then
      .next ((s.release f q).updQueue f q fun k =>
        { k with
          dw0 := k.dw0 &&& 0xFFFFFFFFFFFFFFFE, rereads := 0, announced := false
          comps := k.comps ++ [⟨5, 0, 0, k.sseq.setWidth 64⟩] })
    else .next s
  | _ => .next s

/-! ## Packets (R45, R316, R317) -/

/-- LAUNCH (R45, R317): the packet starts, and waits at the head of its queue until its region
is free. -/
def execLaunch (s : State) : Res? :=
  match s.ev with
  | .launch f q sseq core handler dom args =>
    .next ((s.take f q ⟨1, sseq, none, some (core, handler, dom, args)⟩).due .launchStart (.fq f q))
  | _ => .next s

/-- LAUNCH_START (R45, R46, R317): once the region's previous launch has completed and no pause is
in progress, the root task is pushed on the named core's normal deque; the push is counted as an
injection, and as an ejection once it stands in the deque. The front end has no core number: a
push that is set aside reports core 0 (notes/assumptions/78.md). -/
def execLaunchStart (s : State) : Res? :=
  match s.ev with
  | .fq f q =>
    let k := s.queue f q
    match k.taken.find? fun t => t.launch.isSome, s.region? f k.circ with
    | some t, some r =>
      match t.launch with
      | some (core, handler, dom, args) =>
        if s.phase == .run && r.launch.isNone && r.ending.isNone && !k.killing then
          let s := s.updRegion f k.circ fun r =>
            { r with launch := some ⟨q, t.sseq, core.toNat, dom, r.ocyc⟩, dom := dom, wave := none }
          let s := s.updQueue f q fun k => { k with taken := k.taken.map fun u => if u = t then ⟨1, t.sseq, none, none⟩ else u }
          .next (s.pushRoot ⟨f, k.circ, core.toNat⟩ (headerEntry (handler.setWidth 64) args))
        else .next s
      | none => .next s
    | _, _ => .next s
  | _ => .next s

/-- A capability of all rights over a whole object, which moves of packets go through
(R316). -/
def wholeCap (obj : BitVec 24) : Cap := ⟨(0xFFFFFFFFFFFF : BitVec 48) ++ (0 : BitVec 48) ++ (0x3F : BitVec 8) ++ obj, true⟩

/-- LOAD and STORE (R316, R317): the named memory core runs the move as a hart. -/
def State.startMove (s : State) (load : Bool) (f q : Nat) (sseq : BitVec 16) (host : BitVec 64) (obj : BitVec 24)
    (lm : BitVec 7) (off len : BitVec 64) : State :=
  let k := s.queue f q
  let id : CoreId := ⟨f, k.circ, 0x800 + lm.toNat⟩
  let hbm := Side.hbm (wholeCap obj)
  let beat : Beat := if load then ⟨host.toNat, off.toNat, len.toNat⟩ else ⟨off.toNat, host.toNat, len.toNat⟩
  (s.take f q ⟨if load then 2 else 3, sseq, none, none⟩).updCore id fun c =>
    { c with
      seq := c.seq + 1
      bulks := c.bulks ++ [{
        id := c.seq, kind := if load then .hostLoad else .hostStore, src := if load then .host else hbm
        dst := if load then hbm else .host, beats := [beat], count := 0, cell := 0, gran := 4, started := true
        record := false, waiting := none, answer := none, desc := 0, vec := [], bad := none
        packet := some (f, q, sseq, 0), held := 0, creg := 0 }] }

/-- LOAD (R316): host memory to an object. -/
def execLoad (s : State) : Res? :=
  match s.ev with
  | .move f q sseq host obj lm off len => .next (s.startMove true f q sseq host obj lm off len)
  | _ => .next s

/-- STORE (R316): an object to host memory. -/
def execStore (s : State) : Res? :=
  match s.ev with
  | .move f q sseq host obj lm off len => .next (s.startMove false f q sseq host obj lm off len)
  | _ => .next s

/-- The command of a LOAD or STORE packet: its core, its place, itself. -/
def State.moveOf (s : State) (f q : Nat) (sseq : BitVec 16) : Option (CoreId × Nat × Bulk) :=
  s.cores.findSome? fun c =>
    ((List.range c.bulks.length).findSome? fun i =>
      match c.bulks[i]? with
      | some b => if (b.packet.map fun (g, r, n, _) => (g, r, n)) = some (f, q, sseq) then some (i, b) else none
      | none => none).map fun (i, b) => (c.id, i, b)

/-- A LOAD or STORE completes and its command leaves. -/
def State.endMove (s : State) (f q : Nat) (sseq : BitVec 16) (id : CoreId) (i : Nat) (b : Bulk) (st : BitVec 4)
    (detail : BitVec 64) : State :=
  (s.dropBulk id i).complete f q sseq (if b.kind = .hostLoad then 2 else 3) st detail

/-- LOAD_STORE_COMPLETE (R317, R319, R444): every byte is written, or the host IOMMU has
refused a beat (status 7, cause 1). -/
def execLoadStoreComplete (s : State) : Res? :=
  match s.ev with
  | .packet f q sseq =>
    match s.moveOf f q sseq with
    | some (id, i, b) =>
      .next (if b.beats.isEmpty then
        s.endMove f q sseq id i b 0 (BitVec.ofNat 64 ((b.packet.map fun (_, _, _, n) => n).getD 0)) else s)
    | none => .next s
  | .status f q sseq _ _ =>
    match s.moveOf f q sseq with
    | some (id, i, b) => .next (s.endMove f q sseq id i b 7 1)
    | none => .next s
  | _ => .next s

/-- LOAD_STORE_LINK_TIMEOUT (R447): a move that has waited longer than 2^30 cc for the link
completes with status 7, cause 2, once the link is back. -/
def execLoadStoreLinkTimeout (s : State) : Res? :=
  match s.ev with
  | .packet f q sseq =>
    match s.moveOf f q sseq with
    | some (id, i, b) => .next (if s.linkUp && decide (2 ^ 30 < b.held) then s.endMove f q sseq id i b 7 2 else s)
    | none => .next s
  | _ => .next s

/-- A semaphore of a function. -/
def State.sem (s : State) (f : Nat) (k : BitVec 8) : BitVec 64 := (s.fn f).sems.getD k.toNat 0

/-- Change a semaphore (R316). -/
def State.updSem (s : State) (f : Nat) (k : BitVec 8) (g : BitVec 64 → BitVec 64) : State :=
  s.updFn f fun fn => { fn with sems := modAt fn.sems k.toNat g }

/-- SIGNAL_ADD (R316): adds modulo 2^64, and completes. -/
def execSignalAdd (s : State) : Res? :=
  match s.ev with
  | .sem f q sseq k v => .next ((s.updSem f k (· + v)).complete f q sseq 4 0 0)
  | _ => .next s

/-- SIGNAL_SET (R316). -/
def execSignalSet (s : State) : Res? :=
  match s.ev with
  | .sem f q sseq k v => .next ((s.updSem f k fun _ => v).complete f q sseq 4 0 0)
  | _ => .next s

/-- WAIT_PACKET (R317): the packet blocks its queue until its condition holds, which may be now. -/
def execWaitPacket (s : State) : Res? :=
  match s.ev with
  | .wait f q sseq k e v => .next ((s.take f q ⟨5, sseq, some (k, e, v), none⟩).due .waitComplete (.packet f q sseq))
  | _ => .next s

/-- Whether a WAIT's condition holds (R316, R317). -/
def State.waitHolds (s : State) (f : Nat) (w : BitVec 8 × Bool × BitVec 64) : Bool :=
  if w.2.1 then s.sem f w.1 == w.2.2 else w.2.2.ule (s.sem f w.1)

/-- WAIT_COMPLETE (R317, R319): the condition holds. -/
def execWaitComplete (s : State) : Res? :=
  match s.ev with
  | .packet f q sseq =>
    match (s.queue f q).taken.find? fun t => t.sseq == sseq && t.wait.isSome with
    | some t =>
      match t.wait with
      | some w => .next (if s.waitHolds f w then s.complete f q sseq 5 0 (s.sem f w.1) else s)
      | none => .next s
    | none => .next s
  | _ => .next s

/-- A timer of a function is set (R323). -/
def State.setTimer (s : State) (f : Nat) (k : BitVec 6) (t : Timer) : State :=
  s.updFn f fun fn => { fn with timers := setAt fn.timers k.toNat t }

/-- ARM_ONCE (R316, R323): replaces the timer's earlier arming, with its miss count at 0. -/
def execArmOnce (s : State) : Res? :=
  match s.ev with
  | .arm f q sseq k sem t _ v => .next ((s.setTimer f k ⟨true, t, none, sem, v, 0⟩).complete f q sseq 6 0 0)
  | _ => .next s

/-- ARM_PERIODIC (R316, R323). -/
def execArmPeriodic (s : State) : Res? :=
  match s.ev with
  | .arm f q sseq k sem t p v => .next ((s.setTimer f k ⟨true, t, some p, sem, v, 0⟩).complete f q sseq 6 0 0)
  | _ => .next s

/-- ARM_CANCEL (R316, R323). -/
def execArmCancel (s : State) : Res? :=
  match s.ev with
  | .arm f q sseq k _ _ _ _ =>
    .next ((s.updFn f fun fn => { fn with timers := modAt fn.timers k.toNat fun t => { t with armed := false, miss := 0 } }).complete
      f q sseq 6 0 0)
  | _ => .next s

/-- BARRIER (R317): the packet blocks its queue. -/
def execBarrier (s : State) : Res? :=
  match s.ev with
  | .packet f q sseq => .next (s.take f q ⟨7, sseq, none, none⟩)
  | _ => .next s

/-- BARRIER_COMPLETE (R317): every earlier packet of the queue has completed. -/
def execBarrierComplete (s : State) : Res? :=
  match s.ev with
  | .packet f q sseq =>
    match (s.queue f q).taken with
    | t :: _ => .next (if t.type = 7 ∧ t.sseq = sseq then s.complete f q sseq 7 0 0 else s)
    | [] => .next s
  | _ => .next s

/-! ## Completions (R319) -/

/-- Whether a completion ring is full (R319). -/
def Queue.full (k : Queue) : Bool := k.ctail - k.cons == BitVec.ofNat 16 k.csize

/-- COMPLETION_WRITE (R319, R447): the first decided entry is written unless the ring is full or
the link is down. -/
def execCompletionWrite (s : State) : Res? :=
  match s.ev with
  | .fq f q =>
    let k := s.queue f q
    match k.comps with
    | [] => .next s
    | c :: cs =>
      if s.linkUp && !k.full then
        let a := (k.dw1 &&& 0xFFFFFFFFFFFFF000).toNat + 16 * (k.ctail.toNat % k.csize)
        let d0 : BitVec 64 := (0 : BitVec 24) ++ c.status ++ c.type ++ c.sseq ++ k.csq
        let t := s.updQueue f q fun k => { k with comps := cs, ctail := k.ctail + 1, csq := k.csq + 1 }
        .next { t with host := t.host.putBytes a (natBytes 8 d0.toNat ++ natBytes 8 c.detail.toNat) }
      else .next s
  | _ => .next s

/-! ## The timer wheel (R323, R324) -/

/-- A timer at a tick: its value is added once, and a periodic one moves to its first release
after now (R324). -/
def Timer.fire (t : Timer) (now : Nat) : Timer :=
  match t.period with
  | none => { t with armed := false }
  | some p =>
    let m := (now - t.time.toNat) / p.toNat
    { t with miss := BitVec.ofNat 32 (min (2 ^ 32 - 1) (t.miss.toNat + m)), time := t.time + BitVec.ofNat 64 (m + 1) * p }

/-- TIMER_TICK (R323, R324): the timers due at this tick release. -/
def execTimerTick (s : State) : Res? :=
  let now := s.devtime.toNat
  let tick := fun (fn : Fn) =>
    let due := fn.timers.filter fun t => t.armed && decide (t.time.toNat ≤ now)
    ({ fn with
      sems := due.foldl (fun l t => modAt l t.sem.toNat (· + t.v)) fn.sems
      timers := fn.timers.map fun t => if t.armed && decide (t.time.toNat ≤ now) then t.fire now else t } : Fn)
  .next { s with fns := s.fns.map tick, wheelTick := now / 250 }

/-! ## Register windows (R313, R329, R331, R332, R339, R445) -/

/-- A kill of a queue lands: nothing more is taken from it (R439). -/
def State.killQueue (s : State) (f q : Nat) : State :=
  (s.release f q).updQueue f q fun k => { k with killing := true, killAsked := false, announced := false, rereads := 0 }

/-- A kill of a queue lands; in a turn's pause or a rollback it takes effect at its end (R439). -/
def State.askKill (s : State) (f q : Nat) : State :=
  if s.paused || (s.fn f).rollback then s.updQueue f q fun k => { k with killAsked := true } else s.killQueue f q

/-- QUEUE_KILL (R439): a live queue is killed. -/
def execQueueKill (s : State) : Res? :=
  match s.ev with
  | .fq f q => .next (if (s.queue f q).en then s.askKill f q else s)
  | _ => .next s

/-- A write of a queue descriptor (R313). -/
def State.writeDescriptor (s : State) (f q i : Nat) (v : BitVec 64) : State :=
  let k := s.queue f q
  if k.en ∨ k.killing then
    if i = 0 ∧ v.getLsbD 0 = false then s.due .queueKill (.fq f q)
    else if i = 2 then s.updQueue f q fun k => { k with cons := v.extractLsb' 32 16 }
    else s
  else match i with
    | 0 => s.updQueue f q fun k => { k with dw0 := v }
    | 1 => s.updQueue f q fun k => { k with dw1 := v }
    | 2 => s.updQueue f q fun k => { k with cons := v.extractLsb' 32 16, csq := v.extractLsb' 16 16, sseq := v.setWidth 16 }
    | _ => s

/-- A write of the invalidation register of a function, or of the physical function as index 64,
the only one that may name kind 10 (R332, R445). -/
def State.writeInval (s : State) (f : Nat) (v : BitVec 64) : State :=
  let g := EvArg.granule f (v.extractLsb' 13 39)
  if v.extractLsb' 52 12 ≠ 0 ∨ v.extractLsb' 2 11 ≠ 0 ∨ (v.setWidth 2 = (2 : BitVec 2) ∧ f ≠ 64) then s.note
  else s.due (match (v.setWidth 2).toNat with
    | 0 => .invalidateObject
    | 1 => .invalidateExtent
    | 2 => .invalidateSecondStage
    | _ => .invalidateAll) g

/-- A write of the physical function's window: its invalidation, its page-request ring and its mint
mailbox, which alone answers in recovery mode; it has no queues (R329, R331, R332, R339, R417,
R452). -/
def State.writePf (s : State) (off : Nat) (v : BitVec 64) : State :=
  if 0x1000 ≤ off ∧ off < 0x1040 ∧ off % 8 = 0 then
    { s with pf := { s.pf with mintReq := s.pf.mintReq.setIfInBounds ((off - 0x1000) / 8) v } }
  else if off = 0x10F8 ∧ v = 1 then { s with pf := { s.pf with mintBusy := true } }
  else if s.recovery then s
  else if off = 0xE00 then s.writeInval 64 v
  else if off = 0xE40 then
    if v.getLsbD 0 then s.due .pageRequestRingEnable (.reg 64 off v)
    else { s with pf := { s.pf with prBase := v &&& 0xFFFFFFFFFFFFF000, prEn := false } }
  else if off = 0xE50 then
    if v.extractLsb' 1 31 ≠ 0 then s.note else s.due .reclaimReply (.tag 64 (v.extractLsb' 32 32))
  else s

/-- A dword of the window of a function, or of the physical function as index 64, as a read gives
it: reserved fields, write-only registers and offsets not listed read zero (R5, R313, R323,
R329, R331, R332, R339). -/
def State.registerDword (s : State) (f off : Nat) : BitVec 64 :=
  let fn := s.fn f
  let bit := fun (b : Bool) => (if b then 1 else 0 : BitVec 64)
  let word := fun (v : BitVec 32) => v.setWidth 64
  if 64 < f then 0
  else if f = 64 then
    if off = 0x1080 then s.pf.answer
    else if 0x1000 ≤ off ∧ off < 0x1040 then s.pf.mintReq[(off - 0x1000) / 8]?.getD 0
    else if off = 0x10F8 then bit s.pf.mintBusy
    else if s.recovery then 0
    else if off = 0xE08 then bit s.pf.inval.isSome
    else if off = 0xE40 then s.pf.prBase ||| bit s.pf.prEn
    else if off = 0xE48 then s.pf.prTail.setWidth 64
    else 0
  else if !fn.enabled || s.recovery then 0
  else if off < 0x400 then
    let k := s.queue f (off / 32)
    match off % 32 / 8 with
    | 0 => k.dw0 &&& 0xFFFFFFFFFFFFF0FF
    | 1 => k.dw1 &&& 0xFFFFFFFFFFFFF0F0
    | 2 => ((0 : BitVec 16) ++ k.cons ++ k.csq ++ k.sseq : BitVec 64)
    | _ => ((0 : BitVec 32) ++ k.head ++ k.ctail : BitVec 64)
  else if 0x500 ≤ off ∧ off < 0x600 then
    let miss := fun (i : Nat) => word ((fn.timers.getD i Timer.reset).miss)
    miss ((off - 0x500) / 4) ||| miss ((off - 0x500) / 4 + 1) <<< 32
  else if 0x600 ≤ off ∧ off < 0xE00 then fn.sems.getD ((off - 0x600) / 8) 0
  else if off = 0xE08 then bit fn.inval.isSome
  else if off = 0xE40 then fn.prBase ||| bit fn.prEn
  else if off = 0xE48 then fn.prTail.setWidth 64
  else if 0x1000 ≤ off ∧ off < 0x1040 then fn.mintReq[(off - 0x1000) / 8]?.getD 0
  else if off = 0x1080 then fn.mintAns
  else if off = 0x10F8 then bit fn.mintBusy
  else 0

/-- A read of a window: a dword, or at the middle of one the 4 bytes that stand there, as the miss
counts of odd timers do (R4, R323, R329). -/
def State.registerRead (s : State) (f off : Nat) : BitVec 64 :=
  if off % 8 = 0 then s.registerDword f off
  else if off % 8 = 4 then s.registerDword f (off - 4) >>> 32
  else 0

/-- REGISTER_WRITE (R329): a write of 8 bytes in the window of a function, or of the physical
function as index 64; one with an event of its own makes it due. Offsets not listed, and
read-only ones, ignore it. A read of the window, which has no row of its own, comes with it
(notes/assumptions/79.md). -/
def execRegisterWrite (s : State) : Res? :=
  match s.ev with
  | .regRead f off => .next { s with hostOut := s.hostOut ++ [s.registerRead f off] }
  | .reg f off v =>
    if f = 64 then .next (s.writePf off v)
    else if !(s.fn f).enabled || s.recovery || off % 8 != 0 || decide (64 < f) then .next s
    else if off < 0x400 then .next (s.writeDescriptor f (off / 32) (off % 32 / 8) v)
    else if off < 0x500 then .next (s.due .notify (.notify f ((off - 0x400) / 8) v))
    else if off = 0xE00 then .next (s.writeInval f v)
    else if off = 0xE40 then
      if v.getLsbD 0 then .next (s.due .pageRequestRingEnable (.reg f off v))
      else .next (s.updFn f fun fn => { fn with prBase := v &&& 0xFFFFFFFFFFFFF000, prEn := false })
    else if off = 0xE50 then
      let t := v.extractLsb' 32 32
      if v.extractLsb' 1 31 ≠ 0 then .next s.note
      else .next (s.due (if v.getLsbD 0 then .pageReplyRefused else .pageReplyMapped) (.tag f t))
    else if 0x1000 ≤ off ∧ off < 0x1040 then
      .next (s.updFn f fun fn => { fn with mintReq := fn.mintReq.setIfInBounds ((off - 0x1000) / 8) v })
    else if off = 0x10F8 ∧ v = 1 then .next (s.updFn f fun fn => { fn with mintBusy := true })
    else .next s
  | _ => .next s

/-! ## Invalidation (R332) -/

/-- An invalidation starts, or waits in the register while another is busy; that of the physical
function is index 64's. -/
def State.invalidate (s : State) (f : Nat) (kind : BitVec 2) (g : BitVec 39) : State :=
  if f = 64 then
    match s.pf.inval with
    | none => { s with pf := { s.pf with inval := some (kind, g) } }
    | some _ => { s with pf := { s.pf with invalNext := some (kind, g) } }
  else s.updFn f fun fn =>
    match fn.inval with
    | none => { fn with inval := some (kind, g) }
    | some _ => { fn with invalNext := some (kind, g) }

/-- INVALIDATE_OBJECT (R332). -/
def execInvalidateObject (s : State) : Res? :=
  match s.ev with
  | .granule f g => .next (s.invalidate f 0 g)
  | _ => .next s

/-- INVALIDATE_EXTENT (R332): a core keeps no extent nodes, so nothing is dropped. -/
def execInvalidateExtent (s : State) : Res? :=
  match s.ev with
  | .granule f g => .next (s.invalidate f 1 g)
  | _ => .next s

/-- INVALIDATE_SECOND_STAGE (R332, R445): by the physical function, for a granule; of another
function it is ignored, and logged. -/
def execInvalidateSecondStage (s : State) : Res? :=
  match s.ev with
  | .granule f g => .next (if f = 64 then s.invalidate 64 2 g else s.note)
  | _ => .next s

/-- INVALIDATE_ALL (R332). -/
def execInvalidateAll (s : State) : Res? :=
  match s.ev with
  | .granule f g => .next (s.invalidate f 3 g)
  | _ => .next s

/-- A core's caches drop a target. -/
def Core.forget (c : Core) (kind : BitVec 2) (g : BitVec 39) : Core :=
  match kind.toNat with
  | 0 => { c with objCache := c.objCache.filter fun e => e.1 ≠ g.toNat % 2 ^ 25 }
  | 2 => { c with tlb := c.tlb.filter fun e => !overlap e.1 e.2.1 (g.toNat * 2 ^ 13) (2 ^ 13) }
  | 3 => { c with objCache := [], tlb := [] }
  | _ => c

/-- Every core of a function drops a target. -/
def State.forgetAll (s : State) (f : Nat) (kind : BitVec 2) (g : BitVec 39) : State :=
  (s.cores.filter fun c => c.id.owner = f).foldl (fun s c => s.updCore c.id fun d => d.forget kind g) s

/-- INVALIDATE_DONE (R332): every cache has dropped the target, and busy clears; a write that
waited takes its place. The physical function's register names no function: its target is
dropped for each (notes/assumptions/77.md). -/
def execInvalidateDone (s : State) : Res? :=
  match s.ev with
  | .num f =>
    if f = 64 then
      match s.pf.inval with
      | none => .next s
      | some (k, g) =>
        let t := (List.range s.fns.length).foldl (fun s f => s.forgetAll f k g) s
        .next { t with pf := { t.pf with inval := t.pf.invalNext, invalNext := none } }
    else match (s.fn f).inval with
    | none => .next s
    | some (k, g) => .next ((s.forgetAll f k g).updFn f fun fn => { fn with inval := fn.invalNext, invalNext := none })
  | _ => .next s

/-! ## The mint (R79, R84, R339, R346, R434) -/

/-- Where an entry of a function's object table stands in HBM, when its granule is mapped. -/
def State.entryAt (s : State) (f obj : Nat) : Option Nat :=
  match (⟨s.hbm, [], []⟩ : Mmu).stage ⟨0, 0, (s.fn f).ssRoot, 0, []⟩ (((s.fn f).objBase + 64 * obj) % 2 ^ 52) false false with
  | (.ok h, _) => some h
  | _ => none

/-- The mint answers and clears its go register. -/
def State.mintAnswer (s : State) (f : Nat) (v : BitVec 64) : State :=
  s.updFn f fun fn => { fn with mintAns := v, mintBusy := false }

/-- The mint refuses: the answer's value is not stated, a free value
(notes/assumptions/20.md). -/
def State.mintRefuse (s : State) (f : Nat) : State :=
  let (v, s) := s.draw
  s.mintAnswer f v

/-- A request in the physical function's mailbox is answered: the mint serves owners, so the answer
is a free value, but in recovery mode the mailbox goes on reporting the failed image (R339, R452;
notes/assumptions/20.md). -/
def State.mintPf (s : State) (f : Nat) : State :=
  if f ≠ 64 ∨ !s.pf.mintBusy then s
  else if s.recovery then { s with pf := { s.pf with mintBusy := false } }
  else
    let (v, s) := s.draw
    { s with pf := { s.pf with mintBusy := false, answer := v } }

/-- The entry of a new object (R79): active, hseq 0. -/
def newEntry (kind : Nat) (circ : Bool) (length root : Nat) : BitVec 512 :=
  BitVec.ofNat 512 (1 + 4 * (kind % 4) + (if circ then 16 else 0) + length % 2 ^ 48 * 2 ^ 64 + root % 2 ^ 64 * 2 ^ 128)

/-- The object-table entry of an index below the entry count, when its granule is mapped. -/
def State.entryOf (s : State) (f obj : Nat) : Option (BitVec 512) :=
  if obj < (s.fn f).objCount then (s.entryAt f obj).map fun h => BitVec.ofNat 512 (s.hbm.nat h 64) else none

/-- An entry in one state becomes another; caches drop the old one (R79, R84). -/
def State.mintEntry (s : State) (f obj st : Nat) (e : BitVec 512) : Option State :=
  if (s.entryOf f obj).map objState = some st then
    (s.entryAt f obj).map fun h =>
      (s.putHbm [(h, natBytes 64 e.toNat)]).forgetAll f 0 (BitVec.ofNat 39 obj)
  else none

/-- A new object in place of an invalid entry, and its capability of all rights, deposited as a
remote `cmov` would; its number is the answer (R84, R294, R339). -/
def State.mintObject (s : State) (f : Nat) (obj : BitVec 15) (e : BitVec 512) (circ : Bool) (lm : Nat) (creg : BitVec 4) : State :=
  match s.mintEntry f obj.toNat 0 e with
  | none => s.mintRefuse f
  | some t =>
    let cap : Cap := ⟨BitVec.ofNat 48 (objLength e) ++ (0 : BitVec 48) ++ (0x3F : BitVec 8) ++ (s.fabricId ++ obj), true⟩
    (t.updCore ⟨f, if circ then 1 else 0, 0x800 + lm⟩ fun c => c.both fun c => { c.setCap creg cap with latch := true }).mintAnswer
      f (obj.setWidth 64)

/-- MINT_CREATE (R84, R330, R339): the object is active on its circuit, and may be bound to the
function's CXL.mem window. An index whose entry is not invalid, or lies beyond the table, is
refused. -/
def execMintCreate (s : State) : Res? :=
  match s.ev with
  | .create f r =>
    if !(s.fn f).mintBusy || s.recovery then .next (s.mintPf f)
    else
      let t := s.mintObject f r.obj (newEntry r.kind.toNat r.circ r.length.toNat r.root.toNat) r.circ r.lm r.creg
      let made := (s.mintEntry f r.obj.toNat 0 0).isSome
      .next (if r.window && made then t.updFn f fun fn => { fn with window := some r.obj } else t)
  | _ => .next s

/-- MINT_FREE (R84, R339): the entry of an active object becomes invalid; of another it is
refused. -/
def execMintFree (s : State) : Res? :=
  match s.ev with
  | .fq f obj =>
    if !(s.fn f).mintBusy || s.recovery then .next (s.mintPf f)
    else match s.mintEntry f obj 1 0 with
      | none => .next (s.mintRefuse f)
      | some t => .next (t.mintAnswer f (BitVec.ofNat 64 obj))
  | _ => .next s

/-- MINT_ALIAS (R339, R346): a create whose object takes the source's kind, root and length; a
source in escrow is refused. -/
def execMintAlias (s : State) : Res? :=
  match s.ev with
  | .aliased f src obj circ lm creg =>
    if !(s.fn f).mintBusy || s.recovery then .next (s.mintPf f)
    else match s.entryOf f src.toNat with
      | none => .next (s.mintRefuse f)
      | some e =>
        .next (if objState e ≠ 1 then s.mintRefuse f
          else s.mintObject f obj (newEntry (objKind e) circ (objLength e) (objRoot e)) circ lm creg)
  | _ => .next s

/-- MINT_CHECKPOINT (R434): an interval of 1 to 65,535 turns, 0 for none. -/
def execMintCheckpoint (s : State) : Res? :=
  match s.ev with
  | .interval f k =>
    if !(s.fn f).mintBusy || s.recovery then .next (s.mintPf f)
    else if 65535 < k.toNat then .next (s.mintRefuse f)
    else
      let t := s.updFn f fun fn => { fn with ckptK := k.toNat, ckpt := if k = 0 then none else fn.ckpt }
      .next (t.mintAnswer f (k.setWidth 64))
  | _ => .next s

/-! ## Host accesses (R330, R443) -/

/-- The object and offset that an offset of a function's CXL.mem window of 64 GiB reaches
(R330). -/
def State.windowAt (s : State) (f : Nat) (off : BitVec 64) : Option (Nat × Nat) :=
  if off.toNat < 2 ^ 36 then (s.fn f).window.map fun o => (o.toNat, off.toNat) else none

/-- The walk of 8 bytes of a window's object. -/
def State.windowReach (s : State) (f : Nat) (off : BitVec 64) (rd wr : Bool) : Option (Tx × Mmu) :=
  (s.windowAt f off).map fun (o, x) => s.reach f o x 8 rd wr

/-- CXL_MEM_READ (R327, R330, R443): 8 bytes of the window's object, once their channel serves
them; in escrow or beyond its length zeros, and a log entry; uncorrectable bytes are not given. -/
def execCxlMemRead (s : State) : Res? :=
  match s.ev with
  | .cxl f off _ =>
    match s.windowReach f off true false with
    | some (.ok ps, m) =>
      match s.serve f ps false with
      | none => .next s
      | some t =>
        .next ({ t with hbm := m.hbm }.arrayRead ps fun t =>
          { t with hostOut := t.hostOut ++ [BitVec.ofNat 64 (bytesNat (partBytes t.hbm ps))] })
    | _ => .next { s.note with hostOut := s.hostOut ++ [0] }
  | _ => .next s

/-- CXL_MEM_WRITE (R327, R330, R443): discarded, with a log entry, in escrow or beyond the length. -/
def execCxlMemWrite (s : State) : Res? :=
  match s.ev with
  | .cxl f off v =>
    match s.windowReach f off false true with
    | some (.ok ps, m) =>
      match s.serve f ps false with
      | none => .next s
      | some t => .next ({ t with hbm := m.hbm }.putHbm (spreadParts ps (natBytes 8 v.toNat)))
    | _ => .next s.note
  | _ => .next s

end Sys2Proof.Machine
end

