-- ==== Sys2Proof/Machine/Firmware.lean ====
section
/-! DEFINITION. Collective harts, the host link, the scale-up fabric and Bamind
(15_host_fabric_firmware.md R333 to R341; 23_faults_memory.md R415; 25_containment.md R439,
R446 to R453). -/

namespace Sys2Proof.Machine

open Sys2Proof

/-! ## Collectives (R336, R337, R450) -/

/-- One addition of two elements of a reduction: by `rne`, or wrapped (R337). -/
def addElem (t : EType) (a b : Nat) : Nat :=
  match fmtOf t with
  | some f => (f.add ⟨.rne, 0, false⟩ (f.decode a) (f.decode b)).1
  | none => (a + b) % 2 ^ widthOf t

/-- The sum of contributions in group order, from member 0 upward (R337). -/
def reduceBytes (t : EType) (n : Nat) : List (List Byte) → List Byte
  | [] => []
  | b :: bs =>
    let k := 8 * n / widthOf t
    pack (widthOf t) n (bs.foldl (fun acc c => (acc.zip (unpack (widthOf t) k c)).map fun (x, y) => addElem t x y)
      (unpack (widthOf t) k b))

/-- What member i receives of the contributions of all members (R336, R337). -/
def Collective.result (c : Collective) (i : Nat) (l : List (List Byte)) : List Byte :=
  match c.op with
  | 0 => reduceBytes c.type c.len l
  | 1 => l.flatten
  | 2 => reduceBytes c.type c.len (l.map fun b => (b.drop (i * c.len)).take c.len)
  | _ => l.headD []

/-- Change a collective hart. -/
def State.updHart (s : State) (h : Nat) (k : Hart) : State := { s with harts := setAt s.harts h k }

/-- A hart that serves nothing. -/
def Hart.idle : Hart := ⟨0, 0, 0, false, false, 0, 0, false⟩

/-- Whether an owner has a resident region (R337, R450). -/
def State.ownerRuns (s : State) (f : Nat) : Bool := s.regions.any fun r => r.id.owner == f && r.resident

/-- Whether a hart serves an object's command. -/
def Hart.serves (k : Hart) (f : Nat) (obj : BitVec 15) : Bool := (k.waits || k.busy) && k.fn == f && k.obj == obj

/-- COLLECTIVE_START (R336, R337): an idle hart takes a command that is kicked, not done and of no
other hart, and waits at rendezvous; the command starts once every peer has reported (a result
of 0 says so), and goes on in the same way after a halt. -/
def execCollectiveStart (s : State) : Res? :=
  match s.ev with
  | .hart h f obj _ result =>
    match s.harts[h]? with
    | none => .next s
    | some k =>
      let met := result == 0 && s.ownerRuns f
      if k.serves f obj then
        .next (if met then s.updHart h { k with waits := false, busy := true, halted := false } else s)
      else if k.waits || k.busy || s.harts.any (·.serves f obj) then .next s
      else match s.collective f obj.toNat with
        | none => .next s
        | some c =>
          .next (if c.kick = c.seq ∧ c.done ≠ c.seq then s.updHart h ⟨f, obj, c.seq, !met, met, 0, 0, false⟩ else s)
  | _ => .next s

/-- The result word and then the done word are written, and the hart is idle (R336, R450). -/
def State.endCollective (s : State) (h : Nat) (k : Hart) (result : BitVec 8) : State :=
  let t := (s.writeObj k.fn k.obj.toNat 0x50 (natBytes 8 result.toNat)).getD s
  ((t.writeObj k.fn k.obj.toNat 0x48 (natBytes 4 k.seq.toNat)).getD t).updHart h Hart.idle

/-- The dst range of an abandoned command holds undefined bytes: free values (R450;
notes/assumptions/20.md). -/
def State.abandon (s : State) (h : Nat) (k : Hart) (result : BitVec 8) : State :=
  let s :=
    match s.collective k.fn k.obj.toNat with
    | none => s
    | some c =>
      let bs := (List.range c.taken).map fun i => Config.freeByte s.draws 0 i
      { (s.writeObj k.fn k.obj.toNat c.dst bs).getD s with draws := s.draws + 1 }
  s.endCollective h k result

/-- Where the own contribution of member i to the 256 bytes at a place of the results stands. -/
def Collective.ownAt (c : Collective) (i pos : Nat) : Option Nat :=
  match c.op with
  | 0 => some (c.src + pos)
  | 1 => if i * c.len ≤ pos ∧ pos < (i + 1) * c.len then some (c.src + pos - i * c.len) else none
  | 2 => some (c.src + i * c.len + pos)
  | _ => if i = 0 then some (c.src + pos) else none

/-- The pieces of 256 bytes of a hart's object; none where they do not translate. -/
def State.hartParts (s : State) (k : Hart) (o : Nat) (rd wr : Bool) : List (Nat × Nat) :=
  match (s.reach k.fn k.obj.toNat o 256 rd wr).1 with
  | .ok ps => ps
  | _ => []

/-- COLLECTIVE_DONE (R327, R336, R337, R450): the next 256 bytes of the results are written, from the
contributions in group order, once the channels serve the hart; after the last, result 0 and then
the done word with a release. Result 4 says that a peer is switched out: the command halts at this
boundary. With 2 or 3 a member was struck or a path lost, and the command is abandoned, as one that
waits at rendezvous is. -/
def execCollectiveDone (s : State) : Res? :=
  match s.ev with
  | .hart h _ _ peers result =>
    match s.harts[h]? with
    | none => .next s
    | some k =>
      if (k.waits || k.busy) && (result == 2 || result == 3) then .next (s.abandon h k result)
      else if !k.busy then .next s
      else if result = 4 then .next (s.updHart h { k with halted := true })
      else if k.halted || !s.ownerRuns k.fn then .next s
      else match s.collective k.fn k.obj.toNat with
        | none => .next s
        | some c =>
          match s.readObj k.fn k.obj.toNat c.src c.given with
          | none => .next s
          | some own =>
            let i := c.group.idxOf s.fabricId
            let l := peers.take i ++ [own] ++ (peers.drop i).take (c.p - 1 - i)
            let piece := ((c.result i l).drop k.pos).take 256
            let rd := match c.ownAt i k.pos with | some o => s.hartParts k o true false | none => []
            match s.serve k.fn (s.hartParts k (c.dst + k.pos) false true ++ rd) false with
            | none => .next s
            | some t => .next (t.arrayRead rd fun t =>
                let t := (t.writeObj k.fn k.obj.toNat (c.dst + k.pos) piece).getD t
                let k : Hart := { k with pos := k.pos + 256 }
                if c.taken ≤ k.pos then t.endCollective h k 0 else t.updHart h k)
  | _ => .next s

/-- COLLECTIVE_TIMEOUT (R450): a wait at rendezvous longer than the owner's limit abandons the
command with result 1. -/
def execCollectiveTimeout (s : State) : Res? :=
  match s.ev with
  | .hart h _ _ _ _ =>
    match s.harts[h]? with
    | none => .next s
    | some k => .next (if k.waits && decide ((s.fn k.fn).rdvLimit < k.waited) then s.abandon h k 1 else s)
  | _ => .next s

/-! ## The host link (R329, R446, R447) -/

/-- LINK_RETRY (R446): a link that keeps failing retrains to a narrower width or a lower
speed. -/
def execLinkRetry (s : State) : Res? :=
  match s.ev with
  | .link w v =>
    .next (if [16, 8, 4].contains w ∧ [128, 64, 32].contains v ∧ w ≤ s.linkWidth ∧ v ≤ s.linkSpeed then
      { s with linkWidth := w, linkSpeed := v } else s)
  | _ => .next s

/-- LINK_DOWN (R447): what the front end has for the host waits. -/
def execLinkDown (s : State) : Res? :=
  .next (if s.linkUp then { s with linkUp := false, linkDownFor := 0 } else s)

/-- A function is to be reset: all 32 of its queues are killed (R439). -/
def State.resetFn (s : State) (f : Nat) : State :=
  ((List.range 32).foldl (fun s q => s.askKill f q) s).updFn f fun fn => { fn with flr := true }

/-- LINK_DOWN_TIMEOUT (R447): a link down past the monitor's limit resets every virtual
function, and the device waits for the host to enumerate it. -/
def execLinkDownTimeout (s : State) : Res? :=
  if !s.linkUp && decide (s.linkLimit < s.linkDownFor) then
    let t := (List.range s.fns.length).foldl State.resetFn s
    .next { t with fns := t.fns.map fun (f : Fn) => ({ f with enabled := false } : Fn) }
  else .next s

/-- The link is back: the wait of a move is over, but of one that has waited longer than 2^30 cc
(R447). -/
def Core.linkBack (c : Core) : Core :=
  { c with bulks := c.bulks.map fun b => if b.packet.isSome && decide (b.held ≤ 2 ^ 30) then { b with held := 0 } else b }

/-- LINK_UP (R447): what has waited for the host flows, page requests and reclaim entries at once
and in order. -/
def execLinkUp (s : State) : Res? :=
  .next (if s.linkUp then s
    else
      let t : State := { s with linkUp := true, me := s.me.linkBack, others := s.others.map Core.linkBack }
      ((List.range s.fns.length).foldl State.writeRequests t).writeReclaims)

/-- HOST_ENUMERATION (R447, R452): the functions are presented again, but not in recovery
mode. -/
def execHostEnumeration (s : State) : Res? :=
  .next (if s.recovery || !s.linkUp then s
    else { s with fns := s.fns.map fun (f : Fn) => ({ f with enabled := true } : Fn) })

/-! ## The scale-up fabric (R333 to R335, R415, R448, R449) -/

/-- FABRIC_FLIT_RETRY (R448): a flit fails its CRC and is sent again, in order, up to 8 times; after
the eighth failure the port retrains before anything else. One that passes ends the count. -/
def execFabricFlitRetry (s : State) : Res? :=
  match s.ev with
  | .flit p ok => .next { s with resends := modAt s.resends p fun n => if 8 ≤ n then n else if ok then 0 else n + 1 }
  | _ => .next s

/-- FABRIC_RETRAIN (R335, R448, R449): after the eighth failure, each lane that fails its test, a bit
of the event's mask, is removed from its port. The monitor splits a port into sub-links of one lane for partitions of
owners marked privileged; and the paths beyond this module's ports come and go. -/
def execFabricRetrain (s : State) : Res? :=
  match s.ev with
  | .lanes p bad =>
    let lanes := fun (l : List Lane) => (l.zip (List.range 4)).map fun (x, i) => (⟨x.up && !bad.testBit i, x.part⟩ : Lane)
    .next (if s.resends.getD p 0 < 8 then s
      else { s with ports := modAt s.ports p lanes, resends := setAt s.resends p 0 })
  | .split p parts =>
    let ok := parts.length == 4 && parts.all fun x => (x.map fun o => (s.fn o).privileged).getD true
    let lanes := fun (l : List Lane) => (l.zip parts).map fun (x, o) => (⟨x.up, o⟩ : Lane)
    .next (if ok then { s with ports := modAt s.ports p lanes } else s)
  | .path h b => .next { s with cut := if b then s.cut.filter (· ≠ h) else h :: s.cut.filter (· ≠ h) }
  | _ => .next s

/-- The answer to a request of another module leaves (R310, R333). -/
def State.answerFabric (s : State) (i : Nat) (src : BitVec 9) (v : FabricVal) : State :=
  { s with fabricIn := dropAt s.fabricIn i, fabricOut := s.fabricOut ++ [(src, v)] }

/-- A request of another module is applied at HBM pieces of this one, and what it is answered
(R310). -/
def State.applyFabric (s : State) (x : FabricReq) (ps : List (Nat × Nat)) : State × FabricVal :=
  match x.op with
  | .read => (s, .data (partBytes s.hbm ps))
  | .write bs => (s.putHbm (spreadParts ps ((List.range x.size).map fun i => bs.getD i 0)), .ack)
  | .atomic op b exp =>
    let a := (ps.head?.map (·.1)).getD 0
    let r := atomOn s.hbm op a b exp
    (s.putHbm [(a, r.2)], .data (natBytes (atomSize op) r.1.toNat))

/-- The i-th request of other modules, when none of its module stands before it (R304, R334), is
walked under the owner's object table here: a fault is its answer, a miss asks this module's
ring and keeps its place, and otherwise it is applied when its channel serves it. -/
def State.fabricStep (s : State) (i : Nat) : State :=
  match s.fabricIn[i]? with
  | none => s
  | some x =>
    if (s.fabricIn.take i).any (·.src == x.src) then s
    else
      match (s.fabricWalk x).1 with
      | .fault c u v => s.answerFabric i x.src (.fault c u v)
      | .misses l =>
        let t := l.foldl (fun s (g, rd, wr) => s.request x.fn g rd wr) s
        { t with fabricIn := modAt t.fabricIn i fun y => { y with asked := l.map (·.1) } }
      | .ok ps =>
        match s.serve x.fn ps (match x.op with | .atomic _ _ _ => true | _ => false) with
        | none => s
        | some t =>
          let t : State := { t with hbm := (s.fabricWalk x).2.hbm }
          let go := fun (t : State) => let (t, v) := t.applyFabric x ps; t.answerFabric i x.src v
          if x.rights.1 then t.arrayRead ps go else go t

/-- FABRIC_REQUEST_ARRIVE (R310, R333, R334, R415): an access of another module joins those that
have arrived, and is applied in their order; one that waited is tried again. -/
def execFabricRequestArrive (s : State) : Res? :=
  match s.ev with
  | .fabric x =>
    .next ({ s with fabricIn := s.fabricIn ++ [{ x with asked := [], answered := [] }] }.fabricStep s.fabricIn.length)
  | .num i => .next (s.fabricStep i)
  | _ => .next s

/-- REMOTE_HOME_TIMEOUT (R432, R449): an access, a command or a request held for 2^28 cc for a home
module that no path reaches strikes its owner. -/
def execRemoteHomeTimeout (s : State) : Res? :=
  match s.ev with
  | .core id =>
    match s.core? id with
    | some c => .next (if decide (2 ^ 28 ≤ c.heldFor) then s.strike id.owner 0x06 else s)
    | none => .next s
  | .coreIdx id i =>
    match (s.core? id).bind (·.bulks[i]?) with
    | some b => .next (if b.packet.isNone && decide (2 ^ 28 ≤ b.held) then s.strike id.owner 0x06 else s)
    | none => .next s
  | .num k =>
    match s.homeOut[k]? with
    | some q => .next (if 2 ^ 28 ≤ q.held then s.strike q.src.owner 0x06 else s)
    | none => .next s
  | _ => .next s

/-! ## Bamind (R338 to R341, R451 to R453) -/

/-- Whether a plug-in of a function may be called (R338, R451). -/
def Plugin.callable (p : Plugin) : Bool := p.loaded && !p.stopped

/-- A value within limits. -/
def clampTo {n : Nat} (l : BitVec n × BitVec n) (v : BitVec n) : BitVec n :=
  if v.ult l.1 then l.1 else if l.2.ult v then l.2 else v

/-- The default policy of an owner: share 16, and the monitor's default slice, for which 0 stands
(R312, R451; notes/assumptions/74.md). -/
def Fn.defaultPolicy (fn : Fn) : Fn := { fn with share := 16, plugin := { fn.plugin with slice := 0 } }

/-- Whether a protection region permits an access of n bytes at a firmware-physical address
(R338). -/
def regionPermits (v : BitVec 64) (a n : Nat) (wr : Bool) : Bool :=
  let lsize := (v.extractLsb' 2 5).toNat
  let base := (v.extractLsb' 12 52).toNat * 2 ^ 12
  (if wr then v.getLsbD 1 else v.getLsbD 0) && decide (12 ≤ lsize) && decide (lsize ≤ 40) &&
  base % 2 ^ lsize == 0 && decide (base ≤ a) && decide (a + n ≤ base + 2 ^ lsize)

/-- Whether a level-0 access of a firmware core falls within one of its 16 regions (R338). -/
def State.permitted (s : State) (core a n : Nat) (wr : Bool) : Bool :=
  ((s.regionRegs.drop (16 * core)).take 16).any fun v => regionPermits v a n wr

/-- A call returns (R312, R338): the share and the slice, clamped to the monitor's limits. -/
def Fn.returned (fn : Fn) (share : BitVec 8) (slice : BitVec 64) : Fn :=
  { fn with
    share := clampTo fn.plugin.shares share
    plugin := { fn.plugin with slice := clampTo fn.plugin.slices slice, called := none } }

/-- Whether a plug-in is to be stopped: a breach, or 2^16 cc without its return (R451). -/
def Plugin.faulty (p : Plugin) : Bool := p.breach || (p.called.map fun x => decide (2 ^ 16 < x.2)).getD false

/-- PLUGIN_CALL (R312, R338, R451): the scheduler calls a plug-in on a firmware core that runs no
other, and the default policy is that of an owner whose plug-in is not called; or the call
returns, or breaches the protection regions of the core, which the monitor writes. -/
def execPluginCall (s : State) : Res? :=
  match s.ev with
  | .call f core =>
    .next (if !(s.fn f).plugin.callable then s.updFn f Fn.defaultPolicy
      else if s.fns.any (fun g => (g.plugin.called.map (·.1)) == some core) || (s.fn f).plugin.called.isSome then s
      else s.updFn f fun fn => { fn with plugin := { fn.plugin with called := some (core, 0) } })
  | .plugin f core share slice accs =>
    .next (if ((s.fn f).plugin.called.map (·.1)) ≠ some core ∨ (s.fn f).plugin.faulty then s
      else if accs.any fun (a, n, wr) => !s.permitted core a n wr then
        (s.updFn f fun fn => { fn with plugin := { fn.plugin with breach := true } }).due .pluginFault (.num f)
      else s.updFn f fun fn => fn.returned share slice)
  | .protect core k v =>
    .next (if core < 4 ∧ k < 16 then { s with regionRegs := setAt s.regionRegs (16 * core + k) (v &&& 0xFFFFFFFFFFFFF07F) } else s)
  | _ => .next s

/-- PLUGIN_FAULT (R451): after a breach of the protection regions, or with no return within 2^16
cc, the plug-in is stopped, the event logged, the default policy used. -/
def execPluginFault (s : State) : Res? :=
  match s.ev with
  | .num f =>
    .next (if (s.fn f).plugin.callable && (s.fn f).plugin.faulty then
      s.note.updFn f fun fn =>
        { fn with plugin := { fn.plugin with stopped := true, called := none, breach := false } }.defaultPolicy else s)
  | _ => .next s

/-- Whether an image is accepted under a pair of key hashes (R340, R452). -/
def Image.accepted (i : Image) (keys : BitVec 384 × BitVec 384) : Bool :=
  i.ecdsaOk && i.lmsOk && i.ecdsaKey == keys.1 && i.lmsKey == keys.2 && i.digest.isSome

/-- Whether a plug-in's image is accepted: under the fuses, or under the operator's keys (R340). -/
def State.acceptsPlugin (s : State) (i : Image) : Bool :=
  Image.accepted i s.fuses || (s.operatorKey.map (Image.accepted i)).getD false

/-- PLUGIN_LOAD (R338, R340, R451, R452): an accepted plug-in is loaded anew and measured, and the
monitor sets the protection regions of its firmware core; a rejected one is not loaded. -/
def execPluginLoad (s : State) : Res? :=
  match s.ev with
  | .image f i core regions =>
    .next (if s.acceptsPlugin i then
      { s.updFn f fun fn => { fn with plugin := { fn.plugin with loaded := true, stopped := false, called := none, breach := false } } with
        measures := s.measures ++ i.digest.toList
        regionRegs := s.regionRegs.take (16 * core) ++
          ((List.range 16).map fun k => regions.getD k 0 &&& 0xFFFFFFFFFFFFF07F) ++ s.regionRegs.drop (16 * core + 16) }
    else s.updFn f fun fn => { fn with plugin := { fn.plugin with loaded := false, called := none, breach := false } }.defaultPolicy)
  | _ => .next s

/-- A column as the boot's test leaves it: slot 8, when it is sound, runs the core of the first
slot that fails (R13). -/
def testedColumn (failed : List (Nat × Nat)) (k : Nat) : PhysCol where
  slots :=
    let bad := fun j => failed.contains (k, j)
    let first := (List.range 8).find? bad
    (List.range 8).map fun j => if some j = first ∧ !bad 8 then 8 else j
  failed := (List.range 9).filter fun j => failed.contains (k, j)
  residues := []
  log := []

/-- Positions with a column that a failed slot leaves without a core's place (R404). -/
def failingAt (cols : List PhysCol) : List Nat :=
  (List.range (cols.length / 4)).filter fun p => ((cols.drop (4 * p)).take 4).any fun c => c.broken.isSome

/-- A firmware core as a boot leaves it: it runs what the choice starts on it, the monitor at level 2,
the scheduler at level 1, when their images are accepted (R175, R338, R340; notes/assumptions/69.md). -/
def startedFirm (b : BootChoice) (mon ok : Bool) (k : Nat) : Core :=
  let c := Core.firmware k
  match b.starts.find? fun x => x.1 == k && (if x.2.1 then mon else ok) with
  | some (_, m, pc, bs) => { c with stopped := false, pc := pc, scr := c.scr.putBytes 0 bs, csr := { c.csr with level := if m then 2 else 1 } }
  | none => c

/-- DEVICE_RESET (R13, R14, R17, R30, R333, R340, R404, R452, R453): the boot ROM tests the columns
and verifies the monitor, the monitor verifies the scheduler and selects the configuration; a
fabric ID that is unassigned is none that firmware sets. In recovery mode the mint mailbox
reports the failed image, in a form that the spec does not give, a free value
(notes/assumptions/20.md). The LMS counter is never lowered. -/
def execDeviceReset (s : State) : Res? :=
  match s.ev with
  | .boot b =>
    let mon := Image.accepted b.monitor s.fuses
    let ok := mon && Image.accepted b.scheduler s.fuses
    let cols := (List.range 200).map (testedColumn b.failed)
    let (v, s) := if ok then (0, s) else s.draw
    .next (if 432 ≤ b.fabricId.toNat then s else { State.reset with
      others := (List.range 4).map (startedFirm b mon ok)
      config := b.config
      period := min (2 ^ 32) (max (2 ^ 24) b.period)
      purses := (List.range 200).map fun k => ⟨2 ^ 20, min 16 (b.rates.getD k 0), false⟩
      cols := cols
      failing := failingAt cols
      fabricId := b.fabricId
      fns := List.replicate 64 { Fn.reset with enabled := ok }
      measures := if mon then b.monitor.digest.toList ++ (if ok then b.scheduler.digest.toList else []) else []
      pf := { State.reset.pf with answer := v }
      recovery := !ok
      lms := s.lms
      fuses := s.fuses
      identity := s.identity
      host := s.host
      hostOut := s.hostOut
      fabricOut := s.fabricOut
      reports := s.reports
      operatorKey := s.operatorKey
      draws := s.draws
      auto := s.auto })
  | _ => .next s

/-- ATTESTATION_REQUEST (R341, R453): the counter advances before a signature is released; with
no index left the answer is an error, and when the counter write fails no report is signed. A report is made of the
measurement registers, the configuration, the turn period, the identity and the nonce. -/
def execAttestationRequest (s : State) : Res? :=
  match s.ev with
  | .nonce n counted =>
    .next (if s.lms < 2 ^ 20 then
      { s with
        lms := s.lms + 1
        reports := if counted then s.reports ++ [some ⟨s.measures, s.config, s.period, s.identity, n, s.lms⟩] else s.reports }
      else { s with reports := s.reports ++ [none] })
  | _ => .next s

/-- FUNCTION_LEVEL_RESET (R439): a function's queues are killed; its regions, objects and frames
are freed when every kill is complete. -/
def execFunctionLevelReset (s : State) : Res? :=
  match s.ev with
  | .num f => .next (s.resetFn f)
  | _ => .next s

/-- OPERATOR_KEY_ENROL (R340): the key pair with which plug-ins may be signed instead. -/
def execOperatorKeyEnrol (s : State) : Res? :=
  match s.ev with
  | .key k l => .next { s with operatorKey := some (k, l) }
  | _ => .next s

end Sys2Proof.Machine
end

