-- ==== Sys2Proof/Machine/Contain.lean ====
section
/-! DEFINITION. Containment: hardware errors in a core's step, strikes, rollback, launches that
are ended, kills and resets carried out (22_faults_machinery.md R385, R396 to R398, R403;
25_containment.md R434 to R440). Every service acts outside a turn's pause. -/

namespace Sys2Proof.Machine

open Sys2Proof

/-! ## Errors within a core's step (R397, R398, R403) -/

/-- A record about member i of the core in turn when it is composed, and about the core otherwise
(R396, R399). -/
def State.partRecord (s : State) (kind i store off : Nat) : State :=
  let id := s.me.id
  let col := (s.colOf id).getD (id.num % 256)
  if s.me.composed then s.record col (errorRecord kind i id.owner id.num col (s.slotOf (s.sibling i)) store off)
  else s.coreRecord kind id store off

/-- A slot with two residue records within a turn period has failed (R398): regions on its column
stop and are not resident until it is replaced (R403), and a column that no spare makes whole
makes its position failing (R404). -/
def State.failSlot (s : State) (k slot : Nat) : State :=
  let t := { s with cols := modAt s.cols k fun c => { c with failed := c.failed ++ [slot] } }
  let t := if ((t.cols[k]?).map PhysCol.lost).getD false then t.markFailing (k / 4) else t
  let hit := t.regions.filter fun r => r.resident && !r.blocked && (List.range (4 * r.pos)).any fun l => t.physCol r l == k
  hit.foldl (fun t r => (if r.preempt then t else t.haltRegion r.id).updRegion r.id.owner r.id.circ fun r =>
    { r with blocked := true }) t

/-- Where the block of the packet at the pc starts: at the packet itself, when it opens one (R152,
R228). -/
def State.blockNow (s : State) : Nat :=
  if s.me.blkLeft == 0 && isHblk (s.wordAt s.me.pc) then s.me.pc else s.me.blkAt

/-- A residue mismatch of the core in turn (R398): its owner is struck. In a composed core it is the
member's to which the block in hand goes (R228, R396). -/
def State.residue (s : State) : State :=
  let id := s.me.id
  let i := blockMember s.blockNow s.me.compN
  let t := (s.partRecord 0x05 i 3 0).strike id.owner 0x02
  match s.colOf id with
  | none => t
  | some k =>
    let slot := s.slotOf (if s.me.composed then s.sibling i else id)
    let again := ((s.cols[k]?).map fun c => c.residues.contains slot).getD false
    let t := { t with cols := modAt t.cols k fun c => { c with residues := c.residues ++ [slot] } }
    if again then (t.partRecord 0x09 i 3 0).failSlot k slot else t

/-- The errors in store for the core in turn come about (R396 to R398): register k of a composed
core lives at member k mod n, and its scratch lines at their members (R228). A cache entry that fails
its parity check is dropped (R418). -/
def State.serveErrors (s : State) : State :=
  s.hwErrors.foldl (init := { s with hwErrors := [] }) fun s e =>
    match e with
    | .residue => s.residue
    | .register k =>
      let i := k.toNat % s.me.compN
      let o := storeOffset (s.me.id.num + i) .reg ((if s.me.isMem then 0xA000 else 0x1A000) + 8 * k.toNat)
      (s.partRecord 0x04 i 0 (o / 8)).strike s.me.id.owner 0x01
    | .queued e => s.checkQueued s.me.id e
    | .cached true k => s.onMe fun c => { c with objCache := dropAt c.objCache k }
    | .cached false k => s.onMe fun c => { c with tlb := dropAt c.tlb k }
    | .stored .scratch o e => let (id, x) := s.holds o; s.checkWord id .scratch x e
    | .stored st o e => s.checkWord s.me.id st o e

/-! ## Strikes (R385, R436, R437) -/

/-- Messages to and from an owner's cores are dropped, and its requests to other modules with them
(R436, R437). -/
def State.dropMessages (s : State) (f : Nat) : State :=
  { s with net := s.net.filter fun m => m.src.owner ≠ f, homeOut := s.homeOut.filter fun q => q.src.owner ≠ f }

/-- Collective harts that serve an owner stop. -/
def State.dropHarts (s : State) (f : Nat) : State :=
  { s with harts := s.harts.map fun k => if (k.busy || k.waits) && k.fn == f then Hart.idle else k }

/-- A core of a checkpoint as it comes back: its caches are empty, and what waited for a reply of
the hypervisor asks again. -/
def Core.revive (c : Core) : Core :=
  { c with
    objCache := [], tlb := [], needs := [], asked := [], answered := [], ckpt := none, ahead := none
    homeHeld := none, homeAns := none, homeMissed := false, waitBack := (0, [], [], false), dirty := []
    bulks := c.bulks.map fun b => { b with waiting := none, answer := none } }

/-- Operations that a core holds and that the termination tree has not seen applied (R46). -/
def Core.parked (c : Core) : Nat :=
  c.waitList.length + (c.spill.filter fun x => match x with | .fe _ | .push _ => true | _ => false).length

/-- A region of a checkpoint as it comes back where it now stands (R436). -/
def Region.revive (r k : Region) (open_ : Nat) : Region :=
  { k with
    head := r.head, resident := r.resident, lastRes := r.lastRes, blocked := r.blocked, preempt := r.preempt
    missed := r.missed, lastPause := r.lastPause, started := r.started, inj := open_, ej := 0, wave := none
    ending := none }

/-- A queue after a rollback (R431, R434, R436): head and sseq go back, csq and ctail run on, and
the entry of status 1 with the recorded sseq follows what has been decided, on each queue; only a
kill that is in effect goes on. -/
def Queue.revive (k old : Queue) (cause : BitVec 8) : Queue :=
  if k.killing then k
  else { k with
    head := old.head, sseq := old.sseq, taken := old.taken
    rereads := 0, announced := k.announced || (!k.bound && old.head != k.prod && k.dw0.getLsbD 0)
    comps := k.comps ++ [⟨1, 0, 0, (cause ++ (0 : BitVec 40) ++ old.sseq : BitVec 64)⟩] }

/-- HBM with the frames that a checkpoint covers, and that the function still holds, as they
were. -/
def Checkpoint.restoreFrames (k : Checkpoint) (hbm : Memory) (frames : List Nat) : Memory :=
  let mine := fun (a : Nat) => k.covered.contains (a / 2 ^ 13) && frames.contains (a / 2 ^ 13)
  (k.frames.filter fun c => mine c.1).foldl (fun m (a, b) => m.put a b) (hbm.filter fun c => !mine c.1)

/-- A struck owner is rolled back to its checkpoint (R436): its contexts resume at the next
turn's resume. -/
def State.rollBackOwner (s : State) (f : Nat) (k : Checkpoint) (cause : BitVec 8) : State :=
  let t := (s.dropMessages f).dropHarts f
  let back := fun (c : Core) =>
    if c.id.owner = f then ((k.cores.find? (·.id == c.id)).map Core.revive).getD (Core.fresh c.id) else c
  let owed := k.owed.map fun (m : Msg) => ({ m with stamp := s.stamp } : Msg)
  let openOf := fun (id : RegionId) =>
    (owed.filter fun m => m.ofRegion id).length + ((k.cores.filter fun c => inRegion c.id id).map Core.parked).sum
  let region := fun (r : Region) =>
    match k.regions.find? fun q => q.id == r.id && q.pos == r.pos && q.mcs.length == r.mcs.length with
    | some q => if r.id.owner = f then r.revive q (openOf r.id) else r
    | none => r
  let t : State := { t with
    me := back t.me, others := t.others.map back, regions := t.regions.map region, net := t.net ++ owed
    homeOut := t.homeOut ++ k.far.map fun (q : HomeReq) => ({ q with held := 0 } : HomeReq)
    hbm := k.restoreFrames t.hbm (s.fn f).frames
    flaws := t.flaws.filter fun x => !(k.covered.contains (x.1 / 256) && (s.fn f).frames.contains (x.1 / 256))
    host := k.rings.foldl (fun m (a, b) => m.put a b) t.host }
  t.updFn f fun fn => { fn with
    queues := (fn.queues.zip k.queues).map fun (a, b) => a.revive b cause
    sems := k.sems, timers := k.timers, struck := none, rollback := true
    ckpt := fn.ckpt.map fun k => { k with copied := ⟨[], [], []⟩ } }

/-- A queue of an owner that is struck without a checkpoint (R437): what has been taken completes with
status 2, on a queue that is no longer live too; a kill that is in effect goes on. -/
def Queue.end_ (k : Queue) (cause : BitVec 8) : Queue :=
  if !k.killing then
    { k with
      comps := k.comps ++ k.taken.map fun t => ⟨2, t.type, t.sseq, (cause ++ (0 : BitVec 56) : BitVec 64)⟩
      taken := [], dw0 := k.dw0 &&& 0xFFFFFFFFFFFFFFFE, bound := false, announced := false, rereads := 0 }
  else k

/-- A struck owner without a checkpoint (R437): taken packets complete with status 2, queues are
disabled, and register spaces and scratch read zero at the next launch. -/
def State.endOwner (s : State) (f : Nat) (cause : BitVec 8) : State :=
  let t := (s.dropMessages f).dropHarts f
  let back := fun (c : Core) => if c.id.owner = f then Core.fresh c.id else c
  let region := fun (r : Region) =>
    if r.id.owner = f then
      ({ r with launch := none, wave := none, inj := 0, ej := 0, ending := none
                arrays := r.arrays.map fun _ => ⟨[], none⟩ } : Region)
    else r
  let t : State := { t with
    me := back t.me, others := t.others.map back, regions := t.regions.map region
    slots := t.slots.filter fun x => x.1 ≠ f || (s.queue x.1 x.2).killing }
  t.updFn f fun fn => { fn with queues := fn.queues.map fun k => k.end_ cause, struck := none }

/-- A strike is carried out (R385, R436, R437). -/
def State.serveStrike (s : State) (f : Nat) : State :=
  match (s.fn f).struck with
  | none => s
  | some cause =>
    match (s.fn f).ckpt with
    | some k => s.rollBackOwner f k cause
    | none => s.endOwner f cause

/-! ## Shadow frames (R435) -/

/-- Blocks of w bytes in which two memories differ. -/
def Memory.blocksApart (w : Nat) (m n : Memory) : List Nat :=
  ((m.filter fun c => !n.contains c) ++ (n.filter fun c => !m.contains c)).map fun c => c.1 / w

/-- What has been written of a core since its checkpoint: stripes that a write has reached, and the
state area when anything else of the core differs (R435). -/
def Core.sinceThen (d c : Core) : List (CoreId × Nat) :=
  let bare := fun (x : Core) => { x with vmem := [], scr := [], touched := [], dirty := [] }
  (d.dirty ++ if bare c = bare d then [] else [9]).map fun k => (d.id, k)

/-- More copies of a checkpoint: each of some keys once. -/
def joined {α : Type} [BEq α] (l new : List α) : List α := l ++ (new.filter fun x => !l.contains x).eraseDups

/-- The copies of an owner's checkpoint after this cc: a first write to a stripe or a frame that it
covers has copied it (R435). -/
def State.shadowed (s : State) (f : Nat) (k : Checkpoint) : Shadow where
  cores := joined k.copied.cores (k.cores.flatMap fun c => ((s.core? c.id).map fun d => d.sinceThen c).getD [])
  banks := joined k.copied.banks (k.regions.flatMap fun r =>
    ((s.region? r.id.owner r.id.circ).map fun q => q.bankDirty.map fun x => (r.id, x)).getD [])
  frames :=
    let now := s.hbm.filter fun c => k.covered.contains (c.1 / 2 ^ 13) && (s.fn f).frames.contains (c.1 / 2 ^ 13)
    joined k.copied.frames ((s.written.filter k.covered.contains) ++ Memory.blocksApart (2 ^ 13) k.frames now)

/-- Shadow frames are charged as they are taken; a checkpoint that cannot obtain one, beyond the
burstable count or with none free, is abandoned (R435). -/
def State.keepShadow (s : State) (f : Nat) : State :=
  match (s.fn f).ckpt with
  | none => s
  | some k =>
    let new := s.shadowed f k
    if (s.fn f).limit < (s.fn f).frames.length + new.size ∨ s.freeFrames + k.copied.size < new.size then
      s.updFn f fun fn => { fn with ckpt := none }
    else s.updFn f fun fn => { fn with ckpt := some { k with copied := new } }

/-! ## Launches that are ended (R438, R439) -/

/-- A launch is to end with a status and a detail; the first reason stands. -/
def State.endLaunch (s : State) (id : RegionId) (st : BitVec 4) (detail : BitVec 64) : State :=
  s.updRegion id.owner id.circ fun r => { r with ending := r.ending.or (some (st, detail)) }

/-- A core that has stopped at level 1 ends its region's launch with status 4 (R370, R438). -/
def State.serveStopped (s : State) : State :=
  (s.cores.filter (·.stopped)).foldl (init := s) fun s c =>
    s.endLaunch ⟨c.id.owner, c.id.circ⟩ 4
      (BitVec.ofNat 64 (c.id.num % 4096 * 2 ^ 16) ||| (c.csr.ecause &&& 0xFF).setWidth 64)

/-- Whether the work that a core has issued is over: writes landed, buffer drained, engines
stopped. -/
def State.coreDrained (s : State) (c : Core) : Bool :=
  c.pend.isEmpty && s.bufferDry c && !s.farOpen c && c.slice.isNone && c.hbmAcc.isEmpty &&
  !(s.homeOut.any fun q => q.src == c.id && q.op.value) &&
  c.bulks.all fun b => b.packet.isSome || b.record

/-- What remains of a core whose launch has been ended (R438): register space and scratch keep
their content, deques and spill areas are empty. -/
def Core.clear (c : Core) : Core :=
  { c with
    hiDeque := [], loDeque := [], hiSpill := [], loSpill := [], spill := [], waitList := [], running := none
    awaiting := false, sweep := 0, stopped := false, compo := .plain, binding := none, blk := false, bubble := 0
    vbusy := 0, sb := [], unacked := [], outs := [], score := [], bulks := c.bulks.filter (·.packet.isSome), product := none
    granted := false, atBarrier := none, onLatch := false, waited := 0, walks := [], ckpt := none, ahead := none, needs := []
    answered := [], asked := [], homeHeld := none, homeAns := none, homeMissed := false, farRows := []
    waitBack := (0, [], [], false), onTask := false, rowsOut := [], blkLeft := 0, issue := Issue.idle }

/-- A launch that is being ended completes once its region's buffers have drained (R438). -/
def State.serveEnding (s : State) (r : Region) : State :=
  match r.ending with
  | none => s
  | some (st, detail) =>
    let ids := s.coresOf r.id
    let dry := r.resident && ids.all (fun id => ((s.core? id).map s.coreDrained).getD true) &&
      !(s.net.any fun m => m.ofRegion r.id) && r.arrays.all fun a => a.run.isNone
    if dry then
      let t := ids.foldl (fun s id => s.updCore id Core.clear) s
      let t := t.updRegion r.id.owner r.id.circ fun q =>
        { q with launch := none, ending := none, wave := none, inj := 0, ej := 0
                 arrays := q.arrays.map fun _ => ⟨[], none⟩ }
      match r.launch with
      | some l => t.complete r.id.owner l.q l.sseq 1 st detail
      | none => t
    else s

/-! ## Kills and resets (R439) -/

/-- A taken packet of a killed queue: it completes with status 3, a running launch is ended, a
move stops at its next granule point, a BARRIER completes after what is before it (R317). -/
def State.killPacket (s : State) (f q : Nat) (t : Taken) : State :=
  let k := s.queue f q
  match s.moveOf f q t.sseq with
  | some (id, i, b) => if b.record || b.count % 2 ^ b.gran.toNat == 0 then s.endMove f q t.sseq id i b 3 0 else s
  | none =>
    if t.type == 7 && !(k.taken.takeWhile fun u => u.sseq != t.sseq).isEmpty then s else
    let runs := t.type == 1 && t.launch.isNone &&
      ((s.region? f k.circ).bind (·.launch)).map (fun l => (l.q, l.sseq)) == some (q, t.sseq)
    if runs then s.endLaunch ⟨f, k.circ⟩ 3 0 else s.complete f q t.sseq t.type 3 0

/-- A kill is carried out; when every entry has been written the last one follows, and en is
clear (R439). -/
def State.serveKill (s : State) (f q : Nat) : State :=
  let k := s.queue f q
  if !k.killing then s
  else if k.taken.isEmpty && k.comps.isEmpty then
    s.updQueue f q fun k => { k with
      killing := false, dw0 := k.dw0 &&& 0xFFFFFFFFFFFFFFFE, comps := [⟨3, 0, 0, 0⟩] }
  else k.taken.foldl (fun s t => s.killPacket f q t) s

/-- A function-level reset ends when its kills are complete: regions, objects and frames are
free (R439). -/
def State.serveReset (s : State) (f : Nat) : State :=
  if (s.fn f).flr && (s.fn f).queues.all fun k => !k.killing && !k.killAsked then
    let t := (s.regions.filter fun r => r.id.owner = f).foldl (fun s r => s.dropRegion r.id) s
    let t := (t.dropHarts f).updFn f fun fn => { fn with
      flr := false, objCount := 0, frames := [], window := none, ckpt := none, reqs := [], reqQueue := [] }
    { t with reqOrder := t.reqOrder.filter (· ≠ f) }
  else s

/-- Kills that have landed in a pause or a rollback take effect (R439). -/
def State.dueKills (s : State) (f : Nat) : State :=
  (List.range 32).foldl (fun s q => if (s.queue f q).killAsked then s.killQueue f q else s) s

/-- What containment has to do for a function (R385, R434 to R440). -/
def State.contain (s : State) (f : Nat) : State :=
  let fn := s.fn f
  let s := if fn.struck.isSome then s.serveStrike f else s
  let s := if fn.ckpt.isSome then s.keepShadow f else s
  let s := if fn.rollback then s else (List.range 32).foldl (fun s q => s.serveKill f q) (s.dueKills f)
  s.serveReset f

/-- The services of containment, outside a pause. -/
def State.containAll (s : State) : State :=
  if s.paused then s
  else
    let s := s.serveStopped
    let s := s.regions.foldl (fun s r => s.serveEnding r) s
    let busy := fun (f : Nat) =>
      let fn := s.fn f
      fn.struck.isSome || fn.ckpt.isSome || fn.flr || fn.queues.any fun k => k.killing || k.killAsked
    { ((List.range s.fns.length).filter busy).foldl State.contain s with written := [] }

end Sys2Proof.Machine
end

