-- ==== Sys2Proof/Machine/Clock.lean ====
section
/-! DEFINITION. The end of a cc: counters advance, purses refill, writes land
(02_execution_model.md R38, 06_encoding.md R135, 14_scheduling.md R326), and the steps
that become due are put on the agenda. -/

namespace Sys2Proof.Machine

open Sys2Proof

/-- The turn passes to the next core (model's own order). -/
def State.rotate (s : State) : State :=
  match s.others with
  | [] => s
  | c :: l => { s with me := c, others := l ++ [s.me] }

/-! ## Steps of the joint arrays within a cc (R263, R264, R393, R394) -/

/-- The step that a column's array owes in this cc, if any: a mismatch, gangs that are complete or
no longer so, a start, a watchdog. -/
def State.columnStep (s : State) (l : ColId) : Option (Instr × EvArg) :=
  let ids := (List.range 8).map (ColId.coreAt l)
  let waits := ids.filter fun id => ((s.core? id).bind (·.atBarrier)).isSome
  let q := (s.array l).queue
  if waits.isEmpty && q.isEmpty then none
  else
    let ready := s.completeGangs l
    let wrong := (List.range 8).any fun j => ((s.waiting l j).bind (s.mismatch l)).isSome
    if wrong then some (.gangMismatch, .col l)
    else if q.any (fun m => !ready.contains m) || ready.any (fun m => !q.contains m) then some (.gangBarrier, .col l)
    else if (s.startable l).isSome then some (.arrayStart, .col l)
    else (waits.find? fun id => ((s.core? id).map fun c => decide ((s.fn id.owner).wdLimit < c.waited)).getD false).map
      fun id => (.watchdog, .core id)

/-- Whether a region works in this cc (R31, R38, R48). -/
def State.works (s : State) (r : Region) : Bool := s.phase == .run && r.resident && !r.preempt && !r.blocked

/-- The steps that the arrays owe before the cc ends. -/
def State.arraySteps (s : State) : List (Instr × EvArg) :=
  (s.regions.filter s.works).flatMap fun r => r.colIds.filterMap s.columnStep

/-! ## One cc (R38, R135, R268, R270, R326) -/

/-- Whether a region's engines move in this cc, and whether they are to stop (R31, R48). -/
def State.engineMode (s : State) (r : Region) : Bool × Bool :=
  ((s.phase == .run || s.phase == .announce) && r.resident && !r.blocked, s.phase == .announce || r.preempt)

/-- One cc of a region's arrays and slice paths. -/
def State.tickEngines (s : State) (r : Region) : State :=
  let (on, stop) := s.engineMode r
  if !on then s
  else
    let arrays := r.colIds.map fun l =>
      let a := s.array l
      match a.run with
      | some x => if stop && s.arrayStopped l then a else { a with run := some { x with ends := x.ends - 1 } }
      | none => a
    let ids := (s.coresOf r.id).filter fun id =>
      match s.core? id with
      | some c => c.slice.isSome && !(stop && c.sliceStopped)
      | none => false
    ids.foldl State.tickSlice (s.updRegion r.id.owner r.id.circ fun r => { r with arrays := arrays })

/-- Whether a command waits for a module that no path reaches (R449). -/
def State.cutOff (s : State) (owner : Nat) (b : Bulk) : Bool :=
  let far := fun (x : Side) => match x with
    | .hbm k => k.home != s.fabricId && !s.reaches owner k.home
    | _ => false
  b.packet.isNone && (far b.src || far b.dst)

/-- One cc of a core: writes land, spilled arrivals that may apply do, and waits are counted. -/
def State.tickCore (s : State) (c : Core) : Core :=
  let region := s.region? c.id.owner c.id.circ
  let on := (region.map s.works).getD false
  let c := c.tick
  let c := if on && !c.spill.isEmpty then c.drainSpill else c
  { c with
    waited := if on && c.atBarrier.isSome then c.waited + 1 else c.waited
    homeHeld := c.homeHeld.map fun (h, n) => (h, if s.reaches c.id.owner h then n else n + 1)
    bulks := c.bulks.map fun b =>
      if (b.packet.isSome && !s.linkUp) || s.cutOff c.id.owner b then { b with held := b.held + 1 } else b }

/-- One cc of a function: idle counts of its queues, ages of its requests, and the call of its
plug-in (R320, R411, R451). -/
def State.tickFn (s : State) (i : Nat) (f : Fn) : Fn :=
  { f with
    queues := f.queues.map fun k => if k.bound then { k with idle := if s.resting i k then k.idle + 1 else 0 } else k
    plugin := { f.plugin with called := f.plugin.called.map fun (c, n) => (c, n + 1) }
    reqs := f.reqs.map fun r => if r.written then { r with age := r.age + 1 } else r }

/-- Rows that composed cores have written reach the members' scratch (R65, R237, R250). -/
def State.flushRows (s : State) : State :=
  (s.cores.filter fun c => !c.rowsOut.isEmpty).foldl (init := s) fun s c => s.onCore c.id fun s =>
    (c.rowsOut.foldl (fun s (o, bs) => s.scrPut o bs) s).onMe fun c => { c with rowsOut := [] }

/-- One cc passes (R30, R38, R326, R327, R359, R447, R449, R450). -/
def State.tick (s : State) : State :=
  let s := s.regions.foldl State.tickEngines s
  let n := s.cyc.toNat
  let t : State := { s with
    me := s.tickCore s.me
    others := s.others.map s.tickCore
    regions := s.regions.map fun (r : Region) =>
      if s.works r && !(s.fn r.id.owner).rollback then ({ r with ocyc := r.ocyc + 1 } : Region) else r
    fns := (s.fns.zip (List.range s.fns.length)).map fun (f, i) => s.tickFn i f
    purses := s.purses.map Purse.refill
    cyc := s.cyc + 1
    devtime := s.devtime + BitVec.ofNat 64 ((n + 1) * 2 / 5 - n * 2 / 5)
    turnDue := s.turnDue || (n + 1) % s.period == 0
    moveFor := if s.phase = .move then s.moveFor - 1 else s.moveFor
    takeWait := s.takeWait - 1
    linkDownFor := if s.linkUp then s.linkDownFor else s.linkDownFor + 1
    homeOut := s.homeOut.map fun (q : HomeReq) =>
      if s.reaches q.src.owner q.home then q else ({ q with held := q.held + 1 } : HomeReq)
    harts := s.harts.map fun (k : Hart) =>
      if k.waits && s.ownerRuns k.fn then ({ k with waited := k.waited + 1 } : Hart) else k }
  let t := t.flushRows.growStripes
  if (n + 1) % 1024 = 0 then t.newWindow else t

/-! ## The steps that engines and the front end take by themselves (notes/assumptions/25.md) -/

/-- A list of one step when it is enabled. -/
def when_ (b : Bool) (i : Instr) (a : EvArg) : List (Instr × EvArg) := if b then [(i, a)] else []

/-- Completions of arrays and slice paths, whose cc the spec gives (R268, R270). -/
def State.completions (s : State) : List (Instr × EvArg) :=
  s.regions.flatMap fun r =>
    if !(s.engineMode r).1 then []
    else
      (r.colIds.flatMap fun l => when_ (((s.array l).run.map (·.ends)) == some 0) .arrayComplete (.col l)) ++
      (s.coresOf r.id).flatMap fun id =>
        match (s.core? id).bind (·.slice) with
        | some k => when_ (k.dst.isNone && k.rows.isEmpty && k.ends == 0) .sliceComplete (.core id)
        | none => []

/-- The next step of a bulk command. -/
def bulkStep (id : CoreId) (i : Nat) (b : Bulk) : List (Instr × EvArg) :=
  if b.spent then []
  else if !b.started then [(.bulkCommandStart, .coreIdx id i)]
  else if b.record then when_ b.answer.isSome .bulkRecordResume (.coreIdx id i)
  else match b.kind with
    | .bcopy | .tload | .tstore => [(.bulkBeat, .coreIdx id i)]
    | .hship => [(.hshipBeat, .coreIdx id i)]
    | .hpull => [(.hpullBeat, .coreIdx id i)]
    | .bgemv => [(.bgemvBeat, .coreIdx id i)]
    | .hostLoad | .hostStore =>
      match b.packet with
      | some (f, q, sseq, _) =>
        if b.beats.isEmpty then [(.loadStoreComplete, .packet f q sseq)]
        else when_ (decide (2 ^ 30 < b.held)) .loadStoreLinkTimeout (.packet f q sseq) ++ [(.bulkBeat, .coreIdx id i)]
      | none => []

/-- Whether a command is a copy hart's, with a beat to move. -/
def Bulk.copies (b : Bulk) : Bool :=
  (b.kind == .bcopy || b.kind == .tload || b.kind == .tstore) && b.started && !b.record && !b.beats.isEmpty

/-- Whether a command reads or writes the bank of a logical column. -/
def Bulk.atBank (b : Bulk) (l : Nat) : Bool := b.src == .bank l || b.dst == .bank l

/-- Whether a column's copy hart serves a core in this cc: round-robin among the cores that have
beats to move, the one whose turn lies furthest back (R211). -/
def State.served (s : State) (c : Core) : Bool :=
  s.cores.all fun d =>
    !(d.id.owner == c.id.owner && d.id.circ == c.id.circ && d.id.num / 8 == c.id.num / 8 && d.bulks.any Bulk.copies) ||
    decide (c.copyAt < d.copyAt) || (c.copyAt == d.copyAt && decide (c.id.num ≤ d.id.num))

/-- Whether remote operations wait at the bank of a logical column of a region (R325). -/
def State.bankAsked (s : State) (owner circ l : Nat) : Bool :=
  s.net.any fun m => m.dst == .bank l && m.src.owner == owner && m.src.circ == circ

/-- Whether copy-hart beats wait there. -/
def State.bankCopied (s : State) (owner circ l : Nat) : Bool :=
  s.cores.any fun c => c.id.owner == owner && c.id.circ == circ && c.bulks.any fun b => b.copies && b.atBank l

/-- Whether a command's beat has its turn: its copy hart serves its core, and a bank hart gives
beats every other cc while remote operations wait too (R211, R325). -/
def State.beatTurn (s : State) (c : Core) (b : Bulk) : Bool :=
  !b.copies || (s.served c && (s.cyc.getLsbD 0 ||
    !([b.src, b.dst].any fun x => match x with | .bank l => s.bankAsked c.id.owner c.id.circ l | _ => false)))

/-- A core that its copy hart serves in this cc has had its turn (R211). -/
def State.turned (s : State) (c : Core) : Core :=
  if c.bulks.any fun b => b.copies && s.beatTurn c b then { c with copyAt := s.cyc.toNat + 1 } else c

/-- Steps of a core's engines. -/
def State.coreSteps (s : State) (c : Core) : List (Instr × EvArg) :=
  let region := s.region? c.id.owner c.id.circ
  let work := s.cores.any fun d => d.id.owner == c.id.owner && d.id.circ == c.id.circ && !d.isMem && d.hasWork
  (((List.range c.bulks.length).reverse).flatMap fun i =>
    match c.bulks[i]? with
    | some b => (if s.beatTurn c b then bulkStep c.id i b else []) ++ when_ (b.packet.isNone && decide (2 ^ 28 ≤ b.held)) .remoteHomeTimeout (.coreIdx c.id i)
    | none => []) ++
  when_ (c.spill.any fun y => match y with | .push _ => true | _ => false) .setAsidePushApply (.core c.id) ++
  when_ c.binding.isSome .composeBind (.core c.id) ++
  when_ (work && s.mayIssue c && c.free && !c.hasWork && !c.isMem && (region.bind (·.launch)).isSome) .stealProbe (.core c.id) ++
  when_ (s.flows && !c.hbmAcc.isEmpty) .hbmReadReply (.read c.id .clean) ++
  when_ (!c.hbmWr.isEmpty) .hbmWriteArrive (.coreIdx c.id 0) ++
  when_ (!c.walks.isEmpty && c.needs.isEmpty && c.ahead.isNone) .translationResolved (.core c.id) ++
  when_ c.repliesIn .checkpointReissue (.core c.id) ++
  when_ (s.unstopped c.id && c.wakes) .mdrainrWake (.core c.id) ++
  when_ (decide (2 ^ 28 ≤ c.heldFor)) .remoteHomeTimeout (.core c.id)

/-- The event that applies a message (R47, R75). -/
def Msg.step (m : Msg) : Instr :=
  match m.op with
  | .store _ _ => match m.dst with | .bank _ => .bankOpApply | _ => .remoteStoreApply
  | .load _ _ _ _ => match m.dst with | .bank _ => .bankOpApply | _ => .remoteLoadApply
  | .atomic _ _ _ _ _ => match m.dst with | .bank _ => .bankOpApply | _ => .atomicApply
  | .beat _ _ _ | .state _ _ | .deliver _ _ _ _ => .remoteStoreApply
  | .ldfe _ _ | .stfe _ _ => .feRemoteApply
  | .deposit _ _ | .depositX _ _ => .depositApply
  | .capDeposit _ _ => .capDepositApply
  | .message _ _ => .messageApply
  | .signal _ _ => .signalApply
  | .credit _ _ => .ringCreditArrive
  | .fill _ _ => .ringFillArrive
  | .steal => .stealRequestApply
  | .stealReply _ => .stealReply
  | .reply _ _ => .remoteLoadReply
  | .ack _ => .remoteAck

/-- Whether a message has its turn: a bank hart gives remote operations every other cc while
copy-hart beats wait too (R325). -/
def State.msgTurn (s : State) (m : Msg) : Bool :=
  match m.dst with
  | .bank l => !s.cyc.getLsbD 0 || !s.bankCopied m.src.owner m.src.circ l
  | _ => true

/-- Messages that may move, the last first, so that places stay as they are. -/
def State.netSteps (s : State) : List (Instr × EvArg) :=
  ((List.range s.net.length).reverse).flatMap fun k =>
    match s.msg? k with
    | none => []
    | some m => if m.stamp = s.stamp then when_ (s.flows && s.msgTurn m) m.step (.msg k) else [(.resultForward, .msg k)]

/-- Steps of the front end for a function. -/
def State.fnSteps (s : State) (f : Nat) : List (Instr × EvArg) :=
  let fn := s.fn f
  ((List.range fn.queues.length).flatMap fun q =>
    match fn.queues[q]? with
    | none => []
    | some k =>
      when_ (!k.comps.isEmpty) .completionWrite (.fq f q) ++
      when_ (k.bound && s.resting f k && decide (4096 ≤ k.idle)) .mapperEvict (.fq f q) ++
      when_ (k.rereads != 0 && decide (k.rereadAt ≤ s.devtime.toNat)) .headerReread (.fq f q) ++
      k.taken.flatMap fun t =>
        when_ t.launch.isSome .launchStart (.fq f q) ++
        when_ t.wait.isSome .waitComplete (.packet f q t.sseq) ++
        when_ (t.type == 7) .barrierComplete (.packet f q t.sseq)) ++
  (fn.reqs.flatMap fun r => when_ (r.written && decide (fn.replyLimit < r.age)) .pageRequestTimeout (.tag f r.tag)) ++
  when_ fn.inval.isSome .invalidateDone (.num f) ++
  when_ fn.plugin.faulty .pluginFault (.num f)

/-- Whether a function has anything for the front end to do. -/
def Fn.busy (f : Fn) : Bool :=
  f.queues.any (fun k => !k.comps.isEmpty || k.bound || k.announced || !k.taken.isEmpty) || !f.reqQueue.isEmpty ||
  !f.reqs.isEmpty || f.inval.isSome || f.plugin.called.isSome

/-- Steps of the turn and of switches (R31, R48, R50). -/
def State.turnSteps (s : State) : List (Instr × EvArg) :=
  (match s.phase with
   | .run => when_ s.turnDue .turnAnnounce .none
   | .announce => [(.turnDrain, .none)]
   | .drain => [(.turnMove, .none)]
   | .move => when_ (s.moveFor == 0) .turnRemap .none
   | .remap => [(.turnResume, .none)]) ++
  ((s.regions.filter fun r => r.resident && r.preempt).map fun r => (.preempt, .region r.id)) ++
  when_ (!s.openSwitches.isEmpty) .preempt .none ++
  (s.switching.map fun x => (.contextRestore, .region x.2))

/-- Local stores leave before anything else of a cc acts on scratch, and operations that are parked
are tried before new ones arrive (R135, R189, R193, R198, R199). -/
def State.localSteps (s : State) : List (Instr × EvArg) :=
  if !s.flows then []
  else
    (s.cores.flatMap fun c => when_ ((c.sb.head?.map c.mayExit) == some true) .storeBufferExit (.core c.id)) ++
    s.cores.flatMap fun c => when_ (!c.parkedFe.isEmpty) .feParkedRetry (.core c.id)

/-- Steps of the front end: a timer release comes before a SIGNAL of the same cc, and WAITs after
both (R317). -/
def State.frontSteps (s : State) : List (Instr × EvArg) :=
  when_ (decide (s.wheelTick < s.devtime.toNat / 250)) .timerTick .none ++
  when_ (s.takeWait == 0 && !s.slots.isEmpty) .packetTake .none ++
  (((List.range s.fns.length).filter fun f => (s.fn f).busy).flatMap s.fnSteps) ++
  s.reqOrder.map (fun f => (.pageRequestDequeue, .num f)) ++
  when_ s.pf.inval.isSome .invalidateDone (.num 64) ++
  when_ (s.fns.any fun f => f.queues.any (·.announced)) .mapperBind .none

/-- Steps of the fabric: requests of other modules that do not wait for a reply, and requests of
this one held too long (R310, R449). -/
def State.fabricSteps (s : State) : List (Instr × EvArg) :=
  (((List.range s.fabricIn.length).reverse).flatMap fun i =>
    when_ (((s.fabricIn[i]?).map fun x => x.asked.all fun g => x.answered.any (·.1 == g)).getD false)
      .fabricRequestArrive (.num i)) ++
  (List.range s.homeOut.length).flatMap fun k =>
    when_ (((s.homeOut[k]?).map fun q => decide (2 ^ 28 ≤ q.held)).getD false) .remoteHomeTimeout (.num k)

/-- The steps that every unit would take next, one of each (notes/assumptions/25.md). -/
def State.ownSteps (s : State) : List (Instr × EvArg) :=
  s.turnSteps ++ s.localSteps ++ s.netSteps ++
  (s.cores.flatMap s.coreSteps) ++
  (s.regions.flatMap fun r => when_ (r.launch.isSome && s.phase == .run) .terminationWave (.region r.id)) ++
  s.frontSteps ++ s.fabricSteps ++
  (((List.range s.harts.length).filter fun h =>
    ((s.harts[h]?).map fun k => k.waits && decide ((s.fn k.fn).rdvLimit < k.waited)).getD false).map fun h =>
      (.collectiveTimeout, .hart h 0 0 [] 0)) ++
  when_ (!s.linkUp && decide (s.linkLimit < s.linkDownFor)) .linkDownTimeout .none

/-- The end of a cc (notes/assumptions/25.md): what the arrays owe comes first, in the same cc;
then the cc passes, containment acts, and the units' own steps are due. -/
def State.endCycle (s : State) : State :=
  match s.arraySteps with
  | [] =>
    let t := s.tick.containAll
    if t.auto then
      { t with agenda := t.completions ++ t.ownSteps, me := t.turned t.me, others := t.others.map t.turned }
    else { t with agenda := t.completions }
  | l => { s with agenda := l }

end Sys2Proof.Machine
end

