-- ==== Sys2Proof/Machine/Entries.lean ====
section
/-! DEFINITION. Entries that the hardware makes by itself: exceptions of a fetched packet,
the owner timer, deferred causes (07_scalar_control.md R179; 21_faults_instructions.md
R365, R373 to R375; 22_faults_machinery.md R387), and the interlocked division's result
(R164). -/

namespace Sys2Proof.Machine

open Sys2Proof

/-- ILLEGAL_INSTRUCTION (R373): class 0x12. -/
def execIllegalInstruction (s : State) : Res? :=
  match s.ev with
  | .illegal mj sub reg => .next (s.raise ⟨0x12, sub, reg, 0, mj⟩)
  | _ => .next s

/-- PACKET_RULE_VIOLATION (R374): class 0x11 at the lowest word at which a rule is broken. -/
def execPacketRuleViolation (s : State) : Res? :=
  match s.ev with
  | .rule sub word =>
    .next ((s.onMe fun c => { c with issue := { c.issue with word := word } }).raise ⟨0x11, sub, 0, 0, 0⟩)
  | _ => .next s

/-- FETCH_FAULT (R375): class 0x10, or class 0x14 sub 6 in a composed core (R232). -/
def execFetchFault (s : State) : Res? :=
  if s.me.composed then .next (s.raise ⟨0x14, 6, 0, 0, 0⟩)
  else .next (s.raise ⟨0x10, 1, 0, BitVec.ofNat 48 s.me.pc, 0⟩)

/-- An entry at the boundary in front of the packet at pc, from a cause that is none of its
words (R177): pending writes are captured. -/
def Core.enterHere (c : Core) (cls : BitVec 8) (info : BitVec 64) : Core := (c.capture 0).enter cls 0 info

/-- OWNER_TIMER (R179): at a level-0 boundary with `ocyc` at or past `ocmp.when`; entry
clears `ocmp.en`. -/
def execOwnerTimer (s : State) : Res? :=
  let due := s.me.csr.level == 0 && s.me.csr.ocmp.getLsbD 63 &&
    decide ((s.me.csr.ocmp.setWidth 63).toNat ≤ (s.csr .ocyc).toNat)
  if due && s.me.ahead.isNone && s.me.running.isSome && !s.me.owesRemote then
    .next (s.onMe fun c =>
      let c := c.enterHere 0x03 0
      { c with csr := { c.csr with ocmp := c.csr.ocmp &&& 0x7FFFFFFFFFFFFFFF } })
  else .next s

/-- The rank of a deferred cause in the order in which they are taken (R387, R414). -/
def Deferred.rank : Deferred → Nat
  | .matrix _ _ _ => 1
  | .overrun _ _ => 2
  | .dequeFull _ => 3
  | .underflow _ _ => 4
  | .memory _ => 5

/-- The exception that a deferred cause reports (R368, R376, R386, R414). -/
def Deferred.exc : Deferred → Exc
  | .matrix reg row sub => ⟨0x1E, sub, reg, row, 0⟩
  | .overrun k src => ⟨0x1D, 0, k.setWidth 6, src.setWidth 48, 0⟩
  | .dequeFull src => ⟨0x21, 2, 0, src.setWidth 48, 0⟩
  | .underflow tcb src => ⟨0x24, 0, 0, (src ++ (0 : BitVec 1) ++ tcb).setWidth 48, 0⟩
  | .memory e => { e with mj := 0 }

/-- The deferred cause that is taken first, and the rest. -/
def firstDeferred (l : List Deferred) : Option (Deferred × List Deferred) :=
  match [1, 2, 3, 4, 5].findSome? fun r => l.find? fun d => d.rank == r with
  | none => none
  | some d => some (d, l.erase d)

/-- DEFERRED_CAUSE_ENTRY (R365, R387): the first pending cause is taken at a level-0
boundary; the code of `ecause` and the word index are 0. -/
def execDeferredCauseEntry (s : State) : Res? :=
  match firstDeferred s.me.deferred with
  | none => .next s
  | some (d, l) =>
    if s.me.csr.level = 0 ∧ s.me.ahead.isNone ∧ s.me.running.isSome ∧ s.me.owesRemote = false then
      let e := d.exc
      .next (s.onMe fun c => { c with deferred := l }.enterHere e.cls (e.info 0))
    else .next s

/-- DIVISION_COMPLETE (R164): an interlocked division's result lands before its bound. -/
def execDivisionComplete (s : State) : Res? :=
  match s.ev with
  | .division id rd =>
    .next (s.updCore id fun c =>
      match c.outs.find? fun o => o.kind == .division && o.rd == rd with
      | none => c
      | some o => { c.landG rd o.v o.seq with outs := c.outs.erase o })
  | _ => .next s

end Sys2Proof.Machine
end

