-- ==== Sys2Proof/Machine/Hints.lean ====
section
/-! DEFINITION. Hint words (06_encoding.md R150 to R154): a hint leaves its payload for the
word it attaches to, in the packet that the core has in hand. -/

namespace Sys2Proof.Machine

open Sys2Proof

/-- Change the packet that the core in turn has in hand. -/
def State.onIssue (s : State) (f : Issue → Issue) : State := s.onMe fun c => { c with issue := f c.issue }

/-- `hwimm` (R151): widens the immediate of the word it attaches to. -/
def execHwimm (p : BitVec 24) (s : State) : Res? := .next (s.onIssue fun i => { i with hw := i.hw ++ [p] })

/-- `hblk` (R152, R228): in a composed core it opens a block of its length at its packet, unless
the packet lies within the length of the block in hand; a plain core has no effect of it. -/
def execHblk (l : BitVec 4) (s : State) : Res? :=
  .next (s.onMe fun c =>
    if c.composed && c.blkLeft == 0 then { c with blk := false, blkAt := c.issue.fst, blkLeft := l.toNat + 1 }
    else { c with blk := false })

/-- `hgran` (R153): sets the split granule of the word it attaches to. -/
def execHgran (g : BitVec 3) (s : State) : Res? := .next (s.onIssue fun i => { i with gran := some g })

/-- `hrm` (R154): sets the rounding mode of the word it attaches to. -/
def execHrm (r : RMode) (s : State) : Res? := .next (s.onIssue fun i => { i with hrm := some r })

end Sys2Proof.Machine
end

