-- ==== Sys2Proof/Machine/Dispatch.lean ====
section
/-! DEFINITION. The dispatch of every instruction and event of `Instr` to its meaning. -/

namespace Sys2Proof.Machine

open Sys2Proof

/-- The meaning of an instruction or event in a state. -/
def exec (i : Instr) (s : State) : Host.Outcome State Fault Refusal :=
  match i with
  | .add rd ra rb => Sys2Proof.Machine.execAdd rd ra rb s
  | .sub rd ra rb => Sys2Proof.Machine.execSub rd ra rb s
  | .and rd ra rb => Sys2Proof.Machine.execAnd rd ra rb s
  | .or rd ra rb => Sys2Proof.Machine.execOr rd ra rb s
  | .xor rd ra rb => Sys2Proof.Machine.execXor rd ra rb s
  | .shl rd ra rb => Sys2Proof.Machine.execShl rd ra rb s
  | .shr rd ra rb => Sys2Proof.Machine.execShr rd ra rb s
  | .sra rd ra rb => Sys2Proof.Machine.execSra rd ra rb s
  | .mul rd ra rb => Sys2Proof.Machine.execMul rd ra rb s
  | .mulh rd ra rb => Sys2Proof.Machine.execMulh rd ra rb s
  | .mulhn rd ra rb => Sys2Proof.Machine.execMulhn rd ra rb s
  | .div rd ra rb => Sys2Proof.Machine.execDiv rd ra rb s
  | .divn rd ra rb => Sys2Proof.Machine.execDivn rd ra rb s
  | .rem rd ra rb => Sys2Proof.Machine.execRem rd ra rb s
  | .remn rd ra rb => Sys2Proof.Machine.execRemn rd ra rb s
  | .min rd ra rb => Sys2Proof.Machine.execMin rd ra rb s
  | .max rd ra rb => Sys2Proof.Machine.execMax rd ra rb s
  | .minn rd ra rb => Sys2Proof.Machine.execMinn rd ra rb s
  | .maxn rd ra rb => Sys2Proof.Machine.execMaxn rd ra rb s
  | .slt rd ra rb => Sys2Proof.Machine.execSlt rd ra rb s
  | .sltn rd ra rb => Sys2Proof.Machine.execSltn rd ra rb s
  | .clz rd ra => Sys2Proof.Machine.execClz rd ra s
  | .ctz rd ra => Sys2Proof.Machine.execCtz rd ra s
  | .popc rd ra => Sys2Proof.Machine.execPopc rd ra s
  | .sext rd ra w => Sys2Proof.Machine.execSext rd ra w s
  | .zext rd ra w => Sys2Proof.Machine.execZext rd ra w s
  | .bext rd ra rb => Sys2Proof.Machine.execBext rd ra rb s
  | .bins rd ra rb => Sys2Proof.Machine.execBins rd ra rb s
  | .nop => Sys2Proof.Machine.execNop s
  | .sel rd ra rb k => Sys2Proof.Machine.execSel rd ra rb k s
  | .pcmp c p ra rb => Sys2Proof.Machine.execPcmp c p ra rb s
  | .pand d a b => Sys2Proof.Machine.execPand d a b s
  | .por d a b => Sys2Proof.Machine.execPor d a b s
  | .pnot d a => Sys2Proof.Machine.execPnot d a s
  | .jr ra => Sys2Proof.Machine.execJr ra s
  | .tret => Sys2Proof.Machine.execTret s
  | .wfe => Sys2Proof.Machine.execWfe s
  | .xtake rd x => Sys2Proof.Machine.execXtake rd x s
  | .xtst p x => Sys2Proof.Machine.execXtst p x s
  | .xclr x => Sys2Proof.Machine.execXclr x s
  | .feinit ra rb => Sys2Proof.Machine.execFeinit ra rb s
  | .rinit q ra => Sys2Proof.Machine.execRinit q ra s
  | .addi rd ra imm => Sys2Proof.Machine.execAddi rd ra imm s
  | .slti rd ra imm => Sys2Proof.Machine.execSlti rd ra imm s
  | .andi rd ra imm => Sys2Proof.Machine.execAndi rd ra imm s
  | .ori rd ra imm => Sys2Proof.Machine.execOri rd ra imm s
  | .xori rd ra imm => Sys2Proof.Machine.execXori rd ra imm s
  | .shli rd ra n => Sys2Proof.Machine.execShli rd ra n s
  | .shri rd ra n => Sys2Proof.Machine.execShri rd ra n s
  | .srai rd ra n => Sys2Proof.Machine.execSrai rd ra n s
  | .pcmpi c p ra imm => Sys2Proof.Machine.execPcmpi c p ra imm s
  | .movi rd imm => Sys2Proof.Machine.execMovi rd imm s
  | .csrr rd csr => Sys2Proof.Machine.execCsrr rd csr s
  | .csrw ra csr => Sys2Proof.Machine.execCsrw ra csr s
  | .csrs ra csr => Sys2Proof.Machine.execCsrs ra csr s
  | .csrc ra csr => Sys2Proof.Machine.execCsrc ra csr s
  | .fence o sc => Sys2Proof.Machine.execFence o sc s
  | .cset w ra imm => Sys2Proof.Machine.execCset w ra imm s
  | .cadd w ra imm => Sys2Proof.Machine.execCadd w ra imm s
  | .wait w => Sys2Proof.Machine.execWait w s
  | .waitle w ra imm => Sys2Proof.Machine.execWaitle w ra imm s
  | .trap code => Sys2Proof.Machine.execTrap code s
  | .svc code => Sys2Proof.Machine.execSvc code s
  | .br disp => Sys2Proof.Machine.execBr disp s
  | .bp p disp => Sys2Proof.Machine.execBp p disp s
  | .bnp p disp => Sys2Proof.Machine.execBnp p disp s
  | .jal disp => Sys2Proof.Machine.execJal disp s
  | .loop ra imm => Sys2Proof.Machine.execLoop ra imm s
  | .ldb rt ra disp => Sys2Proof.Machine.execLdb rt ra disp s
  | .ldbn rt ra disp => Sys2Proof.Machine.execLdbn rt ra disp s
  | .ldh rt ra disp => Sys2Proof.Machine.execLdh rt ra disp s
  | .ldhn rt ra disp => Sys2Proof.Machine.execLdhn rt ra disp s
  | .ldw rt ra disp => Sys2Proof.Machine.execLdw rt ra disp s
  | .ldwn rt ra disp => Sys2Proof.Machine.execLdwn rt ra disp s
  | .ldd rt ra disp => Sys2Proof.Machine.execLdd rt ra disp s
  | .ldbAcq rt ra disp => Sys2Proof.Machine.execLdbAcq rt ra disp s
  | .ldbnAcq rt ra disp => Sys2Proof.Machine.execLdbnAcq rt ra disp s
  | .ldhAcq rt ra disp => Sys2Proof.Machine.execLdhAcq rt ra disp s
  | .ldhnAcq rt ra disp => Sys2Proof.Machine.execLdhnAcq rt ra disp s
  | .ldwAcq rt ra disp => Sys2Proof.Machine.execLdwAcq rt ra disp s
  | .ldwnAcq rt ra disp => Sys2Proof.Machine.execLdwnAcq rt ra disp s
  | .lddAcq rt ra disp => Sys2Proof.Machine.execLddAcq rt ra disp s
  | .stb rt ra disp => Sys2Proof.Machine.execStb rt ra disp s
  | .sth rt ra disp => Sys2Proof.Machine.execSth rt ra disp s
  | .stw rt ra disp => Sys2Proof.Machine.execStw rt ra disp s
  | .std rt ra disp => Sys2Proof.Machine.execStd rt ra disp s
  | .stbRel rt ra disp => Sys2Proof.Machine.execStbRel rt ra disp s
  | .sthRel rt ra disp => Sys2Proof.Machine.execSthRel rt ra disp s
  | .stwRel rt ra disp => Sys2Proof.Machine.execStwRel rt ra disp s
  | .stdRel rt ra disp => Sys2Proof.Machine.execStdRel rt ra disp s
  | .ldfe rt ra disp => Sys2Proof.Machine.execLdfe rt ra disp s
  | .stfe rt ra disp => Sys2Proof.Machine.execStfe rt ra disp s
  | .vadd vd va vb t => Sys2Proof.Machine.execVadd vd va vb t s
  | .vsub vd va vb t => Sys2Proof.Machine.execVsub vd va vb t s
  | .vmul vd va vb t => Sys2Proof.Machine.execVmul vd va vb t s
  | .vmin vd va vb t => Sys2Proof.Machine.execVmin vd va vb t s
  | .vmax vd va vb t => Sys2Proof.Machine.execVmax vd va vb t s
  | .vabs vd va t => Sys2Proof.Machine.execVabs vd va t s
  | .vneg vd va t => Sys2Proof.Machine.execVneg vd va t s
  | .vdiv vd va vb t => Sys2Proof.Machine.execVdiv vd va vb t s
  | .vsqrt vd va t => Sys2Proof.Machine.execVsqrt vd va t s
  | .vand vd va vb t => Sys2Proof.Machine.execVand vd va vb t s
  | .vor vd va vb t => Sys2Proof.Machine.execVor vd va vb t s
  | .vxor vd va vb t => Sys2Proof.Machine.execVxor vd va vb t s
  | .vnot vd va t => Sys2Proof.Machine.execVnot vd va t s
  | .vshl vd va vb t => Sys2Proof.Machine.execVshl vd va vb t s
  | .vshr vd va vb t => Sys2Proof.Machine.execVshr vd va vb t s
  | .vsra vd va vb t => Sys2Proof.Machine.execVsra vd va vb t s
  | .vmulh vd va vb t => Sys2Proof.Machine.execVmulh vd va vb t s
  | .vexp vd va t => Sys2Proof.Machine.execVexp vd va t s
  | .vexp2 vd va t => Sys2Proof.Machine.execVexp2 vd va t s
  | .vlog2 vd va t => Sys2Proof.Machine.execVlog2 vd va t s
  | .vrcp vd va t => Sys2Proof.Machine.execVrcp vd va t s
  | .vrsqrt vd va t => Sys2Proof.Machine.execVrsqrt vd va t s
  | .vtanh vd va t => Sys2Proof.Machine.execVtanh vd va t s
  | .vsigm vd va t => Sys2Proof.Machine.execVsigm vd va t s
  | .vfma vd va vb vc t => Sys2Proof.Machine.execVfma vd va vb vc t s
  | .vfms vd va vb vc t => Sys2Proof.Machine.execVfms vd va vb vc t s
  | .vfnma vd va vb vc t => Sys2Proof.Machine.execVfnma vd va vb vc t s
  | .vfnms vd va vb vc t => Sys2Proof.Machine.execVfnms vd va vb vc t s
  | .vsel vd vm vt vf t => Sys2Proof.Machine.execVsel vd vm vt vf t s
  | .vcmp vd va vb t c => Sys2Proof.Machine.execVcmp vd va vb t c s
  | .vcvt vd va dt st rm sat => Sys2Proof.Machine.execVcvt vd va dt st rm sat s
  | .vqnt vd va vs rm => Sys2Proof.Machine.execVqnt vd va vs rm s
  | .vdqnt vd va vs dt => Sys2Proof.Machine.execVdqnt vd va vs dt s
  | .vrsum vd va t => Sys2Proof.Machine.execVrsum vd va t s
  | .vcsum vd va t => Sys2Proof.Machine.execVcsum vd va t s
  | .vrmax vd va t => Sys2Proof.Machine.execVrmax vd va t s
  | .vcmax vd va t => Sys2Proof.Machine.execVcmax vd va t s
  | .vmov vd va => Sys2Proof.Machine.execVmov vd va s
  | .vbcast vd va => Sys2Proof.Machine.execVbcast vd va s
  | .vtrn vd va t => Sys2Proof.Machine.execVtrn vd va t s
  | .vext vd va vb t => Sys2Proof.Machine.execVext vd va vb t s
  | .vins vd va vb t => Sys2Proof.Machine.execVins vd va vb t s
  | .vsplat vd g t => Sys2Proof.Machine.execVsplat vd g t s
  | .vld vd ga gb => Sys2Proof.Machine.execVld vd ga gb s
  | .vst vd ga gb => Sys2Proof.Machine.execVst vd ga gb s
  | .vgat vd ga vb t => Sys2Proof.Machine.execVgat vd ga vb t s
  | .vsct vd ga vb t => Sys2Proof.Machine.execVsct vd ga vb t s
  | .vviewImage vd ga k => Sys2Proof.Machine.execVviewImage vd ga k s
  | .vview vd ga gb t => Sys2Proof.Machine.execVview vd ga gb t s
  | .vaddImm vd imm => Sys2Proof.Machine.execVaddImm vd imm s
  | .vsubImm vd imm => Sys2Proof.Machine.execVsubImm vd imm s
  | .vmulImm vd imm => Sys2Proof.Machine.execVmulImm vd imm s
  | .vminImm vd imm => Sys2Proof.Machine.execVminImm vd imm s
  | .vmaxImm vd imm => Sys2Proof.Machine.execVmaxImm vd imm s
  | .vandImm vd imm => Sys2Proof.Machine.execVandImm vd imm s
  | .vorImm vd imm => Sys2Proof.Machine.execVorImm vd imm s
  | .vxorImm vd imm => Sys2Proof.Machine.execVxorImm vd imm s
  | .vshlImm vd imm => Sys2Proof.Machine.execVshlImm vd imm s
  | .vshrImm vd imm => Sys2Proof.Machine.execVshrImm vd imm s
  | .vsraImm vd imm => Sys2Proof.Machine.execVsraImm vd imm s
  | .vsplatImm vd imm => Sys2Proof.Machine.execVsplatImm vd imm s
  | .vshape w r => Sys2Proof.Machine.execVshape w r s
  | .mmul ad ta tb sa sb sat acc fd rsum csum sv => Sys2Proof.Machine.execMmul ad ta tb sa sb sat acc fd rsum csum sv s
  | .mmsp ad ta tb sa sb sat acc fd rsum csum sv => Sys2Proof.Machine.execMmsp ad ta tb sa sb sat acc fd rsum csum sv s
  | .mgang m => Sys2Proof.Machine.execMgang m s
  | .mzero ad => Sys2Proof.Machine.execMzero ad s
  | .mfade ad => Sys2Proof.Machine.execMfade ad s
  | .tidset t ga => Sys2Proof.Machine.execTidset t ga s
  | .tidq t rd sel => Sys2Proof.Machine.execTidq t rd sel s
  | .mdrain ad t vp rm sat => Sys2Proof.Machine.execMdrain ad t vp rm sat s
  | .mdrainr ad t ga vp rm sat => Sys2Proof.Machine.execMdrainr ad t ga vp rm sat s
  | .bcopy ga gb gc w => Sys2Proof.Machine.execBcopy ga gb gc w s
  | .tload ga gb gc w => Sys2Proof.Machine.execTload ga gb gc w s
  | .tstore ga gb gc w => Sys2Proof.Machine.execTstore ga gb gc w s
  | .aadd rd ra rb o => Sys2Proof.Machine.execAadd rd ra rb o s
  | .aswp rd ra rb o => Sys2Proof.Machine.execAswp rd ra rb o s
  | .acas rd ra rb o => Sys2Proof.Machine.execAcas rd ra rb o s
  | .amin rd ra rb o => Sys2Proof.Machine.execAmin rd ra rb o s
  | .amax rd ra rb o => Sys2Proof.Machine.execAmax rd ra rb o s
  | .aminn rd ra rb o => Sys2Proof.Machine.execAminn rd ra rb o s
  | .amaxn rd ra rb o => Sys2Proof.Machine.execAmaxn rd ra rb o s
  | .aand rd ra rb o => Sys2Proof.Machine.execAand rd ra rb o s
  | .aor rd ra rb o => Sys2Proof.Machine.execAor rd ra rb o s
  | .axor rd ra rb o => Sys2Proof.Machine.execAxor rd ra rb o s
  | .afadd rd ra rb o => Sys2Proof.Machine.execAfadd rd ra rb o s
  | .xput ga gb x => Sys2Proof.Machine.execXput ga gb x s
  | .amsg ga gb => Sys2Proof.Machine.execAmsg ga gb s
  | .radvPop ga q => Sys2Proof.Machine.execRadvPop ga q s
  | .radvPush ga q => Sys2Proof.Machine.execRadvPush ga q s
  | .radvCredit ga q => Sys2Proof.Machine.execRadvCredit ga q s
  | .radvFill ga q => Sys2Proof.Machine.execRadvFill ga q s
  | .tinit ga gb gc => Sys2Proof.Machine.execTinit ga gb gc s
  | .tspawn ga gb => Sys2Proof.Machine.execTspawn ga gb s
  | .tfork ga gb => Sys2Proof.Machine.execTfork ga gb s
  | .tsig ga gb => Sys2Proof.Machine.execTsig ga gb s
  | .tend => Sys2Proof.Machine.execTend s
  | .cmpo rd rs n => Sys2Proof.Machine.execCmpo rd rs n s
  | .cmpr => Sys2Proof.Machine.execCmpr s
  | .cmpq rd => Sys2Proof.Machine.execCmpq rd s
  | .hld rd c go o => Sys2Proof.Machine.execHld rd c go o s
  | .hst rv c go o => Sys2Proof.Machine.execHst rv c go o s
  | .hldv v c go => Sys2Proof.Machine.execHldv v c go s
  | .hstv v c go => Sys2Proof.Machine.execHstv v c go s
  | .hgat v c ix => Sys2Proof.Machine.execHgat v c ix s
  | .hsct v c ix => Sys2Proof.Machine.execHsct v c ix s
  | .hldX gt c go o => Sys2Proof.Machine.execHldX gt c go o s
  | .hship ga c go => Sys2Proof.Machine.execHship ga c go s
  | .hpull ga c go => Sys2Proof.Machine.execHpull ga c go s
  | .bgemv ga c go => Sys2Proof.Machine.execBgemv ga c go s
  | .hfenceL => Sys2Proof.Machine.execHfenceL s
  | .oxfer c gd => Sys2Proof.Machine.execOxfer c gd s
  | .oacq c => Sys2Proof.Machine.execOacq c s
  | .cmov d sel => Sys2Proof.Machine.execCmov d sel s
  | .cmovRemote d sel gc => Sys2Proof.Machine.execCmovRemote d sel gc s
  | .cderive d sel gb => Sys2Proof.Machine.execCderive d sel gb s
  | .crights d sel ga => Sys2Proof.Machine.execCrights d sel ga s
  | .hatomAdd rd c go o => Sys2Proof.Machine.execHatomAdd rd c go o s
  | .hatomSwp rd c go o => Sys2Proof.Machine.execHatomSwp rd c go o s
  | .hatomCas rd c go o => Sys2Proof.Machine.execHatomCas rd c go o s
  | .hatomMin rd c go o => Sys2Proof.Machine.execHatomMin rd c go o s
  | .hatomMax rd c go o => Sys2Proof.Machine.execHatomMax rd c go o s
  | .hatomMinn rd c go o => Sys2Proof.Machine.execHatomMinn rd c go o s
  | .hatomMaxn rd c go o => Sys2Proof.Machine.execHatomMaxn rd c go o s
  | .hatomFadd rd c go o => Sys2Proof.Machine.execHatomFadd rd c go o s
  | .hwimm p => Sys2Proof.Machine.execHwimm p s
  | .hblk l => Sys2Proof.Machine.execHblk l s
  | .hgran g => Sys2Proof.Machine.execHgran g s
  | .hrm r => Sys2Proof.Machine.execHrm r s
  | .illegalInstruction => Sys2Proof.Machine.execIllegalInstruction s
  | .packetRuleViolation => Sys2Proof.Machine.execPacketRuleViolation s
  | .fetchFault => Sys2Proof.Machine.execFetchFault s
  | .ownerTimer => Sys2Proof.Machine.execOwnerTimer s
  | .deferredCauseEntry => Sys2Proof.Machine.execDeferredCauseEntry s
  | .storeBufferExit => Sys2Proof.Machine.execStoreBufferExit s
  | .remoteAck => Sys2Proof.Machine.execRemoteAck s
  | .remoteStoreApply => Sys2Proof.Machine.execRemoteStoreApply s
  | .remoteLoadApply => Sys2Proof.Machine.execRemoteLoadApply s
  | .remoteLoadReply => Sys2Proof.Machine.execRemoteLoadReply s
  | .atomicApply => Sys2Proof.Machine.execAtomicApply s
  | .depositApply => Sys2Proof.Machine.execDepositApply s
  | .capDepositApply => Sys2Proof.Machine.execCapDepositApply s
  | .messageApply => Sys2Proof.Machine.execMessageApply s
  | .signalApply => Sys2Proof.Machine.execSignalApply s
  | .setAsidePushApply => Sys2Proof.Machine.execSetAsidePushApply s
  | .ringCreditArrive => Sys2Proof.Machine.execRingCreditArrive s
  | .ringFillArrive => Sys2Proof.Machine.execRingFillArrive s
  | .feRemoteApply => Sys2Proof.Machine.execFeRemoteApply s
  | .feParkedRetry => Sys2Proof.Machine.execFeParkedRetry s
  | .bankOpApply => Sys2Proof.Machine.execBankOpApply s
  | .bulkCommandStart => Sys2Proof.Machine.execBulkCommandStart s
  | .bulkBeat => Sys2Proof.Machine.execBulkBeat s
  | .stealProbe => Sys2Proof.Machine.execStealProbe s
  | .stealRequestApply => Sys2Proof.Machine.execStealRequestApply s
  | .stealReply => Sys2Proof.Machine.execStealReply s
  | .taskPop => Sys2Proof.Machine.execTaskPop s
  | .composeBind => Sys2Proof.Machine.execComposeBind s
  | .gangBarrier => Sys2Proof.Machine.execGangBarrier s
  | .gangMismatch => Sys2Proof.Machine.execGangMismatch s
  | .arrayStart => Sys2Proof.Machine.execArrayStart s
  | .arrayComplete => Sys2Proof.Machine.execArrayComplete s
  | .sliceComplete => Sys2Proof.Machine.execSliceComplete s
  | .mdrainrWake => Sys2Proof.Machine.execMdrainrWake s
  | .purseRefill => Sys2Proof.Machine.execPurseRefill s
  | .purseThrottle => Sys2Proof.Machine.execPurseThrottle s
  | .watchdog => Sys2Proof.Machine.execWatchdog s
  | .terminationWave => Sys2Proof.Machine.execTerminationWave s
  | .turnAnnounce => Sys2Proof.Machine.execTurnAnnounce s
  | .turnDrain => Sys2Proof.Machine.execTurnDrain s
  | .turnMove => Sys2Proof.Machine.execTurnMove s
  | .turnLaneRetry => Sys2Proof.Machine.execTurnLaneRetry s
  | .turnLaneFallback => Sys2Proof.Machine.execTurnLaneFallback s
  | .turnRemap => Sys2Proof.Machine.execTurnRemap s
  | .turnResume => Sys2Proof.Machine.execTurnResume s
  | .resultForward => Sys2Proof.Machine.execResultForward s
  | .preempt => Sys2Proof.Machine.execPreempt s
  | .contextRestore => Sys2Proof.Machine.execContextRestore s
  | .hbmReadReply => Sys2Proof.Machine.execHbmReadReply s
  | .hbmWriteArrive => Sys2Proof.Machine.execHbmWriteArrive s
  | .hshipBeat => Sys2Proof.Machine.execHshipBeat s
  | .hpullBeat => Sys2Proof.Machine.execHpullBeat s
  | .bgemvBeat => Sys2Proof.Machine.execBgemvBeat s
  | .translationResolved => Sys2Proof.Machine.execTranslationResolved s
  | .translationMiss => Sys2Proof.Machine.execTranslationMiss s
  | .runAheadEnd => Sys2Proof.Machine.execRunAheadEnd s
  | .pageRequestDequeue => Sys2Proof.Machine.execPageRequestDequeue s
  | .pageRequestTimeout => Sys2Proof.Machine.execPageRequestTimeout s
  | .checkpointReissue => Sys2Proof.Machine.execCheckpointReissue s
  | .bulkRecordResume => Sys2Proof.Machine.execBulkRecordResume s
  | .frameReclaim => Sys2Proof.Machine.execFrameReclaim s
  | .hbmScrub => Sys2Proof.Machine.execHbmScrub s
  | .transferParityRetry => Sys2Proof.Machine.execTransferParityRetry s
  | .laneTest => Sys2Proof.Machine.execLaneTest s
  | .laneSwap => Sys2Proof.Machine.execLaneSwap s
  | .backgroundScrub => Sys2Proof.Machine.execBackgroundScrub s
  | .launch => Sys2Proof.Machine.execLaunch s
  | .launchStart => Sys2Proof.Machine.execLaunchStart s
  | .load => Sys2Proof.Machine.execLoad s
  | .store => Sys2Proof.Machine.execStore s
  | .signalAdd => Sys2Proof.Machine.execSignalAdd s
  | .signalSet => Sys2Proof.Machine.execSignalSet s
  | .waitPacket => Sys2Proof.Machine.execWaitPacket s
  | .waitComplete => Sys2Proof.Machine.execWaitComplete s
  | .armOnce => Sys2Proof.Machine.execArmOnce s
  | .armPeriodic => Sys2Proof.Machine.execArmPeriodic s
  | .armCancel => Sys2Proof.Machine.execArmCancel s
  | .barrier => Sys2Proof.Machine.execBarrier s
  | .barrierComplete => Sys2Proof.Machine.execBarrierComplete s
  | .loadStoreComplete => Sys2Proof.Machine.execLoadStoreComplete s
  | .timerTick => Sys2Proof.Machine.execTimerTick s
  | .notify => Sys2Proof.Machine.execNotify s
  | .queueKill => Sys2Proof.Machine.execQueueKill s
  | .registerWrite => Sys2Proof.Machine.execRegisterWrite s
  | .mapperBind => Sys2Proof.Machine.execMapperBind s
  | .mapperEvict => Sys2Proof.Machine.execMapperEvict s
  | .packetTake => Sys2Proof.Machine.execPacketTake s
  | .headerReread => Sys2Proof.Machine.execHeaderReread s
  | .submitTimeout => Sys2Proof.Machine.execSubmitTimeout s
  | .completionWrite => Sys2Proof.Machine.execCompletionWrite s
  | .pageReplyMapped => Sys2Proof.Machine.execPageReplyMapped s
  | .pageReplyRefused => Sys2Proof.Machine.execPageReplyRefused s
  | .invalidateObject => Sys2Proof.Machine.execInvalidateObject s
  | .invalidateExtent => Sys2Proof.Machine.execInvalidateExtent s
  | .invalidateSecondStage => Sys2Proof.Machine.execInvalidateSecondStage s
  | .invalidateAll => Sys2Proof.Machine.execInvalidateAll s
  | .invalidateDone => Sys2Proof.Machine.execInvalidateDone s
  | .mintCreate => Sys2Proof.Machine.execMintCreate s
  | .mintFree => Sys2Proof.Machine.execMintFree s
  | .mintAlias => Sys2Proof.Machine.execMintAlias s
  | .mintCheckpoint => Sys2Proof.Machine.execMintCheckpoint s
  | .cxlMemRead => Sys2Proof.Machine.execCxlMemRead s
  | .cxlMemWrite => Sys2Proof.Machine.execCxlMemWrite s
  | .collectiveStart => Sys2Proof.Machine.execCollectiveStart s
  | .collectiveDone => Sys2Proof.Machine.execCollectiveDone s
  | .collectiveTimeout => Sys2Proof.Machine.execCollectiveTimeout s
  | .linkRetry => Sys2Proof.Machine.execLinkRetry s
  | .linkDown => Sys2Proof.Machine.execLinkDown s
  | .linkDownTimeout => Sys2Proof.Machine.execLinkDownTimeout s
  | .loadStoreLinkTimeout => Sys2Proof.Machine.execLoadStoreLinkTimeout s
  | .fabricFlitRetry => Sys2Proof.Machine.execFabricFlitRetry s
  | .fabricRetrain => Sys2Proof.Machine.execFabricRetrain s
  | .remoteHomeTimeout => Sys2Proof.Machine.execRemoteHomeTimeout s
  | .pluginCall => Sys2Proof.Machine.execPluginCall s
  | .pluginFault => Sys2Proof.Machine.execPluginFault s
  | .pluginLoad => Sys2Proof.Machine.execPluginLoad s
  | .deviceReset => Sys2Proof.Machine.execDeviceReset s
  | .attestationRequest => Sys2Proof.Machine.execAttestationRequest s
  | .functionLevelReset => Sys2Proof.Machine.execFunctionLevelReset s
  | .regionCreate => Sys2Proof.Machine.execRegionCreate s
  | .regionResize => Sys2Proof.Machine.execRegionResize s
  | .regionFree => Sys2Proof.Machine.execRegionFree s
  | .linkUp => Sys2Proof.Machine.execLinkUp s
  | .hostEnumeration => Sys2Proof.Machine.execHostEnumeration s
  | .pageRequestRingEnable => Sys2Proof.Machine.execPageRequestRingEnable s
  | .reclaimReply => Sys2Proof.Machine.execReclaimReply s
  | .fabricRequestArrive => Sys2Proof.Machine.execFabricRequestArrive s
  | .divisionComplete => Sys2Proof.Machine.execDivisionComplete s
  | .frameCountsSet => Sys2Proof.Machine.execFrameCountsSet s
  | .refillRateSet => Sys2Proof.Machine.execRefillRateSet s
  | .operatorKeyEnrol => Sys2Proof.Machine.execOperatorKeyEnrol s

end Sys2Proof.Machine
end

