-- ==== Sys2Proof/Machine/Step.lean ====
section
/-! DEFINITION. One step of the machine: an event that is due, an error within a core's step,
the turn of one core, the turn passing to the next core, or the end of a cc. -/

namespace Sys2Proof.Machine

open Sys2Proof

/-- One step (R133 to R136, R217, R363 to R365; notes/assumptions/25.md). -/
def step (s : State) : Host.Outcome State Fault Refusal :=
  match s.agenda with
  | (e, a) :: l => exec e ({ s with agenda := l, ev := a }.finishWaits exec e)
  | [] =>
    if !s.hwErrors.isEmpty && s.me.running.isSome && s.mayIssue s.me then .next s.serveErrors
    else if !s.me.done then takeTurn exec s
    else if s.others.any (fun c => !c.done) then .next s.rotate
    else .next s.endCycle

/-- The state with a word stored where the next step fetches (notes/assumptions/26.md). -/
def State.withFetchWord (s : State) (_nbits w : Nat) : State := s.place (BitVec.ofNat 32 w)

end Sys2Proof.Machine
end

