-- ==== Sys2Proof/Safety.lean ====
section
/-! DEFINITION. What counts as a safe run: no step of it stops. And the conditions on a state
and its operands under which a word acts, in the terms that the statements use. -/

namespace Sys2Proof.Machine

open Sys2Proof

/-- A state from which the next step goes on. -/
def State.goesOn (s : State) : Prop := ∃ t, step s = .next t

/-- A run of k steps that stops nowhere. -/
def State.safeFor (s : State) (k : Nat) : Prop := ∃ t, Host.Core.run core k s = .next t

/-- The bounds that the monitor keeps: a purse holds at most 2^20 pennies and refills at 0 to 16
per cc (14_scheduling.md R326, R14), the turn period is 2^24 to 2^32 cc (02_execution_model.md
R30), and the counter of one-time signatures has at most 2^20 values
(15_host_fabric_firmware.md R341). -/
def State.bounded (s : State) : Prop :=
  s.purses.length = 200 ∧ (∀ p ∈ s.purses, p.pennies ≤ 2 ^ 20 ∧ p.rate ≤ 16) ∧
  2 ^ 24 ≤ s.period ∧ s.period ≤ 2 ^ 32 ∧ s.lms ≤ 2 ^ 20

/-- A word that reads `src` and writes `dst` finds nothing to wait for at its operands: no
result of the core that it touches is awaited (06_encoding.md R157, 07_scalar_control.md R178),
no matrix command holds its bytes (11_matrix.md R261), and the core is not in run-ahead
(21_faults_instructions.md R408). -/
def Core.ready (c : Core) (src dst : List Res) : Prop :=
  c.ahead = none ∧ (∀ r ∈ src ++ dst, c.awaits r = false) ∧ c.mOwed src = false ∧ c.mHeld dst = false

/-- The event that is due is the arrival of message m, at place k of the network: none goes
before it between the same parties, traffic moves, and it was sent in the present turn stamp
(03_storage_model.md, R33, R36, R304). -/
def State.arrives (s : State) (k : Nat) (m : Msg) : Prop :=
  s.ev = .msg k ∧ s.msg? k = some m ∧ s.flows = true ∧ m.stamp = s.stamp

/-- The message has left the network. -/
def State.less (s : State) (k : Nat) : State := { s with net := dropAt s.net k }

/-- An ejection of the sender's region counts (R46). -/
def State.counted (s : State) (m : Msg) : State :=
  s.updRegion m.src.owner m.src.circ fun r => { r with ej := r.ej + 1 }

/-! ## Plain views (R61, R62, R233, R234) -/

/-- View `v`n is no port and passes the checks of a view over `rows` rows of `len` bytes: base
and pitch multiples of 4, a pitch of at least a row when there is more than one, and every row
in the view area (03_storage_model.md R62). -/
def State.plainView (s : State) (n : BitVec 5) (rows len : Nat) : Prop :=
  let v := s.me.view n.toNat
  viewPort v = 0 ∧ viewBase v % 4 = 0 ∧ viewPitch v % 4 = 0 ∧ (1 < rows → len ≤ viewPitch v) ∧
  viewBase v + ((rows - 1) * viewPitch v + len) ≤ viewEnd s.me.id.num

/-- The offsets of a view's rows. -/
def State.viewAddrs (s : State) (n : BitVec 5) (rows : Nat) : List Nat :=
  (List.range rows).map fun i => viewBase (s.me.view n.toNat) + i * viewPitch (s.me.view n.toNat)

/-- The bytes of a view, as the interlocks know them. -/
def State.viewRes (s : State) (n : BitVec 5) (rows len : Nat) : List Res :=
  (s.viewAddrs n rows).map fun a => .regs a len

/-- The rows of a view. -/
def State.viewBytes (s : State) (n : BitVec 5) (rows len : Nat) : List (List Byte) :=
  (s.viewAddrs n rows).map fun a => s.me.vmem.bytes a len

/-- The elements of a view's rows under a type. -/
def State.viewElems (s : State) (t : EType) (n : BitVec 5) (rows len c : Nat) : List (List Nat) :=
  (s.viewBytes n rows len).map fun x => unpack (widthOf t) c x

/-- The rows `out` land in view vd, one per cc from L cc after issue, the flags with the last, and
the pipe is held for `hold` cc (04_number_formats.md R94, 06_encoding.md R156). -/
def State.rowsLand (s : State) (vd : BitVec 5) (rows hold L : Nat) (out : List (List Byte)) (fl : BitVec 5) : State :=
  (s.holdPipe hold).regRows L 0 fl ((s.viewAddrs vd rows).zip out)

end Sys2Proof.Machine
end

