-- ==== Sys2Proof/Certificates/Slice0/Obligations.lean ====
section
/-! DEFINITION. The statements for the provers, from the numbered rules of spec/. In them
`exec i s = .next t` says that the word or event i completes and names the whole next state, so
that everything `t` does not change is the frame. `s.later w d` is s in which the core in turn
owes the write w, due d cc after issue (02_execution_model.md R51); `LandedWrites` says what it
then does. The condition on operands is `Core.ready` of Sys2Proof/Safety.lean. Statements
about values that the model keeps free hold for every value. -/

open Sys2Proof Sys2Proof.Machine

/-! ## Scalar words -/

/-- R162, R163, R165: the register words of major 0x00 with two sources: each value lands in gd
at its latency, and nothing else changes. A gd of `g0` is `LandedWrites`' case. -/
def Obligations.RegisterWordResults : Prop :=
  ∀ (s : State) (rd ra rb : BitVec 6), s.me.ready [.g ra, .g rb] [.g rd] →
    let a := s.me.gr ra
    let b := s.me.gr rb
    let n := b.toNat % 64
    let gives := fun (i : Instr) (v : BitVec 64) (L : Nat) => exec i s = .next (s.later (.g rd v) L)
    gives (.add rd ra rb) (a + b) 1 ∧
    gives (.sub rd ra rb) (a - b) 1 ∧
    gives (.and rd ra rb) (a &&& b) 1 ∧
    gives (.or rd ra rb) (a ||| b) 1 ∧
    gives (.xor rd ra rb) (a ^^^ b) 1 ∧
    gives (.shl rd ra rb) (a <<< n) 1 ∧
    gives (.shr rd ra rb) (a >>> n) 1 ∧
    gives (.sra rd ra rb) (a.sshiftRight n) 1 ∧
    gives (.mul rd ra rb) (a * b) 3 ∧
    gives (.mulh rd ra rb) (BitVec.ofInt 64 (a.toInt * b.toInt / 2 ^ 64)) 3 ∧
    gives (.mulhn rd ra rb) (BitVec.ofNat 64 (a.toNat * b.toNat / 2 ^ 64)) 3 ∧
    gives (.min rd ra rb) (if b.toInt < a.toInt then b else a) 1 ∧
    gives (.max rd ra rb) (if a.toInt < b.toInt then b else a) 1 ∧
    gives (.minn rd ra rb) (if b.toNat < a.toNat then b else a) 1 ∧
    gives (.maxn rd ra rb) (if a.toNat < b.toNat then b else a) 1 ∧
    gives (.slt rd ra rb) (if a.toInt < b.toInt then 1 else 0) 1 ∧
    gives (.sltn rd ra rb) (if a.toNat < b.toNat then 1 else 0) 1 ∧
    gives (.bext rd ra rb) (BitVec.ofNat 64 (a.toNat / 2 ^ n % 2 ^ (b.toNat / 256 % 64 + 1))) 1

/-- R162, R163: the words of major 0x00 that count bits and extend a field. A leading-zero count
is 64 or the distance of the highest set bit from bit 63; a trailing-zero count likewise.

R163, R165: `bins` replaces the field of gd at position b[5:0], of b[13:8] + 1 bits, by the
low bits of a, keeps the other bits, and drops what lies past bit 63; `sel` takes a or b by its
predicate; `nop` changes nothing. -/
def Obligations.BitFieldWords : Prop :=
  (∀ (s : State) (rd ra w : BitVec 6), s.me.ready [.g ra] [.g rd] →
    let a := s.me.gr ra
    let k := w.toNat + 1
    (∃ n ≤ 64, exec (.clz rd ra) s = .next (s.later (.g rd (BitVec.ofNat 64 n)) 1) ∧
      (∀ j < n, a.getLsbD (63 - j) = false) ∧ (n < 64 → a.getLsbD (63 - n) = true)) ∧
    (∃ n ≤ 64, exec (.ctz rd ra) s = .next (s.later (.g rd (BitVec.ofNat 64 n)) 1) ∧
      (∀ j < n, a.getLsbD j = false) ∧ (n < 64 → a.getLsbD n = true)) ∧
    exec (.popc rd ra) s = .next (s.later
      (.g rd (BitVec.ofNat 64 ((List.range 64).map fun j => (a.getLsbD j).toNat).sum)) 1) ∧
    exec (.sext rd ra w) s = .next (s.later (.g rd ((a.setWidth k).signExtend 64)) 1) ∧
    exec (.zext rd ra w) s = .next (s.later (.g rd ((a.setWidth k).setWidth 64)) 1)) ∧
  (∀ (s : State) (rd ra rb : BitVec 6) (k : BitVec 3),
    (s.me.ready [.g ra, .g rb, .g rd] [.g rd] →
      let b := s.me.gr rb
      let pos := b.toNat % 64
      let len := b.toNat / 256 % 64 + 1
      ∃ v, exec (.bins rd ra rb) s = .next (s.later (.g rd v) 1) ∧ ∀ j < 64, v.getLsbD j =
        if pos ≤ j ∧ j < pos + len then (s.me.gr ra).getLsbD (j - pos) else (s.me.gr rd).getLsbD j) ∧
    (s.me.ready [.g ra, .g rb, .p k] [.g rd] →
      exec (.sel rd ra rb k) s = .next (s.later (.g rd (if s.me.pr k then s.me.gr ra else s.me.gr rb)) 1)) ∧
    (s.me.ready [] [] → exec .nop s = .next s))

/-- R166 with R151: the immediate words take the field of their word, sign-extended, or widened
to `i` by the hints before it; the shifts take their six bits. -/
def Obligations.ImmediateWordResults : Prop :=
  ∀ (s : State) (rd ra n : BitVec 6) (imm : BitVec 12) (m : BitVec 18), s.me.ready [.g ra] [.g rd] →
    let a := s.me.gr ra
    let i := match s.me.issue.hw with
      | [] => imm.signExtend 64
      | [x] => (x ++ imm).signExtend 64
      | x :: y :: _ => (x ++ (y ++ imm)).signExtend 64
    let gives := fun (i : Instr) (v : BitVec 64) => exec i s = .next (s.later (.g rd v) 1)
    gives (.addi rd ra imm) (a + i) ∧
    gives (.slti rd ra imm) (if a.toInt < i.toInt then 1 else 0) ∧
    gives (.andi rd ra imm) (a &&& i) ∧
    gives (.ori rd ra imm) (a ||| i) ∧
    gives (.xori rd ra imm) (a ^^^ i) ∧
    gives (.shli rd ra n) (a <<< n.toNat) ∧
    gives (.shri rd ra n) (a >>> n.toNat) ∧
    gives (.srai rd ra n) (a.sshiftRight n.toNat) ∧
    (s.me.issue.hw = [] → gives (.movi rd m) (m.signExtend 64)) ∧
    ∀ x, s.me.issue.hw = [x] → gives (.movi rd m) ((x ++ m).signExtend 64)

/-- R164: a division is owed to gd, with its result fixed at issue: truncation toward zero; a
remainder with the sign of the dividend; −1 and the dividend when the divisor is 0. It lands
when DIVISION_COMPLETE comes, which removes it and changes nothing else of the core; in run-ahead
a division issued before b lands in the state kept at b as well. -/
def Obligations.DivisionResults : Prop :=
  ∀ (s : State) (rd ra rb : BitVec 6), s.me.ready [.g ra, .g rb] [.g rd] →
    let a := s.me.gr ra
    let b := s.me.gr rb
    let gives := fun (i : Instr) (v : BitVec 64) => exec i s = .next (s.onMe fun c => { c with
      outs := c.outs ++ [⟨.division, rd, c.seq, none, false, true, v, 34⟩], seq := c.seq + 1 })
    gives (.div rd ra rb) (if b = 0 then -1 else BitVec.ofInt 64 (a.toInt.tdiv b.toInt)) ∧
    gives (.divn rd ra rb) (if b = 0 then -1 else BitVec.ofNat 64 (a.toNat / b.toNat)) ∧
    gives (.rem rd ra rb) (if b = 0 then a else BitVec.ofInt 64 (a.toInt.tmod b.toInt)) ∧
    gives (.remn rd ra rb) (if b = 0 then a else BitVec.ofNat 64 (a.toNat % b.toNat)) ∧
    ∀ (u : State) (l : List Outst) (o : Outst), u.ev = .division u.me.id rd → o.kind = .division →
      o.rd = rd → u.me.outs = l ++ [o] → (∀ x ∈ l, ¬(x.kind = .division ∧ x.rd = rd)) →
      exec .divisionComplete u = .next { u with me := { u.me.landG rd o.v o.seq with outs := l } } ∧
        (u.me.ckpt = none → u.me.landG rd o.v o.seq = u.me.setG rd o.v) ∧
        ∀ k, u.me.ckpt = some k → o.seq < k.seq → rd ≠ 0 →
          u.me.landG rd o.v o.seq = { u.me.setG rd o.v with ckpt := some { k with g := k.g.set rd.toNat o.v rd.isLt } }

/-- R167: the predicate words. -/
def Obligations.PredicateWordResults : Prop :=
  ∀ (s : State) (c : Cond) (p x y : BitVec 3) (ra rb : BitVec 6) (imm : BitVec 12),
    let holds := fun (a b : BitVec 64) => match c with
      | .eq => decide (a = b)
      | .ne => decide (a ≠ b)
      | .lt => decide (a.toInt < b.toInt)
      | .ge => decide (b.toInt ≤ a.toInt)
      | .ltn => decide (a.toNat < b.toNat)
      | .gen => decide (b.toNat ≤ a.toNat)
    let gives := fun (i : Instr) (v : Bool) => exec i s = .next (s.later (.p p v) 1)
    (s.me.ready [.g ra, .g rb] [.p p] → gives (.pcmp c p ra rb) (holds (s.me.gr ra) (s.me.gr rb))) ∧
    (s.me.ready [.g ra] [.p p] → gives (.pcmpi c p ra imm) (holds (s.me.gr ra) (s.widen imm))) ∧
    (s.me.ready [.p x, .p y] [.p p] →
      gives (.pand p x y) (s.me.pr x && s.me.pr y) ∧ gives (.por p x y) (s.me.pr x || s.me.pr y)) ∧
    (s.me.ready [.p x] [.p p] → gives (.pnot p x) (!s.me.pr x))

/-- R135, R160: in its landing cc a write of a general register or predicate sets it and nothing
else; writes to `g0` and `p0` are discarded and their reads give 0 and 1; a write not yet due
comes one cc nearer. R51: writes that a resume replays stand still until the first packet issues. -/
def Obligations.LandedWrites : Prop :=
  ∀ (c : Core) (n m : BitVec 6) (x y : BitVec 3) (v : BitVec 64) (b : Bool),
    c.gr 0 = 0 ∧ c.pr 0 = true ∧
    c.apply (.g n v) = { c with g := (c.apply (.g n v)).g } ∧
    c.apply (.p x b) = { c with p := (c.apply (.p x b)).p } ∧
    (c.apply (.g n v)).gr m = (if m = 0 then 0 else if m = n then v else c.gr m) ∧
    (c.apply (.p x b)).pr y = (if y = 0 then true else if y = x then b else c.pr y) ∧
    (c.outs = [] → c.rearmed = false → c.pend = [⟨.g n v, 1⟩] →
      c.tick.gr m = (c.apply (.g n v)).gr m ∧ c.tick.pend = [] ∧ c.tick.p = c.p ∧ c.tick.csr = c.csr ∧
      c.tick.scr = c.scr ∧ c.tick.vmem = c.vmem) ∧
    (c.outs = [] → c.rearmed = false → (∀ q ∈ c.pend, 1 < q.d) →
      c.tick.pend = c.pend.map (fun q => { q with d := q.d - 1 }) ∧ c.tick.g = c.g ∧ c.tick.p = c.p ∧
      c.tick.csr = c.csr ∧ c.tick.scr = c.scr ∧ c.tick.vmem = c.vmem) ∧
    (c.outs = [] → c.rearmed = true → (∀ q ∈ c.pend, q.w.captured = true) →
      c.tick.pend = c.pend ∧ c.tick.vbusy = c.vbusy ∧ c.tick.g = c.g ∧ c.tick.p = c.p ∧
      c.tick.csr = c.csr ∧ c.tick.scr = c.scr ∧ c.tick.vmem = c.vmem)

/-! ## Control -/

/-- R136, R168: a taken branch sets the pc to its target, which issues 2 cc after the branch; the
displacement counts words from the packet's first word; `jal` links the word after the packet;
`jr` takes a register. A target outside the fetch range raises class 0x15 sub 7; that the report
then names the register of `jr` is the model's reading of R368 (notes/assumptions/70.md). -/
def Obligations.Branches : Prop :=
  ∀ (s : State) (disp : BitVec 19) (p : BitVec 3) (ra : BitVec 6),
    let t : Int := s.me.issue.fst + 4 * (s.widen disp).toInt
    let ok := 0 ≤ t ∧ t < s.me.fetchEnd
    let jumps := fun (s : State) => s.onMe fun c => c.jump t.toNat
    let bad := fun (v : BitVec 48) (mj reg : BitVec 6) => Host.Outcome.next (s.raise ⟨0x15, 7, reg, v, mj⟩)
    (∀ n, (s.me.jump n).pc = n ∧ (s.me.jump n).bubble = 2 ∧ (s.me.jump n).issue.taken = true) ∧
    (s.me.ready [] [] → ok → exec (.br disp) s = .next (jumps s)) ∧
    (s.me.ready [.p p] [] → ok →
      exec (.bp p disp) s = .next (if s.me.pr p then jumps s else s) ∧
      exec (.bnp p disp) s = .next (if s.me.pr p then s else jumps s)) ∧
    (s.me.ready [] [.g 1] → ok →
      exec (.jal disp) s = .next (jumps (s.later (.g 1 (BitVec.ofNat 64 s.me.issue.nxt)) 1))) ∧
    (s.me.ready [.g ra] [] → (s.me.gr ra).toNat % 4 = 0 → (s.me.gr ra).toNat < s.me.fetchEnd →
      exec (.jr ra) s = .next (s.onMe fun c => c.jump (s.me.gr ra).toNat)) ∧
    (s.me.ready [] [] → ¬ok → exec (.br disp) s = bad (BitVec.ofInt 48 t) 0x0E 0) ∧
    (s.me.ready [.p p] [] → ¬ok → exec (.bp p disp) s = bad (BitVec.ofInt 48 t) 0x0E 0 ∧
      exec (.bnp p disp) s = bad (BitVec.ofInt 48 t) 0x0E 0) ∧
    (s.me.ready [.g ra] [] → ((s.me.gr ra).toNat % 4 ≠ 0 ∨ s.me.fetchEnd ≤ (s.me.gr ra).toNat) →
      exec (.jr ra) s = bad ((s.me.gr ra).setWidth 48) 0x01 ra)

/-- R169: `loop` sets the loop CSRs, and skips to the end when the count is 0; a packet that ends
at `lpend` goes back to `lpbeg` while more than one pass is left. -/
def Obligations.Loops : Prop :=
  ∀ (s : State) (ra : BitVec 6) (imm : BitVec 12),
    let e : Int := s.me.issue.fst + 4 * s.widenLoop imm
    let n : BitVec 32 := (s.me.gr ra).setWidth 32
    let set := fun (c : Core) =>
      { c with csr := { c.csr with lpbeg := BitVec.ofNat 19 c.issue.nxt, lpend := BitVec.ofInt 19 e, lpcnt := n } }
    (s.me.ready [.g ra] [] → s.me.issue.nxt < e → e ≤ s.me.fetchEnd →
      exec (.loop ra imm) s = .next (s.onMe fun c => if n = 0 then (set c).jump e.toNat else set c)) ∧
    (s.me.ready [.g ra] [] → (e ≤ s.me.issue.nxt ∨ s.me.fetchEnd < e) →
      exec (.loop ra imm) s = .next (s.raise ⟨0x18, 2, 0, BitVec.ofInt 48 (s.widenLoop imm), 0x0F⟩)) ∧
    ∀ c : Core,
      (c.csr.lpcnt = 0 ∨ c.issue.nxt % 2 ^ 19 ≠ c.csr.lpend.toNat → c.advance =
        { c with pc := c.issue.nxt, blkLeft := c.blkLeft - 1 }) ∧
      (c.issue.nxt % 2 ^ 19 = c.csr.lpend.toNat → 1 < c.csr.lpcnt.toNat → c.advance.pc = c.csr.lpbeg.toNat ∧
        c.advance.csr = { c.csr with lpcnt := c.csr.lpcnt - 1 }) ∧
      (c.issue.nxt % 2 ^ 19 = c.csr.lpend.toNat → c.csr.lpcnt = 1 → c.advance.pc = c.issue.nxt ∧
        c.advance.csr = { c.csr with lpcnt := 0 })

/-- R170, R172: the CSR words: `csrr` gives the CSR's value, and writes land one cc after issue,
combined with what the CSR then holds; read-only CSRs keep their values; the level-1 CSRs, and
`estat` for writes, raise class 0x13 sub 1 at level 0. -/
def Obligations.CsrWords : Prop :=
  ∀ (s : State) (rd ra : BitVec 6) (k : Csr),
    let a := s.me.gr ra
    let own := k ∈ [Csr.tlpcnt, .epc, .ecause, .einfo, .escr0, .escr1]
    let read := s.me.csr.level = 0 → ¬own
    let write := s.me.csr.level = 0 → ¬own ∧ k ≠ .estat
    let no := fun (mj : BitVec 6) => Host.Outcome.next (s.raise ⟨0x13, 1, 0, 0, mj⟩)
    let f : List Res := if k = .fflags then [.fflags] else []
    (s.me.ready f [.g rd] → read → exec (.csrr rd k) s = .next (s.later (.g rd (s.csr k)) 1)) ∧
    (s.me.ready [.g ra] f → write → exec (.csrw ra k) s = .next (s.later (.csrSet k a) 1) ∧
      exec (.csrs ra k) s = .next (s.later (.csrOr k a) 1) ∧
      exec (.csrc ra k) s = .next (s.later (.csrClr k a) 1)) ∧
    (s.me.ready f [.g rd] → ¬read → exec (.csrr rd k) s = no 0x08) ∧
    (s.me.ready [.g ra] f → ¬write →
      exec (.csrw ra k) s = no 0x08 ∧ exec (.csrs ra k) s = no 0x09 ∧ exec (.csrc ra k) s = no 0x09) ∧
    ∀ (c : Core) (v : BitVec 64),
      (k ∈ [Csr.cyc, .ocyc, .turnno, .devtime, .lcid, .rgsize] →
        c.apply (.csrSet k v) = c ∧ c.apply (.csrOr k v) = c ∧ c.apply (.csrClr k v) = c) ∧
      (c.apply (.csrSet .escr0 v)).csr = { c.csr with escr0 := v } ∧
      (c.apply (.csrOr .escr0 v)).csr = { c.csr with escr0 := c.csr.escr0 ||| v } ∧
      (c.apply (.csrClr .escr0 v)).csr = { c.csr with escr0 := c.csr.escr0 &&& ~~~v } ∧
      (c.apply (.csrSet .ocmp v)).csr = { c.csr with ocmp := v } ∧
      (c.apply (.csrSet .mgamma v)).csr = { c.csr with mgamma := v.setWidth 32 }

/-! ## Exceptions, traps and the return -/

/-- R177, R363, R370: an exception at level 0 is entered in front of the packet at the pc: `epc`,
`ecause` and `einfo` report it, the level becomes 1, the loop count moves to `tlpcnt`, and the pc
becomes the class's vector; at level 1 the core stops with those registers written.

R51, R158, R159: at a boundary a task's writes that are due are made, those of the queue's kinds that
are due later are captured with the cc they still have, and the V pipe's count with them; an entry
captures so. The image of at most 48 writes replays them, in the order of their cc. -/
def Obligations.ExceptionEntry : Prop :=
  (∀ (c : Core) (n : Nat), c.interlocked = false → (∀ o ∈ c.outs, o.timed = false) →
    let later := fun (p : Pend) => p.w.captured && decide (n < p.d)
    let held := (c.pend.filter later).map fun p => ({ p with d := p.d - n } : Pend)
    let k := c.applyAll ((c.pend.filter fun p => !later p).map (·.w))
    let r := c.capture n
    r.pend = [] ∧ r.vbusy = 0 ∧ r.qimg = queueImage held (c.vbusy - n) ∧
      r.g = k.g ∧ r.p = k.p ∧ r.t = k.t ∧ r.vmem = k.vmem ∧ r.scr = k.scr) ∧
  (∀ (c : Core) (e : Exc), c.csr.level = 0 →
    let r := c.raise e
    let k := c.capture 0
    r.qimg = k.qimg ∧ r.pend = k.pend ∧ r.vbusy = k.vbusy ∧
      r.g = k.g ∧ r.p = k.p ∧ r.t = k.t ∧ r.vmem = k.vmem ∧ r.scr = k.scr) ∧
  (∀ (num vb : Nat) (ps : List Pend), ps.length ≤ 48 → vb < 32 →
    (∀ p ∈ ps, p.w.captured = true ∧ 1 ≤ p.d ∧ p.d < 32 ∧
      ∀ o bs f, p.w = .row o bs f → bs ≠ [] ∧ bs.length ≤ 256 ∧ o + bs.length ≤ viewEnd num) →
    ∃ qs : List Pend, qs.Perm ps ∧ qs.Pairwise (fun a b => a.d ≤ b.d) ∧
      imageWrites num (queueImage ps vb) (List.range 48) = some qs ∧ (queueImage ps vb).nat 0x3FF8 8 % 32 = vb) ∧
  ∀ (c : Core) (e : Exc), c.pend = [] → c.outs = [] →
    let r := c.raise e
    let mj := (0x12 ≤ e.cls.toNat ∧ e.cls.toNat ≤ 0x1C) ∨ (0x20 ≤ e.cls.toNat ∧ e.cls.toNat ≤ 0x23) ∨
      e.cls = 0x30 ∨ e.cls = 0x31
    let w := if e.cls = 0x10 ∨ e.cls = 0x1D ∨ e.cls = 0x1E ∨ e.cls = 0x24 then 0 else c.issue.word
    r.csr.epc = BitVec.ofNat 17 (c.pc / 4) ∧
    r.csr.ecause.toNat = e.cls.toNat + (if mj then e.mj.toNat * 2 ^ 22 else 0) ∧
    r.csr.einfo = e.value ++ e.sub ++ e.reg ++ w ∧
    r.g = c.g ∧ r.p = c.p ∧ r.scr = c.scr ∧ r.vmem = c.vmem ∧ r.sb = c.sb ∧ r.fe = c.fe ∧ r.x = c.x ∧
    (c.csr.level = 0 → r.csr.level = 1 ∧ r.csr.plev = 0 ∧ r.csr.tlpcnt = c.csr.lpcnt ∧ r.csr.lpcnt = 0 ∧
      r.pc = c.csr.evec.toNat * 4096 + 64 * e.cls.toNat ∧ r.stopped = c.stopped) ∧
    (c.csr.level ≠ 0 → r.csr.level = c.csr.level ∧ r.pc = c.pc ∧ r.stopped = true)

/-- R175, R176, R177: `trap` (class 0x01) and `svc` (class 0x02) complete their packet and enter the
handler from the boundary after it, with the code in `ecause[27:16]`; at level 1 of a firmware core
`svc` enters level 2; above level 0 they raise class 0x13 sub 4 otherwise (that `trap` does so on a
firmware core too is the model's reading: notes/assumptions/69.md); what is due after that
boundary is captured (R51).

R178: `tret` brings back the pc of `epc`, the level of `estat.plev` and the loop count of
`tlpcnt`, and its target issues 2 cc after it, from whose issue the image's entries count; at level
0 it raises class 0x13 sub 2, and on a queue image that fails its checks class 0x18 sub 1. -/
def Obligations.TrapWords : Prop :=
  (∀ (s : State) (code : BitVec 12), s.me.ready [] [] → s.me.owesRemote = false →
    let enters := fun (i : Instr) (cls : BitVec 8) => ∃ c, exec i s = .next { s with me := c } ∧
      c.pc = s.me.csr.evec.toNat * 4096 + 64 * cls.toNat ∧
      c.csr.level = s.me.csr.level + 1 ∧ c.csr.plev = s.me.csr.level ∧
      c.csr.epc = BitVec.ofNat 17 (s.me.advance.pc / 4) ∧
      c.csr.ecause = (0 : BitVec 4) ++ code ++ (0 : BitVec 8) ++ cls ∧ c.csr.einfo = 0 ∧
      c.csr.tlpcnt = s.me.advance.csr.lpcnt ∧ c.csr.lpcnt = 0 ∧
      (s.me.pend = [] → s.me.outs = [] → c.g = s.me.g ∧ c.p = s.me.p ∧ c.scr = s.me.scr ∧ c.vmem = s.me.vmem)
    (s.me.csr.level = 0 → s.me.pend = [] → enters (.trap code) 0x01 ∧ enters (.svc code) 0x02) ∧
    (s.me.csr.level = 1 → s.me.firm = true → s.me.pend = [] → enters (.svc code) 0x02) ∧
    (s.me.csr.level = 0 → ∀ i ∈ [Instr.trap code, .svc code], ∃ c, exec i s = .next { s with me := c } ∧
      let k := s.me.advance.capture 1
      c.qimg = k.qimg ∧ c.pend = k.pend ∧ c.vbusy = k.vbusy ∧ c.csr.level = k.csr.level + 1 ∧
        c.g = k.g ∧ c.p = k.p ∧ c.t = k.t ∧ c.vmem = k.vmem ∧ c.scr = k.scr) ∧
    (s.me.csr.level ≠ 0 →
      exec (.trap code) s = .next (s.raise ⟨0x13, 4, 0, 0, 0x0D⟩) ∧
      (s.me.csr.level ≠ 1 ∨ s.me.firm = false →
        exec (.svc code) s = .next (s.raise ⟨0x13, 4, 0, 0, 0x0D⟩)))) ∧
  (∀ s : State, s.me.ready [] [] → s.me.unfinished = false →
    (s.me.csr.level = 0 → exec .tret s = .next (s.raise ⟨0x13, 2, 0, 0, 0x01⟩)) ∧
    (s.me.csr.level ≠ 0 → ∀ ps, imageWrites s.me.id.num s.me.qimg (List.range 48) = some ps →
      ∃ c, exec .tret s = .next { s with me := c } ∧
        c.pc = s.me.csr.epc.toNat * 4 ∧ c.csr.level = s.me.csr.plev ∧ c.csr.lpcnt = s.me.csr.tlpcnt ∧
        c.bubble = 2 ∧ c.pend = ps ∧ c.vbusy = s.me.qimg.nat 0x3FF8 8 % 32 ∧
        c.rearmed = (!ps.isEmpty || decide (c.vbusy ≠ 0)) ∧
        c.g = s.me.g ∧ c.p = s.me.p ∧ c.scr = s.me.scr ∧ c.vmem = s.me.vmem) ∧
    (s.me.csr.level ≠ 0 → imageWrites s.me.id.num s.me.qimg (List.range 48) = none →
      ∃ e, e.cls = 0x18 ∧ e.sub = 1 ∧ exec .tret s = .next (s.raise e)))

/-- R373, R374, R375, R179, R365, R387, R177: the entries that the hardware makes by itself, at
level 0: an illegal word (class 0x12), a broken packet rule (class 0x11), a fetch fault (class
0x10, or 0x14 sub 6 in a composed core), the owner timer (class 0x03, which clears `ocmp.en`), and
the first deferred cause, which leaves the others pending. -/
def Obligations.HardwareEntries : Prop :=
  ∀ s : State, s.me.ahead = none → s.me.csr.level = 0 → s.me.owesRemote = false →
    let enters := fun (i : Instr) (f : Core → Core) => exec i s = .next (s.onMe f)
    (∀ mj sub reg, s.ev = .illegal mj sub reg →
      enters .illegalInstruction fun c => c.raise ⟨0x12, sub, reg, 0, mj⟩) ∧
    (∀ sub w, s.ev = .rule sub w → enters .packetRuleViolation fun c =>
      ({ c with issue := { c.issue with word := w } } : Core).raise ⟨0x11, sub, 0, 0, 0⟩) ∧
    enters .fetchFault (fun c => c.raise (if c.composed then ⟨0x14, 6, 0, 0, 0⟩
      else ⟨0x10, 1, 0, BitVec.ofNat 48 c.pc, 0⟩)) ∧
    (s.me.csr.ocmp.getLsbD 63 = true → (s.me.csr.ocmp.setWidth 63).toNat ≤ (s.csr .ocyc).toNat →
      s.me.running ≠ none → s.me.pend = [] → ∃ c, exec .ownerTimer s = .next { s with me := c } ∧
        c.pc = s.me.csr.evec.toNat * 4096 + 64 * 3 ∧ c.csr.level = 1 ∧ c.csr.ecause = 3 ∧ c.csr.einfo = 0 ∧
        c.csr.epc = BitVec.ofNat 17 (s.me.pc / 4) ∧ c.csr.ocmp = s.me.csr.ocmp &&& 0x7FFFFFFFFFFFFFFF) ∧
    ∀ (d : Deferred) (l : List Deferred), s.me.deferred = d :: l → (∀ x ∈ l, d.rank ≤ x.rank) →
      s.me.running ≠ none → s.me.pend = [] → ∃ c, exec .deferredCauseEntry s = .next { s with me := c } ∧
        c.deferred = l ∧ c.pc = s.me.csr.evec.toNat * 4096 + 64 * d.exc.cls.toNat ∧ c.csr.level = 1 ∧
        c.csr.ecause = d.exc.cls.setWidth 32 ∧
        c.csr.einfo = d.exc.value ++ d.exc.sub ++ d.exc.reg ++ (0 : BitVec 2) ∧
        c.csr.epc = BitVec.ofNat 17 (s.me.pc / 4)

/-- R150 to R154, R228: a hint leaves its payload for the word it attaches to and changes nothing
else; `hblk` opens a block of its length, in a composed core, unless the block in hand has packets
left. -/
def Obligations.HintWords : Prop :=
  ∀ (s : State) (x : BitVec 24) (l : BitVec 4) (g : BitVec 3) (r : RMode),
    let on := fun (f : Issue → Issue) => Host.Outcome.next (s.onMe fun c => { c with issue := f c.issue })
    exec (.hwimm x) s = on (fun i => { i with hw := i.hw ++ [x] }) ∧
    exec (.hgran g) s = on (fun i => { i with gran := some g }) ∧
    exec (.hrm r) s = on (fun i => { i with hrm := some r }) ∧
    exec (.hblk l) s = .next (s.onMe fun c =>
      if c.composed = true ∧ c.blkLeft = 0 then { c with blk := false, blkAt := c.issue.fst, blkLeft := l.toNat + 1 }
      else { c with blk := false }) ∧
    (∀ f : BitVec 12, s.me.issue.hw = [] → s.widen f = f.signExtend 64 ∧
      (s.onMe fun c => { c with issue := { c.issue with hw := [x] } }).widen f = (x ++ f).signExtend 64)

/-! ## Synchronisation and memory words -/

/-- R181, R195, R200 to R202, R207: fences wait for the accesses they name and complete without
them; cells are set and added to, and presence is cleared, one cc later, once earlier reads and near
writes have performed (R300); `wait`, `waitle`, `wfe`, `xtake` and `xtst` complete when their condition
holds and no earlier access is to perform first, and otherwise leave the packet unissued. -/
def Obligations.SyncWords : Prop :=
  ∀ (s : State) (o : BitVec 4) (sc : Scope) (w x : BitVec 5) (p : BitVec 3) (rd ra : BitVec 6) (imm : BitVec 12),
    let v : BitVec 32 := (s.me.gr ra + s.widen imm).setWidth 32
    let open_ := (o.extractLsb' 2 2 ≠ 0 ∧ s.me.loadsOpen sc = true) ∨ (o.extractLsb' 0 2 ≠ 0 ∧ s.me.storesOpen sc = true)
    let le := (s.me.cell w).toInt ≤ (s.me.gr ra + s.widen imm).toInt
    let stalls := fun (i : Instr) => s.me.issue.commit = false → exec i s = .next (s.stall .waiting)
    (s.me.ready [] [] → ¬open_ → exec (.fence o sc) s =
      .next (if sc = .core then s.onMe fun c => { c with fetched := [] } else s)) ∧
    (s.me.ready [] [] → open_ → stalls (.fence o sc)) ∧
    (s.me.ready [.g ra] [] →
      (s.me.writeHeld = false → exec (.cset w ra imm) s = .next (s.later (.cellSet w v) 1) ∧
        exec (.cadd w ra imm) s = .next (s.later (.cellAdd w v) 1)) ∧
      (s.me.writeHeld = true → stalls (.cset w ra imm) ∧ stalls (.cadd w ra imm))) ∧
    (s.me.ready [] [] → (s.me.cell w = 0 → s.me.readHeld = false → exec (.wait w) s = .next s) ∧
      (s.me.cell w ≠ 0 ∨ s.me.readHeld = true → stalls (.wait w))) ∧
    (s.me.ready [.g ra] [] → (le → s.me.readHeld = false → exec (.waitle w ra imm) s = .next s) ∧
      (¬le ∨ s.me.readHeld = true → stalls (.waitle w ra imm))) ∧
    (s.me.ready [] [.g rd] →
      (s.me.xp x = true → s.me.writeHeld = false → exec (.xtake rd x) s =
        .next ((s.onMe fun c => c.setXp x false).later (.g rd (s.me.xr x)) 1)) ∧
      (s.me.xp x = false ∨ s.me.writeHeld = true → stalls (.xtake rd x))) ∧
    (s.me.ready [] [.p p] →
      (s.me.readHeld = false → exec (.xtst p x) s = .next (s.later (.p p (s.me.xp x)) 1)) ∧
      (s.me.readHeld = true → stalls (.xtst p x))) ∧
    (s.me.ready [] [] → (s.me.writeHeld = false → exec (.xclr x) s = .next (s.later (.xclr x) 1)) ∧
      (s.me.writeHeld = true → stalls (.xclr x))) ∧
    (s.me.ready [] [] → (s.me.latch = true → exec .wfe s = .next (s.onMe fun c => { c with latch := false })) ∧
      (s.me.latch = false → s.me.issue.commit = false →
        exec .wfe s = .next ((s.onMe fun c => { c with onLatch := true }).stall .waiting))) ∧
    ∀ c : Core, c.apply (.cellSet w v) = c.setCell w v ∧ c.apply (.cellAdd w v) = c.setCell w (c.cell w + v) ∧
      (c.setCell w v).cell w = v ∧ c.apply (.xclr x) = c.setXp x false ∧ (c.setXp x false).xp x = false

/-- R182: what an on-chip address names, in a plain core, and the exception of each address that
a word cannot take: a space it does not accept (sub 1), set reserved bits (2), misalignment (3), a
range past the store's end (4), a core or column outside the region (5), and the state area of
register space at level 0 (class 0x13 sub 3). That the report names the register of the address
field is the model's reading of R368 (notes/assumptions/70.md). -/
def Obligations.OnChipAddresses : Prop :=
  ∀ (s : State) (mj reg : BitVec 6) (off num lcol n al : Nat), s.me.composed = false → 0 < al → num < 4096 → lcol < 256 →
    let at_ := fun (space rest : Nat) => s.locate mj reg anySpace (BitVec.ofNat 64 (space * 2 ^ 45 + rest)) n al
    let bad := fun (space rest : Nat) (sub : BitVec 8) =>
      Except.error (ε := Exc) (α := Loc) (addrExc mj sub reg (BitVec.ofNat 64 (space * 2 ^ 45 + rest)))
    (off < 2 ^ 19 → at_ 0 off =
      if off % al ≠ 0 then bad 0 off 3 else if s.me.scrSize < off + n then bad 0 off 4 else .ok (.scratch off)) ∧
    (off < 2 ^ 17 → at_ 1 off =
      if viewEnd s.me.id.num < off + n ∧ off < regSize s.me.id.num ∧ s.me.csr.level = 0 then .error ⟨0x13, 3, reg, 0, mj⟩
      else if off % al ≠ 0 then bad 1 off 3
      else if regSize s.me.id.num < off + n then bad 1 off 4
      else .ok (.regs off)) ∧
    (off < 2 ^ 19 → at_ 2 (num * 2 ^ 33 + off) =
      if off % al ≠ 0 then bad 2 (num * 2 ^ 33 + off) 3
      else if s.names s.me.id num = false then bad 2 (num * 2 ^ 33 + off) 5
      else if scrSizeOf num < off + n then bad 2 (num * 2 ^ 33 + off) 4 else .ok (.remote num off)) ∧
    (off < 2 ^ 25 → at_ 4 (lcol * 2 ^ 37 + off) =
      if off % al ≠ 0 then bad 4 (lcol * 2 ^ 37 + off) 3
      else if 4 * s.posOf s.me.id ≤ lcol then bad 4 (lcol * 2 ^ 37 + off) 5
      else if 2 ^ 25 < off + n then bad 4 (lcol * 2 ^ 37 + off) 4 else .ok (.bank lcol off)) ∧
    (∀ space ∈ [3, 5, 6, 7], off < 2 ^ 45 → at_ space off = bad space off 1) ∧
    (2 ^ 19 ≤ off → off < 2 ^ 45 → at_ 0 off = bad 0 off 2)

/-- R184 to R188: a load gives gt the bytes at its address, the youngest buffered store before
scratch, sign- or zero-extended, 4 cc after issue; a load of another core's scratch or of a bank is
sent at issue and owed; an address that names nothing raises its exception. -/
def Obligations.LoadWords : Prop :=
  ∀ (s : State) (rt ra : BitVec 6) (disp : BitVec 10),
    ∀ x ∈ [((.ldb rt ra disp, 1, true, false) : Instr × Nat × Bool × Bool), (.ldbn rt ra disp, 1, false, false),
        (.ldh rt ra disp, 2, true, false), (.ldhn rt ra disp, 2, false, false), (.ldw rt ra disp, 4, true, false),
        (.ldwn rt ra disp, 4, false, false), (.ldd rt ra disp, 8, false, false), (.ldbAcq rt ra disp, 1, true, true),
        (.ldbnAcq rt ra disp, 1, false, true), (.ldhAcq rt ra disp, 2, true, true), (.ldhnAcq rt ra disp, 2, false, true),
        (.ldwAcq rt ra disp, 4, true, true), (.ldwnAcq rt ra disp, 4, false, true), (.lddAcq rt ra disp, 8, false, true)],
      let n := x.2.1
      let acq := x.2.2.2
      let mj : BitVec 6 := if acq then 0x11 else 0x10
      let at_ := s.locate mj ra anySpace (s.me.gr ra + s.widen disp * BitVec.ofNat 64 n) n n
      let value := fun (bs : List Byte) =>
        let v : BitVec (8 * n) := BitVec.ofNat (8 * n) (bytesNat bs)
        if x.2.2.1 then v.signExtend 64 else v.setWidth 64
      (∀ off, at_ = .ok (.scratch off) → s.me.ready [.g ra, .scr off n] [.g rt] →
        s.me.loadWaits (.scratch off) n = false → s.me.scoreHolds off n false = false →
        exec x.1 s = .next (s.later (.g rt (value (s.ownBytes off n))) 4)) ∧
      (∀ off, at_ = .ok (.regs off) → s.me.ready (.g ra :: (Loc.regs off).res n s.me.id.num) [.g rt] →
        s.me.loadWaits (.regs off) n = false →
        exec x.1 s = .next (s.later (.g rt (value (s.regBytes off n))) 4)) ∧
      (∀ (l : Loc) (d : Place) (off : Nat), at_ = .ok l →
        (∃ num, l = .remote num off ∧ d = .core num) ∨ (∃ c, l = .bank c off ∧ d = .bank c) →
        s.me.ready [.g ra] [.g rt] → s.me.loadWaits l n = false → s.me.behindRead d = false → s.me.remoteOuts < 16 →
        exec x.1 s = .next ((s.onMe fun c => { c with
          outs := c.outs ++ [⟨.load, rt, c.seq, some d, acq, false, 0, 0⟩], seq := c.seq + 1 }).send s.me.id d
            (.load off n x.2.2.1 rt) s.me.seq)) ∧
      (∀ e, at_ = .error e → s.me.ready [.g ra] [.g rt] → exec x.1 s = .next (s.raise e))

/-- R184 to R186, R188: a store enters its bytes, the low bytes of gt, in the store buffer in
program order, for own scratch, or for a remote destination; a `.rel` form as a release; register
space is written one cc later, when no earlier read or near write is to perform first; an address
that names nothing raises its exception. -/
def Obligations.StoreWords : Prop :=
  ∀ (s : State) (rt ra : BitVec 6) (disp : BitVec 10),
    ∀ x ∈ [((.stb rt ra disp, 1, false) : Instr × Nat × Bool), (.sth rt ra disp, 2, false), (.stw rt ra disp, 4, false),
        (.std rt ra disp, 8, false), (.stbRel rt ra disp, 1, true), (.sthRel rt ra disp, 2, true),
        (.stwRel rt ra disp, 4, true), (.stdRel rt ra disp, 8, true)],
      let n := x.2.1
      let mj : BitVec 6 := if x.2.2 then 0x13 else 0x12
      let at_ := s.locate mj ra anySpace (s.me.gr ra + s.widen disp * BitVec.ofNat 64 n) n n
      let bs := natBytes n (s.me.gr rt).toNat
      let enters := fun (k : SbKind) => exec x.1 s = .next (s.onMe fun c =>
        { c with sb := c.sb ++ [⟨k, x.2.2, c.seq, true, c.rowsOwed⟩], seq := c.seq + 1 })
      (∀ off, at_ = .ok (.scratch off) → s.me.ready [.g ra, .g rt] [] → s.me.sb.length < 32 →
        s.me.scoreHolds off n true = false → enters (.scr off bs)) ∧
      (∀ (l : Loc) (d : Place) (off : Nat), at_ = .ok l →
        (∃ num, l = .remote num off ∧ d = .core num) ∨ (∃ c, l = .bank c off ∧ d = .bank c) →
        s.me.ready [.g ra, .g rt] [] → s.me.sb.length < 32 → enters (.send d (.store off bs))) ∧
      (∀ off, at_ = .ok (.regs off) → s.me.ready [.g ra, .g rt] ((Loc.regs off).res n s.me.id.num) →
        s.me.writeHeld = false → exec x.1 s = .next (s.later (.regs off bs) 1)) ∧
      (∀ e, at_ = .error e → s.me.ready [.g ra, .g rt] [] → exec x.1 s = .next (s.raise e))

/-- R157, R198, R199, R377: `ldfe` of a full line of own scratch takes its value, owed for 4 cc, and
empties the line, and waits while it is empty; `stfe` enters the buffer as a release; `feinit` sets
the bits of its lines; an operation of another core is applied when its line is ready and parked
when it is not, and a parked one is applied on a retry that finds its line ready, which an
application makes at once. -/
def Obligations.FullEmptyWords : Prop :=
  ∀ (s : State) (rt ra rb : BitVec 6) (disp : BitVec 10),
    let ea := s.me.gr ra + s.widen disp * 8
    (∀ off, s.locate 0x14 ra feSpace ea 8 8 = .ok (.scratch off) → s.me.ready [.g ra] [.g rt] →
      s.me.loadWaits (.scratch off) 8 = false → s.me.scoreHolds off 8 false = false →
      (s.feIs off = true → exec (.ldfe rt ra disp) s = .next ((s.feSet off false).onMe fun c => { c with
        outs := c.outs ++ [⟨.lineLoad, rt, c.seq, none, false, true, BitVec.ofNat 64 (s.ownNat off 8), 4⟩]
        pend := c.pend ++ [⟨.lineLoad rt, 4⟩], seq := c.seq + 1 })) ∧
      (s.feIs off = false → s.me.issue.commit = false → exec (.ldfe rt ra disp) s = .next (s.stall .waiting))) ∧
    (∀ num off, s.locate 0x14 ra feSpace ea 8 8 = .ok (.remote num off) → s.me.ready [.g ra] [.g rt] →
      s.me.sb.length < 32 → s.me.loadWaits (.remote num off) 8 = false → s.me.remoteOuts < 16 →
      exec (.ldfe rt ra disp) s = .next (s.onMe fun c => { c with
        outs := c.outs ++ [⟨.load, rt, c.seq, some (.core num), true, false, 0, 0⟩]
        sb := c.sb ++ [⟨.send (.core num) (.ldfe off rt), false, c.seq, true, c.rowsOwed⟩], seq := c.seq + 1 })) ∧
    (∀ l, s.locate 0x15 ra feSpace ea 8 8 = .ok l → s.me.ready [.g ra, .g rt] [] → s.me.sb.length < 32 →
      (l.isRemote = true ∨ s.me.scoreHolds l.off 8 true = false) →
      exec (.stfe rt ra disp) s = .next (s.onMe fun c => { c with
        sb := c.sb ++ [⟨if l.isRemote then .send (l.place c.id.num) (.stfe l.off (c.gr rt)) else .stfe l.off (c.gr rt),
          true, c.seq, true, c.rowsOwed⟩], seq := c.seq + 1 })) ∧
    (∀ line count : Nat, s.me.composed = false → s.me.writeHeld = false → s.me.ready [.g ra, .g rb] [] →
      s.me.gr ra = BitVec.ofNat 64 (128 * line) → 1 ≤ count → count ≤ 4096 → 128 * (line + count) ≤ s.me.scrSize →
      ∀ full : Bool, s.me.gr rb = BitVec.ofNat 64 (count + if full then 2 ^ 63 else 0) →
        exec (.feinit ra rb) s = .next (s.later (.fe line count full) 1)) ∧
    ∀ (k : Nat) (m : Msg) (num : Nat) (c : Core) (id : CoreId), m.dst = .core num → id = { m.src with num := num } →
      s.core? id = some c → ((∃ off rd, m.op = .ldfe off rd) ∨ ∃ off v, m.op = .stfe off v) →
      (s.arrives k m → exec .feRemoteApply s = .next
        (if c.feReady m then (((s.less k).feApply c m).retryAll c.id).counted m
         else if c.waitList.length < 16 then (s.less k).updCore c.id fun d => { d with waitList := d.waitList ++ [m] }
         else if 256 ≤ c.spill.length then ((s.less k).spillTo c.id (.fe m)).counted m
         else (s.less k).spillTo c.id (.fe m))) ∧
      (s.ev = .core id → c.parkedFe = [(m, true)] → exec .feParkedRetry s = .next
        (if c.feReady m then ((s.feApply c m).updCore id fun d => { d with waitList := d.waitList.erase m }).counted m
         else s))

/-- R191 to R193: an atomic word enters the store buffer, after the words before it, with its
operands; its result is owed to gd. R192: what each operation makes of the old bytes; `afadd` adds the
`f32` in the low halves by `rne` and raises no flag, a NaN by R91, an infinity as R239 gives it. -/
def Obligations.AtomicWords : Prop :=
  ∀ (s : State) (rd ra rb : BitVec 6) (o : Order),
    (∀ x ∈ [((.aadd rd ra rb o, .add) : Instr × AtomOp), (.aswp rd ra rb o, .swp), (.acas rd ra rb o, .cas),
        (.amin rd ra rb o, .min), (.amax rd ra rb o, .max), (.aminn rd ra rb o, .minn), (.amaxn rd ra rb o, .maxn),
        (.aand rd ra rb o, .and), (.aor rd ra rb o, .or), (.axor rd ra rb o, .xor), (.afadd rd ra rb o, .fadd)],
      let n := if x.2 = .fadd then 4 else 8
      let at_ := s.locate 0x39 ra atomSpace (s.me.gr ra) n n
      s.me.ready [.g ra, .g rb, .g rd] [.g rd] →
      (∀ l, at_ = .ok l → s.me.sb.length < 32 → s.me.loadWaits l n = false → s.me.remoteOuts < 16 →
        let d := (s.atomPlace l).1
        exec x.1 s = .next (s.onMe fun c => { c with
          outs := c.outs ++ [⟨.atomic, rd, c.seq, some d, o == .acq, false, 0, 0⟩]
          sb := c.sb ++ [⟨.send d (.atomic x.2 (s.atomPlace l).2 (c.gr rb) (c.gr rd) rd), o == .rel, c.seq, true, c.rowsOwed⟩]
          seq := c.seq + 1 })) ∧
      (∀ e, at_ = .error e → exec x.1 s = .next (s.raise e))) ∧
    ∀ old b e : BitVec 64,
      (let x := fmt32.decode (old.toNat % 2 ^ 32)
       let y := fmt32.decode (b.toNat % 2 ^ 32)
       let sum := fun (v : Nat) => atomNew .fadd old b e = BitVec.ofNat 64 v
       (∀ sa ma ea sb mb eb, x = .fin sa ma ea → y = .fin sb mb eb → sum (fmt32.sum ⟨.rne, 0, false⟩ sa ma ea sb mb eb).1) ∧
       (∀ sa, x = .inf sa → (y = .inf sa ∨ ∃ sb mb eb, y = .fin sb mb eb) → sum (fmt32.infBits sa)) ∧
       (∀ sa ma ea sb, x = .fin sa ma ea → y = .inf sb → sum (fmt32.infBits sb)) ∧
       (∀ sa, x = .inf sa → y = .inf (!sa) → sum fmt32.nanBits) ∧
       ∀ r, fmt32.firstNan [x, y] = some r → sum r.1) ∧
      atomNew .add old b e = old + b ∧ atomNew .swp old b e = b ∧ atomNew .cas old b e = (if old = e then b else old) ∧
      atomNew .min old b e = (if old.toInt < b.toInt then old else b) ∧
      atomNew .max old b e = (if old.toInt < b.toInt then b else old) ∧
      atomNew .minn old b e = (if old.toNat < b.toNat then old else b) ∧
      atomNew .maxn old b e = (if old.toNat < b.toNat then b else old) ∧
      atomNew .and old b e = old &&& b ∧ atomNew .or old b e = old ||| b ∧ atomNew .xor old b e = old ^^^ b

/-! ## Messages, rings and tasks -/

/-- R206, R219 to R223: `xput`, `amsg` and `tsig` enter a message for their target core, `tspawn` and
`tfork` push an entry at the bottom or the top of the core's own deque, `tinit` writes the first two
words of a task control block and, when its count is 0, pushes it; all but `xput` and `tinit` are
releases. A core number outside the region raises class 0x20, a push that finds no place 0x21. -/
def Obligations.MessageWords : Prop :=
  ∀ (s : State) (ga gb gc : BitVec 6) (x : BitVec 5),
    let a := s.me.gr ga
    let b := s.me.gr gb
    let enters := fun (i : Instr) (k : SbKind) (rel : Bool) => exec i s = .next (s.onMe fun c =>
      { c with sb := c.sb ++ [⟨k, rel, c.seq, true, c.rowsOwed⟩], seq := c.seq + 1 })
    let raises := fun (i : Instr) (e : Exc) => exec i s = .next (s.raise e)
    let home := a.extractLsb' 32 12
    let low := a.extractLsb' 0 12
    s.me.sb.length < 31 →
    (s.me.ready [.g ga, .g gb] [] →
      (a.toNat < 4096 → s.names s.me.id low.toNat = true →
        enters (.xput ga gb x) (.send (.core low.toNat) (.deposit x b)) false) ∧
      (a.toNat < 4096 → s.names s.me.id low.toNat = false →
        raises (.xput ga gb x) ⟨0x20, 1, ga, low.setWidth 48, 0x3A⟩) ∧
      (4096 ≤ a.toNat → raises (.xput ga gb x) ⟨0x18, 1, ga, a.setWidth 48, 0x3A⟩) ∧
      (refCheck 0x3B ga a = none → s.names s.me.id low.toNat = true →
        enters (.tsig ga gb) (.send (.core low.toNat) (.signal a b)) true) ∧
      (refCheck 0x3B ga a = none → s.names s.me.id low.toNat = false →
        raises (.tsig ga gb) ⟨0x20, 3, ga, low.setWidth 48, 0x3B⟩)) ∧
    (s.me.ready (.g ga :: argRes a gb) [] →
      (headerCheck 0x3A ga gb false a = none → s.names s.me.id home.toNat = true →
        enters (.amsg ga gb) (.send (.core home.toNat) (.message a (s.me.grRun gb (headerArgc a)))) true) ∧
      (headerCheck 0x3A ga gb false a = none → s.names s.me.id home.toNat = false →
        raises (.amsg ga gb) ⟨0x20, 2, ga, home.setWidth 48, 0x3A⟩) ∧
      (headerCheck 0x3B ga gb true a = none → ∀ y ∈ [((.tspawn ga gb, false) : Instr × Bool), (.tfork ga gb, true)],
        if s.me.hasPlace (a.getLsbD 10) y.2
        then enters y.1 (.push (headerEntry a (s.me.grRun gb (headerArgc a))) y.2) true
        else raises y.1 ⟨0x21, 1, 0, 0, 0x3B⟩)) ∧
    (s.me.ready [.g ga, .g gb, .g gc] [] → s.me.composed = false →
      let l := s.me.gr gc
      let tcb := fun (st : BitVec 64) =>
        natBytes 8 ((b &&& 0xFFFFFFFFFFFFCFFF) ||| st).toNat ++ natBytes 8 l.toNat
      a.toNat % 64 = 0 → a.toNat + 64 ≤ openEnd s.me.id.num → l.toNat % 8 = 0 → l.toNat < 2 ^ 19 →
      b.extractLsb' 48 16 = 0 → b.extractLsb' 14 2 = 0 → b.getLsbD 11 = false →
      s.me.scoreHolds a.toNat 16 true = false →
        (b.extractLsb' 16 16 ≠ 0 → enters (.tinit ga gb gc) (.scr a.toNat (tcb 0x1000)) false) ∧
        (b.extractLsb' 16 16 = 0 → s.me.hasPlace (b.getLsbD 10) false = true →
          exec (.tinit ga gb gc) s = .next (s.onMe fun c => { c with
            sb := c.sb ++ [⟨.scr a.toNat (tcb 0x2000), false, c.seq, true, c.rowsOwed⟩,
              ⟨.pushTcb a.toNat (b.getLsbD 10), false, c.seq + 1, true, c.rowsOwed⟩]
            seq := c.seq + 2 })) ∧
        (b.extractLsb' 16 16 = 0 → s.me.hasPlace (b.getLsbD 10) false = false →
          raises (.tinit ga gb gc) ⟨0x21, 1, 0, 0, 0x3B⟩))

/-- R69, R71, R203 to R205: `rinit` loads a ring handle; `radv` moves a ring's pointers and counts
by c slots, waiting for them and for earlier accesses (R300), and tells the peer; a count of 0 moves
nothing; a credit or fill that arrives from the bound peer adds to the handle's count. -/
def Obligations.RingWords : Prop :=
  ∀ (s : State) (q : BitVec 3) (ra : BitVec 6),
    let c := ((s.me.gr ra).extractLsb' 0 11).toNat
    let h := s.me.ringNow q
    let n := BitVec.ofNat 11 c
    let img := BitVec.ofNat 256 (s.ownNat (s.me.gr ra).toNat 32)
    let peer : Place := .core (ringPeer h)
    let sends := fun (s : State) (op : RemoteOp) (rel : Bool) => s.onMe fun c =>
      { c with sb := c.sb ++ [⟨.send peer op, rel, c.seq, true, c.rowsOwed⟩], seq := c.seq + 1 }
    s.me.ready [.g ra] [] →
    (s.me.composed = false → (s.me.gr ra).toNat % 32 = 0 → (s.me.gr ra).toNat + 32 ≤ s.me.scrSize →
      let held := s.me.readsHeld [((s.me.gr ra).toNat, 32)]
      (held = false → ringReservedZero img = true → s.ringImageOk img = true →
        exec (.rinit q ra) s = .next (s.later (.ring q img) 1)) ∧
      (held = true → s.me.issue.commit = false → exec (.rinit q ra) s = .next (s.stall .waiting))) ∧
    (s.me.writeHeld = true → s.me.issue.commit = false → c ≤ 2 ^ ringLcount h →
      (ringRole h = 0 ∨ ringRole h = 1 → exec (.radvPop ra q) s = .next (s.stall .waiting)) ∧
      (ringRole h = 0 ∨ ringRole h = 2 → exec (.radvPush ra q) s = .next (s.stall .waiting))) ∧
    (s.me.writeHeld = false → c ≤ 2 ^ ringLcount h → 0 < c →
      (ringRole h = 0 ∨ ringRole h = 1 → exec (.radvPop ra q) s = .next
        (if c ≤ (ringFill h).toNat then s.later (.ringPop q c) 1 else s.stall .waiting)) ∧
      (ringRole h = 0 ∨ ringRole h = 2 → exec (.radvPush ra q) s = .next
        (if c ≤ (ringFree h).toNat then s.later (.ringPush q c) 1 else s.stall .waiting)) ∧
      (ringRole h = 1 → s.me.acquiring = false → s.names s.me.id (ringPeer h) = true → s.me.sb.length < 32 →
        exec (.radvCredit ra q) s = .next (sends s (.credit (ringPq h) n) false)) ∧
      (ringRole h = 2 → s.names s.me.id (ringPeer h) = true → s.me.sb.length < 32 →
        exec (.radvFill ra q) s = .next (sends (s.later (.ringPush q c) 1) (.fill (ringPq h) n) true))) ∧
    (c = 0 → s.me.writeHeld = false → (ringRole h = 0 ∨ ringRole h = 1 → exec (.radvPop ra q) s = .next s) ∧
      (ringRole h = 0 ∨ ringRole h = 2 → exec (.radvPush ra q) s = .next s)) ∧
    (ringRole h = 2 → exec (.radvPop ra q) s = .next (s.raise ⟨0x18, 5, q.setWidth 6, 0, 0x3A⟩)) ∧
    (ringHead (ringPop h c)).toNat = ((ringHead h).toNat + c) % 2 ^ ringLcount h % 1024 ∧
    ringFill (ringPop h c) = ringFill h - n ∧ ringTail (ringPop h c) = ringTail h ∧ ringFree (ringPop h c) = ringFree h ∧
    (ringTail (ringPush h c)).toNat = ((ringTail h).toNat + c) % 2 ^ ringLcount h % 1024 ∧
    ringFree (ringPush h c) = ringFree h - n ∧ ringHead (ringPush h c) = ringHead h ∧
    ringFill (ringPush h c) = (if ringRole h = 0 then ringFill h + n else ringFill h)

/-- R71: a credit that arrives from the bound producer's peer raises the free count, a fill advance
that arrives from the bound peer the fill count; nothing else of the handle moves. R406: in run-ahead
the handle that stands at b moves with it. -/
def Obligations.RingArrivals : Prop :=
  ∀ (s : State) (k num : Nat) (m : Msg) (c : Core) (q : BitVec 3) (n : BitVec 11), s.arrives k m →
    m.dst = .core num → s.core? { m.src with num := num } = some c → ringPeer (c.arch.ring q) = m.src.num →
    let h := c.arch.ring q
    let gets := fun (i : Instr) (f : BitVec 256 → BitVec 256) => exec i s = .next
      ((((s.less k).updCore c.id fun d => d.both fun d => { d.setRing q (f (d.ring q)) with latch := true }).acknowledge m).counted m)
    (∀ (d : Core) (f : Core → Core), d.ckpt = none → d.both f = f d ∧ d.arch = d) ∧
    (m.op = .credit q n → ringRole h = 2 → gets .ringCreditArrive
      fun h => ringWith h (ringHead h) (ringTail h) (ringFill h) (ringFree h + n)) ∧
    (m.op = .fill q n → ringRole h = 1 → s.phase = .run →
      (c.spill.any fun x => match x with | .ring j _ => j == q | _ => false) = false →
      gets .ringFillArrive fun h => ringWith h (ringHead h) (ringTail h) (ringFill h + n) (ringFree h))

/-- R224, R218: `tend` of a task without a TCB leaves the core idle, with the next task 4 cc away; of a
task with one it also enters, as a release, the signals of its successors with the value of `g10` and
the store that frees the TCB; it waits until every result has landed, until remote loads have brought
the references when another core holds them, and, as a local load and store do, for commands and
stores that hold the references and the TCB in own scratch (R68). -/
def Obligations.TaskEnd : Prop :=
  ∀ s : State, s.me.ready [.g 10] [] →
    let idle := fun (c : Core) => { c with running := none, bubble := 4, refs := [], issue := { c.issue with taken := true } }
    (s.me.unfinished = true → s.me.issue.commit = false → exec .tend s = .next (s.stall .operand)) ∧
    ∀ e : BitVec 512, s.me.running = some e → s.me.unfinished = false →
      (s.me.refsOwed e = true → s.me.issue.commit = false → exec .tend s = .next ((s.loadRef e).stall .waiting)) ∧
      (entryTcb e = false → exec .tend s = .next (s.onMe idle)) ∧
      (s.me.refsOwed e = false → s.me.issue.commit = false → s.me.readsHeld (s.me.listRanges e) = true →
        exec .tend s = .next (s.stall .waiting)) ∧
      (s.me.refsOwed e = false → s.me.issue.commit = false → s.me.tcbHeld e = true →
        (∀ r ∈ s.successors e, refCheck 0x3B 0 r = none) → s.badRef 0 (s.successors e) = none →
        exec .tend s = .next (s.stall .waiting)) ∧
      (entryTcb e = true → s.me.refsOwed e = false → s.me.readsHeld (s.me.listRanges e) = false →
        s.me.tcbHeld e = false → s.me.sb.length < 32 → (∀ r ∈ s.successors e, refCheck 0x3B 0 r = none) →
        s.badRef 0 (s.successors e) = none →
        exec .tend s = .next (s.onMe fun c => idle { c with
          sb := c.sb ++ [⟨.finish (s.successors e) (s.me.gr 10) (entryHome e) (entryOff e + 1),
            true, c.seq, true, c.rowsOwed⟩]
          seq := c.seq + 1 }))

/-- R68, R209 to R211: a bulk word enters one command as a release, with the range of the core's own
scratch that it reads or writes; the beats of `bcopy` cover its bytes, each at most 256 and none past
a 256-byte boundary of its destination; a count that is not a multiple of 4 from 4 to 16,777,216
raises class 0x18 sub 2. -/
def Obligations.BulkWords : Prop :=
  ∀ (s : State) (ga gb gc : BitVec 6) (w : BitVec 5) (x y : Loc),
    let n := (s.me.gr gc).toNat
    let t := Tile.of (s.me.gr gc)
    let kicks := fun (i : Instr) (b : Bulk) (r : List ScoreEntry) => exec i s = .next (s.onMe fun c =>
      { c with sb := c.sb ++ [⟨.bulk b, true, c.seq, true, c.rowsOwed⟩], seq := c.seq + 1, score := c.score ++ r })
    let side := fun (l : Loc) => l.side s.me.compN s.me.id.num
    let far := (t.rows - 1) * t.fpitch + t.n
    let own := fun (l : Loc) (n : Nat) (wr : Bool) => s.me.ownRange l n wr
    (s.me.ready [.g ga, .g gb, .g gc] [] → n % 4 = 0 → 4 ≤ n → n ≤ 16777216 →
      s.locate 0x38 ga bulkSpace (s.me.gr ga) n 4 = .ok x → s.locate 0x38 gb bulkSpace (s.me.gr gb) n 4 = .ok y →
      shareByte (s.me.pieces y n) (s.me.pieces x n) = false →
      s.me.bulkWaits (own y n false ++ own x n true) = false →
      kicks (.bcopy ga gb gc w) (s.command .bcopy (side y) (side x) (copyBeats (n / 256 + 2) y.off x.off n) w)
        (own y n false ++ own x n true)) ∧
    (s.me.ready [.g ga, .g gb, .g gc] [] → (n % 4 ≠ 0 ∨ n < 4 ∨ 16777216 < n) →
      s.locate 0x38 ga bulkSpace (s.me.gr ga) 4 4 = .ok x → s.locate 0x38 gb bulkSpace (s.me.gr gb) 4 4 = .ok y →
      exec (.bcopy ga gb gc w) s = .next (s.raise ⟨0x18, 2, gc, (s.me.gr gc).setWidth 48, 0x38⟩)) ∧
    (∀ r : Nat, tileExc gc (s.me.gr gc) = none → r + (t.rows - 1) * t.rpitch + t.n ≤ viewEnd s.me.id.num →
      (s.me.ready [.g ga, .g gb, .g gc] (rowRes r t.rpitch t.n t.rows) → s.tileBase ga (s.me.gr ga) = .ok r →
        s.locate 0x38 gb bulkSpace (s.me.gr gb) far 4 = .ok y → s.me.bulkWaits (own y far false) = false →
        kicks (.tload ga gb gc w) (s.command .tload (side y) (.regs s.me.id.num)
          (tileBeats y.off t.fpitch r t.rpitch t.n t.rows) w) (own y far false)) ∧
      (s.me.ready ([.g ga, .g gb, .g gc] ++ rowRes r t.rpitch t.n t.rows) [] → s.tileBase gb (s.me.gr gb) = .ok r →
        s.locate 0x38 ga bulkSpace (s.me.gr ga) far 4 = .ok x → s.me.bulkWaits (own x far true) = false →
        kicks (.tstore ga gb gc w) (s.command .tstore (.regs s.me.id.num) (side x)
          (tileBeats r t.rpitch x.off t.fpitch t.n t.rows) w) (own x far true))) ∧
    ∀ src dst, ((copyBeats (n / 256 + 2) src dst n).map fun b => b.len).sum = n ∧
      ∀ b ∈ copyBeats (n / 256 + 2) src dst n, 1 ≤ b.len ∧ b.dst % 256 + b.len ≤ 256 ∧ b.src + dst = b.dst + src

/-- R226 to R231: `cmpo` first reserves its members and waits, is refused with 0 in gd when one of them
is taken, and once COMPOSE_BIND has bound them starts the block at its target as the leader of n; `cmpr`
gives the members back, puts n in gd and resumes after the `cmpo`; `cmpq` reads the composition. -/
def Obligations.ComposeWords : Prop :=
  ∀ (s : State) (rd rs : BitVec 6) (n : CmpN),
    let k := cmpSize n
    (s.me.ready [.g rs] [.g rd] → s.me.composed = false → s.me.csr.level = 0 → (s.me.gr rs).toNat % 4 = 0 →
      s.me.id.num % 8 + k ≤ 8 →
      (s.me.binding = none → s.composeRefused k = true → exec (.cmpo rd rs n) s = .next (s.later (.g rd 0) 1)) ∧
      (s.me.binding = none → s.composeRefused k = false → exec (.cmpo rd rs n) s = .next
        ((s.updMembers k fun c => { c with compo := .reserved s.me.id.num }).onMe fun c =>
          { c with binding := some ⟨k, false⟩, issue := { c.issue with status := .waiting, keep := true } })) ∧
      (s.me.binding = some ⟨k, false⟩ → s.me.issue.commit = false → exec (.cmpo rd rs n) s = .next (s.stall .waiting)) ∧
      (s.me.binding = some ⟨k, true⟩ → ∃ c, exec (.cmpo rd rs n) s = .next { s with me := c } ∧
        c.pc = (s.me.gr rs).toNat ∧ c.compN = k ∧ c.csr.lpcnt = 0 ∧ c.binding = none ∧ c.blk = true ∧
        c.g = s.me.g ∧ c.scr = s.me.scr)) ∧
    (∀ (m lb le lc resume) (gd : BitVec 6), s.me.compo = .leader m (lb, le, lc) gd resume → s.me.ready [] [] →
      s.me.unfinished = false → s.me.sb = [] → (∀ i < m - 1, s.sibling (i + 1) ≠ s.me.id) →
      (∀ i < m - 1, ∀ c, s.core? (s.sibling (i + 1)) = some c → c.sb = []) →
      ∃ t, exec .cmpr s = .next t ∧ t.me.pc = resume ∧ t.me.compo = .plain ∧
        (∀ i < m - 1, ∀ c, s.core? (s.sibling (i + 1)) = some c →
          ∃ d, t.core? (s.sibling (i + 1)) = some d ∧ d.compo = .plain ∧ d.running = none ∧ d.scr = c.scr ∧ d.vmem = c.vmem) ∧
        t.me.gr gd = (if gd = 0 then 0 else BitVec.ofNat 64 m) ∧
        t.me.csr.lpbeg = lb ∧ t.me.csr.lpend = le ∧ t.me.csr.lpcnt = lc) ∧
    (s.me.compo = .plain → s.me.ready [] [] → exec .cmpr s = .next (s.raise ⟨0x14, 4, 0, 0, 0x3C⟩)) ∧
    (s.me.ready [] [.g rd] → exec (.cmpq rd) s = .next (s.later
      (.g rd (BitVec.ofNat 64 ((if s.me.composed then 65536 else 0) + s.me.id.num * 16 + s.me.compN))) 4)) ∧
    (s.ev = .core s.me.id → s.me.binding = some ⟨k, false⟩ → s.me.unfinished = false → s.me.columnOpen = false → s.flows = true →
      (∀ i < k - 1, ∃ c, s.core? (s.sibling (i + 1)) = some c ∧ c.readyFor s.me.id.num = true) →
      exec .composeBind s = .next ((s.updMembers k fun c => { c with compo := .member s.me.id.num }).onMe fun c =>
        { c with binding := some ⟨k, true⟩ }))

/-! ## Vector words -/

/-- R233 to R235, R238, R239, R243: the element-wise words of two sources: over plain views each row of
vd receives f of the elements of the rows of va and vb, one row per cc from 4 cc after issue (10 for
`vdiv`), the flags with the last row; the pipe is held for the rows. A type outside the word's class
raises class 0x16 sub 3, and a row that is no whole number of elements sub 1.

R233 to R235, R238, R239, R242: the element-wise words of one source, and the special functions,
whose values within the bounds of R242 are the free values of notes/assumptions/21.md.

R233 to R235, R241, R244: fused multiply-add, ±(a × b) ± c with one rounding, and selection by a
mask. -/
def Obligations.VectorElementWords : Prop :=
  (∀ (s : State) (vd va vb : BitVec 5) (t : EType) (c : VCond),
    let r := s.shapeRows
    let n := s.shapeBytes
    let k := elemsOf t n
    let int := fmtOf t = none
    let wide := t = .f32 ∨ t = .bf16 ∨ t = .f16
    s.me.vbusy = 0 → s.plainView va r n → s.plainView vb r n → s.plainView vd r n →
    s.me.ready (s.viewRes va r n ++ s.viewRes vb r n) (s.viewRes vd r n) →
    ∀ x ∈ [((.vadd vd va vb t, 0x20, 4, True, elemAdd s.rnd) :
          Instr × BitVec 6 × Nat × Prop × (EType → Nat → Nat → Nat × BitVec 5)),
        (.vsub vd va vb t, 0x20, 4, True, elemSub s.rnd), (.vmul vd va vb t, 0x20, 4, True, elemMul s.rnd),
        (.vmin vd va vb t, 0x20, 4, True, elemMin s.rnd), (.vmax vd va vb t, 0x20, 4, True, elemMax s.rnd),
        (.vdiv vd va vb t, 0x20, 10, wide, arith s.rnd (fun a _ => a) fun f r a b => f.div r (f.decode a) (f.decode b)),
        (.vand vd va vb t, 0x20, 4, True, bitsOp (· &&& ·)), (.vor vd va vb t, 0x20, 4, True, bitsOp (· ||| ·)),
        (.vxor vd va vb t, 0x20, 4, True, bitsOp (· ^^^ ·)), (.vshl vd va vb t, 0x20, 4, int, elemShl),
        (.vshr vd va vb t, 0x20, 4, int, elemShr), (.vsra vd va vb t, 0x20, 4, isSigned t = true, elemSra),
        (.vmulh vd va vb t, 0x20, 4, int ∧ 8 ≤ widthOf t, elemMulh), (.vcmp vd va vb t c, 0x27, 4, True, elemCmp c)],
      let out := packRows (widthOf t) n
        (((s.viewElems t va r n k).zip (s.viewElems t vb r n k)).map fun (a, b) => (a.zip b).map fun (i, j) => x.2.2.2.2 t i j)
      (x.2.2.2.1 → rowFits t n = true → exec x.1 s = .next (s.rowsLand vd r r x.2.2.1 out.1 out.2)) ∧
      (¬x.2.2.2.1 → exec x.1 s = .next (s.raise ⟨0x16, 3, 0, 0, x.2.1⟩)) ∧
      (x.2.2.2.1 → rowFits t n = false → exec x.1 s = .next (s.raise ⟨0x16, 1, 0, 0, x.2.1⟩))) ∧
  (∀ (s : State) (vd va : BitVec 5) (t : EType),
    let r := s.shapeRows
    let n := s.shapeBytes
    let k := elemsOf t n
    let wide := t = .f32 ∨ t = .bf16 ∨ t = .f16
    s.me.vbusy = 0 → s.plainView va r n → s.plainView vd r n → s.me.ready (s.viewRes va r n) (s.viewRes vd r n) →
    ∀ x ∈ [((.vabs vd va t, 0x20, 4, isFloat t = true ∨ isSigned t = true, elemAbs) :
          Instr × BitVec 6 × Nat × Prop × (EType → Nat → Nat × BitVec 5)),
        (.vneg vd va t, 0x20, 4, isFloat t = true ∨ isSigned t = true, elemNeg),
        (.vnot vd va t, 0x20, 4, True, fun t a => (2 ^ widthOf t - 1 - a, 0)),
        (.vsqrt vd va t, 0x20, 10, wide, floatOne fun f a => f.sqrt s.rnd a),
        (.vexp vd va t, 0x21, 10, wide, elemSpecial .exp), (.vexp2 vd va t, 0x21, 10, wide, elemSpecial .exp2),
        (.vlog2 vd va t, 0x21, 10, wide, elemSpecial .log2), (.vtanh vd va t, 0x21, 10, wide, elemSpecial .tanh),
        (.vsigm vd va t, 0x21, 10, wide, elemSpecial .sigm),
        (.vrcp vd va t, 0x21, 10, wide, floatOne fun f a => f.rcp s.rnd a),
        (.vrsqrt vd va t, 0x21, 10, wide, floatOne fun f a => f.rsqrt s.rnd a)],
      let out := packRows (widthOf t) n ((s.viewElems t va r n k).map fun a => a.map (x.2.2.2.2 t))
      (x.2.2.2.1 → rowFits t n = true → exec x.1 s = .next (s.rowsLand vd r r x.2.2.1 out.1 out.2)) ∧
      (¬x.2.2.2.1 → exec x.1 s = .next (s.raise ⟨0x16, 3, 0, 0, x.2.1⟩)) ∧
      (x.2.2.2.1 → rowFits t n = false → exec x.1 s = .next (s.raise ⟨0x16, 1, 0, 0, x.2.1⟩))) ∧
  (∀ (s : State) (vd va vb vc : BitVec 5) (t : EType),
    let r := s.shapeRows
    let n := s.shapeBytes
    let k := elemsOf t n
    let some_ := t = .f32 ∨ t = .bf16 ∨ t = .f16 ∨ fmtOf t = none
    s.me.vbusy = 0 → s.plainView va r n → s.plainView vb r n → s.plainView vc r n → s.plainView vd r n →
    s.me.ready (s.viewRes va r n ++ s.viewRes vb r n ++ s.viewRes vc r n) (s.viewRes vd r n) →
    ∀ x ∈ [((.vfma vd va vb vc t, 0x22, 5, some_, elemFma s.rnd false false) :
          Instr × BitVec 6 × Nat × Prop × (EType → Nat → Nat → Nat → Nat × BitVec 5)),
        (.vfms vd va vb vc t, 0x23, 5, some_, elemFma s.rnd false true),
        (.vfnma vd va vb vc t, 0x24, 5, some_, elemFma s.rnd true true),
        (.vfnms vd va vb vc t, 0x25, 5, some_, elemFma s.rnd true false), (.vsel vd va vb vc t, 0x26, 4, True, elemSel)],
      let out := packRows (widthOf t) n (((s.viewElems t va r n k).zip ((s.viewElems t vb r n k).zip
        (s.viewElems t vc r n k))).map fun (a, b, c) => (a.zip (b.zip c)).map fun (i, j, l) => x.2.2.2.2 t i j l)
      (x.2.2.2.1 → rowFits t n = true → exec x.1 s = .next (s.rowsLand vd r r x.2.2.1 out.1 out.2)) ∧
      (¬x.2.2.2.1 → exec x.1 s = .next (s.raise ⟨0x16, 3, 0, 0, x.2.1⟩)) ∧
      (x.2.2.2.1 → rowFits t n = false → exec x.1 s = .next (s.raise ⟨0x16, 1, 0, 0, x.2.1⟩)))

/-- R240: the immediate forms: vd op imm, or imm in every element for `vsplat`, under the type of vd's
entry, with the immediate of the word or of the word and its hint.

R94, R156: the rows of a vector result land one per cc, the first `L` cc after issue, the flags with
the last; each changes exactly its bytes of the view area. -/
def Obligations.VectorImmediateWords : Prop :=
  (∀ (s : State) (vd : BitVec 5) (imm : BitVec 16) (t : EType),
    let r := s.shapeRows
    let n := s.shapeBytes
    let k := elemsOf t n
    let int := fmtOf t = none
    let i := match s.me.issue.hw with
      | [] => vectorImm s.esat t false (imm.setWidth 32)
      | p :: _ => vectorImm s.esat t true ((p.setWidth 16) ++ imm)
    let row := pack (widthOf t) n (List.replicate k i)
    s.me.vbusy = 0 → viewType (s.me.view vd.toNat) = some t → rowFits t n = true → s.plainView vd r n →
    (s.me.ready [] (s.viewRes vd r n) →
      exec (.vsplatImm vd imm) s = .next (s.rowsLand vd r r 4 (List.replicate r row) 0)) ∧
    (s.me.ready (s.viewRes vd r n) (s.viewRes vd r n) →
    ∀ x ∈ [((.vaddImm vd imm, True, elemAdd s.rnd) : Instr × Prop × (EType → Nat → Nat → Nat × BitVec 5)),
        (.vsubImm vd imm, True, elemSub s.rnd), (.vmulImm vd imm, True, elemMul s.rnd),
        (.vminImm vd imm, True, elemMin s.rnd), (.vmaxImm vd imm, True, elemMax s.rnd),
        (.vandImm vd imm, True, bitsOp (· &&& ·)), (.vorImm vd imm, True, bitsOp (· ||| ·)),
        (.vxorImm vd imm, True, bitsOp (· ^^^ ·)), (.vshlImm vd imm, int, elemShl), (.vshrImm vd imm, int, elemShr),
        (.vsraImm vd imm, isSigned t = true, elemSra)],
      let out := packRows (widthOf t) n ((s.viewElems t vd r n k).map fun a => a.map fun j => x.2.2 t j i)
      (x.2.1 → exec x.1 s = .next (s.rowsLand vd r r 4 out.1 out.2)) ∧
      (¬x.2.1 → exec x.1 s = .next (s.raise ⟨0x16, 3, vd.setWidth 6, 0, 0x2E⟩)))) ∧
  (∀ (s : State) (vd : BitVec 5) (rows hold L : Nat) (out : List (List Byte)) (fl : BitVec 5), out.length = rows →
    (s.rowsLand vd rows hold L out fl).me.vbusy = hold ∧
    s.rowsLand vd rows hold L out fl = { s with me := { s.me with
      vbusy := hold, pend := (s.rowsLand vd rows hold L out fl).me.pend } } ∧
    (s.rowsLand vd rows hold L out fl).me.pend.length = s.me.pend.length + rows ∧
    (∀ i < rows, (s.rowsLand vd rows hold L out fl).me.pend[s.me.pend.length + i]? = some
      ⟨.row (viewBase (s.me.view vd.toNat) + i * viewPitch (s.me.view vd.toNat)) (out.getD i [])
        (if i + 1 = rows then fl else 0), L + i⟩) ∧
    ∀ (c : Core) (a x : Nat) (bs : List Byte), c.vmem.wf = true →
      (c.apply (.row a bs fl)).vmem.get x = (if a ≤ x ∧ x < a + bs.length then bs.getD (x - a) 0 else c.vmem.get x))

/-- R238, R243, R244: what the element operations make of integer elements, and the bitwise ones of any:
exactly, modulo 2^w, without a flag; shifts by b mod w; a comparison gives all ones or zero. -/
def Obligations.IntegerElements : Prop :=
  ∀ (t : EType) (rnd : Rnd) (a b m : Nat), let w := widthOf t
    let p : Int := 2 ^ w
    let i := fun (x : Nat) => intOf (isSigned t) w x
    let is := fun (y : Nat × BitVec 5) (x : Int) => y = ((x % p).toNat, 0)
    a < 2 ^ w → b < 2 ^ w →
    (∀ x < 2 ^ w, i x = if isSigned t = true ∧ 2 ^ (w - 1) ≤ x then (x : Int) - p else x) ∧
    (fmtOf t = none →
      is (elemAdd rnd t a b) (i a + i b) ∧ is (elemSub rnd t a b) (i a - i b) ∧ is (elemMul rnd t a b) (i a * i b) ∧
      is (elemMin rnd t a b) (if i a ≤ i b then i a else i b) ∧ is (elemMax rnd t a b) (if i a ≤ i b then i b else i a) ∧
      is (elemMulh t a b) (i a * i b / p) ∧ is (elemShl t a b) (a * 2 ^ (b % w)) ∧ is (elemShr t a b) (a / 2 ^ (b % w)) ∧
      elemCmp .eq t a b = (if a = b then 2 ^ w - 1 else 0, 0) ∧
      elemCmp .lt t a b = (if i a < i b then 2 ^ w - 1 else 0, 0) ∧
      elemCmp .ge t a b = (if i b ≤ i a then 2 ^ w - 1 else 0, 0)) ∧
    bitsOp (· &&& ·) t a b = (a &&& b, 0) ∧ bitsOp (· ||| ·) t a b = (a ||| b, 0) ∧
    bitsOp (· ^^^ ·) t a b = (a ^^^ b, 0) ∧
    elemSel t m a b = (if m % 2 ^ w = 0 then b else a, 0)


/-- R235, R251 to R253 with R98: conversion of each element, with `srcnt` advanced by the draws of a
stochastic narrowing; quantisation of blocks of 8 elements to codes and a scale, and back. Shapes that
are no whole rows, and counts that a word does not take, raise class 0x16 sub 1 and 5, a view of the
wrong type sub 3. -/
def Obligations.VectorConversionWords : Prop :=
  ∀ (s : State) (vd va vs : BitVec 5) (t u : EType) (rm : Option RMode) (sat : Bool), s.me.vbusy = 0 →
    let r := s.shapeRows
    let n := s.shapeBytes
    let m := s.rmode rm
    let q := fun (k : Nat) => (⟨m, if m = .rsr then s.drawAt k else 0, s.esat⟩ : Rnd)
    let drawn := fun (u : State) (k : Nat) => if k = 0 then u else u.later (.srAdv (s.me.csr.srcnt + BitVec.ofNat 32 k)) 1
    let bad := fun (mj : BitVec 6) (sub : BitVec 8) (reg : BitVec 6) => Host.Outcome.next (s.raise ⟨0x16, sub, reg, 0, mj⟩)
    (let wide := if widthOf u ≤ widthOf t then t else u
      let c := elemsOf wide n
      s.plainView va r (rowBytes u c) → s.plainView vd r (rowBytes t c) →
      s.me.ready (s.viewRes va r (rowBytes u c)) (s.viewRes vd r (rowBytes t c)) →
      let out := packRows (widthOf t) (rowBytes t c)
        (((s.viewElems u va r (rowBytes u c) c).zip (List.range r)).map fun (row, i) =>
          (row.zip (List.range c)).map fun (x, j) => convertElem (q (i * c + j)) sat t u x)
      let whole := rowWhole t c = true ∧ rowWhole u c = true
      (rowFits wide n = true → whole → exec (.vcvt vd va t u rm sat) s = .next (drawn (s.rowsLand vd r r 4 out.1 out.2)
        (if m = .rsr ∧ rsrPair t u = true then r * c else 0))) ∧
      (rowFits wide n = false → exec (.vcvt vd va t u rm sat) s = bad 0x28 1 0) ∧
      (rowFits wide n = true → ¬whole → exec (.vcvt vd va t u rm sat) s = bad 0x28 5 0)) ∧
    (∀ f, fmtOf t = some f → (t = .f32 ∨ t = .bf16 ∨ t = .f16) →
      let c := elemsOf t n
      let blocks := (c + 7) / 8
      let k : BitVec 6 := va.setWidth 6
      (viewType (s.me.view va.toNat) = some t → s.plainView va r n → s.plainView vd r (c / 2) → s.plainView vs r (c / 8) →
        s.me.ready (s.viewRes va r n) (s.viewRes vd r (c / 2) ++ s.viewRes vs r (c / 8)) →
        let vals := (s.viewElems t va r n c).map fun row => row.map f.decode
        let codes := vals.map fun row => (chunks 8 row (c / 8)).map blockCode
        let out := packRows 4 (c / 2) (((vals.zip codes).zip (List.range r)).map fun ((row, cs), i) =>
          (row.zip (List.range c)).map fun (x, j) => quantElem (cs.getD (j / 8) 0) (q (i * c + j)) x)
        (c % 8 = 0 → exec (.vqnt vd va vs rm) s = .next (drawn ((s.rowsLand vd r r 4 out.1 out.2).regRows 4 0 0
          ((s.viewAddrs vs r).zip (codes.map fun cs => cs.map (BitVec.ofNat 8)))) (if m = .rsr then r * c else 0))) ∧
        (c % 8 ≠ 0 → exec (.vqnt vd va vs rm) s = bad 0x29 5 0)) ∧
      (s.plainView va r (c / 2) → s.plainView vs r blocks → s.plainView vd r n →
        s.me.ready (s.viewRes va r (c / 2) ++ s.viewRes vs r blocks) (s.viewRes vd r n) →
        let out := packRows (widthOf t) n (((s.viewBytes va r (c / 2)).zip (s.viewBytes vs r blocks)).map fun (x, y) =>
          ((unpack 4 c x).zip (List.range c)).map fun (e, j) => dequantElem f (y.getD (j / 8) 0).toNat e)
        (viewType (s.me.view va.toNat) = some .e2m1 → rowWhole .e2m1 c = true →
          exec (.vdqnt vd va vs t) s = .next (s.rowsLand vd r r 4 out.1 0)) ∧
        (viewType (s.me.view va.toNat) ≠ some .e2m1 → exec (.vdqnt vd va vs t) s = bad 0x29 3 k) ∧
        (viewType (s.me.view va.toNat) = some .e2m1 → rowWhole .e2m1 c = false → exec (.vdqnt vd va vs t) s = bad 0x29 5 0))) ∧
    (s.me.ready [] [] → (∀ t, viewType (s.me.view va.toNat) = some t → t ≠ .f32 ∧ t ≠ .bf16 ∧ t ≠ .f16) →
      exec (.vqnt vd va vs rm) s = bad 0x29 3 (va.setWidth 6))

/-- R245 to R247 with R113: the reductions of rows and columns, and the words that move elements. An
integer sum is exact mod 2^w. Indices are taken mod the number of elements. -/
def Obligations.VectorMoveWords : Prop :=
  ∀ (s : State) (vd va vb : BitVec 5) (t : EType),
    let r := s.shapeRows
    let n := s.shapeBytes
    let w := widthOf t
    let c := elemsOf t n
    let els := s.viewElems t va r n c
    let lands := fun (i : Instr) (rows k L : Nat) (out : List (List Byte)) (fl : BitVec 5) =>
      exec i s = .next (s.rowsLand vd rows k L out fl)
    let bad := fun (i : Instr) (mj : BitVec 6) (sub : BitVec 8) => exec i s = .next (s.raise ⟨0x16, sub, 0, 0, mj⟩)
    let a1 := s.viewRes va r n
    s.me.vbusy = 0 → rowFits t n = true → s.plainView va r n → s.plainView vd r n →
    (s.me.ready a1 (s.viewRes vd r n) →
      let sums := fun mx => packRows w n (els.map fun e => List.replicate c (reduceElems mx s.rnd t e))
      let tile := (List.range r).map fun i => pack w n (els.map fun e => e.getD i 0)
      (16 ≤ w → lands (.vrsum vd va t) r r 6 (sums false).1 (sums false).2 ∧
        lands (.vrmax vd va t) r r 6 (sums true).1 (sums true).2) ∧
      (w < 16 → bad (.vrsum vd va t) 0x2A 3 ∧ bad (.vrmax vd va t) 0x2A 3) ∧
      lands (.vmov vd va) r r 4 (s.viewBytes va r n) 0 ∧
      (w % 8 = 0 → c = r → lands (.vtrn vd va t) r r 6 tile 0) ∧
      (w % 8 = 0 → c ≠ r → bad (.vtrn vd va t) 0x2B 5) ∧
      (w % 8 ≠ 0 → bad (.vtrn vd va t) 0x2B 3)) ∧
    (s.plainView vd 1 n → s.me.ready a1 (s.viewRes vd 1 n) →
      let col := fun mx => packRows w n [(List.range c).map fun j => reduceElems mx s.rnd t (els.map fun e => e.getD j 0)]
      lands (.vcsum vd va t) 1 1 6 (col false).1 (col false).2 ∧ lands (.vcmax vd va t) 1 1 6 (col true).1 (col true).2) ∧
    (s.plainView va 1 n → s.me.ready (s.viewRes va 1 n) (s.viewRes vd r n) →
      lands (.vbcast vd va) r r 4 (List.replicate r (s.me.vmem.bytes (viewBase (s.me.view va.toNat)) n)) 0) ∧
    (s.plainView vb r n →
      let ix := s.viewElems t vb r n c
      (s.me.ready (a1 ++ s.viewRes vb r n) (s.viewRes vd r n) → lands (.vext vd va vb t) r r 4
        ((els.zip ix).map fun (e, k) => pack w n (k.map fun i => e.getD (i % c) 0)) 0) ∧
      (s.me.ready (a1 ++ s.viewRes vb r n ++ s.viewRes vd r n) (s.viewRes vd r n) → lands (.vins vd va vb t) r r 4
        ((els.zip (ix.zip (s.viewElems t vd r n c))).map fun (e, k, d) =>
          pack w n ((e.zip k).foldl (fun l (v, i) => setAt l (i % c) v) d)) 0)) ∧
    (s.me.ready [.g (va.setWidth 6)] (s.viewRes vd r n) →
      let e := splatElem s.esat t (s.me.gr (va.setWidth 6))
      lands (.vsplat vd va t) r r 4 (List.replicate r (pack w n (List.replicate c e.1))) e.2) ∧
    (∀ (rnd : Rnd) (l : List Nat), fmtOf t = none →
      reduceElems false rnd t l = (((l.map fun x => intOf (isSigned t) w x).sum % 2 ^ w).toNat, 0))

/-- R248 to R250, R254, R255: rows and elements between own scratch and views, `vshape`, and the
view words. Rows written to scratch are owed, one row per cc, and hold the pipe for the rows, once no
store of their own packet could land behind them (R300, `lateStore`); a bad stride, address or reserved
bit raises its exception and changes nothing. -/
def Obligations.ViewMemoryWords : Prop :=
  ∀ (s : State) (vd ga gb : BitVec 5) (t : EType), s.me.vbusy = 0 → s.me.composed = false →
    let r := s.shapeRows
    let n := s.shapeBytes
    let a : BitVec 6 := ga.setWidth 6
    let b : BitVec 6 := gb.setWidth 6
    let off := (s.me.gr a).toNat
    let stride := (s.me.gr b).toNat
    let rs := rowRanges off stride r n
    let scr := fun (l : List (Nat × Nat)) => l.map fun (o, k) => Res.scr o k
    let lands := fun (L : Nat) (rows : List (List (Nat × List Byte))) => Host.Outcome.next (φ := Fault) (ρ := Refusal)
      (s.onMe fun c => { c with vbusy := r, pend := c.pend ++
        (rows.zip (List.range rows.length)).flatMap fun (l, i) => l.map fun (o, bs) => ⟨.scr o bs, L + i⟩ })
    let strideOk := stride % 4 = 0 ∧ (1 < r → n ≤ stride)
    (s.plainView vd r n → strideOk → s.rowsLocate a b = .ok (.scratch off) →
      (s.me.ready ([.g a, .g b] ++ scr rs) (s.viewRes vd r n) → s.me.readsHeld rs = false →
        exec (.vld vd ga gb) s = .next (s.rowsLand vd r r 6 (rs.map fun (o, k) => s.ownBytes o k) 0)) ∧
      (s.me.ready ([.g a, .g b] ++ s.viewRes vd r n) (scr rs) → s.me.writesHeld rs = false → s.lateStore = false →
        exec (.vst vd ga gb) s = lands 6 ((rs.zip (s.viewBytes vd r n)).map fun ((o, _), bs) => [(o, bs)]))) ∧
    (s.plainView vd r n → ¬strideOk →
      (s.me.ready [.g a, .g b] (s.viewRes vd r n) →
        exec (.vld vd ga gb) s = .next (s.raise ⟨0x18, 2, b, (s.me.gr b).setWidth 48, 0x2C⟩)) ∧
      (s.me.ready ([.g a, .g b] ++ s.viewRes vd r n) [] →
        exec (.vst vd ga gb) s = .next (s.raise ⟨0x18, 2, b, (s.me.gr b).setWidth 48, 0x2C⟩))) ∧
    (s.plainView vd r n → s.plainView gb r n → rowFits t n = true →
      let sz := widthOf t / 8
      let as := (s.viewElems t gb r n (elemsOf t n)).map fun row => row.map fun k => off + k * sz
      let es := as.flatten.map fun x => (x, sz)
      (16 ≤ widthOf t → s.elementBase a sz = none → (∀ x ∈ as.flatten, x + sz ≤ s.me.scrSize) →
        (s.me.ready (.g a :: scr es ++ s.viewRes gb r n) (s.viewRes vd r n) → s.me.readsHeld es = false →
          exec (.vgat vd ga gb t) s = .next (s.rowsLand vd r r 8 (as.map fun row => row.flatMap fun x => s.ownBytes x sz) 0)) ∧
        (s.me.ready (.g a :: s.viewRes gb r n ++ s.viewRes vd r n) (scr es) → s.me.writesHeld es = false → s.lateStore = false →
          exec (.vsct vd ga gb t) s = lands 8
            ((as.zip (s.viewBytes vd r n)).map fun (row, bs) => row.zip (chunks sz bs (elemsOf t n))))) ∧
      (widthOf t < 16 → s.me.ready (.g a :: s.viewRes gb r n) (s.viewRes vd r n) →
        exec (.vgat vd ga gb t) s = .next (s.raise ⟨0x16, 3, 0, 0, 0x2C⟩))) ∧
    (∀ k : ViewKind, off % 16 = 0 → off + 16 ≤ s.me.scrSize → s.me.ready [.g a, .scr off 16] [] →
      s.me.readsHeld [(off, 16)] = false →
      let img : BitVec 128 := BitVec.ofNat 128 (s.ownNat off 16)
      let ok := viewReservedZero img = true ∧ viewPort img ≠ 3 ∧ (viewPort img = 0 ∨ k = .v)
      (ok → exec (.vviewImage vd ga k) s = .next ((s.holdPipe 1).later (.view (viewIndex k vd) img) 1)) ∧
      (¬ok → exec (.vviewImage vd ga k) s = .next (s.raise ⟨0x18, 1, a, img.setWidth 48, 0x2D⟩))) ∧
    (s.me.ready [.g a, .g b] [] →
      (off < 2 ^ 17 → stride < 2 ^ 16 → ∃ e : BitVec 128, viewBase e = off ∧ viewPitch e = stride ∧
        viewType e = some t ∧ viewPort e = 0 ∧ viewReservedZero e = true ∧
        exec (.vview vd ga gb t) s = .next ((s.holdPipe 1).later (.view vd.toNat e) 1)) ∧
      (2 ^ 17 ≤ off → exec (.vview vd ga gb t) s = .next (s.raise ⟨0x18, 1, a, (s.me.gr a).setWidth 48, 0x2D⟩))) ∧
    (∀ (w : BitVec 6) (k : BitVec 4), s.me.ready [] [] →
      exec (.vshape w k) s = .next ((s.holdPipe 1).later (.csrSet .vshape ((w ++ k).setWidth 64)) 1) ∧
      ∀ c : Core, (c.apply (.csrSet .vshape ((w ++ k).setWidth 64))).csr.vshape = w ++ k)

/-- R70: the pop port of a core-local ring as the source of a vector word, and its push port as the
destination: the rows are the slot at the head or the tail, in own scratch; the pop frees its slot a
cc after issue, the push takes one then and fills it with its last row; the word waits while the
ring has no filled or no free slot, and, as a load or store of the slot would, for earlier accesses. -/
def Obligations.PortOperands : Prop :=
  ∀ (s : State) (vd va : BitVec 5) (q : BitVec 3) (n : BitVec 5) (push : Bool),
    let r := s.shapeRows
    let b := s.shapeBytes
    let v := s.me.view n.toNat
    let h := s.me.ringNow q
    let slot := ringBase h + 2 ^ ringLsize h * (if push then ringTail h else ringHead h).toNat
    let at_ := (List.range r).map fun i => slot + i * viewPitch v
    let bytes := at_.map fun o => (o, b)
    viewPort v = (if push then 2 else 1) → viewRing v = q → viewPitch v % 4 = 0 → (1 < r → b ≤ viewPitch v) →
    (r - 1) * viewPitch v + b ≤ 2 ^ ringLsize h → ringRole h = 0 → s.me.vbusy = 0 → s.me.composed = false →
    (push = false → va = n → s.plainView vd r b → s.me.ready [] (s.viewRes vd r b) →
      (ringFill h ≠ 0 → s.me.readsHeld bytes = false → exec (.vmov vd va) s = .next ((s.later (.ringPop q 1) 1).rowsLand vd r r 4
        (at_.map fun o => s.ownBytes o b) 0)) ∧
      (ringFill h = 0 ∨ (s.me.readsHeld bytes = true ∧ s.me.issue.commit = false) →
        exec (.vmov vd va) s = .next (s.stall .waiting))) ∧
    (push = true → vd = n → s.plainView va r b → s.me.ready (s.viewRes va r b) [] →
      (ringFree h ≠ 0 → s.me.writesHeld bytes = false → s.lateStore = false → exec (.vmov vd va) s = .next (((s.later (.ringTake q) 1).onMe fun c => { c with
          vbusy := r, pend := c.pend ++ (at_.zip ((s.viewBytes va r b).zip (List.range r))).map
            fun (o, bs, i) => ⟨.scr o bs, 4 + i⟩ }).later (.ringFilled q) (r + 3))) ∧
      (ringFree h = 0 ∨ s.lateStore = true ∨ (s.me.writesHeld bytes = true ∧ s.me.issue.commit = false) →
        exec (.vmov vd va) s = .next (s.stall .waiting)))

/-! ## Matrix words and the joint array -/

/-- R256 to R259, R262, R270: identifiers are loaded from a checked descriptor and read by field; a mask
must name the core; `mzero` and `mfade` give the slice path the accumulator's 8,192 bytes, which land
16 cc later.

R263 to R266, R269: a product whose operands pass their checks waits at the barrier with its
parameters, and issues when its gang has been granted the array, which disarms the mask; operands whose
types or K differ raise class 0x17 sub 5. -/
def Obligations.MatrixWords : Prop :=
  (∀ (s : State) (t ga rd : BitVec 6) (sel : BitVec 4) (m : BitVec 8) (ad : BitVec 3), s.me.composed = false →
    let off := (s.me.gr ga).toNat
    let d : BitVec 512 := BitVec.ofNat 512 (s.ownNat off 64)
    let e := s.me.tid t
    let base := s.me.accBase ad
    let all := [Res.regs base 0x2000]
    (s.locate 0x33 ga ownSpace (s.me.gr ga) 64 64 = .ok (.scratch off) → s.me.ready [.g ga, .scr off 64] [.t t] →
      s.me.readsHeld [(off, 64)] = false →
      (tdOk d = true → exec (.tidset t ga) s = .next (s.later (.t t d) 4)) ∧
      (tdOk d = false → exec (.tidset t ga) s = .next (s.raise ⟨0x17, 1, t, 0, 0x33⟩))) ∧
    (s.me.ready [.t t] [.g rd] → exec (.tidq t rd sel) s = .next (s.later (.g rd
      (([tdDword (e &&& tidFields) 0, BitVec.ofNat 64 (tdRows e), BitVec.ofNat 64 (tdCols e), BitVec.ofNat 64 (tdPitch e),
        tdDword e 3, tdDword e 4, tdDword e 5, tdDword e 6, tdDword e 7, BitVec.ofNat 64 (tdStored e),
        BitVec.ofNat 64 (tdScales e)]).getD sel.toNat (BitVec.ofNat 64 (tdRowBytes e)))) 4)) ∧
    (s.me.ready [] [] →
      (m.getLsbD (s.me.id.num % 8) = true → exec (.mgang m) s = .next (s.onMe fun c => { c with gang := some m })) ∧
      (m.getLsbD (s.me.id.num % 8) = false →
        exec (.mgang m) s = .next (s.raise ⟨0x18, 6, 0, m.setWidth 48, 0x32⟩))) ∧
    (∀ mj, s.me.accCheck mj ad none = none ↔
      let v := s.me.view (40 + ad.toNat)
      (viewType v = some .f32 ∨ viewType v = some .i32) ∧ base % 512 = 0 ∧ viewPitch v = 512 ∧
        base + 0x2000 ≤ viewEnd s.me.id.num) ∧
    (s.me.accCheck 0x32 ad none = none →
      ((s.me.slice.isSome = true → s.me.issue.commit = false) → s.me.ready [] all → exec (.mzero ad) s = .next
        (if s.me.slice.isSome then s.stall .waiting
        else s.onMe fun c => { c with slice := some (.mk
          .mzero [⟨0, 16, base, List.replicate 0x2000 0, 0x10000⟩] 16 none [] none 4 [] [(base, 0x2000)]) })) ∧
      ((s.me.slice.isSome = true → s.me.issue.commit = false) → s.me.ready all all → exec (.mfade ad) s = .next
        (if s.me.slice.isSome then s.stall .waiting
        else s.onMe fun c => { c with slice := some (.mk
          .mfade (if s.me.accFloat ad then [⟨0, 16, base,
            wordBytes ((s.me.words base 2048).map fun x => fadeElem s.me.csr.mgamma x), 0x10000⟩] else [])
            16 none [] none 4 [(base, 0x2000)] [(base, 0x2000)]) })))) ∧
  (∀ (s : State) (ad sv : BitVec 3) (ta tb : BitVec 6) (sa sb sat acc fd rsum csum : Bool) (a b : Operand),
    ∀ x ∈ [((.mmul ad ta tb sa sb sat acc fd rsum csum sv, 0x30, false) : Instr × BitVec 6 × Bool),
      (.mmsp ad ta tb sa sb sat acc fd rsum csum sv, 0x31, true)],
      let c := s.me
      let mj := x.2.1
      let da := c.tid ta
      let db := c.tid tb
      let fl := ((tdType da).map isFloat).getD false
      let ra := c.resolveTile da
      let rb := c.resolveTile db
      let role := if x.2.2 then Role.sparseA else Role.a
      let vs : BitVec 5 := 24 + sv.setWidth 5
      let base := c.accBase ad
      let side := viewBase (c.view vs.toNat)
      let own : BitVec 8 := 1 <<< (c.id.num % 8)
      let p : Product := ⟨x.2.2, ad, ra, rb, ta, tb, sa, sb, sat, acc, fd, rsum, csum, side, base, c.csr.mgamma,
        s.granule, c.gang.getD own, c.issue.word⟩
      let reads := a.spans ++ b.spans ++ (if acc then [(base, 0x2000)] else [])
      let writes := (base, 0x2000) :: (if rsum || csum then [(side, 576)] else [])
      let regs := fun (l : List (Nat × Nat)) => l.map fun (o, n) => Res.regs o n
      c.composed = false → tdOk da = true → tdOk db = true → c.accCheck mj ad (some fl) = none →
      (rsum = true ∨ csum = true → c.blockCheck mj vs (if fl then .f32 else .i32) 576 = none) →
      c.tileCheck mj role da = none → c.tileCheck mj .b db = none →
      c.operand mj role sa (tdTv da ≠ 0) ta ra = .ok a → c.operand mj .b sb (tdTv db ≠ 0) tb rb = .ok b →
      c.ready ([.t ta, .t tb] ++ regs reads) (regs writes) →
      (isFloat a.t = isFloat b.t → a.k = b.k → (fl = true → sa = false ∧ sb = false) →
        (c.granted = true → exec x.1 s = .next (s.onMe fun c => { c with granted := false, gang := none })) ∧
        (c.granted = false → c.product = none →
          exec x.1 s = .next ((s.onMe fun c => { c with atBarrier := some p }).stall .waiting)) ∧
        (c.granted = false → c.product ≠ none → c.issue.commit = false → exec x.1 s = .next (s.stall .waiting))) ∧
      (isFloat a.t ≠ isFloat b.t ∨ a.k ≠ b.k → exec x.1 s = .next (s.raise ⟨0x17, 5, tb, 0, mj⟩)))

/-- R271 to R274: a drain whose checks pass gives the slice path its rows: row r of the accumulator,
narrowed or requantised, r + 4 cc after issue to the destination of its identifier, or in beats of at
most 256 bytes to another core's scratch with a wake message after them; `srcnt` advances by the draws
of a stochastic drain, which one from `f32` into `f32` is not (R97; notes/assumptions/72.md). A wake
waits while its core is stopped (R275). SLICE_COMPLETE and MDRAINR_WAKE end a command whose rows are out. -/
def Obligations.DrainWords : Prop :=
  ∀ (s : State) (ad : BitVec 3) (t ga : BitVec 6) (vp : BitVec 5) (rm : Option RMode) (sat : Bool),
    let c := s.me
    let d := c.resolveTile (c.tid t)
    let dt := (tdType d).getD .i8
    let bits := tdCols d * widthOf dt
    let regs := fun (l : List (Nat × Nat)) => l.map fun (o, n) => Res.regs o n
    let draws := if s.rmode rm = .rsr ∧ (c.accFloat ad || isFloat dt) = true ∧ ¬(c.accFloat ad = true ∧ dt = .f32) then
      tdRows d * tdCols d else 0
    let gives := fun (i : Instr) (k : SliceCmd) => exec i s = .next
      (let u := s.onMe fun c => { c with slice := some k }
       if draws = 0 then u else u.later (.srAdv (c.csr.srcnt + BitVec.ofNat 32 draws)) 1)
    let rows := (s.drainRows ad vp rm sat d).zip (List.range (tdRows d))
    (c.slice = none → c.drainCheck 0x34 .drain t ad vp (c.tid t) d none = none →
      c.ready (.t t :: regs (c.drainReads ad vp d)) (regs (tdSpans .drain d)) →
      gives (.mdrain ad t vp rm sat) ⟨.mdrain, rows.flatMap fun (r, i) =>
        (⟨i, 4 + i, tdBase d + i * tdPitch d, r.bytes, bits⟩ : SliceRow) ::
          (if r.scales = [] then [] else
            [(⟨i, 4 + i, tdBscale d + i * tdScales d, r.scales, 8 * r.scales.length⟩ : SliceRow)]),
        20, none, [], none, s.granule, c.drainReads ad vp d, tdSpans .drain d⟩) ∧
    (∀ (num off : Nat) (ga1 : BitVec 6), ga1 = ga + 1 → ga ≠ 63 → s.drainLocate ga (c.gr ga) = .ok (.remote num off) →
      let n := storedBytes dt (tdCols d)
      let h := c.gr ga1
      let argc := headerArgc h
      let home := h.extractLsb' 32 12
      c.slice = none → c.composed = false → off + (tdRows d - 1) * tdPitch d + n ≤ 0x80000 →
      c.drainCheck 0x35 .drainRemote t ad vp (c.tid t) d none = none → headerReserved h = false → argc ≤ 6 →
      (h.getLsbD 15 = true → lineOk home.toNat (h.extractLsb' 16 13).toNat = true) → ga.toNat + 1 + argc ≤ 63 →
      s.names s.me.id home.toNat = true →
      c.ready ([.t t, .g ga, .g ga1] ++ resRun (ga + 2) argc ++ regs (c.drainReads ad vp d)) [] →
      gives (.mdrainr ad t ga vp rm sat) ⟨.mdrainr, rows.flatMap fun (r, i) =>
        ((chunks 256 r.bytes (ceilDiv n 256)).zip (List.range (ceilDiv n 256))).map fun (bs, j) =>
          (⟨i, 4 + i, off + i * tdPitch d + 256 * j, bs, bits - 2048 * j⟩ : SliceRow),
        0, some num, [], some (h, c.grRun (ga + 2) argc), s.granule, c.drainReads ad vp d, []⟩) ∧
    (∀ id : CoreId, s.ev = .core id → exec .sliceComplete s = .next (s.updCore id fun c =>
      match c.slice with
      | some k => if k.dst = none ∧ k.rows = [] ∧ k.ends = 0 then { c with slice := none } else c
      | none => c)) ∧
    (∀ (k : SliceCmd) (h : BitVec 64) (args : List (BitVec 64)), s.ev = .core s.me.id → s.me.slice = some k →
      k.rows = [] → k.dst ≠ none → k.acks = [] → k.wake = some (h, args) → s.me.sb.length < 32 → s.me.ahead = none →
      (s.unstopped s.me.id = false → exec .mdrainrWake s = .next s) ∧
      (s.unstopped s.me.id = true → exec .mdrainrWake s = .next (s.onMe fun c => { c with
        sb := c.sb ++ [⟨.send (.core (h.extractLsb' 32 12).toNat) (.message h args), true, c.seq, true, c.rowsOwed⟩]
        seq := c.seq + 1, slice := none })))

/-- R260, R263, R264, R268, R378, R393 to R395, R326, R14: complete gangs queue in the order of their
lowest cores; the gang at the head starts when the array is free and the purse holds its cost, which is
taken whole; at its end every core of the gang gets its accumulator; every core that disagrees with a core
of its gang takes class 0x22, one that waits too long 0x23, in front of its packet; the purse refills
up to 2^20. That a queued gang leaves the queue when it no longer waits is the model's reading
(notes/assumptions/62.md).

R14, R326, R394, R395: the purse of a column refills at its rate up to 2^20 pennies, at none while it
is hot, which leaves a record; a rate is 0 to 16; a packet that waits at a barrier, or a gang that waits
for pennies, longer than its owner's limit takes class 0x23. -/
def Obligations.ArrayEvents : Prop :=
  (∀ (s : State) (l : ColId), s.ev = .col l →
    let ready := s.completeGangs l
    let at_ := fun (j : Nat) => ColId.coreAt l j
    (exec .gangBarrier s = .next (s.updArray l fun a =>
      let q := a.queue.filter fun m => ready.contains m
      { a with queue := q ++ ready.filter fun m => !q.contains m })) ∧
    (∀ m ∈ ready, s.gangReady l m = true) ∧
    (∃ t, exec .gangMismatch s = .next t ∧ t.purses = s.purses ∧
      ∀ id, t.core? id = (s.core? id).map fun c =>
        if id = at_ (id.num % 8) then
          match c.atBarrier, c.atBarrier.bind (s.mismatch l) with
          | some p, some (sub, v) => c.raiseWaiting p 0x22 sub v
          | _, _ => c
        else c) ∧
    (∀ (b : Nat) (p q : Product) (d : BitVec 8), (∀ i ∈ gangOf p.mask, (s.waiting l i).isSome = true) →
      b ∈ gangOf p.mask → s.waiting l b = some q → p.differs q = some d →
      (∀ i ∈ gangOf p.mask, i < b → ∀ u, s.waiting l i = some u → p.differs u = none) →
      s.mismatch l p = some (d, (BitVec.ofNat 40 b ++ q.mask : BitVec 48))) ∧
    (∀ (c : Core) (p : Product) (sub : BitVec 8) (v : BitVec 48), ∀ cls ∈ [(0x22 : BitVec 8), 0x23],
      c.pend = [] → c.outs = [] → c.csr.level = 0 →
      let r := c.raiseWaiting p cls sub v
      r.pc = c.csr.evec.toNat * 4096 + 64 * cls.toNat ∧ r.csr.epc = BitVec.ofNat 17 (c.pc / 4) ∧ r.csr.level = 1 ∧
      r.csr.einfo = v ++ sub ++ p.ad.setWidth 6 ++ p.word ∧ r.atBarrier = none ∧ r.gang = c.gang ∧ r.vmem = c.vmem) ∧
    (∀ (m : BitVec 8) (q : List (BitVec 8)) (j : Nat) (p : Product), s.array l = ⟨m :: q, none⟩ →
      s.gangReady l m = true → (gangOf m).head? = some j → s.waiting l j = some p →
      let cost := 2 * (gangOf m).length * p.arrayCc
      let k := s.physOf l
      let bs := s.gangB l m (s.waiting l)
      (cost ≤ (s.purse k).pennies → ∃ t, exec .arrayStart s = .next t ∧
        t.purses = modAt s.purses k (fun u => { u with pennies := u.pennies - cost }) ∧
        t.regions = (s.updArray l fun a => { queue := a.queue.drop 1, run := some ⟨m, p.arrayCc + 16⟩ }).regions ∧
        ∀ id, t.core? id = (s.core? id).map fun c => if (gangOf m).any (fun i => id = at_ i) then
          match c.atBarrier with
          | some u => { c with product := c.startProduct u bs, granted := true, atBarrier := none, done := false }
          | none => c else c) ∧
      ((s.purse k).pennies < cost → exec .arrayStart s = .next s)) ∧
    (∀ m, (s.array l).run = some ⟨m, 0⟩ → exec .arrayComplete s = .next
      (((gangOf m).foldl (fun t j => t.updCore (at_ j) Core.endProduct) s).updArray l fun a => { queue := a.queue, run := none })) ∧
    (∀ (c : Core) (p : CoreProduct), c.product = some p → p.side = [] →
      (p.bad = none → c.endProduct = { c.writeView p.prm.base (wordBytes p.acc) with product := none }) ∧
      ∀ t row sub, p.bad = some (t, row, sub) → c.endProduct = { c.writeView p.prm.base (wordBytes p.acc) with
        product := none
        deferred := c.deferred ++ [.matrix t row sub] })) ∧
  (∀ (s : State) (k r : Nat) (hot : Bool),
    let upd := fun (s : State) (f : Purse → Purse) => { s with purses := modAt s.purses k f }
    (s.ev = .num k → exec .purseRefill s = .next (upd s fun p =>
      if p.hot then p else { p with pennies := min (2 ^ 20) (p.pennies + p.rate) })) ∧
    (s.ev = .hot k hot → exec .purseThrottle s = .next
      (let t := upd s fun p => { p with hot := hot }
       if hot then t.record k (errorRecord 0x0D 15 (s.ownerAt k) 0xFFF k 15 3 0) else t)) ∧
    (s.ev = .rate k r → (r ≤ 16 → exec .refillRateSet s = .next (upd s fun p => { p with rate := r })) ∧
      (16 < r → exec .refillRateSet s = .next s)) ∧
    (∀ (id : CoreId) (c : Core) (p : Product), s.ev = .core id → s.core? id = some c → c.atBarrier = some p →
      (c.waited ≤ (s.fn id.owner).wdLimit → exec .watchdog s = .next s) ∧
      ((s.fn id.owner).wdLimit < c.waited → (s.array c.column).queue.contains p.mask = false →
        exec .watchdog s = .next (s.updCore id fun d => d.raiseWaiting p 0x23 1 (BitVec.ofNat 48 c.waited))) ∧
      ((s.fn id.owner).wdLimit < c.waited → (s.array c.column).queue.contains p.mask = true →
        exec .watchdog s = .next (((gangOf p.mask).foldl (fun t j => t.updCore (ColId.coreAt c.column j) fun d =>
            match d.atBarrier with
            | some q => d.raiseWaiting q 0x23 2 (BitVec.ofNat 48 d.waited)
            | none => d) s).updArray c.column fun a => { a with queue := a.queue.filter (· ≠ p.mask) }))))


/-! ## Memory-core and capability words -/

/-- R78, R277, R280 to R285, R384, R406 to R408: a single access, row access or atomic on HBM through a
capability of this module whose tag, bounds and rights pass, and whose offset translates: a load is owed
and its accesses are in flight, a store or atomic enters the store buffer; the walk's bits and cached
translations are kept. A misaligned offset, a failed check of the capability and a translation fault
raise their exceptions. An access through a capability of another module waits for that module's answer
to its walk (R415); a fault there is the word's own, after a miss the core runs ahead from here, once;
mapped, the access leaves the core for that module as the same load, store or atomic. -/
def Obligations.HbmAccessWords : Prop :=
  ∀ (s : State) (rd gt go : BitVec 6) (c : BitVec 4) (o : Order) (v : BitVec 5) (ps : List (Nat × Nat)) (m : Mmu),
    let k := s.me.cap c
    let off := (s.me.gr go).toNat
    let acq := decide (o = .acq)
    let rel := decide (o = .rel)
    let cap := fun (r : Right) (n : Nat) => capCheck 0x3D c k [r] 0 [(off, off, n)]
    let tr := fun (n : Nat) (rd wr : Bool) => s.translate k.index off n rd wr
    let loads := fun (i : Instr) (ops : List HbmOp) (rd : BitVec 6) (acq : Bool) => exec i s =
      .next ((s.setMmu m).onMe fun c => { c with
        outs := c.outs ++ [⟨.hbm, rd, c.seq, none, acq, false, 0, 0⟩], walks := c.walks ++ [c.seq]
        hbmAcc := c.hbmAcc ++ ops.map fun o => (⟨o, c.seq, acq⟩ : HbmAcc), seq := c.seq + 1 })
    let enters := fun (i : Instr) (e : SbKind) (rel : Bool) (outs : List Outst) => exec i s =
      .next ((s.setMmu m).onMe fun c => { c with
        outs := c.outs ++ outs, walks := c.walks ++ [c.seq], sb := c.sb ++ [⟨e, rel, c.seq, true, c.rowsOwed⟩], seq := c.seq + 1 })
    let r := s.shapeRows
    let n := s.shapeBytes
    let atoms : List (Instr × AtomOp) := [(.hatomAdd rd c go o, .add), (.hatomSwp rd c go o, .swp),
      (.hatomCas rd c go o, .cas), (.hatomMin rd c go o, .min), (.hatomMax rd c go o, .max),
      (.hatomMinn rd c go o, .minn), (.hatomMaxn rd c go o, .maxn), (.hatomFadd rd c go o, .fadd)]
    let atomN := fun (op : AtomOp) => if op = .fadd then 4 else 8
    let obj := k.bits.extractLsb' 0 15
    let owed : Outst := ⟨.hbm, rd, s.me.seq, some (.home k.home), acq, false, 0, 0⟩
    let farLoad : State := { s.onMe fun c => { c with outs := c.outs ++ [owed], seq := c.seq + 1 } with
      homeOut := s.homeOut ++ [⟨s.me.id, s.me.seq, k.home, obj, .load off rd, 0⟩] }
    let farOp := fun (outs : List Outst) (op : HomeOp) => s.onMe fun c => { c with
      outs := c.outs ++ outs, sb := c.sb ++ [⟨.home k.home obj op, rel, c.seq, true, c.rowsOwed⟩], seq := c.seq + 1 }
    let atomSrc := fun (op : AtomOp) => Res.g rd :: (if op = .cas then [Res.g (rd + 1)] else [])
    (∀ r n, cap r n = none ↔ k.tag = true ∧ k.lower ≤ off ∧ off + n ≤ k.upper ∧ k.bits.getLsbD r.bit = true) ∧
    (k.home = s.fabricId →
      (off % 8 = 0 → cap .read 8 = none → tr 8 true false = (.ok ps, m) → s.me.hbmWaits = false →
        (s.me.ready [.c c, .g go] [.g rd] → loads (.hld rd c go o) (ps.map fun x => .load x.1 rd) rd acq) ∧
        (∀ num : BitVec 12, ∀ x : BitVec 5, s.me.gr gt = ((0 : BitVec 47) ++ x ++ num) → s.names s.me.id num.toNat = true →
          s.me.ready [.c c, .g go, .g gt] [] →
          loads (.hldX gt c go o) (ps.map fun p => .loadX p.1 num.toNat x) 0 acq)) ∧
      (off % 8 = 0 → cap .write 8 = none → tr 8 false true = (.ok ps, m) → s.me.sb.length < 32 →
        s.me.ready [.c c, .g go, .g rd] [] →
        enters (.hst rd c go o) (.hbm (spreadParts ps (natBytes 8 (s.me.gr rd).toNat))) rel []) ∧
      (off % 4 = 0 → s.viewLimits v r n = none →
        (cap .read (r * n) = none → tr (r * n) true false = (.ok ps, m) → s.me.hbmWaits = false →
          s.me.ready [.c c, .g go] (s.viewRes v r n) →
          loads (.hldv v c go) ((rowParts r ps n).zip (s.viewAddrs v r) |>.map fun (q, x) => .loadRow q x) 0 false) ∧
        (cap .write (r * n) = none → tr (r * n) false true = (.ok ps, m) → s.me.sb.length < 32 →
          s.me.ready (.c c :: .g go :: s.viewRes v r n) [] →
          enters (.hstv v c go) (.hbm (spreadParts ps ((s.viewAddrs v r).flatMap fun x => s.me.vmem.bytes x n))) false [])) ∧
      (∀ x ∈ atoms, off % atomN x.2 = 0 → cap .atomic (atomN x.2) = none → (x.2 = .cas → rd ≠ 63) →
        tr (atomN x.2) true true = (.ok ps, m) → s.me.sb.length < 32 → s.me.acquiring = false → s.me.nearLoad = false →
        s.me.ready ([.c c, .g go] ++ atomSrc x.2) [.g rd] →
        enters x.1 (.hatom x.2 ((ps.map fun p => p.1).headD 0) (s.me.gr rd) (if x.2 = .cas then s.me.gr (rd + 1) else 0) rd)
          rel [⟨.hbm, rd, s.me.seq, none, acq, false, 0, 0⟩])) ∧
    (∀ x ∈ [((.hld rd c go o, 8, Right.read, true, false, [], [.g rd], farLoad) :
          Instr × Nat × Right × Bool × Bool × List Res × List Res × State),
        (.hst rd c go o, 8, .write, false, true, [.g rd], [], farOp [] (.store [(off, natBytes 8 (s.me.gr rd).toNat)]))] ++
        atoms.map fun a => (a.1, atomN a.2, .atomic, true, true, atomSrc a.2, [.g rd],
          farOp [owed] (.atomic a.2 off (s.me.gr rd) (if a.2 = .cas then s.me.gr (rd + 1) else 0) rd)),
      rd ≠ 63 → s.me.ready ([.c c, .g go] ++ x.2.2.2.2.2.1) x.2.2.2.2.2.2.1 →
      let ck := cap x.2.2.1 x.2.1
      let t := tr x.2.1 x.2.2.2.1 x.2.2.2.2.1
      (off % x.2.1 ≠ 0 → exec x.1 s = .next (s.raise ⟨0x18, 2, go, (s.me.gr go).setWidth 48, 0x3D⟩)) ∧
      (∀ e, off % x.2.1 = 0 → ck = some e → exec x.1 s = .next (s.raise e)) ∧
      (off % x.2.1 = 0 → ck = none → k.home ≠ s.fabricId →
        (s.me.homeAns = none → exec x.1 s = .next
          ((s.onMe fun c => { c with homeHeld := some (k.home, c.heldFor) }).stall .waiting)) ∧
        (∀ cls sub val, s.me.homeAns = some (.fault cls sub val) →
          exec x.1 s = .next (s.raise ⟨cls, sub, c.setWidth 6, val, 0x3D⟩)) ∧
        (∀ l, s.me.homeAns = some (.missed l) → exec x.1 s = .next (s.homeMiss c)) ∧
        (s.me.homeAns = some .mapped → s.me.sb.length < 32 → s.me.farWaits k.home = false →
          exec x.1 s = .next x.2.2.2.2.2.2.2)) ∧
      (∀ cls sub val, off % x.2.1 = 0 → ck = none → k.home = s.fabricId → t = (.fault cls sub val, m) →
        exec x.1 s = .next (s.raise ⟨cls, sub, c.setWidth 6, val, 0x3D⟩)))

/-- R283, R284, R286 to R290, R412: the elements whose `gmask` bits are set are loaded or stored and their
bits fall, one cc later with the packet, at a miss with those elements that perform; `hship` and `hpull` are bulk commands between rows of an object and another core's store, and
`bgemv` one from a described matrix to scratch, with A read at issue. -/
def Obligations.GatherTransferWords : Prop :=
  ∀ (s : State) (v i : BitVec 5) (ga go : BitVec 6) (c : BitVec 4) (num off : Nat),
    let k := s.me.cap c
    let kicks := fun (i : Instr) (b : Bulk) => exec i s = .next (s.onMe fun c =>
      { c with sb := c.sb ++ [⟨.bulk b, true, c.seq, true, c.rowsOwed⟩], seq := c.seq + 1 })
    let rows := s.shapeRows
    let n := s.shapeBytes
    let sz := ((viewType (s.me.view v.toNat)).map widthOf).getD 32 / 8
    let w := n / sz
    let iw := if viewType (s.me.view i.toNat) = some .n64 then 8 else 4
    let es := s.elems v i sz w iw
    let data := s.viewRes v rows n
    let index := s.viewRes i rows (w * iw)
    (∀ (ok : List (Elem × Nat)) (ps : List (Nat × Nat)) (m : Mmu), k.home = s.fabricId → ok ≠ [] →
      let u := (s.later (.csrClr .gmask (elemBits (ok.map fun x => x.1.e))) 1).setMmu m
      (s.gatherCheck v i c .read sz w iw es = none → s.walkElems k.index sz true false es = (ok, .ok ps, m) →
        s.me.ready (.c c :: index) data → s.me.hbmWaits = false →
        exec (.hgat v c i) s = .next (u.onMe fun c => { c with
          outs := c.outs ++ [⟨.hbm, 0, c.seq, none, false, false, 0, 0⟩], walks := c.walks ++ [c.seq]
          hbmAcc := c.hbmAcc ++ ok.map fun x => (⟨.loadRow [(x.2, sz)] x.1.at_, c.seq, false⟩ : HbmAcc), seq := c.seq + 1 })) ∧
      (s.gatherCheck v i c .write sz w iw es = none → s.walkElems k.index sz false true es = (ok, .ok ps, m) →
        s.me.ready (.c c :: index ++ data) [] → s.me.sb.length < 32 →
        exec (.hsct v c i) s = .next (u.onMe fun c => { c with
          walks := c.walks ++ [c.seq]
          sb := c.sb ++ [⟨.hbm (ok.map fun x => (x.2, s.me.vmem.bytes x.1.at_ sz)), false, c.seq, true, c.rowsOwed⟩], seq := c.seq + 1 }))) ∧
    (∀ (c : Core) (es : List Nat) (e : Nat), let falls := c.csr.gmask.getLsbD e && !es.contains e
      (c.isMem = true → (c.apply (.csrClr .gmask (elemBits es))).csr.gmask.getLsbD e = falls) ∧
        (c.perform es).csr.gmask.getLsbD e = falls) ∧
    (s.me.ready [.c c, .g ga, .g (ga + 1), .g go] [] → s.shipTarget ga (s.me.gr ga) = .ok (num, off) → ga ≠ 63 →
      s.me.bulkWaits [] = false →
      let w := s.me.gr (ga + 1)
      let g := ShipGeo.of w
      let o := (s.me.gr go).toNat
      let oc := tileBeats o g.hpitch off g.dpitch g.n g.rows
      let cell : BitVec 5 := g.cell
      let side := if g.regs then Side.regs num else .scratch num
      w.extractLsb' 29 2 = 0 → w.getLsbD 23 = false → g.hpitch % 4 = 0 → (1 < g.rows → g.n ≤ g.hpitch ∧ g.n ≤ g.dpitch) →
      off + ((g.rows - 1) * g.dpitch + g.n) ≤ (if g.regs then viewEnd 0 else 0x80000) →
      let ck := fun (r : Right) => capCheck 0x3D c k [r] 0 [(o, o, (g.rows - 1) * g.hpitch + g.n)]
      (ck .read = none → kicks (.hship ga c go) { s.command .hship (.hbm k) side oc cell with creg := c }) ∧
      (ck .write = none → kicks (.hpull ga c go)
        { s.command .hpull side (.hbm k) (oc.map fun b => ⟨b.dst, b.src, b.len⟩) cell with creg := c }) ∧
      (∀ e, ck .read = some e → exec (.hship ga c go) s = .next (s.raise e)) ∧
      (∀ e, ck .write = some e → exec (.hpull ga c go) s = .next (s.raise e))) ∧
    (s.shipTarget ga (s.me.gr ga) = .ok (num, off) → ga ≠ 63 → s.me.bulkWaits [] = false →
      let p := s.me.gr (ga + 1)
      let da := (s.me.gr go).toNat
      let d : BitVec 512 := BitVec.ofNat 512 (s.ownNat da 64)
      let va := (p.extractLsb' 0 17).toNat
      s.me.ready [.c c, .g ga, .g (ga + 1), .g go, .regs va (2 * tdCols d)] [] → s.me.readsHeld [(da, 64)] = false →
      da % 64 = 0 → da + 64 ≤ s.me.scrSize → tdOk d = true → tdTv d = 0 → tdSparse d = 0 → bgemvType (tdType d) = true →
      1 ≤ tdRows d → tdRows d ≤ 16384 → 1 ≤ tdCols d → tdCols d ≤ 16384 → off + 4 * tdRows d ≤ 0x80000 →
      p.extractLsb' 29 35 = 0 → p.extractLsb' 17 7 = 0 → va % 4 = 0 → va + 2 * tdCols d ≤ viewEnd s.me.id.num →
      capCheck 0x3D c k [.read] 0 (bgemvRanges d) = none →
      (k.home = s.fabricId → ∃ beats, kicks (.bgemv ga c go) { s.command .bgemv (.hbm k) (.scratch num) beats (p.extractLsb' 24 5) with
        creg := c, desc := d
        vec := (List.range (tdCols d)).map fun i => BitVec.ofNat 16 (s.me.vmem.nat (va + 2 * i) 2) } ∧
        (beats.map fun b => b.len).sum = 4 * tdRows d) ∧
      (k.home ≠ s.fabricId → exec (.bgemv ga c go) s = .next (s.raise ⟨0x1C, 5, c.setWidth 6, 0, 0x3D⟩)))

/-- R77, R78, R84, R291 to R296: the layer fence waits for the core's HBM writes; `oxfer` and `oacq`
change the state of an owned or escrowed object of this module and drop every cached copy of its
entry; `cmov` copies a capability here or sends it to another core; `cderive` narrows bounds within
the old ones, `crights` clears rights, and both keep the tag only of a tagged capability. -/
def Obligations.CapabilityWords : Prop :=
  ∀ (s : State) (d cs : BitVec 4) (gb gc : BitVec 6),
    let k := s.me.cap cs
    let reg : BitVec 6 := cs.setWidth 6
    (s.me.ready [] [] → (s.me.writesOpen = true → s.me.issue.commit = false) →
      exec .hfenceL s = .next (if s.me.writesOpen then s.stall .waiting else s)) ∧
    (s.me.ready [.c cs] [.c d] → exec (.cmov d cs) s = .next (s.later (.cap d k) 1)) ∧
    (∀ (c : Core) (x : Cap), (c.apply (.cap d x)).cap d = x) ∧
    (s.me.ready [.c cs, .g gc] [] → s.me.sb.length < 32 →
      let t := s.me.gr gc
      (t.toNat < 4096 → s.names s.me.id t.toNat = true → exec (.cmovRemote d cs gc) s = .next (s.onMe fun c => { c with
        sb := c.sb ++ [⟨.send (.core t.toNat) (.capDeposit d k), true, c.seq, true, c.rowsOwed⟩], seq := c.seq + 1 })) ∧
      (t.toNat < 4096 → s.names s.me.id t.toNat = false →
        exec (.cmovRemote d cs gc) s = .next (s.raise ⟨0x20, 1, gc, t.setWidth 48, 0x3D⟩)) ∧
      (4096 ≤ t.toNat → exec (.cmovRemote d cs gc) s = .next (s.raise ⟨0x18, 1, gc, t.setWidth 48, 0x3D⟩))) ∧
    (gb ≠ 63 → s.me.ready [.c cs, .g gb, .g (gb + 1)] [.c d] →
      let lo : BitVec 48 := (s.me.gr gb).setWidth 48
      let up : BitVec 48 := (s.me.gr (gb + 1)).setWidth 48
      let nested := k.lower ≤ lo.toNat ∧ lo.toNat ≤ up.toNat ∧ up.toNat ≤ k.upper
      let new : Cap := ⟨up ++ lo ++ k.bits.extractLsb' 0 32, true⟩
      (k.tag = true → nested → k.bits.getLsbD 27 = true → exec (.cderive d cs gb) s = .next (s.later (.cap d new) 1)) ∧
      (new.lower = lo.toNat ∧ new.upper = up.toNat ∧ new.index = k.index ∧ new.home = k.home) ∧
      (k.tag = false → exec (.cderive d cs gb) s = .next (s.raise ⟨0x19, 0, reg, 0, 0x3D⟩)) ∧
      (k.tag = true → nested → k.bits.getLsbD 27 = false →
        exec (.cderive d cs gb) s = .next (s.raise ⟨0x1B, 27, reg, 0, 0x3D⟩)) ∧
      (k.tag = true → ¬nested → ∃ val, exec (.cderive d cs gb) s = .next (s.raise ⟨0x1A, 3, reg, val, 0x3D⟩))) ∧
    (s.me.ready [.c cs, .g gc] [.c d] →
      (k.tag = true → ∃ new : Cap, exec (.crights d cs gc) s = .next (s.later (.cap d new) 1) ∧ new.tag = true ∧
        ∀ j < 128, new.bits.getLsbD j = if 24 ≤ j ∧ j < 32
          then k.bits.getLsbD j && (s.me.gr gc).getLsbD (j - 24) && decide (j < 30) else k.bits.getLsbD j) ∧
      (k.tag = false → exec (.crights d cs gc) s = .next (s.raise ⟨0x19, 0, reg, 0, 0x3D⟩))) ∧
    (∀ (ps : List (Nat × Nat)) (m : Mmu) (h : Nat), capCheck 0x3D cs k [.transfer] 0 [] = none → k.home = s.fabricId →
      k.index < s.guest.count → s.entryAddr k.index = (.ok ps, m) → (ps.map fun p => p.1).head? = some h →
      let e : BitVec 512 := BitVec.ofNat 512 (s.hbm.nat h 64)
      let puts := fun (new : BitVec 512) => Host.Outcome.next (φ := Fault) (ρ := Refusal) ((s.setMmu m).setEntry h k.index new)
      (s.me.ready [.c cs, .g gc] [] → (s.me.gr gc).toNat < 2 → objState e = 1 → objCirc e = s.guest.circ →
        (s.me.gr gc).toNat ≠ objCirc e → (s.me.writesOpen || s.me.accessesOpen) = false →
        exec (.oxfer cs gc) s = puts (putBits (putBits e 0 (2 : BitVec 2)) 5 ((s.me.gr gc).extractLsb' 0 1))) ∧
      (s.me.ready [.c cs] [] → objState e = 2 → objEdst e = s.guest.circ → s.me.writeHeld = false →
        exec (.oacq cs) s = puts (putBits (putBits (putBits e 0 (1 : BitVec 2)) 4 (e.extractLsb' 5 1)) 32
          (e.extractLsb' 32 32 + 1))) ∧
      (s.me.ready [.c cs, .g gc] [] → (s.me.gr gc).toNat < 2 → objState e ≠ 1 →
        exec (.oxfer cs gc) s = .next (s.raise ⟨0x1C, 1, reg, 0, 0x3D⟩)) ∧
      (s.me.ready [.c cs] [] → objState e ≠ 2 → exec (.oacq cs) s = .next (s.raise ⟨0x1C, 3, reg, 0, 0x3D⟩)))
/-! ## Events between the cores -/

/-- R186, R188, R198: the head of a store buffer leaves when the conditions of a release and of
program order hold: a local store is written, a remote one goes to its destination and stays
unacknowledged, a local `stfe` waits for an empty line and fills it, an HBM store is written, an HBM
atomic, once its channel serves it, reads and writes in one step; the push of a `tinit` reads its TCB
(R220), the end of a task signals its successors one after another and frees the TCB (R224), an access
of another module's object goes to that module (R277); a result of the previous turn goes on under the
present stamp (R36).

R47, R75, R186, R187, R192: at its destination a store is written and acknowledged, a load
reads its bytes, an atomic reads and writes in one step, both answer with the old value; the reply
writes the sender's register, and an acknowledgement takes its entry off the sender's list. What another
core changes in the registers, line bits and latch of a core in run-ahead it changes in the shadow and
in what was kept at b: that is the model's reading (notes/assumptions/31.md), no words of R406; elsewhere
there is one core to change. -/
def Obligations.RemoteAccesses : Prop :=
  (∀ (c : Core) (f : Core → Core), c.ckpt = none → c.both f = f c) ∧
  (∀ (s : State) (ps : List (Nat × List Byte)), (s.putHbm ps).hbm = putParts s.hbm ps) ∧
  ((∀ (s : State) (e : SbEntry) (es : List SbEntry), s.ev = .core s.me.id → s.flows = true → s.phase ≠ .announce →
    s.me.sb = e :: es →
    let exits := fun (f : State → State) => exec .storeBufferExit s = .next (f (s.onMe fun c => { c with sb := es }))
    let sends := fun (d : Place) (op : RemoteOp) (t : State) =>
      { t.updRegion s.me.id.owner s.me.id.circ fun r => { r with inj := r.inj + 1 } with
        me := { t.me with unacked := t.me.unacked ++ [⟨e.seq, d, (op.covers.getD (0, 0)).1, (op.covers.getD (0, 0)).2⟩] }
        net := s.net ++ [⟨s.me.id, d, op, e.seq, s.stamp⟩] }
    (s.me.mayExit e = false → exec .storeBufferExit s = .next s) ∧
    (s.me.mayExit e = true →
      (∀ o bs, e.kind = .scr o bs → s.me.composed = false →
        exits fun t => t.onMe fun c => c.writeScr o bs) ∧
      (∀ o v, e.kind = .stfe o v → s.me.composed = false →
        if s.me.fe.contains (o / 128) then exec .storeBufferExit s = .next s
        else exits fun t => t.onMe fun c =>
          { c.writeScr o (natBytes 8 v.toNat) with fe := feLines c.fe (o / 128) true 1 }) ∧
      (∀ d op, e.kind = .send d op → exits (sends d op)) ∧
      (∀ o hi, e.kind = .pushTcb o hi → s.me.composed = false →
        exits fun t => t.onMe fun c => c.push (tcbEntry s.me.scr s.me.id.num o) false) ∧
      (∀ r rs v home o, e.kind = .finish (r :: rs) v home o → exec .storeBufferExit s = .next
        (sends (.core (r.extractLsb' 0 12).toNat) (.signal r v)
          (s.onMe fun c => { c with sb := { e with kind := .finish rs v home o } :: es }))) ∧
      (∀ v home o, e.kind = .finish [] v home o →
        if home = s.me.id.num then exits fun t => t.onMe fun c => c.writeScr o [withState (c.scr.get o) 0]
        else exits (sends (.core home) (.state o 0))) ∧
      (∀ h obj op, e.kind = .home h obj op → exits fun t =>
        { t.onMe fun c => { c with unacked := c.unacked ++ [⟨e.seq, .home h, 0, 0⟩] } with
          homeOut := s.homeOut ++ [⟨s.me.id, e.seq, h, obj, op, 0⟩] }) ∧
      (∀ op a b exp rd, e.kind = .hatom op a b exp rd →
        let n := atomSize op
        let old := BitVec.ofNat 64 (s.hbm.nat a n)
        (s.serve s.me.id.owner [(a, n)] true = none → exec .storeBufferExit s = .next s) ∧
        ((∀ x ∈ s.flaws, a / 32 ≤ x.1 → a + n ≤ 32 * x.1) → ∀ u, s.serve s.me.id.owner [(a, n)] true = some u →
          exec .storeBufferExit s = .next ((u.onMe fun c => { c.landG rd old e.seq with
            sb := es, outs := c.outs.filter fun y => y.seq ≠ e.seq, hbmWr := c.hbmWr ++ [(a, n)] }).putHbm
              [(a, natBytes n (atomNew op old b exp).toNat)]))) ∧
      (∀ x top, e.kind = .push x top → exits fun t => t.onMe fun c => c.push x top) ∧
      (∀ b, e.kind = .bulk b → exits fun t => t.onMe fun c => { c with bulks := c.bulks ++ [b] }) ∧
      (∀ ps, e.kind = .hbm ps → exits fun t => (t.onMe fun c =>
        { c with hbmWr := c.hbmWr ++ ps.map fun p => (p.1, p.2.length) }).putHbm ps)) ∧
    ((s.me.outs.any fun o => decide (o.seq < e.seq) && !o.performed && o.kind != .division && o.kind != .steal) = false →
      s.me.unacked = [] → e.behind = 0 → s.me.walks = [] → s.me.mayExit e = true) ∧
    (e.rel = true → s.me.unacked ≠ [] → s.me.mayExit e = false)) ∧
  ∀ (s : State) (k : Nat) (m : Msg), s.ev = .msg k → s.msg? k = some m → m.stamp + 1 = s.stamp → s.phase = .run →
    exec .resultForward s = .next { s with net := setAt s.net k { m with stamp := s.stamp } }) ∧
  (∀ (s : State) (k : Nat) (m : Msg), s.arrives k m →
    let u := s.less k
    let back := fun (t : State) (rd : BitVec 6) (v : BitVec 64) => ((t.performed m).answer m (.reply rd v)).counted m
    (∀ (num : Nat) (c : Core), m.dst = .core num → s.core? { m.src with num := num } = some c →
      let at_ := fun (f : Core → Core) => u.updCore c.id fun d => d.both fun d => { f d with latch := true }
      (∀ o bs, m.op = .store o bs → exec .remoteStoreApply s = .next
        (((at_ fun d => d.writeScr o bs).acknowledge m).counted m)) ∧
      (∀ o n sg rd, m.op = .load o n sg rd → exec .remoteLoadApply s = .next
        (back (at_ id) rd (extendBytes sg n (c.scr.nat o n)))) ∧
      (∀ op o b exp rd, m.op = .atomic op o b exp rd → exec .atomicApply s = .next
        (let old := BitVec.ofNat 64 (c.scr.nat o (atomSize op))
        let new := natBytes (atomSize op) (atomNew op old b exp).toNat
        back (at_ fun d => d.writeScr o new) rd old)) ∧
      (∀ q, m.op = .ack q → exec .remoteAck s = .next
        ((u.updCore c.id fun d => { d with
          unacked := dropSeq d.unacked q
          slice := d.slice.map fun y => { y with acks := y.acks.erase q } }).counted m)) ∧
      (∀ rd v, m.op = .reply rd v → (c.outs.any (·.seq == m.seq)) = true →
        (c.outs.any fun o => o.seq == m.seq && o.kind == .successor) = false → u.me.id = c.id → u.me = c →
        exec .remoteLoadReply s = .next
          (({ u with me := { c.landG rd v m.seq with
            outs := c.outs.filter (·.seq ≠ m.seq), unacked := dropSeq c.unacked m.seq } }).counted m))) ∧
    (∀ l, m.dst = .bank l →
      (∀ o bs, m.op = .store o bs → ∀ i ∈ [Instr.remoteStoreApply, .bankOpApply], exec i s = .next
        ((((u.updRegion m.src.owner m.src.circ fun r => r.bankPut l o bs).acknowledge m)).counted m)) ∧
      (∀ r o n sg rd, s.region? m.src.owner m.src.circ = some r → m.op = .load o n sg rd → r.veil = [] →
        ∀ i ∈ [Instr.remoteLoadApply, .bankOpApply],
        exec i s = .next (back u rd (extendBytes sg n (bytesNat (((r.banks.getD l []).bytes o n)))))) ∧
      (∀ r op o b exp rd, s.region? m.src.owner m.src.circ = some r → m.op = .atomic op o b exp rd → r.veil = [] →
        let old := BitVec.ofNat 64 ((r.banks.getD l []).nat o (atomSize op))
        ∀ i ∈ [Instr.atomicApply, .bankOpApply], exec i s = .next
          (back (u.updRegion m.src.owner m.src.circ fun r =>
            r.bankPut l o (natBytes (atomSize op) (atomNew op old b exp).toNat)) rd old))) ∧
    (∀ (old b exp : BitVec 64), atomNew .add old b exp = old + b ∧ atomNew .swp old b exp = b ∧
      atomNew .cas old b exp = (if old = exp then b else old) ∧
      (atomNew .min old b exp).toInt = min old.toInt b.toInt ∧ (atomNew .max old b exp).toInt = max old.toInt b.toInt ∧
      (atomNew .minn old b exp).toNat = min old.toNat b.toNat ∧ (atomNew .maxn old b exp).toNat = max old.toNat b.toNat ∧
      atomNew .and old b exp = old &&& b ∧ atomNew .or old b exp = old ||| b ∧ atomNew .xor old b exp = old ^^^ b))

/-- R74, R294, R376, R222, R223, R390: a deposit onto an absent register makes it present; onto a
present one it is set aside and class 0x1D is pending; a capability is replaced; a message pushes a
task, or gives a control block its arguments and takes one from its count, and the block that
reaches 0 is pushed; a push that finds no place is set aside, with class 0x21 sub 2 pending. What an
arrival changes in a core in run-ahead it changes in what was kept at b too: the model's reading
(notes/assumptions/31.md).

R42, R43, R217, R218: an idle core takes the bottom entry of its deques, and one with none
asks its next victim, which gives its top entry or nothing; at entry the argument registers, `g9`,
the level, the pc, from the handler table, and the state of the TCB are set. -/
def Obligations.MessagesAndTasks : Prop :=
  ((∀ (s : State) (k num : Nat) (m : Msg) (c : Core), s.arrives k m →
    m.dst = .core num → s.core? { m.src with num := num } = some c →
    let u := s.less k
    let ends := fun (i : Instr) (t : State) => exec i s = .next ((t.acknowledge m).counted m)
    let room := fun (x : BitVec 512) => c.hasPlace (entryHi x) false = true ∧
      (c.spill.any fun y => match y with | .push _ => true | _ => false) = false
    (∀ x v, m.op = .deposit x v →
      (c.arch.xp x = false → c.queued x = false → ends .depositApply
        (u.updCore c.id fun d => d.both fun d => { (d.setX x v).setXp x true with latch := true })) ∧
      (c.arch.xp x = true → s.paused = false → ends .depositApply
        ((u.spillTo c.id (.deposit x v)).updCore c.id fun d => d.deferOnce (.overrun x (BitVec.ofNat 12 m.src.num))))) ∧
    (∀ x v, m.op = .capDeposit x v → ends .capDepositApply
      (u.updCore c.id fun d => d.both fun d => { d.setCap x v with latch := true })) ∧
    (∀ h args, m.op = .message h args → h.getLsbD 15 = false →
      (room (headerEntry h args) → ends .messageApply
        (u.updCore c.id fun d => (d.push (headerEntry h args) false).both fun d => { d with latch := true })) ∧
      (c.hasPlace (entryHi (headerEntry h args)) false = false → c.spill.length < 256 →
        exec .messageApply s = .next ((((u.spillTo c.id (.push (headerEntry h args))).updCore c.id fun d =>
          d.deferOnce (.dequeFull (BitVec.ofNat 12 m.src.num))).acknowledge m)))) ∧
    (∀ h args, m.op = .message h args → h.getLsbD 15 = true →
      c.scr.nat (64 * (h.extractLsb' 16 13).toNat + 2) 2 = 0 → ends .messageApply
        (u.updCore c.id fun d => (d.deferOnce
          (.underflow (BitVec.ofNat 19 (64 * (h.extractLsb' 16 13).toNat)) (BitVec.ofNat 12 m.src.num))).both
            fun d => { d with latch := true })) ∧
    (∀ (i : Instr) (off : Nat) (args : List (Nat × BitVec 64)),
      (∃ h vs, m.op = .message h vs ∧ h.getLsbD 15 = true ∧ i = .messageApply ∧ off = 64 * (h.extractLsb' 16 13).toNat ∧
        args = (List.range vs.length).map fun j => (j + 1, vs.getD j 0)) ∨
      (∃ r v, m.op = .signal r v ∧ i = .signalApply ∧ off = 64 * (r.extractLsb' 19 13).toNat ∧
        args = if r.extractLsb' 12 3 = 0 then [] else [((r.extractLsb' 12 3).toNat, v)]) →
      let cnt := c.scr.nat (off + 2) 2
      let given := args.foldl (fun d (x : Nat × BitVec 64) => d.writeScr (off + 8 + 8 * x.1) (natBytes 8 x.2.toNat)) c
      let less := given.writeScr (off + 2) (natBytes 2 (cnt - 1))
      let ready := less.writeScr (off + 1) [withState (less.scr.get (off + 1)) 2]
      let x := tcbEntry ready.scr c.id.num off
      let seen := fun (d : Core) => d.both fun d => { d with latch := true }
      (1 < cnt → ends i (u.updCore c.id fun _ => seen less)) ∧
      (cnt = 1 → room x → ends i ((u.updCore c.id fun _ => seen ready).updCore c.id fun d => seen (d.push x false)))) ∧
    (∀ (t : Memory) (n off : Nat), let x := tcbEntry t n off
      entryTcb x = true ∧ entryHandler x = t.nat off 8 % 1024 ∧ entryHome x = n % 4096 ∧
      entryOff x = off / 64 % 8192 * 64 ∧ entryScount x = t.nat off 8 / 2 ^ 32 % 2 ^ 16 ∧
      entrySlist x = t.nat (off + 8) 8 % 2 ^ 19 ∧ x.extractLsb' 128 384 = BitVec.ofNat 384 (t.nat (off + 16) 48))) ∧
  ∀ (s : State) (id : CoreId) (c : Core) (x : BitVec 512), s.ev = .core id → s.core? id = some c →
    c.spill = [.push x] → c.hasPlace (entryHi x) false = true →
    exec .setAsidePushApply s = .next ((s.updCore id fun d =>
      { d.push x false with spill := d.spill.erase (.push x), latch := true }).updRegion id.owner id.circ
        fun r => { r with ej := r.ej + 1 })) ∧
  ((∀ (s : State) (e : BitVec 512) (d : Core), s.ev = .core s.me.id → s.mayIssue s.me = true → s.me.free = true →
    (s.me.pop = some (e, d) → s.me.tcbHeld e = false → exec .taskPop s = .next ({ s with me := d }.begin e)) ∧
    (∀ (r : Region) (dist v : Nat), s.me.hasWork = false → s.me.isMem = false → s.myRegion? = some r →
      r.launch.isSome = true → s.nextVictim = some (dist, v) →
      exec .stealProbe s = .next { (s.updRegion s.me.id.owner s.me.id.circ fun r => { r with inj := r.inj + 1 }) with
        me := { s.me with awaiting := true, sweep := s.me.sweep + 1, stealPtr := bump s.me.stealPtr dist }
        net := s.net ++ [⟨s.me.id, .core v, .steal, 0, s.stamp⟩] })) ∧
  (∀ (s : State) (k num : Nat) (m : Msg) (c : Core), s.arrives k m →
    m.dst = .core num → s.core? { m.src with num := num } = some c →
    let u := s.less k
    (m.op = .steal → ∀ e d, c.takeTop = some (e, d) → exec .stealRequestApply s = .next
      (((u.updCore c.id fun _ => d.both fun d => { d with latch := true }).answer m (.stealReply (some e))).counted m)) ∧
    (m.op = .steal → c.takeTop = none → exec .stealRequestApply s = .next
      (((u.updCore c.id fun d => d.both fun d => { d with latch := true }).answer m (.stealReply none)).counted m)) ∧
    (m.op = .stealReply none → s.me = c → exec .stealReply s = .next
      (({ u with me := { c with awaiting := false } }).counted m)) ∧
    (∀ e, m.op = .stealReply (some e) → s.me = c →
      (c.tcbHeld e = false → exec .stealReply s = .next ((u.begin e).counted m)) ∧
      (c.tcbHeld e = true → exec .stealReply s = .next s))) ∧
  ∀ (s : State) (e : BitVec 512),
    let t := s.begin e
    t.me.running = some e ∧ t.me.awaiting = false ∧ t.me.csr.level = 0 ∧
    t.me.pc = s.me.scr.nat (handlerTable s.me.id.num + 4 * entryHandler e) 4 ∧
    (∀ j < 6, t.me.gr (BitVec.ofNat 6 (3 + j)) = e.extractLsb' (128 + 64 * j) 64) ∧
    (entryTcb e = false → t.me.gr 9 = 0xFFFFFFFFFFFFFFFF ∧ t.me.scr = s.me.scr) ∧
    (entryTcb e = true → entryHome e = s.me.id.num → t.me.gr 9 = BitVec.ofNat 64 (entryOff e) ∧
      t.me.scr = (s.me.writeScr (entryOff e + 1) [withState (s.me.scr.get (entryOff e + 1)) 3]).scr) ∧
    (entryTcb e = true → entryHome e ≠ s.me.id.num → s.me.ahead = none →
      t.me.gr 9 = BitVec.ofNat 64 (2 * 2 ^ 45 + entryHome e * 2 ^ 33 + entryOff e) ∧ t.me.scr = s.me.scr ∧
      t.me.sb = s.me.sb ++ [⟨.send (.core (entryHome e)) (.state (entryOff e + 1) 3), false, s.me.seq, true, s.me.rowsOwed⟩]))

/-! ## Engines, turns and contexts -/

/-- R211, R212, R287 to R290, R414: a core's commands start in issue order; each beat writes its
bytes and subtracts their count from its cell; a beat to or from HBM goes when its channel serves it
(R327), while stores move a memory core's delivery is sent to be held (R355), and one of another
module's object is asked of that module; a beat to or from HBM that does not translate makes the
rest a record that waits for a reply, or ends the command with a deferred cause; a record whose
reply has come goes on. Reads of the stacks are said where they meet no error of an array (R419). -/
def Obligations.BulkEngines : Prop :=
  ∀ (s : State) (id : CoreId) (c : Core) (i : Nat) (b : Bulk), s.ev = .coreIdx id i → s.core? id = some c →
    c.bulks[i]? = some b →
    (b.started = false → (∀ x ∈ c.bulks.take i, x.started = true) → s.engineRuns id = true →
      exec .bulkCommandStart s = .next (s.updBulk id i fun b => { b with started := true })) ∧
    (b.record = true → b.waiting.isSome = true → b.answer.isSome = true → s.engineRuns id = true →
      exec .bulkRecordResume s = .next (s.updBulk id i fun b => { b with record := false })) ∧
    (∀ (u : State) (off : Nat) (bs : List Byte),
      (u.flows = true → u.deliverBeat b id off bs = (u.sidePutBytes id b.dst off bs).countBeat b id bs.length) ∧
      ∀ n, u.flows = false →
        (b.dst = .scratch n → u.deliverBeat b id off bs = u.send id (.core n) (.deliver false off bs b.cell) b.id) ∧
        (b.dst = .regs n → u.deliverBeat b id off bs = u.send id (.core n) (.deliver true off bs b.cell) b.id)) ∧
    let sound := fun (ps : List (Nat × Nat)) => ∀ x ∈ s.flaws, ∀ p ∈ ps, p.1 / 32 ≤ x.1 → p.1 + p.2 ≤ 32 * x.1
    ∀ t rest, b.started = true → b.record = false → s.mayBeat id b = true → b.beats = t :: rest →
      (b.kind ∈ [BulkKind.bcopy, .tload, .tstore] → s.engineRuns id = true → exec .bulkBeat s = .next
        (((s.sidePutBytes id b.dst t.dst (s.sideBytes id b.src t.src t.len)).countBeat b id t.len).beatDone id i rest)) ∧
      (∀ cap m, b.kind = .hship → b.src = .hbm cap → cap.home = s.fabricId → s.delivers id = true →
        (∀ ps, s.beatWalk id b cap t.src t.len true false = (.ok ps, m) →
          (∀ u, sound ps → s.serve id.owner ps false = some u → exec .hshipBeat s = .next
            (((u.keepWalk id i m).deliverBeat b id t.dst (partBytes (u.keepWalk id i m).hbm ps)).beatDone id i rest)) ∧
          (s.serve id.owner ps false = none → exec .hshipBeat s = .next s)) ∧
        (∀ g r w l, s.beatWalk id b cap t.src t.len true false = (.misses ((g, r, w) :: l), m) →
          exec .hshipBeat s = .next ((s.updBulk id i fun b =>
            { b with record := true, waiting := some g, answer := none }).request id.owner g r w)) ∧
        (∀ cls sub v, s.beatWalk id b cap t.src t.len true false = (.fault cls sub v, m) → b.packet = none →
          exec .hshipBeat s = .next ((s.dropBulk id i).updCore id fun c =>
            c.defer (.memory ⟨cls, sub, b.creg.setWidth 6, v, 0⟩)))) ∧
      (∀ cap ps m v, b.kind = .hpull → b.dst = .hbm cap → cap.home = s.fabricId → s.engineRuns id = true →
        s.beatWalk id b cap t.dst t.len false true = (.ok ps, m) → s.serve id.owner ps false = some v →
        let u := v.keepWalk id i m
        exec .hpullBeat s = .next (((u.putHbm (spreadParts ps (s.sideBytes id b.src t.src t.len))).countBeat b id t.len).beatDone id i rest)) ∧
      (∀ cap, b.kind ∈ [BulkKind.hship, .hpull] →
        (if b.kind = .hship then b.src else b.dst) = .hbm cap → cap.home ≠ s.fabricId → s.engineRuns id = true →
        (∀ q ∈ s.homeOut, q.src ≠ id) →
        (b.kind = .hship → exec .hshipBeat s = .next
          { s with homeOut := s.homeOut ++ [⟨id, b.id, cap.home, cap.bits.extractLsb' 0 15, .ship b.id t.src t.len, 0⟩] }) ∧
        (b.kind = .hpull → exec .hpullBeat s = .next { s with homeOut := s.homeOut ++
          [⟨id, b.id, cap.home, cap.bits.extractLsb' 0 15, .pull b.id t.dst (s.sideBytes id b.src t.src t.len), 0⟩] })) ∧
      ∀ cap, b.kind = .bgemv → b.src = .hbm cap → tdFp4 b.desc = false → s.delivers id = true →
        let d := b.desc
        let hi := (t.src + t.len) / 4
        let walk := s.rangeWalks id b cap ((List.range hi).map fun n => (tdBase d + n * tdPitch d, tdRowBytes d))
        let rd := s.objByte id walk.2 cap
        let sd := fun x => if s.sideInside id walk.2 cap x then readNat rd x 8 else 0xFFFF00000000
        let scan := scanRows rd sd d ((tdType d).getD .i8) (tdType d == some .i8) hi
        let ys := (gemvRows d b.vec scan).drop (t.src / 4)
        let bad := b.bad.or (scan.1.bad.map fun (r, u) => (BitVec.ofNat 48 r, BitVec.ofNat 8 u))
        ∀ ps, walk.1 = .ok ps → scan.1.entries = 0 → sound ps →
          let done := (((s.keepWalk id i walk.2).updBulk id i fun b => { b with bad := bad }).deliverBeat b id t.dst
            (ys.flatMap fun y => natBytes 4 y.toNat)).beatDone id i rest
          (bad = none → exec .bgemvBeat s = .next done) ∧
          (∀ r u, rest = [] → bad = some (r, u) →
            exec .bgemvBeat s = .next (done.updCore id fun c => c.defer (.matrix 0 r u)))

/-- R30 to R39, R400 to R403: a turn that is due stops every core in front of its packet; when every
engine stands at a granule point the buffers drain, then the stores stream for (5 MiB + E) / 256
cc; a stripe that is sent again, up to three times, holds its column for 256 cc, and after that it goes
over the mesh in 1,024 and marks the position failing; at the remap
every region moves one position forward and the stamp changes; at the resume `turnno` counts the
turn and the cores start: spilled arrivals apply, then forwarded results, then commands and queues go on
and a switch asked for in the pause begins. A region whose `turnh` asks for it gets a high-priority task with
`turnno`, the pause, the stamp and the number of turns (R39), which is pushed first
(notes/assumptions/78.md); it counts turns that a failed slot made a resident context miss
(notes/assumptions/83.md). At the stop of a core its pending writes are captured (R51). -/
def Obligations.TurnSteps : Prop :=
  ∀ s : State,
    let resident := s.regions.filter (·.resident)
    (s.turnDue = true → s.phase = .run → s.switching = [] →
      (∀ r ∈ s.regions, r.preempt = false ∧ r.blocked = false ∧ (s.fn r.id.owner).rollback = false) → exec .turnAnnounce s = .next
        { resident.foldl (fun t r => t.haltRegion r.id) s with phase := .announce, pauseAt := s.cyc.toNat, turnDue := false }) ∧
    (∀ c : Core, c.pend = [] → c.outs = [] → c.compo = .plain → c.binding = none →
      c.halt.pc = c.pc ∧ c.halt.g = c.g ∧ c.halt.scr = c.scr ∧ c.halt.csr = c.csr ∧ c.halt.latch = !c.onLatch) ∧
    (∀ c : Core, let k := c.capture (if c.rearmed then 0 else c.bubble)
      c.halt.pc = c.pc ∧ c.halt.qimg = k.qimg ∧ c.halt.pend = k.pend ∧ c.halt.vbusy = k.vbusy ∧
        c.halt.g = k.g ∧ c.halt.p = k.p ∧ c.halt.t = k.t ∧ c.halt.vmem = k.vmem ∧ c.halt.scr = k.scr) ∧
    (s.phase = .announce → (∀ r ∈ s.regions, r.resident = true → s.enginesStopped r = true) →
      exec .turnDrain s = .next { resident.foldl State.stopEngines s with phase := .drain }) ∧
    (s.phase = .drain → s.drained = true → s.failing = [] → exec .turnMove s = .next
      { resident.foldl State.forget { s.growStripes with
          moveFor := (5 * 2 ^ 20 + resident.foldl (fun m r => max m (s.extent r)) 0) / 256
          moveExtra := [], moveTries := [] } with phase := .move }) ∧
    (∀ x ok, s.ev = .stripe x ok → s.sent? x = none → exec .turnLaneRetry s = .next s ∧ exec .turnLaneFallback s = .next s) ∧
    (∀ x k col ok lane mesh, s.phase = .move → s.ev = .stripe x ok → s.sent? x = some (k, col) →
      s.triesOf k = (lane, mesh) → s.meshOnly (col / 4) = false →
      (lane < 3 → exec .turnLaneRetry s = .next
        (((s.stripeRecord 0x06 col k).setTries k (lane + 1, mesh)).prolong col 256)) ∧
      (lane = 3 → mesh = 0 → ok = true → exec .turnLaneFallback s = .next
        (({ s.stripeRecord 0x07 col k with
          failing := if s.failing.contains (col / 4) then s.failing else s.failing ++ [col / 4] }.prolong col 1024).setTries
            k (3, 1))) ∧
      (lane < 3 → exec .turnLaneFallback s = .next s) ∧ (3 ≤ lane → exec .turnLaneRetry s = .next s)) ∧
    (∀ col n, s.moveExtra = [] → (s.prolong col n).moveFor = s.moveFor + n) ∧
    (s.phase = .move → s.moveFor = 0 → s.failing = [] → (∀ c ∈ s.cols, c.broken = none) →
      exec .turnRemap s = .next { s with
        phase := .remap
        stamp := s.stamp + 1
        regions := s.regions.map fun r => { r with head := s.forward r.id.circ r.head 1, blocked := false }
        cols := s.cols.map fun c => { c with residues := [] }
        moveExtra := [], moveTries := [] }) ∧
    (s.phase = .remap → s.cyc.toNat - s.pauseAt ≤ 2 ^ 18 → (∀ f ∈ s.fns, f.ckptK = 0 ∧ f.rollback = false) →
      (∀ r ∈ s.regions, r.preempt = false ∧ r.blocked = false ∧ r.resident = true) →
      let pause := s.cyc.toNat - s.pauseAt
      let each := fun (f : Core → Core) (t : State) => s.regions.foldl (fun t r => t.eachCore r.id f) t
      let pushed := s.regions.foldl
        (fun t r => t.pushTurn r.id (r.turnno.toNat + r.missed + 1) pause (r.missed + 1)) { s with
          regions := s.regions.map fun r => { r with
            turnno := r.turnno + BitVec.ofNat 64 (r.missed + 1), missed := 0, lastPause := pause } }
      pushed.fns = s.fns → exec .turnResume s = .next
        { each Core.reissue (each Core.restart pushed).applyForwarded with phase := .run }.dueSwitch) ∧
    ∀ (r : RegionId) (turns pause count : Nat) (c : Core), s.core? ⟨r.owner, r.circ, 0⟩ = some c →
      let h := c.csr.turnh
      let x := turnEntry h [BitVec.ofNat 64 turns, BitVec.ofNat 64 pause, s.stamp.setWidth 64, BitVec.ofNat 64 count, 0, 0]
      (h.getLsbD 10 = false → s.pushTurn r turns pause count = s) ∧
      (h.getLsbD 10 = true → c.hasPlace true false = true →
        (c.spill.any fun y => match y with | .push _ => true | _ => false) = false →
        s.pushTurn r turns pause count =
          (s.updCore c.id fun d => (d.push x false).both fun d => { d with latch := true }).updRegion r.owner r.circ
            fun q => { q with inj := q.inj + 1, ej := q.ej + 1 }) ∧
      entryHandler x = h.toNat % 1024 ∧ entryHi x = true ∧ entryTcb x = false ∧ entryArg x 1 = BitVec.ofNat 64 turns ∧
        entryArg x 2 = BitVec.ofNat 64 pause ∧ entryArg x 3 = s.stamp.setWidth 64 ∧ entryArg x 4 = BitVec.ofNat 64 count

/-- R46, R48 to R50: a pre-emption request begins at once when no other is in progress and no turn is due,
and stops a region's cores; when its engines and traffic have stopped the context is no longer resident, and the
context to come is waited for, with the bank of the context that left in its save area; a context whose
place is free becomes resident again; a launch (packet type 1) completes with status 0 at the second of two waves that find everything idle
and the totals unchanged.

R27 to R29, R75: a region is created with fresh cores and banks that read zero, resident when no
other context has its place; while it is not resident it may be given another size, keeping the
cores that both sizes have, or be freed, and then its cores, traffic and stripes are gone. -/
def Obligations.RegionEvents : Prop :=
  (∀ (s : State) (id : RegionId) (r : Region), s.ev = .region id → s.region? id.owner id.circ = some r → s.phase = .run →
    let upd := fun (t : State) (f : Region → Region) => t.updRegion id.owner id.circ f
    (∀ x : RegionId × Option RegionId, s.switches = [x] → r.resident = true → r.preempt = true → s.switchable r = true →
      x.1 = id →
      exec .preempt s = .next { (upd ((s.growStripes.stopEngines r).forget r) fun r =>
          { r with resident := false, preempt := false, lastRes := s.cyc.toNat, lastPause := 0 }).saveBank id with
        switches := [], switching := s.switching ++ (x.2.map fun n => (id, n)).toList }) ∧
    (r.resident = true → r.preempt = true → s.switchable r = false → exec .preempt s = .next s) ∧
    (r.resident = false → r.missed = 0 → s.keptOut id = false → s.onBroken r = false →
      (∀ q ∈ s.regions, q.resident = true → q.id ≠ id → s.shares q r = false) →
      exec .contextRestore s = .next ({ ((upd s fun q =>
        { q with resident := true, started := true, turnno := r.turnno, missed := 0, blocked := s.onBroken q }).fetchStripes r) with
          switching := s.switching.filter (·.2 ≠ id) }.restartRegion id).dueSwitch) ∧
    ∀ l : Launch, r.launch = some l →
      let idle := (∀ c ∈ s.cores, c.id.owner = id.owner → c.id.circ = id.circ → c.quiet = true) ∧
        ∀ a ∈ r.arrays, a.queue = [] ∧ a.run = none
      (idle → r.inj = r.ej → r.wave ≠ some (r.inj, r.ej) →
        exec .terminationWave s = .next (upd s fun q => { q with wave := some (q.inj, q.ej) })) ∧
      (idle → r.inj = r.ej → r.wave = some (r.inj, r.ej) → exec .terminationWave s = .next
        ((upd s fun r => { r with launch := none, wave := none }).complete id.owner l.q l.sseq 1 0 (r.ocyc - l.startOcyc))) ∧
      (r.inj ≠ r.ej → exec .terminationWave s = .next (upd s fun r => { r with wave := none }))) ∧
  (∀ (s : State) (id : RegionId) (r : Region) (x : Option RegionId), s.ev = .switch id x →
    s.region? id.owner id.circ = some r → r.id = id → s.phase = .run → s.switches = [] → s.switching = [] →
    r.resident = true → r.preempt = false → r.blocked = false →
    (s.turnDue = false → exec .preempt s = .next (({ s with switches := [(id, x)] }.updRegion id.owner id.circ
      fun r => { r with preempt := true }).haltRegion id)) ∧
    (s.turnDue = true → exec .preempt s = .next { s with switches := [(id, x)] })) ∧
  (∀ s : State, s.openSwitches = [] → s.dueSwitch = s) ∧
  (∀ (s : State) (id : RegionId) (pos head : Nat) (mcs : List Nat),
    (s.ev = .newRegion id pos head mcs → s.placeOk id pos head mcs = true →
      (s.region? id.owner id.circ = none → (∀ q ∈ s.regions, q.resident = false) → s.switching = [] →
        (∀ c ∈ s.cols, c.broken = none) →
        let r : Region := { wholeRegion with
          id := id, pos := pos, head := head, mcs := mcs, resident := true, started := true,
          arrays := List.replicate (4 * pos) ⟨[], none⟩, banks := List.replicate (4 * pos) [] }
        exec .regionCreate s = .next (State.fetchStripes { s with
          regions := s.regions ++ [r]
          others := s.others ++ (coreNums pos mcs.length).map fun n => Core.fresh ⟨id.owner, id.circ, n⟩ } r)) ∧
      (∀ r, s.region? id.owner id.circ = some r → r.resident = false →
        ∃ t, exec .regionResize s = .next t ∧ t.net = s.net ∧ t.hbm = s.hbm ∧ t.fns = s.fns ∧
          t.regions = s.regions.map fun q =>
            let banks := (q.banks ++ List.replicate (4 * pos - q.banks.length) []).take (4 * pos)
            let arrays := List.replicate (4 * pos) ⟨[], none⟩
            if q.id.owner = id.owner ∧ q.id.circ = id.circ then
              { q with pos := pos, head := head, mcs := mcs, arrays := arrays, banks := banks }
            else q)) ∧
    (∀ r, s.ev = .region id → s.region? id.owner id.circ = some r →
      (r.resident = true → exec .regionFree s = .next s) ∧
      (r.resident = false → ∃ t, exec .regionFree s = .next t ∧ t.regions = s.regions.filter (·.id ≠ id) ∧
        t.net = s.net.filter (fun m => !m.ofRegion id) ∧ t.stripes = s.stripes.filter (·.r ≠ id) ∧ t.fns = s.fns ∧
        t.hbm = s.hbm ∧ (∀ c ∈ t.cores, ¬(c.id.owner = id.owner ∧ c.id.circ = id.circ) ∨ c = Core.fresh nobody))))

/-! ## HBM, page requests and frames -/

/-- R278, R281, R282, R291, R327, R334, R406 to R412, R415, R418, R419, R427: the oldest access of a core,
when its channel serves it, returns its bytes to its register, its view row or its target's inbox,
and waits when the channel does not; a reply of another module lands in the order of its requests,
and its answer to a walk lets the packet go on; a value is given where the read meets no error of an
array, and uncorrectable data gives none and strikes the frame's owner; a miss at level 0 starts
run-ahead from the state at b, with the granules that the packet misses in its batch, unless one of the
last batch is still outstanding, which the packet then waits for; at level 1 it submits one request;
run-ahead ends at 256 packets or 32 granules, submits its batch, and the core goes back to b; with every
reply in, the packet at b is issued again. -/
def Obligations.HbmReturns : Prop :=
  (∀ (s : State) (id : CoreId) (c : Core) (a : HbmAcc) (as : List HbmAcc), s.core? id = some c → c.hbmAcc = a :: as →
    c.sb = [] →
    (∀ u, s.serve id.owner a.op.parts false = some u →
      (∀ y ∈ s.flaws, ∀ p ∈ a.op.parts, p.1 / 32 ≤ y.1 → p.1 + p.2 ≤ 32 * y.1) →
      (∀ x rd, s.ev = .read id .clean → a.op = .load x rd → exec .hbmReadReply s = .next
        (u.updCore c.id fun d => (d.landG rd (BitVec.ofNat 64 (s.hbm.nat x 8)) a.seq).accDone a)) ∧
      (∀ ps o, s.ev = .read id .clean → a.op = .loadRow ps o → exec .hbmReadReply s = .next
        (u.updCore c.id fun d => (d.landView o (partBytes s.hbm ps) a.seq).accDone a)) ∧
      (∀ x n k, s.ev = .read id .clean → a.op = .loadX x n k → exec .hbmReadReply s = .next
        ((u.updCore c.id fun d => { d.accDone a with unacked := d.unacked ++ [⟨a.seq, .core n, 0, 0⟩] }).send
          c.id (.core n) (.depositX k (BitVec.ofNat 64 (s.hbm.nat x 8))) a.seq)) ∧
      (∀ x rd f, s.ev = .read id .arrayUncorrectable → a.op = .load x rd → s.frameOwner x = some f →
        (s.fn f).ckpt = none → exec .hbmReadReply s = .next
          (((u.arrayRecord 1 0 x).clearFrame x).strike f 0x05))) ∧
    (∀ x, (s.clearFrame x).hbm = s.hbm.filter (fun p => p.1 / 2 ^ 13 ≠ x / 2 ^ 13) ∧
      (s.clearFrame x).flaws = s.flaws.filter (fun y => y.1 / 256 ≠ x / 2 ^ 13)) ∧
    (∀ o, s.ev = .read id o → s.serve id.owner a.op.parts false = none → exec .hbmReadReply s = .next s) ∧
    (∀ i x n, s.ev = .coreIdx id i → c.hbmWr[i]? = some (x, n) →
      (∀ u, s.serve id.owner [(x, n)] false = some u →
        exec .hbmWriteArrive s = .next (u.updCore id fun c => { c with hbmWr := dropAt c.hbmWr i })) ∧
      (s.serve id.owner [(x, n)] false = none → exec .hbmWriteArrive s = .next s)) ∧
    (s.ev = .core id → exec .translationResolved s = .next (s.updCore id fun c => { c with walks := [] })) ∧
    (∀ h w w', s.ev = .homeWalk id w → c.homeHeld = some (h, w') → s.reaches id.owner h = true →
      exec .translationResolved s = .next (s.updCore id fun c => { c with homeAns := some w, homeHeld := none }) ∧
      ∀ l, w = .missed l →
        exec .translationMiss s = .next (s.updCore id fun c => { c with homeAns := some w, homeHeld := none }))) ∧
  (∀ (s : State) (k : Nat) (q : HomeReq) (bs : List Byte), s.ev = .home k bs → s.homeOut[k]? = some q →
    (∀ i < k, ∀ p, s.homeOut[i]? = some p → p.home ≠ q.home) → s.reaches q.src.owner q.home = true →
    let t : State := { s with homeOut := dropAt s.homeOut k }
    (∀ o rd, q.op = .load o rd → (t.homeOut.any fun r => r.src == q.src && r.seq == q.seq) = false →
      exec .hbmReadReply s = .next (t.updCore q.src fun d => { d.landG rd (BitVec.ofNat 64 (bytesNat bs)) q.seq with
        outs := d.outs.filter fun o => !(o.kind == .hbm && o.seq == q.seq) })) ∧
    (∀ ps, q.op = .store ps →
      exec .hbmWriteArrive s = .next (t.updCore q.src fun c => { c with unacked := dropSeq c.unacked q.seq }))) ∧
  ∀ s : State, s.ev = .core s.me.id →
    (∀ g r w l, s.me.needs = (g, r, w) :: l →
      (s.me.csr.level ≠ 0 → exec .translationMiss s = .next
        ((s.request s.me.id.owner g r w).onMe fun c => { c with needs := [(g, r, w)], asked := [g] })) ∧
      (let late := s.me.needs.filter fun n => s.me.asked.contains n.1 && (s.fn s.me.id.owner).requested n.1
      s.me.csr.level = 0 → exec .translationMiss s = .next (s.onMe fun c =>
        if late = [] then { c with
          ckpt := some ⟨c.g, c.p, c.x, c.xpres, c.w, c.c, c.q, c.v, c.t, c.csr, c.vmem, c.fe, c.latch,
            c.pend.filter (fun p => !p.w.outward), c.vbusy, c.pc, c.seq⟩
          ahead := some ⟨0, c.needs, []⟩ }
        else { c with needs := late }))) ∧
    (∀ a, s.me.ahead = some a → (256 ≤ a.packets ∨ 32 ≤ a.batch.length) → exec .runAheadEnd s = .next s.endAhead) ∧
    (∀ a, s.me.ahead = some a → a.packets < 256 → a.batch.length < 32 → exec .runAheadEnd s = .next s) ∧
    (∀ a k, s.me.ahead = some a → s.me.ckpt = some k → s.endAhead.me.g = k.g ∧ s.endAhead.me.pc = k.pc ∧
      s.endAhead.me.vmem = k.vmem ∧ s.endAhead.me.csr = k.csr ∧ s.endAhead.me.c = k.c ∧ s.endAhead.me.ahead = none ∧
      s.endAhead.me.asked = a.batch.map (·.1) ∧
      (s.me.id.owner < s.fns.length → ∀ x ∈ a.batch, (s.endAhead.fn s.me.id.owner).requested x.1 = true)) ∧
    (s.me.needs ≠ [] → (∀ n ∈ s.me.needs, s.me.answered.any (·.1 == n.1) = true) →
      exec .checkpointReissue s = .next (s.onMe fun c => { c with needs := [] }))

/-- R331, R409 to R411: the first queued request of a function takes the next tag and an entry as
soon as one is free, and is written to the ring of the function when the ring is enabled and the
link is up; enabling the ring writes what waits; a reply frees its entry and reaches the cores
of the function: a mapped one charges the leaf's new frames, or is turned into refused when they
and the copies of a checkpoint (R435) would exceed the limit; an unanswered request is answered
refused after the reply limit.

R83, R417: the guaranteed counts of all functions never exceed the frames that firmware leaves; for a
function below its guarantee a frame beyond some owner's guarantee is asked back in the physical
function's ring when it needs one and none is free, and the reply ends the frame's charge.
R79, R81, R394: Bamind sets a function's
table, root and limits, each limit in its range. -/
def Obligations.PageAndFrameEvents : Prop :=
  (∀ (s : State) (f : Nat), f < s.fns.length →
    (∀ g r w l, s.ev = .num f → (s.fn f).reqQueue = (g, r, w) :: l → (s.fn f).reqs.length < 4 →
      (s.fn f).reqs.any (·.gran == g) = false → l.any (·.1 == g) = false →
      let fn := s.fn f
      let now := fn.prEn && s.linkUp
      exec .pageRequestDequeue s = .next { s.updFn f fun fn => { fn with
          reqQueue := l, reqs := fn.reqs ++ [⟨fn.nextTag, g, r, w, 0, now⟩], nextTag := fn.nextTag + 1
          prTail := if now then fn.prTail + 1 else fn.prTail } with
        host := if now then s.host.putBytes (fn.prBase.toNat + 16 * (fn.prTail.toNat % 1024))
          (natBytes 8 (g * 2 ^ 13 + (if r then 2 else 0) + (if w then 4 else 0)) ++ natBytes 8 fn.nextTag.toNat) else s.host
        reqOrder := s.reqOrder.erase f }) ∧
    (s.ev = .num f → (s.fn f).reqQueue = [] → exec .pageRequestDequeue s = .next s) ∧
    (∀ g r w, (s.fn f).reqs.any (·.gran == g) = false → (s.fn f).reqQueue = [] →
      (s.fn f).reqs.length < 4 → (s.fn f).prEn = true → s.linkUp = true →
      let fn := s.fn f
      s.request f g r w = { s.updFn f fun fn => { fn with
          reqs := fn.reqs ++ [⟨(s.fn f).nextTag, g, r, w, 0, true⟩]
          nextTag := (s.fn f).nextTag + 1
          prTail := fn.prTail + 1 } with
        host := s.host.putBytes (fn.prBase.toNat + 16 * (fn.prTail.toNat % 1024))
          (natBytes 8 (g * 2 ^ 13 + (if r then 2 else 0) + (if w then 4 else 0)) ++ natBytes 8 fn.nextTag.toNat) }) ∧
    (∀ tag q, s.ev = .tag f tag → s.requestOf f tag = some q →
      let new := (s.framesOf f q.gran).filter fun x => !(s.fn f).frames.contains x
      (new = [] → exec .pageReplyMapped s = .next (s.reply f q 4)) ∧
      (new ≠ [] → (s.fn f).held + new.length ≤ max (s.fn f).burst (s.fn f).guar →
        ((s.fn f).frames.length + new.length ≤ (s.fn f).guar ∨ new.length ≤ s.freeFrames) →
        exec .pageReplyMapped s = .next ((s.updFn f fun fn => { fn with frames := fn.frames ++ new }).reply f q 4)) ∧
      (new ≠ [] → (max (s.fn f).burst (s.fn f).guar < (s.fn f).held + new.length ∨
          (s.fn f).guar < (s.fn f).frames.length + new.length ∧ s.freeFrames < new.length) →
        exec .pageReplyMapped s = .next (s.reply f q 1)) ∧
      exec .pageReplyRefused s = .next (s.reply f q 1) ∧
      exec .pageRequestTimeout s = .next (if (s.fn f).replyLimit < q.age then s.reply f q 2 else s)) ∧
    (∀ off v, s.ev = .reg f off v → v.getLsbD 0 = true → f ≠ 64 → exec .pageRequestRingEnable s = .next
      ((s.updFn f fun fn => { fn with prBase := v &&& 0xFFFFFFFFFFFFF000, prEn := true }).writeRequests f)) ∧
    ((s.fn f).prEn = true → s.linkUp = true → ∀ q, (s.fn f).reqs = [q] → q.written = false →
      s.writeRequests f = s.writeRequest f q ∧ ((s.writeRequest f q).fn f).reqs = [{ q with written := true, age := 0 }] ∧
      (s.writeRequest f q).host = s.host.putBytes ((s.fn f).prBase.toNat + 16 * ((s.fn f).prTail.toNat % 1024))
        (natBytes 8 (q.gran * 2 ^ 13 + (if q.rd then 2 else 0) + (if q.wr then 4 else 0)) ++ natBytes 8 q.tag.toNat)) ∧
    ((∀ q ∈ (s.fn f).reqs, q.written = true) → s.writeRequests f = s) ∧
    (∀ q sub, (s.cores.filter fun c => c.id.owner = f) = [] → s.fabricIn = [] → s.reply f q sub =
      s.updFn f fun fn => { fn with reqs := fn.reqs.filter (·.tag ≠ q.tag) }) ∧
    ∀ (c : Core) g sub, c.bulks = [] → c.waitBack.2.1 = [] → c.needs.any (·.1 == g) = true → c.answered.any (·.1 == g) = false →
      c.hear g sub = { c with answered := c.answered ++ [(g, sub)] }) ∧
  (∀ s : State,
    (∀ f guar burst, s.ev = .frames f guar burst →
      let t := s.updFn f fun fn => { fn with guar := guar, burst := burst }
      exec .frameCountsSet s = .next
        (if (t.fns.map (·.guar)).sum ≤ 100663296 - Config.firmwareReserve then t else s)) ∧
    (∀ f b n, s.ev = .setting f (.table b n) → exec .frameCountsSet s = .next
      (s.updFn f fun fn => { fn with objBase := b, objCount := n })) ∧
    (∀ f r, s.ev = .setting f (.root r) → exec .frameCountsSet s = .next (s.updFn f fun fn => { fn with ssRoot := r })) ∧
    (∀ f n, s.ev = .setting f (.watchdog n) → exec .frameCountsSet s = .next
      (if 2 ^ 20 ≤ n ∧ n ≤ 2 ^ 32 then s.updFn f fun fn => { fn with wdLimit := n } else s)) ∧
    (∀ f x, s.ev = .num f → (s.fn f).frames.length < (s.fn f).guar → (s.fn f).needsFrame = true → s.freeFrames = 0 →
      s.reclaimed = some x →
      let t : State := { s with reclaims := s.reclaims ++ [(x, BitVec.ofNat 32 x, false)] }
      ((s.pf.prEn && s.linkUp) = false → exec .frameReclaim s = .next t) ∧
      (s.pf.prEn = true → s.linkUp = true → (∀ r ∈ s.reclaims, r.2.2 = true) →
        exec .frameReclaim s = .next (t.writeReclaim x (BitVec.ofNat 32 x)))) ∧
    (∀ x tag, (s.writeReclaim x tag).host = s.host.putBytes (s.pf.prBase.toNat + 16 * (s.pf.prTail.toNat % 1024))
        (natBytes 8 (x * 2 ^ 13) ++ natBytes 8 tag.toNat) ∧
      (s.writeReclaim x tag).pf = { s.pf with prTail := s.pf.prTail + 1 }) ∧
    (∀ f, s.ev = .num f → ((s.fn f).guar ≤ (s.fn f).frames.length ∨ (s.fn f).needsFrame = false ∨ 0 < s.freeFrames) → exec .frameReclaim s = .next s) ∧
    (∀ x, s.reclaimed = some x → x ∈ s.surplus ∧ s.reclaims.any (·.1 == x) = false ∧
      ∀ y ∈ s.surplus, s.reclaims.any (·.1 == y) = false → s.lastUse x ≤ s.lastUse y) ∧
    ∀ f tag x, s.ev = .tag f tag → s.reclaims.find? (fun r => r.2.1 == tag && r.2.2) = some (x, tag, true) →
      exec .reclaimReply s = .next { s with
        fns := s.fns.map fun fn => { fn with frames := fn.frames.filter (· ≠ x) }
        reclaims := s.reclaims.filter (·.2.1 ≠ tag) })

/-- R397, R419 to R424: the scrub of the stacks corrects a codeword with a record, or loses it; a
burst that is delivered after 1 to 4 retries writes a record with the cyc of its first failure; a lane test that finds no single
failing lane, or no spare, loses the burst, and a spare otherwise takes the lane's place; a check of a
protected word corrects a single error with a record and strikes the stripe's owner for a double one,
and clears the word of a stripe that no context holds. -/
def Obligations.StackAndLaneErrors : Prop :=
  ∀ (s : State) (a : Nat) (x : Burst),
    (s.ev = .scrub a .none → exec .hbmScrub s = .next s) ∧
    (∀ bit, s.ev = .scrub a (.single bit) → exec .hbmScrub s = .next { s.arrayRecord 2 bit a with
      flaws := s.flaws.filter fun y => y.1 ≠ a / 32 }) ∧
    (s.ev = .scrub a .double → exec .hbmScrub s = .next ((s.arrayRecord 1 0 a).lose a)) ∧
    (∀ kind bit o, (s.arrayRecord kind bit o).hbm = s.hbm ∧ (s.arrayRecord kind bit o).fns = s.fns ∧
      (s.arrayRecord kind bit o).pfLog.length = s.pfLog.length + 1 ∧
      (s.arrayRecord kind bit o).arrayLog.length = s.arrayLog.length) ∧
    (∀ kind tries lane ago, (s.transferRecord kind tries lane ago x).pfLog.getLast?.map (·.2) = some (s.cyc - BitVec.ofNat 64 ago)) ∧
    (∀ tries lane ok, s.ev = .burst x tries lane ok → burstReal x = false →
      ∀ i ∈ [Instr.transferParityRetry, .laneTest, .laneSwap], exec i s = .next s) ∧
    (∀ tries lane ok, s.ev = .burst x tries lane ok → x.stack < 12 → x.channel < 32 →
      (ok = true → 1 ≤ tries → tries ≤ 4 → exec .transferParityRetry s = .next (s.transferRecord 0 tries 0 (16 * tries) x)) ∧
      (ok = false → exec .transferParityRetry s = .next s) ∧
      (lane = none → exec .laneTest s = .next ((s.transferRecord 2 4 0 1088 x).lose x.addr)) ∧
      (∀ l, lane = some l →
        (s.sparesOf x = 0 → exec .laneTest s = .next ((s.transferRecord 2 4 l.toNat 1088 x).lose x.addr)) ∧
        (s.sparesOf x ≠ 0 → exec .laneTest s = .next s) ∧
        (s.sparesOf x ≠ 0 → ok = true → ∃ t, exec .laneSwap s = .next t ∧ t.sparesOf x = s.sparesOf x - 1 ∧
          t.hbm = s.hbm ∧ t.pfLog.length = s.pfLog.length + 1))) ∧
    ∀ id st o,
      (∀ kind off, s.storeRecord kind id st off = if st = .bank
        then s.record ((s.colOf id).getD (id.num % 256)) (errorRecord kind 15 id.owner 0xFFF ((s.colOf id).getD (id.num % 256)) 15 2 off)
        else s.coreRecord kind id (storeCode st) off) ∧
      (∀ bit, s.ev = .stored id st o (.single bit) → exec .backgroundScrub s = .next
        (s.storeRecord (1 + storeCode st) id st (storeOffset id.num st o / 8))) ∧
      (s.ev = .stored id st o .double → s.allocated id st o = true → exec .backgroundScrub s = .next
        ((s.storeRecord 0x04 id st (storeOffset id.num st o / 8)).strike id.owner 0x01)) ∧
      (s.ev = .stored id st o .double → s.allocated id st o = false → exec .backgroundScrub s = .next
        ((s.storeRecord 0x04 id st (storeOffset id.num st o / 8)).clearWord id st o))

/-! ## The front end -/

/-- R45, R46, R316, R317, R319, R447: what each packet does. LAUNCH waits at the head of its queue until its
region is free and then pushes its root task, which counts as an injection, and as an ejection once it
stands in the deque; LOAD and STORE start a move at a memory core, which
completes with status 0 when its bytes are written, 7 when the host refuses or the link has been
down too long; SIGNAL changes a semaphore modulo 2^64; WAIT completes when its condition holds, which
may be at once; ARM
sets or cancels a timer; BARRIER completes after what is before it. -/
def Obligations.Packets : Prop :=
  ∀ (s : State) (f q : Nat) (sseq : BitVec 16),
    let onQ := fun (t : State) (g : Queue → Queue) => t.updFn f fun fn => { fn with queues := modAt fn.queues q g }
    let takes := fun (t : Taken) => onQ s fun k => { k with taken := k.taken ++ [t] }
    let ends := fun (t : State) (type st : BitVec 4) (detail : BitVec 64) => onQ t fun k => { k with
      taken := k.taken.filter fun t => t.sseq ≠ sseq, comps := k.comps ++ [⟨st, type, sseq, detail⟩] }
    (∀ core handler dom args, s.ev = .launch f q sseq core handler dom args → exec .launch s = .next
      { takes ⟨1, sseq, none, some (core, handler, dom, args)⟩ with agenda := s.agenda ++ [(.launchStart, .fq f q)] }) ∧
    (∀ host obj lm off len, s.ev = .move f q sseq host obj lm off len → ∀ load : Bool,
      let id : CoreId := ⟨f, (s.queue f q).circ, 0x800 + lm.toNat⟩
      let cap : Cap := ⟨(0xFFFFFFFFFFFF : BitVec 48) ++ (0 : BitVec 48) ++ (0x3F : BitVec 8) ++ obj, true⟩
      let beat : Beat := if load then ⟨host.toNat, off.toNat, len.toNat⟩ else ⟨off.toNat, host.toNat, len.toNat⟩
      let b := fun (c : Core) => ({
        id := c.seq, kind := if load then .hostLoad else .hostStore, src := if load then .host else .hbm cap
        dst := if load then .hbm cap else .host, beats := [beat], count := 0, cell := 0, gran := 4, started := true
        record := false, waiting := none, answer := none, desc := 0, vec := [], bad := none
        packet := some (f, q, sseq, 0), held := 0, creg := 0 } : Bulk)
      exec (if load then .load else .store) s = .next ((takes ⟨if load then 2 else 3, sseq, none, none⟩).updCore id
        fun c => { c with seq := c.seq + 1, bulks := c.bulks ++ [b c] })) ∧
    (∀ id i b, s.moveOf f q sseq = some (id, i, b) →
      let type : BitVec 4 := if b.kind = .hostLoad then 2 else 3
      (∀ n, s.ev = .packet f q sseq → b.beats = [] → b.packet = some (f, q, sseq, n) →
        exec .loadStoreComplete s = .next (ends (s.dropBulk id i) type 0 (BitVec.ofNat 64 n))) ∧
      (∀ st d, s.ev = .status f q sseq st d → exec .loadStoreComplete s = .next (ends (s.dropBulk id i) type 7 1)) ∧
      (s.ev = .packet f q sseq → s.linkUp = true → 2 ^ 30 < b.held →
        exec .loadStoreLinkTimeout s = .next (ends (s.dropBulk id i) type 7 2))) ∧
    (∀ k v, s.ev = .sem f q sseq k v →
      exec .signalAdd s = .next (ends (s.updFn f fun fn => { fn with sems := modAt fn.sems k.toNat (· + v) }) 4 0 0) ∧
      exec .signalSet s = .next (ends (s.updFn f fun fn => { fn with sems := modAt fn.sems k.toNat fun _ => v }) 4 0 0)) ∧
    (∀ k e v, s.ev = .wait f q sseq k e v →
      exec .waitPacket s = .next { takes ⟨5, sseq, some (k, e, v), none⟩ with
        agenda := s.agenda ++ [(.waitComplete, .packet f q sseq)] }) ∧
    (∀ t k e v, s.ev = .packet f q sseq → t.wait = some (k, e, v) →
      (s.queue f q).taken.find? (fun t => t.sseq == sseq && t.wait.isSome) = some t →
      let now := (s.fn f).sems.getD k.toNat 0
      exec .waitComplete s = .next
        (if (e = true ∧ now = v) ∨ (e = false ∧ v.toNat ≤ now.toNat) then ends s 5 0 now else s)) ∧
    (∀ k sem time per v, s.ev = .arm f q sseq k sem time per v →
      let sets := fun (t : Timer) => s.updFn f fun fn => { fn with timers := setAt fn.timers k.toNat t }
      exec .armOnce s = .next (ends (sets ⟨true, time, none, sem, v, 0⟩) 6 0 0) ∧
      exec .armPeriodic s = .next (ends (sets ⟨true, time, some per, sem, v, 0⟩) 6 0 0) ∧
      exec .armCancel s = .next (ends (s.updFn f fun fn => { fn with
        timers := modAt fn.timers k.toNat fun t => { t with armed := false, miss := 0 } }) 6 0 0)) ∧
    (s.ev = .packet f q sseq →
      exec .barrier s = .next (takes ⟨7, sseq, none, none⟩) ∧
      (∀ t l, (s.queue f q).taken = t :: l → exec .barrierComplete s = .next
        (if t.type = 7 ∧ t.sseq = sseq then ends s 7 0 0 else s))) ∧
    ∀ t r core handler dom args, s.ev = .fq f q → (s.queue f q).taken.find? (fun t => t.launch.isSome) = some t →
      t.launch = some (core, handler, dom, args) → s.region? f (s.queue f q).circ = some r → s.phase = .run →
      (r.launch = none → r.ending = none → (s.queue f q).killing = false →
        let u := s.updRegion f (s.queue f q).circ fun r =>
          { r with launch := some ⟨q, t.sseq, core.toNat, dom, r.ocyc⟩, dom := dom, wave := none }
        let w := onQ u fun k => { k with taken := k.taken.map fun u => if u = t then ⟨1, t.sseq, none, none⟩ else u }
        let p := w.arrivePush ⟨f, (s.queue f q).circ, core.toNat⟩ (headerEntry (handler.setWidth 64) args) 0
        exec .launchStart s = .next (p.1.updRegion f (s.queue f q).circ fun r =>
          { r with inj := r.inj + 1, ej := if p.2 then r.ej + 1 else r.ej })) ∧
      (r.launch.isSome = true → exec .launchStart s = .next s)

/-- R313, R314, R318 to R324, R329, R433, R439, R441: queues. A notify is ignored unless the queue is
live and its reserved bits are 0; the mapper binds an announced queue to a free slot and takes it
back when the queue has been idle for 4,096 cc; a packet is taken when its header carries the
submit sequence, and otherwise read again up to 64 times, after which the queue is disabled with
status 5; a queue whose packet has arrived is again one of those that are chosen from; completions
are written in order while the ring has room; a kill stops taking, at the end of a pause or rollback
that it lands in; a timer that is due at a tick fires and adds to its semaphore; a read of a window
gives its dword, or the 4 bytes in its middle. That the entry of status 5 has sseq 0, and that a notify
with reserved bits is ignored, are the model's readings (notes/assumptions/47.md, 48.md). -/
def Obligations.Queues : Prop :=
  ∀ (s : State) (f q : Nat),
    let k := s.queue f q
    let onQ := fun (t : State) (g : Queue → Queue) => t.updFn f fun fn => { fn with queues := modAt fn.queues q g }
    (∀ v, s.ev = .notify f q v →
      (k.dw0.getLsbD 0 = true → v.extractLsb' 16 48 = 0 → exec .notify s = .next (onQ s fun k => { k with
        prod := v.setWidth 16, announced := k.announced || (!k.bound && k.head != v.setWidth 16) })) ∧
      ((k.dw0.getLsbD 0 = false ∨ v.extractLsb' 16 48 ≠ 0) → exec .notify s = .next s)) ∧
    (∀ ctr, s.slots.length < 64 →
      let l := s.highest (s.queuesWith fun k => k.announced && k.en && !k.killing)
      weighted (fun f => (s.fn f).share.toNat) s.bindCtr (l.map (·.1)).eraseDups = some (f, ctr) →
      roundRobin l f (s.fn f).lastQueue = some q → exec .mapperBind s = .next
        { onQ (s.updFn f fun fn => { fn with lastQueue := q }) fun k => { k with announced := false, bound := true, idle := 0 } with
          slots := s.slots ++ [(f, q)], bindCtr := ctr }) ∧
    (∀ ctr, s.takeWait = 0 → s.linkUp = true →
      let l := s.highest (s.queuesWith Queue.takeable)
      weighted (fun f => (s.fn f).share.toNat) s.takeCtr (l.map (·.1)).eraseDups = some (f, ctr) →
      roundRobin l f (s.fn f).lastTake = some q →
        let t := { s.updFn f fun fn => { fn with lastTake := q } with takeCtr := ctr, takeWait := 4 }
        exec .packetTake s = .next (if s.arrived k then t.accept f q
          else onQ t fun k => { k with rereads := 1, rereadAt := s.devtime.toNat + 64 })) ∧
    (s.ev = .fq f q →
      let off := fun (k : Queue) => { k with bound := false, idle := 0 }
      let gone := fun (t : State) => { t with slots := s.slots.filter (· ≠ (f, q)) }
      (k.bound = true → s.resting f k = true → 4096 ≤ k.idle → exec .mapperEvict s = .next
        (onQ (gone (onQ s off)) fun k => { k with announced := k.head != k.prod || k.blocked })) ∧
      (k.rereads ≠ 0 → k.rereads < 64 → k.killing = false → s.linkUp = true → k.rereadAt ≤ s.devtime.toNat →
        exec .headerReread s = .next (if s.arrived k then onQ s fun q => { q with rereads := 0 } else onQ s fun q =>
          { q with rereads := k.rereads + 1, rereadAt := s.devtime.toNat + min 65536 (64 * 2 ^ k.rereads) })) ∧
      (k.rereads = 65 → exec .submitTimeout s = .next
        (onQ (gone (onQ s off)) fun k => { k with
          dw0 := k.dw0 &&& 0xFFFFFFFFFFFFFFFE, rereads := 0, announced := false
          comps := k.comps ++ [⟨5, 0, 0, k.sseq.setWidth 64⟩] })) ∧
      (k.dw0.getLsbD 0 = true → exec .queueKill s = .next
        (if s.phase = .run ∧ (s.fn f).rollback = false then onQ (gone (onQ s off)) fun k =>
          { k with killing := true, killAsked := false, announced := false, rereads := 0 }
        else onQ s fun k => { k with killAsked := true })) ∧
      (k.dw0.getLsbD 0 = false → exec .queueKill s = .next s) ∧
      ∀ c cs, k.comps = c :: cs → s.linkUp = true →
        (k.ctail - k.cons ≠ BitVec.ofNat 16 k.csize → exec .completionWrite s = .next
          { onQ s fun k => { k with comps := cs, ctail := k.ctail + 1, csq := k.csq + 1 } with
            host := s.host.putBytes ((k.dw1 &&& 0xFFFFFFFFFFFFF000).toNat + 16 * (k.ctail.toNat % k.csize))
              (natBytes 8 ((0 : BitVec 24) ++ c.status ++ c.type ++ c.sseq ++ k.csq : BitVec 64).toNat ++
                natBytes 8 c.detail.toNat) }) ∧
        (k.ctail - k.cons = BitVec.ofNat 16 k.csize → exec .completionWrite s = .next s)) ∧
    (∃ t, exec .timerTick s = .next t ∧ t.wheelTick = s.devtime.toNat / 250 ∧ t.me = s.me ∧ t.hbm = s.hbm ∧
      (∀ fn ∈ s.fns, (∀ x ∈ fn.timers, x.armed = true → s.devtime.toNat < x.time.toNat) → fn ∈ t.fns) ∧
      ∀ fn ∈ s.fns, ∀ x, (fn.timers.filter fun y => y.armed && decide (y.time.toNat ≤ s.devtime.toNat)) = [x] →
        { fn with
          sems := modAt fn.sems x.sem.toNat (· + x.v)
          timers := fn.timers.map fun y => if y = x then x.fire s.devtime.toNat else y } ∈ t.fns) ∧
    (∀ x : Timer, ∀ now, x.time.toNat ≤ now →
      (x.period = none → x.fire now = { x with armed := false }) ∧
      (∀ p, x.period = some p → p ≠ 0 → now < 2 ^ 63 → p.toNat ≤ 2 ^ 40 → (x.fire now).armed = x.armed ∧
        now < (x.fire now).time.toNat ∧ (x.fire now).time.toNat ≤ now + p.toNat)) ∧
    (∀ off, s.ev = .regRead f off →
      exec .registerWrite s = .next { s with hostOut := s.hostOut ++ [s.registerRead f off] }) ∧
    ((s.fn f).enabled = true → s.recovery = false → f < 64 →
      (q < 32 → s.registerRead f (32 * q) = k.dw0 &&& 0xFFFFFFFFFFFFF0FF) ∧
      (∀ i < 256, s.registerRead f (0x600 + 8 * i) = (s.fn f).sems.getD i 0) ∧
      (∀ i < 64, (s.registerRead f (0x500 + 4 * i)).setWidth 32 = ((s.fn f).timers.getD i Timer.reset).miss) ∧
      (∀ off, 0x400 ≤ off → off < 0x500 → s.registerRead f off = 0)) ∧
    ∀ off v, s.ev = .reg f off v → (s.fn f).enabled = true → s.recovery = false → off % 8 = 0 → f < 64 →
      let dues := fun (i : Instr) (a : EvArg) => exec .registerWrite s = .next { s with agenda := s.agenda ++ [(i, a)] }
      (0x400 ≤ off → off < 0x500 → dues .notify (.notify f ((off - 0x400) / 8) v)) ∧
      (off = 0xE00 → v.extractLsb' 52 12 = 0 → v.extractLsb' 2 11 = 0 → v.setWidth 2 = (0 : BitVec 2) →
        dues .invalidateObject (.granule f (v.extractLsb' 13 39))) ∧
      (off = 0xE50 → v.extractLsb' 1 31 = 0 → v.getLsbD 0 = false → dues .pageReplyMapped (.tag f (v.extractLsb' 32 32))) ∧
      (off = 32 * q → q < 32 → k.dw0.getLsbD 0 = false → k.killing = false →
        exec .registerWrite s = .next (onQ s fun k => { k with dw0 := v })) ∧
      (off = 32 * q → q < 32 → k.dw0.getLsbD 0 = true → v.getLsbD 0 = false → dues .queueKill (.fq f q))

/-- R79, R84, R330, R332, R339, R346, R434, R443: the mint gives an object in place of an invalid entry
its entry and its capability, frees an active one, gives a second object the same bytes, or sets the
checkpoint interval, and answers; an entry in another state keeps it; an invalidation is accepted,
kind 10 from the physical function alone, and when it is done every core of the function has dropped
the target; a host access reads or writes 8 bytes of the window's object once their channel serves it
(R327), a read where it meets no error of an array (R419), or gives zeros with a log entry. The answer of
a refused request is a free value (notes/assumptions/53.md), and that an access beyond the window gives
zeros the model's reading (notes/assumptions/49.md). -/
def Obligations.MintAndWindow : Prop :=
  ∀ (s : State) (f : Nat), (s.fn f).mintBusy = true → s.recovery = false →
    let answers := fun (t : State) (v : BitVec 64) => t.updFn f fun fn => { fn with mintAns := v, mintBusy := false }
    let granted := fun (t : State) (obj : BitVec 15) (len : BitVec 48) (circ : Bool) (lm : Nat) (creg : BitVec 4) =>
      answers (t.updCore ⟨f, if circ then 1 else 0, 0x800 + lm⟩ fun c => c.both fun c =>
        { c.setCap creg ⟨len ++ (0 : BitVec 48) ++ (0x3F : BitVec 8) ++ (s.fabricId ++ obj), true⟩ with latch := true })
        (obj.setWidth 64)
    (∀ r t, s.ev = .create f r → r.window = false →
      s.mintEntry f r.obj.toNat 0 (newEntry r.kind.toNat r.circ r.length.toNat r.root.toNat) = some t →
      exec .mintCreate s = .next
        (granted t r.obj (BitVec.ofNat 48 (objLength (newEntry r.kind.toNat r.circ r.length.toNat r.root.toNat))) r.circ r.lm r.creg)) ∧
    (∀ obj t, s.ev = .fq f obj → s.mintEntry f obj 1 0 = some t →
      exec .mintFree s = .next (answers t (BitVec.ofNat 64 obj))) ∧
    (∀ obj, s.ev = .fq f obj → (s.entryOf f obj).map objState ≠ some 1 →
      ∃ v, exec .mintFree s = .next (answers { s with draws := s.draws + 1 } v)) ∧
    (∀ src obj circ lm creg e t, s.ev = .aliased f src obj circ lm creg → s.entryOf f src.toNat = some e →
      objState e = 1 → s.mintEntry f obj.toNat 0 (newEntry (objKind e) circ (objLength e) (objRoot e)) = some t →
      exec .mintAlias s = .next (granted t obj
        (BitVec.ofNat 48 (objLength (newEntry (objKind e) circ (objLength e) (objRoot e)))) circ lm creg)) ∧
    (∀ k : BitVec 17, s.ev = .interval f k → k.toNat ≤ 65535 → exec .mintCheckpoint s = .next
      (answers (s.updFn f fun fn => { fn with ckptK := k.toNat, ckpt := if k = 0 then none else fn.ckpt }) (k.setWidth 64))) ∧
    (∀ obj st e h, s.entryAt f obj = some h → (s.cores.filter fun c => c.id.owner = f) = [] → s.mintEntry f obj st e =
      if (s.entryOf f obj).map objState = some st then
        some (s.putHbm [(h, natBytes 64 e.toNat)]) else none) ∧
    (∀ (t : State) (ps : List (Nat × List Byte)), (t.putHbm ps).hbm = putParts t.hbm ps) ∧
    (∀ g, s.ev = .granule f g → f < s.fns.length → f ≠ 64 →
      (∀ y ∈ [((.invalidateObject, 0) : Instr × BitVec 2), (.invalidateExtent, 1), (.invalidateAll, 3)],
        (s.fn f).inval = none → exec y.1 s = .next (s.updFn f fun fn => { fn with inval := some (y.2, g) })) ∧
      exec .invalidateSecondStage s = .next s.note) ∧
    (∀ g, s.ev = .granule 64 g → s.pf.inval = none → ∀ y ∈ [((.invalidateObject, 0) : Instr × BitVec 2),
        (.invalidateExtent, 1), (.invalidateSecondStage, 2), (.invalidateAll, 3)],
      exec y.1 s = .next { s with pf := { s.pf with inval := some (y.2, g) } }) ∧
    (∀ k g, s.ev = .num f → f ≠ 64 → (s.fn f).inval = some (k, g) → exec .invalidateDone s = .next
      ((s.forgetAll f k g).updFn f fun fn => { fn with inval := fn.invalNext, invalNext := none })) ∧
    (∀ (c : Core) (g : BitVec 39),
      c.forget 0 g = { c with objCache := c.objCache.filter fun e => e.1 ≠ g.toNat % 2 ^ 25 } ∧
      c.forget 2 g = { c with tlb := c.tlb.filter fun e => !overlap e.1 e.2.1 (g.toNat * 2 ^ 13) (2 ^ 13) } ∧
      c.forget 3 g = { c with objCache := [], tlb := [] }) ∧
    ∀ off v, s.ev = .cxl f off v →
      (2 ^ 36 ≤ off.toNat → (∃ t, exec .cxlMemRead s = .next t ∧ t.hostOut = s.hostOut ++ [0] ∧ t.hbm = s.hbm) ∧
        ∃ t, exec .cxlMemWrite s = .next t ∧ t.hostOut = s.hostOut ∧ t.hbm = s.hbm) ∧
      (∀ o ps m, off.toNat < 2 ^ 36 → (s.fn f).window = some o → s.reach f o.toNat off.toNat 8 true false = (.ok ps, m) →
        (s.serve f ps false = none → exec .cxlMemRead s = .next s) ∧
        ∀ u, s.serve f ps false = some u → (∀ x ∈ s.flaws, ∀ p ∈ ps, p.1 / 32 ≤ x.1 → p.1 + p.2 ≤ 32 * x.1) →
          exec .cxlMemRead s = .next
            { u with hbm := m.hbm, hostOut := s.hostOut ++ [BitVec.ofNat 64 (bytesNat (partBytes m.hbm ps))] }) ∧
      (∀ o ps m, off.toNat < 2 ^ 36 → (s.fn f).window = some o → s.reach f o.toNat off.toNat 8 false true = (.ok ps, m) →
        (s.serve f ps false = none → exec .cxlMemWrite s = .next s) ∧
        ∀ u, s.serve f ps false = some u → exec .cxlMemWrite s = .next
          (({ u with hbm := m.hbm } : State).putHbm (spreadParts ps (natBytes 8 v.toNat)))) ∧
      ((s.fn f).window = none → (∃ t, exec .cxlMemRead s = .next t ∧ t.hostOut = s.hostOut ++ [0] ∧ t.hbm = s.hbm) ∧
        ∃ t, exec .cxlMemWrite s = .next t ∧ t.hostOut = s.hostOut ∧ t.hbm = s.hbm)

/-! ## Links, collectives and firmware -/

/-- R333 to R335, R415, R446 to R449: a retrained host link is narrower or slower; while it is down what
waits for the host waits, past the limit every function is reset and disabled, and when it is up it
flows, and a move waits no longer; a flit of a fabric port is sent again up to 8 times, and after that
the port retrains, and its failed lanes are removed; a port is split into sub-links of a lane for
partitions of privileged owners alone; an access of another module, behind no other of its module, is
walked here, applied to this module's HBM when its channel serves it (a read where it meets no error of
an array, R419), and answered with its bytes, an acknowledgement or its fault; a miss keeps its place; an
access held for 2^28 cc for an unreachable home strikes its owner. -/
def Obligations.LinkEvents : Prop :=
  ∀ s : State,
    (∀ w v, s.ev = .link w v → w ∈ [16, 8, 4] → v ∈ [128, 64, 32] → w ≤ s.linkWidth → v ≤ s.linkSpeed →
      exec .linkRetry s = .next { s with linkWidth := w, linkSpeed := v }) ∧
    exec .linkDown s = .next (if s.linkUp then { s with linkUp := false, linkDownFor := 0 } else s) ∧
    (s.linkUp = true → exec .linkDownTimeout s = .next s) ∧
    (s.linkUp = false → s.linkLimit < s.linkDownFor → ∃ t, exec .linkDownTimeout s = .next t ∧
      ∀ f ∈ t.fns, f.enabled = false) ∧
    (s.linkUp = false → (∀ f, (s.fn f).reqs = []) → (∀ r ∈ s.reclaims, r.2.2 = true) →
      let back := fun (c : Core) => { c with bulks := c.bulks.map fun b =>
        if b.packet.isSome = true ∧ b.held ≤ 2 ^ 30 then { b with held := 0 } else b }
      exec .linkUp s = .next { s with linkUp := true, me := back s.me, others := s.others.map back }) ∧
    (s.recovery = false → s.linkUp = true →
      exec .hostEnumeration s = .next { s with fns := s.fns.map fun f => { f with enabled := true } }) ∧
    (s.recovery = true → exec .hostEnumeration s = .next s) ∧
    (∀ p ok n, s.ev = .flit p ok → s.resends[p]? = some n → ∃ t, exec .fabricFlitRetry s = .next t ∧
      t = { s with resends := t.resends } ∧ t.resends[p]? = some (if 8 ≤ n then n else if ok then 0 else n + 1)) ∧
    (∀ p bad n, s.ev = .lanes p bad → s.resends[p]? = some n → n < 8 → exec .fabricRetrain s = .next s) ∧
    (∀ p bad n, s.ev = .lanes p bad → s.resends[p]? = some n → 8 ≤ n → ∃ t, exec .fabricRetrain s = .next t ∧
      t = { s with ports := t.ports, resends := t.resends } ∧ t.resends[p]? = some 0 ∧
      ∀ (l : List Lane) (x : Lane) (i : Nat), s.ports[p]? = some l → l[i]? = some x → i < 4 →
        (t.ports[p]?).bind (·[i]?) = some (⟨x.up && !bad.testBit i, x.part⟩ : Lane)) ∧
    (∀ p parts, s.ev = .split p parts →
      (parts.length = 4 → (∀ o, some o ∈ parts → (s.fn o).privileged = true) →
        ∃ t, exec .fabricRetrain s = .next t ∧ t = { s with ports := t.ports } ∧
        ∀ (l : List Lane) (x : Lane) (i : Nat) y, s.ports[p]? = some l → l[i]? = some x → parts[i]? = some y →
          (t.ports[p]?).bind (·[i]?) = some (⟨x.up, y⟩ : Lane)) ∧
      (∀ o, some o ∈ parts → (s.fn o).privileged = false → exec .fabricRetrain s = .next s)) ∧
    (∀ i, s.ev = .num i → exec .fabricRequestArrive s = .next (s.fabricStep i)) ∧
    (∀ x, s.ev = .fabric x → exec .fabricRequestArrive s = .next
      ({ s with fabricIn := s.fabricIn ++ [{ x with asked := [], answered := [] }] }.fabricStep s.fabricIn.length)) ∧
    (∀ i (x : FabricReq), s.fabricIn[i]? = some x →
      let fn := s.fn x.fn
      let sound := fun (ps : List (Nat × Nat)) => ∀ x ∈ s.flaws, ∀ p ∈ ps, p.1 / 32 ≤ x.1 → p.1 + p.2 ≤ 32 * x.1
      let blocked := (s.fabricIn.take i).any fun y => y.src == x.src
      let answers := fun (t : State) (v : FabricVal) =>
        { t with fabricIn := dropAt s.fabricIn i, fabricOut := s.fabricOut ++ [(x.src, v)] }
      (blocked = true → s.fabricStep i = s) ∧
      (blocked = false → ∀ l m, (⟨s.hbm, [], []⟩ : Mmu).access
          ⟨fn.objBase, fn.objCount, fn.ssRoot, x.circ % 2, refusals x.answered⟩ x.obj.toNat x.off x.bytes
          x.rights.1 x.rights.2 = (l, m) →
        (∀ ps t v, settle x.answered l = .ok ps → x.op = .write v → s.serve x.fn ps false = some t → s.fabricStep i =
          answers (({ t with hbm := m.hbm } : State).putHbm (spreadParts ps ((List.range x.size).map fun i => v.getD i 0))) .ack) ∧
        (∀ ps t, settle x.answered l = .ok ps → x.op = .read → sound ps → s.serve x.fn ps false = some t → s.fabricStep i =
          answers { t with hbm := m.hbm } (.data (partBytes m.hbm ps))) ∧
        (∀ a n ps t op b e, settle x.answered l = .ok ((a, n) :: ps) → x.op = .atomic op b e →
          sound ((a, n) :: ps) → s.serve x.fn ((a, n) :: ps) true = some t → s.fabricStep i =
            answers (({ t with hbm := m.hbm } : State).putHbm [(a, (atomOn m.hbm op a b e).2)])
              (.data (natBytes (atomSize op) (atomOn m.hbm op a b e).1.toNat))) ∧
        (∀ c u v, settle x.answered l = .fault c u v → s.fabricStep i = answers s (.fault c u v)) ∧
        (∀ g r w, settle x.answered l = .misses [(g, r, w)] → s.fabricStep i =
          { s.request x.fn g r w with fabricIn := modAt s.fabricIn i fun y => { y with asked := [g] } }))) ∧
    (∀ id c, s.ev = .core id → s.core? id = some c → exec .remoteHomeTimeout s = .next
      (if 2 ^ 28 ≤ (c.homeHeld.map (·.2)).getD 0 then s.updFn id.owner fun fn => { fn with struck := some (fn.struck.getD 0x06) } else s)) ∧
    (∀ id c i b, s.ev = .coreIdx id i → s.core? id = some c → c.bulks[i]? = some b → exec .remoteHomeTimeout s = .next
      (if b.packet = none ∧ 2 ^ 28 ≤ b.held then s.updFn id.owner fun fn => { fn with struck := some (fn.struck.getD 0x06) } else s)) ∧
    (∀ k q, s.ev = .num k → s.homeOut[k]? = some q → exec .remoteHomeTimeout s = .next
      (if 2 ^ 28 ≤ q.held then s.updFn q.src.owner fun fn => { fn with struck := some (fn.struck.getD 0x06) } else s))

/-- R336, R337, R450: an idle hart takes a command that is kicked, not done and no other hart's, and
starts it once every peer has reported; it writes the members' contributions combined in group order,
256 bytes after 256, when the channels serve it, and halts there while a peer is switched out; after the
last it writes the result word and the done word; a struck member or a lost path abandons the command,
also one that waits, with result 2 or 3, and a wait past the owner's limit with result 1. What reads of
its object meet no error of an array is said here (R419). -/
def Obligations.Collectives : Prop :=
  ∀ (s : State) (h f : Nat) (obj : BitVec 15) (peers : List (List Byte)) (result : BitVec 8) (k : Hart),
    s.ev = .hart h f obj peers result → s.harts[h]? = some k →
    let sets := fun (t : State) (k : Hart) => { t with harts := setAt t.harts h k }
    let ends := fun (t : State) (r : BitVec 8) => t.endCollective h k r
    (∀ c, k.busy = false → k.waits = false → (∀ j ∈ s.harts, j.serves f obj = false) → s.collective f obj.toNat = some c →
      let met := result == 0 && s.ownerRuns f
      (c.kick = c.seq → c.done ≠ c.seq →
        exec .collectiveStart s = .next (sets s ⟨f, obj, c.seq, !met, met, 0, 0, false⟩)) ∧
      ((c.kick ≠ c.seq ∨ c.done = c.seq) → exec .collectiveStart s = .next s)) ∧
    (∀ j ∈ s.harts, j.serves f obj = true → k.busy = false → k.waits = false → exec .collectiveStart s = .next s) ∧
    ((k.waits = true ∨ k.busy = true) → k.fn = f → k.obj = obj → result = 0 → s.ownerRuns f = true →
      exec .collectiveStart s = .next (sets s { k with waits := false, busy := true, halted := false })) ∧
    (k.busy = true → result = 4 → exec .collectiveDone s = .next (sets s { k with halted := true })) ∧
    (k.busy = true → result = 0 → (k.halted = true ∨ s.ownerRuns k.fn = false) → exec .collectiveDone s = .next s) ∧
    (∀ c own, k.busy = true → k.halted = false → result = 0 → s.ownerRuns k.fn = true →
      s.collective k.fn k.obj.toNat = some c → s.readObj k.fn k.obj.toNat c.src c.given = some own →
      let i := c.group.idxOf s.fabricId
      let all := peers.take i ++ [own] ++ (peers.drop i).take (c.p - 1 - i)
      let rd := match c.ownAt i k.pos with | some o => s.hartParts k o true false | none => []
      let asks := s.hartParts k (c.dst + k.pos) false true ++ rd
      (s.serve k.fn asks false = none → exec .collectiveDone s = .next s) ∧
      ∀ u, s.serve k.fn asks false = some u → (∀ x ∈ s.flaws, ∀ p ∈ rd, p.1 / 32 ≤ x.1 → p.1 + p.2 ≤ 32 * x.1) →
      let t := (u.writeObj k.fn k.obj.toNat (c.dst + k.pos) (((c.result i all).drop k.pos).take 256)).getD u
      (k.pos + 256 < c.taken → exec .collectiveDone s = .next (sets t { k with pos := k.pos + 256 })) ∧
      (c.taken ≤ k.pos + 256 → exec .collectiveDone s = .next (t.endCollective h { k with pos := k.pos + 256 } 0))) ∧
    (k.busy = true ∨ k.waits = true → result = 2 ∨ result = 3 → exec .collectiveDone s = .next (s.abandon h k result)) ∧
    exec .collectiveTimeout s = .next
      (if k.waits = true ∧ (s.fn k.fn).rdvLimit < k.waited then s.abandon h k 1 else s) ∧
    (∀ t r u w, t.writeObj k.fn k.obj.toNat 0x50 (natBytes 8 r.toNat) = some u →
      u.writeObj k.fn k.obj.toNat 0x48 (natBytes 4 k.seq.toNat) = some w → ends t r = sets w Hart.idle) ∧
    ∀ (c : Collective) (i : Nat) (l : List (List Byte)),
      (c.op = 1 → c.result i l = l.flatten) ∧ (3 ≤ c.op → c.result i l = l.headD []) ∧
      (c.op = 0 → c.result i l = reduceBytes c.type c.len l) ∧
      (c.op = 2 → c.result i l = reduceBytes c.type c.len (l.map fun b => (b.drop (i * c.len)).take c.len))

/-- R312, R338 to R341, R439, R451 to R453: the scheduler calls a plug-in on a firmware core that runs
none; one whose accesses its core's regions permit returns a share and a slice within the monitor's
limits; one that breaches them, or does not return within 2^16 cc, is stopped and the default policy
used; the monitor writes the regions; an image accepted under the fuses or the operator's keys is loaded and measured;
a device reset gives the machine after reset with what the boot has chosen, keeps the LMS counter and
the fuses, and in recovery presents no function; an attestation advances the counter before a report
of the measurements, the configuration, the period, the identity and the nonce, and answers with an error
when no index is left; a function-level reset kills the function's 32 queues.

The model's choices here: functions answer after reset (notes/assumptions/19.md), the default slice and
what the limits of a plug-in are after reset (74.md), and that a boot names what its firmware cores run
(69.md). -/
def Obligations.FirmwareEvents : Prop :=
  ∀ s : State,
    (∀ f core, s.ev = .call f core →
      ((s.fn f).plugin.loaded = true → (s.fn f).plugin.stopped = false → (s.fn f).plugin.called = none →
        (∀ g ∈ s.fns, g.plugin.called.map (·.1) ≠ some core) → exec .pluginCall s = .next
          (s.updFn f fun fn => { fn with plugin := { fn.plugin with called := some (core, 0) } })) ∧
      (((s.fn f).plugin.loaded = false ∨ (s.fn f).plugin.stopped = true) → exec .pluginCall s = .next
        (s.updFn f fun fn => { fn with share := 16, plugin := { fn.plugin with slice := 0 } }))) ∧
    (∀ core k v, s.ev = .protect core k v → core < 4 → k < 16 → exec .pluginCall s = .next
      { s with regionRegs := setAt s.regionRegs (16 * core + k) (v &&& 0xFFFFFFFFFFFFF07F) }) ∧
    (∀ f core n share slice accs, s.ev = .plugin f core share slice accs → (s.fn f).plugin.called = some (core, n) →
      n ≤ 2 ^ 16 → (s.fn f).plugin.breach = false →
      let within := fun {n : Nat} (l : BitVec n × BitVec n) (v : BitVec n) =>
        if v.toNat < l.1.toNat then l.1 else if l.2.toNat < v.toNat then l.2 else v
      ((∀ x ∈ accs, s.permitted core x.1 x.2.1 x.2.2 = true) → exec .pluginCall s = .next
        (s.updFn f fun fn => { fn with
          share := within fn.plugin.shares share
          plugin := { fn.plugin with slice := within fn.plugin.slices slice, called := none } })) ∧
      (∀ x ∈ accs, s.permitted core x.1 x.2.1 x.2.2 = false → exec .pluginCall s = .next
        { s.updFn f fun fn => { fn with plugin := { fn.plugin with breach := true } } with
          agenda := s.agenda ++ [(.pluginFault, .num f)] })) ∧
    (∀ f, s.ev = .num f →
      let late := ∃ core n, (s.fn f).plugin.called = some (core, n) ∧ 2 ^ 16 < n
      ((s.fn f).plugin.loaded = true → (s.fn f).plugin.stopped = false → (s.fn f).plugin.breach = true ∨ late →
        ∃ t, exec .pluginFault s = .next t ∧ t.me = s.me ∧ t.pfLog.length = s.pfLog.length + 1 ∧
          t.fns = modAt s.fns f (fun fn => { fn with
            share := 16, plugin := { fn.plugin with stopped := true, slice := 0, called := none, breach := false } })) ∧
      ((s.fn f).plugin.breach = false → ¬late → exec .pluginFault s = .next s) ∧
      (f < s.fns.length → (s.fn f).queues.length = 32 → s.phase = .run → (s.fn f).rollback = false →
        ∃ t, exec .functionLevelReset s = .next t ∧ (t.fn f).flr = true ∧ t.me = s.me ∧ t.others = s.others ∧
          (∀ g, g ≠ f → t.fn g = s.fn g) ∧ ∀ q < 32, t.queue f q = { s.queue f q with
            bound := false, idle := 0, killing := true, killAsked := false, announced := false, rereads := 0 })) ∧
    (∀ f i core regs, s.ev = .image f i core regs →
      let keys := i.ecdsaKey = s.fuses.1 ∧ i.lmsKey = s.fuses.2 ∨ s.operatorKey = some (i.ecdsaKey, i.lmsKey)
      (∀ d, i.ecdsaOk = true → i.lmsOk = true → keys → i.digest = some d → exec .pluginLoad s = .next
        { s.updFn f fun fn => { fn with plugin := { fn.plugin with
            loaded := true, stopped := false, called := none, breach := false } } with
          measures := s.measures ++ [d]
          regionRegs := s.regionRegs.take (16 * core) ++
            ((List.range 16).map fun k => regs.getD k 0 &&& 0xFFFFFFFFFFFFF07F) ++ s.regionRegs.drop (16 * core + 16) }) ∧
      ((i.ecdsaOk = false ∨ i.lmsOk = false ∨ ¬keys ∨ i.digest = none) → exec .pluginLoad s = .next
        (s.updFn f fun fn => { fn with share := 16, plugin := { fn.plugin with
          loaded := false, slice := 0, called := none, breach := false } }))) ∧
    (∀ b, s.ev = .boot b → b.fabricId.toNat < 432 → ∃ t, exec .deviceReset s = .next t ∧ t.lms = s.lms ∧ t.host = s.host ∧
      t.config = b.config ∧ t.fuses = s.fuses ∧ t.identity = s.identity ∧ t.fabricId = b.fabricId ∧
      2 ^ 24 ≤ t.period ∧ t.period ≤ 2 ^ 32 ∧ t.me = State.reset.me ∧ t.regions = [] ∧
      (b.starts = [] → t.others = State.reset.others) ∧
      (∀ k m pc bs, b.starts = [(k, m, pc, bs)] → k < 4 → t.recovery = false → ∃ c ∈ t.others,
        c.id = (Core.firmware k).id ∧ c.stopped = false ∧ c.pc = pc ∧ c.csr.level = if m then 2 else 1) ∧
      t.hbm = [] ∧ t.cyc = 0 ∧ (t.recovery = true ↔
        ¬(Image.accepted b.monitor s.fuses = true ∧ Image.accepted b.scheduler s.fuses = true)) ∧
      (t.recovery = true → ∀ f ∈ t.fns, f.enabled = false) ∧ (t.recovery = false → ∀ f ∈ t.fns, f.enabled = true) ∧
      ∀ p ∈ t.purses, p.pennies = 2 ^ 20 ∧ p.rate ≤ 16) ∧
    (∀ b, s.ev = .boot b → 432 ≤ b.fabricId.toNat →
      (Image.accepted b.monitor s.fuses = true → Image.accepted b.scheduler s.fuses = true → exec .deviceReset s = .next s)) ∧
    (∀ n counted, s.ev = .nonce n counted →
      (s.lms < 2 ^ 20 → exec .attestationRequest s = .next { s with
        lms := s.lms + 1
        reports := if counted then s.reports ++ [some ⟨s.measures, s.config, s.period, s.identity, n, s.lms⟩] else s.reports }) ∧
      (2 ^ 20 ≤ s.lms → exec .attestationRequest s = .next { s with reports := s.reports ++ [none] })) ∧
    ∀ k l, s.ev = .key k l → exec .operatorKeyEnrol s = .next { s with operatorKey := some (k, l) }


/-! ## Two rules stated whole -/

/-- R102: an integer narrowed to a type of fewer bits takes the target's nearest value when it
saturates, so that a negative one becomes 0 in a natural type, and otherwise keeps its low bits;
no flag is raised. -/
def Obligations.IntegerNarrowing : Prop :=
  ∀ (q : Rnd) (t u : EType) (x : Nat), fmtOf t = none → fmtOf u = none → widthOf t < widthOf u → x < 2 ^ widthOf u →
    let w := widthOf t
    let v : Int := if isSigned u = true ∧ 2 ^ (widthOf u - 1) ≤ x then (x : Int) - 2 ^ widthOf u else x
    let lo : Int := if isSigned t = true then -2 ^ (w - 1) else 0
    let hi : Int := if isSigned t = true then 2 ^ (w - 1) - 1 else 2 ^ w - 1
    (∃ y < 2 ^ w, convertElem q true t u x = (y, 0) ∧
      (if isSigned t = true ∧ 2 ^ (w - 1) ≤ y then (y : Int) - 2 ^ w else y) =
        (if v < lo then lo else if hi < v then hi else v)) ∧
    convertElem q false t u x = (x % 2 ^ w, 0)

/-- R391: a message or signal for a control block whose count is 0 changes nothing of the block and
pushes nothing; the first underflow makes class 0x24 pending, later ones are dropped while it is;
and the core takes it at its next boundary at level 0. -/
def Obligations.CountUnderflow : Prop :=
  (∀ (s : State) (k num : Nat) (m : Msg) (c : Core), s.arrives k m →
    m.dst = .core num → s.core? { m.src with num := num } = some c →
    let drops := fun (off : Nat) => Host.Outcome.next (φ := Fault) (ρ := Refusal)
      ((((s.less k).updCore c.id fun d =>
        (d.deferOnce (.underflow (BitVec.ofNat 19 off) (BitVec.ofNat 12 m.src.num))).both fun d =>
          { d with latch := true }).acknowledge m).counted m)
    (∀ h args, m.op = .message h args → h.getLsbD 15 = true →
      let off := 64 * (h.extractLsb' 16 13).toNat
      c.scr.nat (off + 2) 2 = 0 → exec .messageApply s = drops off) ∧
    (∀ r v, m.op = .signal r v →
      let off := 64 * (r.extractLsb' 19 13).toNat
      c.scr.nat (off + 2) 2 = 0 → exec .signalApply s = drops off)) ∧
  (∀ (c : Core) (off o : BitVec 19) (src n : BitVec 12),
    ((∀ x ∈ c.deferred, ∀ o n, x ≠ .underflow o n) →
      c.deferOnce (.underflow off src) = { c with deferred := c.deferred ++ [.underflow off src] }) ∧
    (.underflow o n ∈ c.deferred → c.deferOnce (.underflow off src) = c)) ∧
  ∀ (s : State) (off : BitVec 19) (src : BitVec 12), s.agenda = [] → s.hwErrors = [] → s.me.done = false →
    s.mayIssue s.me = true → s.me.running ≠ none → s.me.bubble = 0 → s.me.ahead = none → s.me.onLatch = false →
    s.me.onTask = false →
    s.me.owesRemote = false → s.me.trapDue = none → s.me.pend = [] → s.me.csr.level = 0 → s.me.deferred = [.underflow off src] →
    ∃ t, step s = .next t ∧ t.me.csr.level = 1 ∧ t.me.pc = s.me.csr.evec.toNat * 4096 + 64 * 0x24 ∧
      t.me.csr.ecause = 0x24 ∧ t.me.csr.epc = BitVec.ofNat 17 (s.me.pc / 4) ∧
      t.me.csr.einfo = (0 : BitVec 16) ++ src ++ (0 : BitVec 1) ++ off ++ (0 : BitVec 16) ∧ t.me.deferred = []
/-! ## Decoding, reset and the step -/

/-- R137 to R150: words written out from the encodings decode to the instructions they stand for. -/
def Obligations.DecodeWords : Prop :=
  ∀ x ∈ [(0x80586200, Instr.add 11 3 4), (0xFAA02584, .hld 20 1 11 .acq),
      (0x82000008, .tret), (0xF6000010, .tend)],
    decodeTableWord 32 x.1 = some x.2

/-- R137 to R150: the word of every well-formed instruction decodes to it, with every operand, on every
kind of core that has the word, and that kind includes the one the instruction is for. -/
def Obligations.RoundTrip : Prop :=
  ∀ (i : Instr) (w : IWord), i.wf = true → encode i = some w →
    wrongKind i.memOnly w = false ∧ (∀ mem, wrongKind mem w = false → decode mem w = .ok i) ∧
    decodeTableWord 32 w.toNat = some i

/-- R133, R134, R136, R363: a step of a core whose packet is one word runs the instruction that the word
decodes to, with the word's offset and the offset after it at hand; if the word neither waits nor
traps, the step is what exec answers, with the pc after the word unless the word has set it, and
the core is done in this cc; a word that raises leaves the core at the handler, to issue there in
the same cc; one that waits for an operand or a condition leaves everything as it was but the words
fetched, what a wait keeps (R181, R263, R449), that a task word waits (R225), and that what replays at a
resume goes on replaying when the word waits for nothing else (log entry 55). -/
def Obligations.StepRunsDecoded : Prop :=
  ∀ (s : State) (w : IWord) (i : Instr), s.agenda = [] → s.hwErrors = [] → s.me.done = false → s.me.onLatch = false →
    s.me.onTask = false → s.mayIssue s.me = true → s.me.running.isSome = true → s.me.bubble = 0 → s.me.ahead = none → s.me.deferred = [] →
    s.me.trapDue = none → s.me.needs = [] → s.me.atBarrier = none → s.me.csr.ocmp.getLsbD 63 = false → s.me.blk = false →
    s.wordAt s.me.pc = w → eBit w = true → s.me.pc + 4 ≤ s.me.fetchEnd → slotOf w ≠ .h →
    decode s.me.isMem w = .ok i → (∀ p l g r, i ≠ .hwimm p ∧ i ≠ .hblk l ∧ i ≠ .hgran g ∧ i ≠ .hrm r) →
    let held := fun (b : Bool) => s.onMe fun c => { c.keep c.pc [w] with
      issue := { Issue.idle with fst := s.me.pc, nxt := s.me.pc + 4, commit := b } }
    let bare := fun (c : Core) => { c with pend := [], vbusy := 0 }
    let stuck := fun (v : State) => decide (v.me.issue.status = .operand) || decide (v.me.issue.status = .waiting)
    ∀ t, exec i (held false) = .next t →
      (t.me.issue.status = .ready → ∀ u, exec i (held true) = .next u → u.me.issue.status = .ready → u.me.ahead = none →
        u.me.sb.length ≤ 32 → (u.me.outs.filter fun o => o.kind = .load ∨ o.kind = .atomic).length ≤ 16 →
        step s = .next (u.onMe fun c =>
          let d := if c.issue.taken then c else Core.advance { c with blk := false }
          { d with issue := Issue.idle, done := true, waited := 0, homeHeld := none, homeAns := none, homeMissed := false,
                   rearmed := false, answered := [] })) ∧
      (t.me.issue.status = .trapped → step s = .next (t.onMe fun c => { c with issue := Issue.idle })) ∧
      (t.me.issue.status = .operand → ∀ v, exec i ((held false).onMe bare) = .next v → step s = .next (s.onMe fun c =>
        { c.keep c.pc [w] with
          issue := Issue.idle, done := true, onTask := taskWord i, rearmed := c.rearmed && stuck v })) ∧
      (t.me.issue.status = .waiting → t.me.issue.keep = false →
        let waits := fun (c : Core) => { c with atBarrier := t.me.atBarrier, onLatch := t.me.onLatch, homeHeld := t.me.homeHeld }
        ∀ v, exec i ((held false).onMe fun c => bare (waits c)) = .next v → step s = .next (s.onMe fun c =>
          { waits (c.keep c.pc [w]) with
            issue := Issue.idle, done := true, onTask := taskWord i, rearmed := c.rearmed && stuck v }))

/-- R26, R30, R172, R173, R326, R369: the values that the spec gives for reset, and those of a core whose
context first becomes resident; the bounds that the monitor keeps hold. -/
def Obligations.ResetState : Prop :=
  State.reset.cyc = 0 ∧ State.reset.devtime = 0 ∧ State.reset.period = 2 ^ 28 ∧ State.reset.phase = .run ∧
  State.reset.stamp = 0 ∧ State.reset.regions = [] ∧ State.reset.net = [] ∧ State.reset.agenda = [] ∧
  (∀ p ∈ State.reset.purses, p.pennies = 2 ^ 20) ∧ State.reset.bounded ∧
  ∀ id : CoreId, ∀ c, c = Core.fresh id →
    c.vmem = [] ∧ c.scr = [] ∧ c.fe = [] ∧ c.csr.level = 0 ∧ c.csr.bankext = 32 ∧ c.csr.vshape = 0x3FF ∧
    c.csr.frm = 0x80 ∧ c.csr.mgamma = 0x3F800000 ∧ c.csr.lpcnt = 0 ∧ c.csr.gmask = 0 ∧ c.running = none ∧
    c.csr.evec = (if 0x800 ≤ id.num then 0x2A else 0x6A)

/-- R363 to R370: no state stops: whatever a word, an event or the environment does, the machine goes
on, by an effect, an entry, a wait or a completion with a status. -/
def Obligations.StepGoesOn : Prop := ∀ s : State, s.goesOn

/-- R14, R30, R326, R341, R453: every step keeps the bounds that the monitor keeps, and none lowers
the counter of one-time signatures. -/
def Obligations.StepKeepsBounds : Prop :=
  ∀ s t : State, s.bounded → step s = .next t → t.bounded ∧ s.lms ≤ t.lms
end

