-- ==== Sys2Proof/Laws/Ops.lean ====
section
/-! SUPPORT. What the shared frames of words can do, once for each: under the conditions of
Safety a word has its effect, its first failing check is raised, or it waits. -/

namespace Sys2Proof.Machine

open Sys2Proof

set_option Elab.async false

theorem Core.clean_of_none {c : Core} (h : c.ahead = none) (dst : List Res) : c.clean dst = c := by
  simp only [Core.clean, h, Option.map_none]
  rw [← h]

theorem Core.ready.awaits {c : Core} {src dst : List Res} (h : c.ready src dst) :
    (src.any c.awaits || dst.any c.awaits) = false := by
  obtain ⟨-, h, -⟩ := h
  simp only [List.mem_append] at h
  rw [Bool.or_eq_false_iff, List.any_eq_false, List.any_eq_false]
  exact ⟨fun r hr => by simp [h r (.inl hr)], fun r hr => by simp [h r (.inr hr)]⟩

/-- An entry joins the store buffer, taking the core's next number. -/
theorem Core.buffer_eq {c : Core} (h : c.ahead = none) (k : SbKind) (r : Bool) :
    c.buffer k r = { c with sb := c.sb ++ [⟨k, r, c.seq, true, c.rowsOwed⟩], seq := c.seq + 1 } := by
  unfold Core.buffer; rw [h]; rfl

theorem Core.buffer_ahead {c : Core} (h : c.ahead = none) (k : SbKind) (r : Bool) : (c.buffer k r).ahead = none := by
  rw [Core.buffer_eq h]; exact h

/-- A word that waits for nothing has its effect. -/
theorem actNow_next {src dst : List Res} {chk : Option Exc} {wait : Bool} {eff s : State}
    (h : s.me.ready src dst) (hc : chk = none) (hw : wait = false) (he : eff.me.ahead = none) :
    actNow src dst chk wait eff s = .next eff := by
  subst hc hw
  simp only [actNow, h.awaits, h.2.2.1, Core.unresolved, h.1, State.onMe, Core.clean_of_none he, Bool.or_self,
    Bool.and_false, Bool.false_eq_true, ite_false]

/-- A word that must wait leaves its packet unissued, whatever else the packet holds. -/
theorem actNow_wait {src dst : List Res} {chk : Option Exc} {wait : Bool} {eff s : State}
    (h : s.me.ready src dst) (hc : chk = none) (hw : wait = true) :
    actNow src dst chk wait eff s = .next (s.stall .waiting) := by
  subst hc hw
  simp only [actNow, h.awaits, h.2.2.1, Core.unresolved, h.1, Bool.or_self, Bool.and_false, Bool.false_eq_true,
    ite_false, ite_true]

/-- A word that fails a check raises it. -/
theorem actNow_raise {src dst : List Res} {e : Exc} {chk : Option Exc} {wait : Bool} {eff s : State}
    (h : s.me.ready src dst) (hc : chk = some e) : actNow src dst chk wait eff s = .next (s.raise e) := by
  subst hc
  simp only [actNow, h.awaits, h.2.2.1, Core.unresolved, h.1, Bool.or_self, Bool.and_false, Bool.false_eq_true,
    ite_false]

/-- A word that is ready, fails no check and need not wait has its effect. -/
theorem act_next {src dst : List Res} {chk : Option Exc} {wait : Bool} {eff s : State}
    (h : s.me.ready src dst) (hc : chk = none) (hw : wait = false) (he : eff.me.ahead = none) :
    act src dst chk wait eff s = .next eff := by
  exact actNow_next h hc (by rw [hw, h.2.2.2, Bool.or_self, Bool.and_false]) he

/-- A word that is ready and fails a check raises it. -/
theorem act_raise {src dst : List Res} {e : Exc} {chk : Option Exc} {wait : Bool} {eff s : State}
    (h : s.me.ready src dst) (hc : chk = some e) :
    act src dst chk wait eff s = .next (s.raise e) := actNow_raise h hc

/-- A word that is ready, fails no check and must wait leaves its packet unissued. -/
theorem act_wait {src dst : List Res} {chk : Option Exc} {wait : Bool} {eff s : State}
    (h : s.me.ready src dst) (hk : s.me.issue.commit = false) (hc : chk = none) (hw : wait = true) :
    act src dst chk wait eff s = .next (s.stall .waiting) := by
  exact actNow_wait h hc (by rw [hk, hw]; rfl)

/-- Outside run-ahead a word whose effect leaves the core is as any word. -/
theorem actOut_eq {src dst : List Res} {chk : Option Exc} {wait : Bool} {eff s : State}
    (h : s.me.ahead = none) : actOut src dst chk wait eff s = act src dst chk wait eff s := by
  simp [actOut, h]

theorem actOut_next {src dst : List Res} {chk : Option Exc} {wait : Bool} {eff s : State}
    (h : s.me.ready src dst) (hc : chk = none) (hw : wait = false) (he : eff.me.ahead = none) :
    actOut src dst chk wait eff s = .next eff := (actOut_eq h.1).trans (act_next h hc hw he)

theorem actOut_raise {src dst : List Res} {e : Exc} {chk : Option Exc} {wait : Bool} {eff s : State}
    (h : s.me.ready src dst) (hc : chk = some e) :
    actOut src dst chk wait eff s = .next (s.raise e) := (actOut_eq h.1).trans (act_raise h hc)

theorem actShared_next {src dst : List Res} {chk : Option Exc} {wait : Bool} {eff dry s : State}
    (h : s.me.ready src dst) (hc : chk = none) (hw : wait = false) (he : eff.me.ahead = none) :
    actShared src dst chk wait eff dry s = .next eff := by
  simp only [actShared, h.1, Option.isSome_none, Bool.false_eq_true, ite_false]
  exact act_next h hc hw he

theorem actShared_wait {src dst : List Res} {chk : Option Exc} {wait : Bool} {eff dry s : State}
    (h : s.me.ready src dst) (hk : s.me.issue.commit = false) (hc : chk = none) (hw : wait = true) :
    actShared src dst chk wait eff dry s = .next (s.stall .waiting) := by
  simp only [actShared, h.1, Option.isSome_none, Bool.false_eq_true, ite_false]
  exact act_wait h hk hc hw

theorem actShared_raise {src dst : List Res} {e : Exc} {chk : Option Exc} {wait : Bool} {eff dry s : State}
    (h : s.me.ready src dst) (hc : chk = some e) :
    actShared src dst chk wait eff dry s = .next (s.raise e) := by
  simp only [actShared, h.1, Option.isSome_none, Bool.false_eq_true, ite_false]
  exact act_raise h hc

theorem actBranch_next {src dst : List Res} {chk : Option Exc} {eff s : State}
    (h : s.me.ready src dst) (hc : chk = none) (he : eff.me.ahead = none) :
    actBranch src dst chk eff s = .next eff := by
  simp only [actBranch, Core.unresolved, h.1, Bool.false_eq_true, ite_false]
  exact act_next h hc rfl he

theorem actBranch_raise {src dst : List Res} {e : Exc} {chk : Option Exc} {eff s : State}
    (h : s.me.ready src dst) (hc : chk = some e) :
    actBranch src dst chk eff s = .next (s.raise e) := by
  simp only [actBranch, Core.unresolved, h.1, Bool.false_eq_true, ite_false]
  exact act_raise h hc

/-! ## The frame of an HBM word (R277, R364) -/

theorem actHbm_go {src val dst : List Res} {k : State → Res?} {s : State} (h : s.me.ready (src ++ val) dst) :
    actHbm src val dst k s = k s := by
  have ha : (src ++ val ++ dst).any s.me.awaits = false := by
    rw [List.any_append, h.awaits]
  simp only [actHbm, ha, Bool.and_false, Core.unresolved, h.1, Bool.false_eq_true, ite_false]

/-- An HBM word whose checks pass, whose capability is of this module, and whose walks
translate has its effect. -/
theorem hbmWord_next {n : BitVec 4} {src val dst : List Res} {chk : Option Exc} {tx : Tx} {wait out : Bool}
    {part eff : State → State} {far : Option (List Nat) → State → State} {s : State} {ps : List (Nat × Nat)} (h : s.me.ready (.c n :: src ++ val) dst)
    (hc : chk = none) (hh : (s.me.cap n).home = s.fabricId) (ht : tx = .ok ps) (hw : wait = false)
    (he : (eff s).me.ahead = none) : hbmWord n src val dst chk tx wait out part eff far s = .next (eff s) := by
  subst hc ht hw
  unfold hbmWord
  rw [actHbm_go h]
  simp only [hh, ne_eq, not_true_eq_false, ite_false, h.1, Option.isSome_none, Bool.and_false, Bool.false_eq_true,
    State.onMe, Core.clean_of_none he]

theorem hbmWord_raise {n : BitVec 4} {src val dst : List Res} {chk : Option Exc} {tx : Tx} {wait out : Bool}
    {part eff : State → State} {far : Option (List Nat) → State → State} {s : State} {e : Exc} (h : s.me.ready (.c n :: src ++ val) dst) (hc : chk = some e) :
    hbmWord n src val dst chk tx wait out part eff far s = .next (s.raise e) := by
  subst hc
  unfold hbmWord
  rw [actHbm_go h]

theorem hbmWord_away {n : BitVec 4} {src val dst : List Res} {chk : Option Exc} {tx : Tx} {wait out : Bool}
    {part eff : State → State} {far : Option (List Nat) → State → State} {s : State} (h : s.me.ready (.c n :: src ++ val) dst) (hc : chk = none)
    (hh : (s.me.cap n).home ≠ s.fabricId) : hbmWord n src val dst chk tx wait out part eff far s =
      homeWord n dst out far s := by
  subst hc
  unfold hbmWord
  rw [actHbm_go h]
  simp only [hh, ne_eq, not_false_eq_true, ite_true]

/-- A word of another module's object asks that module for its walk and waits (R415). -/
theorem homeWord_asks {n : BitVec 4} {dst : List Res} {out : Bool} {far : Option (List Nat) → State → State} {s : State}
    (ha : s.me.homeAns = none) : homeWord n dst out far s =
      .next ((s.onMe fun c => { c with homeHeld := some ((c.cap n).home, c.heldFor) }).stall .waiting) := by
  simp only [homeWord, ha]

/-- A fault that the other module answers is the word's own. -/
theorem homeWord_fault {n : BitVec 4} {dst : List Res} {out : Bool} {far : Option (List Nat) → State → State} {s : State}
    {cls sub : BitVec 8} {v : BitVec 48} (ha : s.me.homeAns = some (.fault cls sub v)) :
    homeWord n dst out far s = .next (s.raise ⟨cls, sub, n.setWidth 6, v, 0x3D⟩) := by
  simp only [homeWord, ha]

/-- At a miss there the elements that translate perform, and the core misses (R412, R415). -/
theorem homeWord_missed {n : BitVec 4} {dst : List Res} {out : Bool} {far : Option (List Nat) → State → State} {s : State}
    {l : List Nat} (h : s.me.ahead = none) (ha : s.me.homeAns = some (.missed l)) :
    homeWord n dst out far s = .next ((far (some l) s).homeMiss n) := by
  simp only [homeWord, ha, h, Option.isSome_none, Bool.false_eq_true, ite_false]

/-- A mapped access leaves the core for the other module. -/
theorem homeWord_far {n : BitVec 4} {dst : List Res} {out : Bool} {far : Option (List Nat) → State → State} {s : State}
    (h : s.me.ahead = none) (ha : s.me.homeAns = some .mapped) (hs : s.me.sbFull = false) (hw : s.me.farWaits (s.me.cap n).home = false)
    (he : (far none s).me.ahead = none) : homeWord n dst out far s = .next (far none s) := by
  simp only [homeWord, h, Option.isSome_none, Bool.false_and, Bool.false_eq_true, ite_false, ha, hs, hw, Bool.or_self,
    Bool.and_false, State.onMe, Core.clean_of_none he]

theorem hbmWord_fault {n : BitVec 4} {src val dst : List Res} {chk : Option Exc} {tx : Tx} {wait out : Bool}
    {part eff : State → State} {far : Option (List Nat) → State → State} {s : State} {cls sub : BitVec 8} {v : BitVec 48} (h : s.me.ready (.c n :: src ++ val) dst)
    (hc : chk = none) (hh : (s.me.cap n).home = s.fabricId) (ht : tx = .fault cls sub v) :
    hbmWord n src val dst chk tx wait out part eff far s = .next (s.raise ⟨cls, sub, n.setWidth 6, v, 0x3D⟩) := by
  subst hc ht
  unfold hbmWord
  rw [actHbm_go h]
  simp only [hh, ne_eq, not_true_eq_false, ite_false]

/-! ## Checks -/

theorem firstOf_none (a : Option Exc) (l : List (Option Exc)) : firstOf (a :: l) = none ↔ a = none ∧ firstOf l = none := by
  cases a <;> simp [firstOf]

theorem check_none (b : Bool) (e : Exc) : check b e = none ↔ b = false := by cases b <;> simp [check]

end Sys2Proof.Machine
end

