-- ==== Sys2Proof/Laws/Entry.lean ====
section
/-! SUPPORT. Capture and entry: what they leave of a core that has no pending write. -/

namespace Sys2Proof.Machine

open Sys2Proof

set_option Elab.async false

/-- What a division that lands, a capture and a landing of all writes leave alone when no
write is pending. -/
structure Core.Kept (c d : Core) : Prop where
  id : d.id = c.id
  p : d.p = c.p
  x : d.x = c.x
  csr : d.csr = c.csr
  vmem : d.vmem = c.vmem
  scr : d.scr = c.scr
  fe : d.fe = c.fe
  pc : d.pc = c.pc
  pend : d.pend = []
  sb : d.sb = c.sb
  issue : d.issue = c.issue
  deferred : d.deferred = c.deferred
  compo : d.compo = c.compo
  stopped : d.stopped = c.stopped
  ahead : d.ahead = c.ahead
  running : d.running = c.running
  onLatch : d.onLatch = c.onLatch
  g : c.outs = [] → d.g = c.g
  gang : d.gang = c.gang
  atBarrier : d.atBarrier = c.atBarrier

theorem Core.kept_self {c : Core} (hp : c.pend = []) : c.Kept c :=
  ⟨rfl, rfl, rfl, rfl, rfl, rfl, rfl, rfl, hp, rfl, rfl, rfl, rfl, rfl, rfl, rfl, rfl, fun _ => rfl, rfl, rfl⟩

theorem Core.kept_setG {c d : Core} (h : c.Kept d) (n : BitVec 6) (v : BitVec 64) (ho : c.outs ≠ []) :
    c.Kept (d.setG n v) := by
  unfold Core.setG
  split
  · exact h
  · exact ⟨h.id, h.p, h.x, h.csr, h.vmem, h.scr, h.fe, h.pc, h.pend, h.sb, h.issue, h.deferred, h.compo,
      h.stopped, h.ahead, h.running, h.onLatch, fun e => absurd e ho, h.gang, h.atBarrier⟩

theorem Core.kept_landG {c d : Core} (h : c.Kept d) (n : BitVec 6) (v : BitVec 64) (q : Nat) (ho : c.outs ≠ []) :
    c.Kept (d.landG n v q) := by
  have h := Core.kept_setG h n v ho
  unfold Core.landG
  generalize d.setG n v = e at h
  dsimp only
  split
  · split
    · exact ⟨h.id, h.p, h.x, h.csr, h.vmem, h.scr, h.fe, h.pc, h.pend, h.sb, h.issue, h.deferred, h.compo,
        h.stopped, h.ahead, h.running, h.onLatch, h.g, h.gang, h.atBarrier⟩
    · exact h
  · exact h

theorem Core.kept_landGs {c : Core} (l : List Outst) : ∀ {d : Core}, c.Kept d → (l ≠ [] → c.outs ≠ []) →
    c.Kept (l.foldl (fun c o => c.landG o.rd o.v o.seq) d) := by
  induction l with
  | nil => intro d h _; exact h
  | cons o l ih => intro d h ho; exact ih (Core.kept_landG h _ _ _ (ho (by simp))) fun _ => ho (by simp)

theorem Core.kept_finishDivs {c : Core} (hp : c.pend = []) : c.Kept c.finishDivs := by
  have h := Core.kept_landGs (c := c) (c.outs.filter (·.timed)) (Core.kept_self hp) (by
    intro h e; rw [e] at h; exact h rfl)
  exact ⟨h.id, h.p, h.x, h.csr, h.vmem, h.scr, h.fe, h.pc, h.pend, h.sb, h.issue, h.deferred, h.compo,
      h.stopped, h.ahead, h.running, h.onLatch, h.g, h.gang, h.atBarrier⟩

theorem Core.applyAll_nil (c : Core) : c.applyAll [] = c := by
  simp [Core.applyAll, Core.countAll]

theorem Core.rowsOwed_nil {c : Core} (h : c.pend = []) : c.rowsOwed = 0 := by simp [Core.rowsOwed, h]

theorem Core.rowsLanded_zero (c : Core) : c.rowsLanded 0 = c := by
  have h : (fun e : SbEntry => ({ e with behind := e.behind - 0 } : SbEntry)) = fun e => e := rfl
  simp only [Core.rowsLanded, h, List.map_id']

theorem Core.kept_capture {c : Core} (hp : c.pend = []) (n : Nat) : c.Kept (c.capture n) := by
  have h := Core.kept_finishDivs hp
  unfold Core.capture Core.landAll
  generalize c.finishDivs = d at h
  simp only [h.pend, List.filter_nil, List.map_nil, Core.applyAll_nil, Core.rowsOwed_nil h.pend, Core.rowsLanded_zero]
  split
  · exact ⟨h.id, h.p, h.x, h.csr, h.vmem, h.scr, h.fe, h.pc, rfl, h.sb, h.issue, h.deferred, h.compo,
      h.stopped, h.ahead, h.running, h.onLatch, h.g, h.gang, h.atBarrier⟩
  · exact ⟨h.id, h.p, h.x, h.csr, h.vmem, h.scr, h.fe, h.pc, rfl, h.sb, h.issue, h.deferred, h.compo,
      h.stopped, h.ahead, h.running, h.onLatch, h.g, h.gang, h.atBarrier⟩

theorem Core.kept_landAll {c d : Core} (h : c.Kept d) : c.Kept d.landAll := by
  unfold Core.landAll
  simp only [h.pend, List.map_nil, Core.applyAll_nil, Core.rowsOwed_nil h.pend, Core.rowsLanded_zero]
  exact ⟨h.id, h.p, h.x, h.csr, h.vmem, h.scr, h.fe, h.pc, rfl, h.sb, h.issue, h.deferred, h.compo,
      h.stopped, h.ahead, h.running, h.onLatch, h.g, h.gang, h.atBarrier⟩

/-! ## What every write leaves alone -/

@[simp] theorem Core.setG_ahead (c : Core) (n : BitVec 6) (v : BitVec 64) : (c.setG n v).ahead = c.ahead := by
  unfold Core.setG; split <;> rfl
@[simp] theorem Core.setP_ahead (c : Core) (n : BitVec 3) (v : Bool) : (c.setP n v).ahead = c.ahead := by
  unfold Core.setP; split <;> rfl
@[simp] theorem Core.landG_ahead (c : Core) (n : BitVec 6) (v : BitVec 64) (q : Nat) : (c.landG n v q).ahead = c.ahead := by
  unfold Core.landG; dsimp only; split
  · split <;> simp
  · simp
@[simp] theorem Core.landLine_ahead (c : Core) (n : BitVec 6) : (c.landLine n).ahead = c.ahead := by
  unfold Core.landLine; dsimp only; split <;> simp
@[simp] theorem Core.setCsr_ahead (c : Core) (k : Csr) (v : BitVec 64) : (c.setCsr k v).ahead = c.ahead := by
  cases k <;> first | rfl | (unfold Core.setCsr; dsimp only; split <;> rfl)
theorem Core.foldl_ahead {α : Type} (f : Core → α → Core) (h : ∀ c a, (f c a).ahead = c.ahead) (l : List α) :
    ∀ c, (l.foldl f c).ahead = c.ahead := by
  induction l with
  | nil => intro c; rfl
  | cons a l ih => intro c; rw [List.foldl_cons, ih, h]

@[simp] theorem Core.putArea_ahead (c : Core) (a : Nat) (b : Byte) : (c.putArea a b).ahead = c.ahead := by
  have h := fun (l : List Nat) (c : Core) => Core.foldl_ahead
    (fun c i => c.setXp (BitVec.ofNat 5 (8 * (a - 0x340) + i)) (b.getLsbD i)) (fun _ _ => rfl) l c
  unfold Core.putArea
  dsimp only
  rw [apply_ite Core.ahead, Core.setG_ahead, apply_ite Core.ahead, Core.setP_ahead]
  cases Csr.ofCode (BitVec.ofNat 12 ((a - 0xA00) / 8)) <;>
  simp only [apply_ite Core.ahead, h, Core.setCsr_ahead, Core.setX, Core.setCell, Core.setCap, Core.setRing, Core.setView, Core.setTid,
    ite_self]
@[simp] theorem Core.putRegs_ahead (c : Core) (a : Nat) (bs : List Byte) : (c.putRegs a bs).ahead = c.ahead := by
  induction bs generalizing c a with
  | nil => rfl
  | cons b bs ih => rw [Core.putRegs, ih]; split <;> simp [Core.writeView]

/-- A write leaves run-ahead as it is. -/
@[simp] theorem Core.apply_ahead (c : Core) (w : Write) : (c.apply w).ahead = c.ahead := by
  cases w <;> first | rfl | (simp [Core.apply]; done) | (simp only [Core.apply]; split <;> rfl)

@[simp] theorem Core.both_ahead (f : Core → Core) (h : ∀ c, (f c).ahead = c.ahead) (c : Core) : (c.both f).ahead = c.ahead := by
  unfold Core.both; dsimp only; split <;> simp [h]

/-- Writes leave run-ahead as it is. -/
@[simp] theorem Core.applyAll_ahead (c : Core) (ws : List Write) : (c.applyAll ws).ahead = c.ahead := by
  unfold Core.applyAll Core.countAll
  dsimp only
  rw [Core.foldl_ahead _ Core.apply_ahead, Core.foldl_ahead _ fun c w => Core.both_ahead _ (fun d => d.apply_ahead w) c,
    Core.foldl_ahead _ Core.apply_ahead]

@[simp] theorem Core.capture_ahead (c : Core) (n : Nat) : (c.capture n).ahead = c.ahead := by
  have h : c.finishDivs.ahead = c.ahead := 
    Core.foldl_ahead (fun c (o : Outst) => c.landG o.rd o.v o.seq) (fun c o => c.landG_ahead o.rd o.v o.seq) _ c
  unfold Core.capture Core.landAll Core.rowsLanded
  dsimp only
  split
  · show (c.finishDivs.applyAll _).ahead = _; rw [Core.applyAll_ahead, h]
  · show (c.finishDivs.applyAll _).ahead = _; rw [Core.applyAll_ahead, h]

@[simp] theorem Core.setG_id (c : Core) (n : BitVec 6) (v : BitVec 64) : (c.setG n v).id = c.id := by
  unfold Core.setG; split <;> rfl
@[simp] theorem Core.setP_id (c : Core) (n : BitVec 3) (v : Bool) : (c.setP n v).id = c.id := by
  unfold Core.setP; split <;> rfl
@[simp] theorem Core.landG_id (c : Core) (n : BitVec 6) (v : BitVec 64) (q : Nat) : (c.landG n v q).id = c.id := by
  unfold Core.landG; dsimp only; split
  · split <;> simp
  · simp
@[simp] theorem Core.landLine_id (c : Core) (n : BitVec 6) : (c.landLine n).id = c.id := by
  unfold Core.landLine; dsimp only; split <;> simp
@[simp] theorem Core.setCsr_id (c : Core) (k : Csr) (v : BitVec 64) : (c.setCsr k v).id = c.id := by
  cases k <;> first | rfl | (unfold Core.setCsr; dsimp only; split <;> rfl)
theorem Core.foldl_id {α : Type} (f : Core → α → Core) (h : ∀ c a, (f c a).id = c.id) (l : List α) :
    ∀ c, (l.foldl f c).id = c.id := by
  induction l with
  | nil => intro c; rfl
  | cons a l ih => intro c; rw [List.foldl_cons, ih, h]

@[simp] theorem Core.putArea_id (c : Core) (a : Nat) (b : Byte) : (c.putArea a b).id = c.id := by
  have h := fun (l : List Nat) (c : Core) => Core.foldl_id
    (fun c i => c.setXp (BitVec.ofNat 5 (8 * (a - 0x340) + i)) (b.getLsbD i)) (fun _ _ => rfl) l c
  unfold Core.putArea
  dsimp only
  rw [apply_ite Core.id, Core.setG_id, apply_ite Core.id, Core.setP_id]
  cases Csr.ofCode (BitVec.ofNat 12 ((a - 0xA00) / 8)) <;>
  simp only [apply_ite Core.id, h, Core.setCsr_id, Core.setX, Core.setCell, Core.setCap, Core.setRing, Core.setView, Core.setTid,
    ite_self]
@[simp] theorem Core.putRegs_id (c : Core) (a : Nat) (bs : List Byte) : (c.putRegs a bs).id = c.id := by
  induction bs generalizing c a with
  | nil => rfl
  | cons b bs ih => rw [Core.putRegs, ih]; split <;> simp [Core.writeView]

/-- A write leaves the core's name as it is. -/
@[simp] theorem Core.apply_id (c : Core) (w : Write) : (c.apply w).id = c.id := by
  cases w <;> first | rfl | (simp [Core.apply]; done) | (simp only [Core.apply]; split <;> rfl)

@[simp] theorem Core.both_id (f : Core → Core) (h : ∀ c, (f c).id = c.id) (c : Core) : (c.both f).id = c.id := by
  unfold Core.both; dsimp only; split <;> simp [h]

/-- Writes leave the core's name as it is. -/
@[simp] theorem Core.applyAll_id (c : Core) (ws : List Write) : (c.applyAll ws).id = c.id := by
  unfold Core.applyAll Core.countAll
  dsimp only
  rw [Core.foldl_id _ Core.apply_id, Core.foldl_id _ fun c w => Core.both_id _ (fun d => d.apply_id w) c,
    Core.foldl_id _ Core.apply_id]

@[simp] theorem Core.capture_id (c : Core) (n : Nat) : (c.capture n).id = c.id := by
  have h : c.finishDivs.id = c.id := 
    Core.foldl_id (fun c (o : Outst) => c.landG o.rd o.v o.seq) (fun c o => c.landG_id o.rd o.v o.seq) _ c
  unfold Core.capture Core.landAll Core.rowsLanded
  dsimp only
  split
  · show (c.finishDivs.applyAll _).id = _; rw [Core.applyAll_id, h]
  · show (c.finishDivs.applyAll _).id = _; rw [Core.applyAll_id, h]

@[simp] theorem Core.landAll_id (c : Core) : c.landAll.id = c.id := c.applyAll_id _

@[simp] theorem Core.finishDivs_id (c : Core) : c.finishDivs.id = c.id :=
  Core.foldl_id (fun c (o : Outst) => c.landG o.rd o.v o.seq) (fun c o => c.landG_id o.rd o.v o.seq) _ c

/-- An exception leaves the core's name as it is. -/
@[simp] theorem Core.raise_id (c : Core) (e : Exc) : (c.raise e).id = c.id := by
  have h : c.finishDivs.landAll.id = c.id := by rw [Core.landAll_id, Core.finishDivs_id]
  unfold Core.raise
  dsimp only
  split
  · exact Core.capture_id c 0
  · generalize c.finishDivs.landAll = d at h ⊢
    exact h

/-! ## The registers of an entry -/

@[simp] theorem Core.enter_pc (c : Core) (cls : BitVec 8) (code : BitVec 12) (i : BitVec 64) :
    (c.enter cls code i).pc = c.vector cls := rfl
@[simp] theorem Core.enter_epc (c : Core) (cls : BitVec 8) (code : BitVec 12) (i : BitVec 64) :
    (c.enter cls code i).csr.epc = BitVec.ofNat 17 (c.pc / 4) := rfl
@[simp] theorem Core.enter_ecause (c : Core) (cls : BitVec 8) (code : BitVec 12) (i : BitVec 64) :
    (c.enter cls code i).csr.ecause = (0 : BitVec 4) ++ code ++ (0 : BitVec 8) ++ cls := rfl
@[simp] theorem Core.enter_einfo (c : Core) (cls : BitVec 8) (code : BitVec 12) (i : BitVec 64) :
    (c.enter cls code i).csr.einfo = i := rfl
@[simp] theorem Core.enter_level (c : Core) (cls : BitVec 8) (code : BitVec 12) (i : BitVec 64) :
    (c.enter cls code i).csr.level = c.csr.level + 1 := rfl
@[simp] theorem Core.enter_plev (c : Core) (cls : BitVec 8) (code : BitVec 12) (i : BitVec 64) :
    (c.enter cls code i).csr.plev = c.csr.level := rfl
@[simp] theorem Core.enter_lpcnt (c : Core) (cls : BitVec 8) (code : BitVec 12) (i : BitVec 64) :
    (c.enter cls code i).csr.lpcnt = 0 := rfl
@[simp] theorem Core.enter_tlpcnt (c : Core) (cls : BitVec 8) (code : BitVec 12) (i : BitVec 64) :
    (c.enter cls code i).csr.tlpcnt = c.csr.lpcnt := rfl
@[simp] theorem Core.enter_g (c : Core) (cls : BitVec 8) (code : BitVec 12) (i : BitVec 64) :
    (c.enter cls code i).g = c.g := rfl
@[simp] theorem Core.enter_scr (c : Core) (cls : BitVec 8) (code : BitVec 12) (i : BitVec 64) :
    (c.enter cls code i).scr = c.scr := rfl
@[simp] theorem Core.enter_deferred (c : Core) (cls : BitVec 8) (code : BitVec 12) (i : BitVec 64) :
    (c.enter cls code i).deferred = c.deferred := rfl
@[simp] theorem Core.enter_ahead (c : Core) (cls : BitVec 8) (code : BitVec 12) (i : BitVec 64) :
    (c.enter cls code i).ahead = c.ahead := rfl

/-- An exception at level 0 is the entry of its class, in front of the packet. -/
theorem Core.raise_entry {c : Core} (hl : c.csr.level = 0) (e : Exc) : c.raise e =
    { (c.capture 0).enter e.cls e.code (e.info (e.word c.issue.word)) with
      issue := { ((c.capture 0).enter e.cls e.code (e.info (e.word c.issue.word))).issue with
        status := .trapped, taken := true } } := by
  unfold Core.raise; rw [if_pos hl]

/-- The registers of an exception at level 0 with no write pending. -/
structure Core.Raised (c : Core) (e : Exc) (r : Core) : Prop where
  pc : r.pc = c.csr.evec.toNat * 4096 + 64 * e.cls.toNat
  epc : r.csr.epc = BitVec.ofNat 17 (c.pc / 4)
  level : r.csr.level = 1
  info : r.csr.einfo = e.info (e.word c.issue.word)
  cause : r.csr.ecause = (0 : BitVec 4) ++ e.code ++ (0 : BitVec 8) ++ e.cls
  scr : r.scr = c.scr
  vmem : r.vmem = c.vmem
  id : r.id = c.id
  sb : r.sb = c.sb
  ahead : r.ahead = c.ahead
  gang : r.gang = c.gang
  atBarrier : r.atBarrier = c.atBarrier

theorem Core.raise_raised {c : Core} (hp : c.pend = []) (hl : c.csr.level = 0) (e : Exc) : c.Raised e (c.raise e) := by
  have k := Core.kept_capture hp 0
  rw [Core.raise_entry hl]
  refine ⟨?_, ?_, ?_, rfl, rfl, k.scr, k.vmem, k.id, k.sb, k.ahead, k.gang, k.atBarrier⟩
  · simp only [Core.enter, Core.vector, k.csr]
  · simp only [Core.enter, k.pc]
  · simp only [Core.enter, k.csr, hl]; rfl

/-- An exception outside run-ahead, with no remote access of a level-0 packet outstanding, is
the core's entry. -/
theorem State.raise_eq {s : State} (ha : s.me.ahead = none) (ho : s.me.owesRemote = false) (e : Exc) :
    s.raise e = s.onMe fun c => c.raise e := by
  unfold State.raise
  rw [ha, ho, Bool.and_false]
  simp

end Sys2Proof.Machine
end

