-- ==== Sys2Proof/Laws/Deliver.lean ====
section
/-! SUPPORT. What the arrival of a message does (03_storage_model.md R47, R304). -/

namespace Sys2Proof.Machine

open Sys2Proof

set_option Elab.async false

/-- An arriving message that is applied whole, or parked. -/
theorem State.deliver_eq {s : State} {k : Nat} {m : Msg} (h : s.arrives k m)
    (f : Msg → State → Option (State × Bool)) {t : State} {d : Bool} (hf : f m (s.less k) = some (t, d)) :
    s.deliver f = .next (if d then t.counted m else t) := by
  obtain ⟨h1, h2, h3, h4⟩ := h
  unfold State.deliver
  split
  · rename_i j hj
    obtain rfl : k = j := by rw [h1] at hj; exact EvArg.msg.inj hj
    simp only [h2, h3, h4, beq_self_eq_true, Bool.and_self, ite_true]
    unfold State.less at hf
    rw [hf]
    rfl
  · rename_i hj
    exact absurd h1 (hj k)

/-- The core that a message is for. -/
theorem State.targetOf_eq {s : State} {m : Msg} {num : Nat} {c : Core} (hd : m.dst = .core num)
    (hc : s.core? { m.src with num := num } = some c) : s.targetOf m = some c := by
  simp only [State.targetOf, Msg.target, hd, Option.bind_some, hc]

theorem State.core?_id {s : State} {id : CoreId} {c : Core} (h : s.core? id = some c) : c.id = id := by
  have := List.find?_some h
  simpa using this

/-- The cores do not depend on the network. -/
theorem State.less_core? (s : State) (k : Nat) (id : CoreId) : (s.less k).core? id = s.core? id := rfl

theorem State.less_targetOf (s : State) (k : Nat) (m : Msg) : (s.less k).targetOf m = s.targetOf m := rfl

/-- Changing the core of a name changes that core and no other. -/
theorem State.updCore_core? (s : State) (id j : CoreId) (f : Core → Core) (hf : ∀ c, (f c).id = c.id) :
    (s.updCore id f).core? j = (s.core? j).map fun c => if j = id then f c else c := by
  unfold State.updCore State.core? State.cores
  by_cases h : s.me.id = id
  · rw [if_pos h]
    by_cases hj : s.me.id = j
    · have e1 : ((f s.me).id == j) = true := by rw [hf]; simpa using hj
      have e2 : (s.me.id == j) = true := by simpa using hj
      simp only [List.find?_cons, e1, e2, if_pos (hj.symm.trans h), Option.map_some]
    · have e1 : ((f s.me).id == j) = false := by rw [hf]; simpa using hj
      have e2 : (s.me.id == j) = false := by simpa using hj
      have e3 : ¬j = id := fun e => hj (h.trans e.symm)
      simp only [List.find?_cons, e1, e2, if_neg e3, Option.map_id']
  · rw [if_neg h]
    by_cases hj : s.me.id = j
    · have e3 : ¬j = id := fun e => h (hj.trans e)
      have e2 : (s.me.id == j) = true := by simpa using hj
      simp only [List.find?_cons, e2, if_neg e3, Option.map_some]
    · have e2 : (s.me.id == j) = false := by simpa using hj
      simp only [List.find?_cons, e2, List.find?_map]
      have : ((fun c : Core => c.id == j) ∘ fun c => if c.id = id then f c else c) = fun c => c.id == j := by
        funext c; simp only [Function.comp]; split <;> simp [hf]
      rw [this]
      cases hq : s.others.find? (fun c => c.id == j) with
      | none => rfl
      | some c =>
        have : c.id = j := by have := List.find?_some hq; simpa using this
        simp only [Option.map_some, this]

theorem State.onCore_me (s : State) (f : State → State) : s.onCore s.me.id f = f s := by
  simp [State.onCore]

end Sys2Proof.Machine
end

