-- ==== Sys2Proof/Laws/Access.lean ====
section
/-! SUPPORT. Addresses, loads, the store buffer, full/empty bits, headers, rings and bulk beats (08_storage_sync.md). -/

namespace Sys2Proof.Machine

open Sys2Proof

set_option Elab.async false

/-- A bit field of a number. -/
theorem ofNat_field (x : Nat) (lo n : Nat) : ((BitVec.ofNat 64 x).extractLsb' lo n).toNat = x % 2^64 / 2^lo % 2^n := by
  simp [BitVec.extractLsb'_toNat, Nat.shiftRight_eq_div_pow]

/-- A word is zero when its number is. -/
theorem beq_zero {n} (x : BitVec n) : (x == 0) = decide (x.toNat = 0) := by
  rw [Bool.eq_iff_iff]; simp; constructor
  · rintro rfl; rfl
  · intro h; exact BitVec.eq_of_toNat_eq (by simpa using h)

/-- A word differs from zero when its number does. -/
theorem bne_zero {n} (x : BitVec n) : (x != 0) = decide (x.toNat ≠ 0) := by
  rw [bne, beq_zero]; simp

/-- A remote scratch address: the checks and the place (R55, R182). -/
theorem State.locate_remote (s : State) (mj reg : BitVec 6) (off num n al y : Nat) (hn : num < 4096) (h : off < 2^19) (hy : y = 2 * 2 ^ 45 + (num * 2 ^ 33 + off)) :
   s.locate mj reg anySpace (BitVec.ofNat 64 y) n al =
      if off % al ≠ 0 then .error (addrExc mj 3 reg (BitVec.ofNat 64 y))
      else if s.names s.me.id num = false then .error (addrExc mj 5 reg (BitVec.ofNat 64 y))
      else if scrSizeOf num < off + n then .error (addrExc mj 4 reg (BitVec.ofNat 64 y)) else .ok (.remote num off) := by
  have e1 : y % 2^64 = y := by omega
  simp only [State.locate, ofNat_field, beq_zero, bne_zero, e1, anySpace]
  rw [show y / 2 ^ 45 % 2 ^ 3 = 2 by omega, show y / 2 ^ 48 % 2 ^ 16 = 0 by omega, show y / 2 ^ 19 % 2 ^ 14 = 0 by omega, show y / 2 ^ 0 % 2 ^ 19 = off by omega, show y / 2 ^ 33 % 2 ^ 12 = num by omega]
  simp

/-- A bank address: the checks and the place (R55, R75, R182). -/
theorem State.locate_bank (s : State) (mj reg : BitVec 6) (off lcol n al y : Nat) (hn : lcol < 256) (h : off < 2^25) (hy : y = 4 * 2 ^ 45 + (lcol * 2 ^ 37 + off)) :
   s.locate mj reg anySpace (BitVec.ofNat 64 y) n al =
      if off % al ≠ 0 then .error (addrExc mj 3 reg (BitVec.ofNat 64 y))
      else if 4 * s.posOf s.me.id ≤ lcol then .error (addrExc mj 5 reg (BitVec.ofNat 64 y))
      else if 2 ^ 25 < off + n then .error (addrExc mj 4 reg (BitVec.ofNat 64 y)) else .ok (.bank lcol off) := by
  have e1 : y % 2^64 = y := by omega
  simp only [State.locate, ofNat_field, beq_zero, bne_zero, e1, anySpace]
  rw [show y / 2 ^ 45 % 2 ^ 3 = 4 by omega, show y / 2 ^ 48 % 2 ^ 16 = 0 by omega, show y / 2 ^ 33 % 2 ^ 4 = 0 by omega, show y / 2 ^ 25 % 2 ^ 8 = 0 by omega, show y / 2 ^ 0 % 2 ^ 25 = off by omega, show y / 2 ^ 37 % 2 ^ 8 = lcol by omega]
  simp

/-- The number of a byte string is below its range. -/
theorem bytesNat_lt (l : List Byte) : bytesNat l < 2 ^ (8 * l.length) := by
  induction l with
  | nil => simp [bytesNat]
  | cons b l ih =>
    rw [bytesNat, List.length_cons, show 8 * (l.length + 1) = 8 + 8 * l.length by ring, pow_add]
    have := b.isLt
    generalize 2 ^ (8 * l.length) = p at ih ⊢
    omega

/-- A loaded value, extended with its sign or with zeros (R184). -/
theorem extendBytes_spec (n : Nat) (hn : n ∈ [1, 2, 4, 8]) (sg : Bool) (v : Nat) : extendBytes sg n v = (if sg then (BitVec.ofNat (8 * n) v).signExtend 64 else (BitVec.ofNat (8 * n) v).setWidth 64) ∨ 2 ^ (8 * n) ≤ v := by
  by_cases hv : v < 2 ^ (8 * n)
  · left
    unfold extendBytes
    have hk : 8 * n ≤ 64 ∧ 0 < 8 * n := by simp at hn; omega
    cases sg
    · simp only [Bool.false_eq_true, ite_false]
      apply BitVec.eq_of_toNat_eq
      simp [Nat.mod_eq_of_lt hv]
    · simp only [ite_true]
      generalize 8 * n = k at hk hv
      have : BitVec.ofNat k v = (BitVec.ofNat 64 v).setWidth k := by
        apply BitVec.eq_of_toNat_eq; simp [Nat.mod_mod_of_dvd _ (Nat.pow_dvd_pow 2 hk.1)]
      rw [this]
      generalize BitVec.ofNat 64 v = a
      ext i hi
      rw [BitVec.getElem_sshiftRight]
      simp only [BitVec.getElem_signExtend, BitVec.getElem_shiftLeft, BitVec.msb_shiftLeft, BitVec.msb_setWidth]
      by_cases hik : i < k
      · simp [hik, show 64 - k + i < 64 by omega, BitVec.getLsbD_eq_getElem hi]
      · simp [hik, show ¬(64 - k + i < 64) by omega]
        simp [BitVec.getMsbD, show 64 - k < 64 by omega]
        rw [show 63 - (64 - k) = k - 1 by omega]; simp [hk.2]
  · right; omega

/-- A read of own storage gives as many bytes as it asks for. -/
theorem State.ownBytes_length (s : State) (a n) : (s.ownBytes a n).length = n := by
  induction n generalizing a with
  | zero => rfl
  | succ n ih => simp [State.ownBytes, ih]

/-- A read of register space gives as many bytes as it asks for. -/
theorem State.regBytes_length (s : State) (a n) : (s.regBytes a n).length = n := by
  induction n generalizing a with
  | zero => rfl
  | succ n ih => simp [State.regBytes, ih]

/-- A store buffer with fewer than 32 entries is not full (R186). -/
theorem Core.sbFull_false {c : Core} (h : c.sb.length < 32) : c.sbFull = false := decide_eq_false (by omega)

/-- A word whose effect is one store-buffer entry. -/
theorem actOut_buffer {s : State} {src : List Res} {chk} {wait} {k r} (h : s.me.ready src []) (hc : chk = none) (hw : wait = false) :
   actOut src [] chk wait (s.onMe fun c => c.buffer k r) s = .next (s.onMe fun c => { c with sb := c.sb ++ [⟨k, r, c.seq, true, s.me.rowsOwed⟩], seq := c.seq + 1 }) := by
  refine (actOut_next h hc hw (Core.buffer_ahead h.1 _ _)).trans ?_
  simp only [State.onMe, Core.buffer_eq h.1]

/-- Bits 63 to 12 of a word are 0 when its number is below 4,096. -/
theorem high_bits_zero (a : BitVec 64) : (a.extractLsb' 12 52 != 0) = decide (4096 ≤ a.toNat) := by
  rw [bne, Bool.eq_iff_iff]; simp
  constructor
  · intro h; by_contra hc; apply h; apply BitVec.eq_of_toNat_eq; simp [Nat.shiftRight_eq_div_pow]; omega
  · intro h e; have := congrArg BitVec.toNat e; simp [Nat.shiftRight_eq_div_pow] at this; have := a.isLt; omega

/-- A core number that names a core passes (R386). -/
theorem State.coreCheck_none {s : State} {mj sub reg n} (h : s.names s.me.id n.toNat = true) : s.coreCheck mj sub reg n = none := by
  simp [State.coreCheck, check, h]

/-- A core number that names none raises class 0x20 (R386). -/
theorem State.coreCheck_some {s : State} {mj sub reg n} (h : s.names s.me.id n.toNat = false) : s.coreCheck mj sub reg n = some ⟨0x20, sub, reg, n.setWidth 48, mj⟩ := by
  simp [State.coreCheck, check, h]

/-- A header that passes asks for at most six arguments (R222). -/
theorem headerCheck_argc {mj r a own h} (hh : headerCheck mj r a own h = none) : min (headerArgc h) 6 = headerArgc h := by
  have : ¬ 6 < headerArgc h := by
    intro hc
    cases hres : headerReserved h <;> simp [headerCheck, check, firstOf, hres, hc] at hh
  omega

/-- Each bit of a word after a field is written. -/
theorem putBits_bit {w n : Nat} (h : BitVec w) (lo : Nat) (v : BitVec n) (i : Nat) (hi : i < w) :
    (putBits h lo v).getLsbD i = if lo ≤ i ∧ i < lo + n then v.getLsbD (i - lo) else h.getLsbD i := by
  simp only [putBits, BitVec.getLsbD_or, BitVec.getLsbD_and, BitVec.getLsbD_not, BitVec.getLsbD_shiftLeft, BitVec.getLsbD_setWidth, BitVec.getLsbD_allOnes, hi, show i - lo < w by omega]
  by_cases h1 : lo ≤ i
  · by_cases h2 : i < lo + n
    · simp [h1, h2, show ¬ i < lo by omega, show i - lo < n by omega]
    · simp [h1, h2, show ¬ i < lo by omega, show ¬ i - lo < n by omega]
      intro hv; exact absurd (BitVec.getLsbD_of_ge v (i - lo) (by omega)) (by simp [hv])
  · simp [h1, show i < lo by omega]

/-- A field reads back as written. -/
theorem putBits_same {w n : Nat} (h : BitVec w) (lo : Nat) (v : BitVec n) (hw : lo + n ≤ w) : (putBits h lo v).extractLsb' lo n = v := by
  apply BitVec.eq_of_getLsbD_eq
  intro i hi
  rw [BitVec.getLsbD_extractLsb', putBits_bit _ _ _ _ (by omega)]
  simp [hi]

/-- Another field reads as before. -/
theorem putBits_other {w n m : Nat} (h : BitVec w) (lo : Nat) (v : BitVec n) (l2 : Nat) (hw : l2 + m ≤ w) (hd : l2 + m ≤ lo ∨ lo + n ≤ l2) : (putBits h lo v).extractLsb' l2 m = h.extractLsb' l2 m := by
  apply BitVec.eq_of_getLsbD_eq
  intro i hi
  rw [BitVec.getLsbD_extractLsb', BitVec.getLsbD_extractLsb', putBits_bit _ _ _ _ (by omega), if_neg (by omega)]

/-- The counts of a ring handle read back as written (R69). -/
theorem ringWith_fields (h : BitVec 256) (a b : BitVec 10) (c d : BitVec 11) : ringHead (ringWith h a b c d) = a ∧ ringTail (ringWith h a b c d) = b ∧ ringFill (ringWith h a b c d) = c ∧ ringFree (ringWith h a b c d) = d := by
  unfold ringWith ringHead ringTail ringFill ringFree
  refine ⟨?_, ?_, ?_, ?_⟩
  · rw [putBits_other _ _ _ _ (by decide) (by decide), putBits_other _ _ _ _ (by decide) (by decide), putBits_other _ _ _ _ (by decide) (by decide), putBits_same _ _ _ (by decide)]
  · rw [putBits_other _ _ _ _ (by decide) (by decide), putBits_other _ _ _ _ (by decide) (by decide), putBits_same _ _ _ (by decide)]
  · rw [putBits_other _ _ _ _ (by decide) (by decide), putBits_same _ _ _ (by decide)]
  · rw [putBits_same _ _ _ (by decide)]

/-- The beats of a copy cover its length in order, each of at most 256 bytes (R211). -/
theorem copyBeats_spec : ∀ f src dst n, n ≤ 256 * f - (if dst % 256 = 0 then 0 else dst % 256) → (f = 0 → n = 0) → ((copyBeats f src dst n).map fun b => b.len).sum = n ∧
      ∀ b ∈ copyBeats f src dst n, 1 ≤ b.len ∧ b.dst % 256 + b.len ≤ 256 ∧ b.src + dst = b.dst + src := by
  intro f
  induction f with
  | zero => intro src dst n _ h; simp [copyBeats, h]
  | succ f ih =>
    intro src dst n hn _
    unfold copyBeats
    by_cases h0 : n = 0
    · simp [h0]
    · rw [if_neg h0]
      dsimp only
      have := ih (src + min n (256 - dst % 256)) (dst + min n (256 - dst % 256)) (n - min n (256 - dst % 256)) (by split at hn <;> split <;> omega) (by split at hn <;> omega)
      refine ⟨?_, ?_⟩
      · rw [List.map_cons, List.sum_cons, this.1]; show min n (256 - dst % 256) + _ = n; omega
      · intro b hb
        rcases List.mem_cons.1 hb with rfl | hb
        · refine ⟨?_, ?_, ?_⟩
          · show 1 ≤ min n (256 - dst % 256); omega
          · show dst % 256 + min n (256 - dst % 256) ≤ 256; omega
          · show src + dst = dst + src; omega
        · have := this.2 b hb; exact ⟨this.1, this.2.1, by omega⟩

/-- Nothing lands when nothing is pending. -/
theorem Core.landAll_nil {c : Core} (h : c.pend = []) : c.landAll = { c with pend := [] } := by
  unfold Core.landAll; rw [Core.rowsOwed_nil h, h]; simp only [List.map_nil, Core.applyAll_nil, Core.rowsLanded_zero]

/-- A change of another core leaves this core alone. -/
theorem State.updCore_other (s : State) (id : CoreId) (f) (h : id ≠ s.me.id) : (s.updCore id f).me = s.me := by
  unfold State.updCore; rw [if_neg fun e => h e.symm]

/-- Changes of siblings leave this core alone. -/
theorem State.foldl_siblings_me (f : Core → Core) : ∀ (l : List Nat) (s : State), (∀ i ∈ l, s.sibling (i + 1) ≠ s.me.id) → (l.foldl (fun s i => s.updCore (s.sibling (i + 1)) f) s).me = s.me := by
  intro l
  induction l with
  | nil => intro s _; rfl
  | cons i l ih =>
    intro s h
    have hm := State.updCore_other s (s.sibling (i + 1)) f (h i (by simp))
    rw [List.foldl_cons, ih, hm]
    intro j hj
    have sb : ∀ t : State, t.me = s.me → t.sibling (j + 1) = s.sibling (j + 1) := by intro t h; simp only [State.sibling, h]
    rw [sb _ hm, hm]; exact h j (by simp [hj])

/-- The core in turn, by its name. -/
theorem State.core?_me (s : State) : s.core? s.me.id = some s.me := by
  simp [State.core?, State.cores]

/-- A change of the core in turn by its name. -/
theorem State.updCore_self (s : State) (f : Core → Core) : s.updCore s.me.id f = s.onMe f := by
  simp [State.updCore, State.onMe]

/-- The full/empty bit of a core that is not composed (R198). -/
theorem State.feIs_plain {s : State} (o : Nat) (hc : s.me.composed = false) : s.feIs o = s.me.fe.contains (o / 128) := by
  unfold State.feIs State.feLine; rw [hc]; simp only [Bool.false_eq_true, ite_false]; rw [State.core?_me]; rfl

/-- Setting the full/empty bit of a core that is not composed (R198). -/
theorem State.feSet_plain {s : State} (o : Nat) (b : Bool) (hc : s.me.composed = false) : s.feSet o b = s.onMe fun c => { c with fe := feLines c.fe (o / 128) b 1 } := by
  unfold State.feSet State.feLine; rw [hc]; simp only [Bool.false_eq_true, ite_false]; exact State.updCore_self _ _

/-- The first entry leaves the store buffer. -/
theorem State.popSb_eq {s : State} {e : SbEntry} {es : List SbEntry} (hsb : s.me.sb = e :: es) : s.onMe Core.popSb = s.onMe fun c => { c with sb := es } := by
  unfold State.onMe Core.popSb; simp only [hsb]; rfl

/-- Bank bytes that no turn has left undefined read as stored. -/
theorem Region.veiled_nil (r : Region) (h : r.veil = []) (l : Nat) : ∀ (bs : List Byte) (a : Nat), r.veiled l a bs = bs := by
  intro bs
  induction bs with
  | nil => intro a; rfl
  | cons b bs ih => intro a; simp only [Region.veiled, Region.veilByte, h, List.foldl_nil, ih]; simp

/-- A read of n bytes gives n bytes. -/
theorem Memory.bytes_length (m : Memory) : ∀ (n a : Nat), (m.bytes a n).length = n := by
  intro n; induction n with
  | zero => intro a; rfl
  | succ n ih => intro a; simp only [Memory.bytes, List.length_cons, ih]

/-- A number written as n bytes has n bytes. -/
theorem natBytes_length : ∀ (n v : Nat), (natBytes n v).length = n := by
  intro n; induction n with
  | zero => intro v; rfl
  | succ n ih => intro v; simp only [natBytes, List.length_cons, ih]

/-- An arriving push that finds a place takes it (R216). -/
theorem arrivePush_room {s : State} {id : CoreId} {c : Core} {x : BitVec 512} {src : Nat} (hc : s.core? id = some c) (h1 : c.hasPlace (entryHi x) false = true)
   (h2 : (c.spill.any fun y => match y with | .push _ => true | _ => false) = false) :
   s.arrivePush id x src = (s.updCore id fun d => (d.push x false).both fun d => { d with latch := true }, true) := by
  unfold State.arrivePush; rw [hc]
  refine if_pos ?_
  rw [h1, Bool.true_and]; exact congrArg not h2

/-- An arriving push that finds no place is set aside (R389, R390). -/
theorem arrivePush_full {s : State} {id : CoreId} {c : Core} {x : BitVec 512} {src : Nat} (hc : s.core? id = some c) (h1 : c.hasPlace (entryHi x) false = false)
   (h2 : c.spill.length < 256) :
   s.arrivePush id x src = ((s.spillTo id (.push x)).updCore id fun d => d.deferOnce (.dequeFull (BitVec.ofNat 12 src)), false) := by
  unfold State.arrivePush; rw [hc]; simp only [h1, Bool.false_and, Bool.false_eq_true, ite_false]
  rw [decide_eq_false (by omega)]

/-- A change of a core leaves the phase alone. -/
theorem State.updCore_paused (s : State) (id : CoreId) (f : Core → Core) : (s.updCore id f).paused = s.paused := by
  unfold State.updCore; split <;> rfl

/-- Setting an arrival aside does not end a pause. -/
theorem State.spillTo_paused (s : State) (id : CoreId) (x : Spilled) : (s.spillTo id x).paused = s.paused := by
  unfold State.spillTo; split
  · rfl
  · split
    · rfl
    · exact State.updCore_paused ..

end Sys2Proof.Machine
end

