-- ==== Sys2Proof/Laws/Channels.lean ====
section
/-! SUPPORT. What service at the channels of HBM changes (12_memory_core.md R327), and reads that
meet no error of the stacks (23_faults_memory.md R419). -/

namespace Sys2Proof.Laws

open Sys2Proof Sys2Proof.Machine

/-- Tokens that are used change the channels and nothing else. -/
theorem useTokens_chans (o : Nat) (cost : Nat → Nat) (x : Bool) (l : List Nat) : ∀ s : State,
    ∃ k, l.foldl (fun s c => s.useTokens o c (cost c) x) s = { s with chans := k } := by
  induction l with
  | nil => exact fun s => ⟨_, rfl⟩
  | cons c l ih =>
    intro s
    obtain ⟨k, hk⟩ := ih (s.useTokens o c (cost c) x)
    exact ⟨k, hk⟩

/-- Service of an access changes the tokens of the channels and nothing else. -/
theorem serve_chans {s u : State} {o : Nat} {ps : List (Nat × Nat)} {x : Bool} (h : s.serve o ps x = some u) :
    ∃ l, u = { s with chans := l } := by
  unfold State.serve at h
  dsimp only at h
  generalize burstsOf ps = bs at h
  cases bs with
  | nil => cases h; exact ⟨_, rfl⟩
  | cons ch bs =>
    dsimp only at h
    generalize (!_ || _ : Bool) = b at h
    cases b with
    | true => cases h
    | false =>
      rw [if_neg Bool.false_ne_true, Option.map_eq_some_iff] at h
      obtain ⟨ctr, -, rfl⟩ := h
      obtain ⟨k, hk⟩ := useTokens_chans o (fun c => if x = true then 4 else (ch :: bs).count c) x (ch :: bs).eraseDups
        { s with chans := (ch, { s.chan ch with ctr := ctr }) :: s.chans.filter (·.1 ≠ ch) }
      exact ⟨k, hk⟩

/-- A read that touches no codeword with an error is a plain read. -/
theorem arrayRead_clean {s : State} {ps : List (Nat × Nat)} (f : State → State)
    (h : ∀ x ∈ s.flaws, ∀ p ∈ ps, p.1 / 32 ≤ x.1 → p.1 + p.2 ≤ 32 * x.1) : s.arrayRead ps f = f s := by
  have hit : s.flaws.filter (fun x => ps.any fun (a, n) => decide (a / 32 ≤ x.1) && decide (32 * x.1 < a + n)) = [] := by
    rw [List.filter_eq_nil_iff]
    intro x hx
    rw [List.any_eq_true]
    rintro ⟨p, hp, e⟩
    simp only [Bool.and_eq_true, decide_eq_true_eq] at e
    have := h x hx p hp e.1
    omega
  unfold State.arrayRead
  simp only [hit, List.foldl_nil, List.all_nil, if_true]

end Sys2Proof.Laws
end

