-- ==== Sys2Proof/Laws/Control.lean ====
section
/-! SUPPORT. Traps, exception codes and deferred causes (07_scalar_control.md R176 to R178, 21_faults_instructions.md R365 to R367). -/

namespace Sys2Proof.Machine

open Sys2Proof

set_option Elab.async false

/-- A capture with nothing pending and nothing outstanding leaves the core as it is. -/
theorem Core.capture_none (c : Core) (ho : c.outs = []) (hp : c.pend = []) (n) : (c.capture n).g = c.g ∧ (c.capture n).p = c.p ∧ (c.capture n).scr = c.scr ∧ (c.capture n).vmem = c.vmem ∧ (c.capture n).sb = c.sb ∧ (c.capture n).fe = c.fe ∧ (c.capture n).x = c.x ∧ (c.capture n).csr = c.csr ∧ (c.capture n).pc = c.pc ∧ (c.capture n).issue = c.issue ∧ (c.capture n).stopped = c.stopped ∧ (c.capture n).compo = c.compo := by
  have h := Core.kept_capture hp n
  exact ⟨h.g ho, h.p, h.scr, h.vmem, h.sb, h.fe, h.x, h.csr, h.pc, h.issue, h.stopped, h.compo⟩

/-- The number of two bit fields side by side. -/
theorem append_toNat {a b : Nat} (x : BitVec a) (y : BitVec b) : (x ++ y).toNat = x.toNat * 2 ^ b + y.toNat := by
  rw [BitVec.toNat_append, ← Nat.shiftLeft_add_eq_or_of_lt y.isLt, Nat.shiftLeft_eq]

/-- The code field of ecause, as a number (R366, R386). -/
theorem Exc.code_toNat (e : Exc) : e.code.toNat = if (0x12 ≤ e.cls.toNat ∧ e.cls.toNat ≤ 0x1C) ∨ (0x20 ≤ e.cls.toNat ∧ e.cls.toNat ≤ 0x23) ∨
      e.cls = 0x30 ∨ e.cls = 0x31 then e.mj.toNat * 64 else 0 := by
  unfold Exc.code
  by_cases h : (0x12 ≤ e.cls.toNat ∧ e.cls.toNat ≤ 0x1C) ∨ (0x20 ≤ e.cls.toNat ∧ e.cls.toNat ≤ 0x23) ∨
      e.cls = 0x30 ∨ e.cls = 0x31
  · rw [if_pos h, if_pos]
    · rw [append_toNat]; rfl
    · simp only [Bool.or_eq_true, Bool.and_eq_true, decide_eq_true_eq]; tauto
  · rw [if_neg h, if_neg]
    · rfl
    · simp only [Bool.or_eq_true, Bool.and_eq_true, decide_eq_true_eq]; tauto

/-- ecause as a number: class below, code above (R172). -/
theorem cause_toNat (c : BitVec 12) (k : BitVec 8) : ((0 : BitVec 4) ++ c ++ (0 : BitVec 8) ++ k).toNat = k.toNat + c.toNat * 65536 := by
  rw [append_toNat, append_toNat, append_toNat]
  rw [show (0 : BitVec 4).toNat = 0 from rfl, show (0 : BitVec 8).toNat = 0 from rfl]
  omega

/-- What moving past a packet leaves alone. -/
theorem Core.advance_keeps (c : Core) : c.advance.pend = c.pend ∧ c.advance.outs = c.outs ∧ c.advance.g = c.g ∧ c.advance.p = c.p ∧ c.advance.scr = c.scr ∧ c.advance.vmem = c.vmem ∧ c.advance.csr.evec = c.csr.evec ∧ c.advance.csr.level = c.csr.level ∧ c.advance.ahead = c.ahead := by
  unfold Core.advance; dsimp only; split
  · split <;> exact ⟨rfl, rfl, rfl, rfl, rfl, rfl, rfl, rfl, rfl⟩
  · exact ⟨rfl, rfl, rfl, rfl, rfl, rfl, rfl, rfl, rfl⟩

/-- Moving past a packet leaves what is owed alone. -/
theorem Core.advance_owes (c : Core) : c.advance.owesRemote = c.owesRemote := by
  unfold Core.owesRemote; rw [(Core.advance_keeps c).2.1]

/-- A trap that owes no access makes its entry at the next boundary (R176, R177). -/
theorem Core.trapTo_now (c : Core) (cls : BitVec 8) (code : BitVec 12) (ho : c.owesRemote = false) :
    c.trapTo cls code = { (c.advance.capture 1).enter cls code 0 with issue := { ((c.advance.capture 1).enter cls code 0).issue with taken := true } } := by
  unfold Core.trapTo; dsimp only; rw [Core.advance_owes, ho]; rfl

/-- The registers of a trap with no write pending (R176, R177). -/
theorem Core.trapTo_registers (c : Core) (cls : BitVec 8) (code : BitVec 12) (hp : c.pend = []) (ho : c.owesRemote = false) : (c.trapTo cls code).pc = c.csr.evec.toNat * 4096 + 64 * cls.toNat ∧
      (c.trapTo cls code).csr.level = c.csr.level + 1 ∧ (c.trapTo cls code).csr.plev = c.csr.level ∧
      (c.trapTo cls code).csr.epc = BitVec.ofNat 17 (c.advance.pc / 4) ∧
      (c.trapTo cls code).csr.ecause = (0 : BitVec 4) ++ code ++ (0 : BitVec 8) ++ cls ∧ (c.trapTo cls code).csr.einfo = 0 ∧
      (c.trapTo cls code).csr.tlpcnt = c.advance.csr.lpcnt ∧ (c.trapTo cls code).csr.lpcnt = 0 ∧
      (c.pend = [] → c.outs = [] → (c.trapTo cls code).g = c.g ∧ (c.trapTo cls code).p = c.p ∧ (c.trapTo cls code).scr = c.scr ∧ (c.trapTo cls code).vmem = c.vmem) := by
  obtain ⟨ap, ao, ag, app, as, av, ae, al, ah⟩ := Core.advance_keeps c
  have k := Core.kept_capture (c := c.advance) (ap.trans hp) 1
  have e : ((c.advance).capture 1).csr.level = c.csr.level := by rw [k.csr, al]
  simp only [Core.trapTo_now c cls code ho]
  generalize c.advance.capture 1 = d at k e ⊢
  refine ⟨?_, ?_, ?_, ?_, rfl, rfl, ?_, rfl, ?_⟩
  · show Core.vector _ _ = _
    unfold Core.vector; rw [k.csr, ae]
  · show d.csr.level + 1 = _; rw [e]
  · exact e
  · show BitVec.ofNat 17 (d.pc / 4) = _; rw [k.pc]
  · show d.csr.lpcnt = _; rw [k.csr]
  · intro _ ho
    refine ⟨?_, ?_, ?_, ?_⟩
    · show d.g = c.g; rw [k.g (ao.trans ho), ag]
    · show d.p = c.p; rw [k.p, app]
    · show d.scr = c.scr; rw [k.scr, as]
    · show d.vmem = c.vmem; rw [k.vmem, av]

/-- A trap leaves run-ahead as it is. -/
theorem Core.trapTo_ahead (c : Core) (cls : BitVec 8) (code : BitVec 12) (ho : c.owesRemote = false) :
    (c.trapTo cls code).ahead = c.ahead := by
  obtain ⟨ap, ao, ag, app, as, av, ae, al, ah⟩ := Core.advance_keeps c
  simp only [Core.trapTo_now c cls code ho, Core.enter_ahead, Core.capture_ahead, ah]

/-- The first deferred cause when none has a lower rank (R365). -/
theorem firstDeferred_head (d : Deferred) (l : List Deferred) (h : ∀ x ∈ l, d.rank ≤ x.rank) : firstDeferred (d :: l) = some (d, l) := by
  have hr : d.rank = 1 ∨ d.rank = 2 ∨ d.rank = 3 ∨ d.rank = 4 ∨ d.rank = 5 := by cases d <;> simp [Deferred.rank]
  have no : ∀ r, r < d.rank → (d :: l).find? (fun d => d.rank == r) = none := by
    intro r hr
    rw [List.find?_eq_none]
    intro x hx
    rcases List.mem_cons.1 hx with rfl | hx
    · simp; omega
    · have := h x hx; simp; omega
  have yes : (d :: l).find? (fun x => x.rank == d.rank) = some d := by simp
  have : [1, 2, 3, 4, 5].findSome? (fun r => (d :: l).find? fun d => d.rank == r) = some d := by
    rcases hr with h | h | h | h | h <;> rw [h] at yes no
    · simp only [List.findSome?_cons, yes]
    · simp only [List.findSome?_cons, yes, no 1 (by decide)]
    · simp only [List.findSome?_cons, yes, no 1 (by decide), no 2 (by decide)]
    · simp only [List.findSome?_cons, yes, no 1 (by decide), no 2 (by decide), no 3 (by decide)]
    · simp only [List.findSome?_cons, yes, no 1 (by decide), no 2 (by decide), no 3 (by decide), no 4 (by decide)]
  unfold firstDeferred
  rw [this]; simp

end Sys2Proof.Machine
end

