-- ==== Sys2Proof/Laws/Encoding.lean ====
section
/-! SUPPORT. The fields of a word that each format packs (06_encoding.md R137), and that
decoding the word of a well-formed instruction gives the instruction back. -/

namespace Sys2Proof

/-! ## Fields of packed words -/

/-- A field of a word is known by its value. -/
theorem fld_eq {w : IWord} {lo n : Nat} {x : BitVec n} (h : w.toNat / 2 ^ lo % 2 ^ n = x.toNat) :
    fld w lo n = x := by
  apply BitVec.eq_of_toNat_eq
  simp [fld, Nat.shiftRight_eq_div_pow, h]

/-- The value of a concatenation. -/
theorem toNat_app {a b : Nat} (x : BitVec a) (y : BitVec b) :
    (x ++ y).toNat = x.toNat * 2 ^ b + y.toNat := by
  rw [BitVec.toNat_append, Nat.shiftLeft_eq, Nat.mul_comm, Nat.two_pow_add_eq_or_of_lt y.isLt]

/-- The bit of a Bool is the Bool. -/
@[simp] theorem bit_beq (b : Bool) : (bit b == 1#1) = b := by cases b <;> rfl

@[simp] theorem bit_eq (b : Bool) : bit b = 1#1 ↔ b = true := by cases b <;> simp [bit]

/-- The value of a word of format SR. -/
theorem packSR_toNat (mj rd ra rb mn) :
    (packSR mj rd ra rb mn).toNat = mj.toNat * 2 ^ 25 + rd.toNat * 2 ^ 19 + ra.toNat * 2 ^ 13 + rb.toNat * 2 ^ 7 + mn.toNat := by
  simp only [packSR, toNat_app]; simp; omega
@[simp] theorem packSR_major (mj rd ra rb mn) : major (packSR mj rd ra rb mn) = mj :=
  fld_eq (by rw [packSR_toNat]; omega)
@[simp] theorem packSR_fld_19_6 (mj rd ra rb mn) : fld (packSR mj rd ra rb mn) 19 6 = rd :=
  fld_eq (by rw [packSR_toNat]; omega)
@[simp] theorem packSR_fld_13_6 (mj rd ra rb mn) : fld (packSR mj rd ra rb mn) 13 6 = ra :=
  fld_eq (by rw [packSR_toNat]; omega)
@[simp] theorem packSR_fld_7_6 (mj rd ra rb mn) : fld (packSR mj rd ra rb mn) 7 6 = rb :=
  fld_eq (by rw [packSR_toNat]; omega)
@[simp] theorem packSR_fld_0_7 (mj rd ra rb mn) : fld (packSR mj rd ra rb mn) 0 7 = mn :=
  fld_eq (by rw [packSR_toNat]; omega)
/-- The value of a word of format SI. -/
theorem packSI_toNat (mj rd ra imm m) :
    (packSI mj rd ra imm m).toNat = mj.toNat * 2 ^ 25 + rd.toNat * 2 ^ 19 + ra.toNat * 2 ^ 13 + imm.toNat * 2 ^ 1 + m.toNat := by
  simp only [packSI, toNat_app]; simp; omega
@[simp] theorem packSI_major (mj rd ra imm m) : major (packSI mj rd ra imm m) = mj :=
  fld_eq (by rw [packSI_toNat]; omega)
@[simp] theorem packSI_fld_19_6 (mj rd ra imm m) : fld (packSI mj rd ra imm m) 19 6 = rd :=
  fld_eq (by rw [packSI_toNat]; omega)
@[simp] theorem packSI_fld_13_6 (mj rd ra imm m) : fld (packSI mj rd ra imm m) 13 6 = ra :=
  fld_eq (by rw [packSI_toNat]; omega)
@[simp] theorem packSI_fld_1_12 (mj rd ra imm m) : fld (packSI mj rd ra imm m) 1 12 = imm :=
  fld_eq (by rw [packSI_toNat]; omega)
@[simp] theorem packSI_fld_0_1 (mj rd ra imm m) : fld (packSI mj rd ra imm m) 0 1 = m :=
  fld_eq (by rw [packSI_toNat]; omega)
/-- The value of a word of format SB. -/
theorem packSB_toNat (mj p mn d) :
    (packSB mj p mn d).toNat = mj.toNat * 2 ^ 25 + p.toNat * 2 ^ 22 + mn.toNat * 2 ^ 19 + d.toNat := by
  simp only [packSB, toNat_app]; simp; omega
@[simp] theorem packSB_major (mj p mn d) : major (packSB mj p mn d) = mj :=
  fld_eq (by rw [packSB_toNat]; omega)
@[simp] theorem packSB_fld_22_3 (mj p mn d) : fld (packSB mj p mn d) 22 3 = p :=
  fld_eq (by rw [packSB_toNat]; omega)
@[simp] theorem packSB_fld_19_3 (mj p mn d) : fld (packSB mj p mn d) 19 3 = mn :=
  fld_eq (by rw [packSB_toNat]; omega)
@[simp] theorem packSB_fld_0_19 (mj p mn d) : fld (packSB mj p mn d) 0 19 = d :=
  fld_eq (by rw [packSB_toNat]; omega)
/-- The value of a word of format SL. -/
theorem packSL_toNat (mj rt ga d mn) :
    (packSL mj rt ga d mn).toNat = mj.toNat * 2 ^ 25 + rt.toNat * 2 ^ 19 + ga.toNat * 2 ^ 13 + d.toNat * 2 ^ 3 + mn.toNat := by
  simp only [packSL, toNat_app]; simp; omega
@[simp] theorem packSL_major (mj rt ga d mn) : major (packSL mj rt ga d mn) = mj :=
  fld_eq (by rw [packSL_toNat]; omega)
@[simp] theorem packSL_fld_19_6 (mj rt ga d mn) : fld (packSL mj rt ga d mn) 19 6 = rt :=
  fld_eq (by rw [packSL_toNat]; omega)
@[simp] theorem packSL_fld_13_6 (mj rt ga d mn) : fld (packSL mj rt ga d mn) 13 6 = ga :=
  fld_eq (by rw [packSL_toNat]; omega)
@[simp] theorem packSL_fld_3_10 (mj rt ga d mn) : fld (packSL mj rt ga d mn) 3 10 = d :=
  fld_eq (by rw [packSL_toNat]; omega)
@[simp] theorem packSL_fld_0_3 (mj rt ga d mn) : fld (packSL mj rt ga d mn) 0 3 = mn :=
  fld_eq (by rw [packSL_toNat]; omega)
/-- The value of a word of format VV, layouts A and B. -/
theorem packV_toNat (mj a b c d e) :
    (packV mj a b c d e).toNat = mj.toNat * 2 ^ 25 + a.toNat * 2 ^ 20 + b.toNat * 2 ^ 15 + c.toNat * 2 ^ 10 + d.toNat * 2 ^ 5 + e.toNat := by
  simp only [packV, toNat_app]; simp; omega
@[simp] theorem packV_major (mj a b c d e) : major (packV mj a b c d e) = mj :=
  fld_eq (by rw [packV_toNat]; omega)
@[simp] theorem packV_fld_20_5 (mj a b c d e) : fld (packV mj a b c d e) 20 5 = a :=
  fld_eq (by rw [packV_toNat]; omega)
@[simp] theorem packV_fld_15_5 (mj a b c d e) : fld (packV mj a b c d e) 15 5 = b :=
  fld_eq (by rw [packV_toNat]; omega)
@[simp] theorem packV_fld_10_5 (mj a b c d e) : fld (packV mj a b c d e) 10 5 = c :=
  fld_eq (by rw [packV_toNat]; omega)
@[simp] theorem packV_fld_5_5 (mj a b c d e) : fld (packV mj a b c d e) 5 5 = d :=
  fld_eq (by rw [packV_toNat]; omega)
@[simp] theorem packV_fld_0_5 (mj a b c d e) : fld (packV mj a b c d e) 0 5 = e :=
  fld_eq (by rw [packV_toNat]; omega)
/-- The value of a word of format VV, layout C. -/
theorem packVC_toNat (mj vd va dt st rm s z) :
    (packVC mj vd va dt st rm s z).toNat = mj.toNat * 2 ^ 25 + vd.toNat * 2 ^ 20 + va.toNat * 2 ^ 15 + dt.toNat * 2 ^ 10 + st.toNat * 2 ^ 5 + rm.toNat * 2 ^ 2 + s.toNat * 2 ^ 1 + z.toNat := by
  simp only [packVC, toNat_app]; simp; omega
@[simp] theorem packVC_major (mj vd va dt st rm s z) : major (packVC mj vd va dt st rm s z) = mj :=
  fld_eq (by rw [packVC_toNat]; omega)
@[simp] theorem packVC_fld_20_5 (mj vd va dt st rm s z) : fld (packVC mj vd va dt st rm s z) 20 5 = vd :=
  fld_eq (by rw [packVC_toNat]; omega)
@[simp] theorem packVC_fld_15_5 (mj vd va dt st rm s z) : fld (packVC mj vd va dt st rm s z) 15 5 = va :=
  fld_eq (by rw [packVC_toNat]; omega)
@[simp] theorem packVC_fld_10_5 (mj vd va dt st rm s z) : fld (packVC mj vd va dt st rm s z) 10 5 = dt :=
  fld_eq (by rw [packVC_toNat]; omega)
@[simp] theorem packVC_fld_5_5 (mj vd va dt st rm s z) : fld (packVC mj vd va dt st rm s z) 5 5 = st :=
  fld_eq (by rw [packVC_toNat]; omega)
@[simp] theorem packVC_fld_2_3 (mj vd va dt st rm s z) : fld (packVC mj vd va dt st rm s z) 2 3 = rm :=
  fld_eq (by rw [packVC_toNat]; omega)
@[simp] theorem packVC_fld_1_1 (mj vd va dt st rm s z) : fld (packVC mj vd va dt st rm s z) 1 1 = s :=
  fld_eq (by rw [packVC_toNat]; omega)
@[simp] theorem packVC_fld_0_1 (mj vd va dt st rm s z) : fld (packVC mj vd va dt st rm s z) 0 1 = z :=
  fld_eq (by rw [packVC_toNat]; omega)
/-- The value of a word of format VV, layout D. -/
theorem packVD_toNat (mj vd va vs dt rm m z) :
    (packVD mj vd va vs dt rm m z).toNat = mj.toNat * 2 ^ 25 + vd.toNat * 2 ^ 20 + va.toNat * 2 ^ 15 + vs.toNat * 2 ^ 10 + dt.toNat * 2 ^ 5 + rm.toNat * 2 ^ 2 + m.toNat * 2 ^ 1 + z.toNat := by
  simp only [packVD, toNat_app]; simp; omega
@[simp] theorem packVD_major (mj vd va vs dt rm m z) : major (packVD mj vd va vs dt rm m z) = mj :=
  fld_eq (by rw [packVD_toNat]; omega)
@[simp] theorem packVD_fld_20_5 (mj vd va vs dt rm m z) : fld (packVD mj vd va vs dt rm m z) 20 5 = vd :=
  fld_eq (by rw [packVD_toNat]; omega)
@[simp] theorem packVD_fld_15_5 (mj vd va vs dt rm m z) : fld (packVD mj vd va vs dt rm m z) 15 5 = va :=
  fld_eq (by rw [packVD_toNat]; omega)
@[simp] theorem packVD_fld_10_5 (mj vd va vs dt rm m z) : fld (packVD mj vd va vs dt rm m z) 10 5 = vs :=
  fld_eq (by rw [packVD_toNat]; omega)
@[simp] theorem packVD_fld_5_5 (mj vd va vs dt rm m z) : fld (packVD mj vd va vs dt rm m z) 5 5 = dt :=
  fld_eq (by rw [packVD_toNat]; omega)
@[simp] theorem packVD_fld_2_3 (mj vd va vs dt rm m z) : fld (packVD mj vd va vs dt rm m z) 2 3 = rm :=
  fld_eq (by rw [packVD_toNat]; omega)
@[simp] theorem packVD_fld_1_1 (mj vd va vs dt rm m z) : fld (packVD mj vd va vs dt rm m z) 1 1 = m :=
  fld_eq (by rw [packVD_toNat]; omega)
@[simp] theorem packVD_fld_0_1 (mj vd va vs dt rm m z) : fld (packVD mj vd va vs dt rm m z) 0 1 = z :=
  fld_eq (by rw [packVD_toNat]; omega)
/-- The value of a word of format VI. -/
theorem packVI_toNat (mj vd mn imm) :
    (packVI mj vd mn imm).toNat = mj.toNat * 2 ^ 25 + vd.toNat * 2 ^ 20 + mn.toNat * 2 ^ 16 + imm.toNat := by
  simp only [packVI, toNat_app]; simp; omega
@[simp] theorem packVI_major (mj vd mn imm) : major (packVI mj vd mn imm) = mj :=
  fld_eq (by rw [packVI_toNat]; omega)
@[simp] theorem packVI_fld_20_5 (mj vd mn imm) : fld (packVI mj vd mn imm) 20 5 = vd :=
  fld_eq (by rw [packVI_toNat]; omega)
@[simp] theorem packVI_fld_16_4 (mj vd mn imm) : fld (packVI mj vd mn imm) 16 4 = mn :=
  fld_eq (by rw [packVI_toNat]; omega)
@[simp] theorem packVI_fld_0_16 (mj vd mn imm) : fld (packVI mj vd mn imm) 0 16 = imm :=
  fld_eq (by rw [packVI_toNat]; omega)
/-- The value of a word of format MX. -/
theorem packMX_toNat (mj af t1 t2 ctl) :
    (packMX mj af t1 t2 ctl).toNat = mj.toNat * 2 ^ 25 + af.toNat * 2 ^ 22 + t1.toNat * 2 ^ 16 + t2.toNat * 2 ^ 10 + ctl.toNat := by
  simp only [packMX, toNat_app]; simp; omega
@[simp] theorem packMX_major (mj af t1 t2 ctl) : major (packMX mj af t1 t2 ctl) = mj :=
  fld_eq (by rw [packMX_toNat]; omega)
@[simp] theorem packMX_fld_22_3 (mj af t1 t2 ctl) : fld (packMX mj af t1 t2 ctl) 22 3 = af :=
  fld_eq (by rw [packMX_toNat]; omega)
@[simp] theorem packMX_fld_16_6 (mj af t1 t2 ctl) : fld (packMX mj af t1 t2 ctl) 16 6 = t1 :=
  fld_eq (by rw [packMX_toNat]; omega)
@[simp] theorem packMX_fld_10_6 (mj af t1 t2 ctl) : fld (packMX mj af t1 t2 ctl) 10 6 = t2 :=
  fld_eq (by rw [packMX_toNat]; omega)
@[simp] theorem packMX_fld_0_10 (mj af t1 t2 ctl) : fld (packMX mj af t1 t2 ctl) 0 10 = ctl :=
  fld_eq (by rw [packMX_toNat]; omega)
/-- The value of a word of format CX. -/
theorem packCX_toNat (mj ga gb gc sub mn) :
    (packCX mj ga gb gc sub mn).toNat = mj.toNat * 2 ^ 25 + ga.toNat * 2 ^ 19 + gb.toNat * 2 ^ 13 + gc.toNat * 2 ^ 7 + sub.toNat * 2 ^ 2 + mn.toNat := by
  simp only [packCX, toNat_app]; simp; omega
@[simp] theorem packCX_major (mj ga gb gc sub mn) : major (packCX mj ga gb gc sub mn) = mj :=
  fld_eq (by rw [packCX_toNat]; omega)
@[simp] theorem packCX_fld_19_6 (mj ga gb gc sub mn) : fld (packCX mj ga gb gc sub mn) 19 6 = ga :=
  fld_eq (by rw [packCX_toNat]; omega)
@[simp] theorem packCX_fld_13_6 (mj ga gb gc sub mn) : fld (packCX mj ga gb gc sub mn) 13 6 = gb :=
  fld_eq (by rw [packCX_toNat]; omega)
@[simp] theorem packCX_fld_7_6 (mj ga gb gc sub mn) : fld (packCX mj ga gb gc sub mn) 7 6 = gc :=
  fld_eq (by rw [packCX_toNat]; omega)
@[simp] theorem packCX_fld_2_5 (mj ga gb gc sub mn) : fld (packCX mj ga gb gc sub mn) 2 5 = sub :=
  fld_eq (by rw [packCX_toNat]; omega)
@[simp] theorem packCX_fld_0_2 (mj ga gb gc sub mn) : fld (packCX mj ga gb gc sub mn) 0 2 = mn :=
  fld_eq (by rw [packCX_toNat]; omega)
/-- The value of a word of format HW. -/
theorem packHW_toNat (mj p) :
    (packHW mj p).toNat = mj.toNat * 2 ^ 25 + p.toNat := by
  simp only [packHW, toNat_app]; simp
@[simp] theorem packHW_major (mj p) : major (packHW mj p) = mj :=
  fld_eq (by rw [packHW_toNat]; omega)
@[simp] theorem packHW_fld_0_25 (mj p) : fld (packHW mj p) 0 25 = p :=
  fld_eq (by rw [packHW_toNat]; omega)

/-! ## Fields inside fields -/

@[simp] theorem packSR_rd_33_22_3 (mj ra rb mn) (x : BitVec 3) (y : BitVec 3) :
    fld (packSR mj (x ++ y) ra rb mn) 22 3 = x :=
  fld_eq (by rw [packSR_toNat]; simp only [toNat_app]; simp; omega)
@[simp] theorem packSR_rd_33_19_3 (mj ra rb mn) (x : BitVec 3) (y : BitVec 3) :
    fld (packSR mj (x ++ y) ra rb mn) 19 3 = y :=
  fld_eq (by rw [packSR_toNat]; simp only [toNat_app]; simp; omega)
@[simp] theorem packSI_rd_33_22_3 (mj ra imm m) (x : BitVec 3) (y : BitVec 3) :
    fld (packSI mj (x ++ y) ra imm m) 22 3 = x :=
  fld_eq (by rw [packSI_toNat]; simp only [toNat_app]; simp; omega)
@[simp] theorem packSI_rd_33_19_3 (mj ra imm m) (x : BitVec 3) (y : BitVec 3) :
    fld (packSI mj (x ++ y) ra imm m) 19 3 = y :=
  fld_eq (by rw [packSI_toNat]; simp only [toNat_app]; simp; omega)
@[simp] theorem packSI_imm_66_9_4 (mj rd ra m) (x : BitVec 6) (y : BitVec 6) :
    fld (packSI mj rd ra (x ++ y) m) 9 4 = x.extractLsb' 2 4 :=
  fld_eq (by rw [packSI_toNat]; simp only [toNat_app]; simp; omega)
@[simp] theorem packSI_imm_66_1_6 (mj rd ra m) (x : BitVec 6) (y : BitVec 6) :
    fld (packSI mj rd ra (x ++ y) m) 1 6 = y :=
  fld_eq (by rw [packSI_toNat]; simp only [toNat_app]; simp; omega)
@[simp] theorem packSI_imm_66_7_2 (mj rd ra m) (x : BitVec 6) (y : BitVec 6) :
    fld (packSI mj rd ra (x ++ y) m) 7 2 = x.extractLsb' 0 2 :=
  fld_eq (by rw [packSI_toNat]; simp only [toNat_app]; simp; omega)
@[simp] theorem packSI_imm_453_1_3 (mj rd ra m) (x : BitVec 4) (y : BitVec 5) (z : BitVec 3) :
    fld (packSI mj rd ra (x ++ y ++ z) m) 1 3 = z :=
  fld_eq (by rw [packSI_toNat]; simp only [toNat_app]; simp; omega)
@[simp] theorem packSI_imm_453_4_5 (mj rd ra m) (x : BitVec 4) (y : BitVec 5) (z : BitVec 3) :
    fld (packSI mj rd ra (x ++ y ++ z) m) 4 5 = y :=
  fld_eq (by rw [packSI_toNat]; simp only [toNat_app]; simp; omega)
@[simp] theorem packSI_imm_453_9_4 (mj rd ra m) (x : BitVec 4) (y : BitVec 5) (z : BitVec 3) :
    fld (packSI mj rd ra (x ++ y ++ z) m) 9 4 = x :=
  fld_eq (by rw [packSI_toNat]; simp only [toNat_app]; simp; omega)
/-- The long immediate of `movi` (R166). -/
@[simp] theorem packSI_long (mj rd m) (imm : BitVec 18) :
    fld (packSI mj rd (imm.extractLsb' 12 6) (imm.extractLsb' 0 12) m) 1 18 = imm :=
  fld_eq (by
    rw [packSI_toNat]
    simp only [BitVec.extractLsb'_toNat, Nat.shiftRight_eq_div_pow]
    omega)
@[simp] theorem packV_c_32_10_2 (mj a b d e) (x : BitVec 3) (y : BitVec 2) :
    fld (packV mj a b (x ++ y) d e) 10 2 = y :=
  fld_eq (by rw [packV_toNat]; simp only [toNat_app]; simp; omega)
@[simp] theorem packV_c_32_12_3 (mj a b d e) (x : BitVec 3) (y : BitVec 2) :
    fld (packV mj a b (x ++ y) d e) 12 3 = x :=
  fld_eq (by rw [packV_toNat]; simp only [toNat_app]; simp; omega)
/-- The low five bits of a word of this layout. -/
theorem packVC_low (mj vd va dt st rm s z) : fld (packVC mj vd va dt st rm s z) 0 5 = rm ++ s ++ z :=
  fld_eq (by rw [packVC_toNat]; simp only [toNat_app]; simp; omega)
/-- The low five bits of a word of this layout. -/
theorem packVD_low (mj vd va vs dt rm m z) : fld (packVD mj vd va vs dt rm m z) 0 5 = rm ++ m ++ z :=
  fld_eq (by rw [packVD_toNat]; simp only [toNat_app]; simp; omega)
@[simp] theorem packVI_imm_664_10_6 (mj vd mn) (x : BitVec 6) (y : BitVec 6) (z : BitVec 4) :
    fld (packVI mj vd mn (x ++ y ++ z)) 10 6 = x :=
  fld_eq (by rw [packVI_toNat]; simp only [toNat_app]; simp; omega)
@[simp] theorem packVI_imm_664_4_6 (mj vd mn) (x : BitVec 6) (y : BitVec 6) (z : BitVec 4) :
    fld (packVI mj vd mn (x ++ y ++ z)) 4 6 = y :=
  fld_eq (by rw [packVI_toNat]; simp only [toNat_app]; simp; omega)
@[simp] theorem packVI_imm_664_0_4 (mj vd mn) (x : BitVec 6) (y : BitVec 6) (z : BitVec 4) :
    fld (packVI mj vd mn (x ++ y ++ z)) 0 4 = z :=
  fld_eq (by rw [packVI_toNat]; simp only [toNat_app]; simp; omega)
@[simp] theorem packMX_ctl_11111113_9_1 (mj af t1 t2) (sa : BitVec 1) (sb : BitVec 1) (sat : BitVec 1) (acc : BitVec 1) (fd : BitVec 1) (rs : BitVec 1) (cs : BitVec 1) (sv : BitVec 3) :
    fld (packMX mj af t1 t2 (sa ++ sb ++ sat ++ acc ++ fd ++ rs ++ cs ++ sv)) 9 1 = sa :=
  fld_eq (by rw [packMX_toNat]; simp only [toNat_app]; simp; omega)
@[simp] theorem packMX_ctl_11111113_8_1 (mj af t1 t2) (sa : BitVec 1) (sb : BitVec 1) (sat : BitVec 1) (acc : BitVec 1) (fd : BitVec 1) (rs : BitVec 1) (cs : BitVec 1) (sv : BitVec 3) :
    fld (packMX mj af t1 t2 (sa ++ sb ++ sat ++ acc ++ fd ++ rs ++ cs ++ sv)) 8 1 = sb :=
  fld_eq (by rw [packMX_toNat]; simp only [toNat_app]; simp; omega)
@[simp] theorem packMX_ctl_11111113_7_1 (mj af t1 t2) (sa : BitVec 1) (sb : BitVec 1) (sat : BitVec 1) (acc : BitVec 1) (fd : BitVec 1) (rs : BitVec 1) (cs : BitVec 1) (sv : BitVec 3) :
    fld (packMX mj af t1 t2 (sa ++ sb ++ sat ++ acc ++ fd ++ rs ++ cs ++ sv)) 7 1 = sat :=
  fld_eq (by rw [packMX_toNat]; simp only [toNat_app]; simp; omega)
@[simp] theorem packMX_ctl_11111113_6_1 (mj af t1 t2) (sa : BitVec 1) (sb : BitVec 1) (sat : BitVec 1) (acc : BitVec 1) (fd : BitVec 1) (rs : BitVec 1) (cs : BitVec 1) (sv : BitVec 3) :
    fld (packMX mj af t1 t2 (sa ++ sb ++ sat ++ acc ++ fd ++ rs ++ cs ++ sv)) 6 1 = acc :=
  fld_eq (by rw [packMX_toNat]; simp only [toNat_app]; simp; omega)
@[simp] theorem packMX_ctl_11111113_5_1 (mj af t1 t2) (sa : BitVec 1) (sb : BitVec 1) (sat : BitVec 1) (acc : BitVec 1) (fd : BitVec 1) (rs : BitVec 1) (cs : BitVec 1) (sv : BitVec 3) :
    fld (packMX mj af t1 t2 (sa ++ sb ++ sat ++ acc ++ fd ++ rs ++ cs ++ sv)) 5 1 = fd :=
  fld_eq (by rw [packMX_toNat]; simp only [toNat_app]; simp; omega)
@[simp] theorem packMX_ctl_11111113_4_1 (mj af t1 t2) (sa : BitVec 1) (sb : BitVec 1) (sat : BitVec 1) (acc : BitVec 1) (fd : BitVec 1) (rs : BitVec 1) (cs : BitVec 1) (sv : BitVec 3) :
    fld (packMX mj af t1 t2 (sa ++ sb ++ sat ++ acc ++ fd ++ rs ++ cs ++ sv)) 4 1 = rs :=
  fld_eq (by rw [packMX_toNat]; simp only [toNat_app]; simp; omega)
@[simp] theorem packMX_ctl_11111113_3_1 (mj af t1 t2) (sa : BitVec 1) (sb : BitVec 1) (sat : BitVec 1) (acc : BitVec 1) (fd : BitVec 1) (rs : BitVec 1) (cs : BitVec 1) (sv : BitVec 3) :
    fld (packMX mj af t1 t2 (sa ++ sb ++ sat ++ acc ++ fd ++ rs ++ cs ++ sv)) 3 1 = cs :=
  fld_eq (by rw [packMX_toNat]; simp only [toNat_app]; simp; omega)
@[simp] theorem packMX_ctl_11111113_0_3 (mj af t1 t2) (sa : BitVec 1) (sb : BitVec 1) (sat : BitVec 1) (acc : BitVec 1) (fd : BitVec 1) (rs : BitVec 1) (cs : BitVec 1) (sv : BitVec 3) :
    fld (packMX mj af t1 t2 (sa ++ sb ++ sat ++ acc ++ fd ++ rs ++ cs ++ sv)) 0 3 = sv :=
  fld_eq (by rw [packMX_toNat]; simp only [toNat_app]; simp; omega)
@[simp] theorem packMX_ctl_28_8_2 (mj af t1 t2) (x : BitVec 2) (y : BitVec 8) :
    fld (packMX mj af t1 t2 (x ++ y)) 8 2 = x :=
  fld_eq (by rw [packMX_toNat]; simp only [toNat_app]; simp; omega)
@[simp] theorem packMX_ctl_28_0_8 (mj af t1 t2) (x : BitVec 2) (y : BitVec 8) :
    fld (packMX mj af t1 t2 (x ++ y)) 0 8 = y :=
  fld_eq (by rw [packMX_toNat]; simp only [toNat_app]; simp; omega)
@[simp] theorem packMX_ctl_64_8_2 (mj af t1 t2) (x : BitVec 6) (y : BitVec 4) :
    fld (packMX mj af t1 t2 (x ++ y)) 8 2 = x.extractLsb' 4 2 :=
  fld_eq (by rw [packMX_toNat]; simp only [toNat_app]; simp; omega)
@[simp] theorem packMX_ctl_64_4_4 (mj af t1 t2) (x : BitVec 6) (y : BitVec 4) :
    fld (packMX mj af t1 t2 (x ++ y)) 4 4 = x.extractLsb' 0 4 :=
  fld_eq (by rw [packMX_toNat]; simp only [toNat_app]; simp; omega)
@[simp] theorem packMX_ctl_64_0_4 (mj af t1 t2) (x : BitVec 6) (y : BitVec 4) :
    fld (packMX mj af t1 t2 (x ++ y)) 0 4 = y :=
  fld_eq (by rw [packMX_toNat]; simp only [toNat_app]; simp; omega)
@[simp] theorem packMX_ctl_5311_5_5 (mj af t1 t2) (x : BitVec 5) (y : BitVec 3) (z : BitVec 1) (u : BitVec 1) :
    fld (packMX mj af t1 t2 (x ++ y ++ z ++ u)) 5 5 = x :=
  fld_eq (by rw [packMX_toNat]; simp only [toNat_app]; simp; omega)
@[simp] theorem packMX_ctl_5311_2_3 (mj af t1 t2) (x : BitVec 5) (y : BitVec 3) (z : BitVec 1) (u : BitVec 1) :
    fld (packMX mj af t1 t2 (x ++ y ++ z ++ u)) 2 3 = y :=
  fld_eq (by rw [packMX_toNat]; simp only [toNat_app]; simp; omega)
@[simp] theorem packMX_ctl_5311_1_1 (mj af t1 t2) (x : BitVec 5) (y : BitVec 3) (z : BitVec 1) (u : BitVec 1) :
    fld (packMX mj af t1 t2 (x ++ y ++ z ++ u)) 1 1 = z :=
  fld_eq (by rw [packMX_toNat]; simp only [toNat_app]; simp; omega)
@[simp] theorem packMX_ctl_5311_0_1 (mj af t1 t2) (x : BitVec 5) (y : BitVec 3) (z : BitVec 1) (u : BitVec 1) :
    fld (packMX mj af t1 t2 (x ++ y ++ z ++ u)) 0 1 = u :=
  fld_eq (by rw [packMX_toNat]; simp only [toNat_app]; simp; omega)
theorem packMX_ctl_8_2 (mj af t1 t2 ctl) : fld (packMX mj af t1 t2 ctl) 8 2 = ctl.extractLsb' 8 2 :=
  fld_eq (by rw [packMX_toNat]; simp only [BitVec.extractLsb'_toNat, Nat.shiftRight_eq_div_pow]; omega)
theorem packMX_ctl_0_8 (mj af t1 t2 ctl) : fld (packMX mj af t1 t2 ctl) 0 8 = ctl.extractLsb' 0 8 :=
  fld_eq (by rw [packMX_toNat]; simp only [BitVec.extractLsb'_toNat, Nat.shiftRight_eq_div_pow]; omega)
@[simp] theorem packCX_sub_32_2_2 (mj ga gb gc mn) (x : BitVec 3) (y : BitVec 2) :
    fld (packCX mj ga gb gc (x ++ y) mn) 2 2 = y :=
  fld_eq (by rw [packCX_toNat]; simp only [toNat_app]; simp; omega)
@[simp] theorem packCX_sub_32_4_3 (mj ga gb gc mn) (x : BitVec 3) (y : BitVec 2) :
    fld (packCX mj ga gb gc (x ++ y) mn) 4 3 = x :=
  fld_eq (by rw [packCX_toNat]; simp only [toNat_app]; simp; omega)
@[simp] theorem packCX_sub_23_5_2 (mj ga gb gc mn) (x : BitVec 2) (y : BitVec 3) :
    fld (packCX mj ga gb gc (x ++ y) mn) 5 2 = x :=
  fld_eq (by rw [packCX_toNat]; simp only [toNat_app]; simp; omega)
@[simp] theorem packCX_sub_23_2_3 (mj ga gb gc mn) (x : BitVec 2) (y : BitVec 3) :
    fld (packCX mj ga gb gc (x ++ y) mn) 2 3 = y :=
  fld_eq (by rw [packCX_toNat]; simp only [toNat_app]; simp; omega)
theorem packCX_sub_2_2 (mj ga gb gc sub mn) : fld (packCX mj ga gb gc sub mn) 2 2 = sub.extractLsb' 0 2 :=
  fld_eq (by rw [packCX_toNat]; simp only [BitVec.extractLsb'_toNat, Nat.shiftRight_eq_div_pow]; omega)
theorem packCX_sub_4_3 (mj ga gb gc sub mn) : fld (packCX mj ga gb gc sub mn) 4 3 = sub.extractLsb' 2 3 :=
  fld_eq (by rw [packCX_toNat]; simp only [BitVec.extractLsb'_toNat, Nat.shiftRight_eq_div_pow]; omega)
@[simp] theorem packHW_p_124_24_1 (mj ) (x : BitVec 1) (y : BitVec 24) :
    fld (packHW mj (x ++ y)) 24 1 = x :=
  fld_eq (by rw [packHW_toNat]; simp only [toNat_app]; simp; omega)
@[simp] theorem packHW_p_124_0_24 (mj ) (x : BitVec 1) (y : BitVec 24) :
    fld (packHW mj (x ++ y)) 0 24 = y :=
  fld_eq (by rw [packHW_toNat]; simp only [toNat_app]; simp; omega)
@[simp] theorem packHW_p_214_24_1 (mj ) (x : BitVec 21) (y : BitVec 4) :
    fld (packHW mj (x ++ y)) 24 1 = x.extractLsb' 20 1 :=
  fld_eq (by rw [packHW_toNat]; simp only [toNat_app]; simp; omega)
@[simp] theorem packHW_p_214_4_20 (mj ) (x : BitVec 21) (y : BitVec 4) :
    fld (packHW mj (x ++ y)) 4 20 = x.extractLsb' 0 20 :=
  fld_eq (by rw [packHW_toNat]; simp only [toNat_app]; simp; omega)
@[simp] theorem packHW_p_214_0_4 (mj ) (x : BitVec 21) (y : BitVec 4) :
    fld (packHW mj (x ++ y)) 0 4 = y :=
  fld_eq (by rw [packHW_toNat]; simp only [toNat_app]; simp; omega)
@[simp] theorem packHW_p_223_23_2 (mj ) (x : BitVec 22) (y : BitVec 3) :
    fld (packHW mj (x ++ y)) 23 2 = x.extractLsb' 20 2 :=
  fld_eq (by rw [packHW_toNat]; simp only [toNat_app]; simp; omega)
@[simp] theorem packHW_p_223_3_20 (mj ) (x : BitVec 22) (y : BitVec 3) :
    fld (packHW mj (x ++ y)) 3 20 = x.extractLsb' 0 20 :=
  fld_eq (by rw [packHW_toNat]; simp only [toNat_app]; simp; omega)
@[simp] theorem packHW_p_223_0_3 (mj ) (x : BitVec 22) (y : BitVec 3) :
    fld (packHW mj (x ++ y)) 0 3 = y :=
  fld_eq (by rw [packHW_toNat]; simp only [toNat_app]; simp; omega)

/-! ## Checked fields -/

@[simp] theorem regD_3 (x : BitVec 3) (k : BitVec 3 → Decoded) : regD 3 (0#3 ++ x) k = k x := by
  have h : (0#3 ++ x).toNat = x.toNat := by simp only [toNat_app]; simp
  have e : (0#3 ++ x).setWidth 3 = x := by apply BitVec.eq_of_toNat_eq; simp only [BitVec.toNat_setWidth, h]; omega
  have l : (0#3 ++ x).toNat < 2 ^ 3 := by rw [h]; exact x.isLt
  simp only [regD, guardD, e]
  simp only [l, decide_true, if_true]

@[simp] theorem regD_4 (x : BitVec 4) (k : BitVec 4 → Decoded) : regD 4 (0#2 ++ x) k = k x := by
  have h : (0#2 ++ x).toNat = x.toNat := by simp only [toNat_app]; simp
  have e : (0#2 ++ x).setWidth 4 = x := by apply BitVec.eq_of_toNat_eq; simp only [BitVec.toNat_setWidth, h]; omega
  have l : (0#2 ++ x).toNat < 2 ^ 4 := by rw [h]; exact x.isLt
  simp only [regD, guardD, e]
  simp only [l, decide_true, if_true]

@[simp] theorem regD_5 (x : BitVec 5) (k : BitVec 5 → Decoded) : regD 5 (0#1 ++ x) k = k x := by
  have h : (0#1 ++ x).toNat = x.toNat := by simp only [toNat_app]; simp
  have e : (0#1 ++ x).setWidth 5 = x := by apply BitVec.eq_of_toNat_eq; simp only [BitVec.toNat_setWidth, h]; omega
  have l : (0#1 ++ x).toNat < 2 ^ 5 := by rw [h]; exact x.isLt
  simp only [regD, guardD, e]
  simp only [l, decide_true, if_true]

@[simp] theorem rmD_field (r : Option RMode) (k : Option RMode → Decoded) : rmD (rmField r) k = k r := by
  cases r with
  | none => rfl
  | some r => cases r <;> rfl

@[simp] theorem typeD_code (t : EType) (k : EType → Decoded) : typeD t.code k = k t := by
  simp [typeD, fieldD, EType.ofCode_code]

end Sys2Proof
end

