-- ==== Sys2Proof/Laws/Events.lean ====
section
/-! SUPPORT. Frames of the units that act by themselves: regions, turns, functions, page requests, stacks (14_scheduling.md, 19_prog_turn.md, 23_faults_memory.md, 25_containment.md). -/

namespace Sys2Proof.Machine

open Sys2Proof

set_option Elab.async false

/-- Two changes of one entry are one. -/
theorem modAt_modAt {α : Type} (f g : α → α) : ∀ (l : List α) (k : Nat), modAt (modAt l k f) k g = modAt l k (fun a => g (f a)) := by
  intro l; induction l with
  | nil => intro k; rfl
  | cons a l ih => intro k; cases k with
    | zero => rfl
    | succ k => simp only [modAt, ih]

/-- The changed entry. -/
theorem getD_modAt {α : Type} (f : α → α) (d : α) : ∀ (l : List α) (k : Nat), k < l.length → (modAt l k f).getD k d = f (l.getD k d) := by
  intro l; induction l with
  | nil => intro k h; simp at h
  | cons a l ih => intro k h; cases k with
    | zero => rfl
    | succ k => simp only [modAt, List.getD_cons_succ]; exact ih k (by simpa using h)

/-- Changes that agree on the entry are the same. -/
theorem modAt_congr {α : Type} (f g : α → α) (d : α) : ∀ (l : List α) (k : Nat), f (l.getD k d) = g (l.getD k d) → modAt l k f = modAt l k g := by
  intro l; induction l with
  | nil => intro k _; rfl
  | cons a l ih => intro k h; cases k with
    | zero => exact congrArg (· :: l) h
    | succ k => simp only [modAt]; rw [ih k (by simpa using h)]

/-- The function that was changed. -/
theorem State.fn_updFn {s : State} {f : Nat} (h : f < s.fns.length) (g : Fn → Fn) : (s.updFn f g).fn f = g (s.fn f) := getD_modAt g _ _ _ h

/-- Two changes of one function are one. -/
theorem State.updFn_updFn (s : State) (f : Nat) (g k : Fn → Fn) : (s.updFn f g).updFn f k = s.updFn f fun a => k (g a) := by
  unfold State.updFn; simp only [modAt_modAt]

/-- A page request with room in the ring and the pool is written (R409, R410). -/
theorem State.request_now {s : State} {f g : Nat} {r w : Bool} (h1 : (s.fn f).reqs.any (·.gran == g) = false) (h2 : (s.fn f).reqQueue = [])
   (h3 : (s.fn f).reqs.length < 4) (h4 : ((s.fn f).prEn && s.linkUp) = false) :
   s.request f g r w = s.updFn f fun fn => { fn with reqs := fn.reqs ++ [⟨(s.fn f).nextTag, g, r, w, 0, false⟩], nextTag := (s.fn f).nextTag + 1 } := by
  unfold State.request State.entryFree State.enterRequest
  simp only [h1, h2, h3, h4, List.any_nil, List.isEmpty_nil, decide_true, Bool.or_self, Bool.true_or, Bool.and_true,
    Bool.false_eq_true, ite_false, ite_true]

/-- A page request without room waits in its queue (R410). -/
theorem State.request_later {s : State} {f g : Nat} {r w : Bool} (h1 : (s.fn f).reqs.any (·.gran == g) = false) (h2 : (s.fn f).reqQueue = [])
   (h3 : (s.fn f).reqs.length < 4) (h4 : (s.fn f).prEn = true) (h5 : s.linkUp = true) :
      let fn := s.fn f
      s.request f g r w = { s.updFn f fun fn => { fn with
          reqs := fn.reqs ++ [⟨(s.fn f).nextTag, g, r, w, 0, true⟩]
          nextTag := (s.fn f).nextTag + 1
          prTail := fn.prTail + 1 } with
        host := s.host.putBytes (fn.prBase.toNat + 16 * (fn.prTail.toNat % 1024))
          (natBytes 8 (g * 2 ^ 13 + (if r then 2 else 0) + (if w then 4 else 0)) ++ natBytes 8 fn.nextTag.toNat) } := by
  intro fn
  unfold State.request State.entryFree State.enterRequest
  simp only [h1, h2, h3, h4, h5, List.any_nil, List.isEmpty_nil, decide_true, Bool.or_self, Bool.and_self, Bool.true_or,
    Bool.false_eq_true, ite_false, ite_true]
  rfl

/-- A page request leaves the core in turn alone. -/
theorem State.request_me (s : State) (f g : Nat) (r w : Bool) : (s.request f g r w).me = s.me := by
  unfold State.request; dsimp only
  split
  · rfl
  · split
    · unfold State.enterRequest; dsimp only; split <;> rfl
    · rfl

/-- Page requests leave the core in turn alone. -/
theorem State.foldl_request_me : ∀ (l : List (Nat × Bool × Bool)) (s : State), (l.foldl (fun s (x : Nat × Bool × Bool) => match x with | (g, r, w) => s.request s.me.id.owner g r w) s).me = s.me := by
  intro l; induction l with
  | nil => intro s; rfl
  | cons x l ih => intro s; rw [List.foldl_cons, ih, State.request_me]

/-- Without buffered stores a memory core reads HBM as it stands (R278). -/
theorem State.hbmBytes_empty (s : State) (c : Core) (h : c.sb = []) (q : Nat) (ps : List (Nat × Nat)) : s.hbmBytes c q ps = partBytes s.hbm ps := by
  unfold State.hbmBytes; rw [h]; rfl

/-- The number in one range of a memory. -/
theorem partBytes_one (m : Memory) (x n : Nat) : bytesNat (partBytes m [(x, n)]) = m.nat x n := by
  simp [partBytes, Memory.nat]

/-- A function depends on the functions only. -/
theorem State.fn_congr {s t : State} (h : t.fns = s.fns) (f : Nat) : t.fn f = s.fn f := by unfold State.fn; rw [h]

/-- The owner of a frame depends on the functions only (R83). -/
theorem State.frameOwner_congr {s t : State} (h : t.fns = s.fns) (x : Nat) : t.frameOwner x = s.frameOwner x := by
  unfold State.frameOwner State.fn; rw [h]

/-- A complete gang is ready (R263, R264). -/
theorem State.gangReady_of {s : State} {l m} (h : m ∈ s.completeGangs l) : s.gangReady l m = true := by
  unfold State.completeGangs at h
  obtain ⟨j, _, hj⟩ := List.mem_filterMap.1 h
  split at hj
  · split at hj
    · rename_i h2; cases hj; exact h2.2
    · cases hj
  · cases hj

/-- A change of the cores of a list, once for each. -/
theorem State.foldl_updCore (f : Core → Core) (hf : ∀ c, (f c).id = c.id) (hff : ∀ c, f (f c) = f c) (at_ : Nat → CoreId) (id : CoreId) : ∀ (l : List Nat) (s : State),
    (l.foldl (fun t j => t.updCore (at_ j) f) s).core? id = (s.core? id).map fun c => if l.any (fun i => id = at_ i) then f c else c := by
  intro l
  induction l with
  | nil => intro s; simp
  | cons j l ih =>
    intro s
    rw [List.foldl_cons, ih, State.updCore_core? _ _ _ _ hf, Option.map_map]
    congr 1; funext c
    simp only [Function.comp, List.any_cons]
    by_cases h1 : id = at_ j <;> by_cases h2 : l.any (fun i => decide (id = at_ i)) = true <;> simp [h1, h2, hff]

/-- A change of cores leaves the purses and the regions alone. -/
theorem State.foldl_updCore_rest (f : Core → Core) (at_ : Nat → CoreId) : ∀ (l : List Nat) (s : State), (l.foldl (fun t j => t.updCore (at_ j) f) s).purses = s.purses ∧ (l.foldl (fun t j => t.updCore (at_ j) f) s).regions = s.regions := by
  intro l
  induction l with
  | nil => intro s; exact ⟨rfl, rfl⟩
  | cons j l ih =>
    intro s; rw [List.foldl_cons, (ih _).1, (ih _).2]; unfold State.updCore; split <;> exact ⟨rfl, rfl⟩

/-- Stripes that become a context's leave failing positions and regions alone. -/
theorem State.addStripes_rest (s : State) (l) : (s.addStripes l).failing = s.failing ∧ (s.addStripes l).regions = s.regions := ⟨rfl, rfl⟩

/-- A walk over a list that changes nothing changes nothing. -/
theorem foldl_fixed {α β} (f : β → α → β) (s : β) (h : ∀ k, f s k = s) : ∀ l : List α, l.foldl f s = s := by
  intro l; induction l with
  | nil => rfl
  | cons k l ih => rw [List.foldl_cons, h]; exact ih

/-- With no broken column nothing is mended (R403). -/
theorem State.mend_none (s : State) (h : ∀ c ∈ s.cols, c.broken = none) : s.mend = s := by
  unfold State.mend
  refine foldl_fixed _ s (fun k => ?_) _
  cases hc : s.cols[k]? with
  | none => rfl
  | some c => simp only [h c (List.mem_of_getElem? hc)]

/-- A region whose first core has turn handlers off is not told of a turn (R38). -/
theorem State.pushTurn_off (s : State) (r : RegionId) (a b n : Nat) (h : ∀ c, s.core? ⟨r.owner, r.circ, 0⟩ = some c → c.csr.turnh.getLsbD 10 = false) : s.pushTurn r a b n = s := by
  unfold State.pushTurn
  simp only []
  split
  · rfl
  · rename_i c hc; rw [if_neg (by rw [h c hc]; decide)]

/-- Without an interval no checkpoint is taken (R434). -/
theorem State.takeCheckpoints_none (s : State) (h : ∀ f ∈ s.fns, f.ckptK = 0) : s.takeCheckpoints = s := by
  unfold State.takeCheckpoints
  generalize hl : List.range s.fns.length = l
  have : ∀ f, (s.fn f).ckptK = 0 := by
    intro f
    unfold State.fn
    by_cases hf : f < s.fns.length
    · have e : s.fns.getD f Fn.reset = s.fns[f] := by simp [List.getD, hf]
      rw [e]; exact h _ (List.getElem_mem hf)
    · have e : s.fns.getD f Fn.reset = Fn.reset := by simp [List.getD, hf]
      rw [e]; rfl
  clear hl
  induction l with
  | nil => rfl
  | cons k l ih =>
    rw [List.foldl_cons, if_neg]
    · exact ih
    · intro x; exact x.1 (this k)

/-- A page request does not move the clock. -/
theorem State.request_cyc (s : State) (f g : Nat) (r w : Bool) : (s.request f g r w).cyc = s.cyc := by
  unfold State.request; dsimp only
  split
  · rfl
  · split
    · unfold State.enterRequest; dsimp only; split <;> rfl
    · rfl

/-- The end of run-ahead does not move the clock. -/
theorem State.endAhead_cyc (s : State) : s.endAhead.cyc = s.cyc := by
  unfold State.endAhead; split
  · rfl
  · rename_i a _
    show (List.foldl _ s _).cyc = _
    have : ∀ (l : List (Nat × Bool × Bool)) (s : State), (l.foldl (fun s (x : Nat × Bool × Bool) => match x with | (g, r, w) => s.request s.me.id.owner g r w) s).cyc = s.cyc := by
      intro l; induction l with
      | nil => intro s; rfl
      | cons x l ih => intro s; rw [List.foldl_cons, ih, State.request_cyc]
    exact this a.batch s

/-- A change of turn does not move the clock. -/
theorem State.swap_cyc (s : State) (id : CoreId) : (s.swap id).cyc = s.cyc := by unfold State.swap; split <;> rfl

/-- An act of one core that does not move the clock, done at a core. -/
theorem State.onCore_cyc (s : State) (id : CoreId) (f : State → State) (hf : ∀ t, (f t).cyc = t.cyc) : (s.onCore id f).cyc = s.cyc := by
  unfold State.onCore; split
  · exact hf s
  · split
    · rfl
    · rw [State.swap_cyc, hf, State.swap_cyc]

/-- Halting a region does not move the clock. -/
theorem State.haltRegion_cyc (s : State) (r : RegionId) : (s.haltRegion r).cyc = s.cyc := by
  unfold State.haltRegion
  generalize s.coresOf r = l
  induction l generalizing s with
  | nil => rfl
  | cons x l ih => rw [List.foldl_cons, ih]; exact State.onCore_cyc s x _ fun t => State.endAhead_cyc t

/-- Dropping cores leaves the rest of the machine alone. -/
theorem State.keepCores_rest (s : State) (p : CoreId → Bool) : (s.keepCores p).net = s.net ∧ (s.keepCores p).hbm = s.hbm ∧ (s.keepCores p).fns = s.fns ∧ (s.keepCores p).regions = s.regions ∧ (s.keepCores p).stripes = s.stripes := by
  unfold State.keepCores; simp only []
  split
  · exact ⟨rfl, rfl, rfl, rfl, rfl⟩
  · split <;> exact ⟨rfl, rfl, rfl, rfl, rfl⟩

/-- The cores that are kept. -/
theorem State.keepCores_cores (s : State) (p : CoreId → Bool) : ∀ c ∈ (s.keepCores p).cores, p c.id = true ∨ c = Core.fresh nobody := by
  unfold State.keepCores State.cores; simp only []
  split
  · rename_i h; intro c hc; simp only [List.mem_cons, List.mem_filter] at hc
    rcases hc with rfl | hc
    · exact Or.inl h
    · exact Or.inl hc.2
  · split
    · rename_i d l hl; intro c hc
      have : c ∈ s.others.filter fun c => p c.id := by rw [hl]; exact hc
      exact Or.inl (List.mem_filter.1 this).2
    · intro c hc; simp at hc; exact Or.inr hc

/-- An invalidation when none runs starts (R332). -/
theorem State.invalidate_idle {s : State} {f : Nat} (hf : f ≠ 64) (h : (s.fn f).inval = none) (k : BitVec 2) (g : BitVec 39) : s.invalidate f k g = s.updFn f fun fn => { fn with inval := some (k, g) } := by
  unfold State.invalidate State.updFn; rw [if_neg hf]
  rw [modAt_congr _ (fun fn => { fn with inval := some (k, g) }) Fn.reset]
  show (match (s.fn f).inval with | none => _ | some _ => _) = _
  rw [h]

/-- An owner without cores has nothing to forget. -/
theorem State.forgetAll_none (s : State) (f : Nat) (h : (s.cores.filter fun c => c.id.owner = f) = []) (k : BitVec 2) (g : BitVec 39) : s.forgetAll f k g = s := by
  unfold State.forgetAll; rw [h]; rfl

/-- A timer whose time has come fires (R323). -/
theorem Timer.fire_spec (x : Timer) (now : Nat) (hx : x.time.toNat ≤ now) :
      (x.period = none → x.fire now = { x with armed := false }) ∧
      (∀ p, x.period = some p → p ≠ 0 → now < 2 ^ 63 → p.toNat ≤ 2 ^ 40 → (x.fire now).armed = x.armed ∧
        now < (x.fire now).time.toNat ∧ (x.fire now).time.toNat ≤ now + p.toNat) := by
  refine ⟨fun h => by unfold Timer.fire; rw [h], fun p h hp hn hp2 => ?_⟩
  unfold Timer.fire; rw [h]
  simp only []
  refine ⟨trivial, ?_⟩
  have hpp : 0 < p.toNat := by
    rcases Nat.eq_zero_or_pos p.toNat with h0 | h0
    · exact absurd (BitVec.eq_of_toNat_eq (by simpa using h0)) hp
    · exact h0
  generalize hm : (now - x.time.toNat) / p.toNat = m
  have h1 : m * p.toNat ≤ now - x.time.toNat := by rw [← hm]; exact Nat.div_mul_le_self _ _
  have h2 : now - x.time.toNat < (m + 1) * p.toNat := by
    rw [← hm, Nat.mul_comm]; exact Nat.lt_mul_div_succ _ hpp
  have h3 : (m + 1) * p.toNat = m * p.toNat + p.toNat := Nat.succ_mul _ _
  have hm64 : m + 1 < 2 ^ 64 := by
    have : m * 1 ≤ m * p.toNat := Nat.mul_le_mul_left m hpp
    omega
  have e : (x.time + BitVec.ofNat 64 (m + 1) * p).toNat = x.time.toNat + (m + 1) * p.toNat := by
    rw [BitVec.toNat_add, BitVec.toNat_mul, BitVec.toNat_ofNat, Nat.mod_eq_of_lt hm64]
    rw [Nat.mod_eq_of_lt (a := (m + 1) * p.toNat) (by omega)]
    exact Nat.mod_eq_of_lt (by omega)
  rw [e]; omega

/-- What halting leaves of a plain core with nothing pending. -/
theorem Core.halt_plain (c : Core) (hp : c.pend = []) (ho : c.outs = []) (hc : c.compo = .plain) (hb : c.binding = none) :
      c.halt.pc = c.pc ∧ c.halt.g = c.g ∧ c.halt.scr = c.scr ∧ c.halt.csr = c.csr ∧ c.halt.latch = !c.onLatch := by
  have k := Core.kept_capture hp (if c.rearmed then 0 else c.bubble)
  have hb' : (c.capture (if c.rearmed then 0 else c.bubble)).binding = none := by
    have : (c.capture (if c.rearmed then 0 else c.bubble)).binding = c.binding := by
      simp [Core.capture, Core.landAll, Core.finishDivs, ho, hp, Core.applyAll, Core.countAll]; split <;> rfl
    rw [this, hb]
  unfold Core.halt
  generalize c.capture (if c.rearmed then 0 else c.bubble) = d at k hb'
  simp only [k.compo, hc, hb']
  exact ⟨k.pc, k.g ho, k.scr, k.csr, trivial⟩

end Sys2Proof.Machine
end

