-- ==== Sys2Proof/Laws/Hbm.lean ====
section
/-! SUPPORT. Checks and effects of the words that reach HBM (12_memory_core.md R277 to R294). -/

namespace Sys2Proof.Machine

open Sys2Proof

set_option Elab.async false

/-- An aligned offset passes. -/
theorem alignCheck_none {go n} {o : BitVec 64} (h : o.toNat % n = 0) : alignCheck go o n = none := by
  unfold alignCheck; rw [decide_eq_false (by omega)]; rfl

/-- A misaligned offset raises class 0x18 sub 2. -/
theorem alignCheck_some {go n} {o : BitVec 64} (h : o.toNat % n ≠ 0) : alignCheck go o n = some ⟨0x18, 2, go, o.setWidth 48, 0x3D⟩ := by
  unfold alignCheck; rw [decide_eq_true h]; rfl

/-- New cached translations leave run-ahead as it is. -/
theorem State.setMmu_ahead (s : State) (m) : (s.setMmu m).me.ahead = s.me.ahead := by unfold State.setMmu State.onMe; rfl

/-- An HBM store outside run-ahead: one entry of the store buffer and one walk. -/
theorem State.hbmStore_eq {s : State} (h : s.me.ahead = none) (m ps rel) : s.hbmStore m ps rel = (s.setMmu m).onMe fun c => { c with
        walks := c.walks ++ [c.seq], sb := c.sb ++ [⟨.hbm ps, rel, c.seq, true, c.rowsOwed⟩], seq := c.seq + 1 } := by
  unfold State.hbmStore
  simp only [State.onMe]
  have h2 : (s.setMmu m).me.shadow.ahead = none := by rw [← h]; unfold State.setMmu State.onMe; rfl
  rw [Core.buffer_eq h2]; rfl

/-- An HBM load leaves run-ahead as it is. -/
theorem State.hbmLoad_ahead (s : State) (m ops rd acq) : (s.hbmLoad m ops rd acq).me.ahead = s.me.ahead := by
  rw [← State.setMmu_ahead s m]; unfold State.hbmLoad State.onMe; rfl

/-- An HBM store outside run-ahead stays outside. -/
theorem State.hbmStore_ahead {s : State} (h : s.me.ahead = none) (m ps rel) : (s.hbmStore m ps rel).me.ahead = none := by
  rw [State.hbmStore_eq h, ← h, ← State.setMmu_ahead s m]; rfl

/-- When one access of one right passes the capability checks (R78, R381). -/
theorem capCheck_one (mj : BitVec 6) (c : BitVec 4) (k : Cap) (r : Right) (off n : Nat) :
   capCheck mj c k [r] 0 [(off, off, n)] = none ↔ k.tag = true ∧ k.lower ≤ off ∧ off + n ≤ k.upper ∧ k.bits.getLsbD r.bit = true := by
  have e2 : ∀ r, ((k.lacks [r]).map fun r => (⟨0x1B, BitVec.ofNat 8 r.bit, c.setWidth 6, BitVec.ofNat 48 0, mj⟩ : Exc)) = none ↔ k.bits.getLsbD r.bit = true := by
    intro r; unfold Cap.lacks; simp only [List.find?_cons, List.find?_nil]
    cases hb : k.bits.getLsbD r.bit <;> simp
  unfold capCheck
  simp only [firstOf_none, check_none, List.findSome?_eq_none_iff, List.mem_singleton, forall_eq]
  rw [e2]
  simp [firstOf, and_assoc]

/-- The beats of the rows of bgemv cover their bytes (R289). -/
theorem copyRows_sum : ∀ f src dst n, n ≤ 256 * f → ((execBgemv.copyRows src dst n f).map fun b => b.len).sum = n := by
  intro f
  induction f with
  | zero => intro src dst n h; have : n = 0 := by omega
            subst this; rfl
  | succ f ih =>
    intro src dst n h
    unfold execBgemv.copyRows
    split
    · simp; omega
    · rw [List.map_cons, List.sum_cons, ih _ _ _ (by omega)]; show min n 256 + _ = n; omega

/-- A write of an object-table entry leaves run-ahead as it is. -/
theorem State.setEntry_ahead (s : State) (h ix e) : (s.setEntry h ix e).me.ahead = s.me.ahead := by
  unfold State.setEntry; simp only
  split <;> rfl

end Sys2Proof.Machine
end

