-- ==== Sys2Proof/Laws/Memory.lean ====
section
/-! SUPPORT. The laws of byte memories: every write keeps the canonical form, a read after a
write to the same place gives what was written, and a write leaves every other place alone. -/

namespace Sys2Proof.Machine

open Sys2Proof

set_option Elab.async false

/-- Addresses from a bound upward, strictly rising, with no unlisted byte. -/
def Memory.wfFrom (m : Memory) (lo : Nat) : Prop :=
  match m with
  | [] => True
  | (x, y) :: m => lo ≤ x ∧ y ≠ Memory.unlisted ∧ Memory.wfFrom m (x + 1)

theorem Memory.wfFrom_mono {m : Memory} {a b : Nat} (h : m.wfFrom b) (hab : a ≤ b) : m.wfFrom a := by
  cases m with
  | nil => trivial
  | cons c m => exact ⟨by have := h.1; omega, h.2⟩

theorem Memory.wf_cons (x : Nat) (y : Byte) (m : Memory) :
    Memory.wf ((x, y) :: m) = true ↔ y ≠ Memory.unlisted ∧ Memory.wfFrom m (x + 1) := by
  induction m generalizing x y with
  | nil => simp [Memory.wf, Memory.wfFrom]
  | cons c m ih =>
    obtain ⟨u, v⟩ := c
    rw [Memory.wf, Memory.wfFrom, Bool.and_eq_true, Bool.and_eq_true, ih]
    simp only [bne_iff_ne, ne_eq, decide_eq_true_eq]
    constructor
    · rintro ⟨⟨a, b⟩, c, d⟩; exact ⟨a, by omega, c, d⟩
    · rintro ⟨a, b, c, d⟩; exact ⟨⟨a, by omega⟩, c, d⟩

theorem Memory.wf_iff (m : Memory) : m.wf = true ↔ m.wfFrom 0 := by
  cases m with
  | nil => simp [Memory.wf, Memory.wfFrom]
  | cons c m =>
    obtain ⟨x, y⟩ := c
    rw [Memory.wf_cons, Memory.wfFrom]
    simp

theorem Memory.put_wfFrom {m : Memory} {lo : Nat} (h : m.wfFrom lo) (a : Nat) (b : Byte) (ha : lo ≤ a) :
    (m.put a b).wfFrom lo := by
  induction m generalizing lo with
  | nil =>
    unfold Memory.put
    split
    · trivial
    · exact ⟨ha, by assumption, trivial⟩
  | cons c m ih =>
    obtain ⟨x, y⟩ := c
    obtain ⟨h1, h2, h3⟩ := h
    unfold Memory.put
    by_cases k1 : a < x
    · rw [if_pos k1]
      split
      · exact ⟨h1, h2, h3⟩
      · exact ⟨ha, by assumption, by omega, h2, h3⟩
    · rw [if_neg k1]
      by_cases k2 : a = x
      · rw [if_pos k2]
        split
        · exact Memory.wfFrom_mono h3 (by omega)
        · exact ⟨ha, by assumption, by rw [k2]; exact h3⟩
      · rw [if_neg k2]
        exact ⟨h1, h2, ih h3 (by omega)⟩

/-- A write keeps the canonical form. -/
theorem Memory.wf_put {m : Memory} (h : m.wf = true) (a : Nat) (b : Byte) : (m.put a b).wf = true :=
  (Memory.wf_iff _).2 (Memory.put_wfFrom ((Memory.wf_iff _).1 h) a b (Nat.zero_le a))

/-- A write of bytes keeps the canonical form. -/
theorem Memory.wf_putBytes {m : Memory} (h : m.wf = true) (a : Nat) (bs : List Byte) :
    (m.putBytes a bs).wf = true := by
  induction bs generalizing m a with
  | nil => exact h
  | cons b bs ih => exact ih (Memory.wf_put h a b) _

theorem Memory.get_below {m : Memory} {lo a : Nat} (h : m.wfFrom lo) (ha : a < lo) : m.get a = Memory.unlisted := by
  induction m generalizing lo with
  | nil => rfl
  | cons c m ih =>
    obtain ⟨x, y⟩ := c
    obtain ⟨h1, h2, h3⟩ := h
    unfold Memory.get
    rw [if_neg (by omega)]
    exact ih h3 (by omega)

theorem Memory.get_put_from {m : Memory} {lo : Nat} (h : m.wfFrom lo) (a : Nat) (b : Byte) (x : Nat) :
    (m.put a b).get x = if x = a then b else m.get x := by
  induction m generalizing lo with
  | nil =>
    unfold Memory.put
    by_cases hb : b = Memory.unlisted
    · rw [if_pos hb]; by_cases hx : x = a
      · rw [if_pos hx, hb]; rfl
      · rw [if_neg hx]
    · rw [if_neg hb]
      by_cases hx : x = a
      · rw [if_pos hx, Memory.get, if_pos hx.symm]
      · rw [if_neg hx]
        show (if a = x then b else Memory.get [] x) = Memory.get [] x
        rw [if_neg (fun e => hx e.symm : ¬a = x)]
  | cons c m ih =>
    obtain ⟨u, v⟩ := c
    obtain ⟨h1, h2, h3⟩ := h
    unfold Memory.put
    by_cases k1 : a < u
    · rw [if_pos k1]
      have hl : Memory.get ((u, v) :: m) a = Memory.unlisted :=
        Memory.get_below (lo := u) (m := (u, v) :: m) ⟨Nat.le_refl u, h2, h3⟩ k1
      by_cases hb : b = Memory.unlisted
      · rw [if_pos hb]; by_cases hx : x = a
        · rw [if_pos hx, hb, hx]; exact hl
        · rw [if_neg hx]
      · rw [if_neg hb]
        by_cases hx : x = a
        · rw [if_pos hx, Memory.get, if_pos hx.symm]
        · rw [if_neg hx, Memory.get, if_neg (fun e => hx e.symm : ¬a = x)]
    · rw [if_neg k1]
      by_cases k2 : a = u
      · subst k2
        rw [if_pos rfl]
        by_cases hb : b = Memory.unlisted
        · rw [if_pos hb]; by_cases hx : x = a
          · rw [if_pos hx, hb, hx]; exact Memory.get_below h3 (by omega)
          · rw [if_neg hx, Memory.get, if_neg (fun e => hx e.symm : ¬a = x)]
        · rw [if_neg hb, Memory.get, Memory.get]
          by_cases hx : x = a
          · rw [if_pos hx.symm, if_pos hx]
          · rw [if_neg fun e => hx e.symm, if_neg hx, if_neg fun e => hx e.symm]
      · rw [if_neg k2, Memory.get, Memory.get, ih h3]
        by_cases hu : u = x
        · rw [if_pos hu, if_pos hu, if_neg (by omega)]
        · rw [if_neg hu, if_neg hu]

/-- A read after a write: the byte written at its address, the old byte elsewhere. -/
theorem Memory.get_put {m : Memory} (h : m.wf = true) (a : Nat) (b : Byte) (x : Nat) :
    (m.put a b).get x = if x = a then b else m.get x := Memory.get_put_from ((Memory.wf_iff _).1 h) a b x

/-- A read after a write of bytes: the bytes written over their range, the old byte elsewhere. -/
theorem Memory.get_putBytes {m : Memory} (h : m.wf = true) (a : Nat) (bs : List Byte) (x : Nat) :
    (m.putBytes a bs).get x = if a ≤ x ∧ x < a + bs.length then bs.getD (x - a) 0 else m.get x := by
  induction bs generalizing m a with
  | nil => rw [if_neg (by simp)]; rfl
  | cons b bs ih =>
    rw [Memory.putBytes, ih (Memory.wf_put h a b), Memory.get_put h]
    simp only [List.length_cons]
    by_cases hx : x = a
    · subst hx
      rw [if_neg (by omega), if_pos rfl, if_pos (by omega)]
      simp
    · by_cases hr : a + 1 ≤ x ∧ x < a + 1 + bs.length
      · rw [if_pos hr, if_pos (by omega), show x - a = (x - (a + 1)) + 1 by omega, List.getD_cons_succ]
      · rw [if_neg hr, if_neg hx, if_neg (by omega)]

/-- Reading back the bytes written. -/
theorem Memory.bytes_putBytes {m : Memory} (h : m.wf = true) (a : Nat) (bs : List Byte) :
    (m.putBytes a bs).bytes a bs.length = bs := by
  have key : ∀ (n i : Nat), i + n = bs.length → (m.putBytes a bs).bytes (a + i) n = bs.drop i := by
    intro n
    induction n with
    | zero => intro i hi; rw [List.drop_eq_nil_of_le (by omega)]; rfl
    | succ n ih =>
      intro i hi
      rw [Memory.bytes, Memory.get_putBytes h, if_pos (by omega), Nat.add_assoc, ih (i + 1) (by omega)]
      rw [show a + i - a = i by omega, List.getD_eq_getElem _ _ (by omega : i < bs.length)]
      exact (List.drop_eq_getElem_cons (by omega)).symm
  simpa using key bs.length 0 (by omega)

end Sys2Proof.Machine
end

