-- ==== Sys2Proof/Laws/Image.lean ====
section
/-! SUPPORT. The pending-write queue image (R158, R159): what its entries read as. -/

namespace Sys2Proof.Machine

open Sys2Proof

set_option Elab.async false

/-- The number of some bytes of a number. -/
theorem bytesNat_natBytes (n v : Nat) : bytesNat (natBytes n v) = v % 256 ^ n := by
  induction n generalizing v with
  | zero => simp [natBytes, bytesNat, Nat.mod_one]
  | succ n ih =>
    have e : v % 256 ^ (n + 1) = v % 256 + 256 * (v / 256 % 256 ^ n) := by rw [Nat.pow_succ', Nat.mod_mul]
    rw [natBytes, bytesNat, ih, e]; rfl

/-- Bytes that agree with a list are that list. -/
theorem Memory.bytes_eq {m : Memory} (bs : List Byte) (a : Nat)
    (h : ∀ i < bs.length, m.get (a + i) = bs.getD i 0) : m.bytes a bs.length = bs := by
  induction bs generalizing a with
  | nil => rfl
  | cons b bs ih =>
    rw [List.length_cons, Memory.bytes, show m.get a = b by simpa using h 0 (by simp)]
    rw [ih (a + 1) fun i hi => by
      have := h (i + 1) (by simp; omega)
      rwa [show a + 1 + i = a + (i + 1) by omega]]

/-! ## The order of the entries (R159) -/

theorem insertPend_perm (p : Pend) (l : List Pend) : (insertPend p l).Perm (p :: l) := by
  induction l with
  | nil => exact .refl _
  | cons x l ih =>
    unfold insertPend
    split
    · exact .refl _
    · exact (ih.cons x).trans (.swap p x l)

theorem insertPend_sorted (p : Pend) {l : List Pend} (h : l.Pairwise fun a b => a.d ≤ b.d) :
    (insertPend p l).Pairwise fun a b => a.d ≤ b.d := by
  induction l with
  | nil => simp [insertPend]
  | cons x l ih =>
    rw [List.pairwise_cons] at h
    unfold insertPend
    split
    · next hx =>
      refine List.pairwise_cons.2 ⟨fun y hy => ?_, List.pairwise_cons.2 h⟩
      rcases List.mem_cons.1 hy with rfl | hy
      · omega
      · have := h.1 y hy; omega
    · next hx =>
      refine List.pairwise_cons.2 ⟨fun y hy => ?_, ih h.2⟩
      rcases List.mem_cons.1 ((insertPend_perm p l).mem_iff.1 hy) with rfl | hy
      · omega
      · exact h.1 y hy

/-- The writes of a queue image in the order of its entries. -/
def imageOrder (ps : List Pend) : List Pend := ps.foldl (fun l p => insertPend p l) []

theorem imageOrder_spec (ps : List Pend) :
    (imageOrder ps).Perm ps ∧ (imageOrder ps).Pairwise fun a b => a.d ≤ b.d := by
  have key : ∀ (ps l : List Pend), (l.Pairwise fun a b => a.d ≤ b.d) →
      (ps.foldl (fun l p => insertPend p l) l).Perm (l ++ ps) ∧
      (ps.foldl (fun l p => insertPend p l) l).Pairwise fun a b => a.d ≤ b.d := by
    intro ps
    induction ps with
    | nil => intro l h; simpa using h
    | cons p ps ih =>
      intro l h
      obtain ⟨a, b⟩ := ih (insertPend p l) (insertPend_sorted p h)
      refine ⟨a.trans (((insertPend_perm p l).append_right ps).trans ?_), b⟩
      simpa using List.perm_middle.symm
  simpa [imageOrder] using key ps [] .nil

/-! ## What an entry reads as (R158) -/

/-- The bytes of one entry laid over an image. -/
def imagePut (m : Memory) (x : Pend × Nat) : Memory :=
  Memory.putBytes (Memory.putBytes m (320 * x.2) (queueEntry x.1).2) (320 * x.2 + 0x100)
    (natBytes 8 (queueEntry x.1).1.toNat)

theorem wf_imagePut {m : Memory} (h : m.wf = true) (x : Pend × Nat) : (imagePut m x).wf = true :=
  Memory.wf_putBytes (Memory.wf_putBytes h _ _) _ _

theorem wf_imagePuts (l : List (Pend × Nat)) : ∀ {m : Memory}, m.wf = true → (l.foldl imagePut m).wf = true := by
  induction l with
  | nil => intro m h; exact h
  | cons x l ih => intro m h; exact ih (wf_imagePut h x)

/-- One entry's bytes: its value, its descriptor, and the old byte elsewhere. -/
theorem get_imagePut {m : Memory} (h : m.wf = true) (p : Pend) (k x : Nat) :
    (imagePut m (p, k)).get x =
      if 320 * k + 0x100 ≤ x ∧ x < 320 * k + 0x108 then
        (natBytes 8 (queueEntry p).1.toNat).getD (x - (320 * k + 0x100)) 0
      else if 320 * k ≤ x ∧ x < 320 * k + (queueEntry p).2.length then (queueEntry p).2.getD (x - 320 * k) 0
      else m.get x := by
  rw [imagePut, Memory.get_putBytes (Memory.wf_putBytes h _ _), Memory.get_putBytes h, natBytes_length]

/-- The entries from number `k` upward leave what lies before them, and entry j has its bytes. -/
theorem get_imagePuts (es : List Pend) (hs : ∀ p ∈ es, (queueEntry p).2.length ≤ 256) :
    ∀ (k n : Nat) {m : Memory}, m.wf = true → es.length ≤ n →
      (∀ x, (x < 320 * k ∨ 320 * (k + es.length) ≤ x) →
        ((es.zip (List.range' k n)).foldl imagePut m).get x = m.get x) ∧
      ∀ (j : Nat) (hj : j < es.length),
        (∀ i < (queueEntry es[j]).2.length, ((es.zip (List.range' k n)).foldl imagePut m).get (320 * (k + j) + i) =
          (queueEntry es[j]).2.getD i 0) ∧
        ∀ i < 8, ((es.zip (List.range' k n)).foldl imagePut m).get (320 * (k + j) + 0x100 + i) =
          (natBytes 8 (queueEntry es[j]).1.toNat).getD i 0 := by
  induction es with
  | nil => intro k n m h _; exact ⟨fun x _ => rfl, fun j hj => absurd hj (by simp)⟩
  | cons p es ih =>
    intro k n m h hn
    obtain ⟨n, rfl⟩ : ∃ n', n = n' + 1 := ⟨n - 1, by simp at hn; omega⟩
    obtain ⟨out, ent⟩ := ih (fun q hq => hs q (by simp [hq])) (k + 1) n (wf_imagePut h (p, k))
      (by simp at hn; omega)
    have hp := hs p (by simp)
    simp only [List.range'_succ, List.zip_cons_cons, List.foldl_cons]
    refine ⟨fun x hx => ?_, fun j hj => ?_⟩
    · rw [out x (by simp only [List.length_cons] at hx; omega), get_imagePut h]
      simp only [List.length_cons] at hx
      rw [if_neg (by omega), if_neg (by omega)]
    · cases j with
      | zero =>
        refine ⟨fun i hi => ?_, fun i hi => ?_⟩
        · simp only [List.getElem_cons_zero] at hi ⊢
          rw [out _ (by omega), get_imagePut h, if_neg (by omega), if_pos (by omega),
            show 320 * (k + 0) + i - 320 * k = i by omega]
        · simp only [List.getElem_cons_zero]
          rw [out _ (by omega), get_imagePut h, if_pos (by omega),
            show 320 * (k + 0) + 0x100 + i - (320 * k + 0x100) = i by omega]
      | succ j =>
        have e := ent j (by simpa using hj)
        simp only [List.getElem_cons_succ]
        rw [show k + (j + 1) = k + 1 + j by omega]
        exact e

theorem queueImage_eq (ps : List Pend) (vb : Nat) : queueImage ps vb =
    (((imageOrder ps).zip (List.range' 0 48)).foldl imagePut []).putBytes 0x3FF8 (natBytes 8 vb) := by
  have e : (fun (m : Memory) (x : Pend × Nat) =>
      Memory.putBytes (Memory.putBytes m (320 * x.2) (queueEntry x.1).2) (320 * x.2 + 0x100)
        (natBytes 8 (queueEntry x.1).1.toNat)) = imagePut := by funext m x; rfl
  have r : List.range' 0 48 = List.range 48 := List.range_eq_range'.symm
  rw [r, ← e]
  unfold queueImage imageOrder
  with_reducible rfl

/-- Entry `j` of a queue image is the entry of the `j`-th write in order. -/
theorem queueImage_entry {ps : List Pend} (hs : ∀ p ∈ ps, (queueEntry p).2.length ≤ 256) (hl : ps.length ≤ 48)
    (vb j : Nat) (hj : j < (imageOrder ps).length) :
    (queueImage ps vb).bytes (320 * j) (queueEntry (imageOrder ps)[j]).2.length = (queueEntry (imageOrder ps)[j]).2 ∧
    imageEntry (queueImage ps vb) j = ((queueEntry (imageOrder ps)[j]).1, 320 * j) := by
  have sp := (imageOrder_spec ps).1
  have he : (imageOrder ps).length ≤ 48 := by rw [sp.length_eq]; exact hl
  have hq : ∀ p ∈ imageOrder ps, (queueEntry p).2.length ≤ 256 := fun p hp => hs p (sp.mem_iff.1 hp)
  have ent := (get_imagePuts (imageOrder ps) hq 0 48 (m := []) rfl he).2 j hj
  have w := wf_imagePuts ((imageOrder ps).zip (List.range' 0 48)) (m := []) rfl
  have out : ∀ x < 0x3FF8, (queueImage ps vb).get x =
      (((imageOrder ps).zip (List.range' 0 48)).foldl imagePut []).get x := by
    intro x hx
    rw [queueImage_eq, Memory.get_putBytes w, if_neg (by omega)]
  have hv := hq _ (List.getElem_mem hj)
  refine ⟨Memory.bytes_eq _ _ fun i hi => ?_, ?_⟩
  · rw [out _ (by omega)]; simpa using ent.1 i hi
  · have hb : (queueImage ps vb).bytes (320 * j + 0x100) 8 = natBytes 8 (queueEntry (imageOrder ps)[j]).1.toNat := by
      have := Memory.bytes_eq (m := queueImage ps vb) (natBytes 8 (queueEntry (imageOrder ps)[j]).1.toNat) (320 * j + 0x100)
        fun i hi => by
          rw [natBytes_length] at hi
          rw [out _ (by omega)]; simpa using ent.2 i hi
      rwa [natBytes_length] at this
    unfold imageEntry Memory.nat
    rw [hb, bytesNat_natBytes, Nat.mod_eq_of_lt (by have := (queueEntry (imageOrder ps)[j]).1.isLt; omega),
      BitVec.ofNat_toNat, BitVec.setWidth_eq]

/-- An entry beyond the last write is not valid. -/
theorem queueImage_none {ps : List Pend} (hs : ∀ p ∈ ps, (queueEntry p).2.length ≤ 256) (hl : ps.length ≤ 48)
    (vb j : Nat) (hj : ps.length ≤ j) (h48 : j < 48) : (imageEntry (queueImage ps vb) j).1.getLsbD 63 = false := by
  have sp := (imageOrder_spec ps).1
  have he : (imageOrder ps).length = ps.length := sp.length_eq
  have hq : ∀ p ∈ imageOrder ps, (queueEntry p).2.length ≤ 256 := fun p hp => hs p (sp.mem_iff.1 hp)
  have out := (get_imagePuts (imageOrder ps) hq 0 48 (m := []) rfl (by omega)).1
  have w := wf_imagePuts ((imageOrder ps).zip (List.range' 0 48)) (m := []) rfl
  have hb := Memory.bytes_eq (m := queueImage ps vb) (List.replicate 8 (0 : Byte)) (320 * j + 0x100) fun i hi => by
    rw [List.length_replicate] at hi
    rw [queueImage_eq, Memory.get_putBytes w, if_neg (by omega), out _ (by omega), Memory.get, Memory.unlisted]
    simp only [List.getD_replicate, hi]
  rw [List.length_replicate] at hb
  simp only [imageEntry, Memory.nat, hb]
  decide

/-- The V pipe's count of a queue image. -/
theorem queueImage_vbusy {ps : List Pend} (vb : Nat) (h : vb < 32) : (queueImage ps vb).nat 0x3FF8 8 % 32 = vb := by
  have w := wf_imagePuts ((imageOrder ps).zip (List.range' 0 48)) (m := []) rfl
  have hb := Memory.bytes_putBytes w 0x3FF8 (natBytes 8 vb)
  rw [natBytes_length, ← queueImage_eq] at hb
  rw [Memory.nat, hb, bytesNat_natBytes]
  omega

/-! ## The write of an entry -/

/-- A descriptor's fields (R158). -/
theorem descriptor_fields (d k f n o : Nat) (hd : d < 32) (hk : k < 16) (hf : f < 32) (hn : n < 256) (ho : o < 2 ^ 17) :
    let x := BitVec.ofNat 64 (d * 2 ^ 51 + 2 ^ 63 + k * 2 ^ 44 + f * 2 ^ 25 + n * 2 ^ 17 + o)
    x.getLsbD 63 = true ∧ (x.extractLsb' 51 5).toNat = d ∧ (x.extractLsb' 44 4).toNat = k ∧
    (x.extractLsb' 25 5).toNat = f ∧ (x.extractLsb' 0 25).toNat = n * 2 ^ 17 + o ∧
    x.extractLsb' 56 7 = 0 ∧ x.extractLsb' 48 3 = 0 ∧ x.extractLsb' 30 14 = 0 := by
  have z : ∀ (y : Nat) (lo n : Nat), y % 2^64 / 2^lo % 2^n = 0 → (BitVec.ofNat 64 y).extractLsb' lo n = 0 := by
    intro y lo n h; apply BitVec.eq_of_toNat_eq; rw [ofNat_field, h]; simp
  refine ⟨?_, ?_, ?_, ?_, ?_, z _ _ _ ?_, z _ _ _ ?_, z _ _ _ ?_⟩
  · rw [BitVec.getLsbD, BitVec.toNat_ofNat, Nat.testBit_eq_decide_div_mod_eq, decide_eq_true_eq]; omega
  all_goals first | (rw [ofNat_field]; omega) | omega

/-- A view's end lies below 2^17 (R66). -/
theorem viewEnd_lt (num : Nat) : viewEnd num < 2 ^ 17 := by unfold viewEnd; split <;> decide

/-- The entry of a captured write that meets the checks of R158 is read back as that write. -/
theorem entryWrite_queueEntry {num : Nat} {p : Pend} (hc : p.w.captured = true) (h1 : 1 ≤ p.d) (h2 : p.d < 32)
    (hr : ∀ o bs f, p.w = .row o bs f → bs ≠ [] ∧ bs.length ≤ 256 ∧ o + bs.length ≤ viewEnd num)
    {m : Memory} {a : Nat} (hb : m.bytes a (queueEntry p).2.length = (queueEntry p).2) :
    (queueEntry p).1.getLsbD 63 = true ∧ ((queueEntry p).1.extractLsb' 51 5).toNat = p.d ∧
    entryWrite num m (queueEntry p).1 a = some p.w := by
  obtain ⟨w, d⟩ := p
  have dz : d % 32 = d := Nat.mod_eq_of_lt h2
  have nz : ∀ {x : BitVec 5}, x.toNat = d → ¬ x = 0 := by
    rintro x h rfl; simp at h; simp at h1; omega
  have fin : ∀ (k f n o : Nat), k < 16 → f < 32 → n < 256 → o < 2 ^ 17 → (k ≠ 3 → f = 0) →
      ∀ y : BitVec 64, y = BitVec.ofNat 64 (d * 2 ^ 51 + 2 ^ 63 + k * 2 ^ 44 + f * 2 ^ 25 + n * 2 ^ 17 + o) →
      y.getLsbD 63 = true ∧ (y.extractLsb' 51 5).toNat = d ∧
      entryWrite num m y a = (match k with
        | 0 => if n * 2 ^ 17 + o < 64 then some (.g (BitVec.ofNat 6 (n * 2 ^ 17 + o)) (BitVec.ofNat 64 (m.nat a 8))) else none
        | 1 => if n * 2 ^ 17 + o < 8 then some (.p (BitVec.ofNat 3 (n * 2 ^ 17 + o)) ((m.get a).getLsbD 0)) else none
        | 2 => if n * 2 ^ 17 + o < 64 then some (.t (BitVec.ofNat 6 (n * 2 ^ 17 + o)) (BitVec.ofNat 512 (m.nat a 64))) else none
        | 3 => if o + (n + 1) ≤ viewEnd num then some (.row o (m.bytes a (n + 1)) (BitVec.ofNat 5 f)) else none
        | 4 => if n * 2 ^ 17 + o = 0 then some (.flags ((m.get a).setWidth 5)) else none
        | _ => none) := by
    intro k f n o hk hf hn ho hz y hy
    obtain ⟨e1, e2, e3, e4, e5, e6, e7, e8⟩ := descriptor_fields d k f n o h2 hk hf hn ho
    rw [← hy] at e1 e2 e3 e4 e5 e6 e7 e8
    refine ⟨e1, e2, ?_⟩
    have f0 : y.extractLsb' 25 5 = BitVec.ofNat 5 f := by
      apply BitVec.eq_of_toNat_eq; rw [e4, BitVec.toNat_ofNat, Nat.mod_eq_of_lt hf]
    unfold entryWrite
    simp only [e6, e7, e8, e3, e5, BEq.rfl, Bool.and_self]
    rw [if_neg]
    · rw [show (n * 2 ^ 17 + o) % 2 ^ 17 = o by omega, show (n * 2 ^ 17 + o) / 2 ^ 17 = n by omega, f0]
      try rfl
    · rintro (h | h | ⟨h, h'⟩)
      · exact nz e2 h
      · cases h
      · rw [f0, hz h] at h'; exact h' rfl
  cases w <;> first | (simp [Write.captured] at hc; done) | skip
  case g n v =>
    obtain ⟨x, y, z⟩ := fin 0 0 0 n.toNat (by omega) (by omega) (by omega) (by have := n.isLt; omega) (by simp)
      (queueEntry ⟨.g n v, d⟩).1 (by simp only [queueEntry, dz]; exact congrArg (BitVec.ofNat 64) (by omega))
    refine ⟨x, y, z.trans ?_⟩
    have hb : m.bytes a 8 = natBytes 8 v.toNat := by simpa [queueEntry, natBytes_length] using hb
    simp only [Nat.zero_mul, Nat.zero_add, Memory.nat, hb, bytesNat_natBytes]
    rw [if_pos n.isLt, Nat.mod_eq_of_lt (by have := v.isLt; omega), BitVec.ofNat_toNat, BitVec.ofNat_toNat]
    simp
  case p n v =>
    obtain ⟨x, y, z⟩ := fin 1 0 0 n.toNat (by omega) (by omega) (by omega) (by have := n.isLt; omega) (by simp)
      (queueEntry ⟨.p n v, d⟩).1 (by simp only [queueEntry, dz]; exact congrArg (BitVec.ofNat 64) (by omega))
    refine ⟨x, y, z.trans ?_⟩
    have hb : m.get a = if v then 1 else 0 := by simpa [queueEntry, Memory.bytes] using hb
    simp only [Nat.zero_mul, Nat.zero_add, hb]
    rw [if_pos n.isLt, BitVec.ofNat_toNat]
    cases v <;> simp
  case t n v =>
    obtain ⟨x, y, z⟩ := fin 2 0 0 n.toNat (by omega) (by omega) (by omega) (by have := n.isLt; omega) (by simp)
      (queueEntry ⟨.t n v, d⟩).1 (by simp only [queueEntry, dz]; exact congrArg (BitVec.ofNat 64) (by omega))
    refine ⟨x, y, z.trans ?_⟩
    have hb : m.bytes a 64 = natBytes 64 v.toNat := by simpa [queueEntry, natBytes_length] using hb
    simp only [Nat.zero_mul, Nat.zero_add, Memory.nat, hb, bytesNat_natBytes]
    rw [if_pos n.isLt, Nat.mod_eq_of_lt (by have := v.isLt; exact this.trans_eq (by rw [show (256 : Nat) = 2 ^ 8 from rfl, ← Nat.pow_mul])),
      BitVec.ofNat_toNat, BitVec.ofNat_toNat]
    simp
  case row o bs f =>
    obtain ⟨b0, b1, b2⟩ := hr o bs f rfl
    have l0 : 0 < bs.length := List.length_pos_iff.2 b0
    have ve := viewEnd_lt num
    obtain ⟨x, y, z⟩ := fin 3 f.toNat (bs.length - 1) o (by omega) f.isLt (by omega) (by omega) (by simp)
      (queueEntry ⟨.row o bs f, d⟩).1 (by simp only [queueEntry, dz])
    refine ⟨x, y, z.trans ?_⟩
    have hb : m.bytes a bs.length = bs := hb
    simp only [Nat.sub_add_cancel l0, if_pos b2, hb, BitVec.ofNat_toNat, BitVec.setWidth_eq]
  case flags v =>
    obtain ⟨x, y, z⟩ := fin 4 0 0 0 (by omega) (by omega) (by omega) (by omega) (by simp)
      (queueEntry ⟨.flags v, d⟩).1 (by simp only [queueEntry, dz]; exact congrArg (BitVec.ofNat 64) (by omega))
    refine ⟨x, y, z.trans ?_⟩
    have hb : m.get a = v.setWidth 8 := by simpa [queueEntry, Memory.bytes] using hb
    simp only [Nat.zero_mul, Nat.zero_add, hb]
    rw [if_pos trivial]
    congr 2
    apply BitVec.eq_of_toNat_eq; simp

theorem imageWrites_cons {num : Nat} {m : Memory} {k : Nat} {ks : List Nat} {w : Write} {ps : List Pend}
    (h : (imageEntry m k).1.getLsbD 63 = true) (e : entryWrite num m (imageEntry m k).1 (imageEntry m k).2 = some w)
    (r : imageWrites num m ks = some ps) :
    imageWrites num m (k :: ks) = some (⟨w, ((imageEntry m k).1.extractLsb' 51 5).toNat⟩ :: ps) := by
  rw [imageWrites]; simp only [h, e, r, if_true]

theorem imageWrites_skip {num : Nat} {m : Memory} {k : Nat} {ks : List Nat}
    (h : (imageEntry m k).1.getLsbD 63 = false) : imageWrites num m (k :: ks) = imageWrites num m ks := by
  rw [imageWrites]
  simp only [h, Bool.false_eq_true, if_false]

/-- A length of a captured write's value. -/
theorem queueEntry_length {p : Pend} (hr : ∀ o bs f, p.w = .row o bs f → bs.length ≤ 256) :
    (queueEntry p).2.length ≤ 256 := by
  obtain ⟨w, d⟩ := p
  cases w <;> first | (simp [queueEntry, natBytes_length]; done) | exact hr _ _ _ rfl

/-- The image of at most 48 captured writes is read back as those writes, by rising count. -/
theorem imageWrites_queueImage {num : Nat} {ps : List Pend} (vb : Nat) (hl : ps.length ≤ 48)
    (h : ∀ p ∈ ps, p.w.captured = true ∧ 1 ≤ p.d ∧ p.d < 32 ∧
      ∀ o bs f, p.w = .row o bs f → bs ≠ [] ∧ bs.length ≤ 256 ∧ o + bs.length ≤ viewEnd num) :
    imageWrites num (queueImage ps vb) (List.range' 0 48) = some (imageOrder ps) := by
  have hs : ∀ p ∈ ps, (queueEntry p).2.length ≤ 256 := fun p hp =>
    queueEntry_length fun o bs f e => ((h p hp).2.2.2 o bs f e).2.1
  have sp := (imageOrder_spec ps).1
  have he : (imageOrder ps).length = ps.length := sp.length_eq
  have key : ∀ n k, k + n = 48 →
      imageWrites num (queueImage ps vb) (List.range' k n) = some ((imageOrder ps).drop k) := by
    intro n
    induction n with
    | zero => intro k hk; rw [List.drop_eq_nil_of_le (by omega)]; rfl
    | succ n ih =>
      intro k hk
      rw [List.range'_succ]
      by_cases hj : k < (imageOrder ps).length
      · obtain ⟨hb, hi⟩ := queueImage_entry hs hl vb k hj
        obtain ⟨c, d1, d2, r⟩ := h _ (sp.mem_iff.1 (List.getElem_mem hj))
        obtain ⟨a1, a2, a3⟩ := entryWrite_queueEntry c d1 d2 r hb
        rw [imageWrites_cons (by rw [hi]; exact a1) (by rw [hi]; exact a3) (ih (k + 1) (by omega)), hi,
          List.drop_eq_getElem_cons hj]
        simp only [a2]
      · rw [imageWrites_skip (queueImage_none hs hl vb k (by omega) (by omega)), ih (k + 1) (by omega),
          List.drop_eq_nil_of_le (by omega), List.drop_eq_nil_of_le (by omega)]
  exact key 48 0 rfl

end Sys2Proof.Machine
end

