-- ==== Sys2Proof/Laws/PerInstr.lean ====
section
/-! SUPPORT. A statement about every instruction as syntax, and its lemma for each
constructor: decoding the word of a well-formed instruction gives it back, on every kind
of core that has the instruction (06_encoding.md R137 to R150). -/

namespace Sys2Proof.Laws.RoundTrip

open Sys2Proof

set_option Elab.async false

/-- The word of `i`, if `i` is well-formed and has one, is an instruction on the kind of
core `i` is for, and every kind of core that has it decodes it to `i`. -/
def Statement (i : Instr) : Prop :=
  ∀ w, i.wf = true → encode i = some w →
    wrongKind i.memOnly w = false ∧ ∀ mem, wrongKind mem w = false → decode mem w = .ok i

/-- The statement from the word and the kind of core of an instruction. -/
theorem of_word {i : Instr} {w : IWord} {m : Bool} (he : encode i = some w) (hm : i.memOnly = m)
    (hk : wrongKind m w = false)
    (hd : i.wf = true → ∀ mem, wrongKind mem w = false → decode mem w = .ok i) : Statement i := by
  intro w' hf h
  obtain rfl : w = w' := by rw [he] at h; exact Option.some.inj h
  exact ⟨by rw [hm]; exact hk, hd hf⟩

/-- The statement of a row that has no word. -/
theorem of_none {i : Instr} (he : encode i = none) : Statement i := by
  intro w _ h
  rw [he] at h
  exact absurd h (by simp)

theorem decode_00 {w : IWord} {mem : Bool} (h : major w = 0) (k : wrongKind mem w = false) :
    decode mem w = decAlu w := by
  simp [decode, h, k, reservedMajor]
theorem kind_00 {w : IWord} {mem : Bool} (h : major w = 0) : wrongKind mem w = false := by
  simp [wrongKind, h]
theorem decode_01 {w : IWord} {mem : Bool} (h : major w = 1) (k : wrongKind mem w = false) :
    decode mem w = decPred w := by
  simp [decode, h, k, reservedMajor]
theorem kind_01 {w : IWord} {mem : Bool} (h : major w = 1) : wrongKind mem w = false := by
  simp [wrongKind, h]
theorem decode_02 {w : IWord} {mem : Bool} (h : major w = 2) (k : wrongKind mem w = false) :
    decode mem w = decImm 2 w := by
  simp [decode, h, k, reservedMajor]
theorem kind_02 {w : IWord} {mem : Bool} (h : major w = 2) : wrongKind mem w = false := by
  simp [wrongKind, h]
theorem decode_03 {w : IWord} {mem : Bool} (h : major w = 3) (k : wrongKind mem w = false) :
    decode mem w = decImm 3 w := by
  simp [decode, h, k, reservedMajor]
theorem kind_03 {w : IWord} {mem : Bool} (h : major w = 3) : wrongKind mem w = false := by
  simp [wrongKind, h]
theorem decode_04 {w : IWord} {mem : Bool} (h : major w = 4) (k : wrongKind mem w = false) :
    decode mem w = decImm 4 w := by
  simp [decode, h, k, reservedMajor]
theorem kind_04 {w : IWord} {mem : Bool} (h : major w = 4) : wrongKind mem w = false := by
  simp [wrongKind, h]
theorem decode_05 {w : IWord} {mem : Bool} (h : major w = 5) (k : wrongKind mem w = false) :
    decode mem w = decImm 5 w := by
  simp [decode, h, k, reservedMajor]
theorem kind_05 {w : IWord} {mem : Bool} (h : major w = 5) : wrongKind mem w = false := by
  simp [wrongKind, h]
theorem decode_06 {w : IWord} {mem : Bool} (h : major w = 6) (k : wrongKind mem w = false) :
    decode mem w = decImm 6 w := by
  simp [decode, h, k, reservedMajor]
theorem kind_06 {w : IWord} {mem : Bool} (h : major w = 6) : wrongKind mem w = false := by
  simp [wrongKind, h]
theorem decode_07 {w : IWord} {mem : Bool} (h : major w = 7) (k : wrongKind mem w = false) :
    decode mem w = decImm 7 w := by
  simp [decode, h, k, reservedMajor]
theorem kind_07 {w : IWord} {mem : Bool} (h : major w = 7) : wrongKind mem w = false := by
  simp [wrongKind, h]
theorem decode_08 {w : IWord} {mem : Bool} (h : major w = 8) (k : wrongKind mem w = false) :
    decode mem w = decImm 8 w := by
  simp [decode, h, k, reservedMajor]
theorem kind_08 {w : IWord} {mem : Bool} (h : major w = 8) : wrongKind mem w = false := by
  simp [wrongKind, h]
theorem decode_09 {w : IWord} {mem : Bool} (h : major w = 9) (k : wrongKind mem w = false) :
    decode mem w = decImm 9 w := by
  simp [decode, h, k, reservedMajor]
theorem kind_09 {w : IWord} {mem : Bool} (h : major w = 9) : wrongKind mem w = false := by
  simp [wrongKind, h]
theorem decode_0a {w : IWord} {mem : Bool} (h : major w = 10) (k : wrongKind mem w = false) :
    decode mem w = decImm 10 w := by
  simp [decode, h, k, reservedMajor]
theorem kind_0a {w : IWord} {mem : Bool} (h : major w = 10) : wrongKind mem w = false := by
  simp [wrongKind, h]
theorem decode_0b {w : IWord} {mem : Bool} (h : major w = 11) (k : wrongKind mem w = false) :
    decode mem w = decImm 11 w := by
  simp [decode, h, k, reservedMajor]
theorem kind_0b {w : IWord} {mem : Bool} (h : major w = 11) : wrongKind mem w = false := by
  simp [wrongKind, h]
theorem decode_0c {w : IWord} {mem : Bool} (h : major w = 12) (k : wrongKind mem w = false) :
    decode mem w = decImm 12 w := by
  simp [decode, h, k, reservedMajor]
theorem kind_0c {w : IWord} {mem : Bool} (h : major w = 12) : wrongKind mem w = false := by
  simp [wrongKind, h]
theorem decode_0d {w : IWord} {mem : Bool} (h : major w = 13) (k : wrongKind mem w = false) :
    decode mem w = decImm 13 w := by
  simp [decode, h, k, reservedMajor]
theorem kind_0d {w : IWord} {mem : Bool} (h : major w = 13) : wrongKind mem w = false := by
  simp [wrongKind, h]
theorem decode_0e {w : IWord} {mem : Bool} (h : major w = 14) (k : wrongKind mem w = false) :
    decode mem w = decBranch w := by
  simp [decode, h, k, reservedMajor]
theorem kind_0e {w : IWord} {mem : Bool} (h : major w = 14) : wrongKind mem w = false := by
  simp [wrongKind, h]
theorem decode_0f {w : IWord} {mem : Bool} (h : major w = 15) (k : wrongKind mem w = false) :
    decode mem w = decImm 15 w := by
  simp [decode, h, k, reservedMajor]
theorem kind_0f {w : IWord} {mem : Bool} (h : major w = 15) : wrongKind mem w = false := by
  simp [wrongKind, h]
theorem decode_10 {w : IWord} {mem : Bool} (h : major w = 16) (k : wrongKind mem w = false) :
    decode mem w = decMem 16 w := by
  simp [decode, h, k, reservedMajor]
theorem kind_10 {w : IWord} {mem : Bool} (h : major w = 16) : wrongKind mem w = false := by
  simp [wrongKind, h]
theorem decode_11 {w : IWord} {mem : Bool} (h : major w = 17) (k : wrongKind mem w = false) :
    decode mem w = decMem 17 w := by
  simp [decode, h, k, reservedMajor]
theorem kind_11 {w : IWord} {mem : Bool} (h : major w = 17) : wrongKind mem w = false := by
  simp [wrongKind, h]
theorem decode_12 {w : IWord} {mem : Bool} (h : major w = 18) (k : wrongKind mem w = false) :
    decode mem w = decMem 18 w := by
  simp [decode, h, k, reservedMajor]
theorem kind_12 {w : IWord} {mem : Bool} (h : major w = 18) : wrongKind mem w = false := by
  simp [wrongKind, h]
theorem decode_13 {w : IWord} {mem : Bool} (h : major w = 19) (k : wrongKind mem w = false) :
    decode mem w = decMem 19 w := by
  simp [decode, h, k, reservedMajor]
theorem kind_13 {w : IWord} {mem : Bool} (h : major w = 19) : wrongKind mem w = false := by
  simp [wrongKind, h]
theorem decode_14 {w : IWord} {mem : Bool} (h : major w = 20) (k : wrongKind mem w = false) :
    decode mem w = decMem 20 w := by
  simp [decode, h, k, reservedMajor]
theorem kind_14 {w : IWord} {mem : Bool} (h : major w = 20) : wrongKind mem w = false := by
  simp [wrongKind, h]
theorem decode_15 {w : IWord} {mem : Bool} (h : major w = 21) (k : wrongKind mem w = false) :
    decode mem w = decMem 21 w := by
  simp [decode, h, k, reservedMajor]
theorem kind_15 {w : IWord} {mem : Bool} (h : major w = 21) : wrongKind mem w = false := by
  simp [wrongKind, h]
theorem decode_20 {w : IWord} {mem : Bool} (h : major w = 32) (k : wrongKind mem w = false) :
    decode mem w = decVec 32 w := by
  simp [decode, h, k, reservedMajor]
theorem kind_20 {w : IWord} {mem : Bool} (h : major w = 32) : wrongKind mem w = false := by
  simp [wrongKind, h]
theorem decode_21 {w : IWord} {mem : Bool} (h : major w = 33) (k : wrongKind mem w = false) :
    decode mem w = decVec 33 w := by
  simp [decode, h, k, reservedMajor]
theorem kind_21 {w : IWord} {mem : Bool} (h : major w = 33) : wrongKind mem w = false := by
  simp [wrongKind, h]
theorem decode_22 {w : IWord} {mem : Bool} (h : major w = 34) (k : wrongKind mem w = false) :
    decode mem w = decVec 34 w := by
  simp [decode, h, k, reservedMajor]
theorem kind_22 {w : IWord} {mem : Bool} (h : major w = 34) : wrongKind mem w = false := by
  simp [wrongKind, h]
theorem decode_23 {w : IWord} {mem : Bool} (h : major w = 35) (k : wrongKind mem w = false) :
    decode mem w = decVec 35 w := by
  simp [decode, h, k, reservedMajor]
theorem kind_23 {w : IWord} {mem : Bool} (h : major w = 35) : wrongKind mem w = false := by
  simp [wrongKind, h]
theorem decode_24 {w : IWord} {mem : Bool} (h : major w = 36) (k : wrongKind mem w = false) :
    decode mem w = decVec 36 w := by
  simp [decode, h, k, reservedMajor]
theorem kind_24 {w : IWord} {mem : Bool} (h : major w = 36) : wrongKind mem w = false := by
  simp [wrongKind, h]
theorem decode_25 {w : IWord} {mem : Bool} (h : major w = 37) (k : wrongKind mem w = false) :
    decode mem w = decVec 37 w := by
  simp [decode, h, k, reservedMajor]
theorem kind_25 {w : IWord} {mem : Bool} (h : major w = 37) : wrongKind mem w = false := by
  simp [wrongKind, h]
theorem decode_26 {w : IWord} {mem : Bool} (h : major w = 38) (k : wrongKind mem w = false) :
    decode mem w = decVec 38 w := by
  simp [decode, h, k, reservedMajor]
theorem kind_26 {w : IWord} {mem : Bool} (h : major w = 38) : wrongKind mem w = false := by
  simp [wrongKind, h]
theorem decode_27 {w : IWord} {mem : Bool} (h : major w = 39) (k : wrongKind mem w = false) :
    decode mem w = decVec 39 w := by
  simp [decode, h, k, reservedMajor]
theorem kind_27 {w : IWord} {mem : Bool} (h : major w = 39) : wrongKind mem w = false := by
  simp [wrongKind, h]
theorem decode_28 {w : IWord} {mem : Bool} (h : major w = 40) (k : wrongKind mem w = false) :
    decode mem w = decVec 40 w := by
  simp [decode, h, k, reservedMajor]
theorem kind_28 {w : IWord} {mem : Bool} (h : major w = 40) : wrongKind mem w = false := by
  simp [wrongKind, h]
theorem decode_29 {w : IWord} {mem : Bool} (h : major w = 41) (k : wrongKind mem w = false) :
    decode mem w = decVec 41 w := by
  simp [decode, h, k, reservedMajor]
theorem kind_29 {w : IWord} {mem : Bool} (h : major w = 41) : wrongKind mem w = false := by
  simp [wrongKind, h]
theorem decode_2a {w : IWord} {mem : Bool} (h : major w = 42) (k : wrongKind mem w = false) :
    decode mem w = decVec 42 w := by
  simp [decode, h, k, reservedMajor]
theorem kind_2a {w : IWord} {mem : Bool} (h : major w = 42) : wrongKind mem w = false := by
  simp [wrongKind, h]
theorem decode_2b {w : IWord} {mem : Bool} (h : major w = 43) (k : wrongKind mem w = false) :
    decode mem w = decVec 43 w := by
  simp [decode, h, k, reservedMajor]
theorem kind_2b {w : IWord} {mem : Bool} (h : major w = 43) : wrongKind mem w = false := by
  simp [wrongKind, h]
theorem decode_2c {w : IWord} {mem : Bool} (h : major w = 44) (k : wrongKind mem w = false) :
    decode mem w = decVec 44 w := by
  simp [decode, h, k, reservedMajor]
theorem kind_2c {w : IWord} {mem : Bool} (h : major w = 44) : wrongKind mem w = false := by
  simp [wrongKind, h]
theorem decode_2d {w : IWord} {mem : Bool} (h : major w = 45) (k : wrongKind mem w = false) :
    decode mem w = decVec 45 w := by
  simp [decode, h, k, reservedMajor]
theorem kind_2d {w : IWord} {mem : Bool} (h : major w = 45) : wrongKind mem w = false := by
  simp [wrongKind, h]
theorem decode_2e {w : IWord} {mem : Bool} (h : major w = 46) (k : wrongKind mem w = false) :
    decode mem w = decVI w := by
  simp [decode, h, k, reservedMajor]
theorem kind_2e {w : IWord} {mem : Bool} (h : major w = 46) : wrongKind mem w = false := by
  simp [wrongKind, h]
theorem decode_30 {w : IWord} {mem : Bool} (h : major w = 48) (k : wrongKind mem w = false) :
    decode mem w = decMat 48 w := by
  simp [decode, h, k, reservedMajor]
theorem decode_31 {w : IWord} {mem : Bool} (h : major w = 49) (k : wrongKind mem w = false) :
    decode mem w = decMat 49 w := by
  simp [decode, h, k, reservedMajor]
theorem decode_32 {w : IWord} {mem : Bool} (h : major w = 50) (k : wrongKind mem w = false) :
    decode mem w = decMat 50 w := by
  simp [decode, h, k, reservedMajor]
theorem decode_33 {w : IWord} {mem : Bool} (h : major w = 51) (k : wrongKind mem w = false) :
    decode mem w = decMat 51 w := by
  simp [decode, h, k, reservedMajor]
theorem decode_34 {w : IWord} {mem : Bool} (h : major w = 52) (k : wrongKind mem w = false) :
    decode mem w = decMat 52 w := by
  simp [decode, h, k, reservedMajor]
theorem decode_35 {w : IWord} {mem : Bool} (h : major w = 53) (k : wrongKind mem w = false) :
    decode mem w = decMat 53 w := by
  simp [decode, h, k, reservedMajor]
theorem decode_38 {w : IWord} {mem : Bool} (h : major w = 56) (k : wrongKind mem w = false) :
    decode mem w = decCtl 56 w := by
  simp [decode, h, k, reservedMajor]
theorem kind_38 {w : IWord} {mem : Bool} (h : major w = 56) : wrongKind mem w = false := by
  simp [wrongKind, h]
theorem decode_39 {w : IWord} {mem : Bool} (h : major w = 57) (k : wrongKind mem w = false) :
    decode mem w = decCtl 57 w := by
  simp [decode, h, k, reservedMajor]
theorem kind_39 {w : IWord} {mem : Bool} (h : major w = 57) : wrongKind mem w = false := by
  simp [wrongKind, h]
theorem decode_3a {w : IWord} {mem : Bool} (h : major w = 58) (k : wrongKind mem w = false) :
    decode mem w = decCtl 58 w := by
  simp [decode, h, k, reservedMajor]
theorem kind_3a {w : IWord} {mem : Bool} (h : major w = 58) : wrongKind mem w = false := by
  simp [wrongKind, h]
theorem decode_3b {w : IWord} {mem : Bool} (h : major w = 59) (k : wrongKind mem w = false) :
    decode mem w = decCtl 59 w := by
  simp [decode, h, k, reservedMajor]
theorem kind_3b {w : IWord} {mem : Bool} (h : major w = 59) : wrongKind mem w = false := by
  simp [wrongKind, h]
theorem decode_3c {w : IWord} {mem : Bool} (h : major w = 60) (k : wrongKind mem w = false) :
    decode mem w = decCtl 60 w := by
  simp [decode, h, k, reservedMajor]
theorem decode_3d {w : IWord} {mem : Bool} (h : major w = 61) (k : wrongKind mem w = false) :
    decode mem w = decHbm w := by
  simp [decode, h, k, reservedMajor]
theorem decode_3e {w : IWord} {mem : Bool} (h : major w = 62) (k : wrongKind mem w = false) :
    decode mem w = decHint 62 w := by
  simp [decode, h, k, reservedMajor]
theorem kind_3e {w : IWord} {mem : Bool} (h : major w = 62) : wrongKind mem w = false := by
  simp [wrongKind, h]
theorem decode_3f {w : IWord} {mem : Bool} (h : major w = 63) (k : wrongKind mem w = false) :
    decode mem w = decHint 63 w := by
  simp [decode, h, k, reservedMajor]
theorem kind_3f {w : IWord} {mem : Bool} (h : major w = 63) : wrongKind mem w = false := by
  simp [wrongKind, h]
theorem add (rd ra rb) : Statement (.add rd ra rb) :=
  of_word (m := false) rfl rfl (kind_00 (by simp)) fun hw mem hk => by
    rw [decode_00 (by simp) hk]
    simp [decAlu]

theorem sub (rd ra rb) : Statement (.sub rd ra rb) :=
  of_word (m := false) rfl rfl (kind_00 (by simp)) fun hw mem hk => by
    rw [decode_00 (by simp) hk]
    simp [decAlu]

theorem and (rd ra rb) : Statement (.and rd ra rb) :=
  of_word (m := false) rfl rfl (kind_00 (by simp)) fun hw mem hk => by
    rw [decode_00 (by simp) hk]
    simp [decAlu]

theorem or (rd ra rb) : Statement (.or rd ra rb) :=
  of_word (m := false) rfl rfl (kind_00 (by simp)) fun hw mem hk => by
    rw [decode_00 (by simp) hk]
    simp [decAlu]

theorem xor (rd ra rb) : Statement (.xor rd ra rb) :=
  of_word (m := false) rfl rfl (kind_00 (by simp)) fun hw mem hk => by
    rw [decode_00 (by simp) hk]
    simp [decAlu]

theorem shl (rd ra rb) : Statement (.shl rd ra rb) :=
  of_word (m := false) rfl rfl (kind_00 (by simp)) fun hw mem hk => by
    rw [decode_00 (by simp) hk]
    simp [decAlu]

theorem shr (rd ra rb) : Statement (.shr rd ra rb) :=
  of_word (m := false) rfl rfl (kind_00 (by simp)) fun hw mem hk => by
    rw [decode_00 (by simp) hk]
    simp [decAlu]

theorem sra (rd ra rb) : Statement (.sra rd ra rb) :=
  of_word (m := false) rfl rfl (kind_00 (by simp)) fun hw mem hk => by
    rw [decode_00 (by simp) hk]
    simp [decAlu]

theorem mul (rd ra rb) : Statement (.mul rd ra rb) :=
  of_word (m := false) rfl rfl (kind_00 (by simp)) fun hw mem hk => by
    rw [decode_00 (by simp) hk]
    simp [decAlu]

theorem mulh (rd ra rb) : Statement (.mulh rd ra rb) :=
  of_word (m := false) rfl rfl (kind_00 (by simp)) fun hw mem hk => by
    rw [decode_00 (by simp) hk]
    simp [decAlu]

theorem mulhn (rd ra rb) : Statement (.mulhn rd ra rb) :=
  of_word (m := false) rfl rfl (kind_00 (by simp)) fun hw mem hk => by
    rw [decode_00 (by simp) hk]
    simp [decAlu]

theorem div (rd ra rb) : Statement (.div rd ra rb) :=
  of_word (m := false) rfl rfl (kind_00 (by simp)) fun hw mem hk => by
    rw [decode_00 (by simp) hk]
    simp [decAlu]

theorem divn (rd ra rb) : Statement (.divn rd ra rb) :=
  of_word (m := false) rfl rfl (kind_00 (by simp)) fun hw mem hk => by
    rw [decode_00 (by simp) hk]
    simp [decAlu]

theorem rem (rd ra rb) : Statement (.rem rd ra rb) :=
  of_word (m := false) rfl rfl (kind_00 (by simp)) fun hw mem hk => by
    rw [decode_00 (by simp) hk]
    simp [decAlu]

theorem remn (rd ra rb) : Statement (.remn rd ra rb) :=
  of_word (m := false) rfl rfl (kind_00 (by simp)) fun hw mem hk => by
    rw [decode_00 (by simp) hk]
    simp [decAlu]

theorem min (rd ra rb) : Statement (.min rd ra rb) :=
  of_word (m := false) rfl rfl (kind_00 (by simp)) fun hw mem hk => by
    rw [decode_00 (by simp) hk]
    simp [decAlu]

theorem max (rd ra rb) : Statement (.max rd ra rb) :=
  of_word (m := false) rfl rfl (kind_00 (by simp)) fun hw mem hk => by
    rw [decode_00 (by simp) hk]
    simp [decAlu]

theorem minn (rd ra rb) : Statement (.minn rd ra rb) :=
  of_word (m := false) rfl rfl (kind_00 (by simp)) fun hw mem hk => by
    rw [decode_00 (by simp) hk]
    simp [decAlu]

theorem maxn (rd ra rb) : Statement (.maxn rd ra rb) :=
  of_word (m := false) rfl rfl (kind_00 (by simp)) fun hw mem hk => by
    rw [decode_00 (by simp) hk]
    simp [decAlu]

theorem slt (rd ra rb) : Statement (.slt rd ra rb) :=
  of_word (m := false) rfl rfl (kind_00 (by simp)) fun hw mem hk => by
    rw [decode_00 (by simp) hk]
    simp [decAlu]

theorem sltn (rd ra rb) : Statement (.sltn rd ra rb) :=
  of_word (m := false) rfl rfl (kind_00 (by simp)) fun hw mem hk => by
    rw [decode_00 (by simp) hk]
    simp [decAlu]

theorem clz (rd ra) : Statement (.clz rd ra) :=
  of_word (m := false) rfl rfl (kind_00 (by simp)) fun hw mem hk => by
    rw [decode_00 (by simp) hk]
    simp [decAlu, guardD]

theorem ctz (rd ra) : Statement (.ctz rd ra) :=
  of_word (m := false) rfl rfl (kind_00 (by simp)) fun hw mem hk => by
    rw [decode_00 (by simp) hk]
    simp [decAlu, guardD]

theorem popc (rd ra) : Statement (.popc rd ra) :=
  of_word (m := false) rfl rfl (kind_00 (by simp)) fun hw mem hk => by
    rw [decode_00 (by simp) hk]
    simp [decAlu, guardD]

theorem sext (rd ra w) : Statement (.sext rd ra w) :=
  of_word (m := false) rfl rfl (kind_00 (by simp)) fun hw mem hk => by
    rw [decode_00 (by simp) hk]
    simp [decAlu]

theorem zext (rd ra w) : Statement (.zext rd ra w) :=
  of_word (m := false) rfl rfl (kind_00 (by simp)) fun hw mem hk => by
    rw [decode_00 (by simp) hk]
    simp [decAlu]

theorem bext (rd ra rb) : Statement (.bext rd ra rb) :=
  of_word (m := false) rfl rfl (kind_00 (by simp)) fun hw mem hk => by
    rw [decode_00 (by simp) hk]
    simp [decAlu]

theorem bins (rd ra rb) : Statement (.bins rd ra rb) :=
  of_word (m := false) rfl rfl (kind_00 (by simp)) fun hw mem hk => by
    rw [decode_00 (by simp) hk]
    simp [decAlu]

theorem nop : Statement .nop :=
  of_word (m := false) rfl rfl (kind_00 (by simp)) fun hw mem hk => by
    rw [decode_00 (by simp) hk]
    simp [decAlu, guardD]

theorem sel (rd ra rb k) : Statement (.sel rd ra rb k) :=
  of_word (m := false) rfl rfl (kind_00 (by simp)) fun hw mem hk => by
    rw [decode_00 (by simp) hk]
    rcases (by decide : ∀ k : BitVec 3, k = 0 ∨ k = 1 ∨ k = 2 ∨ k = 3 ∨ k = 4 ∨ k = 5 ∨ k = 6 ∨ k = 7) k with
      rfl | rfl | rfl | rfl | rfl | rfl | rfl | rfl <;>
    simp [decAlu]

theorem pcmp (c p ra rb) : Statement (.pcmp c p ra rb) :=
  of_word (m := false) rfl rfl (kind_01 (by simp)) fun hw mem hk => by
    rw [decode_01 (by simp) hk]
    simp [decPred, fieldD, Cond.ofCode_code]

theorem pand (d a b) : Statement (.pand d a b) :=
  of_word (m := false) rfl rfl (kind_01 (by simp)) fun hw mem hk => by
    rw [decode_01 (by simp) hk]
    simp [decPred]

theorem por (d a b) : Statement (.por d a b) :=
  of_word (m := false) rfl rfl (kind_01 (by simp)) fun hw mem hk => by
    rw [decode_01 (by simp) hk]
    simp [decPred]

theorem pnot (d a) : Statement (.pnot d a) :=
  of_word (m := false) rfl rfl (kind_01 (by simp)) fun hw mem hk => by
    rw [decode_01 (by simp) hk]
    simp [decPred, guardD]

theorem jr (ra) : Statement (.jr ra) :=
  of_word (m := false) rfl rfl (kind_01 (by simp)) fun hw mem hk => by
    rw [decode_01 (by simp) hk]
    simp [decPred, guardD]

theorem tret : Statement .tret :=
  of_word (m := false) rfl rfl (kind_01 (by simp)) fun hw mem hk => by
    rw [decode_01 (by simp) hk]
    simp [decPred, guardD]

theorem wfe : Statement .wfe :=
  of_word (m := false) rfl rfl (kind_01 (by simp)) fun hw mem hk => by
    rw [decode_01 (by simp) hk]
    simp [decPred, guardD]

theorem xtake (rd x) : Statement (.xtake rd x) :=
  of_word (m := false) rfl rfl (kind_01 (by simp)) fun hw mem hk => by
    rw [decode_01 (by simp) hk]
    simp [decPred, guardD]

theorem xtst (p x) : Statement (.xtst p x) :=
  of_word (m := false) rfl rfl (kind_01 (by simp)) fun hw mem hk => by
    rw [decode_01 (by simp) hk]
    simp [decPred, guardD]

theorem xclr (x) : Statement (.xclr x) :=
  of_word (m := false) rfl rfl (kind_01 (by simp)) fun hw mem hk => by
    rw [decode_01 (by simp) hk]
    simp [decPred, guardD]

theorem feinit (ra rb) : Statement (.feinit ra rb) :=
  of_word (m := false) rfl rfl (kind_01 (by simp)) fun hw mem hk => by
    rw [decode_01 (by simp) hk]
    simp [decPred, guardD]

theorem rinit (q ra) : Statement (.rinit q ra) :=
  of_word (m := false) rfl rfl (kind_01 (by simp)) fun hw mem hk => by
    rw [decode_01 (by simp) hk]
    simp [decPred, guardD]

theorem addi (rd ra imm) : Statement (.addi rd ra imm) :=
  of_word (m := false) rfl rfl (kind_02 (by simp)) fun hw mem hk => by
    rw [decode_02 (by simp) hk]
    simp [decImm]

theorem slti (rd ra imm) : Statement (.slti rd ra imm) :=
  of_word (m := false) rfl rfl (kind_02 (by simp)) fun hw mem hk => by
    rw [decode_02 (by simp) hk]
    simp [decImm]

theorem andi (rd ra imm) : Statement (.andi rd ra imm) :=
  of_word (m := false) rfl rfl (kind_03 (by simp)) fun hw mem hk => by
    rw [decode_03 (by simp) hk]
    simp [decImm]

theorem ori (rd ra imm) : Statement (.ori rd ra imm) :=
  of_word (m := false) rfl rfl (kind_03 (by simp)) fun hw mem hk => by
    rw [decode_03 (by simp) hk]
    simp [decImm]

theorem xori (rd ra imm) : Statement (.xori rd ra imm) :=
  of_word (m := false) rfl rfl (kind_04 (by simp)) fun hw mem hk => by
    rw [decode_04 (by simp) hk]
    simp [decImm, guardD]

theorem shli (rd ra n) : Statement (.shli rd ra n) :=
  of_word (m := false) rfl rfl (kind_05 (by simp)) fun hw mem hk => by
    rw [decode_05 (by simp) hk]
    simp [decImm, guardD]

theorem shri (rd ra n) : Statement (.shri rd ra n) :=
  of_word (m := false) rfl rfl (kind_05 (by simp)) fun hw mem hk => by
    rw [decode_05 (by simp) hk]
    simp [decImm, guardD]

theorem srai (rd ra n) : Statement (.srai rd ra n) :=
  of_word (m := false) rfl rfl (kind_05 (by simp)) fun hw mem hk => by
    rw [decode_05 (by simp) hk]
    simp [decImm, guardD]

theorem pcmpi (c p ra imm) : Statement (.pcmpi c p ra imm) :=
  of_word (m := false) rfl rfl (kind_06 (by simp)) fun hw mem hk => by
    rw [decode_06 (by simp) hk]
    simp [decImm, guardD, fieldD, Cond.ofCode_code]

theorem movi (rd imm) : Statement (.movi rd imm) :=
  of_word (m := false) rfl rfl (kind_07 (by simp)) fun hw mem hk => by
    rw [decode_07 (by simp) hk]
    simp [decImm, guardD]

theorem csrr (rd csr) : Statement (.csrr rd csr) :=
  of_word (m := false) rfl rfl (kind_08 (by simp)) fun hw mem hk => by
    rw [decode_08 (by simp) hk]
    simp [decImm, guardD, fieldD, Csr.ofCode_code]

theorem csrw (ra csr) : Statement (.csrw ra csr) :=
  of_word (m := false) rfl rfl (kind_08 (by simp)) fun hw mem hk => by
    rw [decode_08 (by simp) hk]
    simp [decImm, guardD, fieldD, Csr.ofCode_code]

theorem csrs (ra csr) : Statement (.csrs ra csr) :=
  of_word (m := false) rfl rfl (kind_09 (by simp)) fun hw mem hk => by
    rw [decode_09 (by simp) hk]
    simp [decImm, guardD, fieldD, Csr.ofCode_code]

theorem csrc (ra csr) : Statement (.csrc ra csr) :=
  of_word (m := false) rfl rfl (kind_09 (by simp)) fun hw mem hk => by
    rw [decode_09 (by simp) hk]
    simp [decImm, guardD, fieldD, Csr.ofCode_code]

theorem fence (o sc) : Statement (.fence o sc) :=
  of_word (m := false) rfl rfl (kind_0a (by simp)) fun hw mem hk => by
    rw [decode_0a (by simp) hk]
    simp [decImm, guardD, fieldD, Scope.ofCode_code]

theorem cset (w ra imm) : Statement (.cset w ra imm) :=
  of_word (m := false) rfl rfl (kind_0b (by simp)) fun hw mem hk => by
    rw [decode_0b (by simp) hk]
    simp [decImm]

theorem cadd (w ra imm) : Statement (.cadd w ra imm) :=
  of_word (m := false) rfl rfl (kind_0b (by simp)) fun hw mem hk => by
    rw [decode_0b (by simp) hk]
    simp [decImm]

theorem wait (w) : Statement (.wait w) :=
  of_word (m := false) rfl rfl (kind_0c (by simp)) fun hw mem hk => by
    rw [decode_0c (by simp) hk]
    simp [decImm, guardD]

theorem waitle (w ra imm) : Statement (.waitle w ra imm) :=
  of_word (m := false) rfl rfl (kind_0c (by simp)) fun hw mem hk => by
    rw [decode_0c (by simp) hk]
    simp [decImm]

theorem trap (code) : Statement (.trap code) :=
  of_word (m := false) rfl rfl (kind_0d (by simp)) fun hw mem hk => by
    rw [decode_0d (by simp) hk]
    simp [decImm, guardD]

theorem svc (code) : Statement (.svc code) :=
  of_word (m := false) rfl rfl (kind_0d (by simp)) fun hw mem hk => by
    rw [decode_0d (by simp) hk]
    simp [decImm, guardD]

theorem br (disp) : Statement (.br disp) :=
  of_word (m := false) rfl rfl (kind_0e (by simp)) fun hw mem hk => by
    rw [decode_0e (by simp) hk]
    simp [decBranch, guardD]

theorem bp (p disp) : Statement (.bp p disp) :=
  of_word (m := false) rfl rfl (kind_0e (by simp)) fun hw mem hk => by
    rw [decode_0e (by simp) hk]
    simp [decBranch]

theorem bnp (p disp) : Statement (.bnp p disp) :=
  of_word (m := false) rfl rfl (kind_0e (by simp)) fun hw mem hk => by
    rw [decode_0e (by simp) hk]
    simp [decBranch]

theorem jal (disp) : Statement (.jal disp) :=
  of_word (m := false) rfl rfl (kind_0e (by simp)) fun hw mem hk => by
    rw [decode_0e (by simp) hk]
    simp [decBranch, guardD]

theorem loop (ra imm) : Statement (.loop ra imm) :=
  of_word (m := false) rfl rfl (kind_0f (by simp)) fun hw mem hk => by
    rw [decode_0f (by simp) hk]
    simp [decImm, guardD]

theorem ldb (rt ra disp) : Statement (.ldb rt ra disp) :=
  of_word (m := false) rfl rfl (kind_10 (by simp)) fun hw mem hk => by
    rw [decode_10 (by simp) hk]
    simp [decMem]

theorem ldbn (rt ra disp) : Statement (.ldbn rt ra disp) :=
  of_word (m := false) rfl rfl (kind_10 (by simp)) fun hw mem hk => by
    rw [decode_10 (by simp) hk]
    simp [decMem]

theorem ldh (rt ra disp) : Statement (.ldh rt ra disp) :=
  of_word (m := false) rfl rfl (kind_10 (by simp)) fun hw mem hk => by
    rw [decode_10 (by simp) hk]
    simp [decMem]

theorem ldhn (rt ra disp) : Statement (.ldhn rt ra disp) :=
  of_word (m := false) rfl rfl (kind_10 (by simp)) fun hw mem hk => by
    rw [decode_10 (by simp) hk]
    simp [decMem]

theorem ldw (rt ra disp) : Statement (.ldw rt ra disp) :=
  of_word (m := false) rfl rfl (kind_10 (by simp)) fun hw mem hk => by
    rw [decode_10 (by simp) hk]
    simp [decMem]

theorem ldwn (rt ra disp) : Statement (.ldwn rt ra disp) :=
  of_word (m := false) rfl rfl (kind_10 (by simp)) fun hw mem hk => by
    rw [decode_10 (by simp) hk]
    simp [decMem]

theorem ldd (rt ra disp) : Statement (.ldd rt ra disp) :=
  of_word (m := false) rfl rfl (kind_10 (by simp)) fun hw mem hk => by
    rw [decode_10 (by simp) hk]
    simp [decMem]

theorem ldbAcq (rt ra disp) : Statement (.ldbAcq rt ra disp) :=
  of_word (m := false) rfl rfl (kind_11 (by simp)) fun hw mem hk => by
    rw [decode_11 (by simp) hk]
    simp [decMem]

theorem ldbnAcq (rt ra disp) : Statement (.ldbnAcq rt ra disp) :=
  of_word (m := false) rfl rfl (kind_11 (by simp)) fun hw mem hk => by
    rw [decode_11 (by simp) hk]
    simp [decMem]

theorem ldhAcq (rt ra disp) : Statement (.ldhAcq rt ra disp) :=
  of_word (m := false) rfl rfl (kind_11 (by simp)) fun hw mem hk => by
    rw [decode_11 (by simp) hk]
    simp [decMem]

theorem ldhnAcq (rt ra disp) : Statement (.ldhnAcq rt ra disp) :=
  of_word (m := false) rfl rfl (kind_11 (by simp)) fun hw mem hk => by
    rw [decode_11 (by simp) hk]
    simp [decMem]

theorem ldwAcq (rt ra disp) : Statement (.ldwAcq rt ra disp) :=
  of_word (m := false) rfl rfl (kind_11 (by simp)) fun hw mem hk => by
    rw [decode_11 (by simp) hk]
    simp [decMem]

theorem ldwnAcq (rt ra disp) : Statement (.ldwnAcq rt ra disp) :=
  of_word (m := false) rfl rfl (kind_11 (by simp)) fun hw mem hk => by
    rw [decode_11 (by simp) hk]
    simp [decMem]

theorem lddAcq (rt ra disp) : Statement (.lddAcq rt ra disp) :=
  of_word (m := false) rfl rfl (kind_11 (by simp)) fun hw mem hk => by
    rw [decode_11 (by simp) hk]
    simp [decMem]

theorem stb (rt ra disp) : Statement (.stb rt ra disp) :=
  of_word (m := false) rfl rfl (kind_12 (by simp)) fun hw mem hk => by
    rw [decode_12 (by simp) hk]
    simp [decMem]

theorem sth (rt ra disp) : Statement (.sth rt ra disp) :=
  of_word (m := false) rfl rfl (kind_12 (by simp)) fun hw mem hk => by
    rw [decode_12 (by simp) hk]
    simp [decMem]

theorem stw (rt ra disp) : Statement (.stw rt ra disp) :=
  of_word (m := false) rfl rfl (kind_12 (by simp)) fun hw mem hk => by
    rw [decode_12 (by simp) hk]
    simp [decMem]

theorem std (rt ra disp) : Statement (.std rt ra disp) :=
  of_word (m := false) rfl rfl (kind_12 (by simp)) fun hw mem hk => by
    rw [decode_12 (by simp) hk]
    simp [decMem]

theorem stbRel (rt ra disp) : Statement (.stbRel rt ra disp) :=
  of_word (m := false) rfl rfl (kind_13 (by simp)) fun hw mem hk => by
    rw [decode_13 (by simp) hk]
    simp [decMem]

theorem sthRel (rt ra disp) : Statement (.sthRel rt ra disp) :=
  of_word (m := false) rfl rfl (kind_13 (by simp)) fun hw mem hk => by
    rw [decode_13 (by simp) hk]
    simp [decMem]

theorem stwRel (rt ra disp) : Statement (.stwRel rt ra disp) :=
  of_word (m := false) rfl rfl (kind_13 (by simp)) fun hw mem hk => by
    rw [decode_13 (by simp) hk]
    simp [decMem]

theorem stdRel (rt ra disp) : Statement (.stdRel rt ra disp) :=
  of_word (m := false) rfl rfl (kind_13 (by simp)) fun hw mem hk => by
    rw [decode_13 (by simp) hk]
    simp [decMem]

theorem ldfe (rt ra disp) : Statement (.ldfe rt ra disp) :=
  of_word (m := false) rfl rfl (kind_14 (by simp)) fun hw mem hk => by
    rw [decode_14 (by simp) hk]
    simp [decMem]

theorem stfe (rt ra disp) : Statement (.stfe rt ra disp) :=
  of_word (m := false) rfl rfl (kind_15 (by simp)) fun hw mem hk => by
    rw [decode_15 (by simp) hk]
    simp [decMem]

theorem vadd (vd va vb t) : Statement (.vadd vd va vb t) :=
  of_word (m := false) rfl rfl (kind_20 (by simp)) fun hw mem hk => by
    rw [decode_20 (by simp) hk]
    simp [decVec]

theorem vsub (vd va vb t) : Statement (.vsub vd va vb t) :=
  of_word (m := false) rfl rfl (kind_20 (by simp)) fun hw mem hk => by
    rw [decode_20 (by simp) hk]
    simp [decVec]

theorem vmul (vd va vb t) : Statement (.vmul vd va vb t) :=
  of_word (m := false) rfl rfl (kind_20 (by simp)) fun hw mem hk => by
    rw [decode_20 (by simp) hk]
    simp [decVec]

theorem vmin (vd va vb t) : Statement (.vmin vd va vb t) :=
  of_word (m := false) rfl rfl (kind_20 (by simp)) fun hw mem hk => by
    rw [decode_20 (by simp) hk]
    simp [decVec]

theorem vmax (vd va vb t) : Statement (.vmax vd va vb t) :=
  of_word (m := false) rfl rfl (kind_20 (by simp)) fun hw mem hk => by
    rw [decode_20 (by simp) hk]
    simp [decVec]

theorem vabs (vd va t) : Statement (.vabs vd va t) :=
  of_word (m := false) rfl rfl (kind_20 (by simp)) fun hw mem hk => by
    rw [decode_20 (by simp) hk]
    simp [decVec, guardD]

theorem vneg (vd va t) : Statement (.vneg vd va t) :=
  of_word (m := false) rfl rfl (kind_20 (by simp)) fun hw mem hk => by
    rw [decode_20 (by simp) hk]
    simp [decVec, guardD]

theorem vdiv (vd va vb t) : Statement (.vdiv vd va vb t) :=
  of_word (m := false) rfl rfl (kind_20 (by simp)) fun hw mem hk => by
    rw [decode_20 (by simp) hk]
    simp [decVec]

theorem vsqrt (vd va t) : Statement (.vsqrt vd va t) :=
  of_word (m := false) rfl rfl (kind_20 (by simp)) fun hw mem hk => by
    rw [decode_20 (by simp) hk]
    simp [decVec, guardD]

theorem vand (vd va vb t) : Statement (.vand vd va vb t) :=
  of_word (m := false) rfl rfl (kind_20 (by simp)) fun hw mem hk => by
    rw [decode_20 (by simp) hk]
    simp [decVec]

theorem vor (vd va vb t) : Statement (.vor vd va vb t) :=
  of_word (m := false) rfl rfl (kind_20 (by simp)) fun hw mem hk => by
    rw [decode_20 (by simp) hk]
    simp [decVec]

theorem vxor (vd va vb t) : Statement (.vxor vd va vb t) :=
  of_word (m := false) rfl rfl (kind_20 (by simp)) fun hw mem hk => by
    rw [decode_20 (by simp) hk]
    simp [decVec]

theorem vnot (vd va t) : Statement (.vnot vd va t) :=
  of_word (m := false) rfl rfl (kind_20 (by simp)) fun hw mem hk => by
    rw [decode_20 (by simp) hk]
    simp [decVec, guardD]

theorem vshl (vd va vb t) : Statement (.vshl vd va vb t) :=
  of_word (m := false) rfl rfl (kind_20 (by simp)) fun hw mem hk => by
    rw [decode_20 (by simp) hk]
    simp [decVec]

theorem vshr (vd va vb t) : Statement (.vshr vd va vb t) :=
  of_word (m := false) rfl rfl (kind_20 (by simp)) fun hw mem hk => by
    rw [decode_20 (by simp) hk]
    simp [decVec]

theorem vsra (vd va vb t) : Statement (.vsra vd va vb t) :=
  of_word (m := false) rfl rfl (kind_20 (by simp)) fun hw mem hk => by
    rw [decode_20 (by simp) hk]
    simp [decVec]

theorem vmulh (vd va vb t) : Statement (.vmulh vd va vb t) :=
  of_word (m := false) rfl rfl (kind_20 (by simp)) fun hw mem hk => by
    rw [decode_20 (by simp) hk]
    simp [decVec]

theorem vexp (vd va t) : Statement (.vexp vd va t) :=
  of_word (m := false) rfl rfl (kind_21 (by simp)) fun hw mem hk => by
    rw [decode_21 (by simp) hk]
    simp [decVec, guardD]

theorem vexp2 (vd va t) : Statement (.vexp2 vd va t) :=
  of_word (m := false) rfl rfl (kind_21 (by simp)) fun hw mem hk => by
    rw [decode_21 (by simp) hk]
    simp [decVec, guardD]

theorem vlog2 (vd va t) : Statement (.vlog2 vd va t) :=
  of_word (m := false) rfl rfl (kind_21 (by simp)) fun hw mem hk => by
    rw [decode_21 (by simp) hk]
    simp [decVec, guardD]

theorem vrcp (vd va t) : Statement (.vrcp vd va t) :=
  of_word (m := false) rfl rfl (kind_21 (by simp)) fun hw mem hk => by
    rw [decode_21 (by simp) hk]
    simp [decVec, guardD]

theorem vrsqrt (vd va t) : Statement (.vrsqrt vd va t) :=
  of_word (m := false) rfl rfl (kind_21 (by simp)) fun hw mem hk => by
    rw [decode_21 (by simp) hk]
    simp [decVec, guardD]

theorem vtanh (vd va t) : Statement (.vtanh vd va t) :=
  of_word (m := false) rfl rfl (kind_21 (by simp)) fun hw mem hk => by
    rw [decode_21 (by simp) hk]
    simp [decVec, guardD]

theorem vsigm (vd va t) : Statement (.vsigm vd va t) :=
  of_word (m := false) rfl rfl (kind_21 (by simp)) fun hw mem hk => by
    rw [decode_21 (by simp) hk]
    simp [decVec, guardD]

theorem vfma (vd va vb vc t) : Statement (.vfma vd va vb vc t) :=
  of_word (m := false) rfl rfl (kind_22 (by simp)) fun hw mem hk => by
    rw [decode_22 (by simp) hk]
    simp [decVec]

theorem vfms (vd va vb vc t) : Statement (.vfms vd va vb vc t) :=
  of_word (m := false) rfl rfl (kind_23 (by simp)) fun hw mem hk => by
    rw [decode_23 (by simp) hk]
    simp [decVec]

theorem vfnma (vd va vb vc t) : Statement (.vfnma vd va vb vc t) :=
  of_word (m := false) rfl rfl (kind_24 (by simp)) fun hw mem hk => by
    rw [decode_24 (by simp) hk]
    simp [decVec]

theorem vfnms (vd va vb vc t) : Statement (.vfnms vd va vb vc t) :=
  of_word (m := false) rfl rfl (kind_25 (by simp)) fun hw mem hk => by
    rw [decode_25 (by simp) hk]
    simp [decVec]

theorem vsel (vd vm vt vf t) : Statement (.vsel vd vm vt vf t) :=
  of_word (m := false) rfl rfl (kind_26 (by simp)) fun hw mem hk => by
    rw [decode_26 (by simp) hk]
    simp [decVec]

theorem vcmp (vd va vb t c) : Statement (.vcmp vd va vb t c) :=
  of_word (m := false) rfl rfl (kind_27 (by simp)) fun hw mem hk => by
    rw [decode_27 (by simp) hk]
    simp [decVec, fieldD, VCond.ofCode_code]

theorem vcvt (vd va dt st rm sat) : Statement (.vcvt vd va dt st rm sat) :=
  of_word (m := false) rfl rfl (kind_28 (by simp)) fun hw mem hk => by
    rw [decode_28 (by simp) hk]
    simp [decVec, guardD]

theorem vqnt (vd va vs rm) : Statement (.vqnt vd va vs rm) :=
  of_word (m := false) rfl rfl (kind_29 (by simp)) fun hw mem hk => by
    rw [decode_29 (by simp) hk]
    simp [decVec, guardD]; rfl

theorem vdqnt (vd va vs dt) : Statement (.vdqnt vd va vs dt) :=
  of_word (m := false) rfl rfl (kind_29 (by simp)) fun hw mem hk => by
    rw [decode_29 (by simp) hk]
    simp [decVec, guardD]

theorem vrsum (vd va t) : Statement (.vrsum vd va t) :=
  of_word (m := false) rfl rfl (kind_2a (by simp)) fun hw mem hk => by
    rw [decode_2a (by simp) hk]
    simp [decVec, guardD]

theorem vcsum (vd va t) : Statement (.vcsum vd va t) :=
  of_word (m := false) rfl rfl (kind_2a (by simp)) fun hw mem hk => by
    rw [decode_2a (by simp) hk]
    simp [decVec, guardD]

theorem vrmax (vd va t) : Statement (.vrmax vd va t) :=
  of_word (m := false) rfl rfl (kind_2a (by simp)) fun hw mem hk => by
    rw [decode_2a (by simp) hk]
    simp [decVec, guardD]

theorem vcmax (vd va t) : Statement (.vcmax vd va t) :=
  of_word (m := false) rfl rfl (kind_2a (by simp)) fun hw mem hk => by
    rw [decode_2a (by simp) hk]
    simp [decVec, guardD]

theorem vmov (vd va) : Statement (.vmov vd va) :=
  of_word (m := false) rfl rfl (kind_2b (by simp)) fun hw mem hk => by
    rw [decode_2b (by simp) hk]
    simp [decVec, guardD]

theorem vbcast (vd va) : Statement (.vbcast vd va) :=
  of_word (m := false) rfl rfl (kind_2b (by simp)) fun hw mem hk => by
    rw [decode_2b (by simp) hk]
    simp [decVec, guardD]

theorem vtrn (vd va t) : Statement (.vtrn vd va t) :=
  of_word (m := false) rfl rfl (kind_2b (by simp)) fun hw mem hk => by
    rw [decode_2b (by simp) hk]
    simp [decVec, guardD]

theorem vext (vd va vb t) : Statement (.vext vd va vb t) :=
  of_word (m := false) rfl rfl (kind_2b (by simp)) fun hw mem hk => by
    rw [decode_2b (by simp) hk]
    simp [decVec]

theorem vins (vd va vb t) : Statement (.vins vd va vb t) :=
  of_word (m := false) rfl rfl (kind_2b (by simp)) fun hw mem hk => by
    rw [decode_2b (by simp) hk]
    simp [decVec]

theorem vsplat (vd g t) : Statement (.vsplat vd g t) :=
  of_word (m := false) rfl rfl (kind_2b (by simp)) fun hw mem hk => by
    rw [decode_2b (by simp) hk]
    simp [decVec, guardD]

theorem vld (vd ga gb) : Statement (.vld vd ga gb) :=
  of_word (m := false) rfl rfl (kind_2c (by simp)) fun hw mem hk => by
    rw [decode_2c (by simp) hk]
    simp [decVec, guardD]

theorem vst (vd ga gb) : Statement (.vst vd ga gb) :=
  of_word (m := false) rfl rfl (kind_2c (by simp)) fun hw mem hk => by
    rw [decode_2c (by simp) hk]
    simp [decVec, guardD]

theorem vgat (vd ga vb t) : Statement (.vgat vd ga vb t) :=
  of_word (m := false) rfl rfl (kind_2c (by simp)) fun hw mem hk => by
    rw [decode_2c (by simp) hk]
    simp [decVec]

theorem vsct (vd ga vb t) : Statement (.vsct vd ga vb t) :=
  of_word (m := false) rfl rfl (kind_2c (by simp)) fun hw mem hk => by
    rw [decode_2c (by simp) hk]
    simp [decVec]

theorem vviewImage (vd ga k) : Statement (.vviewImage vd ga k) :=
  of_word (m := false) rfl rfl (kind_2d (by simp)) fun hw mem hk => by
    rw [decode_2d (by simp) hk]
    have hw : (k == ViewKind.v || decide (vd.toNat ≤ 7)) = true := hw
    simp at hw
    simp [decVec, guardD, fieldD, ViewKind.ofCode_code]
    exact fun h => hw.resolve_left h

theorem vview (vd ga gb t) : Statement (.vview vd ga gb t) :=
  of_word (m := false) rfl rfl (kind_2d (by simp)) fun hw mem hk => by
    rw [decode_2d (by simp) hk]
    simp [decVec]

theorem vaddImm (vd imm) : Statement (.vaddImm vd imm) :=
  of_word (m := false) rfl rfl (kind_2e (by simp)) fun hw mem hk => by
    rw [decode_2e (by simp) hk]
    simp [decVI]

theorem vsubImm (vd imm) : Statement (.vsubImm vd imm) :=
  of_word (m := false) rfl rfl (kind_2e (by simp)) fun hw mem hk => by
    rw [decode_2e (by simp) hk]
    simp [decVI]

theorem vmulImm (vd imm) : Statement (.vmulImm vd imm) :=
  of_word (m := false) rfl rfl (kind_2e (by simp)) fun hw mem hk => by
    rw [decode_2e (by simp) hk]
    simp [decVI]

theorem vminImm (vd imm) : Statement (.vminImm vd imm) :=
  of_word (m := false) rfl rfl (kind_2e (by simp)) fun hw mem hk => by
    rw [decode_2e (by simp) hk]
    simp [decVI]

theorem vmaxImm (vd imm) : Statement (.vmaxImm vd imm) :=
  of_word (m := false) rfl rfl (kind_2e (by simp)) fun hw mem hk => by
    rw [decode_2e (by simp) hk]
    simp [decVI]

theorem vandImm (vd imm) : Statement (.vandImm vd imm) :=
  of_word (m := false) rfl rfl (kind_2e (by simp)) fun hw mem hk => by
    rw [decode_2e (by simp) hk]
    simp [decVI]

theorem vorImm (vd imm) : Statement (.vorImm vd imm) :=
  of_word (m := false) rfl rfl (kind_2e (by simp)) fun hw mem hk => by
    rw [decode_2e (by simp) hk]
    simp [decVI]

theorem vxorImm (vd imm) : Statement (.vxorImm vd imm) :=
  of_word (m := false) rfl rfl (kind_2e (by simp)) fun hw mem hk => by
    rw [decode_2e (by simp) hk]
    simp [decVI]

theorem vshlImm (vd imm) : Statement (.vshlImm vd imm) :=
  of_word (m := false) rfl rfl (kind_2e (by simp)) fun hw mem hk => by
    rw [decode_2e (by simp) hk]
    simp [decVI]

theorem vshrImm (vd imm) : Statement (.vshrImm vd imm) :=
  of_word (m := false) rfl rfl (kind_2e (by simp)) fun hw mem hk => by
    rw [decode_2e (by simp) hk]
    simp [decVI]

theorem vsraImm (vd imm) : Statement (.vsraImm vd imm) :=
  of_word (m := false) rfl rfl (kind_2e (by simp)) fun hw mem hk => by
    rw [decode_2e (by simp) hk]
    simp [decVI]

theorem vsplatImm (vd imm) : Statement (.vsplatImm vd imm) :=
  of_word (m := false) rfl rfl (kind_2e (by simp)) fun hw mem hk => by
    rw [decode_2e (by simp) hk]
    simp [decVI]

theorem vshape (w r) : Statement (.vshape w r) :=
  of_word (m := false) rfl rfl (kind_2e (by simp)) fun hw mem hk => by
    rw [decode_2e (by simp) hk]
    simp [decVI, guardD]

theorem mmul (ad ta tb sa sb sat acc fd rsum csum sv) : Statement (.mmul ad ta tb sa sb sat acc fd rsum csum sv) :=
  of_word (m := false) rfl rfl (by simp [wrongKind]) fun hw mem hk => by
    rw [decode_30 (by simp) hk]
    have hw : (rsum || csum || sv == 0) = true := hw
    simp at hw
    simp [decMat, guardD, hw]

theorem mmsp (ad ta tb sa sb sat acc fd rsum csum sv) : Statement (.mmsp ad ta tb sa sb sat acc fd rsum csum sv) :=
  of_word (m := false) rfl rfl (by simp [wrongKind]) fun hw mem hk => by
    rw [decode_31 (by simp) hk]
    have hw : (rsum || csum || sv == 0) = true := hw
    simp at hw
    simp [decMat, guardD, hw]

theorem mgang (m) : Statement (.mgang m) :=
  of_word (m := false) rfl rfl (by simp [wrongKind]) fun hw mem hk => by
    rw [decode_32 (by simp) hk]
    simp [decMat, guardD]

theorem mzero (ad) : Statement (.mzero ad) :=
  of_word (m := false) rfl rfl (by simp [wrongKind]) fun hw mem hk => by
    rw [decode_32 (by simp) hk]
    simp [decMat, guardD, packMX_ctl_8_2, packMX_ctl_0_8]

theorem mfade (ad) : Statement (.mfade ad) :=
  of_word (m := false) rfl rfl (by simp [wrongKind]) fun hw mem hk => by
    rw [decode_32 (by simp) hk]
    simp [decMat, guardD, packMX_ctl_8_2, packMX_ctl_0_8]

theorem tidset (t ga) : Statement (.tidset t ga) :=
  of_word (m := false) rfl rfl (by simp [wrongKind]) fun hw mem hk => by
    rw [decode_33 (by simp) hk]
    simp [decMat, guardD, packMX_ctl_8_2, packMX_ctl_0_8]

theorem tidq (t rd sel) : Statement (.tidq t rd sel) :=
  of_word (m := false) rfl rfl (by simp [wrongKind]) fun hw mem hk => by
    rw [decode_33 (by simp) hk]
    have hw : decide (sel.toNat ≤ 11) = true := hw
    simp at hw
    simp [decMat, guardD, hw]

theorem mdrain (ad t vp rm sat) : Statement (.mdrain ad t vp rm sat) :=
  of_word (m := false) rfl rfl (by simp [wrongKind]) fun hw mem hk => by
    rw [decode_34 (by simp) hk]
    simp [decMat, guardD]

theorem mdrainr (ad t ga vp rm sat) : Statement (.mdrainr ad t ga vp rm sat) :=
  of_word (m := false) rfl rfl (by simp [wrongKind]) fun hw mem hk => by
    rw [decode_35 (by simp) hk]
    simp [decMat, guardD]

theorem bcopy (ga gb gc w) : Statement (.bcopy ga gb gc w) :=
  of_word (m := false) rfl rfl (kind_38 (by simp)) fun hw mem hk => by
    rw [decode_38 (by simp) hk]
    simp [decCtl]

theorem tload (ga gb gc w) : Statement (.tload ga gb gc w) :=
  of_word (m := false) rfl rfl (kind_38 (by simp)) fun hw mem hk => by
    rw [decode_38 (by simp) hk]
    simp [decCtl]

theorem tstore (ga gb gc w) : Statement (.tstore ga gb gc w) :=
  of_word (m := false) rfl rfl (kind_38 (by simp)) fun hw mem hk => by
    rw [decode_38 (by simp) hk]
    simp [decCtl]

theorem aadd (rd ra rb o) : Statement (.aadd rd ra rb o) :=
  of_word (m := false) rfl rfl (kind_39 (by simp)) fun hw mem hk => by
    rw [decode_39 (by simp) hk]
    simp [decCtl, fieldD, Order.ofCode_code]

theorem aswp (rd ra rb o) : Statement (.aswp rd ra rb o) :=
  of_word (m := false) rfl rfl (kind_39 (by simp)) fun hw mem hk => by
    rw [decode_39 (by simp) hk]
    simp [decCtl, fieldD, Order.ofCode_code]

theorem acas (rd ra rb o) : Statement (.acas rd ra rb o) :=
  of_word (m := false) rfl rfl (kind_39 (by simp)) fun hw mem hk => by
    rw [decode_39 (by simp) hk]
    simp [decCtl, fieldD, Order.ofCode_code]

theorem amin (rd ra rb o) : Statement (.amin rd ra rb o) :=
  of_word (m := false) rfl rfl (kind_39 (by simp)) fun hw mem hk => by
    rw [decode_39 (by simp) hk]
    simp [decCtl, fieldD, Order.ofCode_code]

theorem amax (rd ra rb o) : Statement (.amax rd ra rb o) :=
  of_word (m := false) rfl rfl (kind_39 (by simp)) fun hw mem hk => by
    rw [decode_39 (by simp) hk]
    simp [decCtl, fieldD, Order.ofCode_code]

theorem aminn (rd ra rb o) : Statement (.aminn rd ra rb o) :=
  of_word (m := false) rfl rfl (kind_39 (by simp)) fun hw mem hk => by
    rw [decode_39 (by simp) hk]
    simp [decCtl, fieldD, Order.ofCode_code]

theorem amaxn (rd ra rb o) : Statement (.amaxn rd ra rb o) :=
  of_word (m := false) rfl rfl (kind_39 (by simp)) fun hw mem hk => by
    rw [decode_39 (by simp) hk]
    simp [decCtl, fieldD, Order.ofCode_code]

theorem aand (rd ra rb o) : Statement (.aand rd ra rb o) :=
  of_word (m := false) rfl rfl (kind_39 (by simp)) fun hw mem hk => by
    rw [decode_39 (by simp) hk]
    simp [decCtl, fieldD, Order.ofCode_code]

theorem aor (rd ra rb o) : Statement (.aor rd ra rb o) :=
  of_word (m := false) rfl rfl (kind_39 (by simp)) fun hw mem hk => by
    rw [decode_39 (by simp) hk]
    simp [decCtl, fieldD, Order.ofCode_code]

theorem axor (rd ra rb o) : Statement (.axor rd ra rb o) :=
  of_word (m := false) rfl rfl (kind_39 (by simp)) fun hw mem hk => by
    rw [decode_39 (by simp) hk]
    simp [decCtl, fieldD, Order.ofCode_code]

theorem afadd (rd ra rb o) : Statement (.afadd rd ra rb o) :=
  of_word (m := false) rfl rfl (kind_39 (by simp)) fun hw mem hk => by
    rw [decode_39 (by simp) hk]
    simp [decCtl, fieldD, Order.ofCode_code]

theorem xput (ga gb x) : Statement (.xput ga gb x) :=
  of_word (m := false) rfl rfl (kind_3a (by simp)) fun hw mem hk => by
    rw [decode_3a (by simp) hk]
    simp [decCtl, guardD]

theorem amsg (ga gb) : Statement (.amsg ga gb) :=
  of_word (m := false) rfl rfl (kind_3a (by simp)) fun hw mem hk => by
    rw [decode_3a (by simp) hk]
    simp [decCtl, guardD]

theorem radvPop (ga q) : Statement (.radvPop ga q) :=
  of_word (m := false) rfl rfl (kind_3a (by simp)) fun hw mem hk => by
    rw [decode_3a (by simp) hk]
    simp [decCtl, guardD]

theorem radvPush (ga q) : Statement (.radvPush ga q) :=
  of_word (m := false) rfl rfl (kind_3a (by simp)) fun hw mem hk => by
    rw [decode_3a (by simp) hk]
    simp [decCtl, guardD]

theorem radvCredit (ga q) : Statement (.radvCredit ga q) :=
  of_word (m := false) rfl rfl (kind_3a (by simp)) fun hw mem hk => by
    rw [decode_3a (by simp) hk]
    simp [decCtl, guardD]

theorem radvFill (ga q) : Statement (.radvFill ga q) :=
  of_word (m := false) rfl rfl (kind_3a (by simp)) fun hw mem hk => by
    rw [decode_3a (by simp) hk]
    simp [decCtl, guardD]

theorem tinit (ga gb gc) : Statement (.tinit ga gb gc) :=
  of_word (m := false) rfl rfl (kind_3b (by simp)) fun hw mem hk => by
    rw [decode_3b (by simp) hk]
    simp [decCtl, guardD]

theorem tspawn (ga gb) : Statement (.tspawn ga gb) :=
  of_word (m := false) rfl rfl (kind_3b (by simp)) fun hw mem hk => by
    rw [decode_3b (by simp) hk]
    simp [decCtl, guardD]

theorem tfork (ga gb) : Statement (.tfork ga gb) :=
  of_word (m := false) rfl rfl (kind_3b (by simp)) fun hw mem hk => by
    rw [decode_3b (by simp) hk]
    simp [decCtl, guardD]

theorem tsig (ga gb) : Statement (.tsig ga gb) :=
  of_word (m := false) rfl rfl (kind_3b (by simp)) fun hw mem hk => by
    rw [decode_3b (by simp) hk]
    simp [decCtl, guardD]

theorem tend : Statement .tend :=
  of_word (m := false) rfl rfl (kind_3b (by simp)) fun hw mem hk => by
    rw [decode_3b (by simp) hk]
    simp [decCtl, guardD]

theorem cmpo (rd rs n) : Statement (.cmpo rd rs n) :=
  of_word (m := false) rfl rfl (by simp [wrongKind]) fun hw mem hk => by
    rw [decode_3c (by simp) hk]
    simp [decCtl, guardD, fieldD, CmpN.ofCode_code]

theorem cmpr : Statement .cmpr :=
  of_word (m := false) rfl rfl (by simp [wrongKind]) fun hw mem hk => by
    rw [decode_3c (by simp) hk]
    simp [decCtl, guardD]

theorem cmpq (rd) : Statement (.cmpq rd) :=
  of_word (m := false) rfl rfl (by simp [wrongKind]) fun hw mem hk => by
    rw [decode_3c (by simp) hk]
    simp [decCtl, guardD]

theorem hld (rd c go o) : Statement (.hld rd c go o) :=
  of_word (m := true) rfl rfl (by simp [wrongKind]) fun hw mem hk => by
    rw [decode_3d (by simp) hk]
    have hw : (o != Order.rel) = true := hw
    simp at hw
    simp [decHbm, guardD, fieldD, Order.ofCode_code, hw]

theorem hst (rv c go o) : Statement (.hst rv c go o) :=
  of_word (m := true) rfl rfl (by simp [wrongKind]) fun hw mem hk => by
    rw [decode_3d (by simp) hk]
    have hw : (o != Order.acq) = true := hw
    simp at hw
    simp [decHbm, guardD, fieldD, Order.ofCode_code, hw]

theorem hldv (v c go) : Statement (.hldv v c go) :=
  of_word (m := true) rfl rfl (by simp [wrongKind]) fun hw mem hk => by
    rw [decode_3d (by simp) hk]
    simp [decHbm, guardD, packCX_sub_2_2, packCX_sub_4_3]

theorem hstv (v c go) : Statement (.hstv v c go) :=
  of_word (m := true) rfl rfl (by simp [wrongKind]) fun hw mem hk => by
    rw [decode_3d (by simp) hk]
    simp [decHbm, guardD, packCX_sub_2_2, packCX_sub_4_3]

theorem hgat (v c i) : Statement (.hgat v c i) :=
  of_word (m := true) rfl rfl (by simp [wrongKind]) fun hw mem hk => by
    rw [decode_3d (by simp) hk]
    simp [decHbm, guardD, packCX_sub_2_2, packCX_sub_4_3]

theorem hsct (v c i) : Statement (.hsct v c i) :=
  of_word (m := true) rfl rfl (by simp [wrongKind]) fun hw mem hk => by
    rw [decode_3d (by simp) hk]
    simp [decHbm, guardD, packCX_sub_2_2, packCX_sub_4_3]

theorem hldX (gt c go o) : Statement (.hldX gt c go o) :=
  of_word (m := true) rfl rfl (by simp [wrongKind]) fun hw mem hk => by
    rw [decode_3d (by simp) hk]
    have hw : (o != Order.rel) = true := hw
    simp at hw
    simp [decHbm, guardD, fieldD, Order.ofCode_code, hw]

theorem hship (ga c go) : Statement (.hship ga c go) :=
  of_word (m := true) rfl rfl (by simp [wrongKind]) fun hw mem hk => by
    rw [decode_3d (by simp) hk]
    simp [decHbm]

theorem hpull (ga c go) : Statement (.hpull ga c go) :=
  of_word (m := true) rfl rfl (by simp [wrongKind]) fun hw mem hk => by
    rw [decode_3d (by simp) hk]
    simp [decHbm]

theorem bgemv (ga c go) : Statement (.bgemv ga c go) :=
  of_word (m := true) rfl rfl (by simp [wrongKind]) fun hw mem hk => by
    rw [decode_3d (by simp) hk]
    simp [decHbm]

theorem hfenceL : Statement .hfenceL :=
  of_word (m := true) rfl rfl (by simp [wrongKind]) fun hw mem hk => by
    rw [decode_3d (by simp) hk]
    simp [decHbm, guardD]

theorem oxfer (c gd) : Statement (.oxfer c gd) :=
  of_word (m := true) rfl rfl (by simp [wrongKind]) fun hw mem hk => by
    rw [decode_3d (by simp) hk]
    simp [decHbm, guardD]

theorem oacq (c) : Statement (.oacq c) :=
  of_word (m := true) rfl rfl (by simp [wrongKind]) fun hw mem hk => by
    rw [decode_3d (by simp) hk]
    simp [decHbm, guardD]

theorem cmov (d sel) : Statement (.cmov d sel) :=
  of_word (m := false) rfl rfl (by simp [wrongKind]) fun hw mem hk => by
    rw [decode_3d (by simp) hk]
    simp [decHbm]

theorem cmovRemote (d sel gc) : Statement (.cmovRemote d sel gc) :=
  of_word (m := false) rfl rfl (by simp [wrongKind]) fun hw mem hk => by
    rw [decode_3d (by simp) hk]
    have hw : (gc != 0) = true := hw
    simp at hw
    simp [decHbm, hw]

theorem cderive (d sel gb) : Statement (.cderive d sel gb) :=
  of_word (m := false) rfl rfl (by simp [wrongKind]) fun hw mem hk => by
    rw [decode_3d (by simp) hk]
    simp [decHbm]

theorem crights (d sel ga) : Statement (.crights d sel ga) :=
  of_word (m := false) rfl rfl (by simp [wrongKind]) fun hw mem hk => by
    rw [decode_3d (by simp) hk]
    simp [decHbm]

theorem hatomAdd (rd c go o) : Statement (.hatomAdd rd c go o) :=
  of_word (m := true) rfl rfl (by simp [wrongKind]) fun hw mem hk => by
    rw [decode_3d (by simp) hk]
    simp [decHbm, fieldD, Order.ofCode_code]

theorem hatomSwp (rd c go o) : Statement (.hatomSwp rd c go o) :=
  of_word (m := true) rfl rfl (by simp [wrongKind]) fun hw mem hk => by
    rw [decode_3d (by simp) hk]
    simp [decHbm, fieldD, Order.ofCode_code]

theorem hatomCas (rd c go o) : Statement (.hatomCas rd c go o) :=
  of_word (m := true) rfl rfl (by simp [wrongKind]) fun hw mem hk => by
    rw [decode_3d (by simp) hk]
    simp [decHbm, fieldD, Order.ofCode_code]

theorem hatomMin (rd c go o) : Statement (.hatomMin rd c go o) :=
  of_word (m := true) rfl rfl (by simp [wrongKind]) fun hw mem hk => by
    rw [decode_3d (by simp) hk]
    simp [decHbm, fieldD, Order.ofCode_code]

theorem hatomMax (rd c go o) : Statement (.hatomMax rd c go o) :=
  of_word (m := true) rfl rfl (by simp [wrongKind]) fun hw mem hk => by
    rw [decode_3d (by simp) hk]
    simp [decHbm, fieldD, Order.ofCode_code]

theorem hatomMinn (rd c go o) : Statement (.hatomMinn rd c go o) :=
  of_word (m := true) rfl rfl (by simp [wrongKind]) fun hw mem hk => by
    rw [decode_3d (by simp) hk]
    simp [decHbm, fieldD, Order.ofCode_code]

theorem hatomMaxn (rd c go o) : Statement (.hatomMaxn rd c go o) :=
  of_word (m := true) rfl rfl (by simp [wrongKind]) fun hw mem hk => by
    rw [decode_3d (by simp) hk]
    simp [decHbm, fieldD, Order.ofCode_code]

theorem hatomFadd (rd c go o) : Statement (.hatomFadd rd c go o) :=
  of_word (m := true) rfl rfl (by simp [wrongKind]) fun hw mem hk => by
    rw [decode_3d (by simp) hk]
    simp [decHbm, fieldD, Order.ofCode_code]

theorem hwimm (p) : Statement (.hwimm p) :=
  of_word (m := false) rfl rfl (kind_3e (by simp)) fun hw mem hk => by
    rw [decode_3e (by simp) hk]
    simp [decHint]

theorem hblk (l) : Statement (.hblk l) :=
  of_word (m := false) rfl rfl (kind_3e (by simp)) fun hw mem hk => by
    rw [decode_3e (by simp) hk]
    simp [decHint, guardD]

theorem hgran (g) : Statement (.hgran g) :=
  of_word (m := false) rfl rfl (kind_3f (by simp)) fun hw mem hk => by
    rw [decode_3f (by simp) hk]
    simp [decHint, guardD]

theorem hrm (r) : Statement (.hrm r) :=
  of_word (m := false) rfl rfl (kind_3f (by simp)) fun hw mem hk => by
    rw [decode_3f (by simp) hk]
    simp [decHint, guardD, fieldD, RMode.ofCode_code]

theorem illegalInstruction : Statement .illegalInstruction := of_none rfl

theorem packetRuleViolation : Statement .packetRuleViolation := of_none rfl

theorem fetchFault : Statement .fetchFault := of_none rfl

theorem ownerTimer : Statement .ownerTimer := of_none rfl

theorem deferredCauseEntry : Statement .deferredCauseEntry := of_none rfl

theorem storeBufferExit : Statement .storeBufferExit := of_none rfl

theorem remoteAck : Statement .remoteAck := of_none rfl

theorem remoteStoreApply : Statement .remoteStoreApply := of_none rfl

theorem remoteLoadApply : Statement .remoteLoadApply := of_none rfl

theorem remoteLoadReply : Statement .remoteLoadReply := of_none rfl

theorem atomicApply : Statement .atomicApply := of_none rfl

theorem depositApply : Statement .depositApply := of_none rfl

theorem capDepositApply : Statement .capDepositApply := of_none rfl

theorem messageApply : Statement .messageApply := of_none rfl

theorem signalApply : Statement .signalApply := of_none rfl

theorem setAsidePushApply : Statement .setAsidePushApply := of_none rfl

theorem ringCreditArrive : Statement .ringCreditArrive := of_none rfl

theorem ringFillArrive : Statement .ringFillArrive := of_none rfl

theorem feRemoteApply : Statement .feRemoteApply := of_none rfl

theorem feParkedRetry : Statement .feParkedRetry := of_none rfl

theorem bankOpApply : Statement .bankOpApply := of_none rfl

theorem bulkCommandStart : Statement .bulkCommandStart := of_none rfl

theorem bulkBeat : Statement .bulkBeat := of_none rfl

theorem stealProbe : Statement .stealProbe := of_none rfl

theorem stealRequestApply : Statement .stealRequestApply := of_none rfl

theorem stealReply : Statement .stealReply := of_none rfl

theorem taskPop : Statement .taskPop := of_none rfl

theorem composeBind : Statement .composeBind := of_none rfl

theorem gangBarrier : Statement .gangBarrier := of_none rfl

theorem gangMismatch : Statement .gangMismatch := of_none rfl

theorem arrayStart : Statement .arrayStart := of_none rfl

theorem arrayComplete : Statement .arrayComplete := of_none rfl

theorem sliceComplete : Statement .sliceComplete := of_none rfl

theorem mdrainrWake : Statement .mdrainrWake := of_none rfl

theorem purseRefill : Statement .purseRefill := of_none rfl

theorem purseThrottle : Statement .purseThrottle := of_none rfl

theorem watchdog : Statement .watchdog := of_none rfl

theorem terminationWave : Statement .terminationWave := of_none rfl

theorem turnAnnounce : Statement .turnAnnounce := of_none rfl

theorem turnDrain : Statement .turnDrain := of_none rfl

theorem turnMove : Statement .turnMove := of_none rfl

theorem turnLaneRetry : Statement .turnLaneRetry := of_none rfl

theorem turnLaneFallback : Statement .turnLaneFallback := of_none rfl

theorem turnRemap : Statement .turnRemap := of_none rfl

theorem turnResume : Statement .turnResume := of_none rfl

theorem resultForward : Statement .resultForward := of_none rfl

theorem preempt : Statement .preempt := of_none rfl

theorem contextRestore : Statement .contextRestore := of_none rfl

theorem hbmReadReply : Statement .hbmReadReply := of_none rfl

theorem hbmWriteArrive : Statement .hbmWriteArrive := of_none rfl

theorem hshipBeat : Statement .hshipBeat := of_none rfl

theorem hpullBeat : Statement .hpullBeat := of_none rfl

theorem bgemvBeat : Statement .bgemvBeat := of_none rfl

theorem translationResolved : Statement .translationResolved := of_none rfl

theorem translationMiss : Statement .translationMiss := of_none rfl

theorem runAheadEnd : Statement .runAheadEnd := of_none rfl

theorem pageRequestDequeue : Statement .pageRequestDequeue := of_none rfl

theorem pageRequestTimeout : Statement .pageRequestTimeout := of_none rfl

theorem checkpointReissue : Statement .checkpointReissue := of_none rfl

theorem bulkRecordResume : Statement .bulkRecordResume := of_none rfl

theorem frameReclaim : Statement .frameReclaim := of_none rfl

theorem hbmScrub : Statement .hbmScrub := of_none rfl

theorem transferParityRetry : Statement .transferParityRetry := of_none rfl

theorem laneTest : Statement .laneTest := of_none rfl

theorem laneSwap : Statement .laneSwap := of_none rfl

theorem backgroundScrub : Statement .backgroundScrub := of_none rfl

theorem launch : Statement .launch := of_none rfl

theorem launchStart : Statement .launchStart := of_none rfl

theorem load : Statement .load := of_none rfl

theorem store : Statement .store := of_none rfl

theorem signalAdd : Statement .signalAdd := of_none rfl

theorem signalSet : Statement .signalSet := of_none rfl

theorem waitPacket : Statement .waitPacket := of_none rfl

theorem waitComplete : Statement .waitComplete := of_none rfl

theorem armOnce : Statement .armOnce := of_none rfl

theorem armPeriodic : Statement .armPeriodic := of_none rfl

theorem armCancel : Statement .armCancel := of_none rfl

theorem barrier : Statement .barrier := of_none rfl

theorem barrierComplete : Statement .barrierComplete := of_none rfl

theorem loadStoreComplete : Statement .loadStoreComplete := of_none rfl

theorem timerTick : Statement .timerTick := of_none rfl

theorem notify : Statement .notify := of_none rfl

theorem queueKill : Statement .queueKill := of_none rfl

theorem registerWrite : Statement .registerWrite := of_none rfl

theorem mapperBind : Statement .mapperBind := of_none rfl

theorem mapperEvict : Statement .mapperEvict := of_none rfl

theorem packetTake : Statement .packetTake := of_none rfl

theorem headerReread : Statement .headerReread := of_none rfl

theorem submitTimeout : Statement .submitTimeout := of_none rfl

theorem completionWrite : Statement .completionWrite := of_none rfl

theorem pageReplyMapped : Statement .pageReplyMapped := of_none rfl

theorem pageReplyRefused : Statement .pageReplyRefused := of_none rfl

theorem invalidateObject : Statement .invalidateObject := of_none rfl

theorem invalidateExtent : Statement .invalidateExtent := of_none rfl

theorem invalidateSecondStage : Statement .invalidateSecondStage := of_none rfl

theorem invalidateAll : Statement .invalidateAll := of_none rfl

theorem invalidateDone : Statement .invalidateDone := of_none rfl

theorem mintCreate : Statement .mintCreate := of_none rfl

theorem mintFree : Statement .mintFree := of_none rfl

theorem mintAlias : Statement .mintAlias := of_none rfl

theorem mintCheckpoint : Statement .mintCheckpoint := of_none rfl

theorem cxlMemRead : Statement .cxlMemRead := of_none rfl

theorem cxlMemWrite : Statement .cxlMemWrite := of_none rfl

theorem collectiveStart : Statement .collectiveStart := of_none rfl

theorem collectiveDone : Statement .collectiveDone := of_none rfl

theorem collectiveTimeout : Statement .collectiveTimeout := of_none rfl

theorem linkRetry : Statement .linkRetry := of_none rfl

theorem linkDown : Statement .linkDown := of_none rfl

theorem linkDownTimeout : Statement .linkDownTimeout := of_none rfl

theorem loadStoreLinkTimeout : Statement .loadStoreLinkTimeout := of_none rfl

theorem fabricFlitRetry : Statement .fabricFlitRetry := of_none rfl

theorem fabricRetrain : Statement .fabricRetrain := of_none rfl

theorem remoteHomeTimeout : Statement .remoteHomeTimeout := of_none rfl

theorem pluginCall : Statement .pluginCall := of_none rfl

theorem pluginFault : Statement .pluginFault := of_none rfl

theorem pluginLoad : Statement .pluginLoad := of_none rfl

theorem deviceReset : Statement .deviceReset := of_none rfl

theorem attestationRequest : Statement .attestationRequest := of_none rfl

theorem functionLevelReset : Statement .functionLevelReset := of_none rfl

theorem regionCreate : Statement .regionCreate := of_none rfl

theorem regionResize : Statement .regionResize := of_none rfl

theorem regionFree : Statement .regionFree := of_none rfl

theorem linkUp : Statement .linkUp := of_none rfl

theorem hostEnumeration : Statement .hostEnumeration := of_none rfl

theorem pageRequestRingEnable : Statement .pageRequestRingEnable := of_none rfl

theorem reclaimReply : Statement .reclaimReply := of_none rfl

theorem fabricRequestArrive : Statement .fabricRequestArrive := of_none rfl

theorem divisionComplete : Statement .divisionComplete := of_none rfl

theorem frameCountsSet : Statement .frameCountsSet := of_none rfl

theorem refillRateSet : Statement .refillRateSet := of_none rfl

theorem operatorKeyEnrol : Statement .operatorKeyEnrol := of_none rfl

end Sys2Proof.Laws.RoundTrip
end

