-- ==== Sys2Proof/Laws/Scalar.lean ====
section
/-! SUPPORT. What the scalar arithmetic of 07_scalar_control.md computes, said in numbers and bits. -/

namespace Sys2Proof.Machine

open Sys2Proof

set_option Elab.async false

/-- The high half of a signed product is the floor of the quotient by 2^64 (R162). -/
theorem mulh_high (a b : BitVec 64) : (a.signExtend 128 * b.signExtend 128).extractLsb' 64 64 = BitVec.ofInt 64 (a.toInt * b.toInt / 2 ^ 64) := by
  apply BitVec.eq_of_toNat_eq
  have : a.signExtend 128 * b.signExtend 128 = BitVec.ofInt 128 (a.toInt * b.toInt) := by
    rw [BitVec.ofInt_mul]; rfl
  rw [this, BitVec.extractLsb'_toNat, BitVec.toNat_ofInt, BitVec.toNat_ofInt, Nat.shiftRight_eq_div_pow]
  generalize a.toInt * b.toInt = z
  omega

/-- The high half of an unsigned product. -/
theorem mulhn_high (a b : BitVec 64) : (a.setWidth 128 * b.setWidth 128).extractLsb' 64 64 = BitVec.ofNat 64 (a.toNat * b.toNat / 2 ^ 64) := by
  apply BitVec.eq_of_toNat_eq
  have h : a.toNat * b.toNat < 2^128 := by
    have := a.isLt; have := b.isLt
    calc a.toNat * b.toNat < 2^64 * 2^64 := Nat.mul_lt_mul'' a.isLt b.isLt
      _ = _ := by norm_num
  simp [BitVec.extractLsb'_toNat, Nat.shiftRight_eq_div_pow]
  have ha := a.isLt; have hb := b.isLt
  norm_num at h
  rw [Nat.mod_eq_of_lt h]

/-- The low six bits of a word as a number. -/
theorem low6_toNat (b : BitVec 64) : (b.extractLsb' 0 6).toNat = b.toNat % 64 := by simp

/-- A bit field as a quotient and a remainder (R165). -/
theorem bitField_eq (a b : BitVec 64) : bitField a b = BitVec.ofNat 64 (a.toNat / 2 ^ (b.toNat % 64) % 2 ^ (b.toNat / 256 % 64 + 1)) := by
  apply BitVec.eq_of_toNat_eq
  have e : (b.extractLsb' 8 6).toNat = b.toNat / 256 % 64 := by simp [Nat.shiftRight_eq_div_pow]
  simp only [bitField, lowMask, low6_toNat, e, BitVec.toNat_and, BitVec.toNat_ushiftRight, BitVec.toNat_ofNat]
  have h1 : 2 ^ (b.toNat / 256 % 64 + 1) - 1 < 2^64 := by
    have : 2 ^ (b.toNat / 256 % 64 + 1) ≤ 2^64 := Nat.pow_le_pow_right (by norm_num) (by omega)
    have : 0 < 2 ^ (b.toNat / 256 % 64 + 1) := by positivity
    omega
  rw [Nat.mod_eq_of_lt h1, Nat.and_two_pow_sub_one_eq_mod, Nat.shiftRight_eq_div_pow]
  symm; apply Nat.mod_eq_of_lt
  calc _ ≤ a.toNat / 2 ^ (b.toNat % 64) := Nat.mod_le _ _
    _ ≤ a.toNat := Nat.div_le_self _ _
    _ < _ := a.isLt

/-- Every element that takeWhile takes meets the test. -/
theorem takeWhile_holds {p : Nat → Bool} (l : List Nat) : ∀ j (h : j < (l.takeWhile p).length), p (l[j]'(by have := (l.takeWhile_prefix p).length_le; omega)) = true := by
  induction l with
  | nil => intro j h; simp at h
  | cons x xs ih =>
    intro j h
    by_cases hx : p x
    · simp [hx] at h
      cases j with
      | zero => simpa using hx
      | succ j => simpa using ih j (by omega)
    · simp [hx] at h

/-- The element after those that takeWhile takes fails the test. -/
theorem takeWhile_stops {p : Nat → Bool} (l : List Nat) : ∀ (h : (l.takeWhile p).length < l.length), p (l[(l.takeWhile p).length]) = false := by
  induction l with
  | nil => intro h; simp at h
  | cons x xs ih =>
    intro h
    by_cases hx : p x
    · simp only [List.takeWhile_cons, hx, ite_true, List.length_cons, List.getElem_cons_succ] at h ⊢
      exact ih (by omega)
    · simp [hx]

/-- The count of leading zeros: the bits above it are 0 and the bit there is 1. -/
theorem countLead_spec (a : BitVec 64) : ∃ n ≤ 64, countLead a = BitVec.ofNat 64 n ∧
      (∀ j < n, a.getLsbD (63 - j) = false) ∧ (n < 64 → a.getLsbD (63 - n) = true) := by
  refine ⟨((List.range 64).reverse.takeWhile fun i => !a.getLsbD i).length, ?_, rfl, ?_, ?_⟩
  · have := ((List.range 64).reverse.takeWhile_prefix (fun i => !a.getLsbD i)).length_le; simpa using this
  · intro j hj
    have := takeWhile_holds _ j hj
    simpa [List.getElem_reverse] using this
  · intro hj
    have := takeWhile_stops (p := fun i => !a.getLsbD i) (List.range 64).reverse (by simpa using hj)
    simpa [List.getElem_reverse] using this

/-- The count of trailing zeros. -/
theorem countTrail_spec (a : BitVec 64) : ∃ n ≤ 64, countTrail a = BitVec.ofNat 64 n ∧
      (∀ j < n, a.getLsbD j = false) ∧ (n < 64 → a.getLsbD n = true) := by
  refine ⟨((List.range 64).takeWhile fun i => !a.getLsbD i).length, ?_, rfl, ?_, ?_⟩
  · have := ((List.range 64).takeWhile_prefix (fun i => !a.getLsbD i)).length_le; simpa using this
  · intro j hj
    have := takeWhile_holds _ j hj
    simpa using this
  · intro hj
    have := takeWhile_stops (p := fun i => !a.getLsbD i) (List.range 64) (by simpa using hj)
    simpa using this

/-- The population count is the sum of the bits. -/
theorem countOnes_spec (a : BitVec 64) : countOnes a = BitVec.ofNat 64 ((List.range 64).map fun j => (a.getLsbD j).toNat).sum := by
  have : ∀ l : List Nat, (l.filter fun i => a.getLsbD i).length = (l.map fun j => (a.getLsbD j).toNat).sum := by
    intro l; induction l with
    | nil => rfl
    | cons x xs ih =>
      rw [List.map_cons, List.sum_cons, ← ih, List.filter_cons]
      by_cases hx : a.getLsbD x
      · rw [if_pos hx, hx, List.length_cons]; simp; omega
      · rw [if_neg hx]; simp [hx]
  unfold countOnes
  rw [this]

/-- Sign extension of the low k bits. -/
theorem signLow_spec (a : BitVec 64) (k : Nat) (hk0 : 0 < k) (hk : k ≤ 64) : signLow a k = (a.setWidth k).signExtend 64 := by
  ext i hi
  simp only [signLow]
  rw [BitVec.getElem_sshiftRight]
  simp only [BitVec.getElem_signExtend, BitVec.getElem_shiftLeft, BitVec.msb_shiftLeft, BitVec.msb_setWidth]
  by_cases hik : i < k
  · simp [hik, show 64 - k + i < 64 by omega, BitVec.getLsbD_eq_getElem hi]
  · simp [hik, show ¬(64 - k + i < 64) by omega]
    simp [BitVec.getMsbD, show 64 - k < 64 by omega]
    rw [show 63 - (64 - k) = k - 1 by omega]; simp [hk0]

/-- Zero extension of the low k bits. -/
theorem lowMask_spec (a : BitVec 64) (k : Nat) (hk : k ≤ 64) : a &&& lowMask k = (a.setWidth k).setWidth 64 := by
  apply BitVec.eq_of_toNat_eq
  have h1 : 2 ^ k - 1 < 2^64 := by
    have : 2 ^ k ≤ 2^64 := Nat.pow_le_pow_right (by norm_num) hk
    have : 0 < 2 ^ k := by positivity
    omega
  simp only [lowMask, BitVec.toNat_and, BitVec.toNat_ofNat, BitVec.toNat_setWidth]
  rw [Nat.mod_eq_of_lt h1, Nat.and_two_pow_sub_one_eq_mod]
  symm; apply Nat.mod_eq_of_lt
  exact lt_of_le_of_lt (Nat.mod_le _ _) a.isLt

/-- Each bit of an inserted field (R165). -/
theorem putField_bit (o a b : BitVec 64) (j : Nat) (hj : j < 64) : (putField o a b).getLsbD j =
    if b.toNat % 64 ≤ j ∧ j < b.toNat % 64 + (b.toNat / 256 % 64 + 1) then a.getLsbD (j - b.toNat % 64) else o.getLsbD j := by
  have e : (b.extractLsb' 8 6).toNat = b.toNat / 256 % 64 := by simp [Nat.shiftRight_eq_div_pow]
  have hm : ∀ w i, w ≤ 64 → i < 64 → (lowMask w).getLsbD i = decide (i < w) := by
    intro w i hw hi
    have h1 : 2 ^ w - 1 < 2^64 := by
      have : 2 ^ w ≤ 2^64 := Nat.pow_le_pow_right (by norm_num) hw
      have : 0 < 2 ^ w := by positivity
      omega
    rw [lowMask, BitVec.getLsbD_ofNat, Nat.testBit_two_pow_sub_one]; simp [hi]
  simp only [putField, e, show (b.extractLsb' 0 6).toNat = b.toNat % 64 by simp]
  generalize hp : b.toNat % 64 = p
  generalize hl : b.toNat / 256 % 64 + 1 = l
  have hl' : l ≤ 64 := by omega
  simp only [BitVec.getLsbD_or, BitVec.getLsbD_and, BitVec.getLsbD_not, BitVec.getLsbD_shiftLeft, hj]
  by_cases h1 : p ≤ j
  · have : j - p < 64 := by omega
    rw [hm _ _ hl' this]
    by_cases h2 : j < p + l
    · have : j - p < l := by omega
      simp [h1, h2, this, show ¬ j < p by omega]
    · have : ¬ j - p < l := by omega
      simp [h1, h2, this]
  · simp [h1, show j < p by omega]

end Sys2Proof.Machine
end

