-- ==== Sys2Proof/Laws/State.lean ====
section
/-! SUPPORT. What each update of a state and of a core leaves alone and what it sets, field by
field. -/

namespace Sys2Proof.Machine

open Sys2Proof

set_option Elab.async false

/-! ## The state -/

section
/-! ### A change of the core in turn -/

variable (s : State) (f : Core → Core)

@[simp] theorem State.onMe_me : (s.onMe f).me = f s.me := rfl
@[simp] theorem State.onMe_others : (s.onMe f).others = s.others := rfl
@[simp] theorem State.onMe_regions : (s.onMe f).regions = s.regions := rfl
@[simp] theorem State.onMe_net : (s.onMe f).net = s.net := rfl
@[simp] theorem State.onMe_fns : (s.onMe f).fns = s.fns := rfl
@[simp] theorem State.onMe_cyc : (s.onMe f).cyc = s.cyc := rfl
@[simp] theorem State.onMe_devtime : (s.onMe f).devtime = s.devtime := rfl
@[simp] theorem State.onMe_period : (s.onMe f).period = s.period := rfl
@[simp] theorem State.onMe_phase : (s.onMe f).phase = s.phase := rfl
@[simp] theorem State.onMe_pauseAt : (s.onMe f).pauseAt = s.pauseAt := rfl
@[simp] theorem State.onMe_moveFor : (s.onMe f).moveFor = s.moveFor := rfl
@[simp] theorem State.onMe_moveExtra : (s.onMe f).moveExtra = s.moveExtra := rfl
@[simp] theorem State.onMe_moveTries : (s.onMe f).moveTries = s.moveTries := rfl
@[simp] theorem State.onMe_switches : (s.onMe f).switches = s.switches := rfl
@[simp] theorem State.onMe_switching : (s.onMe f).switching = s.switching := rfl
@[simp] theorem State.onMe_stamp : (s.onMe f).stamp = s.stamp := rfl
@[simp] theorem State.onMe_turnDue : (s.onMe f).turnDue = s.turnDue := rfl
@[simp] theorem State.onMe_config : (s.onMe f).config = s.config := rfl
@[simp] theorem State.onMe_purses : (s.onMe f).purses = s.purses := rfl
@[simp] theorem State.onMe_cols : (s.onMe f).cols = s.cols := rfl
@[simp] theorem State.onMe_stripes : (s.onMe f).stripes = s.stripes := rfl
@[simp] theorem State.onMe_failing : (s.onMe f).failing = s.failing := rfl
@[simp] theorem State.onMe_fenced : (s.onMe f).fenced = s.fenced := rfl
@[simp] theorem State.onMe_hbm : (s.onMe f).hbm = s.hbm := rfl
@[simp] theorem State.onMe_written : (s.onMe f).written = s.written := rfl
@[simp] theorem State.onMe_host : (s.onMe f).host = s.host := rfl
@[simp] theorem State.onMe_hostOut : (s.onMe f).hostOut = s.hostOut := rfl
@[simp] theorem State.onMe_arrayLog : (s.onMe f).arrayLog = s.arrayLog := rfl
@[simp] theorem State.onMe_xferLog : (s.onMe f).xferLog = s.xferLog := rfl
@[simp] theorem State.onMe_flaws : (s.onMe f).flaws = s.flaws := rfl
@[simp] theorem State.onMe_pfLog : (s.onMe f).pfLog = s.pfLog := rfl
@[simp] theorem State.onMe_spares : (s.onMe f).spares = s.spares := rfl
@[simp] theorem State.onMe_floors : (s.onMe f).floors = s.floors := rfl
@[simp] theorem State.onMe_chans : (s.onMe f).chans = s.chans := rfl
@[simp] theorem State.onMe_slots : (s.onMe f).slots = s.slots := rfl
@[simp] theorem State.onMe_bindCtr : (s.onMe f).bindCtr = s.bindCtr := rfl
@[simp] theorem State.onMe_takeCtr : (s.onMe f).takeCtr = s.takeCtr := rfl
@[simp] theorem State.onMe_takeWait : (s.onMe f).takeWait = s.takeWait := rfl
@[simp] theorem State.onMe_wheelTick : (s.onMe f).wheelTick = s.wheelTick := rfl
@[simp] theorem State.onMe_harts : (s.onMe f).harts = s.harts := rfl
@[simp] theorem State.onMe_fabricId : (s.onMe f).fabricId = s.fabricId := rfl
@[simp] theorem State.onMe_ports : (s.onMe f).ports = s.ports := rfl
@[simp] theorem State.onMe_resends : (s.onMe f).resends = s.resends := rfl
@[simp] theorem State.onMe_cut : (s.onMe f).cut = s.cut := rfl
@[simp] theorem State.onMe_homeOut : (s.onMe f).homeOut = s.homeOut := rfl
@[simp] theorem State.onMe_reqOrder : (s.onMe f).reqOrder = s.reqOrder := rfl
@[simp] theorem State.onMe_fabricIn : (s.onMe f).fabricIn = s.fabricIn := rfl
@[simp] theorem State.onMe_fabricOut : (s.onMe f).fabricOut = s.fabricOut := rfl
@[simp] theorem State.onMe_linkUp : (s.onMe f).linkUp = s.linkUp := rfl
@[simp] theorem State.onMe_linkWidth : (s.onMe f).linkWidth = s.linkWidth := rfl
@[simp] theorem State.onMe_linkSpeed : (s.onMe f).linkSpeed = s.linkSpeed := rfl
@[simp] theorem State.onMe_linkDownFor : (s.onMe f).linkDownFor = s.linkDownFor := rfl
@[simp] theorem State.onMe_linkLimit : (s.onMe f).linkLimit = s.linkLimit := rfl
@[simp] theorem State.onMe_measures : (s.onMe f).measures = s.measures := rfl
@[simp] theorem State.onMe_lms : (s.onMe f).lms = s.lms := rfl
@[simp] theorem State.onMe_fuses : (s.onMe f).fuses = s.fuses := rfl
@[simp] theorem State.onMe_identity : (s.onMe f).identity = s.identity := rfl
@[simp] theorem State.onMe_operatorKey : (s.onMe f).operatorKey = s.operatorKey := rfl
@[simp] theorem State.onMe_reports : (s.onMe f).reports = s.reports := rfl
@[simp] theorem State.onMe_regionRegs : (s.onMe f).regionRegs = s.regionRegs := rfl
@[simp] theorem State.onMe_recovery : (s.onMe f).recovery = s.recovery := rfl
@[simp] theorem State.onMe_pf : (s.onMe f).pf = s.pf := rfl
@[simp] theorem State.onMe_reclaims : (s.onMe f).reclaims = s.reclaims := rfl
@[simp] theorem State.onMe_frameUse : (s.onMe f).frameUse = s.frameUse := rfl
@[simp] theorem State.onMe_hwErrors : (s.onMe f).hwErrors = s.hwErrors := rfl
@[simp] theorem State.onMe_agenda : (s.onMe f).agenda = s.agenda := rfl
@[simp] theorem State.onMe_ev : (s.onMe f).ev = s.ev := rfl
@[simp] theorem State.onMe_auto : (s.onMe f).auto = s.auto := rfl
@[simp] theorem State.onMe_draws : (s.onMe f).draws = s.draws := rfl

end

section
/-! ### A change of a region -/

variable (s : State) (o k : Nat) (f : Region → Region)

@[simp] theorem State.updRegion_me : (s.updRegion o k f).me = s.me := rfl
@[simp] theorem State.updRegion_others : (s.updRegion o k f).others = s.others := rfl
@[simp] theorem State.updRegion_net : (s.updRegion o k f).net = s.net := rfl
@[simp] theorem State.updRegion_fns : (s.updRegion o k f).fns = s.fns := rfl
@[simp] theorem State.updRegion_cyc : (s.updRegion o k f).cyc = s.cyc := rfl
@[simp] theorem State.updRegion_devtime : (s.updRegion o k f).devtime = s.devtime := rfl
@[simp] theorem State.updRegion_period : (s.updRegion o k f).period = s.period := rfl
@[simp] theorem State.updRegion_phase : (s.updRegion o k f).phase = s.phase := rfl
@[simp] theorem State.updRegion_pauseAt : (s.updRegion o k f).pauseAt = s.pauseAt := rfl
@[simp] theorem State.updRegion_moveFor : (s.updRegion o k f).moveFor = s.moveFor := rfl
@[simp] theorem State.updRegion_moveExtra : (s.updRegion o k f).moveExtra = s.moveExtra := rfl
@[simp] theorem State.updRegion_moveTries : (s.updRegion o k f).moveTries = s.moveTries := rfl
@[simp] theorem State.updRegion_switches : (s.updRegion o k f).switches = s.switches := rfl
@[simp] theorem State.updRegion_switching : (s.updRegion o k f).switching = s.switching := rfl
@[simp] theorem State.updRegion_stamp : (s.updRegion o k f).stamp = s.stamp := rfl
@[simp] theorem State.updRegion_turnDue : (s.updRegion o k f).turnDue = s.turnDue := rfl
@[simp] theorem State.updRegion_config : (s.updRegion o k f).config = s.config := rfl
@[simp] theorem State.updRegion_purses : (s.updRegion o k f).purses = s.purses := rfl
@[simp] theorem State.updRegion_cols : (s.updRegion o k f).cols = s.cols := rfl
@[simp] theorem State.updRegion_stripes : (s.updRegion o k f).stripes = s.stripes := rfl
@[simp] theorem State.updRegion_failing : (s.updRegion o k f).failing = s.failing := rfl
@[simp] theorem State.updRegion_fenced : (s.updRegion o k f).fenced = s.fenced := rfl
@[simp] theorem State.updRegion_hbm : (s.updRegion o k f).hbm = s.hbm := rfl
@[simp] theorem State.updRegion_written : (s.updRegion o k f).written = s.written := rfl
@[simp] theorem State.updRegion_host : (s.updRegion o k f).host = s.host := rfl
@[simp] theorem State.updRegion_hostOut : (s.updRegion o k f).hostOut = s.hostOut := rfl
@[simp] theorem State.updRegion_arrayLog : (s.updRegion o k f).arrayLog = s.arrayLog := rfl
@[simp] theorem State.updRegion_xferLog : (s.updRegion o k f).xferLog = s.xferLog := rfl
@[simp] theorem State.updRegion_flaws : (s.updRegion o k f).flaws = s.flaws := rfl
@[simp] theorem State.updRegion_pfLog : (s.updRegion o k f).pfLog = s.pfLog := rfl
@[simp] theorem State.updRegion_spares : (s.updRegion o k f).spares = s.spares := rfl
@[simp] theorem State.updRegion_floors : (s.updRegion o k f).floors = s.floors := rfl
@[simp] theorem State.updRegion_chans : (s.updRegion o k f).chans = s.chans := rfl
@[simp] theorem State.updRegion_slots : (s.updRegion o k f).slots = s.slots := rfl
@[simp] theorem State.updRegion_bindCtr : (s.updRegion o k f).bindCtr = s.bindCtr := rfl
@[simp] theorem State.updRegion_takeCtr : (s.updRegion o k f).takeCtr = s.takeCtr := rfl
@[simp] theorem State.updRegion_takeWait : (s.updRegion o k f).takeWait = s.takeWait := rfl
@[simp] theorem State.updRegion_wheelTick : (s.updRegion o k f).wheelTick = s.wheelTick := rfl
@[simp] theorem State.updRegion_harts : (s.updRegion o k f).harts = s.harts := rfl
@[simp] theorem State.updRegion_fabricId : (s.updRegion o k f).fabricId = s.fabricId := rfl
@[simp] theorem State.updRegion_ports : (s.updRegion o k f).ports = s.ports := rfl
@[simp] theorem State.updRegion_resends : (s.updRegion o k f).resends = s.resends := rfl
@[simp] theorem State.updRegion_cut : (s.updRegion o k f).cut = s.cut := rfl
@[simp] theorem State.updRegion_homeOut : (s.updRegion o k f).homeOut = s.homeOut := rfl
@[simp] theorem State.updRegion_reqOrder : (s.updRegion o k f).reqOrder = s.reqOrder := rfl
@[simp] theorem State.updRegion_fabricIn : (s.updRegion o k f).fabricIn = s.fabricIn := rfl
@[simp] theorem State.updRegion_fabricOut : (s.updRegion o k f).fabricOut = s.fabricOut := rfl
@[simp] theorem State.updRegion_linkUp : (s.updRegion o k f).linkUp = s.linkUp := rfl
@[simp] theorem State.updRegion_linkWidth : (s.updRegion o k f).linkWidth = s.linkWidth := rfl
@[simp] theorem State.updRegion_linkSpeed : (s.updRegion o k f).linkSpeed = s.linkSpeed := rfl
@[simp] theorem State.updRegion_linkDownFor : (s.updRegion o k f).linkDownFor = s.linkDownFor := rfl
@[simp] theorem State.updRegion_linkLimit : (s.updRegion o k f).linkLimit = s.linkLimit := rfl
@[simp] theorem State.updRegion_measures : (s.updRegion o k f).measures = s.measures := rfl
@[simp] theorem State.updRegion_lms : (s.updRegion o k f).lms = s.lms := rfl
@[simp] theorem State.updRegion_fuses : (s.updRegion o k f).fuses = s.fuses := rfl
@[simp] theorem State.updRegion_identity : (s.updRegion o k f).identity = s.identity := rfl
@[simp] theorem State.updRegion_operatorKey : (s.updRegion o k f).operatorKey = s.operatorKey := rfl
@[simp] theorem State.updRegion_reports : (s.updRegion o k f).reports = s.reports := rfl
@[simp] theorem State.updRegion_regionRegs : (s.updRegion o k f).regionRegs = s.regionRegs := rfl
@[simp] theorem State.updRegion_recovery : (s.updRegion o k f).recovery = s.recovery := rfl
@[simp] theorem State.updRegion_pf : (s.updRegion o k f).pf = s.pf := rfl
@[simp] theorem State.updRegion_reclaims : (s.updRegion o k f).reclaims = s.reclaims := rfl
@[simp] theorem State.updRegion_frameUse : (s.updRegion o k f).frameUse = s.frameUse := rfl
@[simp] theorem State.updRegion_hwErrors : (s.updRegion o k f).hwErrors = s.hwErrors := rfl
@[simp] theorem State.updRegion_agenda : (s.updRegion o k f).agenda = s.agenda := rfl
@[simp] theorem State.updRegion_ev : (s.updRegion o k f).ev = s.ev := rfl
@[simp] theorem State.updRegion_auto : (s.updRegion o k f).auto = s.auto := rfl
@[simp] theorem State.updRegion_draws : (s.updRegion o k f).draws = s.draws := rfl

end

section
/-! ### A change of a function -/

variable (s : State) (k : Nat) (f : Fn → Fn)

@[simp] theorem State.updFn_fns : (s.updFn k f).fns = modAt s.fns k f := rfl
@[simp] theorem State.updFn_me : (s.updFn k f).me = s.me := rfl
@[simp] theorem State.updFn_others : (s.updFn k f).others = s.others := rfl
@[simp] theorem State.updFn_regions : (s.updFn k f).regions = s.regions := rfl
@[simp] theorem State.updFn_net : (s.updFn k f).net = s.net := rfl
@[simp] theorem State.updFn_cyc : (s.updFn k f).cyc = s.cyc := rfl
@[simp] theorem State.updFn_devtime : (s.updFn k f).devtime = s.devtime := rfl
@[simp] theorem State.updFn_period : (s.updFn k f).period = s.period := rfl
@[simp] theorem State.updFn_phase : (s.updFn k f).phase = s.phase := rfl
@[simp] theorem State.updFn_pauseAt : (s.updFn k f).pauseAt = s.pauseAt := rfl
@[simp] theorem State.updFn_moveFor : (s.updFn k f).moveFor = s.moveFor := rfl
@[simp] theorem State.updFn_moveExtra : (s.updFn k f).moveExtra = s.moveExtra := rfl
@[simp] theorem State.updFn_moveTries : (s.updFn k f).moveTries = s.moveTries := rfl
@[simp] theorem State.updFn_switches : (s.updFn k f).switches = s.switches := rfl
@[simp] theorem State.updFn_switching : (s.updFn k f).switching = s.switching := rfl
@[simp] theorem State.updFn_stamp : (s.updFn k f).stamp = s.stamp := rfl
@[simp] theorem State.updFn_turnDue : (s.updFn k f).turnDue = s.turnDue := rfl
@[simp] theorem State.updFn_config : (s.updFn k f).config = s.config := rfl
@[simp] theorem State.updFn_purses : (s.updFn k f).purses = s.purses := rfl
@[simp] theorem State.updFn_cols : (s.updFn k f).cols = s.cols := rfl
@[simp] theorem State.updFn_stripes : (s.updFn k f).stripes = s.stripes := rfl
@[simp] theorem State.updFn_failing : (s.updFn k f).failing = s.failing := rfl
@[simp] theorem State.updFn_fenced : (s.updFn k f).fenced = s.fenced := rfl
@[simp] theorem State.updFn_hbm : (s.updFn k f).hbm = s.hbm := rfl
@[simp] theorem State.updFn_written : (s.updFn k f).written = s.written := rfl
@[simp] theorem State.updFn_host : (s.updFn k f).host = s.host := rfl
@[simp] theorem State.updFn_hostOut : (s.updFn k f).hostOut = s.hostOut := rfl
@[simp] theorem State.updFn_arrayLog : (s.updFn k f).arrayLog = s.arrayLog := rfl
@[simp] theorem State.updFn_xferLog : (s.updFn k f).xferLog = s.xferLog := rfl
@[simp] theorem State.updFn_flaws : (s.updFn k f).flaws = s.flaws := rfl
@[simp] theorem State.updFn_pfLog : (s.updFn k f).pfLog = s.pfLog := rfl
@[simp] theorem State.updFn_spares : (s.updFn k f).spares = s.spares := rfl
@[simp] theorem State.updFn_floors : (s.updFn k f).floors = s.floors := rfl
@[simp] theorem State.updFn_chans : (s.updFn k f).chans = s.chans := rfl
@[simp] theorem State.updFn_slots : (s.updFn k f).slots = s.slots := rfl
@[simp] theorem State.updFn_bindCtr : (s.updFn k f).bindCtr = s.bindCtr := rfl
@[simp] theorem State.updFn_takeCtr : (s.updFn k f).takeCtr = s.takeCtr := rfl
@[simp] theorem State.updFn_takeWait : (s.updFn k f).takeWait = s.takeWait := rfl
@[simp] theorem State.updFn_wheelTick : (s.updFn k f).wheelTick = s.wheelTick := rfl
@[simp] theorem State.updFn_harts : (s.updFn k f).harts = s.harts := rfl
@[simp] theorem State.updFn_fabricId : (s.updFn k f).fabricId = s.fabricId := rfl
@[simp] theorem State.updFn_ports : (s.updFn k f).ports = s.ports := rfl
@[simp] theorem State.updFn_resends : (s.updFn k f).resends = s.resends := rfl
@[simp] theorem State.updFn_cut : (s.updFn k f).cut = s.cut := rfl
@[simp] theorem State.updFn_homeOut : (s.updFn k f).homeOut = s.homeOut := rfl
@[simp] theorem State.updFn_reqOrder : (s.updFn k f).reqOrder = s.reqOrder := rfl
@[simp] theorem State.updFn_fabricIn : (s.updFn k f).fabricIn = s.fabricIn := rfl
@[simp] theorem State.updFn_fabricOut : (s.updFn k f).fabricOut = s.fabricOut := rfl
@[simp] theorem State.updFn_linkUp : (s.updFn k f).linkUp = s.linkUp := rfl
@[simp] theorem State.updFn_linkWidth : (s.updFn k f).linkWidth = s.linkWidth := rfl
@[simp] theorem State.updFn_linkSpeed : (s.updFn k f).linkSpeed = s.linkSpeed := rfl
@[simp] theorem State.updFn_linkDownFor : (s.updFn k f).linkDownFor = s.linkDownFor := rfl
@[simp] theorem State.updFn_linkLimit : (s.updFn k f).linkLimit = s.linkLimit := rfl
@[simp] theorem State.updFn_measures : (s.updFn k f).measures = s.measures := rfl
@[simp] theorem State.updFn_lms : (s.updFn k f).lms = s.lms := rfl
@[simp] theorem State.updFn_fuses : (s.updFn k f).fuses = s.fuses := rfl
@[simp] theorem State.updFn_identity : (s.updFn k f).identity = s.identity := rfl
@[simp] theorem State.updFn_operatorKey : (s.updFn k f).operatorKey = s.operatorKey := rfl
@[simp] theorem State.updFn_reports : (s.updFn k f).reports = s.reports := rfl
@[simp] theorem State.updFn_regionRegs : (s.updFn k f).regionRegs = s.regionRegs := rfl
@[simp] theorem State.updFn_recovery : (s.updFn k f).recovery = s.recovery := rfl
@[simp] theorem State.updFn_pf : (s.updFn k f).pf = s.pf := rfl
@[simp] theorem State.updFn_reclaims : (s.updFn k f).reclaims = s.reclaims := rfl
@[simp] theorem State.updFn_frameUse : (s.updFn k f).frameUse = s.frameUse := rfl
@[simp] theorem State.updFn_hwErrors : (s.updFn k f).hwErrors = s.hwErrors := rfl
@[simp] theorem State.updFn_agenda : (s.updFn k f).agenda = s.agenda := rfl
@[simp] theorem State.updFn_ev : (s.updFn k f).ev = s.ev := rfl
@[simp] theorem State.updFn_auto : (s.updFn k f).auto = s.auto := rfl
@[simp] theorem State.updFn_draws : (s.updFn k f).draws = s.draws := rfl

end

section
/-! ### A change of a queue -/

variable (s : State) (k q : Nat) (f : Queue → Queue)

@[simp] theorem State.updQueue_me : (s.updQueue k q f).me = s.me := rfl
@[simp] theorem State.updQueue_others : (s.updQueue k q f).others = s.others := rfl
@[simp] theorem State.updQueue_regions : (s.updQueue k q f).regions = s.regions := rfl
@[simp] theorem State.updQueue_net : (s.updQueue k q f).net = s.net := rfl
@[simp] theorem State.updQueue_cyc : (s.updQueue k q f).cyc = s.cyc := rfl
@[simp] theorem State.updQueue_devtime : (s.updQueue k q f).devtime = s.devtime := rfl
@[simp] theorem State.updQueue_period : (s.updQueue k q f).period = s.period := rfl
@[simp] theorem State.updQueue_phase : (s.updQueue k q f).phase = s.phase := rfl
@[simp] theorem State.updQueue_pauseAt : (s.updQueue k q f).pauseAt = s.pauseAt := rfl
@[simp] theorem State.updQueue_moveFor : (s.updQueue k q f).moveFor = s.moveFor := rfl
@[simp] theorem State.updQueue_moveExtra : (s.updQueue k q f).moveExtra = s.moveExtra := rfl
@[simp] theorem State.updQueue_moveTries : (s.updQueue k q f).moveTries = s.moveTries := rfl
@[simp] theorem State.updQueue_switches : (s.updQueue k q f).switches = s.switches := rfl
@[simp] theorem State.updQueue_switching : (s.updQueue k q f).switching = s.switching := rfl
@[simp] theorem State.updQueue_stamp : (s.updQueue k q f).stamp = s.stamp := rfl
@[simp] theorem State.updQueue_turnDue : (s.updQueue k q f).turnDue = s.turnDue := rfl
@[simp] theorem State.updQueue_config : (s.updQueue k q f).config = s.config := rfl
@[simp] theorem State.updQueue_purses : (s.updQueue k q f).purses = s.purses := rfl
@[simp] theorem State.updQueue_cols : (s.updQueue k q f).cols = s.cols := rfl
@[simp] theorem State.updQueue_stripes : (s.updQueue k q f).stripes = s.stripes := rfl
@[simp] theorem State.updQueue_failing : (s.updQueue k q f).failing = s.failing := rfl
@[simp] theorem State.updQueue_fenced : (s.updQueue k q f).fenced = s.fenced := rfl
@[simp] theorem State.updQueue_hbm : (s.updQueue k q f).hbm = s.hbm := rfl
@[simp] theorem State.updQueue_written : (s.updQueue k q f).written = s.written := rfl
@[simp] theorem State.updQueue_host : (s.updQueue k q f).host = s.host := rfl
@[simp] theorem State.updQueue_hostOut : (s.updQueue k q f).hostOut = s.hostOut := rfl
@[simp] theorem State.updQueue_arrayLog : (s.updQueue k q f).arrayLog = s.arrayLog := rfl
@[simp] theorem State.updQueue_xferLog : (s.updQueue k q f).xferLog = s.xferLog := rfl
@[simp] theorem State.updQueue_flaws : (s.updQueue k q f).flaws = s.flaws := rfl
@[simp] theorem State.updQueue_pfLog : (s.updQueue k q f).pfLog = s.pfLog := rfl
@[simp] theorem State.updQueue_spares : (s.updQueue k q f).spares = s.spares := rfl
@[simp] theorem State.updQueue_floors : (s.updQueue k q f).floors = s.floors := rfl
@[simp] theorem State.updQueue_chans : (s.updQueue k q f).chans = s.chans := rfl
@[simp] theorem State.updQueue_slots : (s.updQueue k q f).slots = s.slots := rfl
@[simp] theorem State.updQueue_bindCtr : (s.updQueue k q f).bindCtr = s.bindCtr := rfl
@[simp] theorem State.updQueue_takeCtr : (s.updQueue k q f).takeCtr = s.takeCtr := rfl
@[simp] theorem State.updQueue_takeWait : (s.updQueue k q f).takeWait = s.takeWait := rfl
@[simp] theorem State.updQueue_wheelTick : (s.updQueue k q f).wheelTick = s.wheelTick := rfl
@[simp] theorem State.updQueue_harts : (s.updQueue k q f).harts = s.harts := rfl
@[simp] theorem State.updQueue_fabricId : (s.updQueue k q f).fabricId = s.fabricId := rfl
@[simp] theorem State.updQueue_ports : (s.updQueue k q f).ports = s.ports := rfl
@[simp] theorem State.updQueue_resends : (s.updQueue k q f).resends = s.resends := rfl
@[simp] theorem State.updQueue_cut : (s.updQueue k q f).cut = s.cut := rfl
@[simp] theorem State.updQueue_homeOut : (s.updQueue k q f).homeOut = s.homeOut := rfl
@[simp] theorem State.updQueue_reqOrder : (s.updQueue k q f).reqOrder = s.reqOrder := rfl
@[simp] theorem State.updQueue_fabricIn : (s.updQueue k q f).fabricIn = s.fabricIn := rfl
@[simp] theorem State.updQueue_fabricOut : (s.updQueue k q f).fabricOut = s.fabricOut := rfl
@[simp] theorem State.updQueue_linkUp : (s.updQueue k q f).linkUp = s.linkUp := rfl
@[simp] theorem State.updQueue_linkWidth : (s.updQueue k q f).linkWidth = s.linkWidth := rfl
@[simp] theorem State.updQueue_linkSpeed : (s.updQueue k q f).linkSpeed = s.linkSpeed := rfl
@[simp] theorem State.updQueue_linkDownFor : (s.updQueue k q f).linkDownFor = s.linkDownFor := rfl
@[simp] theorem State.updQueue_linkLimit : (s.updQueue k q f).linkLimit = s.linkLimit := rfl
@[simp] theorem State.updQueue_measures : (s.updQueue k q f).measures = s.measures := rfl
@[simp] theorem State.updQueue_lms : (s.updQueue k q f).lms = s.lms := rfl
@[simp] theorem State.updQueue_fuses : (s.updQueue k q f).fuses = s.fuses := rfl
@[simp] theorem State.updQueue_identity : (s.updQueue k q f).identity = s.identity := rfl
@[simp] theorem State.updQueue_operatorKey : (s.updQueue k q f).operatorKey = s.operatorKey := rfl
@[simp] theorem State.updQueue_reports : (s.updQueue k q f).reports = s.reports := rfl
@[simp] theorem State.updQueue_regionRegs : (s.updQueue k q f).regionRegs = s.regionRegs := rfl
@[simp] theorem State.updQueue_recovery : (s.updQueue k q f).recovery = s.recovery := rfl
@[simp] theorem State.updQueue_pf : (s.updQueue k q f).pf = s.pf := rfl
@[simp] theorem State.updQueue_reclaims : (s.updQueue k q f).reclaims = s.reclaims := rfl
@[simp] theorem State.updQueue_frameUse : (s.updQueue k q f).frameUse = s.frameUse := rfl
@[simp] theorem State.updQueue_hwErrors : (s.updQueue k q f).hwErrors = s.hwErrors := rfl
@[simp] theorem State.updQueue_agenda : (s.updQueue k q f).agenda = s.agenda := rfl
@[simp] theorem State.updQueue_ev : (s.updQueue k q f).ev = s.ev := rfl
@[simp] theorem State.updQueue_auto : (s.updQueue k q f).auto = s.auto := rfl
@[simp] theorem State.updQueue_draws : (s.updQueue k q f).draws = s.draws := rfl

end

section
/-! ### An event that is due -/

variable (s : State) (i : Instr) (a : EvArg)

@[simp] theorem State.due_agenda : (s.due i a).agenda = s.agenda ++ [(i, a)] := rfl
@[simp] theorem State.due_me : (s.due i a).me = s.me := rfl
@[simp] theorem State.due_others : (s.due i a).others = s.others := rfl
@[simp] theorem State.due_regions : (s.due i a).regions = s.regions := rfl
@[simp] theorem State.due_net : (s.due i a).net = s.net := rfl
@[simp] theorem State.due_fns : (s.due i a).fns = s.fns := rfl
@[simp] theorem State.due_cyc : (s.due i a).cyc = s.cyc := rfl
@[simp] theorem State.due_devtime : (s.due i a).devtime = s.devtime := rfl
@[simp] theorem State.due_period : (s.due i a).period = s.period := rfl
@[simp] theorem State.due_phase : (s.due i a).phase = s.phase := rfl
@[simp] theorem State.due_pauseAt : (s.due i a).pauseAt = s.pauseAt := rfl
@[simp] theorem State.due_moveFor : (s.due i a).moveFor = s.moveFor := rfl
@[simp] theorem State.due_moveExtra : (s.due i a).moveExtra = s.moveExtra := rfl
@[simp] theorem State.due_moveTries : (s.due i a).moveTries = s.moveTries := rfl
@[simp] theorem State.due_switches : (s.due i a).switches = s.switches := rfl
@[simp] theorem State.due_switching : (s.due i a).switching = s.switching := rfl
@[simp] theorem State.due_stamp : (s.due i a).stamp = s.stamp := rfl
@[simp] theorem State.due_turnDue : (s.due i a).turnDue = s.turnDue := rfl
@[simp] theorem State.due_config : (s.due i a).config = s.config := rfl
@[simp] theorem State.due_purses : (s.due i a).purses = s.purses := rfl
@[simp] theorem State.due_cols : (s.due i a).cols = s.cols := rfl
@[simp] theorem State.due_stripes : (s.due i a).stripes = s.stripes := rfl
@[simp] theorem State.due_failing : (s.due i a).failing = s.failing := rfl
@[simp] theorem State.due_fenced : (s.due i a).fenced = s.fenced := rfl
@[simp] theorem State.due_hbm : (s.due i a).hbm = s.hbm := rfl
@[simp] theorem State.due_written : (s.due i a).written = s.written := rfl
@[simp] theorem State.due_host : (s.due i a).host = s.host := rfl
@[simp] theorem State.due_hostOut : (s.due i a).hostOut = s.hostOut := rfl
@[simp] theorem State.due_arrayLog : (s.due i a).arrayLog = s.arrayLog := rfl
@[simp] theorem State.due_xferLog : (s.due i a).xferLog = s.xferLog := rfl
@[simp] theorem State.due_flaws : (s.due i a).flaws = s.flaws := rfl
@[simp] theorem State.due_pfLog : (s.due i a).pfLog = s.pfLog := rfl
@[simp] theorem State.due_spares : (s.due i a).spares = s.spares := rfl
@[simp] theorem State.due_floors : (s.due i a).floors = s.floors := rfl
@[simp] theorem State.due_chans : (s.due i a).chans = s.chans := rfl
@[simp] theorem State.due_slots : (s.due i a).slots = s.slots := rfl
@[simp] theorem State.due_bindCtr : (s.due i a).bindCtr = s.bindCtr := rfl
@[simp] theorem State.due_takeCtr : (s.due i a).takeCtr = s.takeCtr := rfl
@[simp] theorem State.due_takeWait : (s.due i a).takeWait = s.takeWait := rfl
@[simp] theorem State.due_wheelTick : (s.due i a).wheelTick = s.wheelTick := rfl
@[simp] theorem State.due_harts : (s.due i a).harts = s.harts := rfl
@[simp] theorem State.due_fabricId : (s.due i a).fabricId = s.fabricId := rfl
@[simp] theorem State.due_ports : (s.due i a).ports = s.ports := rfl
@[simp] theorem State.due_resends : (s.due i a).resends = s.resends := rfl
@[simp] theorem State.due_cut : (s.due i a).cut = s.cut := rfl
@[simp] theorem State.due_homeOut : (s.due i a).homeOut = s.homeOut := rfl
@[simp] theorem State.due_reqOrder : (s.due i a).reqOrder = s.reqOrder := rfl
@[simp] theorem State.due_fabricIn : (s.due i a).fabricIn = s.fabricIn := rfl
@[simp] theorem State.due_fabricOut : (s.due i a).fabricOut = s.fabricOut := rfl
@[simp] theorem State.due_linkUp : (s.due i a).linkUp = s.linkUp := rfl
@[simp] theorem State.due_linkWidth : (s.due i a).linkWidth = s.linkWidth := rfl
@[simp] theorem State.due_linkSpeed : (s.due i a).linkSpeed = s.linkSpeed := rfl
@[simp] theorem State.due_linkDownFor : (s.due i a).linkDownFor = s.linkDownFor := rfl
@[simp] theorem State.due_linkLimit : (s.due i a).linkLimit = s.linkLimit := rfl
@[simp] theorem State.due_measures : (s.due i a).measures = s.measures := rfl
@[simp] theorem State.due_lms : (s.due i a).lms = s.lms := rfl
@[simp] theorem State.due_fuses : (s.due i a).fuses = s.fuses := rfl
@[simp] theorem State.due_identity : (s.due i a).identity = s.identity := rfl
@[simp] theorem State.due_operatorKey : (s.due i a).operatorKey = s.operatorKey := rfl
@[simp] theorem State.due_reports : (s.due i a).reports = s.reports := rfl
@[simp] theorem State.due_regionRegs : (s.due i a).regionRegs = s.regionRegs := rfl
@[simp] theorem State.due_recovery : (s.due i a).recovery = s.recovery := rfl
@[simp] theorem State.due_pf : (s.due i a).pf = s.pf := rfl
@[simp] theorem State.due_reclaims : (s.due i a).reclaims = s.reclaims := rfl
@[simp] theorem State.due_frameUse : (s.due i a).frameUse = s.frameUse := rfl
@[simp] theorem State.due_hwErrors : (s.due i a).hwErrors = s.hwErrors := rfl
@[simp] theorem State.due_ev : (s.due i a).ev = s.ev := rfl
@[simp] theorem State.due_auto : (s.due i a).auto = s.auto := rfl
@[simp] theorem State.due_draws : (s.due i a).draws = s.draws := rfl

end

section
/-! ### A message that is sent -/

variable (s : State) (src : CoreId) (dst : Place) (op : RemoteOp) (seq : Nat)

@[simp] theorem State.send_net : (s.send src dst op seq).net = s.net ++ [⟨src, dst, op, seq, s.stamp⟩] := rfl
@[simp] theorem State.send_me : (s.send src dst op seq).me = s.me := rfl
@[simp] theorem State.send_others : (s.send src dst op seq).others = s.others := rfl
@[simp] theorem State.send_fns : (s.send src dst op seq).fns = s.fns := rfl
@[simp] theorem State.send_cyc : (s.send src dst op seq).cyc = s.cyc := rfl
@[simp] theorem State.send_devtime : (s.send src dst op seq).devtime = s.devtime := rfl
@[simp] theorem State.send_period : (s.send src dst op seq).period = s.period := rfl
@[simp] theorem State.send_phase : (s.send src dst op seq).phase = s.phase := rfl
@[simp] theorem State.send_pauseAt : (s.send src dst op seq).pauseAt = s.pauseAt := rfl
@[simp] theorem State.send_moveFor : (s.send src dst op seq).moveFor = s.moveFor := rfl
@[simp] theorem State.send_moveExtra : (s.send src dst op seq).moveExtra = s.moveExtra := rfl
@[simp] theorem State.send_moveTries : (s.send src dst op seq).moveTries = s.moveTries := rfl
@[simp] theorem State.send_switches : (s.send src dst op seq).switches = s.switches := rfl
@[simp] theorem State.send_switching : (s.send src dst op seq).switching = s.switching := rfl
@[simp] theorem State.send_stamp : (s.send src dst op seq).stamp = s.stamp := rfl
@[simp] theorem State.send_turnDue : (s.send src dst op seq).turnDue = s.turnDue := rfl
@[simp] theorem State.send_config : (s.send src dst op seq).config = s.config := rfl
@[simp] theorem State.send_purses : (s.send src dst op seq).purses = s.purses := rfl
@[simp] theorem State.send_cols : (s.send src dst op seq).cols = s.cols := rfl
@[simp] theorem State.send_stripes : (s.send src dst op seq).stripes = s.stripes := rfl
@[simp] theorem State.send_failing : (s.send src dst op seq).failing = s.failing := rfl
@[simp] theorem State.send_fenced : (s.send src dst op seq).fenced = s.fenced := rfl
@[simp] theorem State.send_hbm : (s.send src dst op seq).hbm = s.hbm := rfl
@[simp] theorem State.send_written : (s.send src dst op seq).written = s.written := rfl
@[simp] theorem State.send_host : (s.send src dst op seq).host = s.host := rfl
@[simp] theorem State.send_hostOut : (s.send src dst op seq).hostOut = s.hostOut := rfl
@[simp] theorem State.send_arrayLog : (s.send src dst op seq).arrayLog = s.arrayLog := rfl
@[simp] theorem State.send_xferLog : (s.send src dst op seq).xferLog = s.xferLog := rfl
@[simp] theorem State.send_flaws : (s.send src dst op seq).flaws = s.flaws := rfl
@[simp] theorem State.send_pfLog : (s.send src dst op seq).pfLog = s.pfLog := rfl
@[simp] theorem State.send_spares : (s.send src dst op seq).spares = s.spares := rfl
@[simp] theorem State.send_floors : (s.send src dst op seq).floors = s.floors := rfl
@[simp] theorem State.send_chans : (s.send src dst op seq).chans = s.chans := rfl
@[simp] theorem State.send_slots : (s.send src dst op seq).slots = s.slots := rfl
@[simp] theorem State.send_bindCtr : (s.send src dst op seq).bindCtr = s.bindCtr := rfl
@[simp] theorem State.send_takeCtr : (s.send src dst op seq).takeCtr = s.takeCtr := rfl
@[simp] theorem State.send_takeWait : (s.send src dst op seq).takeWait = s.takeWait := rfl
@[simp] theorem State.send_wheelTick : (s.send src dst op seq).wheelTick = s.wheelTick := rfl
@[simp] theorem State.send_harts : (s.send src dst op seq).harts = s.harts := rfl
@[simp] theorem State.send_fabricId : (s.send src dst op seq).fabricId = s.fabricId := rfl
@[simp] theorem State.send_ports : (s.send src dst op seq).ports = s.ports := rfl
@[simp] theorem State.send_resends : (s.send src dst op seq).resends = s.resends := rfl
@[simp] theorem State.send_cut : (s.send src dst op seq).cut = s.cut := rfl
@[simp] theorem State.send_homeOut : (s.send src dst op seq).homeOut = s.homeOut := rfl
@[simp] theorem State.send_reqOrder : (s.send src dst op seq).reqOrder = s.reqOrder := rfl
@[simp] theorem State.send_fabricIn : (s.send src dst op seq).fabricIn = s.fabricIn := rfl
@[simp] theorem State.send_fabricOut : (s.send src dst op seq).fabricOut = s.fabricOut := rfl
@[simp] theorem State.send_linkUp : (s.send src dst op seq).linkUp = s.linkUp := rfl
@[simp] theorem State.send_linkWidth : (s.send src dst op seq).linkWidth = s.linkWidth := rfl
@[simp] theorem State.send_linkSpeed : (s.send src dst op seq).linkSpeed = s.linkSpeed := rfl
@[simp] theorem State.send_linkDownFor : (s.send src dst op seq).linkDownFor = s.linkDownFor := rfl
@[simp] theorem State.send_linkLimit : (s.send src dst op seq).linkLimit = s.linkLimit := rfl
@[simp] theorem State.send_measures : (s.send src dst op seq).measures = s.measures := rfl
@[simp] theorem State.send_lms : (s.send src dst op seq).lms = s.lms := rfl
@[simp] theorem State.send_fuses : (s.send src dst op seq).fuses = s.fuses := rfl
@[simp] theorem State.send_identity : (s.send src dst op seq).identity = s.identity := rfl
@[simp] theorem State.send_operatorKey : (s.send src dst op seq).operatorKey = s.operatorKey := rfl
@[simp] theorem State.send_reports : (s.send src dst op seq).reports = s.reports := rfl
@[simp] theorem State.send_regionRegs : (s.send src dst op seq).regionRegs = s.regionRegs := rfl
@[simp] theorem State.send_recovery : (s.send src dst op seq).recovery = s.recovery := rfl
@[simp] theorem State.send_pf : (s.send src dst op seq).pf = s.pf := rfl
@[simp] theorem State.send_reclaims : (s.send src dst op seq).reclaims = s.reclaims := rfl
@[simp] theorem State.send_frameUse : (s.send src dst op seq).frameUse = s.frameUse := rfl
@[simp] theorem State.send_hwErrors : (s.send src dst op seq).hwErrors = s.hwErrors := rfl
@[simp] theorem State.send_agenda : (s.send src dst op seq).agenda = s.agenda := rfl
@[simp] theorem State.send_ev : (s.send src dst op seq).ev = s.ev := rfl
@[simp] theorem State.send_auto : (s.send src dst op seq).auto = s.auto := rfl
@[simp] theorem State.send_draws : (s.send src dst op seq).draws = s.draws := rfl

end

section
/-! ### A message that leaves the network -/

variable (s : State) (k : Nat) (m : Msg)

@[simp] theorem State.eject_net : (s.eject k m).net = dropAt s.net k := rfl
@[simp] theorem State.eject_me : (s.eject k m).me = s.me := rfl
@[simp] theorem State.eject_others : (s.eject k m).others = s.others := rfl
@[simp] theorem State.eject_fns : (s.eject k m).fns = s.fns := rfl
@[simp] theorem State.eject_cyc : (s.eject k m).cyc = s.cyc := rfl
@[simp] theorem State.eject_devtime : (s.eject k m).devtime = s.devtime := rfl
@[simp] theorem State.eject_period : (s.eject k m).period = s.period := rfl
@[simp] theorem State.eject_phase : (s.eject k m).phase = s.phase := rfl
@[simp] theorem State.eject_pauseAt : (s.eject k m).pauseAt = s.pauseAt := rfl
@[simp] theorem State.eject_moveFor : (s.eject k m).moveFor = s.moveFor := rfl
@[simp] theorem State.eject_moveExtra : (s.eject k m).moveExtra = s.moveExtra := rfl
@[simp] theorem State.eject_moveTries : (s.eject k m).moveTries = s.moveTries := rfl
@[simp] theorem State.eject_switches : (s.eject k m).switches = s.switches := rfl
@[simp] theorem State.eject_switching : (s.eject k m).switching = s.switching := rfl
@[simp] theorem State.eject_stamp : (s.eject k m).stamp = s.stamp := rfl
@[simp] theorem State.eject_turnDue : (s.eject k m).turnDue = s.turnDue := rfl
@[simp] theorem State.eject_config : (s.eject k m).config = s.config := rfl
@[simp] theorem State.eject_purses : (s.eject k m).purses = s.purses := rfl
@[simp] theorem State.eject_cols : (s.eject k m).cols = s.cols := rfl
@[simp] theorem State.eject_stripes : (s.eject k m).stripes = s.stripes := rfl
@[simp] theorem State.eject_failing : (s.eject k m).failing = s.failing := rfl
@[simp] theorem State.eject_fenced : (s.eject k m).fenced = s.fenced := rfl
@[simp] theorem State.eject_hbm : (s.eject k m).hbm = s.hbm := rfl
@[simp] theorem State.eject_written : (s.eject k m).written = s.written := rfl
@[simp] theorem State.eject_host : (s.eject k m).host = s.host := rfl
@[simp] theorem State.eject_hostOut : (s.eject k m).hostOut = s.hostOut := rfl
@[simp] theorem State.eject_arrayLog : (s.eject k m).arrayLog = s.arrayLog := rfl
@[simp] theorem State.eject_xferLog : (s.eject k m).xferLog = s.xferLog := rfl
@[simp] theorem State.eject_flaws : (s.eject k m).flaws = s.flaws := rfl
@[simp] theorem State.eject_pfLog : (s.eject k m).pfLog = s.pfLog := rfl
@[simp] theorem State.eject_spares : (s.eject k m).spares = s.spares := rfl
@[simp] theorem State.eject_floors : (s.eject k m).floors = s.floors := rfl
@[simp] theorem State.eject_chans : (s.eject k m).chans = s.chans := rfl
@[simp] theorem State.eject_slots : (s.eject k m).slots = s.slots := rfl
@[simp] theorem State.eject_bindCtr : (s.eject k m).bindCtr = s.bindCtr := rfl
@[simp] theorem State.eject_takeCtr : (s.eject k m).takeCtr = s.takeCtr := rfl
@[simp] theorem State.eject_takeWait : (s.eject k m).takeWait = s.takeWait := rfl
@[simp] theorem State.eject_wheelTick : (s.eject k m).wheelTick = s.wheelTick := rfl
@[simp] theorem State.eject_harts : (s.eject k m).harts = s.harts := rfl
@[simp] theorem State.eject_fabricId : (s.eject k m).fabricId = s.fabricId := rfl
@[simp] theorem State.eject_ports : (s.eject k m).ports = s.ports := rfl
@[simp] theorem State.eject_resends : (s.eject k m).resends = s.resends := rfl
@[simp] theorem State.eject_cut : (s.eject k m).cut = s.cut := rfl
@[simp] theorem State.eject_homeOut : (s.eject k m).homeOut = s.homeOut := rfl
@[simp] theorem State.eject_reqOrder : (s.eject k m).reqOrder = s.reqOrder := rfl
@[simp] theorem State.eject_fabricIn : (s.eject k m).fabricIn = s.fabricIn := rfl
@[simp] theorem State.eject_fabricOut : (s.eject k m).fabricOut = s.fabricOut := rfl
@[simp] theorem State.eject_linkUp : (s.eject k m).linkUp = s.linkUp := rfl
@[simp] theorem State.eject_linkWidth : (s.eject k m).linkWidth = s.linkWidth := rfl
@[simp] theorem State.eject_linkSpeed : (s.eject k m).linkSpeed = s.linkSpeed := rfl
@[simp] theorem State.eject_linkDownFor : (s.eject k m).linkDownFor = s.linkDownFor := rfl
@[simp] theorem State.eject_linkLimit : (s.eject k m).linkLimit = s.linkLimit := rfl
@[simp] theorem State.eject_measures : (s.eject k m).measures = s.measures := rfl
@[simp] theorem State.eject_lms : (s.eject k m).lms = s.lms := rfl
@[simp] theorem State.eject_fuses : (s.eject k m).fuses = s.fuses := rfl
@[simp] theorem State.eject_identity : (s.eject k m).identity = s.identity := rfl
@[simp] theorem State.eject_operatorKey : (s.eject k m).operatorKey = s.operatorKey := rfl
@[simp] theorem State.eject_reports : (s.eject k m).reports = s.reports := rfl
@[simp] theorem State.eject_regionRegs : (s.eject k m).regionRegs = s.regionRegs := rfl
@[simp] theorem State.eject_recovery : (s.eject k m).recovery = s.recovery := rfl
@[simp] theorem State.eject_pf : (s.eject k m).pf = s.pf := rfl
@[simp] theorem State.eject_reclaims : (s.eject k m).reclaims = s.reclaims := rfl
@[simp] theorem State.eject_frameUse : (s.eject k m).frameUse = s.frameUse := rfl
@[simp] theorem State.eject_hwErrors : (s.eject k m).hwErrors = s.hwErrors := rfl
@[simp] theorem State.eject_agenda : (s.eject k m).agenda = s.agenda := rfl
@[simp] theorem State.eject_ev : (s.eject k m).ev = s.ev := rfl
@[simp] theorem State.eject_auto : (s.eject k m).auto = s.auto := rfl
@[simp] theorem State.eject_draws : (s.eject k m).draws = s.draws := rfl

end

section
/-! ### A pending write -/

variable (s : State) (w : Write) (d : Nat)

@[simp] theorem State.later_me : (s.later w d).me = s.me.later w d := rfl
@[simp] theorem State.later_others : (s.later w d).others = s.others := rfl
@[simp] theorem State.later_regions : (s.later w d).regions = s.regions := rfl
@[simp] theorem State.later_net : (s.later w d).net = s.net := rfl
@[simp] theorem State.later_fns : (s.later w d).fns = s.fns := rfl
@[simp] theorem State.later_cyc : (s.later w d).cyc = s.cyc := rfl
@[simp] theorem State.later_devtime : (s.later w d).devtime = s.devtime := rfl
@[simp] theorem State.later_period : (s.later w d).period = s.period := rfl
@[simp] theorem State.later_phase : (s.later w d).phase = s.phase := rfl
@[simp] theorem State.later_pauseAt : (s.later w d).pauseAt = s.pauseAt := rfl
@[simp] theorem State.later_moveFor : (s.later w d).moveFor = s.moveFor := rfl
@[simp] theorem State.later_moveExtra : (s.later w d).moveExtra = s.moveExtra := rfl
@[simp] theorem State.later_moveTries : (s.later w d).moveTries = s.moveTries := rfl
@[simp] theorem State.later_switches : (s.later w d).switches = s.switches := rfl
@[simp] theorem State.later_switching : (s.later w d).switching = s.switching := rfl
@[simp] theorem State.later_stamp : (s.later w d).stamp = s.stamp := rfl
@[simp] theorem State.later_turnDue : (s.later w d).turnDue = s.turnDue := rfl
@[simp] theorem State.later_config : (s.later w d).config = s.config := rfl
@[simp] theorem State.later_purses : (s.later w d).purses = s.purses := rfl
@[simp] theorem State.later_cols : (s.later w d).cols = s.cols := rfl
@[simp] theorem State.later_stripes : (s.later w d).stripes = s.stripes := rfl
@[simp] theorem State.later_failing : (s.later w d).failing = s.failing := rfl
@[simp] theorem State.later_fenced : (s.later w d).fenced = s.fenced := rfl
@[simp] theorem State.later_hbm : (s.later w d).hbm = s.hbm := rfl
@[simp] theorem State.later_written : (s.later w d).written = s.written := rfl
@[simp] theorem State.later_host : (s.later w d).host = s.host := rfl
@[simp] theorem State.later_hostOut : (s.later w d).hostOut = s.hostOut := rfl
@[simp] theorem State.later_arrayLog : (s.later w d).arrayLog = s.arrayLog := rfl
@[simp] theorem State.later_xferLog : (s.later w d).xferLog = s.xferLog := rfl
@[simp] theorem State.later_flaws : (s.later w d).flaws = s.flaws := rfl
@[simp] theorem State.later_pfLog : (s.later w d).pfLog = s.pfLog := rfl
@[simp] theorem State.later_spares : (s.later w d).spares = s.spares := rfl
@[simp] theorem State.later_floors : (s.later w d).floors = s.floors := rfl
@[simp] theorem State.later_chans : (s.later w d).chans = s.chans := rfl
@[simp] theorem State.later_slots : (s.later w d).slots = s.slots := rfl
@[simp] theorem State.later_bindCtr : (s.later w d).bindCtr = s.bindCtr := rfl
@[simp] theorem State.later_takeCtr : (s.later w d).takeCtr = s.takeCtr := rfl
@[simp] theorem State.later_takeWait : (s.later w d).takeWait = s.takeWait := rfl
@[simp] theorem State.later_wheelTick : (s.later w d).wheelTick = s.wheelTick := rfl
@[simp] theorem State.later_harts : (s.later w d).harts = s.harts := rfl
@[simp] theorem State.later_fabricId : (s.later w d).fabricId = s.fabricId := rfl
@[simp] theorem State.later_ports : (s.later w d).ports = s.ports := rfl
@[simp] theorem State.later_resends : (s.later w d).resends = s.resends := rfl
@[simp] theorem State.later_cut : (s.later w d).cut = s.cut := rfl
@[simp] theorem State.later_homeOut : (s.later w d).homeOut = s.homeOut := rfl
@[simp] theorem State.later_reqOrder : (s.later w d).reqOrder = s.reqOrder := rfl
@[simp] theorem State.later_fabricIn : (s.later w d).fabricIn = s.fabricIn := rfl
@[simp] theorem State.later_fabricOut : (s.later w d).fabricOut = s.fabricOut := rfl
@[simp] theorem State.later_linkUp : (s.later w d).linkUp = s.linkUp := rfl
@[simp] theorem State.later_linkWidth : (s.later w d).linkWidth = s.linkWidth := rfl
@[simp] theorem State.later_linkSpeed : (s.later w d).linkSpeed = s.linkSpeed := rfl
@[simp] theorem State.later_linkDownFor : (s.later w d).linkDownFor = s.linkDownFor := rfl
@[simp] theorem State.later_linkLimit : (s.later w d).linkLimit = s.linkLimit := rfl
@[simp] theorem State.later_measures : (s.later w d).measures = s.measures := rfl
@[simp] theorem State.later_lms : (s.later w d).lms = s.lms := rfl
@[simp] theorem State.later_fuses : (s.later w d).fuses = s.fuses := rfl
@[simp] theorem State.later_identity : (s.later w d).identity = s.identity := rfl
@[simp] theorem State.later_operatorKey : (s.later w d).operatorKey = s.operatorKey := rfl
@[simp] theorem State.later_reports : (s.later w d).reports = s.reports := rfl
@[simp] theorem State.later_regionRegs : (s.later w d).regionRegs = s.regionRegs := rfl
@[simp] theorem State.later_recovery : (s.later w d).recovery = s.recovery := rfl
@[simp] theorem State.later_pf : (s.later w d).pf = s.pf := rfl
@[simp] theorem State.later_reclaims : (s.later w d).reclaims = s.reclaims := rfl
@[simp] theorem State.later_frameUse : (s.later w d).frameUse = s.frameUse := rfl
@[simp] theorem State.later_hwErrors : (s.later w d).hwErrors = s.hwErrors := rfl
@[simp] theorem State.later_agenda : (s.later w d).agenda = s.agenda := rfl
@[simp] theorem State.later_ev : (s.later w d).ev = s.ev := rfl
@[simp] theorem State.later_auto : (s.later w d).auto = s.auto := rfl
@[simp] theorem State.later_draws : (s.later w d).draws = s.draws := rfl

end

section
/-! ### A stall -/

variable (s : State) (st : Status)

@[simp] theorem State.stall_others : (s.stall st).others = s.others := rfl
@[simp] theorem State.stall_regions : (s.stall st).regions = s.regions := rfl
@[simp] theorem State.stall_net : (s.stall st).net = s.net := rfl
@[simp] theorem State.stall_fns : (s.stall st).fns = s.fns := rfl
@[simp] theorem State.stall_cyc : (s.stall st).cyc = s.cyc := rfl
@[simp] theorem State.stall_devtime : (s.stall st).devtime = s.devtime := rfl
@[simp] theorem State.stall_period : (s.stall st).period = s.period := rfl
@[simp] theorem State.stall_phase : (s.stall st).phase = s.phase := rfl
@[simp] theorem State.stall_pauseAt : (s.stall st).pauseAt = s.pauseAt := rfl
@[simp] theorem State.stall_moveFor : (s.stall st).moveFor = s.moveFor := rfl
@[simp] theorem State.stall_moveExtra : (s.stall st).moveExtra = s.moveExtra := rfl
@[simp] theorem State.stall_moveTries : (s.stall st).moveTries = s.moveTries := rfl
@[simp] theorem State.stall_switches : (s.stall st).switches = s.switches := rfl
@[simp] theorem State.stall_switching : (s.stall st).switching = s.switching := rfl
@[simp] theorem State.stall_stamp : (s.stall st).stamp = s.stamp := rfl
@[simp] theorem State.stall_turnDue : (s.stall st).turnDue = s.turnDue := rfl
@[simp] theorem State.stall_config : (s.stall st).config = s.config := rfl
@[simp] theorem State.stall_purses : (s.stall st).purses = s.purses := rfl
@[simp] theorem State.stall_cols : (s.stall st).cols = s.cols := rfl
@[simp] theorem State.stall_stripes : (s.stall st).stripes = s.stripes := rfl
@[simp] theorem State.stall_failing : (s.stall st).failing = s.failing := rfl
@[simp] theorem State.stall_fenced : (s.stall st).fenced = s.fenced := rfl
@[simp] theorem State.stall_hbm : (s.stall st).hbm = s.hbm := rfl
@[simp] theorem State.stall_written : (s.stall st).written = s.written := rfl
@[simp] theorem State.stall_host : (s.stall st).host = s.host := rfl
@[simp] theorem State.stall_hostOut : (s.stall st).hostOut = s.hostOut := rfl
@[simp] theorem State.stall_arrayLog : (s.stall st).arrayLog = s.arrayLog := rfl
@[simp] theorem State.stall_xferLog : (s.stall st).xferLog = s.xferLog := rfl
@[simp] theorem State.stall_flaws : (s.stall st).flaws = s.flaws := rfl
@[simp] theorem State.stall_pfLog : (s.stall st).pfLog = s.pfLog := rfl
@[simp] theorem State.stall_spares : (s.stall st).spares = s.spares := rfl
@[simp] theorem State.stall_floors : (s.stall st).floors = s.floors := rfl
@[simp] theorem State.stall_chans : (s.stall st).chans = s.chans := rfl
@[simp] theorem State.stall_slots : (s.stall st).slots = s.slots := rfl
@[simp] theorem State.stall_bindCtr : (s.stall st).bindCtr = s.bindCtr := rfl
@[simp] theorem State.stall_takeCtr : (s.stall st).takeCtr = s.takeCtr := rfl
@[simp] theorem State.stall_takeWait : (s.stall st).takeWait = s.takeWait := rfl
@[simp] theorem State.stall_wheelTick : (s.stall st).wheelTick = s.wheelTick := rfl
@[simp] theorem State.stall_harts : (s.stall st).harts = s.harts := rfl
@[simp] theorem State.stall_fabricId : (s.stall st).fabricId = s.fabricId := rfl
@[simp] theorem State.stall_ports : (s.stall st).ports = s.ports := rfl
@[simp] theorem State.stall_resends : (s.stall st).resends = s.resends := rfl
@[simp] theorem State.stall_cut : (s.stall st).cut = s.cut := rfl
@[simp] theorem State.stall_homeOut : (s.stall st).homeOut = s.homeOut := rfl
@[simp] theorem State.stall_reqOrder : (s.stall st).reqOrder = s.reqOrder := rfl
@[simp] theorem State.stall_fabricIn : (s.stall st).fabricIn = s.fabricIn := rfl
@[simp] theorem State.stall_fabricOut : (s.stall st).fabricOut = s.fabricOut := rfl
@[simp] theorem State.stall_linkUp : (s.stall st).linkUp = s.linkUp := rfl
@[simp] theorem State.stall_linkWidth : (s.stall st).linkWidth = s.linkWidth := rfl
@[simp] theorem State.stall_linkSpeed : (s.stall st).linkSpeed = s.linkSpeed := rfl
@[simp] theorem State.stall_linkDownFor : (s.stall st).linkDownFor = s.linkDownFor := rfl
@[simp] theorem State.stall_linkLimit : (s.stall st).linkLimit = s.linkLimit := rfl
@[simp] theorem State.stall_measures : (s.stall st).measures = s.measures := rfl
@[simp] theorem State.stall_lms : (s.stall st).lms = s.lms := rfl
@[simp] theorem State.stall_fuses : (s.stall st).fuses = s.fuses := rfl
@[simp] theorem State.stall_identity : (s.stall st).identity = s.identity := rfl
@[simp] theorem State.stall_operatorKey : (s.stall st).operatorKey = s.operatorKey := rfl
@[simp] theorem State.stall_reports : (s.stall st).reports = s.reports := rfl
@[simp] theorem State.stall_regionRegs : (s.stall st).regionRegs = s.regionRegs := rfl
@[simp] theorem State.stall_recovery : (s.stall st).recovery = s.recovery := rfl
@[simp] theorem State.stall_pf : (s.stall st).pf = s.pf := rfl
@[simp] theorem State.stall_reclaims : (s.stall st).reclaims = s.reclaims := rfl
@[simp] theorem State.stall_frameUse : (s.stall st).frameUse = s.frameUse := rfl
@[simp] theorem State.stall_hwErrors : (s.stall st).hwErrors = s.hwErrors := rfl
@[simp] theorem State.stall_agenda : (s.stall st).agenda = s.agenda := rfl
@[simp] theorem State.stall_ev : (s.stall st).ev = s.ev := rfl
@[simp] theorem State.stall_auto : (s.stall st).auto = s.auto := rfl
@[simp] theorem State.stall_draws : (s.stall st).draws = s.draws := rfl

end

section
/-! ### A free value -/

variable (s : State)

@[simp] theorem State.draw_draws : s.draw.2.draws = s.draws + 1 := rfl
@[simp] theorem State.draw_me : s.draw.2.me = s.me := rfl
@[simp] theorem State.draw_others : s.draw.2.others = s.others := rfl
@[simp] theorem State.draw_regions : s.draw.2.regions = s.regions := rfl
@[simp] theorem State.draw_net : s.draw.2.net = s.net := rfl
@[simp] theorem State.draw_fns : s.draw.2.fns = s.fns := rfl
@[simp] theorem State.draw_cyc : s.draw.2.cyc = s.cyc := rfl
@[simp] theorem State.draw_devtime : s.draw.2.devtime = s.devtime := rfl
@[simp] theorem State.draw_period : s.draw.2.period = s.period := rfl
@[simp] theorem State.draw_phase : s.draw.2.phase = s.phase := rfl
@[simp] theorem State.draw_pauseAt : s.draw.2.pauseAt = s.pauseAt := rfl
@[simp] theorem State.draw_moveFor : s.draw.2.moveFor = s.moveFor := rfl
@[simp] theorem State.draw_moveExtra : s.draw.2.moveExtra = s.moveExtra := rfl
@[simp] theorem State.draw_moveTries : s.draw.2.moveTries = s.moveTries := rfl
@[simp] theorem State.draw_switches : s.draw.2.switches = s.switches := rfl
@[simp] theorem State.draw_switching : s.draw.2.switching = s.switching := rfl
@[simp] theorem State.draw_stamp : s.draw.2.stamp = s.stamp := rfl
@[simp] theorem State.draw_turnDue : s.draw.2.turnDue = s.turnDue := rfl
@[simp] theorem State.draw_config : s.draw.2.config = s.config := rfl
@[simp] theorem State.draw_purses : s.draw.2.purses = s.purses := rfl
@[simp] theorem State.draw_cols : s.draw.2.cols = s.cols := rfl
@[simp] theorem State.draw_stripes : s.draw.2.stripes = s.stripes := rfl
@[simp] theorem State.draw_failing : s.draw.2.failing = s.failing := rfl
@[simp] theorem State.draw_fenced : s.draw.2.fenced = s.fenced := rfl
@[simp] theorem State.draw_hbm : s.draw.2.hbm = s.hbm := rfl
@[simp] theorem State.draw_written : s.draw.2.written = s.written := rfl
@[simp] theorem State.draw_host : s.draw.2.host = s.host := rfl
@[simp] theorem State.draw_hostOut : s.draw.2.hostOut = s.hostOut := rfl
@[simp] theorem State.draw_arrayLog : s.draw.2.arrayLog = s.arrayLog := rfl
@[simp] theorem State.draw_xferLog : s.draw.2.xferLog = s.xferLog := rfl
@[simp] theorem State.draw_flaws : s.draw.2.flaws = s.flaws := rfl
@[simp] theorem State.draw_pfLog : s.draw.2.pfLog = s.pfLog := rfl
@[simp] theorem State.draw_spares : s.draw.2.spares = s.spares := rfl
@[simp] theorem State.draw_floors : s.draw.2.floors = s.floors := rfl
@[simp] theorem State.draw_chans : s.draw.2.chans = s.chans := rfl
@[simp] theorem State.draw_slots : s.draw.2.slots = s.slots := rfl
@[simp] theorem State.draw_bindCtr : s.draw.2.bindCtr = s.bindCtr := rfl
@[simp] theorem State.draw_takeCtr : s.draw.2.takeCtr = s.takeCtr := rfl
@[simp] theorem State.draw_takeWait : s.draw.2.takeWait = s.takeWait := rfl
@[simp] theorem State.draw_wheelTick : s.draw.2.wheelTick = s.wheelTick := rfl
@[simp] theorem State.draw_harts : s.draw.2.harts = s.harts := rfl
@[simp] theorem State.draw_fabricId : s.draw.2.fabricId = s.fabricId := rfl
@[simp] theorem State.draw_ports : s.draw.2.ports = s.ports := rfl
@[simp] theorem State.draw_resends : s.draw.2.resends = s.resends := rfl
@[simp] theorem State.draw_cut : s.draw.2.cut = s.cut := rfl
@[simp] theorem State.draw_homeOut : s.draw.2.homeOut = s.homeOut := rfl
@[simp] theorem State.draw_reqOrder : s.draw.2.reqOrder = s.reqOrder := rfl
@[simp] theorem State.draw_fabricIn : s.draw.2.fabricIn = s.fabricIn := rfl
@[simp] theorem State.draw_fabricOut : s.draw.2.fabricOut = s.fabricOut := rfl
@[simp] theorem State.draw_linkUp : s.draw.2.linkUp = s.linkUp := rfl
@[simp] theorem State.draw_linkWidth : s.draw.2.linkWidth = s.linkWidth := rfl
@[simp] theorem State.draw_linkSpeed : s.draw.2.linkSpeed = s.linkSpeed := rfl
@[simp] theorem State.draw_linkDownFor : s.draw.2.linkDownFor = s.linkDownFor := rfl
@[simp] theorem State.draw_linkLimit : s.draw.2.linkLimit = s.linkLimit := rfl
@[simp] theorem State.draw_measures : s.draw.2.measures = s.measures := rfl
@[simp] theorem State.draw_lms : s.draw.2.lms = s.lms := rfl
@[simp] theorem State.draw_fuses : s.draw.2.fuses = s.fuses := rfl
@[simp] theorem State.draw_identity : s.draw.2.identity = s.identity := rfl
@[simp] theorem State.draw_operatorKey : s.draw.2.operatorKey = s.operatorKey := rfl
@[simp] theorem State.draw_reports : s.draw.2.reports = s.reports := rfl
@[simp] theorem State.draw_regionRegs : s.draw.2.regionRegs = s.regionRegs := rfl
@[simp] theorem State.draw_recovery : s.draw.2.recovery = s.recovery := rfl
@[simp] theorem State.draw_pf : s.draw.2.pf = s.pf := rfl
@[simp] theorem State.draw_reclaims : s.draw.2.reclaims = s.reclaims := rfl
@[simp] theorem State.draw_frameUse : s.draw.2.frameUse = s.frameUse := rfl
@[simp] theorem State.draw_hwErrors : s.draw.2.hwErrors = s.hwErrors := rfl
@[simp] theorem State.draw_agenda : s.draw.2.agenda = s.agenda := rfl
@[simp] theorem State.draw_ev : s.draw.2.ev = s.ev := rfl
@[simp] theorem State.draw_auto : s.draw.2.auto = s.auto := rfl

end

/-! ## The core -/

section
/-! ### A pending write -/

variable (c : Core) (w : Write) (d : Nat)

@[simp] theorem Core.later_pend : (c.later w d).pend = c.pend ++ [⟨w, d⟩] := rfl
@[simp] theorem Core.later_id : (c.later w d).id = c.id := rfl
@[simp] theorem Core.later_firm : (c.later w d).firm = c.firm := rfl
@[simp] theorem Core.later_g : (c.later w d).g = c.g := rfl
@[simp] theorem Core.later_p : (c.later w d).p = c.p := rfl
@[simp] theorem Core.later_x : (c.later w d).x = c.x := rfl
@[simp] theorem Core.later_xpres : (c.later w d).xpres = c.xpres := rfl
@[simp] theorem Core.later_w : (c.later w d).w = c.w := rfl
@[simp] theorem Core.later_c : (c.later w d).c = c.c := rfl
@[simp] theorem Core.later_q : (c.later w d).q = c.q := rfl
@[simp] theorem Core.later_v : (c.later w d).v = c.v := rfl
@[simp] theorem Core.later_t : (c.later w d).t = c.t := rfl
@[simp] theorem Core.later_csr : (c.later w d).csr = c.csr := rfl
@[simp] theorem Core.later_vmem : (c.later w d).vmem = c.vmem := rfl
@[simp] theorem Core.later_scr : (c.later w d).scr = c.scr := rfl
@[simp] theorem Core.later_fe : (c.later w d).fe = c.fe := rfl
@[simp] theorem Core.later_touched : (c.later w d).touched = c.touched := rfl
@[simp] theorem Core.later_dirty : (c.later w d).dirty = c.dirty := rfl
@[simp] theorem Core.later_fetched : (c.later w d).fetched = c.fetched := rfl
@[simp] theorem Core.later_qimg : (c.later w d).qimg = c.qimg := rfl
@[simp] theorem Core.later_pc : (c.later w d).pc = c.pc := rfl
@[simp] theorem Core.later_vbusy : (c.later w d).vbusy = c.vbusy := rfl
@[simp] theorem Core.later_rearmed : (c.later w d).rearmed = c.rearmed := rfl
@[simp] theorem Core.later_bubble : (c.later w d).bubble = c.bubble := rfl
@[simp] theorem Core.later_blk : (c.later w d).blk = c.blk := rfl
@[simp] theorem Core.later_blkAt : (c.later w d).blkAt = c.blkAt := rfl
@[simp] theorem Core.later_blkLeft : (c.later w d).blkLeft = c.blkLeft := rfl
@[simp] theorem Core.later_blkBack : (c.later w d).blkBack = c.blkBack := rfl
@[simp] theorem Core.later_issue : (c.later w d).issue = c.issue := rfl
@[simp] theorem Core.later_done : (c.later w d).done = c.done := rfl
@[simp] theorem Core.later_seq : (c.later w d).seq = c.seq := rfl
@[simp] theorem Core.later_sb : (c.later w d).sb = c.sb := rfl
@[simp] theorem Core.later_unacked : (c.later w d).unacked = c.unacked := rfl
@[simp] theorem Core.later_outs : (c.later w d).outs = c.outs := rfl
@[simp] theorem Core.later_score : (c.later w d).score = c.score := rfl
@[simp] theorem Core.later_bulks : (c.later w d).bulks = c.bulks := rfl
@[simp] theorem Core.later_copyAt : (c.later w d).copyAt = c.copyAt := rfl
@[simp] theorem Core.later_hbmAcc : (c.later w d).hbmAcc = c.hbmAcc := rfl
@[simp] theorem Core.later_hbmWr : (c.later w d).hbmWr = c.hbmWr := rfl
@[simp] theorem Core.later_waitList : (c.later w d).waitList = c.waitList := rfl
@[simp] theorem Core.later_spill : (c.later w d).spill = c.spill := rfl
@[simp] theorem Core.later_latch : (c.later w d).latch = c.latch := rfl
@[simp] theorem Core.later_gang : (c.later w d).gang = c.gang := rfl
@[simp] theorem Core.later_atBarrier : (c.later w d).atBarrier = c.atBarrier := rfl
@[simp] theorem Core.later_onLatch : (c.later w d).onLatch = c.onLatch := rfl
@[simp] theorem Core.later_onTask : (c.later w d).onTask = c.onTask := rfl
@[simp] theorem Core.later_rowsOut : (c.later w d).rowsOut = c.rowsOut := rfl
@[simp] theorem Core.later_granted : (c.later w d).granted = c.granted := rfl
@[simp] theorem Core.later_product : (c.later w d).product = c.product := rfl
@[simp] theorem Core.later_slice : (c.later w d).slice = c.slice := rfl
@[simp] theorem Core.later_waited : (c.later w d).waited = c.waited := rfl
@[simp] theorem Core.later_trapDue : (c.later w d).trapDue = c.trapDue := rfl
@[simp] theorem Core.later_deferred : (c.later w d).deferred = c.deferred := rfl
@[simp] theorem Core.later_refs : (c.later w d).refs = c.refs := rfl
@[simp] theorem Core.later_hiDeque : (c.later w d).hiDeque = c.hiDeque := rfl
@[simp] theorem Core.later_loDeque : (c.later w d).loDeque = c.loDeque := rfl
@[simp] theorem Core.later_hiSpill : (c.later w d).hiSpill = c.hiSpill := rfl
@[simp] theorem Core.later_loSpill : (c.later w d).loSpill = c.loSpill := rfl
@[simp] theorem Core.later_running : (c.later w d).running = c.running := rfl
@[simp] theorem Core.later_stealPtr : (c.later w d).stealPtr = c.stealPtr := rfl
@[simp] theorem Core.later_sweep : (c.later w d).sweep = c.sweep := rfl
@[simp] theorem Core.later_awaiting : (c.later w d).awaiting = c.awaiting := rfl
@[simp] theorem Core.later_compo : (c.later w d).compo = c.compo := rfl
@[simp] theorem Core.later_binding : (c.later w d).binding = c.binding := rfl
@[simp] theorem Core.later_stopped : (c.later w d).stopped = c.stopped := rfl
@[simp] theorem Core.later_walks : (c.later w d).walks = c.walks := rfl
@[simp] theorem Core.later_ckpt : (c.later w d).ckpt = c.ckpt := rfl
@[simp] theorem Core.later_ahead : (c.later w d).ahead = c.ahead := rfl
@[simp] theorem Core.later_needs : (c.later w d).needs = c.needs := rfl
@[simp] theorem Core.later_answered : (c.later w d).answered = c.answered := rfl
@[simp] theorem Core.later_asked : (c.later w d).asked = c.asked := rfl
@[simp] theorem Core.later_objCache : (c.later w d).objCache = c.objCache := rfl
@[simp] theorem Core.later_tlb : (c.later w d).tlb = c.tlb := rfl
@[simp] theorem Core.later_homeHeld : (c.later w d).homeHeld = c.homeHeld := rfl
@[simp] theorem Core.later_homeAns : (c.later w d).homeAns = c.homeAns := rfl
@[simp] theorem Core.later_homeMissed : (c.later w d).homeMissed = c.homeMissed := rfl
@[simp] theorem Core.later_farRows : (c.later w d).farRows = c.farRows := rfl
@[simp] theorem Core.later_waitBack : (c.later w d).waitBack = c.waitBack := rfl

end

section
/-! ### An inbox -/

variable (c : Core) (n : BitVec 5) (v : BitVec 64)

@[simp] theorem Core.setX_id : (c.setX n v).id = c.id := rfl
@[simp] theorem Core.setX_g : (c.setX n v).g = c.g := rfl
@[simp] theorem Core.setX_p : (c.setX n v).p = c.p := rfl
@[simp] theorem Core.setX_xpres : (c.setX n v).xpres = c.xpres := rfl
@[simp] theorem Core.setX_w : (c.setX n v).w = c.w := rfl
@[simp] theorem Core.setX_c : (c.setX n v).c = c.c := rfl
@[simp] theorem Core.setX_q : (c.setX n v).q = c.q := rfl
@[simp] theorem Core.setX_v : (c.setX n v).v = c.v := rfl
@[simp] theorem Core.setX_t : (c.setX n v).t = c.t := rfl
@[simp] theorem Core.setX_csr : (c.setX n v).csr = c.csr := rfl
@[simp] theorem Core.setX_vmem : (c.setX n v).vmem = c.vmem := rfl
@[simp] theorem Core.setX_scr : (c.setX n v).scr = c.scr := rfl
@[simp] theorem Core.setX_fe : (c.setX n v).fe = c.fe := rfl
@[simp] theorem Core.setX_pc : (c.setX n v).pc = c.pc := rfl
@[simp] theorem Core.setX_pend : (c.setX n v).pend = c.pend := rfl
@[simp] theorem Core.setX_sb : (c.setX n v).sb = c.sb := rfl
@[simp] theorem Core.setX_outs : (c.setX n v).outs = c.outs := rfl
@[simp] theorem Core.setX_issue : (c.setX n v).issue = c.issue := rfl
@[simp] theorem Core.setX_running : (c.setX n v).running = c.running := rfl
@[simp] theorem Core.setX_compo : (c.setX n v).compo = c.compo := rfl
@[simp] theorem Core.setX_stopped : (c.setX n v).stopped = c.stopped := rfl
@[simp] theorem Core.setX_ahead : (c.setX n v).ahead = c.ahead := rfl

end

section
/-! ### A presence bit -/

variable (c : Core) (n : BitVec 5) (v : Bool)

@[simp] theorem Core.setXp_id : (c.setXp n v).id = c.id := rfl
@[simp] theorem Core.setXp_g : (c.setXp n v).g = c.g := rfl
@[simp] theorem Core.setXp_p : (c.setXp n v).p = c.p := rfl
@[simp] theorem Core.setXp_x : (c.setXp n v).x = c.x := rfl
@[simp] theorem Core.setXp_w : (c.setXp n v).w = c.w := rfl
@[simp] theorem Core.setXp_c : (c.setXp n v).c = c.c := rfl
@[simp] theorem Core.setXp_q : (c.setXp n v).q = c.q := rfl
@[simp] theorem Core.setXp_v : (c.setXp n v).v = c.v := rfl
@[simp] theorem Core.setXp_t : (c.setXp n v).t = c.t := rfl
@[simp] theorem Core.setXp_csr : (c.setXp n v).csr = c.csr := rfl
@[simp] theorem Core.setXp_vmem : (c.setXp n v).vmem = c.vmem := rfl
@[simp] theorem Core.setXp_scr : (c.setXp n v).scr = c.scr := rfl
@[simp] theorem Core.setXp_fe : (c.setXp n v).fe = c.fe := rfl
@[simp] theorem Core.setXp_pc : (c.setXp n v).pc = c.pc := rfl
@[simp] theorem Core.setXp_pend : (c.setXp n v).pend = c.pend := rfl
@[simp] theorem Core.setXp_sb : (c.setXp n v).sb = c.sb := rfl
@[simp] theorem Core.setXp_outs : (c.setXp n v).outs = c.outs := rfl
@[simp] theorem Core.setXp_issue : (c.setXp n v).issue = c.issue := rfl
@[simp] theorem Core.setXp_running : (c.setXp n v).running = c.running := rfl
@[simp] theorem Core.setXp_compo : (c.setXp n v).compo = c.compo := rfl
@[simp] theorem Core.setXp_stopped : (c.setXp n v).stopped = c.stopped := rfl
@[simp] theorem Core.setXp_ahead : (c.setXp n v).ahead = c.ahead := rfl

end

section
/-! ### An arrival cell -/

variable (c : Core) (n : BitVec 5) (v : BitVec 32)

@[simp] theorem Core.setCell_id : (c.setCell n v).id = c.id := rfl
@[simp] theorem Core.setCell_g : (c.setCell n v).g = c.g := rfl
@[simp] theorem Core.setCell_p : (c.setCell n v).p = c.p := rfl
@[simp] theorem Core.setCell_x : (c.setCell n v).x = c.x := rfl
@[simp] theorem Core.setCell_xpres : (c.setCell n v).xpres = c.xpres := rfl
@[simp] theorem Core.setCell_c : (c.setCell n v).c = c.c := rfl
@[simp] theorem Core.setCell_q : (c.setCell n v).q = c.q := rfl
@[simp] theorem Core.setCell_v : (c.setCell n v).v = c.v := rfl
@[simp] theorem Core.setCell_t : (c.setCell n v).t = c.t := rfl
@[simp] theorem Core.setCell_csr : (c.setCell n v).csr = c.csr := rfl
@[simp] theorem Core.setCell_vmem : (c.setCell n v).vmem = c.vmem := rfl
@[simp] theorem Core.setCell_scr : (c.setCell n v).scr = c.scr := rfl
@[simp] theorem Core.setCell_fe : (c.setCell n v).fe = c.fe := rfl
@[simp] theorem Core.setCell_pc : (c.setCell n v).pc = c.pc := rfl
@[simp] theorem Core.setCell_pend : (c.setCell n v).pend = c.pend := rfl
@[simp] theorem Core.setCell_sb : (c.setCell n v).sb = c.sb := rfl
@[simp] theorem Core.setCell_outs : (c.setCell n v).outs = c.outs := rfl
@[simp] theorem Core.setCell_issue : (c.setCell n v).issue = c.issue := rfl
@[simp] theorem Core.setCell_running : (c.setCell n v).running = c.running := rfl
@[simp] theorem Core.setCell_compo : (c.setCell n v).compo = c.compo := rfl
@[simp] theorem Core.setCell_stopped : (c.setCell n v).stopped = c.stopped := rfl
@[simp] theorem Core.setCell_ahead : (c.setCell n v).ahead = c.ahead := rfl

end

section
/-! ### A capability register -/

variable (c : Core) (n : BitVec 4) (v : Cap)

@[simp] theorem Core.setCap_id : (c.setCap n v).id = c.id := rfl
@[simp] theorem Core.setCap_g : (c.setCap n v).g = c.g := rfl
@[simp] theorem Core.setCap_p : (c.setCap n v).p = c.p := rfl
@[simp] theorem Core.setCap_x : (c.setCap n v).x = c.x := rfl
@[simp] theorem Core.setCap_xpres : (c.setCap n v).xpres = c.xpres := rfl
@[simp] theorem Core.setCap_w : (c.setCap n v).w = c.w := rfl
@[simp] theorem Core.setCap_q : (c.setCap n v).q = c.q := rfl
@[simp] theorem Core.setCap_v : (c.setCap n v).v = c.v := rfl
@[simp] theorem Core.setCap_t : (c.setCap n v).t = c.t := rfl
@[simp] theorem Core.setCap_csr : (c.setCap n v).csr = c.csr := rfl
@[simp] theorem Core.setCap_vmem : (c.setCap n v).vmem = c.vmem := rfl
@[simp] theorem Core.setCap_scr : (c.setCap n v).scr = c.scr := rfl
@[simp] theorem Core.setCap_fe : (c.setCap n v).fe = c.fe := rfl
@[simp] theorem Core.setCap_pc : (c.setCap n v).pc = c.pc := rfl
@[simp] theorem Core.setCap_pend : (c.setCap n v).pend = c.pend := rfl
@[simp] theorem Core.setCap_sb : (c.setCap n v).sb = c.sb := rfl
@[simp] theorem Core.setCap_outs : (c.setCap n v).outs = c.outs := rfl
@[simp] theorem Core.setCap_issue : (c.setCap n v).issue = c.issue := rfl
@[simp] theorem Core.setCap_running : (c.setCap n v).running = c.running := rfl
@[simp] theorem Core.setCap_compo : (c.setCap n v).compo = c.compo := rfl
@[simp] theorem Core.setCap_stopped : (c.setCap n v).stopped = c.stopped := rfl
@[simp] theorem Core.setCap_ahead : (c.setCap n v).ahead = c.ahead := rfl

end

section
/-! ### A ring handle -/

variable (c : Core) (n : BitVec 3) (v : BitVec 256)

@[simp] theorem Core.setRing_id : (c.setRing n v).id = c.id := rfl
@[simp] theorem Core.setRing_g : (c.setRing n v).g = c.g := rfl
@[simp] theorem Core.setRing_p : (c.setRing n v).p = c.p := rfl
@[simp] theorem Core.setRing_x : (c.setRing n v).x = c.x := rfl
@[simp] theorem Core.setRing_xpres : (c.setRing n v).xpres = c.xpres := rfl
@[simp] theorem Core.setRing_w : (c.setRing n v).w = c.w := rfl
@[simp] theorem Core.setRing_c : (c.setRing n v).c = c.c := rfl
@[simp] theorem Core.setRing_v : (c.setRing n v).v = c.v := rfl
@[simp] theorem Core.setRing_t : (c.setRing n v).t = c.t := rfl
@[simp] theorem Core.setRing_csr : (c.setRing n v).csr = c.csr := rfl
@[simp] theorem Core.setRing_vmem : (c.setRing n v).vmem = c.vmem := rfl
@[simp] theorem Core.setRing_scr : (c.setRing n v).scr = c.scr := rfl
@[simp] theorem Core.setRing_fe : (c.setRing n v).fe = c.fe := rfl
@[simp] theorem Core.setRing_pc : (c.setRing n v).pc = c.pc := rfl
@[simp] theorem Core.setRing_pend : (c.setRing n v).pend = c.pend := rfl
@[simp] theorem Core.setRing_sb : (c.setRing n v).sb = c.sb := rfl
@[simp] theorem Core.setRing_outs : (c.setRing n v).outs = c.outs := rfl
@[simp] theorem Core.setRing_issue : (c.setRing n v).issue = c.issue := rfl
@[simp] theorem Core.setRing_running : (c.setRing n v).running = c.running := rfl
@[simp] theorem Core.setRing_compo : (c.setRing n v).compo = c.compo := rfl
@[simp] theorem Core.setRing_stopped : (c.setRing n v).stopped = c.stopped := rfl
@[simp] theorem Core.setRing_ahead : (c.setRing n v).ahead = c.ahead := rfl

end

section
/-! ### A tile descriptor -/

variable (c : Core) (n : BitVec 6) (v : BitVec 512)

@[simp] theorem Core.setTid_id : (c.setTid n v).id = c.id := rfl
@[simp] theorem Core.setTid_g : (c.setTid n v).g = c.g := rfl
@[simp] theorem Core.setTid_p : (c.setTid n v).p = c.p := rfl
@[simp] theorem Core.setTid_x : (c.setTid n v).x = c.x := rfl
@[simp] theorem Core.setTid_xpres : (c.setTid n v).xpres = c.xpres := rfl
@[simp] theorem Core.setTid_w : (c.setTid n v).w = c.w := rfl
@[simp] theorem Core.setTid_c : (c.setTid n v).c = c.c := rfl
@[simp] theorem Core.setTid_q : (c.setTid n v).q = c.q := rfl
@[simp] theorem Core.setTid_v : (c.setTid n v).v = c.v := rfl
@[simp] theorem Core.setTid_csr : (c.setTid n v).csr = c.csr := rfl
@[simp] theorem Core.setTid_vmem : (c.setTid n v).vmem = c.vmem := rfl
@[simp] theorem Core.setTid_scr : (c.setTid n v).scr = c.scr := rfl
@[simp] theorem Core.setTid_fe : (c.setTid n v).fe = c.fe := rfl
@[simp] theorem Core.setTid_pc : (c.setTid n v).pc = c.pc := rfl
@[simp] theorem Core.setTid_pend : (c.setTid n v).pend = c.pend := rfl
@[simp] theorem Core.setTid_sb : (c.setTid n v).sb = c.sb := rfl
@[simp] theorem Core.setTid_outs : (c.setTid n v).outs = c.outs := rfl
@[simp] theorem Core.setTid_issue : (c.setTid n v).issue = c.issue := rfl
@[simp] theorem Core.setTid_running : (c.setTid n v).running = c.running := rfl
@[simp] theorem Core.setTid_compo : (c.setTid n v).compo = c.compo := rfl
@[simp] theorem Core.setTid_stopped : (c.setTid n v).stopped = c.stopped := rfl
@[simp] theorem Core.setTid_ahead : (c.setTid n v).ahead = c.ahead := rfl

end

section
/-! ### A branch -/

variable (c : Core) (a : Nat)

@[simp] theorem Core.jump_id : (c.jump a).id = c.id := rfl
@[simp] theorem Core.jump_g : (c.jump a).g = c.g := rfl
@[simp] theorem Core.jump_p : (c.jump a).p = c.p := rfl
@[simp] theorem Core.jump_x : (c.jump a).x = c.x := rfl
@[simp] theorem Core.jump_xpres : (c.jump a).xpres = c.xpres := rfl
@[simp] theorem Core.jump_w : (c.jump a).w = c.w := rfl
@[simp] theorem Core.jump_c : (c.jump a).c = c.c := rfl
@[simp] theorem Core.jump_q : (c.jump a).q = c.q := rfl
@[simp] theorem Core.jump_v : (c.jump a).v = c.v := rfl
@[simp] theorem Core.jump_t : (c.jump a).t = c.t := rfl
@[simp] theorem Core.jump_csr : (c.jump a).csr = c.csr := rfl
@[simp] theorem Core.jump_vmem : (c.jump a).vmem = c.vmem := rfl
@[simp] theorem Core.jump_scr : (c.jump a).scr = c.scr := rfl
@[simp] theorem Core.jump_fe : (c.jump a).fe = c.fe := rfl
@[simp] theorem Core.jump_pend : (c.jump a).pend = c.pend := rfl
@[simp] theorem Core.jump_sb : (c.jump a).sb = c.sb := rfl
@[simp] theorem Core.jump_outs : (c.jump a).outs = c.outs := rfl
@[simp] theorem Core.jump_running : (c.jump a).running = c.running := rfl
@[simp] theorem Core.jump_compo : (c.jump a).compo = c.compo := rfl
@[simp] theorem Core.jump_stopped : (c.jump a).stopped = c.stopped := rfl
@[simp] theorem Core.jump_ahead : (c.jump a).ahead = c.ahead := rfl

end

/-! ## Combinations -/

/-- Two changes of the core in turn are one. -/
theorem State.onMe_onMe (s : State) (f g : Core → Core) : (s.onMe f).onMe g = s.onMe fun c => g (f c) := rfl

/-- A part that every step of a fold leaves alone is left alone by the fold. -/
theorem State.foldl_keep {α β : Type} {p : State → β} (l : List α) (f : State → α → State)
    (h : ∀ s x, p (f s x) = p s) : ∀ s, p (l.foldl f s) = p s := by
  induction l with
  | nil => intro s; rfl
  | cons x l ih => intro s; exact (ih _).trans (h s x)

/-- A part that a change of turn leaves alone and an act leaves alone is left alone by the act
done at a core. -/
theorem State.onCore_keep {β : Type} {p : State → β} (f : State → State) (hf : ∀ s, p (f s) = p s)
    (hs : ∀ (s : State) id, p (s.swap id) = p s) (s : State) (id : CoreId) : p (s.onCore id f) = p s := by
  unfold State.onCore
  split
  · exact hf s
  · split
    · rfl
    · rw [hs, hf, hs]

@[simp] theorem modAt_length {α : Type} (f : α → α) : ∀ (l : List α) (k : Nat), (modAt l k f).length = l.length
  | [], _ => rfl
  | _ :: _, 0 => rfl
  | _ :: l, k + 1 => congrArg Nat.succ (modAt_length f l k)

end Sys2Proof.Machine
end

