-- ==== Sys2Proof/Laws/Step.lean ====
section
/-! SUPPORT. A packet of one word (06_encoding.md R133, R134). -/

namespace Sys2Proof.Machine

open Sys2Proof

set_option Elab.async false

/-- The ranks of words inside a packet. -/
theorem rank_cases (b : Bool) (i : Instr) : rank b i = 0 ∨ rank b i = 1 := by
  cases i <;> first | exact Or.inl rfl | exact Or.inr rfl | (cases b <;> simp [rank])

/-- One word acts alone. -/
theorem actOrder_one (b : Bool) (w : PWord) : actOrder b [w] = [w] := by
  unfold actOrder
  rcases rank_cases b w.i with h | h <;> simp [List.filter, h]

/-- One word that is no hint breaks no packet rule. -/
theorem packetRule_one (w : IWord) (h : slotOf w ≠ .h) : packetRule [w] = none := by
  unfold packetRule
  have : (slotOf w == Slot.h) = false := by simpa using h
  simp [rulesFrom, ruleAt, this]

/-- A word with its end bit set is a packet. -/
theorem State.packetAt_one {s : State} {w : IWord} (hw : s.wordAt s.me.pc = w) (he : eBit w = true) : s.packetAt s.me.pc 5 = [w] := by
  show (let w := s.wordAt s.me.pc; w :: (if eBit w then [] else s.packetAt (s.me.pc + 4) 4)) = _
  simp only [hw, he, ite_true]

/-- What fetching one word keeps (R66). -/
theorem Core.keep_one (c : Core) (a : Nat) (w : IWord) : c.keep a [w] = if (c.fetched.lookup a).isSome then c else { c with fetched := (a, w) :: c.fetched } := rfl

/-- What fetching a word leaves alone. -/
theorem Core.keep_same (c : Core) (a : Nat) (w : IWord) : (c.keep a [w]).blk = c.blk ∧ (c.keep a [w]).ahead = c.ahead ∧ (c.keep a [w]).id = c.id := by
  rw [Core.keep_one]; split <;> exact ⟨rfl, rfl, rfl⟩

/-- A change that changes nothing. -/
theorem State.onMe_id {s : State} {f : Core → Core} (h : f s.me = s.me) : s.onMe f = s := by unfold State.onMe; rw [h]

/-- Moving past a packet leaves run-ahead and its answers alone. -/
theorem Core.advance_same (c : Core) : c.advance.ahead = c.ahead ∧ c.advance.answered = c.answered := by
  unfold Core.advance; dsimp only; split
  · split <;> exact ⟨rfl, rfl⟩
  · exact ⟨rfl, rfl⟩

end Sys2Proof.Machine
end

