-- ==== Sys2Proof/Laws/Vector.lean ====
section
/-! SUPPORT. What a vector word does whose operands are plain views (10_vector.md R234). -/

namespace Sys2Proof.Machine

open Sys2Proof

set_option Elab.async false

/-- A plain view resolves to its rows. -/
theorem State.vop_plain {s : State} {n : BitVec 5} {rows len : Nat} (h : s.plainView n rows len)
    (mj : BitVec 6) (wr pl : Bool) :
    s.vop mj n rows len wr pl = ⟨⟨s.viewAddrs n rows, len, none⟩, none, none⟩ := by
  obtain ⟨h1, h2, h3, h4, h5⟩ := h
  unfold State.vop
  simp only [h1, ite_true]
  have a1 : ¬(1 < rows ∧ viewPitch (s.me.view n.toNat) < len) := fun ⟨a, b⟩ => by have := h4 a; omega
  have a2 : ¬(viewEnd s.me.id.num <
      viewBase (s.me.view n.toNat) + ((rows - 1) * viewPitch (s.me.view n.toNat) + len)) := by omega
  have c1 : (decide (viewPitch (s.me.view n.toNat) % 4 ≠ 0) ||
      (decide (1 < rows) && decide (viewPitch (s.me.view n.toNat) < len)) ||
      ((0 : Nat) == 0 && decide (viewBase (s.me.view n.toNat) % 4 ≠ 0))) = false := by
    simp only [h2, h3, ne_eq, not_true_eq_false, decide_false, Bool.false_or, Bool.and_false, Bool.or_false,
      Bool.and_eq_false_iff, decide_eq_false_iff_not]
    by_cases hr : 1 < rows
    · exact .inr fun b => a1 ⟨hr, b⟩
    · exact .inl hr
  rw [c1, decide_eq_false a2]
  rfl

theorem State.vread_plain (s : State) (n : BitVec 5) (rows len : Nat) :
    s.vread ⟨s.viewAddrs n rows, len, none⟩ = s.viewBytes n rows len := rfl

theorem State.vwrite_plain (s u : State) (n : BitVec 5) (rows len : Nat) (out : List (List Byte)) (L : Nat) (fl : BitVec 5) :
    u.vwrite ⟨s.viewAddrs n rows, len, none⟩ out L fl = u.regRows L 0 fl ((s.viewAddrs n rows).zip out) := rfl

theorem regRows_ahead (L : Nat) (fl : BitVec 5) (l : List (Nat × List Byte)) :
    ∀ (s : State) (i : Nat), (s.regRows L i fl l).me.ahead = s.me.ahead := by
  induction l with
  | nil => intro s i; rfl
  | cons x l ih =>
    intro s i
    obtain ⟨a, bs⟩ := x
    cases l with
    | nil => rfl
    | cons y l => exact ih _ _

theorem portsOf_none : ∀ (l : List VRows), (∀ r ∈ l, r.port = none) → portsOf l = [] := by
  intro l h
  unfold portsOf
  have : ∀ (l : List VRows) (ps : List Port), (∀ r ∈ l, r.port = none) →
      l.foldl (fun ps r => match r.port with
        | some p => if ps.any (fun x => x.q == p.q && x.push == p.push) then ps else ps ++ [p]
        | none => ps) ps = ps := by
    intro l
    induction l with
    | nil => intro ps _; rfl
    | cons r l ih =>
      intro ps h
      rw [List.foldl_cons, h r (by simp)]
      exact ih ps fun x hx => h x (by simp [hx])
  exact this l [] h

/-- Operands that name no port have no slot to wait for. -/
theorem State.slotsHeld_none (s : State) {srcs dsts : List VRows} (h : ∀ r ∈ srcs ++ dsts, r.port = none) : s.slotsHeld srcs dsts = decide (s.me.vbusy ≠ 0) := by
  have e : ∀ l : List VRows, (∀ r ∈ l, r.port = none) → slotBytes l = [] := by
    intro l hl; unfold slotBytes; rw [List.flatMap_eq_nil_iff]; intro r hr; rw [hl r hr]
  unfold State.slotsHeld
  rw [e srcs fun r hr => h r (by simp [hr]), e dsts fun r hr => h r (by simp [hr])]
  simp [Core.readsHeld]

/-- A vector word of plain views has its effect, and then its stochastic draws. -/
theorem vectorWord_drawn {g : List Res} {chk : Option Exc} {srcs dsts : List VRows} {wait : Bool} {hold L n : Nat}
    {outs : List VOut} {s : State} (hs : ∀ r ∈ srcs ++ dsts, r.port = none)
    (h : s.me.ready (g ++ srcs.flatMap (·.res)) (dsts.flatMap (·.res))) (hc : chk = none) (hw : wait = false)
    (hv : s.me.vbusy = 0)
    (ha : (outs.foldl (fun s o => s.vwrite o.rows o.bytes L o.flags) (s.holdPipe hold)).me.ahead = none) :
    vectorWord g chk srcs dsts wait hold L outs n s =
      .next (if n = 0 then outs.foldl (fun s o => s.vwrite o.rows o.bytes L o.flags) (s.holdPipe hold)
        else (outs.foldl (fun s o => s.vwrite o.rows o.bytes L o.flags) (s.holdPipe hold)).later (.srAdv (s.me.csr.srcnt + BitVec.ofNat 32 n)) 1) := by
  unfold vectorWord
  rw [portsOf_none _ hs]
  simp only [State.portsAdvance, List.foldl_nil, List.isEmpty_nil, ite_true]
  refine act_next h hc ?_ ?_
  · subst hw
    simp [hv, State.slotsHeld_none s hs]
  · split
    · exact ha
    · exact ha

/-- A vector word of plain views that draws nothing. -/
theorem vectorWord_plain {g : List Res} {chk : Option Exc} {srcs dsts : List VRows} {wait : Bool} {hold L : Nat}
    {outs : List VOut} {s : State} (hs : ∀ r ∈ srcs ++ dsts, r.port = none)
    (h : s.me.ready (g ++ srcs.flatMap (·.res)) (dsts.flatMap (·.res))) (hc : chk = none) (hw : wait = false)
    (hv : s.me.vbusy = 0)
    (ha : (outs.foldl (fun s o => s.vwrite o.rows o.bytes L o.flags) (s.holdPipe hold)).me.ahead = none) :
    vectorWord g chk srcs dsts wait hold L outs 0 s =
      .next (outs.foldl (fun s o => s.vwrite o.rows o.bytes L o.flags) (s.holdPipe hold)) :=
  vectorWord_drawn hs h hc hw hv ha

/-- A vector word of plain views that fails a check raises it. -/
theorem vectorWord_raise {g : List Res} {e : Exc} {chk : Option Exc} {srcs dsts : List VRows} {wait : Bool}
    {hold L n : Nat} {outs : List VOut} {s : State} (hs : ∀ r ∈ srcs ++ dsts, r.port = none)
    (h : s.me.ready (g ++ srcs.flatMap (·.res)) (dsts.flatMap (·.res))) (hc : chk = some e) :
    vectorWord g chk srcs dsts wait hold L outs n s = .next (s.raise e) := by
  unfold vectorWord
  rw [portsOf_none _ hs]
  exact act_raise h hc

/-- A permitted type whose rows fit passes (R236). -/
theorem typeCheck_ok {mj ok t n} (h : ok = true) (hr : rowFits t n = true) : typeCheck mj ok t n = none := by
  unfold typeCheck; rw [h, hr]; rfl

/-- A type the word does not take raises class 0x16 sub 3 (R379). -/
theorem typeCheck_type {mj ok t n} (h : ok = false) (l) : firstOf [typeCheck mj ok t n, l] = some ⟨0x16, 3, 0, 0, mj⟩ := by
  unfold typeCheck; rw [h]; rfl

/-- A row that does not hold whole elements raises class 0x16 sub 1 (R379). -/
theorem typeCheck_row {mj ok t n} (h : ok = true) (hr : rowFits t n = false) (l) : firstOf [typeCheck mj ok t n, l] = some ⟨0x16, 1, 0, 0, mj⟩ := by
  unfold typeCheck; rw [h, hr]; rfl

/-- Rows of register space become pending writes, one cc apart, the flags with the last (R94, R156). -/
theorem State.regRows_eq (L : Nat) (fl : BitVec 5) : ∀ (l : List (Nat × List Byte)) (s : State) (k : Nat),
    ∃ q, s.regRows L k fl l = { s with me := { s.me with pend := s.me.pend ++ q } } ∧ q.length = l.length ∧
     ∀ (j a : Nat) (bs : List Byte), l[j]? = some (a, bs) → q[j]? = some ⟨.row a bs (if j + 1 = l.length then fl else 0), L + k + j⟩ := by
  intro l
  induction l with
  | nil => intro s k; exact ⟨[], by rw [List.append_nil]; rfl, rfl, by simp⟩
  | cons x l ih =>
    intro s k
    obtain ⟨a, bs⟩ := x
    cases l with
    | nil =>
      refine ⟨[⟨.row a bs fl, L + k⟩], rfl, rfl, ?_⟩
      intro j a' bs' hj
      rcases j with _ | j
      · simp at hj; obtain ⟨rfl, rfl⟩ := hj; rfl
      · simp at hj
    | cons y l =>
      obtain ⟨q, h1, h2, h3⟩ := ih (s.later (.row a bs 0) (L + k)) (k + 1)
      refine ⟨⟨.row a bs 0, L + k⟩ :: q, ?_, by rw [List.length_cons, h2]; rfl, ?_⟩
      · show State.regRows _ L (k + 1) fl (y :: l) = _
        rw [h1]
        show ({ s with me := { s.me with pend := (s.me.pend ++ [_]) ++ q } } : State) = _
        rw [List.append_assoc]; rfl
      · intro j a' bs' hj
        rcases j with _ | j
        · simp at hj; obtain ⟨rfl, rfl⟩ := hj; rfl
        · have := h3 j a' bs' hj
          rw [List.getElem?_cons_succ, this]
          simp only [List.length_cons]
          have e1 : (j + 1 = l.length + 1) ↔ (j + 1 + 1 = l.length + 1 + 1) := by omega
          simp only [e1]
          rw [show L + (k + 1) + j = L + k + (j + 1) by omega]

/-- Writes of scratch one after another, in a core that is not composed. -/
theorem State.foldl_scrPut (d : Nat) : ∀ (l : List (Nat × List Byte)) (s : State), s.me.composed = false →
    l.foldl (fun s (x : Nat × List Byte) => if s.me.composed then s.scrPut x.1 x.2 else s.later (.scr x.1 x.2) d) s =
     s.onMe fun c => { c with pend := c.pend ++ l.map fun (o, bs) => ⟨.scr o bs, d⟩ } := by
  intro l
  induction l with
  | nil => intro s _; simp [State.onMe]
  | cons x l ih =>
    intro s h
    rw [List.foldl_cons]
    have h' : s.me.composed = false := h
    rw [h', if_neg (by decide), ih _ (by exact h)]
    simp only [State.onMe, State.later, Core.later, List.map_cons, List.append_assoc, List.cons_append, List.nil_append]

/-- Rows of scratch become pending writes, one cc apart (R250). -/
theorem State.scrRows_eq (L : Nat) : ∀ (l : List (Nat × List Byte)) (k : Nat) (s : State),
    s.scrRows L k l = s.onMe fun c => { c with pend := c.pend ++ (l.zip ((List.range l.length).map (· + k))).map fun (x, i) => ⟨.scr x.1 x.2, L + i⟩ } := by
  intro l
  induction l with
  | nil => intro k s; simp [State.onMe, State.scrRows]
  | cons x l ih =>
    intro k s
    have e : (List.range (x :: l).length).map (· + k) = k :: (List.range l.length).map (· + (k + 1)) := by
      rw [List.length_cons, List.range_succ_eq_map, List.map_cons, List.map_map, Nat.zero_add]
      congr 1; apply List.map_congr_left; intro a _; show a + 1 + k = a + (k + 1); omega
    obtain ⟨a, bs⟩ := x
    rw [e, List.zip_cons_cons]
    unfold State.scrRows
    rw [ih]
    simp only [State.onMe, State.later, Core.later, List.map_cons, List.append_assoc, List.cons_append, List.nil_append]

/-- A port operand resolves to the rows of its slot (R70, R236). -/
theorem State.vop_port {s : State} {n : BitVec 5} {rows len : Nat} {mj : BitVec 6} {wr push : Bool} (q : BitVec 3)
    (hp : viewPort (s.me.view n.toNat) = (if push then 2 else 1)) (hr : viewRing (s.me.view n.toNat) = q) (hpi : viewPitch (s.me.view n.toNat) % 4 = 0)
    (hpi2 : 1 < rows → len ≤ viewPitch (s.me.view n.toNat))
    (hsp : (rows - 1) * viewPitch (s.me.view n.toNat) + len ≤ 2 ^ ringLsize (s.me.ringNow q)) (hrole : ringRole (s.me.ringNow q) = 0) (hw : wr = push) :
    s.vop mj n rows len wr = ⟨⟨(List.range rows).map fun i => ringBase (s.me.ringNow q) + 2 ^ ringLsize (s.me.ringNow q) * (if push then ringTail (s.me.ringNow q) else ringHead (s.me.ringNow q)).toNat + i * viewPitch (s.me.view n.toNat), len, some ⟨q, push, 0, ringPeer (s.me.ringNow q), ringPq (s.me.ringNow q)⟩⟩, none, none⟩ := by
  subst hw
  have c1 : (decide (1 < rows) && decide (viewPitch (s.me.view n.toNat) < len)) = false := by
    by_cases h : 1 < rows
    · rw [decide_eq_false (p := _ < len) (by have := hpi2 h; omega), Bool.and_false]
    · rw [decide_eq_false h]; rfl
  have c2 : decide (2 ^ ringLsize (s.me.ringNow q) < (rows - 1) * viewPitch (s.me.view n.toNat) + len) = false := decide_eq_false (by omega)
  unfold State.vop
  cases wr <;> simp only [hp, hr, hrole, hpi, c1, c2] <;> rfl

/-- A vector word with one port. -/
theorem vectorWord_port {g chk srcs dsts wait hold L outs p} {s : State} (hp : portsOf (srcs ++ dsts) = [p]) (ha : s.me.ahead = none) :
    vectorWord g chk srcs dsts wait hold L outs 0 s = portWord (g ++ srcs.flatMap (·.res)) (dsts.flatMap (·.res)) chk
      (s.portWaits [p] ((dsts.map (·.addrs.length)).foldl max 0) || (!(slotBytes dsts).isEmpty && s.lateStore))
      (wait || s.slotsHeld srcs dsts)
      (outs.foldl (fun s o => s.vwrite o.rows o.bytes L o.flags) ((s.portsAdvance [p]).holdPipe hold)) s := by
  unfold vectorWord
  rw [hp]
  simp only [ha, Option.isSome_none, Bool.false_eq_true, ite_false, List.isEmpty_cons, ite_true]

/-- A word with ports whose slots stand ready has its effect. -/
theorem portWord_next {src dst chk short wait} {eff s : State} (h : s.me.ready src dst) (hc : chk = none) (hs : short = false) (hw : wait = false)
    (he : eff.me.ahead = none) : portWord src dst chk short wait eff s = .next eff :=
  actNow_next h hc (by rw [hs, hw, h.2.2.2, Bool.or_self, Bool.and_false, Bool.or_self]) he

/-- A word with ports waits for an entry or a slot (R70, R205). -/
theorem portWord_wait {src dst chk short wait} {eff s : State} (h : s.me.ready src dst) (hc : chk = none) (hs : short = true) :
    portWord src dst chk short wait eff s = .next (s.stall .waiting) :=
  actNow_wait h hc (by rw [hs, Bool.true_or])

end Sys2Proof.Machine
end

