-- ==== Sys2Proof/Tests/Slice0.lean ====
section
/-! SUPPORT. The model's own tests: ill-formed terms, words written out from the encodings of
spec/, single steps whose results the spec gives, and for each statement of
Sys2Proof/Certificates/Slice0/Obligations.lean that has hypotheses a state and operands that meet
them, clause by clause, at the ends of their ranges. -/

namespace Sys2Proof.Tests

open Sys2Proof Sys2Proof.Machine

set_option Elab.async false

/-! ## Small states -/

/-- Core 0 of owner 0 in turn, running a task, after `f`. -/
def one (f : Core → Core) : State :=
  { State.reset with me := f { Core.fresh ⟨0, 0, 0⟩ with running := some 0 } }

/-- The general registers of a list, set. -/
def Core.gs (c : Core) (l : List (BitVec 6 × BitVec 64)) : Core := l.foldl (fun c x => c.setG x.1 x.2) c

/-- The region of the device as one, on the data circuit, for owner 0. -/
def region0 : Region := { wholeRegion with id := ⟨0, 0⟩ }

/-- The same with the region, of 50 positions, resident, and core 1 beside it. -/
def two (f : Core → Core) : State :=
  { one f with regions := [region0], others := [Core.fresh ⟨0, 0, 1⟩] }

/-! ## The hypotheses of each statement can be met -/

/-- Core 0 at level 1. -/
def handler (f : Core → Core) : State := one fun c => f { c with csr := { c.csr with level := 1 } }

/-- The packet in hand of core 0. -/
def held (i : Issue) (f : Core → Core) : State := one fun c => f { c with issue := i }

theorem met_RegisterWordResults :
    (one id).me.ready [.g 1, .g 2] [.g 3] ∧ (one id).me.ready [.g 63, .g 0] [.g 0] := by
  simp only [Core.ready]; decide +kernel

theorem met_BitFieldWords :
    (one id).me.ready [.g 63] [.g 0] ∧ (one id).me.ready [.g 1, .g 2, .g 63] [.g 63] ∧
    (one id).me.ready [.g 1, .g 2, .p 7] [.g 63] ∧ (one id).me.ready [] [] := by
  simp only [Core.ready]; decide +kernel

theorem met_ImmediateWordResults :
    ((one id).me.ready [.g 1] [.g 63] ∧ (one id).me.issue.hw = []) ∧
    let s := held { Issue.idle with hw := [0xFFFFFF] } id
    s.me.ready [.g 63] [.g 0] ∧ s.me.issue.hw = [0xFFFFFF] := by
  simp only [Core.ready]; decide +kernel

theorem met_DivisionResults :
    (one id).me.ready [.g 1, .g 0] [.g 63] ∧
    let o : Outst := ⟨.division, 63, 7, none, false, true, 5, 34⟩
    let s := { one (fun c => { c with outs := [o] }) with ev := .division ⟨0, 0, 0⟩ 63 }
    let t := { one (fun c => { c with outs := [o], ckpt := some { Core.fresh ⟨0, 0, 0⟩ with seq := 8 } }) with
      ev := .division ⟨0, 0, 0⟩ 63 }
    (s.ev = .division s.me.id 63 ∧ o.kind = .division ∧ o.rd = 63 ∧ s.me.outs = [] ++ [o] ∧ s.me.ckpt = none) ∧
    t.ev = .division t.me.id 63 ∧ t.me.outs = [] ++ [o] ∧ t.me.ckpt.map (fun k => decide (o.seq < k.seq)) = some true := by
  simp only [Core.ready]; decide +kernel

theorem met_PredicateWordResults :
    (one id).me.ready [.g 1, .g 2] [.p 7] ∧ (one id).me.ready [.g 63] [.p 0] ∧
    (one id).me.ready [.p 0, .p 7] [.p 1] ∧ (one id).me.ready [.p 7] [.p 0] := by
  simp only [Core.ready]; decide +kernel

theorem met_LandedWrites :
    (let c : Core := { Core.fresh ⟨0, 0, 0⟩ with pend := [⟨.g 5 9, 1⟩] }
     c.outs = [] ∧ c.rearmed = false ∧ c.pend = [⟨.g 5 9, 1⟩]) ∧
    let c : Core := { Core.fresh ⟨0, 0, 0⟩ with pend := [⟨.g 5 9, 2⟩] }
    (c.outs = [] ∧ c.rearmed = false ∧ ∀ q ∈ c.pend, 1 < q.d) ∧
    { c with rearmed := true }.rearmed = true ∧ ∀ q ∈ c.pend, q.w.captured = true := by decide +kernel

/-- Displacements to the first and past the last word, and the words before and after. -/
theorem met_Branches :
    let s := held { Issue.idle with fst := 8, nxt := 12 } fun c => Core.gs c [(1, 0x7FFFC), (2, 0x80000), (3, 2)]
    let t := fun (d : BitVec 19) => (s.me.issue.fst : Int) + 4 * (s.widen d).toInt
    let ok := fun (d : BitVec 19) => 0 ≤ t d ∧ t d < s.me.fetchEnd
    (s.me.ready [] [] ∧ s.me.ready [.p 7] [] ∧ s.me.ready [] [.g 1] ∧ s.me.ready [.g 1] []) ∧
    (ok (-2) ∧ t (-2) = 0 ∧ ok 0x1FFFD ∧ t 0x1FFFD = s.me.fetchEnd - 4) ∧
    (¬ok (-3) ∧ ¬ok 0x1FFFE ∧ t 0x1FFFE = s.me.fetchEnd) ∧
    ((s.me.gr 1).toNat % 4 = 0 ∧ (s.me.gr 1).toNat < s.me.fetchEnd) ∧
    (s.me.fetchEnd ≤ (s.me.gr 2).toNat ∧ (s.me.gr 3).toNat % 4 ≠ 0) := by
  simp only [Core.ready]; decide +kernel

/-- A body that ends at the first place it may, at the end of the fetch range, and outside. -/
theorem met_Loops :
    let s := held { Issue.idle with fst := 0x7FFE8, nxt := 0x7FFEC } id
    let e := fun (i : BitVec 12) => (s.me.issue.fst : Int) + 4 * s.widenLoop i
    s.me.ready [.g 63] [] ∧ (s.me.issue.nxt < e 2 ∧ e 2 ≤ s.me.fetchEnd) ∧ (s.me.issue.nxt < e 6 ∧ e 6 = s.me.fetchEnd) ∧
    e 1 ≤ s.me.issue.nxt ∧ s.me.fetchEnd < e 7 ∧
    (let c := fun (n m : Nat) => ({ s.me with issue := { Issue.idle with nxt := n }
                                              csr := { s.me.csr with lpend := 16, lpcnt := BitVec.ofNat 32 m } } : Core)
     ((c 16 0).csr.lpcnt = 0 ∧ (c 12 2).issue.nxt % 2 ^ 19 ≠ (c 12 2).csr.lpend.toNat) ∧
     ((c 16 2).issue.nxt % 2 ^ 19 = (c 16 2).csr.lpend.toNat ∧ 1 < (c 16 2).csr.lpcnt.toNat) ∧
     (c 16 1).issue.nxt % 2 ^ 19 = (c 16 1).csr.lpend.toNat ∧ (c 16 1).csr.lpcnt = 1) := by
  simp only [Core.ready]; decide +kernel

theorem met_CsrWords :
    let own := fun (k : Csr) => k ∈ [Csr.tlpcnt, .epc, .ecause, .einfo, .escr0, .escr1]
    let read := fun (s : State) (k : Csr) => s.me.csr.level = 0 → ¬own k
    let write := fun (s : State) (k : Csr) => s.me.csr.level = 0 → ¬own k ∧ k ≠ .estat
    ((one id).me.ready [] [.g 63] ∧ read (one id) .frm ∧ read (one id) .estat) ∧
    ((one id).me.ready [.fflags] [.g 63] ∧ (one id).me.ready [.g 63] [.fflags] ∧ read (one id) .fflags) ∧
    ((one id).me.ready [.g 63] [] ∧ write (one id) .ocmp ∧ write (handler id) .estat ∧ (handler id).me.ready [.g 1] []) ∧
    (¬read (one id) .epc ∧ ¬read (one id) .escr1 ∧ ¬write (one id) .estat ∧ ¬write (one id) .tlpcnt) ∧
    Csr.cyc ∈ [Csr.cyc, .ocyc, .turnno, .devtime, .lcid, .rgsize] := by
  simp only [Core.ready]; refine ⟨?_, ?_, ?_, ?_, ?_⟩ <;> decide +kernel

theorem met_ExceptionEntry :
    ((one id).me.pend = [] ∧ (one id).me.outs = [] ∧ (one id).me.csr.level = 0) ∧
    ((handler id).me.pend = [] ∧ (handler id).me.outs = [] ∧ (handler id).me.csr.level ≠ 0) ∧
    (let c := (one fun c => { c with pend := [⟨.g 5 9, 1⟩, ⟨.g 6 9, 4⟩], vbusy := 3 }).me
     c.interlocked = false ∧ (∀ o ∈ c.outs, o.timed = false) ∧ c.csr.level = 0 ∧
      (c.pend.filter fun p => p.w.captured && decide (1 < p.d)) = [⟨.g 6 9, 4⟩]) ∧
    (let w : Write := .g 63 5
     ([⟨w, 31⟩, ⟨.p 7 true, 1⟩] : List Pend).length ≤ 48 ∧ 31 < 32 ∧
      ∀ p ∈ ([⟨w, 31⟩, ⟨.p 7 true, 1⟩] : List Pend), p.w.captured = true ∧ 1 ≤ p.d ∧ p.d < 32) := by decide +kernel

/-- A queue image with no entry, with a valid one, and with one that fails its checks. -/
theorem met_TrapWords :
    ((one id).me.ready [] [] ∧ (one id).me.owesRemote = false ∧ (one id).me.csr.level = 0 ∧ (one id).me.pend = [] ∧
      (one id).me.outs = []) ∧
    (let c := (one fun c => { c with pend := [⟨.g 5 9, 2⟩] }).me
     c.ready [] [] ∧ c.owesRemote = false ∧ c.csr.level = 0) ∧
    ((handler id).me.ready [] [] ∧ (handler id).me.owesRemote = false ∧ (handler id).me.csr.level ≠ 0 ∧
      (handler id).me.firm = false) ∧
    (let s := handler fun c => { c with firm := true }
     s.me.csr.level = 1 ∧ s.me.firm = true ∧ s.me.pend = [] ∧ s.me.ready [] [] ∧ s.me.owesRemote = false) ∧
    ((one id).me.unfinished = false ∧ (handler id).me.unfinished = false) ∧
    imageWrites 0 (handler id).me.qimg (List.range 48) = some [] ∧
    let s := handler fun c => { c with qimg := Memory.put c.qimg 0x107 0xFF }
    s.me.ready [] [] ∧ s.me.unfinished = false ∧ imageWrites s.me.id.num s.me.qimg (List.range 48) = none := by
  simp only [Core.ready]; decide +kernel

theorem met_HardwareEntries :
    let s := one fun c => { c with csr := { c.csr with ocmp := 0x8000000000000000 } }
    let t := one fun c => { c with deferred := [.overrun 31 0, .dequeFull 1] }
    (s.me.ahead = none ∧ s.me.csr.level = 0 ∧ s.me.owesRemote = false ∧ s.me.running ≠ none ∧ s.me.pend = []) ∧
    (s.me.csr.ocmp.getLsbD 63 = true ∧ (s.me.csr.ocmp.setWidth 63).toNat ≤ (s.csr .ocyc).toNat) ∧
    ({ s with ev := .illegal 0x3F 2 0 }.ev = .illegal 0x3F 2 0 ∧ { s with ev := .rule 1 3 }.ev = .rule 1 3) ∧
    (t.me.deferred = Deferred.overrun 31 0 :: [.dequeFull 1] ∧
      (∀ x ∈ [Deferred.dequeFull 1], (Deferred.overrun 31 0).rank ≤ x.rank) ∧
      t.me.running ≠ none ∧ t.me.pend = [] ∧ t.me.ahead = none ∧ t.me.owesRemote = false) := by decide +kernel

theorem met_HintWords : (one id).me.issue.hw = [] ∧ ((one id).me.composed = false) ∧
    let c := (one fun c => { c with compo := .leader 2 (0, 0, 0) 5 0 }).me
    c.composed = true ∧ c.blkLeft = 0 ∧ { c with blkLeft := 1 }.blkLeft ≠ 0 := by decide +kernel

/-- The address of an offset `rest` in a space (R55). -/
def adr (space rest : Nat) : BitVec 64 := BitVec.ofNat 64 (space * 2 ^ 45 + rest)

/-- A ring handle (R69). -/
def ringOf (base lsize lcount head tail fill free pq role peer : Nat) : BitVec 256 :=
  BitVec.ofNat 256 (base + lsize * 2 ^ 57 + lcount * 2 ^ 62 + head * 2 ^ 66 + tail * 2 ^ 76 + fill * 2 ^ 86 +
    free * 2 ^ 97 + pq * 2 ^ 108 + role * 2 ^ 114 + peer * 2 ^ 116)

/-- Message m has arrived from the network. -/
def arrived (s : State) (m : Msg) : State := { s with net := [m], ev := .msg 0 }

def stores1 : State :=
  one fun c => Core.setCell { c with sb := [⟨.send (.core 1) (.store 0 [1]), false, 0, false, 0⟩] } 1 5
/-- An acquiring load of core 1 is outstanding. -/
def acquires (f : Core → Core) : State :=
  two fun c => f { c with outs := [⟨.load, 5, 0, some (.core 1), true, false, 0, 0⟩] }
def present31 : State := one fun c => Core.setXp { c with latch := true } 31 true
theorem met_SyncWords :
    let open_ := fun (stores1 : State) (o : BitVec 4) (sc : Scope) =>
      (o.extractLsb' 2 2 ≠ 0 ∧ stores1.me.loadsOpen sc = true) ∨ (o.extractLsb' 0 2 ≠ 0 ∧ stores1.me.storesOpen sc = true)
    (stores1.me.ready [] [] ∧ stores1.me.ready [.g 1] [] ∧ stores1.me.ready [.g 1] [] ∧ stores1.me.ready [] [.p 7]) ∧
    (¬open_ (one id) 0xF .system ∧ ¬open_ (one id) 0xF .core ∧ open_ stores1 1 .system) ∧
    (stores1.me.cell 31 = 0 ∧ stores1.me.cell 1 ≠ 0) ∧
    ((stores1.me.cell 1).toInt ≤ (stores1.me.gr 0 + stores1.widen (5 : BitVec 12)).toInt ∧ ¬(stores1.me.cell 1).toInt ≤ (stores1.me.gr 0 + stores1.widen (4 : BitVec 12)).toInt) ∧
    (present31.me.ready [] [.g 63] ∧ present31.me.xp 31 = true ∧ present31.me.xp 0 = false) ∧
    (present31.me.ready [] [] ∧ present31.me.latch = true ∧ stores1.me.latch = false) ∧
    (stores1.me.readHeld = false ∧ stores1.me.issue.commit = false ∧ present31.me.writeHeld = false ∧ present31.me.readHeld = false) ∧
    (stores1.me.writeHeld = true ∧ stores1.me.ready [.g 1] [] ∧ stores1.me.ready [] [.g 63]) ∧
    ((acquires id).me.writeHeld = true ∧ (acquires id).me.readHeld = true ∧ (acquires id).me.issue.commit = false ∧
      (acquires id).me.ready [.g 1] [.g 63] ∧ (acquires id).me.ready [] [.p 7]) := by
  simp only [Core.ready]; refine ⟨?_, ?_, ?_, ?_, ?_, ?_, ?_, ?_, ?_⟩ <;> decide +kernel

/-- Each clause at the ends of its range: the last aligned bytes of each store, the first past them. -/
theorem met_OnChipAddresses :
    let s := two id
    (s.me.composed = false ∧ 0 < 8 ∧ 4095 < 4096 ∧ 255 < 256) ∧
    (0x7FFF8 < 2 ^ 19 ∧ 0x7FFF8 % 8 = 0 ∧ 0x7FFF8 + 8 ≤ s.me.scrSize ∧ s.me.scrSize < 0x7FFF8 + 16) ∧
    (0x1FFF8 < 2 ^ 17 ∧ 0x1FFF8 + 8 ≤ regSize s.me.id.num ∧ viewEnd s.me.id.num < 0x1FFF8 + 8 ∧ s.me.csr.level = 0 ∧
      0x1FFF8 < regSize s.me.id.num ∧ 0x19FF8 + 8 ≤ viewEnd s.me.id.num) ∧
    (s.names s.me.id 1535 = true ∧ s.names s.me.id 1536 = false ∧ s.names s.me.id 0x85F = true ∧
      scrSizeOf 0x85F < 0x40000 + 8) ∧
    (191 < 4 * s.posOf s.me.id ∧ 4 * s.posOf s.me.id ≤ 192 ∧ 0x1FFFFF8 + 8 ≤ 2 ^ 25) ∧
    (3 ∈ [3, 5, 6, 7] ∧ 2 ^ 19 ≤ 2 ^ 19 ∧ 2 ^ 45 - 1 < 2 ^ 45) := by decide +kernel

def loads5 : State :=
  two fun c => Core.gs c [(1, adr 0 0x7FFF8), (2, adr 1 0x19FF8), (3, adr 2 (1535 * 2 ^ 33 + 0x7FFF8)),
    (4, adr 4 (191 * 2 ^ 37 + 0x1FFFFF8)), (5, adr 3 0)]
theorem met_LoadWords :
    let at_ := fun (r : BitVec 6) => loads5.locate 0x10 r anySpace (loads5.me.gr r + loads5.widen (0 : BitVec 10) * 8) 8 8
    (at_ 1 = .ok (.scratch 0x7FFF8) ∧ loads5.me.ready [.g 1, .scr 0x7FFF8 8] [.g 63] ∧
      loads5.me.loadWaits (.scratch 0x7FFF8) 8 = false ∧ loads5.me.scoreHolds 0x7FFF8 8 false = false) ∧
    (at_ 2 = .ok (.regs 0x19FF8) ∧ loads5.me.ready (.g 2 :: (Loc.regs 0x19FF8).res 8 loads5.me.id.num) [.g 63] ∧
      loads5.me.loadWaits (.regs 0x19FF8) 8 = false) ∧
    (at_ 3 = .ok (.remote 1535 0x7FFF8) ∧ loads5.me.ready [.g 3] [.g 63] ∧
      loads5.me.loadWaits (.remote 1535 0x7FFF8) 8 = false ∧ loads5.me.behindRead (.core 1535) = false ∧ loads5.me.remoteOuts < 16) ∧
    (at_ 4 = .ok (.bank 191 0x1FFFFF8) ∧ loads5.me.ready [.g 4] [.g 63] ∧
      loads5.me.loadWaits (.bank 191 0x1FFFFF8) 8 = false ∧
      loads5.me.behindRead (.bank 191) = false) ∧
    (at_ 5 = .error (addrExc 0x10 1 5 (adr 3 0)) ∧ loads5.me.ready [.g 5] [.g 63]) := by
  simp only [Core.ready]; refine ⟨?_, ?_, ?_, ?_, ?_⟩ <;> decide +kernel

def stores5 : State :=
  two fun c => Core.gs c [(1, adr 0 0), (2, adr 1 0x19FF8), (3, adr 2 (1535 * 2 ^ 33 + 0x7FFF8)),
    (4, adr 4 (191 * 2 ^ 37 + 0x1FFFFF8)), (5, adr 7 0)]
theorem met_StoreWords :
    let at_ := fun (r : BitVec 6) => stores5.locate 0x12 r anySpace (stores5.me.gr r + stores5.widen (0 : BitVec 10) * 8) 8 8
    (at_ 1 = .ok (.scratch 0) ∧ stores5.me.ready [.g 1, .g 63] [] ∧ stores5.me.sb.length < 32 ∧
      stores5.me.scoreHolds 0 8 true = false) ∧
    (at_ 2 = .ok (.regs 0x19FF8) ∧ stores5.me.ready [.g 2, .g 63] ((Loc.regs 0x19FF8).res 8 stores5.me.id.num) ∧
      stores5.me.writeHeld = false) ∧
    (at_ 3 = .ok (.remote 1535 0x7FFF8) ∧ at_ 4 = .ok (.bank 191 0x1FFFFF8) ∧ stores5.me.ready [.g 3, .g 63] []) ∧
    (at_ 5 = .error (addrExc 0x12 1 5 (adr 7 0)) ∧ stores5.me.ready [.g 5, .g 63] []) := by
  simp only [Core.ready]; refine ⟨?_, ?_, ?_, ?_⟩ <;> decide +kernel

def lines : State :=
  two fun c => Core.gs c [(1, adr 0 0), (2, adr 2 (1535 * 2 ^ 33)), (3, 128 * 4095), (4, 1), (5, 2 ^ 63 + 4096)]
def full0 : State := two fun c => Core.gs { c with fe := [0] } [(1, adr 0 0)]
def ldfe1 : Msg := ⟨⟨0, 0, 0⟩, .core 1, .ldfe 0 63, 0, 0⟩
def ldfeArrived : State := arrived lines ldfe1
def parked : Core := { Core.fresh ⟨0, 0, 1⟩ with waitList := [ldfe1], fe := [0] }
def ldfeParked : State := { lines with others := [parked], ev := .core ⟨0, 0, 1⟩ }
theorem met_FullEmptyWords :
    let at_ := fun (mj : BitVec 6) (r : BitVec 6) => lines.locate mj r feSpace (lines.me.gr r + lines.widen (0 : BitVec 10) * 8) 8 8
    (at_ 0x14 1 = .ok (.scratch 0) ∧ lines.me.ready [.g 1] [.g 63] ∧ lines.me.loadWaits (.scratch 0) 8 = false ∧
      lines.me.scoreHolds 0 8 false = false ∧ lines.feIs 0 = false ∧ full0.feIs 0 = true ∧
      lines.me.issue.commit = false ∧ lines.me.writeHeld = false) ∧
    (at_ 0x14 2 = .ok (.remote 1535 0) ∧ lines.me.ready [.g 2] [.g 63] ∧ lines.me.sb.length < 32 ∧
      lines.me.loadWaits (.remote 1535 0) 8 = false ∧ lines.me.remoteOuts < 16) ∧
    (at_ 0x15 1 = .ok (.scratch 0) ∧ at_ 0x15 2 = .ok (.remote 1535 0) ∧ lines.me.ready [.g 1, .g 2] [] ∧
      (Loc.remote 1535 0).isRemote = true ∧ lines.me.scoreHolds (Loc.scratch 0).off 8 true = false) ∧
    (lines.me.composed = false ∧ lines.me.ready [.g 3, .g 4] [] ∧ lines.me.gr 3 = BitVec.ofNat 64 (128 * 4095) ∧
      128 * (4095 + 1) ≤ lines.me.scrSize ∧ lines.me.gr 4 = BitVec.ofNat 64 (1 + if false then 2 ^ 63 else 0)) ∧
    (lines.me.gr 0 = BitVec.ofNat 64 (128 * 0) ∧ 128 * (0 + 4096) ≤ lines.me.scrSize ∧
      lines.me.gr 5 = BitVec.ofNat 64 (4096 + if true then 2 ^ 63 else 0)) ∧
    (ldfeArrived.arrives 0 ldfe1 ∧ ldfe1.dst = .core 1 ∧ ldfeArrived.core? ⟨0, 0, 1⟩ = some (Core.fresh ⟨0, 0, 1⟩)) ∧
    ldfeParked.core? ⟨0, 0, 1⟩ = some parked ∧ ldfeParked.ev = .core ⟨0, 0, 1⟩ ∧ parked.parkedFe = [(ldfe1, true)] := by
  simp only [Core.ready, Core.ready, State.arrives]
  refine ⟨?_, ?_, ?_, ?_, ?_, ?_, ?_⟩ <;> decide +kernel

def atomics : State := two fun c => Core.gs c [(1, adr 0 0x7FFF8), (2, adr 4 (191 * 2 ^ 37)), (3, adr 1 0)]
theorem met_AtomicWords :
    let at_ := fun (r : BitVec 6) (n : Nat) => atomics.locate 0x39 r atomSpace (atomics.me.gr r) n n
    (atomics.me.ready [.g 1, .g 2, .g 63] [.g 63] ∧ atomics.me.sb.length < 32 ∧ atomics.me.remoteOuts < 16) ∧
    (at_ 1 8 = .ok (.scratch 0x7FFF8) ∧ atomics.me.loadWaits (.scratch 0x7FFF8) 8 = false) ∧
    (at_ 2 4 = .ok (.bank 191 0) ∧ atomics.me.loadWaits (.bank 191 0) 4 = false) ∧
    at_ 3 8 = .error (addrExc 0x39 1 3 (adr 1 0)) := by
  simp only [Core.ready]; refine ⟨?_, ?_, ?_, ?_⟩ <;> decide +kernel

def filled : Core → Core :=
  fun (c : Core) => { c with
    hiDeque := List.replicate 64 0, loDeque := List.replicate 64 0
    hiSpill := List.replicate 4096 0, loSpill := List.replicate 4096 0 }
def messages : State :=
  two fun c => Core.gs c [(1, 1535), (2, 0xFFF), (3, 4096), (5, 0x10000),
    (7, 1535 * 2 ^ 32), (8, 0xFFF * 2 ^ 32)]
theorem met_MessageWords :
    let low := fun (r : BitVec 6) => ((messages.me.gr r).extractLsb' 0 12).toNat
    let home := fun (r : BitVec 6) => ((messages.me.gr r).extractLsb' 32 12).toNat
    (messages.me.sb.length < 31 ∧ messages.me.ready [.g 1, .g 63] []) ∧
    ((messages.me.gr 1).toNat < 4096 ∧ messages.names messages.me.id (low 1) = true) ∧
    ((messages.me.gr 2).toNat < 4096 ∧ messages.names messages.me.id (low 2) = false ∧ 4096 ≤ (messages.me.gr 3).toNat) ∧
    (refCheck 0x3B 1 (messages.me.gr 1) = none ∧ refCheck 0x3B 2 (messages.me.gr 2) = none) ∧
    (messages.me.ready (.g 7 :: argRes (messages.me.gr 7) 63) [] ∧ headerCheck 0x3A 7 63 false (messages.me.gr 7) = none ∧
      messages.names messages.me.id (home 7) = true) ∧
    (headerCheck 0x3A 8 63 false (messages.me.gr 8) = none ∧ messages.names messages.me.id (home 8) = false) ∧
    (messages.me.ready (.g 0 :: argRes (messages.me.gr 0) 63) [] ∧ headerCheck 0x3B 0 63 true (messages.me.gr 0) = none ∧
      messages.me.hasPlace ((messages.me.gr 0).getLsbD 10) true = true) ∧
    (messages.me.ready [.g 0, .g 5, .g 0] [] ∧ messages.me.composed = false ∧ (messages.me.gr 0).toNat + 64 ≤ openEnd messages.me.id.num ∧
      (messages.me.gr 5).extractLsb' 48 16 = 0 ∧ (messages.me.gr 5).extractLsb' 14 2 = 0 ∧ (messages.me.gr 5).getLsbD 11 = false ∧
      (messages.me.gr 5).extractLsb' 16 16 ≠ 0 ∧ (messages.me.gr 0).extractLsb' 16 16 = 0 ∧ messages.me.scoreHolds 0 16 true = false ∧
      messages.me.hasPlace ((messages.me.gr 0).getLsbD 10) false = true) ∧
    (filled messages.me).hasPlace false false = false := by
  simp only [Core.ready]; refine ⟨?_, ?_, ?_, ?_, ?_, ?_, ?_, ?_, ?_⟩ <;> decide +kernel

def image : BitVec 256 := ringOf 0x80 7 10 0 1023 1024 0 7 0 0
def rings : State :=
  two fun c => Core.gs { c with
      scr := c.scr.putBytes 32 (natBytes 32 image.toNat)
      q := #v[ringOf 0 7 1 1 1 1 1 0 0 0, ringOf 0 16 10 0 0 0 0 7 1 1535, ringOf 0x7FF80 7 10 0 0 0 1024 7 2 0,
        0, 0, 0, 0, 0] } [(1, 32), (2, 1024), (3, 1)]
theorem met_RingWords :
    let h := rings.me.ringNow
    let c := fun (r : BitVec 6) => ((rings.me.gr r).extractLsb' 0 11).toNat
    (rings.me.ready [.g 1] [] ∧ rings.me.composed = false ∧ (rings.me.gr 1).toNat % 32 = 0 ∧ (rings.me.gr 1).toNat + 32 ≤ rings.me.scrSize) ∧
    (BitVec.ofNat 256 (rings.ownNat 32 32) = image ∧ ringReservedZero image = true ∧ rings.ringImageOk image = true) ∧
    (ringRole (h 0) = 0 ∧ c 3 ≤ 2 ^ ringLcount (h 0) ∧ 0 < c 3 ∧ c 3 ≤ (ringFill (h 0)).toNat ∧ c 3 ≤ (ringFree (h 0)).toNat) ∧
    (ringRole (h 1) = 1 ∧ c 2 ≤ 2 ^ ringLcount (h 1) ∧ ¬c 2 ≤ (ringFill (h 1)).toNat ∧
      rings.names rings.me.id (ringPeer (h 1)) = true ∧ rings.me.sb.length < 32) ∧
    (ringRole (h 2) = 2 ∧ c 2 ≤ (ringFree (h 2)).toNat ∧ rings.names rings.me.id (ringPeer (h 2)) = true) ∧
    (rings.me.ready [.g 0] [] ∧ c 0 = 0 ∧ rings.me.acquiring = false ∧ rings.me.writeHeld = false ∧
      rings.me.readsHeld [(32, 32)] = false) ∧
    (let s := acquires fun c => Core.gs c [(1, 32), (3, 1)]
     s.me.ready [.g 1] [] ∧ s.me.writeHeld = true ∧ s.me.issue.commit = false ∧
     s.me.readsHeld [(32, 32)] = true ∧
     ((s.me.gr 3).extractLsb' 0 11).toNat ≤ 2 ^ ringLcount (s.me.ringNow 0) ∧ ringRole (s.me.ringNow 0) = 0) := by
  simp only [Core.ready]; refine ⟨?_, ?_, ?_, ?_, ?_, ?_, ?_⟩ <;> decide +kernel

def toRing : Nat → RemoteOp → State :=
  fun role op => arrived { two id with
    others := [{ Core.fresh ⟨0, 0, 1⟩ with q := Vector.replicate 8 (ringOf 0 7 10 0 0 0 0 0 role 0) }] }
      ⟨⟨0, 0, 0⟩, .core 1, op, 0, 0⟩
theorem met_RingArrivals :
    ((toRing 2 (.credit 7 1024)).arrives 0 ⟨⟨0, 0, 0⟩, .core 1, .credit 7 1024, 0, 0⟩ ∧
      (toRing 1 (.fill 7 1024)).arrives 0 ⟨⟨0, 0, 0⟩, .core 1, .fill 7 1024, 0, 0⟩) ∧
    (((toRing 2 (.credit 7 1024)).core? ⟨0, 0, 1⟩).map fun c => (ringPeer (c.arch.ring 7), ringRole (c.arch.ring 7))) = some (0, 2) ∧
    (((toRing 1 (.fill 7 1024)).core? ⟨0, 0, 1⟩).map fun c => (ringPeer (c.arch.ring 7), ringRole (c.arch.ring 7), c.spill)) =
      some (0, 1, []) ∧
    (toRing 1 (.fill 7 1024)).phase = .run := by
  simp only [State.arrives]; refine ⟨?_, ?_, ?_, ?_⟩ <;> decide +kernel

/-- A task without a control block, one whose block names core 1535 as its one successor, and
one with a result to come. -/
def tcbTask : BitVec 512 := BitVec.ofNat 512 (0x800 + 2 ^ 64 + 0x100 * 2 ^ 96)
def successor : State :=
  two fun c => { c with running := some tcbTask, scr := c.scr.putBytes 0x100 (natBytes 8 1535) }
/-- The same with a command in flight that writes 8 bytes. -/
def writes (o : Nat) : State := { successor with me := { successor.me with score := [⟨o, o + 8, true, 0⟩] } }
/-- A task whose control block lies in core 1, with no reference loaded yet. -/
def awayTask : BitVec 512 := BitVec.ofNat 512 (0x800 + 2 ^ 12 + 2 ^ 64 + 0x100 * 2 ^ 96)
def refsAway : State := two fun c => { c with running := some awayTask }
def oneLoad : State := one fun c => { c with outs := [⟨.load, 5, 0, some (.core 1), false, false, 0, 0⟩] }
theorem met_TaskEnd :
    ((one id).me.ready [.g 10] [] ∧ (one id).me.running = some 0 ∧ (one id).me.unfinished = false ∧ entryTcb 0 = false) ∧
    (successor.me.ready [.g 10] [] ∧ successor.me.running = some tcbTask ∧ successor.me.unfinished = false ∧ entryTcb tcbTask = true ∧ successor.me.sb.length < 32) ∧
    (successor.successors tcbTask = [1535] ∧ refCheck 0x3B 0 1535 = none ∧ successor.badRef 0 [1535] = none) ∧
    (refsAway.me.ready [.g 10] [] ∧ refsAway.me.running = some awayTask ∧ refsAway.me.unfinished = false ∧
      refsAway.me.refsOwed awayTask = true ∧ successor.me.refsOwed tcbTask = false) ∧
    (successor.me.readsHeld (successor.me.listRanges tcbTask) = false ∧ successor.me.tcbHeld tcbTask = false ∧
      successor.me.listRanges tcbTask = [(0x100, 8)] ∧ successor.me.issue.commit = false) ∧
    ((writes 0x100).me.readsHeld ((writes 0x100).me.listRanges tcbTask) = true ∧
      (writes 0).me.tcbHeld tcbTask = true ∧ (writes 0).successors tcbTask = [1535] ∧ (writes 0).badRef 0 [1535] = none ∧
      (writes 0x100).me.ready [.g 10] [] ∧ (writes 0).me.ready [.g 10] []) ∧
    (oneLoad.me.ready [.g 10] [] ∧ oneLoad.me.unfinished = true ∧ oneLoad.me.issue.commit = false) := by
  simp only [Core.ready]; refine ⟨?_, ?_, ?_, ?_, ?_, ?_, ?_⟩ <;> decide +kernel

def bulk10 : State :=
  two fun c => Core.gs c [(1, adr 0 0), (2, adr 2 (1535 * 2 ^ 33)), (3, 4), (4, 2), (5, 16777216), (6, adr 1 0),
    (7, adr 4 0), (8, adr 4 (2 ^ 37)), (10, 16777220)]
theorem met_BulkWords :
    let t := Tile.of (bulk10.me.gr 0)
    let at_ := fun (r : BitVec 6) (n : Nat) => bulk10.locate 0x38 r bulkSpace (bulk10.me.gr r) n 4
    let own := fun (l : Loc) (n : Nat) (wr : Bool) => bulk10.me.ownRange l n wr
    (bulk10.me.ready [.g 1, .g 2, .g 3] [] ∧ at_ 1 4 = .ok (.scratch 0) ∧ at_ 2 4 = .ok (.remote 1535 0) ∧
      shareByte (bulk10.me.pieces (.remote 1535 0) 4) (bulk10.me.pieces (.scratch 0) 4) = false ∧
      bulk10.me.bulkWaits (own (.remote 1535 0) 4 false ++ own (.scratch 0) 4 true) = false) ∧
    ((bulk10.me.gr 5).toNat = 16777216 ∧ at_ 7 16777216 = .ok (.bank 0 0) ∧ at_ 8 16777216 = .ok (.bank 1 0) ∧
      shareByte (bulk10.me.pieces (.bank 1 0) 16777216) (bulk10.me.pieces (.bank 0 0) 16777216) = false) ∧
    ((bulk10.me.gr 0).toNat < 4 ∧ (bulk10.me.gr 4).toNat % 4 ≠ 0 ∧ 16777216 < (bulk10.me.gr 10).toNat) ∧
    (tileExc 0 (bulk10.me.gr 0) = none ∧ bulk10.tileBase 6 (bulk10.me.gr 6) = .ok 0 ∧ 0 + (t.rows - 1) * t.rpitch + t.n ≤ viewEnd bulk10.me.id.num ∧
      bulk10.locate 0x38 2 bulkSpace (bulk10.me.gr 2) ((t.rows - 1) * t.fpitch + t.n) 4 = .ok (.remote 1535 0)) ∧
    (bulk10.me.ready [.g 6, .g 2, .g 0] (rowRes 0 t.rpitch t.n t.rows) ∧
      bulk10.me.ready ([.g 2, .g 6, .g 0] ++ rowRes 0 t.rpitch t.n t.rows) [] ∧
      bulk10.me.bulkWaits (own (.remote 1535 0) t.n false) = false) := by
  simp only [Core.ready]; refine ⟨?_, ?_, ?_, ?_, ?_⟩ <;> decide +kernel

def composes : State := two fun c => Core.gs c [(1, 0x7FFFC)]
def binding2 : Bool → State := fun x => two fun c => Core.gs { c with binding := some ⟨2, x⟩ } [(1, 0x7FFFC)]
def leader2 : State := two fun c => { c with compo := .leader 2 (1, 2, 3) 63 8 }
def reserved1 : State :=
  { binding2 false with others := [{ Core.fresh ⟨0, 0, 1⟩ with compo := .reserved 0 }], ev := .core ⟨0, 0, 0⟩ }
theorem met_ComposeWords :
    (composes.me.ready [.g 1] [.g 63] ∧ composes.me.composed = false ∧ composes.me.csr.level = 0 ∧ (composes.me.gr 1).toNat % 4 = 0 ∧
      composes.me.id.num % 8 + cmpSize .two ≤ 8 ∧ composes.me.id.num % 8 + cmpSize .eight ≤ 8) ∧
    (composes.me.binding = none ∧ composes.composeRefused (cmpSize .two) = false ∧ composes.composeRefused (cmpSize .eight) = true) ∧
    ((binding2 false).me.ready [.g 1] [.g 63] ∧ (binding2 false).me.binding = some ⟨cmpSize .two, false⟩ ∧
      (binding2 true).me.binding = some ⟨cmpSize .two, true⟩) ∧
    (leader2.me.compo = .leader 2 (1, 2, 3) 63 8 ∧ leader2.me.ready [] [] ∧ leader2.me.unfinished = false ∧ leader2.me.sb = [] ∧
      leader2.sibling 1 ≠ leader2.me.id ∧ (leader2.core? (leader2.sibling 1)).map (·.sb) = some []) ∧
    (composes.me.compo = .plain ∧ composes.me.ready [] [] ∧ composes.me.ready [] [.g 63]) ∧
    reserved1.ev = .core reserved1.me.id ∧ reserved1.me.unfinished = false ∧ reserved1.flows = true ∧ reserved1.me.columnOpen = false ∧
      ((reserved1.core? (reserved1.sibling 1)).map fun c => c.readyFor reserved1.me.id.num) = some true := by
  simp only [Core.ready]; refine ⟨?_, ?_, ?_, ?_, ?_, ?_⟩ <;> decide +kernel

/-- A view-table entry (R61). -/
def entry (base pitch : Nat) (t : EType) (port ring : Nat) : BitVec 128 :=
  BitVec.ofNat 128 (base + pitch * 2 ^ 32 + t.code.toNat * 2 ^ 59 + port * 2 ^ 72 + ring * 2 ^ 74)

/-- Views 1 to 4 of type `t` with rows of 256 bytes, view 4 at the end of the view area, under a
shape; and the changes `f`. -/
def views (shape : BitVec 10) (t : EType) (f : Core → Core) : State :=
  two fun c => f (((Core.setView { c with csr := { c.csr with vshape := shape } } 1 (entry 0 256 t 0 0)).setView 2
    (entry 0x1000 256 t 0 0)).setView 3 (entry 0x2000 256 t 0 0) |>.setView 4 (entry 0x19000 256 t 0 0))

/-- The largest shape, 16 rows of 256 bytes; a square one of 16 rows of 64; one row of 4 bytes;
2 rows of 8. -/
theorem shapes :
    ((views 0x3FF .f32 id).shapeRows = 16 ∧ (views 0x3FF .f32 id).shapeBytes = 256) ∧
    ((views 0x0FF .f32 id).shapeRows = 16 ∧ (views 0x0FF .f32 id).shapeBytes = 64) ∧
    ((views 0 .f32 id).shapeRows = 1 ∧ (views 0 .f32 id).shapeBytes = 4) ∧
    (views 0x011 .f32 id).shapeRows = 2 ∧ (views 0x011 .f32 id).shapeBytes = 8 := by decide +kernel

theorem met_VectorElementWords :
    let s := views 0x3FF .f32 id
    let u := views 0 .i64 id
    (s.me.vbusy = 0 ∧ s.plainView 1 16 256 ∧ s.plainView 2 16 256 ∧ s.plainView 3 16 256 ∧ s.plainView 4 16 256) ∧
    (s.me.ready (s.viewRes 1 16 256 ++ s.viewRes 2 16 256) (s.viewRes 4 16 256) ∧
      s.me.ready (s.viewRes 1 16 256) (s.viewRes 4 16 256) ∧
      s.me.ready (s.viewRes 1 16 256 ++ s.viewRes 2 16 256 ++ s.viewRes 3 16 256) (s.viewRes 4 16 256)) ∧
    (rowFits .f32 256 = true ∧ fmtOf .n8 = none ∧ isSigned .i4 = true ∧ 8 ≤ widthOf .i8 ∧ fmtOf .f32 ≠ none ∧
      isSigned .n64 = false ∧ ¬8 ≤ widthOf .n4) ∧
    (u.me.vbusy = 0 ∧ u.plainView 1 1 4 ∧ u.plainView 4 1 4 ∧ rowFits .i64 4 = false ∧ rowFits .e3m2 4 = false) := by
  simp only [Core.ready, State.plainView]; refine ⟨?_, ?_, ?_, ?_⟩ <;> decide +kernel

theorem met_VectorImmediateWords :
    let s := views 0x3FF .n32 id
    let h := views 0x3FF .bf16 fun c => { c with issue := { c.issue with hw := [0xFFFFFF] } }
    (s.me.vbusy = 0 ∧ viewType (s.me.view 4) = some .n32 ∧ rowFits .n32 256 = true ∧ s.plainView 4 16 256 ∧
      s.me.issue.hw = []) ∧
    (s.me.ready [] (s.viewRes 4 16 256) ∧ s.me.ready (s.viewRes 4 16 256) (s.viewRes 4 16 256)) ∧
    (fmtOf .n32 = none ∧ isSigned .n32 = false) ∧
    (h.me.issue.hw = [0xFFFFFF] ∧ viewType (h.me.view 4) = some .bf16 ∧ fmtOf .bf16 ≠ none ∧
      h.me.ready [] (h.viewRes 4 16 256) ∧ h.plainView 4 16 256) ∧
    ([[1], [2]] : List (List Byte)).length = 2 ∧ Memory.wf [] = true := by
  simp only [Core.ready, State.plainView]; refine ⟨?_, ?_, ?_, ?_, ?_⟩ <;> decide +kernel

theorem met_IntegerElements :
    (2 ^ 64 - 1 < 2 ^ widthOf .i64 ∧ 0 < 2 ^ widthOf .i64 ∧ fmtOf .i64 = none) ∧
    15 < 2 ^ widthOf .n4 ∧ fmtOf .n4 = none ∧ isSigned .n4 = false := by decide +kernel

theorem met_VectorConversionWords :
    let s := views 0x3FF .f32 id
    let e := views 0x3FF .e2m1 id
    let o := views 0 .f32 id
    (s.me.vbusy = 0 ∧ s.plainView 1 16 (rowBytes .f32 64) ∧ s.plainView 4 16 (rowBytes .bf16 64) ∧
      s.me.ready (s.viewRes 1 16 (rowBytes .f32 64)) (s.viewRes 4 16 (rowBytes .bf16 64)) ∧
      rowFits .f32 256 = true ∧ rowWhole .bf16 64 = true ∧ rowWhole .f32 64 = true) ∧
    (rowFits .i64 4 = false ∧ o.plainView 1 1 (rowBytes .i64 0) ∧ o.plainView 4 1 (rowBytes .i8 0) ∧
      rowFits .f32 4 = true ∧ elemsOf .f32 4 = 1 ∧ rowWhole .e2m1 1 = false ∧ o.plainView 1 1 (rowBytes .e2m1 1) ∧
      o.plainView 4 1 (rowBytes .f32 1) ∧ o.me.ready (o.viewRes 1 1 (rowBytes .e2m1 1)) (o.viewRes 4 1 (rowBytes .f32 1))) ∧
    ((fmtOf .f32).isSome = true ∧ viewType (s.me.view 1) = some .f32 ∧ elemsOf .f32 256 % 8 = 0 ∧
      s.plainView 2 16 32 ∧ s.plainView 3 16 8 ∧ s.me.ready (s.viewRes 1 16 256) (s.viewRes 2 16 32 ++ s.viewRes 3 16 8)) ∧
    (elemsOf .f32 4 % 8 ≠ 0 ∧ o.plainView 1 1 4 ∧ o.plainView 2 1 0 ∧ o.plainView 3 1 0) ∧
    (viewType (e.me.view 1) = some .e2m1 ∧ viewType (s.me.view 1) ≠ some .e2m1 ∧ e.plainView 1 16 32 ∧
      e.plainView 3 16 8 ∧ e.plainView 4 16 256 ∧ e.me.ready (e.viewRes 1 16 32 ++ e.viewRes 3 16 8) (e.viewRes 4 16 256) ∧
      rowWhole .e2m1 (elemsOf .f32 256) = true ∧ (elemsOf .f32 256 + 7) / 8 = 8) ∧
    (let w := views 0 .e2m1 id
     viewType (w.me.view 1) = some .e2m1 ∧ w.plainView 1 1 0 ∧ w.plainView 3 1 1 ∧ w.plainView 4 1 4 ∧
       w.me.ready (w.viewRes 1 1 0 ++ w.viewRes 3 1 1) (w.viewRes 4 1 4)) ∧
    (e.me.ready [] [] ∧ viewType (e.me.view 1) ≠ some .f32 ∧ viewType (e.me.view 1) ≠ some .bf16) := by
  simp only [Core.ready, State.plainView]; refine ⟨?_, ?_, ?_, ?_, ?_, ?_, ?_⟩ <;> decide +kernel

theorem met_VectorMoveWords :
    let s := views 0x0FF .f32 id
    (s.me.vbusy = 0 ∧ rowFits .f32 64 = true ∧ s.plainView 1 16 64 ∧ s.plainView 4 16 64 ∧
      s.me.ready (s.viewRes 1 16 64) (s.viewRes 4 16 64)) ∧
    (16 ≤ widthOf .f32 ∧ widthOf .n8 < 16 ∧ widthOf .f32 % 8 = 0 ∧ elemsOf .f32 64 = 16 ∧ elemsOf .bf16 64 ≠ 16 ∧
      widthOf .e2m1 % 8 ≠ 0 ∧ rowFits .e2m1 64 = true) ∧
    (s.plainView 4 1 64 ∧ s.me.ready (s.viewRes 1 16 64) (s.viewRes 4 1 64)) ∧
    (s.plainView 1 1 64 ∧ s.me.ready (s.viewRes 1 1 64) (s.viewRes 4 16 64)) ∧
    (s.plainView 2 16 64 ∧ s.me.ready (s.viewRes 1 16 64 ++ s.viewRes 2 16 64) (s.viewRes 4 16 64) ∧
      s.me.ready (s.viewRes 1 16 64 ++ s.viewRes 2 16 64 ++ s.viewRes 4 16 64) (s.viewRes 4 16 64)) ∧
    (s.me.ready [.g 31] (s.viewRes 4 16 64) ∧ fmtOf .n4 = none) := by
  simp only [Core.ready, State.plainView]; refine ⟨?_, ?_, ?_, ?_, ?_, ?_⟩ <;> decide +kernel

/-- Two rows of 8 bytes at a stride of 8 that end where scratch ends, at a stride too small, and
index elements. -/
def rowsTwo : State := views 0x011 .f32 fun c => Core.gs { c with
  scr := c.scr.putBytes 0x7FFE0 (natBytes 16 (entry 0x1FFFC 4 .n64 0 0).toNat)
  } [(1, 0x7FFF0), (2, 8), (3, 4), (4, 0x7FFFC), (5, 0x7FFE0), (6, 0x1FFFF), (7, 0xFFFF), (8, 0x20000)]
theorem met_ViewMemoryWords :
    let s := rowsTwo
    let rs := rowRanges 0x7FFF0 8 2 8
    let scr := fun (l : List (Nat × Nat)) => l.map fun (o, k) => Res.scr o k
    let es := [(0x7FFFC, 4), (0x7FFFC, 4), (0x7FFFC, 4), (0x7FFFC, 4)]
    (s.me.vbusy = 0 ∧ s.me.composed = false ∧ s.plainView 4 2 8 ∧ s.rowsLocate 1 2 = .ok (.scratch 0x7FFF0) ∧
      (s.me.gr 2).toNat % 4 = 0 ∧ 8 ≤ (s.me.gr 2).toNat) ∧
    (s.me.ready ([.g 1, .g 2] ++ scr rs) (s.viewRes 4 2 8) ∧ s.me.readsHeld rs = false) ∧
    (s.me.ready ([.g 1, .g 2] ++ s.viewRes 4 2 8) (scr rs) ∧ s.me.writesHeld rs = false ∧ s.lateStore = false) ∧
    (¬8 ≤ (s.me.gr 3).toNat ∧ s.me.ready [.g 1, .g 3] (s.viewRes 4 2 8) ∧
      s.me.ready ([.g 1, .g 3] ++ s.viewRes 4 2 8) []) ∧
    (s.plainView 2 2 8 ∧ rowFits .f32 8 = true ∧ 16 ≤ widthOf .f32 ∧ s.elementBase 4 4 = none ∧
      ((s.viewElems .f32 2 2 8 2).map fun row => row.map fun k => 0x7FFFC + k * 4) = [[0x7FFFC, 0x7FFFC], [0x7FFFC, 0x7FFFC]] ∧
      0x7FFFC + 4 ≤ s.me.scrSize) ∧
    (s.me.ready (.g 4 :: scr es ++ s.viewRes 2 2 8) (s.viewRes 4 2 8) ∧ s.me.readsHeld es = false ∧
      s.me.ready (.g 4 :: s.viewRes 2 2 8 ++ s.viewRes 4 2 8) (scr es) ∧ s.me.writesHeld es = false) ∧
    (widthOf .n8 < 16 ∧ rowFits .n8 8 = true ∧ s.me.ready (.g 4 :: s.viewRes 2 2 8) (s.viewRes 4 2 8)) ∧
    ((s.me.gr 5).toNat % 16 = 0 ∧ (s.me.gr 5).toNat + 16 ≤ s.me.scrSize ∧ s.me.ready [.g 5, .scr 0x7FFE0 16] [] ∧
      s.me.readsHeld [(0x7FFE0, 16)] = false) ∧
    (let img : BitVec 128 := BitVec.ofNat 128 (s.ownNat 0x7FFE0 16)
     (viewReservedZero img = true ∧ viewPort img ≠ 3 ∧ viewPort img = 0) ∧ viewPort (entry 0 0 .f32 1 0) ≠ 0) ∧
    (s.me.ready [.g 6, .g 7] [] ∧ (s.me.gr 6).toNat < 2 ^ 17 ∧ (s.me.gr 7).toNat < 2 ^ 16 ∧ 2 ^ 17 ≤ (s.me.gr 8).toNat ∧
      s.me.ready [.g 8, .g 7] []) := by
  simp only [Core.ready, Core.ready, State.plainView]
  refine ⟨?_, ?_, ?_, ?_, ?_, ?_, ?_, ?_, ?_, ?_⟩ <;> decide +kernel

/-- View 2 is the pop port of ring 0, view 3 the push port of ring 1, or of ring 0 when it is full. -/
def ports (fill free : Nat) : State := views 0x011 .f32 fun c => Core.setView (Core.setView { c with
  q := #v[ringOf 0 7 1 1 0 fill free 0 0 0, ringOf 0x100 7 1 0 1 fill free 0 0 0, 0, 0, 0, 0, 0, 0] } 2
    (entry 0 8 .f32 1 0)) 3 (entry 0 120 .f32 2 1)
/-- The same with a range of own scratch that a command in flight writes, the pop slot or the push slot. -/
def portsHeld (pop : Bool) : State :=
  let s := ports 1 1
  { s with me := { s.me with score := [⟨if pop then 0 else 0x100, if pop then 16 else 0x180, true, 0⟩] } }
theorem met_PortOperands :
    let s := ports 1 1
    let e := ports 0 2
    let f := ports 2 0
    (viewPort (s.me.view 2) = 1 ∧ viewRing (s.me.view 2) = 0 ∧ viewPort (s.me.view 3) = 2 ∧ viewRing (s.me.view 3) = 1) ∧
    (viewPitch (s.me.view 3) % 4 = 0 ∧ 8 ≤ viewPitch (s.me.view 2) ∧
      (2 - 1) * viewPitch (s.me.view 3) + 8 = 2 ^ ringLsize (s.me.ringNow 1) ∧ ringRole (s.me.ringNow 1) = 0 ∧
      ringRole (s.me.ringNow 0) = 0 ∧ s.me.vbusy = 0 ∧ s.me.composed = false) ∧
    (s.plainView 4 2 8 ∧ s.me.ready [] (s.viewRes 4 2 8) ∧ s.plainView 1 2 8 ∧ s.me.ready (s.viewRes 1 2 8) []) ∧
    (ringFill (s.me.ringNow 0) ≠ 0 ∧ ringFree (s.me.ringNow 1) ≠ 0 ∧ s.me.readsHeld [(0, 8), (8, 8)] = false ∧
      s.me.writesHeld [(0x100, 8), (0x178, 8)] = false ∧ s.lateStore = false) ∧
    ((portsHeld true).me.readsHeld [(0, 8), (8, 8)] = true ∧ (portsHeld true).me.issue.commit = false ∧
      (portsHeld false).me.writesHeld [(0x100, 8), (0x178, 8)] = true ∧ (portsHeld false).me.issue.commit = false ∧
      (portsHeld true).me.ready [] ((portsHeld true).viewRes 4 2 8) ∧
      (portsHeld false).me.ready ((portsHeld false).viewRes 1 2 8) []) ∧
    (ringFill (e.me.ringNow 0) = 0 ∧ e.plainView 4 2 8 ∧ e.me.ready [] (e.viewRes 4 2 8)) ∧
    -- a store of its own packet behind an older one, which is remote and held
    (let l := s.onMe fun c => { c with
       issue := { c.issue with commit := true }
       sb := [⟨.send (.core 1535) (.store 0 [1]), false, 0, false, 0⟩, ⟨.scr 0x400 [1], false, 1, true, 0⟩] }
     l.lateStore = true ∧ l.plainView 1 2 8 ∧ l.me.ready (l.viewRes 1 2 8) []) ∧
    (ringFree (f.me.ringNow 1) = 0 ∧ f.plainView 1 2 8 ∧ f.me.ready (f.viewRes 1 2 8) []) := by
  simp only [Core.ready, State.plainView]; refine ⟨?_, ?_, ?_, ?_, ?_, ?_, ?_, ?_⟩ <;> decide +kernel

/-- A tensor descriptor (R256): type, sparse field, tile view, rows, columns, pitch, base and
metadata base. -/
def tensor (t : EType) (sparse tv rows cols pitch base mdata : Nat) : BitVec 512 :=
  BitVec.ofNat 512 (t.code.toNat + sparse * 2 ^ 12 + tv * 2 ^ 16 + rows * 2 ^ 64 + cols * 2 ^ 96 + pitch * 2 ^ 128 +
    base * 2 ^ 192 + mdata * 2 ^ 448)

/-- Accumulator views 0 (`i32`) and 7 (`f32`, at the end of the view area), side vectors and
parameters, and identifiers of both operands, dense, sparse, float and of another K. -/
def tensors (f : Core → Core) : State := two fun c => f
  (([(1, tensor .i8 0 0 1 12 64 0x8000 0), (2, tensor .n8 0 0 1 12 64 0x8040 0), (3, tensor .i8 1 0 1 12 64 0x8080 0x80C0),
      (4, tensor .i8 0 0 1 24 64 0x9000 0), (63, tensor .bf16 0 0 1 12 64 0x8100 0)] :
      List (BitVec 6 × BitVec 512)).foldl (fun c x => c.apply (.t x.1 x.2))
    ((((Core.setView c 40 (entry 0 512 .i32 0 0)).setView 47 (entry 0x18000 512 .f32 0 0)).setView 24
      (entry 0x4000 4 .i32 0 0)).setView 31 (entry 0x5000 4 .i32 0 0)))

/-- What the statement of `mmul` and `mmsp` asks of core c for identifiers ta and tb. -/
def mayMultiply (s : State) (sparse : Bool) (ad : BitVec 3) (ta tb : BitVec 6) (agree : Bool) : Bool :=
  let c := s.me
  let mj : BitVec 6 := if sparse then 0x31 else 0x30
  let da := c.tid ta
  let db := c.tid tb
  let fl := ((tdType da).map isFloat).getD false
  let role := if sparse then Role.sparseA else Role.a
  let vs : BitVec 5 := 24
  match c.operand mj role false (decide (tdTv da ≠ 0)) ta (c.resolveTile da),
    c.operand mj .b false (decide (tdTv db ≠ 0)) tb (c.resolveTile db) with
  | .ok a, .ok b =>
    let reads := (a.spans ++ b.spans ++ [(c.accBase ad, 0x2000)]).map fun (o, n) => Res.regs o n
    let writes := [(c.accBase ad, 0x2000), (viewBase (c.view vs.toNat), 576)].map fun (o, n) => Res.regs o n
    tdOk da && tdOk db && decide (c.composed = false) && decide (c.accCheck mj ad (some fl) = none) &&
      decide (fl = true ∨ c.blockCheck mj vs .i32 576 = none) && decide (c.tileCheck mj role da = none) &&
      decide (c.tileCheck mj .b db = none) && decide (c.ahead = none) && !c.mHeld writes && !c.mOwed ([Res.t ta, .t tb] ++ reads) &&
      ([Res.t ta, .t tb] ++ reads ++ writes).all (fun r => !c.awaits r) &&
      (decide (isFloat a.t = isFloat b.t ∧ a.k = b.k) == agree)
  | _, _ => false

theorem met_MatrixWords :
    let d := tensor .e2m1 3 15 16 16384 0xFFFFFFFF 0x19FC0 0
    let s := two fun c => Core.setView (Core.gs { c with scr := c.scr.putBytes 0x7FFC0 (natBytes 64 d.toNat) }
      [(1, 0x7FFC0), (2, 0)]) 47 (entry 0x18000 512 .f32 0 0)
    (s.me.composed = false ∧ s.locate 0x33 1 ownSpace (s.me.gr 1) 64 64 = .ok (.scratch 0x7FFC0) ∧
      s.me.ready [.g 1, .scr 0x7FFC0 64] [.t 63] ∧ s.me.readsHeld [(0x7FFC0, 64)] = false ∧
      BitVec.ofNat 512 (s.ownNat 0x7FFC0 64) = d ∧ tdOk d = true) ∧
    (s.locate 0x33 2 ownSpace (s.me.gr 2) 64 64 = .ok (.scratch 0) ∧ tdOk (BitVec.ofNat 512 (s.ownNat 0 64)) = true ∧
      tdOk (tensor .i8 0 7 1 1 0 0 0) = false) ∧
    (s.me.ready [.t 63] [.g 63] ∧ (0x81 : BitVec 8).getLsbD (s.me.id.num % 8) = true ∧
      (0x80 : BitVec 8).getLsbD (s.me.id.num % 8) = false ∧ s.me.ready [] []) ∧
    (s.me.accCheck 0x32 7 none = none ∧ s.me.accBase 7 + 0x2000 = viewEnd s.me.id.num ∧
      s.me.ready [] [.regs (s.me.accBase 7) 0x2000] ∧
      s.me.ready [.regs (s.me.accBase 7) 0x2000] [.regs (s.me.accBase 7) 0x2000]) ∧
    (mayMultiply (tensors id) false 0 1 2 true = true ∧ mayMultiply (tensors id) true 0 3 2 true = true ∧
      mayMultiply (tensors id) false 7 63 63 true = true ∧ mayMultiply (tensors id) false 0 1 4 false = true ∧
      mayMultiply (tensors id) false 0 1 63 false = true ∧ mayMultiply (tensors id) true 0 3 4 false = true) ∧
    ((tensors id).me.granted = false ∧ (tensors id).me.product = none ∧ (tensors id).me.issue.commit = false ∧
      (tensors fun c => { c with granted := true }).me.granted = true) := by
  simp only [Core.ready]; refine ⟨?_, ?_, ?_, ?_, ?_, ?_⟩ <;> decide +kernel

/-- A slice-path command whose rows are out. -/
def rowsOut (wake : Option (BitVec 64 × List (BitVec 64))) : SliceCmd := ⟨.mdrainr, [], 0, some 1, [], wake, 4, [], []⟩

theorem met_DrainWords :
    let s := tensors fun c => Core.gs c [(61, adr 2 (1535 * 2 ^ 33 + 0x7FFF0)), (62, 1535 * 2 ^ 32)]
    let d := s.me.resolveTile (s.me.tid 1)
    let regs := fun (l : List (Nat × Nat)) => l.map fun (o, n) => Res.regs o n
    let w := { two (fun c => { c with slice := some (rowsOut (some (0, []))) }) with ev := .core ⟨0, 0, 0⟩ }
    (s.me.slice = none ∧ s.me.drainCheck 0x34 .drain 1 0 31 (s.me.tid 1) d none = none ∧
      s.me.ready (.t 1 :: regs (s.me.drainReads 0 31 d)) (regs (tdSpans .drain d))) ∧
    ((61 : BitVec 6) ≠ 63 ∧ s.drainLocate 61 (s.me.gr 61) = .ok (.remote 1535 0x7FFF0) ∧ s.me.composed = false ∧
      0x7FFF0 + (tdRows d - 1) * tdPitch d + storedBytes .i8 (tdCols d) ≤ 0x80000 ∧
      s.me.drainCheck 0x35 .drainRemote 1 0 31 (s.me.tid 1) d none = none) ∧
    (headerReserved (s.me.gr 62) = false ∧ headerArgc (s.me.gr 62) ≤ 6 ∧ (s.me.gr 62).getLsbD 15 = false ∧
      (61 : BitVec 6).toNat + 1 + headerArgc (s.me.gr 62) ≤ 63 ∧ s.names s.me.id 1535 = true ∧
      s.me.ready ([.t 1, .g 61, .g 62] ++ resRun 63 0 ++ regs (s.me.drainReads 0 31 d)) []) ∧
    (w.unstopped w.me.id = true ∧ { w with phase := .remap }.unstopped w.me.id = false) ∧
    (w.ev = .core w.me.id ∧ w.me.slice = some (rowsOut (some (0, []))) ∧ w.me.sb.length < 32 ∧ w.me.ahead = none) := by
  simp only [Core.ready]; refine ⟨?_, ?_, ?_, ?_, ?_⟩ <;> decide +kernel

/-- A product that waits: of core 0 alone, and of a gang of cores 0 and 1. -/
def waitingFor (mask : BitVec 8) : Product :=
  ⟨false, 0, tensor .i8 0 0 1 12 64 0x8000 0, tensor .n8 0 0 1 12 64 0x8040 0, 1, 2, false, false, false, false, false,
    false, false, 0x4000, 0, 0, 4, mask, 0⟩

theorem met_ArrayEvents :
    let l : ColId := ⟨0, 0, 0⟩
    let arr := fun (s : State) (a : ColArray) => { s with regions := [{ region0 with arrays := [a] }], ev := .col l }
    let s := arr (two fun c => { c with atBarrier := some (waitingFor 1) }) ⟨[1], none⟩
    let b := arr { two (fun c => { c with atBarrier := some (waitingFor 3) }) with
      others := [{ Core.fresh ⟨0, 0, 1⟩ with atBarrier := some (waitingFor 2) }] } ⟨[], none⟩
    let e : CoreProduct := ⟨waitingFor 1, [], ([], []), [0], [], none, [], []⟩
    let wd := fun (n : Nat) (q : List (BitVec 8)) =>
      { arr (two fun c => { c with atBarrier := some (waitingFor 1), waited := n }) ⟨q, none⟩ with ev := .core ⟨0, 0, 0⟩ }
    (s.ev = .col l ∧ s.completeGangs l = [1] ∧ s.array l = ⟨1 :: [], none⟩ ∧ s.gangReady l 1 = true ∧
      (gangOf 1).head? = some 0 ∧ s.waiting l 0 = some (waitingFor 1)) ∧
    (2 * (gangOf 1).length * (waitingFor 1).arrayCc ≤ (s.purse (s.physOf l)).pennies ∧
      ({ s with purses := [] }.purse (s.physOf l)).pennies < 2 * (gangOf 1).length * (waitingFor 1).arrayCc) ∧
    ((b.waiting l 0).isSome = true ∧ b.waiting l 0 = some (waitingFor 3) ∧
      (∀ i ∈ gangOf 3, (b.waiting l i).isSome = true) ∧ 1 ∈ gangOf 3 ∧ b.waiting l 1 = some (waitingFor 2) ∧
      (waitingFor 3).differs (waitingFor 2) = some 1 ∧ (waitingFor 3).differs (waitingFor 3) = none ∧
      b.mismatch l (waitingFor 3) = some (1, (BitVec.ofNat 40 1 ++ (2 : BitVec 8) : BitVec 48))) ∧
    ((List.range 8).filter fun i => ((b.waiting l i).bind fun q => b.mismatch l q).isSome) = [0] ∧
    ((arr (two id) ⟨[], some ⟨1, 0⟩⟩).array l).run = some ⟨1, 0⟩ ∧
    (e.side = [] ∧ e.bad = none ∧ ({ e with bad := some (1, 0, 6) } : CoreProduct).bad = some (1, 0, 6)) ∧
    ((wd (2 ^ 26) []).me.waited ≤ ((wd 0 []).fn 0).wdLimit ∧ ((wd 0 []).fn 0).wdLimit < (wd (2 ^ 26 + 1) []).me.waited ∧
      ((wd 0 []).array l).queue.contains 1 = false ∧ ((wd 0 [1]).array l).queue.contains 1 = true ∧
      (wd 0 []).core? ⟨0, 0, 0⟩ = some (wd 0 []).me) := by
  refine ⟨?_, ?_, ?_, ?_, ?_, ?_, ?_⟩ <;> decide +kernel

/-- Core 1 after `f`, and a message from core 0 that has arrived at it. -/
def at1 (op : RemoteOp) (f : Core → Core) : State :=
  arrived { two id with others := [f (Core.fresh ⟨0, 0, 1⟩)] } ⟨⟨0, 0, 0⟩, .core 1, op, 0, 0⟩

/-- The same when core 0 is the destination. -/
def at0 (op : RemoteOp) (f : Core → Core) : State := arrived (two f) ⟨⟨0, 0, 1⟩, .core 0, op, 0, 0⟩

theorem arrives_at1 : ∀ op f, (at1 op f).arrives 0 ⟨⟨0, 0, 0⟩, .core 1, op, 0, 0⟩ := fun _ _ => ⟨rfl, rfl, rfl, rfl⟩
theorem arrives_at0 : ∀ op f, (at0 op f).arrives 0 ⟨⟨0, 0, 1⟩, .core 0, op, 0, 0⟩ := fun _ _ => ⟨rfl, rfl, rfl, rfl⟩
theorem core_at1 : ∀ op, (at1 op id).core? ⟨0, 0, 1⟩ = some (Core.fresh ⟨0, 0, 1⟩) := fun _ => rfl

/-- Core 0 with one entry at the head of its store buffer. -/
def oneEntry (k : SbKind) (f : Core → Core) : State :=
  { two (fun c => f { c with sb := [⟨k, true, 1, false, 0⟩] }) with ev := .core ⟨0, 0, 0⟩ }

/-- The burst of an access within 64 bytes. -/
theorem one_burst (a n : Nat) (h : a % 64 + n ≤ 64) : burstsOf [(a, n)] = [hbmChannel (64 * (a / 64))] := by
  have : (a + max 1 n - 1) / 64 + 1 - a / 64 = 1 := by omega
  simp [burstsOf, this]

/-- A channel whose window is used up serves nothing more. -/
theorem full_channel (s : State) (o a n : Nat) (x : Bool) (hb : a % 64 + n ≤ 64)
    (h : s.chans = [(hbmChannel (64 * (a / 64)), ⟨[(0, 512)], [], []⟩)]) : s.serve o [(a, n)] x = none := by
  cases x <;> simp [State.serve, one_burst a n hb, State.hasTokens, State.chan, h]

/-- Channels that nobody else waits for serve at most 512 bursts in a fresh window. -/
theorem open_channel (s : State) (o : Nat) (ps : List (Nat × Nat)) (x : Bool) (hb : (burstsOf ps).length ≤ 512)
    (hc : s.chans = []) (hw : ∀ w ∈ s.wants, w.1 = o) : (s.serve o ps x).isSome = true := by
  have hr : ∀ ch, s.rivals o ch = [] := fun ch => by
    have : s.wants.filter (fun w => w.1 != o && hbmChannel w.2.1 == ch) = [] :=
      List.filter_eq_nil_iff.2 fun w m => by simp [hw w m]
    simp [State.rivals, this]
  have hk : ∀ ch, s.chan ch = ⟨[], [], []⟩ := fun ch => by simp [State.chan, hc]
  have hwin : ∀ ch, (s.winsChannel o ch).isSome = true := fun ch => by
    by_cases hf : 0 < s.floorOf ch o <;> simp [State.winsChannel, hk, hr, tokensOf, weighted, largest, hf]
  have hcost : ∀ ch n, n ≤ 512 → s.hasTokens o ch n = true := fun ch n h => by
    simp [State.hasTokens, hk, hr, tokensOf, h]
  cases h : burstsOf ps with
  | nil => simp [State.serve, h]
  | cons ch bs =>
    have hcap : (s.chan ch).capped o x (s.wants.all fun w => w.1 == o || hbmChannel w.2.1 != ch) = false := by
      have : (s.wants.all fun w => w.1 == o || hbmChannel w.2.1 != ch) = true :=
        List.all_eq_true.2 fun w m => by simp [hw w m]
      simp [Channel.capped, this]
    have hall : ((ch :: bs).eraseDups.all fun c => s.hasTokens o c (if x = true then 4 else (ch :: bs).count c)) = true :=
      List.all_eq_true.2 fun c _ => hcost c _ (by split <;> first | omega | exact le_trans List.count_le_length (h ▸ hb))
    simpa only [State.serve, h, hall, hcap, Bool.not_true, Bool.or_false, Bool.false_eq_true, if_false,
      Option.isSome_map] using hwin ch

/-- A state in which the channel of an address has used its window. -/
def State.used (s : State) (a : Nat) : State := { s with chans := [(hbmChannel (64 * (a / 64)), ⟨[(0, 512)], [], []⟩)] }

theorem met_RemoteAccesses :
    let e := fun (k : SbKind) => (⟨k, true, 1, false, 0⟩ : SbEntry)
    let s := oneEntry (.stfe 0 1) fun c => { c with fe := [0] }
    let u := oneEntry (.push 0 true) fun c => { c with unacked := [⟨0, .core 1535, 0, 0⟩] }
    let r := at0 (.reply 63 5) fun c => { c with outs := [⟨.load, 63, 0, some (.core 1), false, false, 0, 0⟩] }
    let f := { at1 (.store 0 [1]) id with stamp := 1 }
    let b := arrived (two id) ⟨⟨0, 0, 0⟩, .bank 191, .store 0 [1], 0, 0⟩
    (∀ k, (oneEntry k id).ev = .core (oneEntry k id).me.id ∧ (oneEntry k id).flows = true ∧
      (oneEntry k id).phase ≠ .announce ∧ (oneEntry k id).me.sb = e k :: []) ∧
    ((oneEntry (.scr 0 [1]) id).me.mayExit (e (.scr 0 [1])) = true ∧ s.me.mayExit (e (.stfe 0 1)) = true ∧
      s.me.fe.contains (0 / 128) = true ∧ s.me.composed = false) ∧
    (u.me.mayExit (e (.push 0 true)) = false ∧ (e (.push 0 true)).rel = true ∧ u.me.unacked ≠ []) ∧
    (s.me.unacked = [] ∧ (e (.stfe 0 1)).behind = 0 ∧ s.me.walks = [] ∧ s.me.outs = [] ∧ s.flaws = []) ∧
    (∀ k ∈ [SbKind.pushTcb 0 true, .finish [1535] 5 0 1, .finish [] 5 0 1, .finish [] 5 1535 1, .home 1 0 (.load 0 5),
        .hatom .add 0x100 5 0 6], (oneEntry k id).me.mayExit (e k) = true ∧ (oneEntry k id).me.composed = false) ∧
    (((oneEntry (.hatom .add 0x100 5 0 6) id).serve 0 [(0x100, 8)] true).isSome = true ∧
      (State.used (oneEntry (.hatom .add 0x100 5 0 6) id) 0x100).serve 0 [(0x100, 8)] true = none) ∧
    (f.msg? 0 = some ⟨⟨0, 0, 0⟩, .core 1, .store 0 [1], 0, 0⟩ ∧ (0 : BitVec 2) + 1 = f.stamp ∧ f.phase = .run) ∧
    (r.core? ⟨0, 0, 0⟩ = some r.me ∧ (r.me.outs.any (·.seq == 0)) = true ∧ (r.less 0).me = r.me ∧
      (r.me.outs.any fun o => o.seq == 0 && o.kind == .successor) = false ∧ r.me.ckpt = none) ∧
    (b.arrives 0 ⟨⟨0, 0, 0⟩, .bank 191, .store 0 [1], 0, 0⟩ ∧ b.region? 0 0 = some region0 ∧ region0.veil = []) := by
  simp only [State.arrives]
  refine ⟨fun _ => ⟨rfl, rfl, fun h => Phase.noConfusion h, rfl⟩, ?_, ?_, ?_, ?_,
    ⟨open_channel _ _ _ _ (by decide) rfl ?_, full_channel _ _ _ _ _ (by decide) rfl⟩, ?_, ?_, ?_⟩ <;> decide +kernel

/-- Every place of both deques taken. -/
def noPlace (c : Core) : Core := { c with
  hiDeque := List.replicate 64 0, loDeque := List.replicate 64 0
  hiSpill := List.replicate 4096 0, loSpill := List.replicate 4096 0 }

theorem met_MessagesAndTasks :
    let p := at1 (.deposit 31 7) fun c => c.setXp 31 true
    let full := at1 (.message 0 []) noPlace
    let cnt := at1 (.signal 0x1000 7) fun c => { c with scr := c.scr.putBytes 2 [2, 0] }
    let last := fun (op : RemoteOp) => at1 op fun c => { c with scr := c.scr.putBytes 2 [1, 0] }
    let aside := { two id with others := [{ Core.fresh ⟨0, 0, 1⟩ with spill := [.push 0] }], ev := .core ⟨0, 0, 1⟩ }
    let idle := { two (fun c => { c with running := none }) with ev := .core ⟨0, 0, 0⟩ }
    let work := { two (fun c => { c with running := none, loDeque := [5] }) with ev := .core ⟨0, 0, 0⟩ }
    let launched := { idle with regions := [{ region0 with launch := some ⟨0, 0, 0, 0, 0⟩ }] }
    ((Core.fresh ⟨0, 0, 1⟩).arch.xp 31 = false ∧ (Core.fresh ⟨0, 0, 1⟩).queued 31 = false ∧
      (Core.fresh ⟨0, 0, 1⟩).hasPlace false false = true) ∧
    ((p.core? ⟨0, 0, 1⟩).map fun c => c.arch.xp 31) = some true ∧
    (p.paused = false ∧ ((full.core? ⟨0, 0, 1⟩).map fun c => (c.hasPlace false false, c.spill)) = some (false, [])) ∧
    ((Core.fresh ⟨0, 0, 1⟩).scr.nat 2 2 = 0 ∧ (0x8000 : BitVec 64).getLsbD 15 = true ∧
      (0x1000 : BitVec 64).extractLsb' 12 3 ≠ 0 ∧ ((cnt.core? ⟨0, 0, 1⟩).map fun c => c.scr.nat 2 2) = some 2 ∧
      ∀ x ∈ [last (.signal 0x1000 7), last (.signal 0 7), last (.message 0x8000 [7])],
        ((x.core? ⟨0, 0, 1⟩).map fun c => (c.scr.nat 2 2, c.hasPlace false false, c.spill)) = some (1, true, [])) ∧
    (((aside.core? ⟨0, 0, 1⟩).map fun c => (c.spill, c.hasPlace false false)) = some ([.push 0], true)) ∧
    (idle.ev = .core idle.me.id ∧ idle.mayIssue idle.me = true ∧ idle.me.free = true ∧ idle.me.hasWork = false ∧
      idle.me.isMem = false ∧ launched.nextVictim ≠ none ∧ launched.mayIssue launched.me = true) ∧
    ((work.me.pop.map fun x => x.1) = some 5 ∧ (work.me.takeTop.map fun x => x.1) = some 5 ∧
      (Core.fresh ⟨0, 0, 1⟩).takeTop = none ∧ (at0 (.stealReply none) id).core? ⟨0, 0, 0⟩ = some (at0 (.stealReply none) id).me) ∧
    (entryTcb tcbTask = true ∧ entryHome tcbTask = successor.me.id.num ∧ successor.me.tcbHeld tcbTask = false ∧
      (writes 0).me.tcbHeld tcbTask = true ∧ entryTcb awayTask = true ∧ entryHome awayTask ≠ refsAway.me.id.num ∧
      refsAway.me.ahead = none ∧ refsAway.me.tcbHeld awayTask = false) := by
  refine ⟨?_, ?_, ?_, ?_, ?_, ?_, ?_, ?_⟩ <;> decide +kernel

/-- A capability of all rights for the first 4 KiB of object 0. -/
def capAll : Cap := ⟨(4096 : BitVec 48) ++ (0 : BitVec 48) ++ (0x3F : BitVec 8) ++ (0 : BitVec 24), true⟩

/-- HBM with tables that map every guest page to itself and objects 0, active, and 1, escrowed. -/
def tables : Memory :=
  (((Memory.putBytes [] 0x10000 (natBytes 8 0x20003)).putBytes 0x20000 (natBytes 8 25)).putBytes 0
    (natBytes 64 (newEntry 0 false 4096 0x100000).toNat)).putBytes 64 (natBytes 64 ((newEntry 0 false 4096 0x200000).toNat + 1))

/-- Memory core 0 in turn with its caches filled, after `f`. -/
def memory (f : Core → Core) : State := { two id with
  me := f { Core.fresh ⟨0, 0, 0x800⟩ with
    running := some 0, tlb := [(0, 2 ^ 33, 0, true, true)], objCache := [(0, newEntry 0 false 4096 0x100000)]
    c := Vector.replicate 16 capAll }
  fns := setAt State.reset.fns 0 { Fn.reset with objCount := 2, ssRoot := 0x10000, enabled := true }
  hbm := tables }

/-- A started command of one beat. -/
def bulkOf (k : BulkKind) (src dst : Side) (off : Nat) : Bulk :=
  ⟨0, k, src, dst, [⟨off, 0, 4⟩], 0, 0, 4, true, false, none, none, 0, [], none, none, 0, 0⟩

theorem met_BulkEngines :
    let s := fun (b : Bulk) => { memory (fun c => { c with bulks := [b] }) with ev := .coreIdx ⟨0, 0, 0x800⟩ 0 }
    let copy := bulkOf .bcopy (.scratch 0) (.bank 0) 0
    let ship := bulkOf .hship (.hbm capAll) (.scratch 0) 0xFFC
    let pull := bulkOf .hpull (.scratch 0) (.hbm capAll) 0
    let gemv := { bulkOf .bgemv (.hbm capAll) (.scratch 0) 0 with desc := tensor .i8 0 0 1 4 64 0 0, vec := [0, 0, 0, 0] }
    let out := { bulkOf .hship (.hbm capAll) (.scratch 0) 0xFFD with started := true }
    let far := { memory (fun c => { c with bulks := [ship], tlb := [], objCache := [(0, newEntry 0 false 4096 (2 ^ 33))] }) with
      ev := .coreIdx ⟨0, 0, 0x800⟩ 0 }
    let id0 : CoreId := ⟨0, 0, 0x800⟩
    ((s copy).core? id0 = some (s copy).me ∧ (s copy).me.bulks[0]? = some copy ∧ (s copy).engineRuns id0 = true ∧
      (s copy).mayBeat id0 copy = true) ∧
    ((s { copy with started := false }).me.bulks.take 0 = [] ∧
      ({ copy with record := true, waiting := some 0, answer := some 4 } : Bulk).answer.isSome = true) ∧
    (((s ship).beatWalk id0 ship capAll 0xFFC 4 true false).1 = .ok [(0x100FFC, 4)] ∧ capAll.home = (s ship).fabricId ∧
      ((s pull).beatWalk id0 pull capAll 0 4 false true).1 = .ok [(0x100000, 4)]) ∧
    (((s ship).serve 0 [(0x100FFC, 4)] false).isSome = true ∧ ((s pull).serve 0 [(0x100000, 4)] false).isSome = true) ∧
    ((s ship).flaws = [] ∧ (s ship).delivers id0 = true ∧ (s ship).flows = true ∧
      { s ship with phase := .move }.delivers id0 = true ∧ { s ship with phase := .move }.flows = false) ∧
    (State.used (s ship) 0x100FFC).serve 0 [(0x100FFC, 4)] false = none ∧
    ({ s ship with fabricId := 1 }.fabricId ≠ capAll.home ∧ (s ship).homeOut = []) ∧
    ((far.beatWalk id0 ship capAll 0xFFC 4 true false).1 = .misses [((2 ^ 33 + 0xFFC) / 2 ^ 13, true, false)]) ∧
    ((match ((s out).beatWalk id0 out capAll 0xFFD 4 true false).1 with | .fault _ _ _ => true | _ => false) = true ∧
      out.packet = none) ∧
    (tdFp4 gemv.desc = false ∧ ((s gemv).rangeWalks id0 gemv capAll [(0, 4)]).1 = .ok [(0x100000, 4)]) := by
  refine ⟨?_, ?_, ?_, ⟨open_channel _ _ _ _ (by decide) rfl ?_, open_channel _ _ _ _ (by decide) rfl ?_⟩, ?_,
    full_channel _ _ _ _ _ (by decide) rfl, ?_, ?_, ?_, ?_⟩ <;> decide +kernel

theorem met_TurnSteps :
    let s := fun (p : Phase) => { two id with phase := p }
    let x : Stripe := ⟨⟨0, 0⟩, 3, .scratch, 7, false⟩
    let m := { s .move with stripes := [x] }
    let high := { two (fun c => { c with csr := { c.csr with turnh := 0x405 } }) with phase := .remap }
    (({ two id with turnDue := true }).turnDue = true ∧ (two id).phase = .run ∧ region0.preempt = false ∧ region0.blocked = false ∧ (two id).switching = [] ∧
      ((two id).fn 0).rollback = false ∧ (two id).regions = [region0]) ∧
    ((two id).me.pend = [] ∧ (two id).me.outs = [] ∧ (two id).me.compo = .plain ∧ (two id).me.binding = none) ∧
    ((s .announce).phase = .announce ∧ (s .announce).enginesStopped region0 = true) ∧
    ((s .drain).phase = .drain ∧ (s .drain).drained = true ∧ (s .drain).failing = []) ∧
    ((∃ col, m.sent? ⟨⟨0, 0⟩, 3, .scratch, 7, true⟩ = some (x, col) ∧ m.meshOnly (col / 4) = false ∧
        { m with moveTries := [(x, 3, 0)] }.meshOnly (col / 4) = false ∧
        { m with moveTries := [(x, 3, 0)] }.sent? x = some (x, col)) ∧
      m.triesOf x = (0, 0) ∧ { m with moveTries := [(x, 3, 0)] }.triesOf x = (3, 0) ∧ m.moveExtra = [] ∧
      (s .move).sent? x = none ∧ { m with stripes := [⟨⟨0, 0⟩, 3, .scratch, 7, true⟩] }.sent? x = none) ∧
    ((s .move).phase = .move ∧ (s .move).moveFor = 0 ∧ ∀ c ∈ (s .move).cols, c.broken = none) ∧
    ((s .remap).cyc.toNat - (s .remap).pauseAt ≤ 2 ^ 18 ∧ (∀ f ∈ (s .remap).fns, f.ckptK = 0 ∧ f.rollback = false) ∧
      region0.blocked = false ∧ region0.resident = true ∧
      ∀ t ∈ [s .remap, high], (t.pushTurn region0.id 1 0 1).fns = t.fns) ∧
    ((s .remap).core? ⟨0, 0, 0⟩ = some (s .remap).me ∧ (s .remap).me.csr.turnh.getLsbD 10 = false ∧
      high.core? ⟨0, 0, 0⟩ = some high.me ∧ high.me.csr.turnh.getLsbD 10 = true ∧ high.me.hasPlace true false = true ∧
      high.me.spill = []) := by
  refine ⟨?_, ?_, ?_, ?_, ⟨⟨_, rfl, ?_, ?_, ?_⟩, ?_⟩, ?_, ?_, ?_⟩ <;> decide +kernel

theorem met_RegionEvents :
    let ev := fun (s : State) (r : Region) => { s with regions := [r], ev := .region ⟨0, 0⟩ }
    let s := ev (two fun c => { c with running := none }) region0
    let l := ev (two fun c => { c with running := none }) { region0 with launch := some ⟨0, 0, 0, 0, 0⟩, wave := some (0, 0) }
    let new := { State.reset with ev := .newRegion ⟨0, 0⟩ 48 0 (List.range 96) }
    (s.ev = .region ⟨0, 0⟩ ∧ s.region? 0 0 = some region0 ∧ s.phase = .run ∧ region0.resident = true ∧ region0.preempt = false) ∧
    ((ev s { region0 with preempt := true }).switchable { region0 with preempt := true } = true ∧
      (ev { s with net := [⟨⟨0, 0, 0⟩, .core 1, .steal, 0, 0⟩] } region0).switchable region0 = false) ∧
    (let w := { ev s { region0 with preempt := true } with switches := [(⟨0, 0⟩, none)] }
     w.switches = [((⟨0, 0⟩ : RegionId), (none : Option RegionId))] ∧ w.switchable { region0 with preempt := true } = true) ∧
    (({ region0 with resident := false } : Region).resident = false ∧ region0.missed = 0 ∧ s.keptOut ⟨0, 0⟩ = false ∧
      s.onBroken { region0 with resident := false } = false ∧ s.openSwitches = []) ∧
    (let w := { s with ev := .switch ⟨0, 0⟩ none }
     w.region? 0 0 = some region0 ∧ region0.id = ⟨0, 0⟩ ∧ w.phase = .run ∧ w.switches = [] ∧ w.switching = [] ∧
       region0.blocked = false ∧ w.turnDue = false ∧ { w with turnDue := true }.turnDue = true) ∧
    ((∀ c ∈ l.cores, c.id.owner = 0 → c.id.circ = 0 → c.quiet = true) ∧
      (l.region? 0 0).map (fun r => (r.launch.isSome, r.inj, r.wave)) = some (true, 0, some (0, 0)) ∧
      (({ region0 with inj := 1 } : Region).inj ≠ region0.ej)) ∧
    (new.placeOk ⟨0, 0⟩ 48 0 (List.range 96) = true ∧ new.region? 0 0 = none ∧ new.regions = [] ∧ new.switching = [] ∧
      ∀ c ∈ new.cols, c.broken = none) ∧
    ({ new with regions := [{ region0 with resident := false }] }.placeOk ⟨0, 0⟩ 48 0 (List.range 96) = true) := by
  refine ⟨?_, ?_, ?_, ?_, ?_, ?_, ?_, ?_⟩ <;> decide +kernel

/-- The home module's answer to the walk of the packet of core 0 has come. -/
def ansd (a : HomeAns) : State := { memory (fun c => { c with homeAns := some a }) with fabricId := 1 }
theorem met_HbmAccessWords :
    let s := memory fun c => Core.setView (Core.gs { c with csr := { c.csr with vshape := 0x3FF } }
      [(1, 0xFF8), (2, 0xFFC), (3, 0), (4, 0xFFD), (5, 0x1000), (6, 31 * 2 ^ 12 + 1535)]) 4 (entry 0x9000 256 .f32 0 0)
    let k := s.me.cap 15
    let off := fun (r : BitVec 6) => (s.me.gr r).toNat
    let cap := fun (r : BitVec 6) (x : Right) (n : Nat) => capCheck 0x3D 15 k [x] 0 [(off r, off r, n)]
    let far := { memory id with fabricId := 1 }
    let out := memory fun c => { c with objCache := [(0, newEntry 0 false 8 0x100000)] }
    (k.home = s.fabricId ∧ cap 1 .read 8 = none ∧ cap 1 .write 8 = none ∧ cap 2 .atomic 4 = none ∧ cap 1 .atomic 8 = none) ∧
    (off 1 % 8 = 0 ∧ s.translate k.index (off 1) 8 true false = (.ok [(0x100FF8, 8)], s.mmu) ∧
      s.me.hbmWaits = false ∧ s.me.acquiring = false ∧ s.me.nearLoad = false ∧ s.me.ready [.c 15, .g 1] [.g 63] ∧ s.me.ready [.c 15, .g 1, .g 63] []) ∧
    (s.me.gr 6 = ((0 : BitVec 47) ++ (31 : BitVec 5) ++ (1535 : BitVec 12)) ∧ s.names s.me.id 1535 = true ∧
      s.me.ready [.c 15, .g 1, .g 6] []) ∧
    (s.translate k.index (off 1) 8 false true = (.ok [(0x100FF8, 8)], s.mmu) ∧ s.me.sb.length < 32) ∧
    (off 3 % 4 = 0 ∧ s.viewLimits 4 16 256 = none ∧ cap 3 .read 4096 = none ∧ cap 3 .write 4096 = none ∧
      s.translate k.index 0 4096 true false = (.ok [(0x100000, 4096)], s.mmu) ∧
      s.me.ready [.c 15, .g 3] (s.viewRes 4 16 256) ∧ s.me.ready (.c 15 :: .g 3 :: s.viewRes 4 16 256) []) ∧
    (off 2 % 4 = 0 ∧ s.translate k.index (off 2) 4 true true = (.ok [(0x100FFC, 4)], s.mmu) ∧
      s.me.ready ([.c 15, .g 1] ++ [.g 62, .g 63]) [.g 62]) ∧
    (off 4 % 4 ≠ 0 ∧ (cap 5 .read 8).isSome = true ∧ off 5 % 8 = 0 ∧ (far.me.cap 15).home ≠ far.fabricId ∧ far.me.homeAns = none ∧
      (ansd (.fault 0x1A 3 0)).me.homeAns = some (.fault 0x1A 3 0) ∧ (ansd (.missed [])).me.homeAns = some (.missed []) ∧ (ansd .mapped).me.homeAns = some .mapped ∧
      (ansd .mapped).me.sb.length < 32 ∧ (ansd .mapped).me.farWaits 0 = false) ∧
    (match (out.translate 0 8 8 true false).1 with | .fault _ _ _ => true | _ => false) = true := by
  simp only [Core.ready]; refine ⟨?_, ?_, ?_, ?_, ?_, ?_, ?_, ?_⟩ <;> decide +kernel

theorem met_GatherTransferWords :
    let s := memory fun c => Core.setView (Core.setView { c with csr := { c.csr with vshape := 0x011, gmask := 1 } } 1
      (entry 0 8 .n32 0 0)) 4 (entry 0x9FF0 8 .f32 0 0)
    let es := s.elems 4 1 4 2 4
    let geo := 2 ^ 40 + 2 ^ 39 * 0 + 4 * 2 ^ 16 * 0 + 0x10
    let t := memory fun c => Core.gs { c with scr := c.scr.putBytes 0 (natBytes 64 (tensor .i8 0 0 1 4 64 0 0).toNat) }
      [(1, adr 2 (1535 * 2 ^ 33 + 0x7FFFC)), (2, 0), (3, 0xFFC), (4, BitVec.ofNat 64 geo), (6, 0x1000)]
    let d : BitVec 512 := tensor .i8 0 0 1 4 64 0 0
    (s.gatherCheck 4 1 0 .read 4 2 4 es = none ∧ s.gatherCheck 4 1 0 .write 4 2 4 es = none ∧ es = [⟨0, 0, 0x9FF0⟩]) ∧
    (s.walkElems 0 4 true false es = ([(⟨0, 0, 0x9FF0⟩, 0x100000)], .ok [], s.mmu) ∧
      s.walkElems 0 4 false true es = ([(⟨0, 0, 0x9FF0⟩, 0x100000)], .ok [], s.mmu)) ∧
    (s.me.ready (.c 0 :: s.viewRes 1 2 8) (s.viewRes 4 2 8) ∧ s.me.ready (.c 0 :: s.viewRes 1 2 8 ++ s.viewRes 4 2 8) [] ∧
      s.me.hbmWaits = false ∧ s.me.sb.length < 32 ∧ capAll.home = s.fabricId ∧ s.me.isMem = true) ∧
    (t.me.ready [.c 0, .g 1, .g 2, .g 3] [] ∧ t.shipTarget 1 (t.me.gr 1) = .ok (1535, 0x7FFFC) ∧ t.me.bulkWaits [] = false ∧
      (t.me.gr 2).extractLsb' 29 2 = 0 ∧ (t.me.gr 2).getLsbD 23 = false ∧ 0x7FFFC + 4 ≤ 0x80000) ∧
    (capCheck 0x3D 0 capAll [.read] 0 [(0xFFC, 0xFFC, 4)] = none ∧ capCheck 0x3D 0 capAll [.write] 0 [(0xFFC, 0xFFC, 4)] = none ∧
      (capCheck 0x3D 0 capAll [.read] 0 [(0x1000, 0x1000, 4)]).isSome = true ∧
      (capCheck 0x3D 0 capAll [.write] 0 [(0x1000, 0x1000, 4)]).isSome = true) ∧
    (t.me.ready [.c 0, .g 1, .g 2, .g 0, .regs 0 8] [] ∧ t.me.readsHeld [(0, 64)] = false ∧
      BitVec.ofNat 512 (t.ownNat 0 64) = d ∧ tdOk d = true ∧ tdTv d = 0 ∧ tdSparse d = 0 ∧ bgemvType (tdType d) = true ∧
      0x7FFFC + 4 * tdRows d ≤ 0x80000 ∧ 0 + 2 * tdCols d ≤ viewEnd t.me.id.num ∧
      capCheck 0x3D 0 capAll [.read] 0 (bgemvRanges d) = none) := by
  simp only [Core.ready]; refine ⟨?_, ?_, ?_, ?_, ?_, ?_⟩ <;> decide +kernel

theorem met_CapabilityWords :
    let s := memory fun c => Core.gs { c with tlb := [(0, 2 ^ 33, 0, true, true)] }
      [(1, 1535), (2, 4095), (3, 4096), (61, 0xFFF), (62, 0x1000), (5, 0x1001), (4, 0x1000), (7, 1)]
    let none_ : Cap := ⟨0, false⟩
    let noDerive : Cap := { capAll with bits := capAll.bits &&& ~~~((1 : BitVec 128) <<< 27) }
    (s.me.ready [] [] ∧ s.me.ready [.c 0] [.c 15] ∧ s.me.ready [.c 0, .g 1] [] ∧ s.me.sb.length < 32) ∧
    ((s.me.gr 1).toNat < 4096 ∧ s.names s.me.id 1535 = true ∧ (s.me.gr 2).toNat < 4096 ∧ s.names s.me.id 4095 = false ∧
      4096 ≤ (s.me.gr 3).toNat) ∧
    ((61 : BitVec 6) ≠ 63 ∧ s.me.ready [.c 0, .g 61, .g 62] [.c 15] ∧ capAll.tag = true ∧ capAll.lower ≤ 0xFFF ∧
      0xFFF ≤ 0x1000 ∧ 0x1000 ≤ capAll.upper ∧ capAll.bits.getLsbD 27 = true) ∧
    (none_.tag = false ∧ noDerive.tag = true ∧ noDerive.bits.getLsbD 27 = false ∧ ¬0x1001 ≤ capAll.upper ∧
      noDerive.upper = capAll.upper ∧ noDerive.lower = capAll.lower) ∧
    (s.me.ready [.c 0, .g 1] [.c 15] ∧ capCheck 0x3D 0 capAll [.transfer] 0 [] = none ∧ capAll.home = s.fabricId ∧
      capAll.index < s.guest.count) ∧
    (s.entryAddr 0 = (.ok [(0, 64)], s.mmu) ∧ s.entryAddr 1 = (.ok [(64, 64)], s.mmu)) ∧
    (let e := BitVec.ofNat 512 (s.hbm.nat 0 64)
     objState e = 1 ∧ objCirc e = s.guest.circ ∧ (s.me.gr 7).toNat < 2 ∧ (s.me.gr 7).toNat ≠ objCirc e ∧
      (s.me.writesOpen || s.me.accessesOpen) = false) ∧
    (let e := BitVec.ofNat 512 (s.hbm.nat 64 64)
     objState e = 2 ∧ objEdst e = s.guest.circ ∧ s.me.writeHeld = false) := by
  simp only [Core.ready]; refine ⟨?_, ?_, ?_, ?_, ?_, ?_, ?_, ?_⟩ <;> decide +kernel

theorem met_HbmReturns :
    let s := fun (a : HbmOp) (e : EvArg) => { memory (fun c => { c with hbmAcc := [⟨a, 0, false⟩] }) with ev := e }
    let i : CoreId := ⟨0, 0, 0x800⟩
    let owned := { s (.load 0x2000 1) (.read i .arrayUncorrectable) with
      fns := setAt State.reset.fns 0 { Fn.reset with frames := [1] } }
    let miss := fun (f : Core → Core) => { memory (fun c => f { c with needs := [(1, true, false)] }) with ev := .core i }
    let at_ := fun (c : Core) => (⟨c.g, c.p, c.x, c.xpres, c.w, c.c, c.q, c.v, c.t, c.csr, c.vmem, c.fe, c.latch, c.pend, c.vbusy, c.pc, c.seq⟩ : Ckpt)
    let run := fun (n : Nat) => miss fun c => { c with ahead := some ⟨n, [], []⟩, ckpt := some (at_ c) }
    let some_ := miss fun c => { c with ahead := some ⟨3, [(1, true, false)], []⟩, ckpt := some (at_ c) }
    let w := { memory (fun c => { c with hbmWr := [(0x100, 8)] }) with ev := .coreIdx i 0 }
    ((s (.load 0 63) (.read i .clean)).core? i = some (s (.load 0 63) (.read i .clean)).me ∧
      (s (.load 0 63) (.read i .clean)).me.hbmAcc = ⟨.load 0 63, 0, false⟩ :: [] ∧
      (s (.load 0 63) (.read i .clean)).me.sb = [] ∧ (s (.load 0 63) (.read i .clean)).flaws = []) ∧
    (((s (.load 0 63) (.read i .clean)).serve i.owner (HbmOp.load 0 63).parts false).isSome = true ∧
      ((s (.loadRow [(0, 8)] 0) (.read i .clean)).serve i.owner (HbmOp.loadRow [(0, 8)] 0).parts false).isSome = true ∧
      ((s (.loadX 0 1535 31) (.read i .clean)).serve i.owner (HbmOp.loadX 0 1535 31).parts false).isSome = true ∧
      (owned.serve i.owner (HbmOp.load 0x2000 1).parts false).isSome = true) ∧
    (State.used (s (.load 0 63) (.read i .clean)) 0).serve i.owner (HbmOp.load 0 63).parts false = none ∧
    (w.me.hbmWr[0]? = some (0x100, 8) ∧ (w.serve i.owner [(0x100, 8)] false).isSome = true) ∧
    (State.used w 0x100).serve i.owner [(0x100, 8)] false = none ∧
    (let h := fun (a : HomeAns) => { memory (fun c => { c with homeHeld := some (1, 5) }) with ev := .homeWalk i a }
     ∀ a ∈ [HomeAns.mapped, .missed [63]], (h a).ev = .homeWalk i a ∧ (h a).me.homeHeld = some (1, 5) ∧
       (h a).reaches i.owner 1 = true) ∧
    (let q : HomeReq := ⟨i, 0, 1, 0, .load 0 63, 0⟩
     let h := { memory id with homeOut := [q], ev := .home 0 [1, 0, 0, 0, 0, 0, 0, 0] }
     h.homeOut[0]? = some q ∧ (∀ j < 0, ∀ p, h.homeOut[j]? = some p → p.home ≠ q.home) ∧ h.reaches q.src.owner q.home = true ∧
       ({ h with homeOut := dropAt h.homeOut 0 }.homeOut.any fun r => r.src == q.src && r.seq == q.seq) = false) ∧
    ((s (.loadX 0 1535 31) (.read i .clean)).ev = .read i .clean ∧ owned.frameOwner 0x2000 = some 0 ∧
      (owned.fn 0).ckpt = none) ∧
    ((miss id).ev = .core (miss id).me.id ∧ (miss id).me.needs = (1, true, false) :: [] ∧ (miss id).me.csr.level = 0 ∧
      (miss id).me.asked.contains 1 = false) ∧
    -- the granule of the last batch that the miss needs is outstanding, and answered
    (let l := miss fun c => { c with asked := [1] }
     let o := { l with fns := modAt l.fns 0 fun f => { f with reqs := [⟨7, 1, true, false, 0, true⟩] } }
     (l.me.needs.filter fun n => l.me.asked.contains n.1 && (l.fn l.me.id.owner).requested n.1) = [] ∧
     (o.me.needs.filter fun n => o.me.asked.contains n.1 && (o.fn o.me.id.owner).requested n.1) = [(1, true, false)]) ∧
    (((miss fun c => { c with csr := { c.csr with level := 1 } }).me.csr.level ≠ 0)) ∧
    ((run 256).me.ahead = some ⟨256, [], []⟩ ∧ (run 256).me.ckpt.isSome = true ∧ (run 255).me.ahead = some ⟨255, [], []⟩ ∧
      some_.me.ahead = some ⟨3, [(1, true, false)], []⟩ ∧ some_.me.id.owner < some_.fns.length) ∧
    (let c := miss fun c => { c with answered := [(1, 4)] }
     c.me.needs ≠ [] ∧ ∀ n ∈ c.me.needs, c.me.answered.any (·.1 == n.1) = true) := by
  refine ⟨?_, ⟨open_channel _ _ _ _ (by decide) rfl ?_, open_channel _ _ _ _ (by decide) rfl ?_,
    open_channel _ _ _ _ (by decide) rfl ?_, open_channel _ _ _ _ (by decide) rfl ?_⟩,
    full_channel _ _ _ _ _ (by decide) rfl, ⟨rfl, open_channel _ _ _ _ (by decide) rfl ?_⟩,
    full_channel _ _ _ _ _ (by decide) rfl, ?_, ?_, ?_, ?_, ?_, ?_, ?_, ?_⟩ <;> decide +kernel

/-- Tables of four levels that map the first page. -/
def page0 : Memory :=
  (((Memory.putBytes [] 0x30000 (natBytes 8 0x32003)).putBytes 0x32000 (natBytes 8 0x34003)).putBytes 0x34000
    (natBytes 8 0x36003)).putBytes 0x36000 (natBytes 8 25)

/-- Two functions that hold every frame: function 0 lacks one of its guarantee and has a request,
function 1 holds frame 9, and a checkpoint that has copied the rest. -/
def taken (n : Nat) : State := { State.reset with fns := [{ Fn.reset with guar := 1, reqs := [⟨7, 5, true, false, 0, true⟩] },
  { Fn.reset with frames := [9], ckpt := some ⟨[], [], [], [], [], [], [], [], [], [], ⟨[], [], List.replicate n 0⟩⟩ }] }

theorem taken_frames (n : Nat) (hn : 100663296 ≤ n) : (taken n).freeFrames = 0 := by
  have h : ((taken n).fns.map Fn.held).sum = n + 1 := by
    simp only [taken, Fn.held, Shadow.size, List.map, List.sum_cons, List.sum_nil, Option.map, Option.getD,
      List.length_replicate, List.length_cons, List.length_nil, Fn.reset]
    omega
  unfold State.freeFrames
  omega

theorem met_PageAndFrameEvents :
    let s := fun (f : Fn) (e : EvArg) => { State.reset with fns := setAt State.reset.fns 63 f, ev := e }
    let q := { Fn.reset with reqQueue := [(5, true, false)] }
    let r := { Fn.reset with reqs := [⟨7, 5, true, false, 2 ^ 30 + 1, true⟩], burst := 2 }
    let on := { Fn.reset with prEn := true }
    let low := { Fn.reset with guar := 1, reqs := [⟨7, 5, true, false, 0, true⟩] }
    (63 < State.reset.fns.length ∧ ((s q .none).fn 63).reqQueue = (5, true, false) :: [] ∧ ((s q .none).fn 63).reqs.length < 4 ∧
      ((s q .none).fn 63).reqs.any (·.gran == 5) = false ∧ ((s low .none).fn 63).reqQueue = [] ∧ ([] : List (Nat × Bool × Bool)).any (·.1 == 5) = false) ∧
    (((s on .none).fn 63).prEn = true ∧ (s on .none).linkUp = true ∧ ((s on .none).fn 63).reqQueue = [] ∧ ((s on .none).fn 63).reqs = []) ∧
    ((s r (.tag 63 7)).requestOf 63 7 = some ⟨7, 5, true, false, 2 ^ 30 + 1, true⟩ ∧
      ((s r (.tag 63 7)).fn 63).replyLimit < 2 ^ 30 + 1 ∧ ((s r .none).framesOf 63 5) = []) ∧
    ((1 : BitVec 64).getLsbD 0 = true ∧ 63 ≠ 64 ∧ ((s on (.reg 63 0xE40 1)).fn 63).reqs = [] ∧
      ((s on .none).cores.filter fun c => c.id.owner = 63) = [] ∧ (s on .none).fabricIn = []) ∧
    (let u := s { on with reqs := [⟨7, 5, true, false, 0, false⟩] } .none
     (u.fn 63).prEn = true ∧ u.linkUp = true ∧ (u.fn 63).reqs = [⟨7, 5, true, false, 0, false⟩] ∧
       ∀ q ∈ ((s on .none).fn 63).reqs, q.written = true) ∧
    (((s low (.num 63)).fn 63).frames.length < ((s low (.num 63)).fn 63).guar ∧
      ((s low (.num 63)).fn 63).needsFrame = true ∧ ((s on (.num 63)).fn 63).needsFrame = false ∧
      ((s on (.num 63)).fn 63).guar ≤ ((s on (.num 63)).fn 63).frames.length) ∧
    (let t := { taken 100663296 with ev := .num 0 }
     (t.fn 0).frames.length < (t.fn 0).guar ∧ (t.fn 0).needsFrame = true ∧ t.reclaimed = some 9 ∧ 9 ∈ t.surplus ∧
      ({ t with reclaims := [(9, 9, true)] }.reclaims.find? fun r => r.2.1 == 9 && r.2.2) = some (9, 9, true) ∧
      (t.pf.prEn && t.linkUp) = false ∧ { t with pf := { t.pf with prEn := true } }.pf.prEn = true ∧ t.linkUp = true ∧
      ∀ r ∈ t.reclaims, r.2.2 = true) ∧
    (let c : Core := { Core.fresh ⟨63, 0, 0⟩ with needs := [(5, true, false)] }
     c.bulks = [] ∧ c.waitBack.2.1 = [] ∧ c.needs.any (·.1 == 5) = true ∧ c.answered.any (·.1 == 5) = false) ∧
    -- a leaf that maps granule 0 to frame 0, which the function has not been charged for
    (let u := { s { Fn.reset with ssRoot := 0x30000, burst := 1 } .none with hbm := page0 }
     (u.framesOf 63 0).filter (fun x => !(u.fn 63).frames.contains x) = [0] ∧
      (u.fn 63).held + 1 ≤ max (u.fn 63).burst (u.fn 63).guar ∧
      (let v := { s { Fn.reset with ssRoot := 0x30000, guar := 1 } .none with hbm := page0 }
       (v.framesOf 63 0).filter (fun x => !(v.fn 63).frames.contains x) = [0] ∧
       (v.fn 63).held + 1 ≤ max (v.fn 63).burst (v.fn 63).guar ∧ (v.fn 63).frames.length + 1 ≤ (v.fn 63).guar) ∧
      max ((s on .none).fn 63).burst ((s on .none).fn 63).guar < ((s on .none).fn 63).held + 1 ∧
      ((taken 0).fn 1).guar < ((taken 0).fn 1).frames.length + 1) ∧
    (taken 100663296).freeFrames = 0 := by
  refine ⟨?_, ?_, ?_, ?_, ?_, ?_, ?_, ?_, ?_, taken_frames _ (Nat.le_refl _)⟩ <;> decide +kernel

theorem met_StackAndLaneErrors :
    let x : Burst := ⟨0, 0, false, false, 0, 0⟩
    let spare := { State.reset with spares := [] }
    ({ State.reset with ev := .scrub 0 .double }.ev = .scrub 0 .double) ∧
    (spare.sparesOf x ≠ 0 ∧ x.stack < 12 ∧ x.channel < 32 ∧ burstReal ⟨0, 32, false, false, 0, 0⟩ = false ∧
      burstReal ⟨0, 0, false, false, 0, 0⟩ = true ∧
      { State.reset with spares := [(0, 0)] }.sparesOf x = 0) ∧
    ((two id).allocated ⟨0, 0, 0⟩ .reg 0x10000 = true ∧ (two id).allocated ⟨0, 0, 0⟩ .scratch 0 = false) := by
  refine ⟨?_, ?_, ?_⟩ <;> decide +kernel

/-- A memory core that has moved the 4 bytes of a LOAD or STORE packet. -/
def move (k : BulkKind) (n : Nat) : State := { memory (fun c => { c with bulks := [{ bulkOf k .host (.hbm capAll) 0 with
  beats := [], packet := some (0, 0, 9, 4), held := n }] }) with ev := .packet 0 0 9 }

theorem met_Packets :
    let s := fun (ts : List Taken) (e : EvArg) => { two id with
      fns := [{ Fn.reset with queues := [{ Queue.reset with taken := ts }], sems := [5] }], ev := e }
    let w : Taken := ⟨5, 9, some (0, true, 5), none⟩
    let l : Taken := ⟨1, 9, none, some (0, 0, 0, [])⟩
    (((move .hostLoad 0).moveOf 0 0 9).map (fun x => decide (x.1 = ⟨0, 0, 0x800⟩ ∧ x.2.1 = 0 ∧ x.2.2.kind = .hostLoad ∧
      x.2.2.beats = [] ∧ x.2.2.packet = some (0, 0, 9, 4))) = some true) ∧
    (((move .hostStore (2 ^ 30 + 1)).moveOf 0 0 9).map (fun x => decide (2 ^ 30 < x.2.2.held)) = some true ∧
      (move .hostStore 0).linkUp = true) ∧
    ((s [w] (.packet 0 0 9)).ev = .packet 0 0 9 ∧ w.wait = some (0, true, 5) ∧
      (((s [w] .none).queue 0 0).taken.find? fun t => t.sseq == 9 && t.wait.isSome) = some w ∧
      ((s [w] .none).fn 0).sems.getD 0 0 = 5) ∧
    (((s [⟨7, 9, none, none⟩] .none).queue 0 0).taken = ⟨7, 9, none, none⟩ :: [] ∧ (s [] (.sem 0 0 9 0 1)).ev = .sem 0 0 9 0 1) ∧
    (let t := s [l] (.fq 0 0)
     ((t.queue 0 0).taken.find? fun t => t.launch.isSome) = some l ∧ t.region? 0 (t.queue 0 0).circ = some region0 ∧
      t.phase = .run ∧ region0.launch = none ∧ region0.ending = none ∧ (t.queue 0 0).killing = false) ∧
    (({ region0 with launch := some ⟨0, 0, 0, 0, 0⟩ } : Region).launch.isSome = true) := by
  refine ⟨?_, ?_, ?_, ?_, ?_, ?_⟩ <;> decide +kernel

theorem met_Queues :
    let s := fun (k : Queue) (e : EvArg) => { State.reset with fns := [{ Fn.reset with queues := [k] }], ev := e }
    let live := { Queue.reset with dw0 := 1 }
    let busy := { live with bound := true, prod := 1 }
    let comp := { live with comps := [⟨0, 1, 9, 0⟩] }
    let t : Timer := ⟨true, 5, some 3, 0, 1, 0⟩
    ((s live (.notify 0 0 0xFFFF)).ev = .notify 0 0 0xFFFF ∧ ((s live .none).queue 0 0).dw0.getLsbD 0 = true ∧
      (0xFFFF : BitVec 64).extractLsb' 16 48 = 0 ∧ (0x10000 : BitVec 64).extractLsb' 16 48 ≠ 0 ∧
      ((s Queue.reset .none).queue 0 0).dw0.getLsbD 0 = false) ∧
    (let a := s { live with announced := true } .none
     let l := a.highest (a.queuesWith fun k => k.announced && k.en && !k.killing)
     a.slots.length < 64 ∧
      (weighted (fun f => (a.fn f).share.toNat) a.bindCtr (l.map (·.1)).eraseDups).map (·.1) = some 0 ∧
      roundRobin l 0 (a.fn 0).lastQueue = some 0) ∧
    (let a := s busy .none
     let l := a.highest (a.queuesWith Queue.takeable)
     a.takeWait = 0 ∧ a.linkUp = true ∧
      (weighted (fun f => (a.fn f).share.toNat) a.takeCtr (l.map (·.1)).eraseDups).map (·.1) = some 0 ∧
      roundRobin l 0 (a.fn 0).lastTake = some 0 ∧ a.arrived (a.queue 0 0) = true ∧ (0 : Nat) < 64 ∧
      (s { busy with sseq := 1 } .none).arrived ((s { busy with sseq := 1 } .none).queue 0 0) = false) ∧
    (let i := s { live with bound := true, idle := 4096 } (.fq 0 0)
     i.ev = .fq 0 0 ∧ (i.queue 0 0).bound = true ∧ i.resting 0 (i.queue 0 0) = true ∧ 4096 ≤ (i.queue 0 0).idle) ∧
    (let r := s { busy with rereads := 63 } (.fq 0 0)
     (r.queue 0 0).rereads ≠ 0 ∧ (r.queue 0 0).rereads < 64 ∧ (r.queue 0 0).killing = false ∧
      (r.queue 0 0).rereadAt ≤ r.devtime.toNat ∧ ((s { busy with rereads := 65 } (.fq 0 0)).queue 0 0).rereads = 65) ∧
    (((s comp .none).queue 0 0).comps = ⟨0, 1, 9, 0⟩ :: [] ∧
      ((s comp .none).queue 0 0).ctail - ((s comp .none).queue 0 0).cons ≠ BitVec.ofNat 16 ((s comp .none).queue 0 0).csize ∧
      (let f := (s { comp with ctail := 64 } .none).queue 0 0
       f.ctail - f.cons = BitVec.ofNat 16 f.csize)) ∧
    ((s live (.fq 0 0)).phase = .run ∧ ((s live (.fq 0 0)).fn 0).rollback = false ∧
      { s live (.fq 0 0) with phase := .move }.phase ≠ .run) ∧
    (let x : State := { s live .none with fns := [{ Fn.reset with timers := [t, Timer.reset] }], devtime := 5 }
     (([t, Timer.reset].filter fun y => y.armed && decide (y.time.toNat ≤ x.devtime.toNat)) = [t]) ∧
       ∀ y ∈ [Timer.reset], y.armed = true → x.devtime.toNat < y.time.toNat) ∧
    (t.time.toNat ≤ 5 ∧ t.period = some 3 ∧ (3 : BitVec 64) ≠ 0 ∧ 5 < 2 ^ 63 ∧ (3 : BitVec 64).toNat ≤ 2 ^ 40 ∧
      Timer.reset.armed = false ∧ Timer.reset.period = none) ∧
    (((s live (.reg 0 0x4F8 1)).fn 0).enabled = true ∧ (s live .none).recovery = false ∧ 0x4F8 % 8 = 0 ∧ 0x400 ≤ 0x4F8 ∧
      0x4F8 < 0x500 ∧ (0x2000 : BitVec 64).setWidth 2 = (0 : BitVec 2) ∧ (0x2000 : BitVec 64).extractLsb' 52 12 = 0 ∧
      (0x2000 : BitVec 64).extractLsb' 2 11 = 0 ∧ ((7 * 2 ^ 32 : Nat) : BitVec 64).extractLsb' 1 31 = 0) := by
  refine ⟨?_, ?_, ?_, ?_, ?_, ?_, ?_, ?_, ?_, ?_⟩ <;> decide +kernel

/-- Function 0 of `memory` with its mint busy and object 0 in its window. -/
def minting (e : EvArg) : State :=
  let s := memory id
  { s with fns := modAt s.fns 0 (fun f => { f with mintBusy := true, window := some 0 }), ev := e }
theorem met_MintAndWindow :
    let r : MintCreate := ⟨2, 0, 0x2000, 0x400000, false, 0, 15, false⟩
    let s := { minting (.create 0 r) with fns := modAt (minting .none).fns 0 fun f => { f with objCount := 3 } }
    let u := { State.reset with fns := [{ Fn.reset with mintBusy := true, ssRoot := 0x10000, inval := some (3, 0) }], hbm := tables }
    ((s.fn 0).mintBusy = true ∧ s.recovery = false ∧ s.ev = .create 0 r ∧ r.window = false ∧
      (s.mintEntry 0 r.obj.toNat 0 (newEntry r.kind.toNat r.circ r.length.toNat r.root.toNat)).isSome = true) ∧
    ((s.mintEntry 0 0 1 0).isSome = true ∧ (s.entryOf 0 0).map objState = some 1 ∧ (s.entryOf 0 1).map objState = some 2 ∧
      (s.entryOf 0 r.obj.toNat).map objState = some 0 ∧ (s.mintEntry 0 r.obj.toNat 0 (newEntry 0 true 4096 0x100000)).isSome = true) ∧
    (s.pf.inval = none ∧ (0 : Nat) ≠ 64 ∧ 2 ^ 36 ≤ (0x1000000000 : BitVec 64).toNat) ∧
    ((0xFFFF : BitVec 17).toNat ≤ 65535 ∧ (s.fn 0).inval = none ∧ 0 < s.fns.length ∧ (u.fn 0).inval = some (3, 0) ∧
      (u.cores.filter fun c => c.id.owner = 0) = [] ∧ u.entryAt 0 3 = some 192) ∧
    ((s.fn 0).window = some 0 ∧ (s.reach 0 0 0xFF8 8 true false).1 = .ok [(0x100FF8, 8)] ∧
      (s.reach 0 0 0xFF8 8 false true).1 = .ok [(0x100FF8, 8)] ∧ (u.fn 0).window = none ∧ s.flaws = []) ∧
    ((s.serve 0 [(0x100FF8, 8)] false).isSome = true ∧ (State.used s 0x100FF8).serve 0 [(0x100FF8, 8)] false = none) := by
  refine ⟨?_, ?_, ?_, ?_, ?_, open_channel _ _ _ _ (by decide) rfl ?_, full_channel _ _ _ _ _ (by decide) rfl⟩ <;>
    decide +kernel

theorem met_LinkEvents :
    let s := State.reset
    let down := { s with linkUp := false, linkDownFor := 2 ^ 34 + 1 }
    let x : FabricReq := ⟨1, 0, 0, 0, 0xFF8, 8, .read, [], []⟩
    let t := { memory id with ev := .fabric x, fabricIn := [x] }
    let fn := t.fn 0
    let acc := (⟨t.hbm, [], []⟩ : Mmu).access ⟨fn.objBase, fn.objCount, fn.ssRoot, 0, []⟩ 0 0xFF8 8 true false
    let far := { memory id with hbm := Memory.putBytes tables 0x100 (natBytes 64 0), fns := [{ fn with ssRoot := 0x10000 }] }
    (16 ∈ [16, 8, 4] ∧ 8 ≤ s.linkWidth ∧ 64 ∈ [128, 64, 32] ∧ 64 ≤ s.linkSpeed ∧ s.linkUp = true ∧ s.recovery = false) ∧
    (down.linkUp = false ∧ down.linkLimit < down.linkDownFor ∧ (∀ f ∈ down.fns, f.reqs = []) ∧ (∀ r ∈ down.reclaims, r.2.2 = true) ∧
      { s with recovery := true }.recovery = true) ∧
    ((({ s with ev := .lanes 47 8 }.ports[47]?).bind (·[3]?)) = some (⟨true, none⟩ : Lane) ∧ s.resends[47]? = some 0 ∧
      { s with resends := List.replicate 48 8 }.resends[47]? = some 8) ∧
    ((s.fn 0).privileged = false ∧ (({ s with fns := modAt s.fns 0 fun f => { f with privileged := true } }.fn 0).privileged = true) ∧
      ([some 0, none, none, none] : List (Option Nat)).length = 4) ∧
    (t.ev = .fabric x ∧ settle [] acc.1 = .ok [(0x100FF8, 8)] ∧ x.bytes = 8 ∧ x.rights = (true, false) ∧
      t.flaws = [] ∧ t.fabricIn[0]? = some x) ∧
    ((t.serve 0 [(0x100FF8, 8)] false).isSome = true ∧ (t.serve 0 [(0x100FF8, 8)] true).isSome = true) ∧
    (([x, x].take 1).any (fun y => y.src == x.src) = true ∧ ([x].take 0).any (fun y => y.src == x.src) = false) ∧
    (let q : HomeReq := ⟨⟨0, 0, 0x800⟩, 0, 1, 0, .load 0 63, 2 ^ 28⟩
     { s with homeOut := [q] }.homeOut[0]? = some q ∧ 2 ^ 28 ≤ q.held) ∧
    (settle [] ((⟨Memory.putBytes far.hbm 0x20000 (natBytes 8 0), [], []⟩ : Mmu).access
      ⟨0, 2, 0x10000, 0, []⟩ 0 0 8 true false).1 = .misses [(0, true, false)]) ∧
    (let h := { s with me := { Core.fresh ⟨0, 0, 0x800⟩ with homeHeld := some (1, 2 ^ 28) }, ev := .core ⟨0, 0, 0x800⟩ }
     h.core? ⟨0, 0, 0x800⟩ = some h.me ∧ 2 ^ 28 ≤ (h.me.homeHeld.map (·.2)).getD 0) ∧
    (let b := { bulkOf .hship (.hbm capAll) (.scratch 0) 0 with held := 2 ^ 28 }
     let h := { memory (fun c => { c with bulks := [b] }) with ev := .coreIdx ⟨0, 0, 0x800⟩ 0 }
     h.core? ⟨0, 0, 0x800⟩ = some h.me ∧ h.me.bulks[0]? = some b ∧ b.packet = none) := by
  refine ⟨?_, ?_, ?_, ?_, ?_, ⟨open_channel _ _ _ _ (by decide) rfl ?_, open_channel _ _ _ _ (by decide) rfl ?_⟩,
    ?_, ?_, ?_, ?_, ?_⟩ <;> decide +kernel

/-- Object 0 holds a kicked command: all-reduce of 256 bytes of `i32` between modules 0 and 1. -/
def kicked (e : EvArg) (k : Hart) : State := { memory id with
  hbm := Memory.putBytes (Memory.putBytes tables 0x100000 ([0x00580002_00000007, 0x100, 0x200, 256, 0x60, 0, 0, 0, 7].flatMap
    (natBytes 8 ·))) 0x100060 [0, 0, 1, 0], harts := [k], ev := e }
theorem met_Collectives :
    let idle : Hart := ⟨0, 0, 0, false, false, 0, 0, false⟩
    let e := fun (peers : List (List Byte)) (r : BitVec 8) => EvArg.hart 0 0 0 peers r
    let s := kicked (e [] 0) idle
    let b := kicked (e [List.replicate 256 1] 0) { idle with busy := true, seq := 7 }
    (s.harts[0]? = some idle ∧ (s.collective 0 0).map (fun c => (c.kick, c.seq, c.done, c.p, c.group)) = some (7, 7, 0, 2, [0, 1]) ∧
      (∀ j ∈ s.harts, j.serves 0 0 = false) ∧ ({ idle with waits := true } : Hart).serves 0 0 = true ∧
      s.ownerRuns 0 = true) ∧
    ((({ idle with waits := true } : Hart).waits = true ∧ idle.busy = false)) ∧
    (b.harts[0]? = some { idle with busy := true, seq := 7 } ∧
      ((b.collective 0 0).bind fun c => b.readObj 0 0 c.src c.given).isSome = true ∧ b.flaws = []) ∧
    ((b.collective 0 0).map (fun c => (c.dst, c.group.idxOf b.fabricId, c.ownAt 0 0)) = some (0x200, 0, some 0x100)) ∧
    ((b.serve 0 (b.hartParts { idle with busy := true, seq := 7 } 0x200 false true ++
      b.hartParts { idle with busy := true, seq := 7 } 0x100 true false) false).isSome = true) ∧
    ((kicked (e [] 0) { idle with waits := true, waited := 2 ^ 30 + 1 }).fn 0).rdvLimit < 2 ^ 30 + 1 ∧
    (((b.writeObj 0 0 0x50 (natBytes 8 0)).bind fun u => u.writeObj 0 0 0x48 (natBytes 4 7)).isSome = true) := by
  refine ⟨?_, ?_, ?_, ?_, open_channel _ _ _ _ (by decide +kernel) rfl ?_, ?_, ?_⟩ <;> decide +kernel

theorem met_FirmwareEvents :
    let s := fun (p : Plugin → Plugin) (e : EvArg) => { State.reset with
      fns := [{ Fn.reset with plugin := p { Fn.reset.plugin with loaded := true } }], ev := e }
    let acc : Nat × Nat × Bool := (0x1000, 8, true)
    let at_ := fun (n : Nat) (p : Plugin) => { p with called := some (2, n) }
    ((s id (.call 0 2)).ev = .call 0 2 ∧ ((s id .none).fn 0).plugin.loaded = true ∧ ((s id .none).fn 0).plugin.stopped = false ∧
      ((s id .none).fn 0).plugin.called = none ∧ (∀ g ∈ (s id .none).fns, g.plugin.called.map (·.1) ≠ some 2) ∧
      Fn.reset.plugin.loaded = false ∧ 2 < 4 ∧ 15 < 16) ∧
    (((s (at_ (2 ^ 16)) .none).fn 0).plugin.called = some (2, 2 ^ 16) ∧ ((s (at_ 0) .none).fn 0).plugin.breach = false ∧
      ((s (at_ (2 ^ 16 + 1)) .none).fn 0).plugin.called = some (2, 2 ^ 16 + 1) ∧
      ((s (fun p => { p with breach := true }) .none).fn 0).plugin.breach = true) ∧
    ({ State.reset with regionRegs := State.reset.regionRegs.take 32 ++ [0x1033] ++ State.reset.regionRegs.drop 33 }.permitted 2
        acc.1 acc.2.1 acc.2.2 = true ∧ State.reset.permitted 2 acc.1 acc.2.1 acc.2.2 = false) ∧
    (0 < State.reset.fns.length ∧ (State.reset.fn 0).queues.length = 32 ∧ State.reset.phase = .run ∧
      (State.reset.fn 0).rollback = false) ∧
    (let i : Image := ⟨true, true, 0, 0, some 5⟩
     let j : Image := ⟨true, true, 3, 4, some 5⟩
     i.ecdsaOk = true ∧ i.lmsOk = true ∧ i.digest = some 5 ∧ (i.ecdsaKey = State.reset.fuses.1 ∧ i.lmsKey = State.reset.fuses.2) ∧
       { State.reset with operatorKey := some (3, 4) }.operatorKey = some (j.ecdsaKey, j.lmsKey) ∧
       j.ecdsaKey ≠ State.reset.fuses.1 ∧ State.reset.operatorKey ≠ some (j.ecdsaKey, j.lmsKey) ∧
       Image.accepted i State.reset.fuses = true) ∧
    ((431 : BitVec 9).toNat < 432 ∧ 432 ≤ (432 : BitVec 9).toNat) ∧
    (State.reset.lms < 2 ^ 20 ∧ 2 ^ 20 ≤ { State.reset with lms := 2 ^ 20 }.lms) := by
  refine ⟨?_, ?_, ?_, ?_, ?_, ?_, ?_⟩ <;> decide +kernel

theorem met_IntegerNarrowing :
    (fmtOf .n4 = none ∧ fmtOf .i64 = none ∧ widthOf .n4 < widthOf .i64 ∧ 2 ^ 64 - 1 < 2 ^ widthOf .i64) ∧
    fmtOf .i32 = none ∧ fmtOf .n64 = none ∧ widthOf .i32 < widthOf .n64 := by decide +kernel

theorem met_CountUnderflow :
    let s := two fun c => { c with deferred := [.underflow 0 5] }
    ((Core.fresh ⟨0, 0, 1⟩).scr.nat (64 * ((0x8000 : BitVec 64).extractLsb' 16 13).toNat + 2) 2 = 0 ∧
      (0x8000 : BitVec 64).getLsbD 15 = true) ∧
    ((Core.fresh ⟨0, 0, 1⟩).deferred = [] ∧ Deferred.underflow 0 5 ∈ s.me.deferred) ∧
    (s.agenda = [] ∧ s.hwErrors = [] ∧ s.me.done = false ∧ s.mayIssue s.me = true ∧ s.me.running ≠ none ∧ s.me.onTask = false ∧
      s.me.bubble = 0 ∧ s.me.ahead = none ∧ s.me.onLatch = false ∧ s.me.owesRemote = false ∧ s.me.trapDue = none ∧ s.me.pend = [] ∧
      s.me.csr.level = 0 ∧ s.me.deferred = [.underflow 0 5]) := by
  refine ⟨?_, ?_, ?_⟩ <;> decide +kernel

theorem met_RoundTrip :
    (Instr.wf (.add 63 0 63) = true ∧ (encode (.add 63 0 63)).isSome = true) ∧
    Instr.wf (.hldX 0 15 63 .acq) = true ∧ (encode (.hldX 0 15 63 .acq)).isSome = true := by decide +kernel

/-- `add g11, g3, g4` at the pc, a read of `epc` at level 0, and an operand that is awaited. -/
theorem met_StepRunsDecoded :
    let s := fun (w : Nat) (f : Core → Core) => State.onMe (State.reset.withFetchWord 32 w) f
    let held := fun (s : State) (w : IWord) => s.onMe fun c => { c.keep c.pc [w] with
      issue := { Issue.idle with fst := s.me.pc, nxt := s.me.pc + 4, commit := false } }
    let status := fun (r : Host.Outcome State Fault Refusal) => match r with | .next t => some t.me.issue.status | _ => none
    let a := s 0x80586200 id
    let owed := s 0x80586200 fun c => { c with outs := [⟨.load, 3, 0, some (.core 1), false, false, 0, 0⟩] }
    let epc := (encode (.csrr 5 .epc)).map fun w => w ||| 0x80000000
    (a.agenda = [] ∧ a.hwErrors = [] ∧ a.me.done = false ∧ a.me.onLatch = false ∧ a.me.onTask = false ∧ a.mayIssue a.me = true ∧
      a.me.running.isSome = true ∧ a.me.bubble = 0 ∧ a.me.ahead = none ∧ a.me.deferred = [] ∧ a.me.trapDue = none ∧ a.me.needs = [] ∧
      a.me.atBarrier = none ∧ a.me.csr.ocmp.getLsbD 63 = false ∧ a.me.blk = false) ∧
    (a.wordAt a.me.pc = 0x80586200 ∧ eBit 0x80586200 = true ∧ a.me.pc + 4 ≤ a.me.fetchEnd ∧ slotOf 0x80586200 ≠ .h ∧
      decode a.me.isMem 0x80586200 = .ok (.add 11 3 4)) ∧
    status (exec (.add 11 3 4) (held a 0x80586200)) = some .ready ∧
    (status (exec (.add 11 3 4) (held owed 0x80586200)) = some .operand ∧
      status (exec (.add 11 3 4) ((held owed 0x80586200).onMe fun c => { c with pend := [], vbusy := 0 })) = some .operand) ∧
    (let t := held (s 0x80586200 id) 0x80586200
     (match exec (.wait 0) { t with me := t.me.setCell 0 1 } with
      | .next u => decide (u.me.issue.status = .waiting ∧ u.me.issue.keep = false) | _ => false) = true ∧
     status (exec (.wait 0) { t with me := { t.me.setCell 0 1 with pend := [], vbusy := 0 } }) = some .waiting) ∧
    (match exec (.add 11 3 4) { held a 0x80586200 with me := { (held a 0x80586200).me with
        issue := { (held a 0x80586200).me.issue with commit := true } } } with
      | .next u => decide (u.me.issue.status = .ready ∧ u.me.ahead = none ∧ u.me.sb.length ≤ 32 ∧
          (u.me.outs.filter fun o => o.kind = .load ∨ o.kind = .atomic).length ≤ 16) | _ => false) = true ∧
    (epc.map fun w => (decode false w, status (exec (.csrr 5 .epc) (held (s w.toNat id) w)))) =
      some (.ok (.csrr 5 .epc), some .trapped) := by
  refine ⟨?_, ?_, ?_, ?_, ?_, ?_, ?_⟩ <;> decide +kernel

theorem met_StepKeepsBounds :
    State.reset.bounded ∧ (match step State.reset with | .next _ => true | _ => false) = true := by
  refine ⟨?_, by decide +kernel⟩
  simp only [State.bounded]; decide +kernel

/-! ## Well-formedness: one ill-formed term for each check -/

theorem test_wf_tidq : Instr.wf (.tidq 0 0 12) = false := by decide
theorem test_wf_mmul : Instr.wf (.mmul 0 0 0 false false false false false false false 1) = false := by decide
theorem test_wf_mmsp : Instr.wf (.mmsp 0 0 0 false false false false false false false 1) = false := by decide
theorem test_wf_hld : Instr.wf (.hld 0 0 0 .rel) = false := by decide
theorem test_wf_hldX : Instr.wf (.hldX 0 0 0 .rel) = false := by decide
theorem test_wf_hst : Instr.wf (.hst 0 0 0 .acq) = false := by decide
theorem test_wf_vview : Instr.wf (.vviewImage 8 0 .m) = false := by decide
theorem test_wf_cmov : Instr.wf (.cmovRemote 0 0 0) = false := by decide

/-! ## Decoding: words that spec/ writes out beside their assembly -/

-- 06_encoding.md R151, R157
theorem test_decode_integer : decode false 0x80586200 = .ok (.add 11 3 4) ∧
    decode false 0x7C000012 = .ok (.hwimm 0x12) ∧ decode false 0x8458068A = .ok (.addi 11 0 0x345) := by decide
-- 07_scalar_control.md R167 to R181
theorem test_decode_control : decode false 0x8C88A014 = .ok (.pcmpi .lt 1 5 10) ∧
    decode false 0x9C4FFFFD = .ok (.bp 1 0x7FFFD) ∧ decode false 0x9E01A00C = .ok (.loop 13 6) ∧
    decode false 0x82000008 = .ok .tret ∧ decode false 0x82000009 = .ok .wfe := by decide
-- 08_storage_sync.md R184 to R206
theorem test_decode_memory : decode false 0xA4580086 = .ok (.std 11 0 0x10) ∧
    decode false 0xA0A12014 = .ok (.ldw 20 9 2) ∧ decode false 0xA6ABC004 = .ok (.stwRel 21 30 0) ∧
    decode false 0xF2A18681 = .ok (.aadd 20 12 13 .acq) ∧ decode false 0xA8A16006 = .ok (.ldfe 20 11 0) := by decide
theorem test_decode_sync : decode false 0x94001E04 = .ok (.fence 0xF .position) ∧
    decode false 0x96180800 = .ok (.cset 3 0 1024) ∧ decode false 0x98180000 = .ok (.wait 3) ∧
    decode false 0xF462801C = .ok (.xput 12 20 7) ∧ decode false 0x82A0E010 = .ok (.xtake 20 7) := by decide
-- 09_tasks_compose.md R221 to R230
theorem test_decode_tasks : decode false 0xF4C28001 = .ok (.amsg 24 20) ∧ decode false 0xF6C28004 = .ok (.tspawn 24 20) ∧
    decode false 0xF6000010 = .ok .tend := by decide
theorem test_decode_compose : decode false 0xF8598002 = .ok (.cmpo 11 12 .four) ∧
    decode false 0xF8000004 = .ok .cmpr ∧ decode false 0xF8580008 = .ok (.cmpq 11) ∧
    decode true 0xF8000004 = .bad .wrongCore := by decide
-- 10_vector.md R240 to R255
theorem test_decode_vector : decode false 0xDC623F00 = .ok (.vmulImm 6 0x3F00) ∧
    decode false 0xD0209010 = .ok (.vcvt 2 1 .e4m3 .f32 (some .rsr) false) ∧ decode false 0x54208002 = .ok (.vrmax 2 1 .f32) ∧
    decode false 0xD4520000 = .ok (.vrsum 5 4 .f32) := by decide
theorem test_decode_views : decode false 0xDC0C0030 = .ok (.vshape 3 0) ∧
    decode false 0xDA15B001 = .ok (.vview 1 11 12 .f32) := by decide
-- 11_matrix.md R258 to R271
theorem test_decode_matrix : decode false 0xE6032C00 = .ok (.tidset 3 11) ∧ decode false 0xE6032D02 = .ok (.tidq 3 11 2) ∧
    decode false 0xE40000FF = .ok (.mgang 0xFF) ∧
    decode false 0xE0420D49 = .ok (.mmul 1 2 3 false true false true false false true 1) ∧
    decode false 0xE4400100 = .ok (.mzero 1) ∧ decode false 0xE4800200 = .ok (.mfade 2) ∧
    decode false 0xE84403DC = .ok (.mdrain 1 4 30 none false) := by decide
-- 12_memory_core.md R280, 23_faults_memory.md
theorem test_decode_hbm : decode true 0xFAA02584 = .ok (.hld 20 1 11 .acq) ∧ decode true 0xFAA82598 = .ok (.hst 21 1 11 .rel) ∧
    decode true 0xFAA02580 = .ok (.hld 20 1 11 .none) ∧ decode true 0xFA182070 = .ok (.hldX 3 1 0 .none) ∧
    decode false 0xFAA02580 = .bad .wrongCore := by decide

/-! ## Worked examples of spec/ and results that its rules give, one step each -/

/-- What the core in turn owes after a step. -/
def owes (r : Host.Outcome State Fault Refusal) : Option (List Pend) := match r with | .next t => some t.me.pend | _ => none

/-- A result of a step. -/
def after {α : Type} (r : Host.Outcome State Fault Refusal) (f : State → α) : Option α :=
  match r with | .next t => some (f t) | _ => none

-- 07_scalar_control.md R163: −1 × 2, both ways
theorem test_mulh : let s := one fun c => Core.gs c [(1, 0xFFFFFFFFFFFFFFFF), (2, 2)]
    owes (exec (.mulh 3 1 2) s) = some [⟨.g 3 0xFFFFFFFFFFFFFFFF, 3⟩] ∧
    owes (exec (.mulhn 3 1 2) s) = some [⟨.g 3 1, 3⟩] := by decide +kernel
-- R165: pos 4, w 8
theorem test_fields : let s := one fun c => Core.gs c [(1, 0xABCD), (2, 0x0704), (3, 0x5A), (4, 0xFFFF)]
    owes (exec (.bext 5 1 2) s) = some [⟨.g 5 0xBC, 1⟩] ∧
    owes (exec (.bins 4 3 2) s) = some [⟨.g 4 0xF5AF, 1⟩] := by decide +kernel
-- R151: the example's immediate 0x12345
theorem test_addi_wide : owes (exec (.addi 11 0 0x345) (held { Issue.idle with hw := [0x12] } id)) =
    some [⟨.g 11 0x12345, 1⟩] := by decide +kernel
-- R164: a zero divisor, and the most negative value divided by −1
theorem test_division : let s := one fun c => Core.gs c [(1, 0x8000000000000000), (2, 0xFFFFFFFFFFFFFFFF)]
    after (exec (.div 3 1 0) s) (fun t => t.me.outs.map (·.v)) = some [0xFFFFFFFFFFFFFFFF] ∧
    after (exec (.rem 3 1 0) s) (fun t => t.me.outs.map (·.v)) = some [0x8000000000000000] ∧
    after (exec (.div 3 1 2) s) (fun t => t.me.outs.map (·.v)) = some [0x8000000000000000] ∧
    after (exec (.rem 3 1 2) s) (fun t => t.me.outs.map (·.v)) = some [0] := by decide +kernel
-- R175, R177: class 0x01 at base 0x6A × 4 KiB, with its code in ecause[27:16]
theorem test_trap : after (exec (.trap 0xABC) (held { Issue.idle with nxt := 8 } id))
    (fun t => (t.me.pc, t.me.csr.ecause, t.me.csr.epc, t.me.csr.level)) = some (0x6A040, 0x0ABC0001, 2, 1) := by decide +kernel
-- 08_storage_sync.md R184: bytes in little-endian order, sign- and zero-extended
theorem test_loads : let s := one fun c => { c with scr := c.scr.putBytes 8 [0x80, 0xFF] }
    owes (exec (.ldb 3 0 8) s) = some [⟨.g 3 0xFFFFFFFFFFFFFF80, 4⟩] ∧
    owes (exec (.ldhn 3 0 4) s) = some [⟨.g 3 0xFF80, 4⟩] := by decide +kernel
-- R186: a load finds the youngest buffered store before scratch
theorem test_forward : let s := one fun c => { c with scr := c.scr.putBytes 0 [1], sb := [⟨.scr 0 [2], false, 0, false, 0⟩,
      ⟨.scr 0 [3], false, 1, false, 0⟩] }
    owes (exec (.ldbn 3 0 0) s) = some [⟨.g 3 3, 4⟩] := by decide +kernel
-- 10_vector.md R238: vadd.e4m3 of 448 and 16, and of 448 and 32
theorem test_narrow_add : elemAdd ⟨.rne, 0, false⟩ .e4m3 0x7E 0x58 = (0x7E, nx) ∧
    elemAdd ⟨.rne, 0, false⟩ .e4m3 0x7E 0x60 = (0x7E, of_ ||| nx) := by decide +kernel
-- R97: 1 + 2^-24 is a tie between 1 and the next value
theorem test_rounding : elemAdd ⟨.rne, 0, false⟩ .f32 0x3F800000 0x33800000 = (0x3F800000, nx) ∧
    elemAdd ⟨.rup, 0, false⟩ .f32 0x3F800000 0x33800000 = (0x3F800001, nx) := by decide +kernel
-- R98, R99: lc 0 with srseed and srcnt at 0 turns 1.0625 into 1.125
theorem test_stochastic : let s := one id
    convertElem ⟨.rsr, s.drawAt 0, false⟩ false .e4m3 .f32 0x3F880000 = (0x39, nx) := by decide +kernel
-- R103: immediate 0x3FC0 is 1.5, 0x7F80 infinity, 448 for e4m3, 6 for e2m1
theorem test_immediate : vectorImm false .f32 false 0x3FC0 = 0x3FC00000 ∧ vectorImm false .f32 false 0x7F80 = 0x7F800000 ∧
    vectorImm false .e4m3 false 0x7F80 = 0x7E ∧ vectorImm false .e2m1 false 0x7F80 = 7 := by decide +kernel
-- R105: code 0b0101 with block scale 0x90 is 9 (the band scale of the example is 0.5)
theorem test_dequantise : dequantElem fmt32 0x90 5 = (0x41100000, 0) := by decide +kernel
-- R252: the block 3, −1, 0.75, 0, … has scale code 0x40, and its elements are exact
theorem test_quantise : let l := [0x40400000, 0xBF800000, 0x3F400000, 0, 0, 0, 0, 0].map fmt32.decode
    blockCode l = 0x40 ∧
    (l.take 4).map (quantElem 0x40 ⟨.rne, 0, false⟩) = [(7, 0), (12, 0), (3, 0), (0, 0)] := by decide +kernel
-- R112: mult 2^30, s 36, zo 128 to n8
theorem test_requantise : [1000, -1000, -32, 20000].map (fun acc => requant false 8 acc (2 ^ 30) 36 128) =
    [144, 112, 128, 255] := by decide +kernel
-- 02_execution_model.md: with E at 8 MiB the move takes 53,248 cc
theorem test_move : let s := two fun c => { c with csr := { c.csr with bankext := 8 } }
    after (exec .turnMove { s with phase := .drain }) (fun t => t.moveFor) = some 53248 := by decide +kernel
-- 14_scheduling.md R312: shares 3 and 1, both with demand, in the order 2, 2, 9, 2
theorem test_shares : let share := fun o => if o = 2 then 3 else 1
    let turn := fun (l : List (Nat × Int)) => (weighted share l [2, 9]).getD (0, [])
    let a := turn []
    let b := turn a.2
    let c := turn b.2
    let d := turn c.2
    [a.1, b.1, c.1, d.1] = [2, 2, 9, 2] ∧ (d.2.map (·.2)) = [0, 0] := by decide +kernel
-- R323: armed at 10,000 with period 1,000, handled at 13,400
theorem test_timer : let t : Timer := ⟨true, 10000, some 1000, 0, 1, 0⟩
    ((t.fire 13400).time, (t.fire 13400).miss) = (14000, 3) ∧ (t.fire 10600).time = 11000 := by decide +kernel
-- 22_faults_machinery.md R393: gang 0x03 with A of e4m3 at core 0 and of e5m2 at core 1
theorem test_mismatch : let p := fun (t : EType) => { waitingFor 3 with ta := tensor t 0 0 1 12 64 0x8000 0 }
    let s := { two (fun c => { c with atBarrier := some (p .e4m3) }) with
      others := [{ Core.fresh ⟨0, 0, 1⟩ with running := some 0, atBarrier := some (p .e5m2) }], ev := .col ⟨0, 0, 0⟩ }
    after (exec .gangMismatch s) (fun t => t.cores.map fun c => (c.csr.einfo, c.csr.ecause)) =
      some [(0x01030300, 0x0C000022), (0x00030300, 0x0C000022)] := by decide +kernel
-- R163, R371: reading epc at level 0 enters class 0x13 in front of the packet
theorem test_csr_level : after (exec (.csrr 5 .epc) (one id)) (fun t => (t.me.pc, t.me.csr.level)) =
    some (0x6A000 + 64 * 0x13, 1) := by decide +kernel
-- R135, R160: a landed write, and g0
theorem test_landing : ((one id).me.apply (.g 3 7)).gr 3 = 7 ∧ ((one id).me.apply (.g 0 7)).gr 0 = 0 := by decide +kernel
-- 08_storage_sync.md R192: afadd of 1 and 2, and of infinity and −infinity
theorem test_afadd : atomNew .fadd 0x3F800000 0x40000000 0 = 0x40400000 ∧
    atomNew .fadd 0x7F800000 0xFF800000 0 = 0x7FC00000 := by decide +kernel

end Sys2Proof.Tests
end

section
/-! The codes of integer types, and the conversion between two integer types
(04_number_formats.md R85, R102). A code and the value it stands for determine each other within
a type's range; the rest is what clamping does to a value. -/

namespace Sys2Proof.Machine

open Sys2Proof

theorem widthOf_pos (t : EType) : 0 < widthOf t := by cases t <;> decide

/-! ## Codes and values -/

theorem codeOf_lt (w : Nat) (v : Int) : codeOf w v < 2 ^ w := by
  have hpos : 0 < 2 ^ w := Nat.two_pow_pos w
  unfold codeOf
  omega

theorem codeOf_of_nonneg {w : Nat} {v : Int} (h0 : 0 ≤ v) (hv : v < (2 ^ w : Nat)) : codeOf w v = v.toNat := by
  rw [codeOf, Int.emod_eq_of_lt h0 hv]

theorem codeOf_of_neg {w : Nat} {v : Int} (h0 : v < 0) (hv : -(2 ^ w : Nat) ≤ v) :
    codeOf w v = (v + (2 ^ w : Nat)).toNat := by
  rw [codeOf, ← Int.add_emod_right, Int.emod_eq_of_lt (by omega) (by omega)]

theorem codeOf_natCast (w x : Nat) : codeOf w x = x % 2 ^ w := by
  rw [codeOf, ← Int.natCast_emod, Int.toNat_natCast]

theorem intOf_of_lt (sg : Bool) {w v : Nat} (hv : v < 2 ^ w) :
    intOf sg w v = if sg = true ∧ 2 ^ (w - 1) ≤ v then (v : Int) - 2 ^ w else v := by
  rw [intOf, Nat.mod_eq_of_lt hv]

/-- The two readings of a code differ by a multiple of 2^m, so its low bits are those of either. -/
theorem codeOf_intOf (sg : Bool) {w m x : Nat} (hw : w ≤ m) (hx : x < 2 ^ m) : codeOf w (intOf sg m x) = x % 2 ^ w := by
  have hdvd : ((2 ^ w : Nat) : Int) ∣ 2 ^ m := by exact_mod_cast Nat.pow_dvd_pow 2 hw
  rw [intOf_of_lt sg hx, ← codeOf_natCast]
  split
  · rw [codeOf, codeOf, Int.sub_emod, Int.emod_eq_zero_of_dvd hdvd, Int.sub_zero, Int.emod_emod]
  · rfl

theorem intOf_codeOf {sg : Bool} {w : Nat} {v : Int} (hw : 0 < w) (hlo : lowest sg w ≤ v) (hhi : v ≤ highest sg w) :
    intOf sg w (codeOf w v) = v := by
  have hhalf : 2 ^ w = 2 * 2 ^ (w - 1) := by rw [← Nat.pow_succ', Nat.succ_eq_add_one, Nat.sub_add_cancel hw]
  have hcast : (2 : Int) ^ w = (2 ^ w : Nat) := by push_cast; rfl
  rw [intOf_of_lt sg (codeOf_lt w v), hcast]
  cases sg with
  | false =>
    simp only [lowest, highest, Bool.false_eq_true, if_false, false_and] at hlo hhi ⊢
    rw [codeOf_of_nonneg hlo (by omega)]
    omega
  | true =>
    simp only [lowest, highest, if_true, true_and] at hlo hhi ⊢
    rcases lt_or_ge v 0 with hneg | hnonneg
    · rw [codeOf_of_neg hneg (by omega), if_pos (by omega)]
      omega
    · rw [codeOf_of_nonneg hnonneg (by omega), if_neg (by omega)]
      omega

/-! ## Clamping -/

theorem lowest_le_highest (sg : Bool) (w : Nat) : lowest sg w ≤ highest sg w := by
  have hhalf : 0 < 2 ^ (w - 1) := Nat.two_pow_pos _
  have hfull : 0 < 2 ^ w := Nat.two_pow_pos _
  unfold lowest highest
  cases sg <;> simp only [Bool.false_eq_true, if_false, if_true] <;> omega

theorem lowest_le_clampInt (sg : Bool) (w : Nat) (v : Int) : lowest sg w ≤ clampInt sg w v := le_max_left _ _

theorem clampInt_le_highest (sg : Bool) (w : Nat) (v : Int) : clampInt sg w v ≤ highest sg w :=
  max_le (lowest_le_highest sg w) (min_le_left _ _)

theorem clampInt_eq_ite (sg : Bool) (w : Nat) (v : Int) :
    clampInt sg w v = if v < lowest sg w then lowest sg w else if highest sg w < v then highest sg w else v := by
  have hle := lowest_le_highest sg w
  unfold clampInt
  split_ifs <;> omega

/-! ## The conversion -/

theorem convertElem_integer {t u : EType} (q : Rnd) (sat : Bool) (x : Nat) (ht : fmtOf t = none) (hu : fmtOf u = none) :
    convertElem q sat t u x =
      (codeOf (widthOf t) (if sat then clampInt (isSigned t) (widthOf t) (intOf (isSigned u) (widthOf u) x)
        else intOf (isSigned u) (widthOf u) x), 0) := by
  unfold convertElem
  rw [ht, hu]

end Sys2Proof.Machine

namespace Sys2Proof.Proofs

open Sys2Proof Sys2Proof.Machine

/-- Settles O53: the clamped value lies in the target's range, where a code reads back as its value;
and the target's width divides the source's modulus, so the low bits of value and code agree. -/
theorem integerNarrowing : Obligations.IntegerNarrowing := by
  intro q t u x ht hu hw hx w v lo hi
  have hv : intOf (isSigned u) (widthOf u) x = v := intOf_of_lt (isSigned u) hx
  have hlo : lowest (isSigned t) w = lo := by simp [lowest, lo]
  have hhi : highest (isSigned t) w = hi := by simp [highest, hi]
  constructor
  · refine ⟨codeOf w (clampInt (isSigned t) w v), codeOf_lt w _, ?_, ?_⟩
    · rw [convertElem_integer q true x ht hu, hv, if_pos rfl]
    · rw [← intOf_of_lt (isSigned t) (codeOf_lt w _), ← hlo, ← hhi, ← clampInt_eq_ite]
      exact intOf_codeOf (widthOf_pos t) (lowest_le_clampInt _ w v) (clampInt_le_highest _ w v)
  · rw [convertElem_integer q false x ht hu, if_neg Bool.false_ne_true, codeOf_intOf (isSigned u) hw.le hx]

end Sys2Proof.Proofs
end

section
/-! A decrement that finds a count of 0 (22_faults_machinery.md R391, R386): what the arrival of a
message or a signal for a control block does, which deferred cause is kept, and the entry that a
deferred cause makes at a boundary at level 0. -/

namespace Sys2Proof.Machine

open Sys2Proof

/-! ## Decrements that arrive -/

theorem State.decrement_of_zero {s : State} {id : CoreId} {off : Nat} {c : Core} (hc : s.core? id = some c)
    (h0 : c.scr.nat (off + 2) 2 = 0) (args : List (Nat × BitVec 64)) (src : Nat) :
    s.decrement id off args src = (s.updCore id fun d =>
      (d.deferOnce (.underflow (BitVec.ofNat 19 off) (BitVec.ofNat 12 src))).both fun d => { d with latch := true },
      true) := by
  simp only [State.decrement, hc, h0, if_true]

section
variable {s : State} {k num : Nat} {m : Msg} {c : Core} (ha : s.arrives k m) (hd : m.dst = .core num)
  (hc : s.core? { m.src with num := num } = some c)
include ha hd hc

/-- A message whose header names a control block takes its arguments and a decrement there (R222). -/
theorem execMessageApply_counter {h : BitVec 64} {args : List (BitVec 64)} (hop : m.op = .message h args)
    (hh : h.getLsbD 15 = true) : execMessageApply s =
      let r := (s.less k).decrement c.id (64 * (h.extractLsb' 16 13).toNat)
        ((List.range args.length).map fun i => (i + 1, args.getD i 0)) m.src.num
      .next (if r.2 then (r.1.acknowledge m).counted m else r.1.acknowledge m) := by
  refine State.deliver_eq ha _ ?_
  simp only [hop, State.less_targetOf, State.targetOf_eq hd hc, Option.map_some, hh, if_true]

/-- A signal takes the value of its slot, when it names one, and a decrement (R223). -/
theorem execSignalApply_counter {ref v : BitVec 64} (hop : m.op = .signal ref v) : execSignalApply s =
      let r := (s.less k).decrement c.id (64 * (ref.extractLsb' 19 13).toNat)
        (if (ref.extractLsb' 12 3).toNat = 0 then [] else [((ref.extractLsb' 12 3).toNat, v)]) m.src.num
      .next (if r.2 then (r.1.acknowledge m).counted m else r.1.acknowledge m) := by
  refine State.deliver_eq ha _ ?_
  simp only [hop, State.less_targetOf, State.targetOf_eq hd hc, Option.map_some]

end

/-! ## The cause that stays pending -/

/-- With no underflow pending, one becomes pending behind the other causes. -/
theorem Core.deferOnce_underflow_of_none {c : Core} (h : ∀ x ∈ c.deferred, ∀ o n, x ≠ .underflow o n)
    (off : BitVec 19) (src : BitVec 12) :
    c.deferOnce (.underflow off src) = { c with deferred := c.deferred ++ [.underflow off src] } := by
  refine if_neg ?_
  rw [List.any_eq_true]
  rintro ⟨x, hx, hsame⟩
  cases x with
  | underflow o n => exact h _ hx o n rfl
  | _ => exact Bool.false_ne_true hsame

/-- While an underflow is pending a later one is dropped. -/
theorem Core.deferOnce_underflow_of_mem {c : Core} {o : BitVec 19} {n : BitVec 12} (h : .underflow o n ∈ c.deferred)
    (off : BitVec 19) (src : BitVec 12) : c.deferOnce (.underflow off src) = c :=
  if_pos (List.any_eq_true.2 ⟨_, h, rfl⟩)

/-! ## The entry at a boundary -/

/-- An entry in front of the packet at the pc, at level 0 with no write pending (R177). -/
structure Core.EnteredHere (c : Core) (cls : BitVec 8) (info : BitVec 64) (r : Core) : Prop where
  pc : r.pc = c.csr.evec.toNat * 4096 + 64 * cls.toNat
  level : r.csr.level = 1
  cause : r.csr.ecause = (0 : BitVec 4) ++ (0 : BitVec 12) ++ (0 : BitVec 8) ++ cls
  epc : r.csr.epc = BitVec.ofNat 17 (c.pc / 4)
  info : r.csr.einfo = info
  deferred : r.deferred = c.deferred

theorem Core.enterHere_entered {c : Core} (hp : c.pend = []) (hl : c.csr.level = 0) (cls : BitVec 8) (info : BitVec 64) :
    c.EnteredHere cls info (c.enterHere cls info) := by
  have kept := Core.kept_capture hp 0
  refine ⟨?_, ?_, rfl, ?_, rfl, kept.deferred⟩
  · simp only [Core.enterHere, Core.enter_pc, Core.vector, kept.csr]
  · simp only [Core.enterHere, Core.enter_level, kept.csr, hl]; rfl
  · simp only [Core.enterHere, Core.enter_epc, kept.pc]

/-- The event DEFERRED_CAUSE_ENTRY takes the first cause and leaves the rest (R365). -/
theorem execDeferredCauseEntry_of_first {s : State} {d : Deferred} {l : List Deferred}
    (hf : firstDeferred s.me.deferred = some (d, l)) (hl : s.me.csr.level = 0) (ha : s.me.ahead = none)
    (hr : s.me.running ≠ none) (ho : s.me.owesRemote = false) : execDeferredCauseEntry s =
      .next (s.onMe fun c => ({ c with deferred := l } : Core).enterHere d.exc.cls (d.exc.info 0)) := by
  have hcond : s.me.csr.level = 0 ∧ s.me.ahead.isNone ∧ s.me.running.isSome ∧ s.me.owesRemote = false :=
    ⟨hl, Option.isNone_iff_eq_none.2 ha, Option.isSome_iff_ne_none.2 hr, ho⟩
  simp only [execDeferredCauseEntry, hf, if_pos hcond]

/-- The core in turn as its turn begins: what its last turn has noted of a wait is gone. -/
def State.turnBegun (s : State) : State := s.onMe fun c => { c with atBarrier := none, onLatch := false, onTask := false }

/-- A core that may issue and stands in front of a packet makes the entry that is due there (R365, R387). -/
theorem takeTurn_of_dueEntry {ex : Instr → State → Res?} {s : State} {r : Res?} (hi : s.mayIssue s.me = true)
    (hr : s.me.running ≠ none) (hb : s.me.bubble = 0) (ha : s.me.ahead = none)
    (hdue : s.turnBegun.dueEntry ex s.me.onLatch s.me.onTask = some r) : takeTurn ex s = r := by
  have hi' : s.turnBegun.mayIssue s.turnBegun.me = true := hi
  have hr' : s.turnBegun.me.running.isNone = false := by
    simpa [State.turnBegun] using Option.isSome_iff_ne_none.2 hr
  have hb' : s.turnBegun.me.bubble = 0 := hb
  have ha' : s.turnBegun.me.ahead = none := ha
  have hbegun : (s.onMe fun c => { c with atBarrier := none, onLatch := false, onTask := false }) = s.turnBegun := rfl
  simp only [takeTurn, hbegun, hi', hr', hb', ha', hdue, Bool.not_true, Bool.false_eq_true, if_false, lt_self_iff_false,
    Option.isSome_none]

/-- With nothing before it in the order of causes, a deferred one is due in front of a packet at level 0 (R365). -/
theorem State.dueEntry_deferred {ex : Instr → State → Res?} {s : State} (hr : s.me.running ≠ none)
    (hb : s.me.bubble = 0) (ha : s.me.ahead = none) (ho : s.me.owesRemote = false) (ht : s.me.trapDue = none) (hl : s.me.csr.level = 0)
    (hd : s.me.deferred ≠ []) :
    s.dueEntry ex false false = some (fire ex .deferredCauseEntry .none s) := by
  have hr' : s.me.running.isNone = false := by simpa using Option.isSome_iff_ne_none.2 hr
  have hd' : s.me.deferred.isEmpty = false := by simpa using hd
  simp [State.dueEntry, hr', hb, ha, ho, ht, hl, hd', State.finishWfe]

/-- A step in which nothing else is due and the core in turn has not had its turn is its turn. -/
theorem step_eq_takeTurn {s : State} (hagenda : s.agenda = []) (herr : s.hwErrors = []) (hdone : s.me.done = false) :
    step s = takeTurn exec s := by
  simp only [step, hagenda, herr, hdone, List.isEmpty_nil, Bool.not_true, Bool.not_false, Bool.false_and, Bool.false_eq_true,
    if_false, if_true]

/-- `einfo` of an underflow: the sender and the block's offset in the value field (R368, R386). -/
theorem Deferred.underflow_info (off : BitVec 19) (src : BitVec 12) : (Deferred.underflow off src).exc.info 0 =
    (0 : BitVec 16) ++ src ++ (0 : BitVec 1) ++ off ++ (0 : BitVec 16) := by
  apply BitVec.eq_of_toNat_eq
  have hoff := off.isLt
  have hsrc := src.isLt
  simp only [Deferred.exc, Exc.info, append_toNat, BitVec.toNat_setWidth, BitVec.ofNat_eq_ofNat, BitVec.toNat_zero]
  omega

end Sys2Proof.Machine

namespace Sys2Proof.Proofs

open Sys2Proof Sys2Proof.Machine

/-- Settles O54: an arriving decrement that finds 0 only defers the cause; a deferred cause is kept
once for its class; and with no other cause pending it is the entry at the boundary. -/
theorem countUnderflow : Obligations.CountUnderflow := by
  refine ⟨?_, ?_, ?_⟩
  · intro s k num m c ha hd hc drops
    have hc' : (s.less k).core? c.id = some c := by rw [State.less_core?, State.core?_id hc, hc]
    constructor
    · intro h args hop hh off h0
      change execMessageApply s = _
      rw [execMessageApply_counter ha hd hc hop hh, State.decrement_of_zero hc' h0]
      rfl
    · intro r v hop off h0
      change execSignalApply s = _
      rw [execSignalApply_counter ha hd hc hop, State.decrement_of_zero hc' h0]
      rfl
  · intro c off o src n
    exact ⟨fun h => Core.deferOnce_underflow_of_none h off src, fun h => Core.deferOnce_underflow_of_mem h off src⟩
  · intro s off src hagenda herr hdone hi hr hb ha hlatch htask ho ht hp hl hd
    have hdue : s.turnBegun.dueEntry exec s.me.onLatch s.me.onTask =
        some (fire exec .deferredCauseEntry .none s.turnBegun) := by
      rw [hlatch, htask]
      exact State.dueEntry_deferred hr hb ha ho ht hl (by simp [State.turnBegun, hd])
    have hfirst : firstDeferred s.me.deferred = some (.underflow off src, []) := by
      rw [hd]; exact firstDeferred_head _ _ (by simp)
    have hstep : step s = _ := (step_eq_takeTurn hagenda herr hdone).trans ((takeTurn_of_dueEntry hi hr hb ha hdue).trans
      (execDeferredCauseEntry_of_first (s := { s.turnBegun with ev := .none }) hfirst hl ha hr ho))
    have entered := Core.enterHere_entered (c := { s.turnBegun.me with deferred := [] }) hp hl 0x24
      ((Deferred.underflow off src).exc.info 0)
    exact ⟨_, hstep, entered.level, entered.pc, entered.cause, entered.epc,
      entered.info.trans (Deferred.underflow_info off src), entered.deferred⟩

end Sys2Proof.Proofs
end

section
/-! The encoding round trip (06_encoding.md R137 to R150): the lemmas of Sys2Proof.Laws.RoundTrip, one
for each constructor, put together; and the decoder of the opcode table, which reads a word as an
instruction of a compute core and, when it is none, of a memory core. -/

namespace Sys2Proof.Laws

open Sys2Proof

/-- Decoding gives back every well-formed instruction: a row with a word by its own lemma, the other
rows because they have none. -/
theorem roundTrip (i : Instr) : RoundTrip.Statement i := by
  cases i with
  | add rd ra rb => exact RoundTrip.add rd ra rb
  | sub rd ra rb => exact RoundTrip.sub rd ra rb
  | and rd ra rb => exact RoundTrip.and rd ra rb
  | or rd ra rb => exact RoundTrip.or rd ra rb
  | xor rd ra rb => exact RoundTrip.xor rd ra rb
  | shl rd ra rb => exact RoundTrip.shl rd ra rb
  | shr rd ra rb => exact RoundTrip.shr rd ra rb
  | sra rd ra rb => exact RoundTrip.sra rd ra rb
  | mul rd ra rb => exact RoundTrip.mul rd ra rb
  | mulh rd ra rb => exact RoundTrip.mulh rd ra rb
  | mulhn rd ra rb => exact RoundTrip.mulhn rd ra rb
  | div rd ra rb => exact RoundTrip.div rd ra rb
  | divn rd ra rb => exact RoundTrip.divn rd ra rb
  | rem rd ra rb => exact RoundTrip.rem rd ra rb
  | remn rd ra rb => exact RoundTrip.remn rd ra rb
  | min rd ra rb => exact RoundTrip.min rd ra rb
  | max rd ra rb => exact RoundTrip.max rd ra rb
  | minn rd ra rb => exact RoundTrip.minn rd ra rb
  | maxn rd ra rb => exact RoundTrip.maxn rd ra rb
  | slt rd ra rb => exact RoundTrip.slt rd ra rb
  | sltn rd ra rb => exact RoundTrip.sltn rd ra rb
  | clz rd ra => exact RoundTrip.clz rd ra
  | ctz rd ra => exact RoundTrip.ctz rd ra
  | popc rd ra => exact RoundTrip.popc rd ra
  | sext rd ra w => exact RoundTrip.sext rd ra w
  | zext rd ra w => exact RoundTrip.zext rd ra w
  | bext rd ra rb => exact RoundTrip.bext rd ra rb
  | bins rd ra rb => exact RoundTrip.bins rd ra rb
  | nop => exact RoundTrip.nop
  | sel rd ra rb k => exact RoundTrip.sel rd ra rb k
  | pcmp c p ra rb => exact RoundTrip.pcmp c p ra rb
  | pand d a b => exact RoundTrip.pand d a b
  | por d a b => exact RoundTrip.por d a b
  | pnot d a => exact RoundTrip.pnot d a
  | jr ra => exact RoundTrip.jr ra
  | tret => exact RoundTrip.tret
  | wfe => exact RoundTrip.wfe
  | xtake rd x => exact RoundTrip.xtake rd x
  | xtst p x => exact RoundTrip.xtst p x
  | xclr x => exact RoundTrip.xclr x
  | feinit ra rb => exact RoundTrip.feinit ra rb
  | rinit q ra => exact RoundTrip.rinit q ra
  | addi rd ra imm => exact RoundTrip.addi rd ra imm
  | slti rd ra imm => exact RoundTrip.slti rd ra imm
  | andi rd ra imm => exact RoundTrip.andi rd ra imm
  | ori rd ra imm => exact RoundTrip.ori rd ra imm
  | xori rd ra imm => exact RoundTrip.xori rd ra imm
  | shli rd ra n => exact RoundTrip.shli rd ra n
  | shri rd ra n => exact RoundTrip.shri rd ra n
  | srai rd ra n => exact RoundTrip.srai rd ra n
  | pcmpi c p ra imm => exact RoundTrip.pcmpi c p ra imm
  | movi rd imm => exact RoundTrip.movi rd imm
  | csrr rd csr => exact RoundTrip.csrr rd csr
  | csrw ra csr => exact RoundTrip.csrw ra csr
  | csrs ra csr => exact RoundTrip.csrs ra csr
  | csrc ra csr => exact RoundTrip.csrc ra csr
  | fence o sc => exact RoundTrip.fence o sc
  | cset w ra imm => exact RoundTrip.cset w ra imm
  | cadd w ra imm => exact RoundTrip.cadd w ra imm
  | wait w => exact RoundTrip.wait w
  | waitle w ra imm => exact RoundTrip.waitle w ra imm
  | trap code => exact RoundTrip.trap code
  | svc code => exact RoundTrip.svc code
  | br disp => exact RoundTrip.br disp
  | bp p disp => exact RoundTrip.bp p disp
  | bnp p disp => exact RoundTrip.bnp p disp
  | jal disp => exact RoundTrip.jal disp
  | loop ra imm => exact RoundTrip.loop ra imm
  | ldb rt ra disp => exact RoundTrip.ldb rt ra disp
  | ldbn rt ra disp => exact RoundTrip.ldbn rt ra disp
  | ldh rt ra disp => exact RoundTrip.ldh rt ra disp
  | ldhn rt ra disp => exact RoundTrip.ldhn rt ra disp
  | ldw rt ra disp => exact RoundTrip.ldw rt ra disp
  | ldwn rt ra disp => exact RoundTrip.ldwn rt ra disp
  | ldd rt ra disp => exact RoundTrip.ldd rt ra disp
  | ldbAcq rt ra disp => exact RoundTrip.ldbAcq rt ra disp
  | ldbnAcq rt ra disp => exact RoundTrip.ldbnAcq rt ra disp
  | ldhAcq rt ra disp => exact RoundTrip.ldhAcq rt ra disp
  | ldhnAcq rt ra disp => exact RoundTrip.ldhnAcq rt ra disp
  | ldwAcq rt ra disp => exact RoundTrip.ldwAcq rt ra disp
  | ldwnAcq rt ra disp => exact RoundTrip.ldwnAcq rt ra disp
  | lddAcq rt ra disp => exact RoundTrip.lddAcq rt ra disp
  | stb rt ra disp => exact RoundTrip.stb rt ra disp
  | sth rt ra disp => exact RoundTrip.sth rt ra disp
  | stw rt ra disp => exact RoundTrip.stw rt ra disp
  | std rt ra disp => exact RoundTrip.std rt ra disp
  | stbRel rt ra disp => exact RoundTrip.stbRel rt ra disp
  | sthRel rt ra disp => exact RoundTrip.sthRel rt ra disp
  | stwRel rt ra disp => exact RoundTrip.stwRel rt ra disp
  | stdRel rt ra disp => exact RoundTrip.stdRel rt ra disp
  | ldfe rt ra disp => exact RoundTrip.ldfe rt ra disp
  | stfe rt ra disp => exact RoundTrip.stfe rt ra disp
  | vadd vd va vb t => exact RoundTrip.vadd vd va vb t
  | vsub vd va vb t => exact RoundTrip.vsub vd va vb t
  | vmul vd va vb t => exact RoundTrip.vmul vd va vb t
  | vmin vd va vb t => exact RoundTrip.vmin vd va vb t
  | vmax vd va vb t => exact RoundTrip.vmax vd va vb t
  | vabs vd va t => exact RoundTrip.vabs vd va t
  | vneg vd va t => exact RoundTrip.vneg vd va t
  | vdiv vd va vb t => exact RoundTrip.vdiv vd va vb t
  | vsqrt vd va t => exact RoundTrip.vsqrt vd va t
  | vand vd va vb t => exact RoundTrip.vand vd va vb t
  | vor vd va vb t => exact RoundTrip.vor vd va vb t
  | vxor vd va vb t => exact RoundTrip.vxor vd va vb t
  | vnot vd va t => exact RoundTrip.vnot vd va t
  | vshl vd va vb t => exact RoundTrip.vshl vd va vb t
  | vshr vd va vb t => exact RoundTrip.vshr vd va vb t
  | vsra vd va vb t => exact RoundTrip.vsra vd va vb t
  | vmulh vd va vb t => exact RoundTrip.vmulh vd va vb t
  | vexp vd va t => exact RoundTrip.vexp vd va t
  | vexp2 vd va t => exact RoundTrip.vexp2 vd va t
  | vlog2 vd va t => exact RoundTrip.vlog2 vd va t
  | vrcp vd va t => exact RoundTrip.vrcp vd va t
  | vrsqrt vd va t => exact RoundTrip.vrsqrt vd va t
  | vtanh vd va t => exact RoundTrip.vtanh vd va t
  | vsigm vd va t => exact RoundTrip.vsigm vd va t
  | vfma vd va vb vc t => exact RoundTrip.vfma vd va vb vc t
  | vfms vd va vb vc t => exact RoundTrip.vfms vd va vb vc t
  | vfnma vd va vb vc t => exact RoundTrip.vfnma vd va vb vc t
  | vfnms vd va vb vc t => exact RoundTrip.vfnms vd va vb vc t
  | vsel vd vm vt vf t => exact RoundTrip.vsel vd vm vt vf t
  | vcmp vd va vb t c => exact RoundTrip.vcmp vd va vb t c
  | vcvt vd va dt st rm sat => exact RoundTrip.vcvt vd va dt st rm sat
  | vqnt vd va vs rm => exact RoundTrip.vqnt vd va vs rm
  | vdqnt vd va vs dt => exact RoundTrip.vdqnt vd va vs dt
  | vrsum vd va t => exact RoundTrip.vrsum vd va t
  | vcsum vd va t => exact RoundTrip.vcsum vd va t
  | vrmax vd va t => exact RoundTrip.vrmax vd va t
  | vcmax vd va t => exact RoundTrip.vcmax vd va t
  | vmov vd va => exact RoundTrip.vmov vd va
  | vbcast vd va => exact RoundTrip.vbcast vd va
  | vtrn vd va t => exact RoundTrip.vtrn vd va t
  | vext vd va vb t => exact RoundTrip.vext vd va vb t
  | vins vd va vb t => exact RoundTrip.vins vd va vb t
  | vsplat vd g t => exact RoundTrip.vsplat vd g t
  | vld vd ga gb => exact RoundTrip.vld vd ga gb
  | vst vd ga gb => exact RoundTrip.vst vd ga gb
  | vgat vd ga vb t => exact RoundTrip.vgat vd ga vb t
  | vsct vd ga vb t => exact RoundTrip.vsct vd ga vb t
  | vviewImage vd ga k => exact RoundTrip.vviewImage vd ga k
  | vview vd ga gb t => exact RoundTrip.vview vd ga gb t
  | vaddImm vd imm => exact RoundTrip.vaddImm vd imm
  | vsubImm vd imm => exact RoundTrip.vsubImm vd imm
  | vmulImm vd imm => exact RoundTrip.vmulImm vd imm
  | vminImm vd imm => exact RoundTrip.vminImm vd imm
  | vmaxImm vd imm => exact RoundTrip.vmaxImm vd imm
  | vandImm vd imm => exact RoundTrip.vandImm vd imm
  | vorImm vd imm => exact RoundTrip.vorImm vd imm
  | vxorImm vd imm => exact RoundTrip.vxorImm vd imm
  | vshlImm vd imm => exact RoundTrip.vshlImm vd imm
  | vshrImm vd imm => exact RoundTrip.vshrImm vd imm
  | vsraImm vd imm => exact RoundTrip.vsraImm vd imm
  | vsplatImm vd imm => exact RoundTrip.vsplatImm vd imm
  | vshape w r => exact RoundTrip.vshape w r
  | mmul ad ta tb sa sb sat acc fd rsum csum sv => exact RoundTrip.mmul ad ta tb sa sb sat acc fd rsum csum sv
  | mmsp ad ta tb sa sb sat acc fd rsum csum sv => exact RoundTrip.mmsp ad ta tb sa sb sat acc fd rsum csum sv
  | mgang m => exact RoundTrip.mgang m
  | mzero ad => exact RoundTrip.mzero ad
  | mfade ad => exact RoundTrip.mfade ad
  | tidset t ga => exact RoundTrip.tidset t ga
  | tidq t rd sel => exact RoundTrip.tidq t rd sel
  | mdrain ad t vp rm sat => exact RoundTrip.mdrain ad t vp rm sat
  | mdrainr ad t ga vp rm sat => exact RoundTrip.mdrainr ad t ga vp rm sat
  | bcopy ga gb gc w => exact RoundTrip.bcopy ga gb gc w
  | tload ga gb gc w => exact RoundTrip.tload ga gb gc w
  | tstore ga gb gc w => exact RoundTrip.tstore ga gb gc w
  | aadd rd ra rb o => exact RoundTrip.aadd rd ra rb o
  | aswp rd ra rb o => exact RoundTrip.aswp rd ra rb o
  | acas rd ra rb o => exact RoundTrip.acas rd ra rb o
  | amin rd ra rb o => exact RoundTrip.amin rd ra rb o
  | amax rd ra rb o => exact RoundTrip.amax rd ra rb o
  | aminn rd ra rb o => exact RoundTrip.aminn rd ra rb o
  | amaxn rd ra rb o => exact RoundTrip.amaxn rd ra rb o
  | aand rd ra rb o => exact RoundTrip.aand rd ra rb o
  | aor rd ra rb o => exact RoundTrip.aor rd ra rb o
  | axor rd ra rb o => exact RoundTrip.axor rd ra rb o
  | afadd rd ra rb o => exact RoundTrip.afadd rd ra rb o
  | xput ga gb x => exact RoundTrip.xput ga gb x
  | amsg ga gb => exact RoundTrip.amsg ga gb
  | radvPop ga q => exact RoundTrip.radvPop ga q
  | radvPush ga q => exact RoundTrip.radvPush ga q
  | radvCredit ga q => exact RoundTrip.radvCredit ga q
  | radvFill ga q => exact RoundTrip.radvFill ga q
  | tinit ga gb gc => exact RoundTrip.tinit ga gb gc
  | tspawn ga gb => exact RoundTrip.tspawn ga gb
  | tfork ga gb => exact RoundTrip.tfork ga gb
  | tsig ga gb => exact RoundTrip.tsig ga gb
  | tend => exact RoundTrip.tend
  | cmpo rd rs n => exact RoundTrip.cmpo rd rs n
  | cmpr => exact RoundTrip.cmpr
  | cmpq rd => exact RoundTrip.cmpq rd
  | hld rd c go o => exact RoundTrip.hld rd c go o
  | hst rv c go o => exact RoundTrip.hst rv c go o
  | hldv v c go => exact RoundTrip.hldv v c go
  | hstv v c go => exact RoundTrip.hstv v c go
  | hgat v c i => exact RoundTrip.hgat v c i
  | hsct v c i => exact RoundTrip.hsct v c i
  | hldX gt c go o => exact RoundTrip.hldX gt c go o
  | hship ga c go => exact RoundTrip.hship ga c go
  | hpull ga c go => exact RoundTrip.hpull ga c go
  | bgemv ga c go => exact RoundTrip.bgemv ga c go
  | hfenceL => exact RoundTrip.hfenceL
  | oxfer c gd => exact RoundTrip.oxfer c gd
  | oacq c => exact RoundTrip.oacq c
  | cmov d sel => exact RoundTrip.cmov d sel
  | cmovRemote d sel gc => exact RoundTrip.cmovRemote d sel gc
  | cderive d sel gb => exact RoundTrip.cderive d sel gb
  | crights d sel ga => exact RoundTrip.crights d sel ga
  | hatomAdd rd c go o => exact RoundTrip.hatomAdd rd c go o
  | hatomSwp rd c go o => exact RoundTrip.hatomSwp rd c go o
  | hatomCas rd c go o => exact RoundTrip.hatomCas rd c go o
  | hatomMin rd c go o => exact RoundTrip.hatomMin rd c go o
  | hatomMax rd c go o => exact RoundTrip.hatomMax rd c go o
  | hatomMinn rd c go o => exact RoundTrip.hatomMinn rd c go o
  | hatomMaxn rd c go o => exact RoundTrip.hatomMaxn rd c go o
  | hatomFadd rd c go o => exact RoundTrip.hatomFadd rd c go o
  | hwimm p => exact RoundTrip.hwimm p
  | hblk l => exact RoundTrip.hblk l
  | hgran g => exact RoundTrip.hgran g
  | hrm r => exact RoundTrip.hrm r
  | _ => exact RoundTrip.of_none rfl

/-- A word that the kind of core does not have is no instruction there (R139). -/
theorem decode_of_wrongKind {mem : Bool} {w : IWord} (h : wrongKind mem w = true) :
    ∃ r, decode mem w = .bad r := by
  by_cases hr : reservedMajor (major w).toNat = true
  · exact ⟨.reservedMajor, if_pos hr⟩
  · exact ⟨.wrongCore, (if_neg hr).trans (if_pos h)⟩

/-- The table decoder reads the word of an instruction on the kind of core that has it. -/
theorem decodeAny_of_decode {i : Instr} {w : IWord} {m : Bool} (hk : wrongKind m w = false)
    (hd : ∀ mem, wrongKind mem w = false → decode mem w = .ok i) : decodeAny w = .ok i := by
  unfold decodeAny
  cases hf : wrongKind false w with
  | false => rw [hd false hf]
  | true =>
    obtain ⟨r, hr⟩ := decode_of_wrongKind hf
    cases m with
    | false => exact absurd (hk.symm.trans hf) Bool.false_ne_true
    | true => rw [hr]; exact hd true hk

end Sys2Proof.Laws

namespace Sys2Proof.Proofs

open Sys2Proof Sys2Proof.Laws

/-- Settles O56: every constructor's round trip, on the kinds of core that have its word; the table
decoder takes the first of these kinds. -/
theorem roundTrip : Obligations.RoundTrip := by
  intro i w hf he
  obtain ⟨hk, hd⟩ := Laws.roundTrip i w hf he
  refine ⟨hk, hd, ?_⟩
  rw [decodeTableWord, if_pos rfl, BitVec.ofNat_toNat, BitVec.setWidth_eq, decodeAny_of_decode hk hd]

end Sys2Proof.Proofs
end

section
/-! What every step keeps (14_scheduling.md R326, R14, 02_execution_model.md R30,
15_host_fabric_firmware.md R341), and that it goes on. The monitor bounds three parts of the state. No
operation of the model touches them, but for the purse events, the start of an array, a cc, an
attestation and a boot: one lemma for each operation, then one for each word and event. -/

namespace Sys2Proof.Machine

open Sys2Proof

set_option Elab.async false

/-! ## What leaves the monitor's quantities alone -/

/-- What the monitor bounds: the purses, the turn period and the counter of one-time signatures
(R14, R30, R326, R341). -/
def State.monitor (s : State) : List Purse × Nat × Nat := (s.purses, s.period, s.lms)

@[simp] theorem State.monitor_mk
    (x0 x1 x2 x3 x4 x5 x6 x7 x8 x9 x10 x11 x12 x13 x14 x15 x16 x17 x18 x19 x20 x21 x22 x23 x24 x25 x26 x27 x28 x29
    x30 x31 x32 x33 x34 x35 x36 x37 x38 x39 x40 x41 x42 x43 x44 x45 x46 x47 x48 x49 x50 x51 x52 x53 x54 x55 x56 x57
    x58 x59 x60 x61 x62 x63 x64 x65 x66 x67 x68) :
    State.monitor ⟨x0, x1, x2, x3, x4, x5, x6, x7, x8, x9, x10, x11, x12, x13, x14, x15, x16, x17, x18, x19, x20,
    x21, x22, x23, x24, x25, x26, x27, x28, x29, x30, x31, x32, x33, x34, x35, x36, x37, x38, x39, x40, x41, x42,
    x43, x44, x45, x46, x47, x48, x49, x50, x51, x52, x53, x54, x55, x56, x57, x58, x59, x60, x61, x62, x63, x64,
    x65, x66, x67, x68⟩ = (x18, x7, x54) := by unfold State.monitor; rfl

@[simp] theorem State.monitor_fold (s : State) :
    (s.purses, s.period, s.lms) = s.monitor := by unfold State.monitor; rfl

@[simp] theorem State.monitor_ite (p : Prop) [Decidable p] (s t : State) :
    (if p then s else t).monitor = if p then s.monitor else t.monitor := apply_ite _ _ _ _

@[simp] theorem State.foldl_monitor {α : Type} (l : List α) (f : State → α → State) (s : State) (h : ∀ s x,
    (f s x).monitor = s.monitor) :
    (l.foldl f s).monitor = s.monitor :=
  State.foldl_keep l f h s

theorem State.getD_monitor {o : Option State} {s t : State} (h : ∀ u, o = some u → u.monitor = s.monitor)
    (ht : t.monitor = s.monitor) :
    (o.getD t).monitor = s.monitor := by
  cases o with
  | none => exact ht
  | some u => exact h u rfl

@[simp] theorem State.swap_monitor (s : State) (id : CoreId) : (s.swap id).monitor = s.monitor := by
  unfold State.swap; split <;> simp

@[simp] theorem State.onCore_monitor (s : State) (id : CoreId) (f : State → State) (h : ∀ s,
    (f s).monitor = s.monitor) :
    (s.onCore id f).monitor = s.monitor := State.onCore_keep f h State.swap_monitor s id

@[simp] theorem State.draw_monitor (s : State) : s.draw.2.monitor = s.monitor := by simp [State.draw]

theorem State.serve_monitor {s u : State} {o : Nat} {ps : List (Nat × Nat)} {x : Bool} (h : s.serve o ps x = some u) :
    u.monitor = s.monitor := by
  obtain ⟨l, rfl⟩ := Laws.serve_chans h; simp

@[simp] theorem State.updCore_monitor (s : State) (id : CoreId) (f : Core → Core) :
    (State.updCore s id f).monitor = s.monitor := by simp [State.updCore]

@[simp] theorem State.onMe_monitor (s : State) (f : Core → Core) :
    (State.onMe s f).monitor = s.monitor := by simp [State.onMe]

@[simp] theorem State.updRegion_monitor (s : State) (o k : Nat) (f : Region → Region) :
    (State.updRegion s o k f).monitor = s.monitor := by simp [State.updRegion]

@[simp] theorem State.updFn_monitor (s : State) (f : Nat) (g : Fn → Fn) :
    (State.updFn s f g).monitor = s.monitor := by simp [State.updFn]

@[simp] theorem State.scrPut_monitor (s : State) (a : Nat) (bs : List Byte) :
    (s.scrPut a bs).monitor = s.monitor := by
  induction bs generalizing s a with
  | nil => unfold State.scrPut; split <;> simp
  | cons b bs ih => unfold State.scrPut; split <;> simp [ih]

@[simp] theorem State.later_monitor (s : State) (w : Write) (d : Nat) :
    (State.later s w d).monitor = s.monitor := by simp [State.later]

@[simp] theorem State.stall_monitor (s : State) (st : Status) :
    (State.stall s st).monitor = s.monitor := by simp [State.stall]

@[simp] theorem State.enterRequest_monitor (s : State) (f gran : Nat) (rd wr : Bool) :
    (State.enterRequest s f gran rd wr).monitor = s.monitor := by simp [State.enterRequest]

@[simp] theorem State.request_monitor (s : State) (f gran : Nat) (rd wr : Bool) :
    (State.request s f gran rd wr).monitor = s.monitor := by simp [State.request]

@[simp] theorem State.endAhead_monitor (s : State) :
    (State.endAhead s).monitor = s.monitor := by unfold State.endAhead; split <;> simp

@[simp] theorem State.raise_monitor (s : State) (e : Exc) :
    (State.raise s e).monitor = s.monitor := by simp [State.raise]

@[simp] theorem State.send_monitor (s : State) (src : CoreId) (dst : Place) (op : RemoteOp) (seq : Nat) :
    (State.send s src dst op seq).monitor = s.monitor := by simp [State.send]

@[simp] theorem State.eject_monitor (s : State) (k : Nat) (m : Msg) :
    (State.eject s k m).monitor = s.monitor := by simp [State.eject]

@[simp] theorem State.answer_monitor (s : State) (m : Msg) (op : RemoteOp) :
    (State.answer s m op).monitor = s.monitor := by simp [State.answer]

@[simp] theorem State.acknowledge_monitor (s : State) (m : Msg) :
    (State.acknowledge s m).monitor = s.monitor := by simp [State.acknowledge]

@[simp] theorem State.record_monitor (s : State) (col : Nat) (r : BitVec 64) :
    (State.record s col r).monitor = s.monitor := by simp [State.record]

@[simp] theorem State.strike_monitor (s : State) (f : Nat) (cause : BitVec 8) :
    (State.strike s f cause).monitor = s.monitor := by simp [State.strike]

@[simp] theorem State.sendLoad_monitor (s : State) (d : Place) (off n : Nat) (signed : Bool) (rd : BitVec 6)
    (acq : Bool) :
    (State.sendLoad s d off n signed rd acq).monitor = s.monitor := by simp [State.sendLoad]

@[simp] theorem State.feSet_monitor (s : State) (o : Nat) (full : Bool) :
    (State.feSet s o full).monitor = s.monitor := by simp [State.feSet]

@[simp] theorem State.kick_monitor (s : State) (b : Bulk) (score : List ScoreEntry) :
    (State.kick s b score).monitor = s.monitor := by simp [State.kick]

@[simp] theorem State.portsAdvance_monitor (s : State) (ps : List Port) :
    (State.portsAdvance s ps).monitor = s.monitor := by simp [State.portsAdvance]

@[simp] theorem State.scrRows_monitor (L : Nat) (l : List (Nat × List Byte)) :
    ∀ (s : State) (i : Nat), (s.scrRows L i l).monitor = s.monitor := by
  induction l with
  | nil => intro s i; rfl
  | cons x l ih => intro s i; simp [State.scrRows, ih]

@[simp] theorem State.regRows_monitor (L : Nat) (fl : BitVec 5) (l : List (Nat × List Byte)) :
    ∀ (s : State) (i : Nat), (s.regRows L i fl l).monitor = s.monitor := by
  induction l with
  | nil => intro s i; rfl
  | cons x l ih => intro s i; cases l <;> simp [State.regRows, ih]

@[simp] theorem State.vwrite_monitor (s : State) (r : VRows) (rows : List (List Byte)) (L : Nat) (fl : BitVec 5) :
    (State.vwrite s r rows L fl).monitor = s.monitor := by unfold State.vwrite; split <;> simp

@[simp] theorem State.holdPipe_monitor (s : State) (n : Nat) :
    (State.holdPipe s n).monitor = s.monitor := by simp [State.holdPipe]

@[simp] theorem State.touch_monitor (s : State) (old new : List (Nat × Nat × Nat × Bool × Bool)) :
    (State.touch s old new).monitor = s.monitor := by simp [State.touch]

@[simp] theorem State.setMmu_monitor (s : State) (m : Mmu) :
    (State.setMmu s m).monitor = s.monitor := by simp [State.setMmu]

@[simp] theorem State.putHbm_monitor (s : State) (ps : List (Nat × List Byte)) :
    (State.putHbm s ps).monitor = s.monitor := by simp [State.putHbm]

@[simp] theorem State.missed_monitor (s : State) (l : List (Nat × Bool × Bool)) (part : State → State)
    (dst : List Res) (hpart : (part s).monitor = s.monitor) :
    (s.missed l part dst).monitor = s.monitor := by
  unfold State.missed; split <;> simp [hpart]

@[simp] theorem State.homeMiss_monitor (s : State) (n : BitVec 4) :
    (State.homeMiss s n).monitor = s.monitor := by simp [State.homeMiss]

@[simp] theorem whole_monitor (s : State) : (whole s).monitor = s.monitor := by simp [whole]

@[simp] theorem farWhole_monitor (eff : State → State) (part : Option (List Nat)) (s : State) (h :
    (eff s).monitor = s.monitor) :
    (farWhole eff part s).monitor = s.monitor := by
  cases part with
  | none => exact h
  | some l => rfl

@[simp] theorem State.hbmLoad_monitor (s : State) (m : Mmu) (ops : List HbmOp) (rd : BitVec 6) (acq : Bool) :
    (State.hbmLoad s m ops rd acq).monitor = s.monitor := by simp [State.hbmLoad]

@[simp] theorem State.farLoad_monitor (s : State) (k : Cap) (ops : List HomeOp) (rd : BitVec 6) (acq : Bool) :
    (State.farLoad s k ops rd acq).monitor = s.monitor := by simp [State.farLoad]

@[simp] theorem State.hbmStore_monitor (s : State) (m : Mmu) (ps : List (Nat × List Byte)) (rel : Bool) :
    (State.hbmStore s m ps rel).monitor = s.monitor := by simp [State.hbmStore]

@[simp] theorem State.setEntry_monitor (s : State) (h ix : Nat) (e : BitVec 512) :
    (State.setEntry s h ix e).monitor = s.monitor := by simp [State.setEntry]

@[simp] theorem State.useTokens_monitor (s : State) (o ch cost : Nat) (atomic : Bool) :
    (State.useTokens s o ch cost atomic).monitor = s.monitor := by simp [State.useTokens]

@[simp] theorem State.newWindow_monitor (s : State) :
    (State.newWindow s).monitor = s.monitor := by simp [State.newWindow]

@[simp] theorem State.arrayRecord_monitor (s : State) (kind bit a : Nat) :
    (State.arrayRecord s kind bit a).monitor = s.monitor := by simp [State.arrayRecord]

@[simp] theorem State.clearFrame_monitor (s : State) (a : Nat) :
    (State.clearFrame s a).monitor = s.monitor := by simp [State.clearFrame]

@[simp] theorem State.lose_monitor (s : State) (a : Nat) :
    (State.lose s a).monitor = s.monitor := by unfold State.lose; split <;> simp

@[simp] theorem State.meetFlaw_monitor (s : State) (x : Nat × Option (BitVec 8)) :
    (State.meetFlaw s x).monitor = s.monitor := by unfold State.meetFlaw; split <;> simp

@[simp] theorem State.arrayRead_monitor (s : State) (ps : List (Nat × Nat)) (f : State → State) (h : ∀ s,
    (f s).monitor = s.monitor) :
    (s.arrayRead ps f).monitor = s.monitor := by
  simp [State.arrayRead, h]

@[simp] theorem State.askSwitch_monitor (s : State) (out : RegionId) (next : Option RegionId) :
    (State.askSwitch s out next).monitor = s.monitor := by simp [State.askSwitch]

@[simp] theorem State.coreRecord_monitor (s : State) (kind : Nat) (id : CoreId) (store off : Nat) :
    (State.coreRecord s kind id store off).monitor = s.monitor := by simp [State.coreRecord]

@[simp] theorem State.spillTo_monitor (s : State) (id : CoreId) (x : Spilled) :
    (State.spillTo s id x).monitor = s.monitor := by unfold State.spillTo; split <;> simp

@[simp] theorem State.updQueue_monitor (s : State) (f q : Nat) (g : Queue → Queue) :
    (State.updQueue s f q g).monitor = s.monitor := by simp [State.updQueue]

@[simp] theorem State.complete_monitor (s : State) (f q : Nat) (sseq : BitVec 16) (type status : BitVec 4)
    (detail : BitVec 64) :
    (State.complete s f q sseq type status detail).monitor = s.monitor := by simp [State.complete]

@[simp] theorem State.due_monitor (s : State) (i : Instr) (a : EvArg) :
    (State.due s i a).monitor = s.monitor := by simp [State.due]

@[simp] theorem State.afterPacket_monitor (s : State) :
    (State.afterPacket s).monitor = s.monitor := by unfold State.afterPacket; dsimp only; (repeat' split) <;> simp

@[simp] theorem State.stuck_monitor (ex : Instr → State → Res?) (ws : List PWord) (s : State) :
    (State.stuck ex ws s).monitor = s.monitor := by simp [State.stuck]

@[simp] theorem State.loadRef_monitor (s : State) (e : BitVec 512) :
    (State.loadRef s e).monitor = s.monitor := by simp [State.loadRef]

@[simp] theorem State.performed_monitor (s : State) (m : Msg) :
    (State.performed s m).monitor = s.monitor := by simp [State.performed]

@[simp] theorem State.sendEntry_monitor (s : State) (dst : Place) (op : RemoteOp) (seq : Nat) :
    (State.sendEntry s dst op seq).monitor = s.monitor := by simp [State.sendEntry]

@[simp] theorem State.atCore_monitor (s : State) (c : Core) (f : Core → Core) :
    (State.atCore s c f).monitor = s.monitor := by simp [State.atCore]

@[simp] theorem State.setBank_monitor (s : State) (m : Msg) (l a : Nat) (bs : List Byte) :
    (State.setBank s m l a bs).monitor = s.monitor := by simp [State.setBank]

@[simp] theorem State.arrivePush_monitor (s : State) (id : CoreId) (x : BitVec 512) (src : Nat) :
    (s.arrivePush id x src).1.monitor = s.monitor := by
  unfold State.arrivePush; split
  · rfl
  · dsimp only; split <;> simp

@[simp] theorem State.pushRoot_monitor (s : State) (id : CoreId) (x : BitVec 512) :
    (s.pushRoot id x).monitor = s.monitor := by
  simp [State.pushRoot]

@[simp] theorem State.decrement_monitor (s : State) (id : CoreId) (off : Nat) (args : List (Nat × BitVec 64))
    (src : Nat) :
    (s.decrement id off args src).1.monitor = s.monitor := by
  unfold State.decrement; split
  · rfl
  · dsimp only; (repeat' split) <;> simp

@[simp] theorem State.ringArrive_monitor (s : State) (c : Core) (q : BitVec 3) (ok : Bool)
    (f : BitVec 256 → BitVec 256) :
    (s.ringArrive c q ok f).monitor = s.monitor := by
  cases ok <;> simp [State.ringArrive]

@[simp] theorem State.feApply_monitor (s : State) (c : Core) (m : Msg) :
    (State.feApply s c m).monitor = s.monitor := by unfold State.feApply; split <;> simp

@[simp] theorem State.retryFe_monitor (id : CoreId) (n : Nat) :
    ∀ s : State, (s.retryFe id n).monitor = s.monitor := by
  induction n with
  | zero => intro s; rfl
  | succ n ih => intro s; unfold State.retryFe; (repeat' split) <;> simp [ih]

@[simp] theorem State.retryAll_monitor (s : State) (id : CoreId) :
    (s.retryAll id).monitor = s.monitor := State.retryFe_monitor ..

@[simp] theorem State.updMembers_monitor (s : State) (n : Nat) (f : Core → Core) :
    (State.updMembers s n f).monitor = s.monitor := by simp [State.updMembers]

@[simp] theorem State.begin_monitor (s : State) (e : BitVec 512) :
    (State.begin s e).monitor = s.monitor := by simp [State.begin]

@[simp] theorem State.sidePut_monitor (s : State) (id : CoreId) (d : Side) (a : Nat) (b : Byte) :
    (State.sidePut s id d a b).monitor = s.monitor := by unfold State.sidePut; split <;> simp

@[simp] theorem State.sidePutBytes_monitor (id : CoreId) (d : Side) (bs : List Byte) :
    ∀ (s : State) (a : Nat), (s.sidePutBytes id d a bs).monitor = s.monitor := by
  induction bs with
  | nil => intro s a; rfl
  | cons b bs ih => intro s a; simp [State.sidePutBytes, ih]

@[simp] theorem State.countBeat_monitor (s : State) (b : Bulk) (id : CoreId) (n : Nat) :
    (State.countBeat s b id n).monitor = s.monitor := by simp [State.countBeat]

@[simp] theorem State.updBulk_monitor (s : State) (id : CoreId) (i : Nat) (f : Bulk → Bulk) :
    (State.updBulk s id i f).monitor = s.monitor := by simp [State.updBulk]

@[simp] theorem State.dropBulk_monitor (s : State) (id : CoreId) (i : Nat) :
    (State.dropBulk s id i).monitor = s.monitor := by simp [State.dropBulk]

@[simp] theorem State.beatDone_monitor (s : State) (id : CoreId) (i : Nat) (rest : List Beat) :
    (State.beatDone s id i rest).monitor = s.monitor := by simp [State.beatDone]

@[simp] theorem State.deliverBeat_monitor (s : State) (b : Bulk) (id : CoreId) (off : Nat) (bs : List Byte) :
    (State.deliverBeat s b id off bs).monitor = s.monitor := by unfold State.deliverBeat; split <;> simp

@[simp] theorem State.keepWalk_monitor (s : State) (id : CoreId) (i : Nat) (m : Mmu) :
    (State.keepWalk s id i m).monitor = s.monitor := by simp [State.keepWalk]

@[simp] theorem State.beatMiss_monitor (s : State) (id : CoreId) (i : Nat) (g : Nat) (rd wr : Bool) :
    (State.beatMiss s id i g rd wr).monitor = s.monitor := by simp [State.beatMiss]

@[simp] theorem State.beatFault_monitor (s : State) (id : CoreId) (i : Nat) (b : Bulk) (cls sub : BitVec 8)
    (v : BitVec 48) :
    (State.beatFault s id i b cls sub v).monitor = s.monitor := by unfold State.beatFault; split <;> simp

@[simp] theorem State.askHome_monitor (s : State) (id : CoreId) (b : Bulk) (cap : Cap) (op : HomeOp) :
    (State.askHome s id b cap op).monitor = s.monitor := by simp [State.askHome]

@[simp] theorem State.moved_monitor (s : State) (id : CoreId) (i n : Nat) (rest : List Beat) :
    (State.moved s id i n rest).monitor = s.monitor := by simp [State.moved]

@[simp] theorem State.homeBeat_monitor (s : State) (k : Nat) (bs : List Byte) :
    (State.homeBeat s k bs).monitor = s.monitor := by unfold State.homeBeat; (repeat' split) <;> simp

@[simp] theorem State.homeBeatFault_monitor (s : State) (k : Nat) (cls sub : BitVec 8) (v : BitVec 48) :
    (State.homeBeatFault s k cls sub v).monitor = s.monitor := by unfold State.homeBeatFault; (repeat' split) <;> simp

@[simp] theorem State.hostMove_monitor (s : State) (id : CoreId) (i : Nat) (b : Bulk) (beat : Beat)
    (rest : List Beat) :
    (s.hostMove id i b beat rest).monitor = s.monitor := by
  unfold State.hostMove
  extract_lets load cap
  split
  · simp
  · dsimp only; split
    · simp
    · simp
    · rfl
    · split
      · rfl
      · rename_i h; split <;> simp [State.serve_monitor h]

@[simp] theorem State.landHbm_monitor (s : State) (c : Core) (a : HbmAcc) :
    (State.landHbm s c a).monitor = s.monitor := by unfold State.landHbm; split <;> simp

@[simp] theorem State.landHome_monitor (s : State) (q : HomeReq) (bs : List Byte) :
    (State.landHome s q bs).monitor = s.monitor := by unfold State.landHome; split <;> simp

@[simp] theorem State.reply_monitor (s : State) (f : Nat) (r : PageReq) (sub : BitVec 8) :
    (State.reply s f r sub).monitor = s.monitor := by simp [State.reply]

@[simp] theorem State.writeRequest_monitor (s : State) (f : Nat) (r : PageReq) :
    (State.writeRequest s f r).monitor = s.monitor := by simp [State.writeRequest]

@[simp] theorem State.writeRequests_monitor (s : State) (f : Nat) :
    (State.writeRequests s f).monitor = s.monitor := by simp [State.writeRequests]

@[simp] theorem State.writeReclaim_monitor (s : State) (x : Nat) (tag : BitVec 32) :
    (State.writeReclaim s x tag).monitor = s.monitor := by simp [State.writeReclaim]

@[simp] theorem State.writeReclaims_monitor (s : State) :
    (State.writeReclaims s).monitor = s.monitor := by simp [State.writeReclaims]

@[simp] theorem State.setFloor_monitor (s : State) (f ch n : Nat) :
    (State.setFloor s f ch n).monitor = s.monitor := by simp [State.setFloor]

@[simp] theorem State.apply_monitor (s : State) (f : Nat) (x : Setting) :
    (State.apply s f x).monitor = s.monitor := by unfold State.apply; split <;> simp

@[simp] theorem State.transferRecord_monitor (s : State) (kind tries lane ago : Nat) (x : Burst) :
    (State.transferRecord s kind tries lane ago x).monitor = s.monitor := by simp [State.transferRecord]

@[simp] theorem State.loseBurst_monitor (s : State) (tries lane ago : Nat) (x : Burst) :
    (State.loseBurst s tries lane ago x).monitor = s.monitor := by simp [State.loseBurst]

@[simp] theorem State.clearWord_monitor (s : State) (id : CoreId) (st : StoreKind) (o : Nat) :
    (State.clearWord s id st o).monitor = s.monitor := by unfold State.clearWord; split <;> simp

@[simp] theorem State.storeRecord_monitor (s : State) (kind : Nat) (id : CoreId) (st : StoreKind) (off : Nat) :
    (State.storeRecord s kind id st off).monitor = s.monitor := by unfold State.storeRecord; split <;> simp

@[simp] theorem State.checkWord_monitor (s : State) (id : CoreId) (st : StoreKind) (o : Nat) (e : CellError) :
    (State.checkWord s id st o e).monitor = s.monitor := by unfold State.checkWord; split <;> simp

@[simp] theorem State.checkQueued_monitor (s : State) (id : CoreId) (e : CellError) :
    (s.checkQueued id e).monitor = s.monitor := by
  cases e <;> simp [State.checkQueued]

@[simp] theorem State.updArray_monitor (s : State) (l : ColId) (f : ColArray → ColArray) :
    (State.updArray s l f).monitor = s.monitor := by simp [State.updArray]

@[simp] theorem State.emitRow_monitor (s : State) (id : CoreId) (dst : Option Nat) (r : SliceRow) :
    (State.emitRow s id dst r).monitor = s.monitor := by unfold State.emitRow; (repeat' split) <;> simp

@[simp] theorem State.emitRows_monitor (s : State) (id : CoreId) (dst : Option Nat) (rs : List SliceRow) :
    (State.emitRows s id dst rs).monitor = s.monitor := by simp [State.emitRows]

@[simp] theorem State.tickSlice_monitor (s : State) (id : CoreId) :
    (State.tickSlice s id).monitor = s.monitor := by unfold State.tickSlice; split <;> simp

@[simp] theorem State.haltCore_monitor (s : State) (id : CoreId) :
    (State.haltCore s id).monitor = s.monitor := by simp [State.haltCore]

@[simp] theorem State.haltRegion_monitor (s : State) (r : RegionId) :
    (State.haltRegion s r).monitor = s.monitor := by simp [State.haltRegion]

@[simp] theorem State.stopArray_monitor (s : State) (l : ColId) :
    (State.stopArray s l).monitor = s.monitor := by unfold State.stopArray; split <;> simp

@[simp] theorem State.stopEngines_monitor (s : State) (r : Region) :
    (State.stopEngines s r).monitor = s.monitor := by simp [State.stopEngines]

@[simp] theorem State.addStripes_monitor (s : State) (l : List Stripe) :
    (State.addStripes s l).monitor = s.monitor := by simp [State.addStripes]

@[simp] theorem State.claim_monitor (col : Nat) (st : StoreKind) (n : Nat) :
    ∀ s : State, (State.claim col st n s).monitor = s.monitor := by
  induction n with
  | zero => intro s; rfl
  | succ n ih => intro s; unfold State.claim; (repeat' split) <;> simp [ih]

@[simp] theorem State.fetchStripes_monitor (s : State) (r : Region) : (s.fetchStripes r).monitor = s.monitor := by
  unfold State.fetchStripes; dsimp only
  rw [State.foldl_monitor]
  · simp
  · intro s x; exact State.foldl_monitor _ _ _ fun s st => State.claim_monitor ..

@[simp] theorem State.growStripes_monitor (s : State) :
    (State.growStripes s).monitor = s.monitor := by simp [State.growStripes]

@[simp] theorem State.forget_monitor (s : State) (r : Region) :
    (State.forget s r).monitor = s.monitor := by simp [State.forget]

@[simp] theorem State.stripeRecord_monitor (s : State) (kind col : Nat) (x : Stripe) :
    (State.stripeRecord s kind col x).monitor = s.monitor := by simp [State.stripeRecord]

@[simp] theorem State.prolong_monitor (s : State) (col n : Nat) :
    (State.prolong s col n).monitor = s.monitor := by simp [State.prolong]

@[simp] theorem State.meshColumn_monitor (s : State) (n col : Nat) :
    (State.meshColumn s n col).monitor = s.monitor := by simp [State.meshColumn]

@[simp] theorem State.setTries_monitor (s : State) (x : Stripe) (n : Nat × Nat) :
    (State.setTries s x n).monitor = s.monitor := by simp [State.setTries]

@[simp] theorem State.fence_monitor (s : State) : (State.fence s).monitor = s.monitor := by simp [State.fence]

@[simp] theorem State.markFailing_monitor (s : State) (p : Nat) :
    (State.markFailing s p).monitor = s.monitor := by simp [State.markFailing]

@[simp] theorem State.mend_monitor (s : State) : s.mend.monitor = s.monitor := by
  unfold State.mend
  refine State.foldl_monitor _ _ _ fun s k => ?_
  (repeat' split) <;> simp

@[simp] theorem State.block_monitor (s : State) : (State.block s).monitor = s.monitor := by simp [State.block]

@[simp] theorem State.pushTurn_monitor (s : State) (r : RegionId) (turns pause count : Nat) :
    (State.pushTurn s r turns pause count).monitor = s.monitor := by unfold State.pushTurn; dsimp only; split <;> simp

@[simp] theorem State.eachCore_monitor (s : State) (r : RegionId) (f : Core → Core) :
    (State.eachCore s r f).monitor = s.monitor := by simp [State.eachCore]

@[simp] theorem State.restartRegion_monitor (s : State) (r : RegionId) :
    (State.restartRegion s r).monitor = s.monitor := by simp [State.restartRegion]

@[simp] theorem State.allClean_monitor (s : State) (f : Nat) :
    (State.allClean s f).monitor = s.monitor := by simp [State.allClean]

@[simp] theorem State.takeCheckpoints_monitor (s : State) :
    (State.takeCheckpoints s).monitor = s.monitor := by simp [State.takeCheckpoints]

theorem applyReply_monitor {m : Msg} {rd : BitVec 6} {v : BitVec 64} {s : State} {r : State × Bool}
    (h : applyReply m rd v s = some r) :
    r.1.monitor = s.monitor := by
  obtain ⟨c, -, rfl⟩ := Option.map_eq_some_iff.1 h; simp

theorem applyDeposit_monitor {m : Msg} {k : BitVec 5} {v : BitVec 64} {s : State} {r : State × Bool}
    (h : applyDeposit m k v s = some r) :
    r.1.monitor = s.monitor := by
  obtain ⟨c, -, rfl⟩ := Option.map_eq_some_iff.1 h; dsimp only; split <;> simp

theorem applyBeat_monitor {m : Msg} {regs : Bool} {off : Nat} {bs : List Byte} {cell : BitVec 5} {s : State} {r :
    State × Bool} (h : applyBeat m regs off bs cell s = some r) :
    r.1.monitor = s.monitor := by
  obtain ⟨c, -, rfl⟩ := Option.map_eq_some_iff.1 h; simp

theorem State.landResult_monitor {s t : State} {k : Nat} (h : s.landResult k = some t) : t.monitor = s.monitor := by
  simp only [State.landResult, Option.bind_eq_some_iff, Option.map_eq_some_iff] at h
  obtain ⟨m, -, r, h, rfl⟩ := h
  rw [State.updRegion_monitor]
  split at h
  · exact (applyReply_monitor h).trans rfl
  · exact (applyDeposit_monitor h).trans rfl
  · exact (applyBeat_monitor h).trans rfl
  · cases h

@[simp] theorem State.applyForwarded_monitor (s : State) : s.applyForwarded.monitor = s.monitor := by
  unfold State.applyForwarded
  refine State.foldl_monitor _ _ _ fun t m => ?_
  split
  · split
    · rfl
    · exact State.getD_monitor (fun u h => State.landResult_monitor h) rfl
  · rfl

@[simp] theorem State.dueSwitch_monitor (s : State) :
    (State.dueSwitch s).monitor = s.monitor := by simp [State.dueSwitch]

@[simp] theorem State.beginSwitch_monitor (s : State) (x : RegionId × Option RegionId) :
    (State.beginSwitch s x).monitor = s.monitor := by unfold State.beginSwitch; split <;> simp

@[simp] theorem State.switchedOut_monitor (s : State) (id : RegionId) :
    (State.switchedOut s id).monitor = s.monitor := by unfold State.switchedOut; split <;> simp

@[simp] theorem State.saveBank_monitor (s : State) (id : RegionId) :
    (State.saveBank s id).monitor = s.monitor := by simp [State.saveBank]

@[simp] theorem State.keepCores_monitor (s : State) (p : CoreId → Bool) :
    (State.keepCores s p).monitor = s.monitor := by unfold State.keepCores; dsimp only; (repeat' split) <;> simp

@[simp] theorem State.dropRegion_monitor (s : State) (id : RegionId) :
    (State.dropRegion s id).monitor = s.monitor := by simp [State.dropRegion]

@[simp] theorem State.note_monitor (s : State) : (State.note s).monitor = s.monitor := by simp [State.note]

@[simp] theorem State.take_monitor (s : State) (f q : Nat) (t : Taken) :
    (State.take s f q t).monitor = s.monitor := by simp [State.take]

@[simp] theorem State.release_monitor (s : State) (f q : Nat) :
    (State.release s f q).monitor = s.monitor := by simp [State.release]

@[simp] theorem State.accept_monitor (s : State) (f q : Nat) :
    (State.accept s f q).monitor = s.monitor := by unfold State.accept; dsimp only; (repeat' split) <;> simp

@[simp] theorem State.startMove_monitor (s : State) (load : Bool) (f q : Nat) (sseq : BitVec 16) (host : BitVec 64)
    (obj : BitVec 24) (lm : BitVec 7) (off len : BitVec 64) :
    (State.startMove s load f q sseq host obj lm off len).monitor = s.monitor := by simp [State.startMove]

@[simp] theorem State.endMove_monitor (s : State) (f q : Nat) (sseq : BitVec 16) (id : CoreId) (i : Nat) (b : Bulk)
    (st : BitVec 4) (detail : BitVec 64) :
    (State.endMove s f q sseq id i b st detail).monitor = s.monitor := by simp [State.endMove]

@[simp] theorem State.updSem_monitor (s : State) (f : Nat) (k : BitVec 8) (g : BitVec 64 → BitVec 64) :
    (State.updSem s f k g).monitor = s.monitor := by simp [State.updSem]

@[simp] theorem State.setTimer_monitor (s : State) (f : Nat) (k : BitVec 6) (t : Timer) :
    (State.setTimer s f k t).monitor = s.monitor := by simp [State.setTimer]

@[simp] theorem State.killQueue_monitor (s : State) (f q : Nat) :
    (State.killQueue s f q).monitor = s.monitor := by simp [State.killQueue]

@[simp] theorem State.askKill_monitor (s : State) (f q : Nat) :
    (State.askKill s f q).monitor = s.monitor := by simp [State.askKill]

@[simp] theorem State.writeDescriptor_monitor (s : State) (f q i : Nat) (v : BitVec 64) :
    (State.writeDescriptor s f q i v).monitor = s.monitor := by unfold State.writeDescriptor; (repeat' split) <;> simp

@[simp] theorem State.writeInval_monitor (s : State) (f : Nat) (v : BitVec 64) :
    (State.writeInval s f v).monitor = s.monitor := by simp [State.writeInval]

@[simp] theorem State.writePf_monitor (s : State) (off : Nat) (v : BitVec 64) :
    (s.writePf off v).monitor = s.monitor := by
  unfold State.writePf
  split
  · exact State.monitor_mk ..
  · (repeat' split) <;> simp

@[simp] theorem State.invalidate_monitor (s : State) (f : Nat) (kind : BitVec 2) (g : BitVec 39) :
    (State.invalidate s f kind g).monitor = s.monitor := by unfold State.invalidate; (repeat' split) <;> simp

@[simp] theorem State.forgetAll_monitor (s : State) (f : Nat) (kind : BitVec 2) (g : BitVec 39) :
    (State.forgetAll s f kind g).monitor = s.monitor := by simp [State.forgetAll]

@[simp] theorem State.mintAnswer_monitor (s : State) (f : Nat) (v : BitVec 64) :
    (State.mintAnswer s f v).monitor = s.monitor := by simp [State.mintAnswer]

@[simp] theorem State.mintRefuse_monitor (s : State) (f : Nat) : (s.mintRefuse f).monitor = s.monitor := by
  simp [State.mintRefuse]

@[simp] theorem State.mintPf_monitor (s : State) (f : Nat) :
    (State.mintPf s f).monitor = s.monitor := by simp [State.mintPf]

theorem State.mintEntry_monitor {s t : State} {f obj st : Nat} {e : BitVec 512}
    (h : s.mintEntry f obj st e = some t) :
    t.monitor = s.monitor := by
  unfold State.mintEntry at h
  split at h
  · obtain ⟨x, -, rfl⟩ := Option.map_eq_some_iff.1 h; simp
  · cases h

@[simp] theorem State.mintObject_monitor (s : State) (f : Nat) (obj : BitVec 15) (e : BitVec 512) (circ : Bool)
    (lm : Nat) (creg : BitVec 4) :
    (s.mintObject f obj e circ lm creg).monitor = s.monitor := by
  unfold State.mintObject
  split
  · simp
  · rename_i h; simp [State.mintEntry_monitor h]

@[simp] theorem State.updHart_monitor (s : State) (h : Nat) (k : Hart) :
    (State.updHart s h k).monitor = s.monitor := by simp [State.updHart]

theorem State.writeObj_monitor {s t : State} {f obj o : Nat} {bs : List Byte} (h : s.writeObj f obj o bs = some t) :
    t.monitor = s.monitor := by
  unfold State.writeObj at h
  split at h
  · obtain rfl := Option.some.inj h; simp
  · cases h

@[simp] theorem State.writeObj_getD_monitor (s : State) (f obj o : Nat) (bs : List Byte) :
    ((s.writeObj f obj o bs).getD s).monitor = s.monitor :=
  State.getD_monitor (fun _ h => State.writeObj_monitor h) rfl

@[simp] theorem State.endCollective_monitor (s : State) (h : Nat) (k : Hart) (result : BitVec 8) :
    (s.endCollective h k result).monitor = s.monitor := by
  simp [State.endCollective]

@[simp] theorem State.abandon_monitor (s : State) (h : Nat) (k : Hart) (result : BitVec 8) :
    (s.abandon h k result).monitor = s.monitor := by
  unfold State.abandon
  dsimp only
  rw [State.endCollective_monitor]
  split <;> simp

@[simp] theorem State.resetFn_monitor (s : State) (f : Nat) :
    (State.resetFn s f).monitor = s.monitor := by simp [State.resetFn]

@[simp] theorem State.answerFabric_monitor (s : State) (i : Nat) (src : BitVec 9) (v : FabricVal) :
    (State.answerFabric s i src v).monitor = s.monitor := by simp [State.answerFabric]

@[simp] theorem State.applyFabric_monitor (s : State) (x : FabricReq) (ps : List (Nat × Nat)) :
    (s.applyFabric x ps).1.monitor = s.monitor := by
  unfold State.applyFabric; split <;> simp

@[simp] theorem State.fabricStep_monitor (s : State) (i : Nat) : (s.fabricStep i).monitor = s.monitor := by
  unfold State.fabricStep
  split
  · rfl
  · split
    · rfl
    · split
      · simp
      · simp
      · split
        · rfl
        · rename_i h; dsimp only; split <;> simp [State.serve_monitor h]

@[simp] theorem State.partRecord_monitor (s : State) (kind i store off : Nat) :
    (State.partRecord s kind i store off).monitor = s.monitor := by simp [State.partRecord]

@[simp] theorem State.failSlot_monitor (s : State) (k slot : Nat) :
    (State.failSlot s k slot).monitor = s.monitor := by simp [State.failSlot]

@[simp] theorem State.residue_monitor (s : State) :
    (State.residue s).monitor = s.monitor := by unfold State.residue; dsimp only; split <;> simp

@[simp] theorem State.dropMessages_monitor (s : State) (f : Nat) :
    (State.dropMessages s f).monitor = s.monitor := by simp [State.dropMessages]

@[simp] theorem State.dropHarts_monitor (s : State) (f : Nat) :
    (State.dropHarts s f).monitor = s.monitor := by simp [State.dropHarts]

@[simp] theorem State.rollBackOwner_monitor (s : State) (f : Nat) (k : Checkpoint) (cause : BitVec 8) :
    (State.rollBackOwner s f k cause).monitor = s.monitor := by simp [State.rollBackOwner]

@[simp] theorem State.endOwner_monitor (s : State) (f : Nat) (cause : BitVec 8) :
    (State.endOwner s f cause).monitor = s.monitor := by simp [State.endOwner]

@[simp] theorem State.serveStrike_monitor (s : State) (f : Nat) :
    (State.serveStrike s f).monitor = s.monitor := by unfold State.serveStrike; (repeat' split) <;> simp

@[simp] theorem State.keepShadow_monitor (s : State) (f : Nat) :
    (State.keepShadow s f).monitor = s.monitor := by unfold State.keepShadow; split <;> simp

@[simp] theorem State.endLaunch_monitor (s : State) (id : RegionId) (st : BitVec 4) (detail : BitVec 64) :
    (State.endLaunch s id st detail).monitor = s.monitor := by simp [State.endLaunch]

@[simp] theorem State.serveStopped_monitor (s : State) :
    (State.serveStopped s).monitor = s.monitor := by simp [State.serveStopped]

@[simp] theorem State.serveEnding_monitor (s : State) (r : Region) :
    (State.serveEnding s r).monitor = s.monitor := by unfold State.serveEnding; (repeat' split) <;> simp

@[simp] theorem State.killPacket_monitor (s : State) (f q : Nat) (t : Taken) :
    (State.killPacket s f q t).monitor = s.monitor := by unfold State.killPacket; split <;> simp

@[simp] theorem State.serveKill_monitor (s : State) (f q : Nat) :
    (State.serveKill s f q).monitor = s.monitor := by simp [State.serveKill]

@[simp] theorem State.serveReset_monitor (s : State) (f : Nat) :
    (State.serveReset s f).monitor = s.monitor := by simp [State.serveReset]

@[simp] theorem State.dueKills_monitor (s : State) (f : Nat) :
    (State.dueKills s f).monitor = s.monitor := by simp [State.dueKills]

@[simp] theorem State.contain_monitor (s : State) (f : Nat) :
    (State.contain s f).monitor = s.monitor := by simp [State.contain]

@[simp] theorem State.containAll_monitor (s : State) :
    (State.containAll s).monitor = s.monitor := by simp [State.containAll]

@[simp] theorem State.rotate_monitor (s : State) :
    (State.rotate s).monitor = s.monitor := by unfold State.rotate; split <;> simp

@[simp] theorem State.tickEngines_monitor (s : State) (r : Region) :
    (State.tickEngines s r).monitor = s.monitor := by simp [State.tickEngines]

@[simp] theorem State.flushRows_monitor (s : State) : s.flushRows.monitor = s.monitor := by
  unfold State.flushRows
  refine State.foldl_monitor _ _ _ fun s c => State.onCore_monitor _ _ _ fun s => ?_
  rw [State.onMe_monitor]
  exact State.foldl_monitor _ _ _ fun s x => State.scrPut_monitor ..

@[simp] theorem State.onIssue_monitor (s : State) (f : Issue → Issue) :
    (State.onIssue s f).monitor = s.monitor := by simp [State.onIssue]

/-! ## Words and events -/

/-- What follows s keeps the bounds that s keeps, and the counter is not lower. -/
def State.Within (s t : State) : Prop := (s.bounded → t.bounded) ∧ s.lms ≤ t.lms

/-- The outcome is a next state, within the bounds. -/
def State.Keeps (s : State) (r : Res?) : Prop := ∃ t, r = .next t ∧ s.Within t

theorem State.within_refl (s : State) : s.Within s := ⟨id, le_rfl⟩

theorem State.Within.trans {s t u : State} (h : s.Within t) (k : t.Within u) : s.Within u :=
  ⟨fun hs => k.1 (h.1 hs), h.2.trans k.2⟩

theorem State.within_of_monitor {s t : State} (h : t.monitor = s.monitor) : s.Within t := by
  simp only [State.monitor, Prod.mk.injEq] at h
  obtain ⟨hp, hd, hl⟩ := h
  refine ⟨fun hb => ?_, hl.ge⟩
  unfold State.bounded at hb ⊢
  rwa [hp, hd, hl]

@[simp] theorem State.keeps_next {s t : State} (h : t.monitor = s.monitor) : s.Keeps (.next t) :=
  ⟨t, rfl, State.within_of_monitor h⟩

theorem State.Keeps.of_monitor {s t : State} {r : Res?} (h : s.monitor = t.monitor) (k : s.Keeps r) : t.Keeps r := by
  obtain ⟨u, hu, hsu⟩ := k
  exact ⟨u, hu, (State.within_of_monitor h).trans hsu⟩

@[simp] theorem State.keeps_ite {s : State} (p : Prop) [Decidable p] (q r : Res?) :
    s.Keeps (if p then q else r) ↔ if p then s.Keeps q else s.Keeps r := by
  split <;> rfl

/-- Serving changes the channels alone. -/
theorem State.keeps_served {s : State} {o : Nat} {ps : List (Nat × Nat)} {x : Bool} {k : State → Res?}
    (h : ∀ t : State, t.monitor = s.monitor → s.Keeps (k t)) :
    s.Keeps (match s.serve o ps x with | none => .next s | some t => k t) := by
  split
  · simp
  · exact h _ (State.serve_monitor ‹_›)

theorem State.foldl_within {α : Type} (l : List α) (f : State → α → State) (h : ∀ (s : State) x, s.Within (f s x)) :
    ∀ s : State, s.Within (l.foldl f s) := by
  induction l with
  | nil => exact State.within_refl
  | cons x l ih => exact fun s => (h s x).trans (ih _)

theorem State.onCore_within {f : State → State} (h : ∀ s : State, s.Within (f s)) (s : State) (id : CoreId) :
    s.Within (s.onCore id f) := by
  unfold State.onCore
  split
  · exact h s
  · split
    · exact s.within_refl
    · exact (State.within_of_monitor (s.swap_monitor id)).trans
        ((h _).trans (State.within_of_monitor (State.swap_monitor ..)))

/-- A packet that waits leaves what its word has begun, or the state before it. -/
theorem State.waits_within {s t : State} (h : s.Within t) : s.Within (s.waits t) := by
  unfold State.waits
  split
  · exact h.trans (State.within_of_monitor (by simp))
  · exact State.within_of_monitor (by simp)

theorem State.waitsAll_within {s : State} {ts : List State} (h : ∀ t ∈ ts, s.Within t) : s.Within (s.waitsAll ts) := by
  unfold State.waitsAll
  split
  · exact State.waits_within (h _ (by simp))
  · exact State.within_of_monitor (by simp)

@[simp] theorem actNow_keeps (src dst : List Res) (chk : Option Exc) (wait : Bool) (eff : State) (s : State)
    (heff : eff.monitor = s.monitor) :
    s.Keeps (actNow src dst chk wait eff s) := by unfold actNow; (repeat' split) <;> simp [*]

@[simp] theorem act_keeps (src dst : List Res) (chk : Option Exc) (wait : Bool) (eff : State) (s : State)
    (heff : eff.monitor = s.monitor) :
    s.Keeps (act src dst chk wait eff s) := by simp [act, *]

@[simp] theorem actOut_keeps (src dst : List Res) (chk : Option Exc) (wait : Bool) (eff : State) (s : State)
    (heff : eff.monitor = s.monitor) :
    s.Keeps (actOut src dst chk wait eff s) := by unfold actOut; (repeat' split) <;> simp [*]

@[simp] theorem actShared_keeps (src dst : List Res) (chk : Option Exc) (wait : Bool) (eff dry : State) (s : State)
    (heff : eff.monitor = s.monitor) (hdry : dry.monitor = s.monitor) :
    s.Keeps (actShared src dst chk wait eff dry s) := by simp [actShared, *]

@[simp] theorem loadWord_keeps (mj : BitVec 6) (n : Nat) (signed acq : Bool) (rt ra : BitVec 6) (disp : BitVec 10)
    (s : State) :
    s.Keeps (loadWord mj n signed acq rt ra disp s) := by unfold loadWord; dsimp only; (repeat' split) <;> simp [*]

@[simp] theorem storeWord_keeps (mj : BitVec 6) (n : Nat) (rel : Bool) (rt ra : BitVec 6) (disp : BitVec 10)
    (s : State) :
    s.Keeps (storeWord mj n rel rt ra disp s) := by unfold storeWord; dsimp only; (repeat' split) <;> simp [*]

theorem execLdfe_keeps (rt ra : BitVec 6) (disp : BitVec 10) (s : State) :
    s.Keeps (execLdfe rt ra disp s) := by unfold execLdfe; dsimp only; split <;> simp

theorem execStfe_keeps (rt ra : BitVec 6) (disp : BitVec 10) (s : State) :
    s.Keeps (execStfe rt ra disp s) := by unfold execStfe; dsimp only; split <;> simp

theorem execBcopy_keeps (ga gb gc : BitVec 6) (w : BitVec 5) (s : State) :
    s.Keeps (execBcopy ga gb gc w s) := by unfold execBcopy; dsimp only; split <;> simp

@[simp] theorem tileWord_keeps (load : Bool) (ga gb gc : BitVec 6) (w : BitVec 5) (s : State) :
    s.Keeps (tileWord load ga gb gc w s) := by unfold tileWord; dsimp only; (repeat' split) <;> simp [*]

@[simp] theorem portWord_keeps (src dst : List Res) (chk : Option Exc) (short wait : Bool) (eff s : State)
    (heff : eff.monitor = s.monitor) :
    s.Keeps (portWord src dst chk short wait eff s) := by simp [portWord, *]

@[simp] theorem vectorWord_keeps (g : List Res) (chk : Option Exc) (srcs dsts : List VRows) (wait : Bool)
    (hold L : Nat) (outs : List VOut) (draws : Nat) (s : State) :
    s.Keeps (vectorWord g chk srcs dsts wait hold L outs draws s) := by simp [vectorWord, *]

@[simp] theorem vmap1_keeps (mj : BitVec 6) (L : Nat) (ok : EType → Bool) (f : EType → Nat → Nat × BitVec 5)
    (vd va : BitVec 5) (t : EType) (s : State) :
    s.Keeps (vmap1 mj L ok f vd va t s) := by simp [vmap1, *]

@[simp] theorem vmap2_keeps (mj : BitVec 6) (L : Nat) (ok : EType → Bool) (f : EType → Nat → Nat → Nat × BitVec 5)
    (vd va vb : BitVec 5) (t : EType) (s : State) :
    s.Keeps (vmap2 mj L ok f vd va vb t s) := by simp [vmap2, *]

@[simp] theorem vmap3_keeps (mj : BitVec 6) (L : Nat) (ok : EType → Bool)
    (f : EType → Nat → Nat → Nat → Nat × BitVec 5) (vd va vb vc : BitVec 5) (t : EType) (s : State) :
    s.Keeps (vmap3 mj L ok f vd va vb vc t s) := by simp [vmap3, *]

@[simp] theorem vmapImm_keeps (ok : EType → Bool) (f : EType → Nat → Nat → Nat × BitVec 5) (vd : BitVec 5)
    (imm : BitVec 16) (s : State) :
    s.Keeps (vmapImm ok f vd imm s) := by unfold vmapImm; split <;> simp [*]

theorem execVsplatImm_keeps (vd : BitVec 5) (imm : BitVec 16) (s : State) :
    s.Keeps (execVsplatImm vd imm s) := by unfold execVsplatImm; split <;> simp

theorem execVqnt_keeps (vd va vs : BitVec 5) (rm : Option RMode) (s : State) :
    s.Keeps (execVqnt vd va vs rm s) := by unfold execVqnt; split <;> simp

@[simp] theorem rowReduce_keeps (mx : Bool) (vd va : BitVec 5) (t : EType) (s : State) :
    s.Keeps (rowReduce mx vd va t s) := by simp [rowReduce, *]

@[simp] theorem columnReduce_keeps (mx : Bool) (vd va : BitVec 5) (t : EType) (s : State) :
    s.Keeps (columnReduce mx vd va t s) := by simp [columnReduce, *]

@[simp] theorem scratchRowsWord_keeps (g : List Res) (chk : Option Exc) (src : List VRows) (rs : List (Nat × Nat))
    (L : Nat)
    (rows : List (List (Nat × List Byte))) (s : State) : s.Keeps (scratchRowsWord g chk src rs L rows s) := by
  unfold scratchRowsWord
  dsimp only
  split
  · simp
  · refine portWord_keeps _ _ _ _ _ _ _ ?_
    rw [State.foldl_monitor]
    · simp
    · exact fun s x => State.foldl_monitor _ _ _ fun s x => by simp

theorem execVld_keeps (vd ga gb : BitVec 5) (s : State) :
    s.Keeps (execVld vd ga gb s) := by unfold execVld; dsimp only; split <;> simp

theorem execVst_keeps (vd ga gb : BitVec 5) (s : State) :
    s.Keeps (execVst vd ga gb s) := by unfold execVst; dsimp only; split <;> simp

@[simp] theorem State.feComposed_monitor (full : Bool) (n : Nat) (s : State) (l : Nat) :
    (s.feComposed l full n).monitor = s.monitor := by
  induction n generalizing s l with
  | zero => rfl
  | succ n ih => simp [State.feComposed, ih]

theorem execFeinit_keeps (ra rb : BitVec 6) (s : State) : s.Keeps (execFeinit ra rb s) :=
  actShared_keeps _ _ _ _ _ _ _ (by split <;> simp) (by split <;> simp)

theorem actHbm_keeps {src val dst : List Res} {k : State → Res?} {s : State} (hk : s.Keeps (k s)) :
    s.Keeps (actHbm src val dst k s) := by
  unfold actHbm; (repeat' split) <;> simp [hk]

@[simp] theorem homeWord_keeps (n : BitVec 4) (dst : List Res) (out : Bool) (far : Option (List Nat) → State → State)
    (s : State) (hf : ∀ o, (far o s).monitor = s.monitor) : s.Keeps (homeWord n dst out far s) := by
  unfold homeWord; (repeat' split) <;> simp [hf]

theorem hbmWord_keeps (n : BitVec 4) (src val dst : List Res) (chk : Option Exc) (tx : Tx) (wait out : Bool)
    (part eff : State → State) (far : Option (List Nat) → State → State) (s : State) (hp :
    (part s).monitor = s.monitor)
    (he : (eff s).monitor = s.monitor) (hf : ∀ o, (far o s).monitor = s.monitor) :
    s.Keeps (hbmWord n src val dst chk tx wait out part eff far s) := by
  refine actHbm_keeps ?_
  (repeat' split) <;> simp [hp, he, hf]

theorem execHld_keeps (rd : BitVec 6) (c : BitVec 4) (go : BitVec 6) (o : Order) (s : State) :
    s.Keeps (execHld rd c go o s) :=
  hbmWord_keeps _ _ _ _ _ _ _ _ _ _ _ _ (by simp) (by simp) (by simp)

theorem execHst_keeps (rd : BitVec 6) (c : BitVec 4) (go : BitVec 6) (o : Order) (s : State) :
    s.Keeps (execHst rd c go o s) :=
  hbmWord_keeps _ _ _ _ _ _ _ _ _ _ _ _ (by simp) (by simp) (by simp)

theorem execHldX_keeps (rd : BitVec 6) (c : BitVec 4) (go : BitVec 6) (o : Order) (s : State) :
    s.Keeps (execHldX rd c go o s) :=
  hbmWord_keeps _ _ _ _ _ _ _ _ _ _ _ _ (by simp) (by simp) (by simp)

theorem execHldv_keeps (v : BitVec 5) (c : BitVec 4) (go : BitVec 6) (s : State) : s.Keeps (execHldv v c go s) :=
  hbmWord_keeps _ _ _ _ _ _ _ _ _ _ _ _ (by simp) (by simp) (by simp)

theorem execHstv_keeps (v : BitVec 5) (c : BitVec 4) (go : BitVec 6) (s : State) : s.Keeps (execHstv v c go s) :=
  hbmWord_keeps _ _ _ _ _ _ _ _ _ _ _ _ (by simp) (by simp) (by simp)

@[simp] theorem gatherWord_keeps (load : Bool) (v : BitVec 5) (cn : BitVec 4) (i : BitVec 5) (s : State) :
    s.Keeps (gatherWord load v cn i s) := by
  unfold gatherWord
  extract_lets rows n w sz c iw es chk es' data index fall far
  split
  extract_lets go
  have hfall : ∀ p l (t : State), (fall p l t).monitor = t.monitor := by intro p l t; cases p <;> simp [fall]
  have hgo : ∀ p (t : State), (go p t).monitor = t.monitor := by
    intro p t; dsimp only [go]; (repeat' split) <;> simp [hfall]
  have hfar : ∀ o (t : State), (far o t).monitor = t.monitor := by
    intro o t; dsimp only [far]; (repeat' split) <;> simp [hfall]
  split <;> exact hbmWord_keeps _ _ _ _ _ _ _ _ _ _ _ _ (hgo _ _) (hgo _ _) fun o => hfar o _

@[simp] theorem hatomWord_keeps (op : AtomOp) (rd : BitVec 6) (c : BitVec 4) (go : BitVec 6) (o : Order) (s : State) :
    s.Keeps (hatomWord op rd c go o s) :=
  hbmWord_keeps _ _ _ _ _ _ _ _ _ _ _ _ (by simp) (by simp) (by simp)

@[simp] theorem shipWord_keeps (pull : Bool) (ga : BitVec 6) (c : BitVec 4) (go : BitVec 6) (s : State) :
    s.Keeps (shipWord pull ga c go s) := by unfold shipWord; dsimp only; (repeat' split) <;> simp [*]

theorem execBgemv_keeps (ga : BitVec 6) (c : BitVec 4) (go : BitVec 6) (s : State) :
    s.Keeps (execBgemv ga c go s) := by unfold execBgemv; dsimp only; split <;> simp

@[simp] theorem escrowWord_keeps (cn : BitVec 4) (src : List Res) (chk : Option Exc) (absent : BitVec 8)
    (test : BitVec 512 → Option (BitVec 8)) (wait : Bool) (new : BitVec 512 → BitVec 512) (s : State) :
    s.Keeps (escrowWord cn src chk absent test wait new s) := by
  unfold escrowWord
  split
  · simp
  · exact hbmWord_keeps _ _ _ _ _ _ _ _ _ _ _ _ (by simp) (by simp) (by simp)

@[simp] theorem scalar_keeps (src : List Res) (rd : BitVec 6) (v : BitVec 64) (L : Nat) (s : State) :
    s.Keeps (scalar src rd v L s) := by simp [scalar, *]

@[simp] theorem scalar2_keeps (f : BitVec 64 → BitVec 64 → BitVec 64) (L : Nat) (rd ra rb : BitVec 6) (s : State) :
    s.Keeps (scalar2 f L rd ra rb s) := by simp [scalar2, *]

@[simp] theorem scalar1_keeps (f : BitVec 64 → BitVec 64) (rd ra : BitVec 6) (s : State) :
    s.Keeps (scalar1 f rd ra s) := by simp [scalar1, *]

@[simp] theorem scalarI_keeps (f : BitVec 64 → BitVec 64 → BitVec 64) (rd ra : BitVec 6) (imm : BitVec 12)
    (s : State) :
    s.Keeps (scalarI f rd ra imm s) := by simp [scalarI, *]

@[simp] theorem scalarP_keeps (src : List Res) (pd : BitVec 3) (v : Bool) (s : State) :
    s.Keeps (scalarP src pd v s) := by simp [scalarP, *]

@[simp] theorem divide_keeps (f : BitVec 64 → BitVec 64 → BitVec 64) (rd ra rb : BitVec 6) (s : State) :
    s.Keeps (divide f rd ra rb s) := by simp [divide, *]

@[simp] theorem actBranch_keeps (src dst : List Res) (chk : Option Exc) (eff : State) (s : State)
    (heff : eff.monitor = s.monitor) :
    s.Keeps (actBranch src dst chk eff s) := by simp [actBranch, *]

@[simp] theorem branch_keeps (src : List Res) (dst : List Res) (taken : Bool) (disp : BitVec 19) (pre : State)
    (s : State) (hpre : pre.monitor = s.monitor) :
    s.Keeps (branch src dst taken disp pre s) := by simp [branch, *]

@[simp] theorem csrWrite_keeps (mj : BitVec 6) (ra : BitVec 6) (k : Csr) (w : BitVec 64 → Write) (s : State) :
    s.Keeps (csrWrite mj ra k w s) := by simp [csrWrite, *]

@[simp] theorem trapWord_keeps (cls : BitVec 8) (code : BitVec 12) (s : State) :
    s.Keeps (trapWord cls code s) := by simp [trapWord, *]

theorem execTret_keeps (s : State) : s.Keeps (execTret s) := by unfold execTret; (repeat' split) <;> simp

theorem execWfe_keeps (s : State) : s.Keeps (execWfe s) :=
  State.Keeps.of_monitor (s := s.onMe fun c => { c with onLatch := !s.me.latch }) (by simp)
    (actShared_keeps _ _ _ _ _ _ _ (by simp) (by simp))

@[simp] theorem atomWord_keeps (op : AtomOp) (rd ra rb : BitVec 6) (o : Order) (s : State) :
    s.Keeps (atomWord op rd ra rb o s) := by unfold atomWord; dsimp only; (repeat' split) <;> simp [*]

@[simp] theorem pushWord_keeps (top : Bool) (ga gb : BitVec 6) (s : State) :
    s.Keeps (pushWord top ga gb s) := by simp [pushWord, *]

@[simp] theorem radv_keeps (kind : Nat) (rel : Bool) (ga : BitVec 6) (q : BitVec 3)
    (short : BitVec 256 → Nat → Bool) (loc : Nat → Option Write) (msg : BitVec 256 → BitVec 11 → Option
    (Place × RemoteOp)) (s : State) :
    s.Keeps (radv kind rel ga q short loc msg s) := by unfold radv; dsimp only; (repeat' split) <;> simp [*]

theorem State.exit_monitor {s t : State} {e : SbEntry} (h : s.exit e = some t) : t.monitor = s.monitor := by
  obtain ⟨kind, rel, seq, fresh, behind⟩ := e
  unfold State.exit at h
  dsimp only at h
  cases kind with
  | stfe o v =>
    dsimp only at h
    split at h
    · cases h
    · cases h; simp
  | finish l v home o =>
    cases l with
    | nil =>
      dsimp only at h
      split at h
      · cases h; simp
      · cases h; simp
    | cons r rs => cases h; simp
  | hatom op a b exp rd =>
    obtain ⟨u, hu, rfl⟩ := Option.map_eq_some_iff.1 h
    exact (State.arrayRead_monitor _ _ _ fun t => by simp).trans (State.serve_monitor hu)
  | _ => cases h; simp

theorem execStoreBufferExit_keeps (s : State) : s.Keeps (execStoreBufferExit s) := by
  unfold execStoreBufferExit
  split
  · split
    · refine State.keeps_next (State.onCore_monitor _ _ _ fun s => ?_)
      split
      · rfl
      · split
        · exact State.getD_monitor (fun _ h => State.exit_monitor h) rfl
        · rfl
    · simp
  · simp
def State.Takes (s : State) (o : Option (State × Bool)) : Prop := ∀ r, o = some r → r.1.monitor = s.monitor

@[simp] theorem State.takes_none (s : State) : s.Takes none := fun _ h => nomatch h

@[simp] theorem State.takes_some {s t : State} (b : Bool) (h : t.monitor = s.monitor) : s.Takes (some (t, b)) := by
  rintro _ ⟨⟩; exact h

@[simp] theorem State.takes_map {α : Type} {s : State} (o : Option α) (f : α → State × Bool) (h : ∀ x,
    (f x).1.monitor = s.monitor) :
    
    s.Takes (o.map f) := by
  intro r hr
  obtain ⟨x, -, rfl⟩ := Option.map_eq_some_iff.1 hr
  exact h x

@[simp] theorem applyStore_takes (m : Msg) (off : Nat) (bs : Nat → Memory → List Byte) (s : State) :
    s.Takes (applyStore m off bs s) := by
  unfold applyStore; split <;> simp

@[simp] theorem applyLoad_takes (m : Msg) (off n : Nat) (sg : Bool) (rd : BitVec 6) (s : State) :
    s.Takes (applyLoad m off n sg rd s) := by
  unfold applyLoad; split <;> simp

@[simp] theorem applyAtomic_takes (m : Msg) (op : AtomOp) (off : Nat) (b exp : BitVec 64) (rd : BitVec 6)
    (s : State) :
    
    s.Takes (applyAtomic m op off b exp rd s) := by
  unfold applyAtomic; split <;> simp

@[simp] theorem applyBeat_takes (m : Msg) (regs : Bool) (off : Nat) (bs : List Byte) (cell : BitVec 5) (s : State) :
    s.Takes (applyBeat m regs off bs cell s) := fun _ h => applyBeat_monitor h

@[simp] theorem applyReply_takes (m : Msg) (rd : BitVec 6) (v : BitVec 64) (s : State) :
    s.Takes (applyReply m rd v s) :=
  fun _ h => applyReply_monitor h

@[simp] theorem applyDeposit_takes (m : Msg) (k : BitVec 5) (v : BitVec 64) (s : State) :
    s.Takes (applyDeposit m k v s) :=
  fun _ h => applyDeposit_monitor h

theorem State.deliver_keeps {f : Msg → State → Option (State × Bool)} (s : State) (hf : ∀ (m : Msg)
    (u : State), u.Takes (f m u)) :
    
    s.Keeps (s.deliver f) := by
  unfold State.deliver
  split
  · split
    · simp
    · split
      · split
        · simp
        · rename_i h
          have := hf _ _ _ h
          dsimp only at this
          split <;> simp [this]
      · simp
  · simp

theorem execRemoteStoreApply_keeps (s : State) : s.Keeps (execRemoteStoreApply s) := by
  refine State.deliver_keeps s fun m s => ?_
  (repeat' split) <;> simp

theorem execRemoteLoadApply_keeps (s : State) : s.Keeps (execRemoteLoadApply s) := by
  refine State.deliver_keeps s fun m s => ?_
  (repeat' split) <;> simp

theorem execAtomicApply_keeps (s : State) : s.Keeps (execAtomicApply s) := by
  refine State.deliver_keeps s fun m s => ?_
  (repeat' split) <;> simp

theorem execBankOpApply_keeps (s : State) : s.Keeps (execBankOpApply s) := by
  refine State.deliver_keeps s fun m s => ?_
  (repeat' split) <;> simp

theorem execRemoteLoadReply_keeps (s : State) : s.Keeps (execRemoteLoadReply s) := by
  refine State.deliver_keeps s fun m s => ?_
  (repeat' split) <;> simp

theorem execRemoteAck_keeps (s : State) : s.Keeps (execRemoteAck s) := by
  refine State.deliver_keeps s fun m s => ?_
  (repeat' split) <;> simp

theorem execDepositApply_keeps (s : State) : s.Keeps (execDepositApply s) := by
  refine State.deliver_keeps s fun m s => ?_
  (repeat' split) <;> simp

theorem execCapDepositApply_keeps (s : State) : s.Keeps (execCapDepositApply s) := by
  refine State.deliver_keeps s fun m s => ?_
  (repeat' split) <;> simp

theorem execMessageApply_keeps (s : State) : s.Keeps (execMessageApply s) := by
  refine State.deliver_keeps s fun m s => ?_
  split
  · refine State.takes_map _ _ fun c => ?_
    dsimp only
    split <;> simp
  · exact s.takes_none

theorem execSignalApply_keeps (s : State) : s.Keeps (execSignalApply s) := by
  refine State.deliver_keeps s fun m s => ?_
  (repeat' split) <;> simp

theorem execSetAsidePushApply_keeps (s : State) :
    s.Keeps (execSetAsidePushApply s) := by unfold execSetAsidePushApply; (repeat' split) <;> simp

theorem execRingCreditArrive_keeps (s : State) : s.Keeps (execRingCreditArrive s) := by
  refine State.deliver_keeps s fun m s => ?_
  (repeat' split) <;> simp

theorem execRingFillArrive_keeps (s : State) : s.Keeps (execRingFillArrive s) := by
  refine State.deliver_keeps s fun m s => ?_
  split
  · refine State.takes_map _ _ fun c => ?_
    dsimp only
    split <;> simp
  · exact s.takes_none

theorem execFeRemoteApply_keeps (s : State) : s.Keeps (execFeRemoteApply s) := by
  refine State.deliver_keeps s fun m s => ?_
  split <;> try exact s.takes_none
  all_goals
    refine State.takes_map _ _ fun c => ?_
    (repeat' split) <;> simp

theorem execFeParkedRetry_keeps (s : State) :
    s.Keeps (execFeParkedRetry s) := by unfold execFeParkedRetry; split <;> simp

theorem execCmpo_keeps (rd rs : BitVec 6) (n : CmpN) (s : State) :
    s.Keeps (execCmpo rd rs n s) := by unfold execCmpo; split <;> simp

theorem execCmpr_keeps (s : State) : s.Keeps (execCmpr s) := by unfold execCmpr; split <;> simp

theorem execTaskPop_keeps (s : State) : s.Keeps (execTaskPop s) := by
  unfold execTaskPop
  split
  · refine State.keeps_next (State.onCore_monitor _ _ _ fun s => ?_)
    (repeat' split) <;> simp
  · simp

theorem execStealProbe_keeps (s : State) : s.Keeps (execStealProbe s) := by
  unfold execStealProbe
  split
  · refine State.keeps_next (State.onCore_monitor _ _ _ fun s => ?_)
    (repeat' split) <;> simp
  · simp

theorem execStealRequestApply_keeps (s : State) : s.Keeps (execStealRequestApply s) := by
  refine State.deliver_keeps s fun m s => ?_
  split <;> try exact s.takes_none
  all_goals
    refine State.takes_map _ _ fun c => ?_
    (repeat' split) <;> simp

theorem execStealReply_keeps (s : State) : s.Keeps (execStealReply s) := by
  refine State.deliver_keeps s fun m s => ?_
  split
  · cases s.targetOf m with
    | none => exact s.takes_none
    | some c =>
      dsimp only [Option.bind_some]
      split
      · exact s.takes_none
      · refine State.takes_some _ (State.onCore_monitor _ _ _ fun s => ?_)
        split <;> simp
  · exact s.takes_none

theorem execComposeBind_keeps (s : State) : s.Keeps (execComposeBind s) := by
  unfold execComposeBind
  split
  · refine State.keeps_next (State.onCore_monitor _ _ _ fun s => ?_)
    (repeat' split) <;> simp
  · simp

theorem execTerminationWave_keeps (s : State) :
    s.Keeps (execTerminationWave s) := by unfold execTerminationWave; (repeat' split) <;> simp

theorem execBulkCommandStart_keeps (s : State) :
    s.Keeps (execBulkCommandStart s) := by unfold execBulkCommandStart; (repeat' split) <;> simp

theorem execBulkBeat_keeps (s : State) : s.Keeps (execBulkBeat s) := by unfold execBulkBeat; (repeat' split) <;> simp

theorem execHshipBeat_keeps (s : State) : s.Keeps (execHshipBeat s) := by
  unfold execHshipBeat
  split
  · split
    · simp
    · split
      · dsimp only
        split
        · simp
        split
        · simp
        split
        · simp
        · simp
        · simp
        · exact State.keeps_served fun t ht => by simp [ht]
      · simp
  · simp
  · simp
  · simp

theorem execHpullBeat_keeps (s : State) : s.Keeps (execHpullBeat s) := by
  unfold execHpullBeat
  split
  · split
    · simp
    · split
      · dsimp only
        split
        · simp
        split
        · simp
        split
        · simp
        · simp
        · simp
        · exact State.keeps_served fun t ht => by simp [ht]
      · simp
  · simp
  · simp
  · simp

theorem execBgemvBeat_keeps (s : State) :
    s.Keeps (execBgemvBeat s) := by unfold execBgemvBeat; dsimp only; (repeat' split) <;> simp

theorem execBulkRecordResume_keeps (s : State) :
    s.Keeps (execBulkRecordResume s) := by unfold execBulkRecordResume; (repeat' split) <;> simp

theorem execHbmReadReply_keeps (s : State) : s.Keeps (execHbmReadReply s) := by
  unfold execHbmReadReply
  split
  · split
    · simp
    split
    · simp
    · refine State.keeps_served fun t ht => ?_
      dsimp only
      split <;> simp [ht]
  · split <;> [split <;> simp; simp]
  · simp

theorem execHbmWriteArrive_keeps (s : State) : s.Keeps (execHbmWriteArrive s) := by
  unfold execHbmWriteArrive
  split
  · split
    · simp
    · exact State.keeps_served fun t ht => by simp [ht]
  · split <;> simp
  · simp

theorem execTranslationResolved_keeps (s : State) :
    s.Keeps (execTranslationResolved s) := by unfold execTranslationResolved; split <;> simp

theorem execTranslationMiss_keeps (s : State) : s.Keeps (execTranslationMiss s) := by
  unfold execTranslationMiss
  split
  · refine State.keeps_next (State.onCore_monitor _ _ _ fun s => ?_)
    dsimp only
    (repeat' split) <;> simp
  · simp
  · simp

theorem execRunAheadEnd_keeps (s : State) : s.Keeps (execRunAheadEnd s) := by
  unfold execRunAheadEnd
  split
  · refine State.keeps_next (State.onCore_monitor _ _ _ fun s => ?_)
    (repeat' split) <;> simp
  · simp

theorem execCheckpointReissue_keeps (s : State) :
    s.Keeps (execCheckpointReissue s) := by unfold execCheckpointReissue; split <;> simp

theorem execPageReplyMapped_keeps (s : State) :
    s.Keeps (execPageReplyMapped s) := by unfold execPageReplyMapped; (repeat' split) <;> simp

theorem execPageReplyRefused_keeps (s : State) :
    s.Keeps (execPageReplyRefused s) := by unfold execPageReplyRefused; (repeat' split) <;> simp

theorem execPageRequestTimeout_keeps (s : State) :
    s.Keeps (execPageRequestTimeout s) := by unfold execPageRequestTimeout; (repeat' split) <;> simp

theorem execPageRequestDequeue_keeps (s : State) :
    s.Keeps (execPageRequestDequeue s) := by unfold execPageRequestDequeue; (repeat' split) <;> simp

theorem execPageRequestRingEnable_keeps (s : State) :
    s.Keeps (execPageRequestRingEnable s) := by unfold execPageRequestRingEnable; split <;> simp

theorem execFrameCountsSet_keeps (s : State) :
    s.Keeps (execFrameCountsSet s) := by unfold execFrameCountsSet; dsimp only; (repeat' split) <;> simp

theorem execFrameReclaim_keeps (s : State) :
    s.Keeps (execFrameReclaim s) := by unfold execFrameReclaim; (repeat' split) <;> simp

theorem execReclaimReply_keeps (s : State) :
    s.Keeps (execReclaimReply s) := by unfold execReclaimReply; (repeat' split) <;> simp

theorem execHbmScrub_keeps (s : State) : s.Keeps (execHbmScrub s) := by unfold execHbmScrub; (repeat' split) <;> simp

theorem execTransferParityRetry_keeps (s : State) :
    s.Keeps (execTransferParityRetry s) := by unfold execTransferParityRetry; split <;> simp

theorem execLaneTest_keeps (s : State) : s.Keeps (execLaneTest s) := by unfold execLaneTest; (repeat' split) <;> simp

theorem execLaneSwap_keeps (s : State) : s.Keeps (execLaneSwap s) := by unfold execLaneSwap; split <;> simp

theorem execBackgroundScrub_keeps (s : State) :
    s.Keeps (execBackgroundScrub s) := by unfold execBackgroundScrub; split <;> simp

theorem execTidset_keeps (t ga : BitVec 6) (s : State) :
    s.Keeps (execTidset t ga s) := by unfold execTidset; dsimp only; split <;> simp

@[simp] theorem productWord_keeps (sparse : Bool) (ad : BitVec 3) (ta tb : BitVec 6)
    (sa sb sat acc fd rsum csum : Bool) (sv : BitVec 3) (s : State) :
    s.Keeps (productWord sparse ad ta tb sa sb sat acc fd rsum csum sv s) := by
  unfold productWord
  dsimp only
  (repeat' split) <;> simp [*]

@[simp] theorem sliceWord_keeps (g : List Res) (chk : Option Exc) (cmd : SliceCmd) (draws : Nat) (s : State) :
    s.Keeps (sliceWord g chk cmd draws s) := by simp [sliceWord, *]

theorem execMzero_keeps (ad : BitVec 3) (s : State) : s.Keeps (execMzero ad s) := sliceWord_keeps ..

theorem execMdrainr_keeps (ad : BitVec 3) (t ga : BitVec 6) (vp : BitVec 5) (rm : Option RMode) (sat : Bool)
    (s : State) :
    s.Keeps (execMdrainr ad t ga vp rm sat s) := by unfold execMdrainr; dsimp only; split <;> simp

theorem execGangBarrier_keeps (s : State) : s.Keeps (execGangBarrier s) := by unfold execGangBarrier; split <;> simp

theorem execGangMismatch_keeps (s : State) : s.Keeps (execGangMismatch s) := by
  unfold execGangMismatch
  split
  · refine State.keeps_next (State.foldl_monitor _ _ _ fun s j => ?_)
    (repeat' split) <;> simp
  · simp

theorem execArrayComplete_keeps (s : State) :
    s.Keeps (execArrayComplete s) := by unfold execArrayComplete; (repeat' split) <;> simp

theorem execSliceComplete_keeps (s : State) :
    s.Keeps (execSliceComplete s) := by unfold execSliceComplete; split <;> simp

theorem execMdrainrWake_keeps (s : State) : s.Keeps (execMdrainrWake s) := by unfold execMdrainrWake; split <;> simp

theorem execWatchdog_keeps (s : State) : s.Keeps (execWatchdog s) := by unfold execWatchdog; (repeat' split) <;> simp

theorem execTurnLaneRetry_keeps (s : State) :
    s.Keeps (execTurnLaneRetry s) := by unfold execTurnLaneRetry; (repeat' split) <;> simp

theorem execTurnLaneFallback_keeps (s : State) :
    s.Keeps (execTurnLaneFallback s) := by unfold execTurnLaneFallback; (repeat' split) <;> simp

theorem execResultForward_keeps (s : State) :
    s.Keeps (execResultForward s) := by unfold execResultForward; (repeat' split) <;> simp

theorem execPreempt_keeps (s : State) : s.Keeps (execPreempt s) := by unfold execPreempt; (repeat' split) <;> simp

theorem execContextRestore_keeps (s : State) :
    s.Keeps (execContextRestore s) := by unfold execContextRestore; (repeat' split) <;> simp

theorem execRegionCreate_keeps (s : State) :
    s.Keeps (execRegionCreate s) := by unfold execRegionCreate; split <;> simp

theorem execRegionResize_keeps (s : State) :
    s.Keeps (execRegionResize s) := by unfold execRegionResize; (repeat' split) <;> simp

theorem execRegionFree_keeps (s : State) :
    s.Keeps (execRegionFree s) := by unfold execRegionFree; (repeat' split) <;> simp

theorem execNotify_keeps (s : State) : s.Keeps (execNotify s) := by unfold execNotify; split <;> simp

theorem execMapperBind_keeps (s : State) :
    s.Keeps (execMapperBind s) := by unfold execMapperBind; dsimp only; (repeat' split) <;> simp

theorem execMapperEvict_keeps (s : State) : s.Keeps (execMapperEvict s) := by unfold execMapperEvict; split <;> simp

theorem execPacketTake_keeps (s : State) :
    s.Keeps (execPacketTake s) := by unfold execPacketTake; dsimp only; (repeat' split) <;> simp

theorem execHeaderReread_keeps (s : State) :
    s.Keeps (execHeaderReread s) := by unfold execHeaderReread; split <;> simp

theorem execSubmitTimeout_keeps (s : State) :
    s.Keeps (execSubmitTimeout s) := by unfold execSubmitTimeout; split <;> simp

theorem execLaunch_keeps (s : State) : s.Keeps (execLaunch s) := by unfold execLaunch; split <;> simp

theorem execLaunchStart_keeps (s : State) :
    s.Keeps (execLaunchStart s) := by unfold execLaunchStart; dsimp only; (repeat' split) <;> simp

theorem execLoad_keeps (s : State) : s.Keeps (execLoad s) := by unfold execLoad; split <;> simp

theorem execStore_keeps (s : State) : s.Keeps (execStore s) := by unfold execStore; split <;> simp

theorem execLoadStoreComplete_keeps (s : State) :
    s.Keeps (execLoadStoreComplete s) := by unfold execLoadStoreComplete; (repeat' split) <;> simp

theorem execLoadStoreLinkTimeout_keeps (s : State) :
    s.Keeps (execLoadStoreLinkTimeout s) := by unfold execLoadStoreLinkTimeout; (repeat' split) <;> simp

theorem execSignalAdd_keeps (s : State) : s.Keeps (execSignalAdd s) := by unfold execSignalAdd; split <;> simp

theorem execSignalSet_keeps (s : State) : s.Keeps (execSignalSet s) := by unfold execSignalSet; split <;> simp

theorem execWaitPacket_keeps (s : State) : s.Keeps (execWaitPacket s) := by unfold execWaitPacket; split <;> simp

theorem execWaitComplete_keeps (s : State) :
    s.Keeps (execWaitComplete s) := by unfold execWaitComplete; (repeat' split) <;> simp

theorem execArmOnce_keeps (s : State) : s.Keeps (execArmOnce s) := by unfold execArmOnce; split <;> simp

theorem execArmPeriodic_keeps (s : State) : s.Keeps (execArmPeriodic s) := by unfold execArmPeriodic; split <;> simp

theorem execArmCancel_keeps (s : State) : s.Keeps (execArmCancel s) := by unfold execArmCancel; split <;> simp

theorem execBarrier_keeps (s : State) : s.Keeps (execBarrier s) := by unfold execBarrier; split <;> simp

theorem execBarrierComplete_keeps (s : State) :
    s.Keeps (execBarrierComplete s) := by unfold execBarrierComplete; (repeat' split) <;> simp

theorem execCompletionWrite_keeps (s : State) :
    s.Keeps (execCompletionWrite s) := by unfold execCompletionWrite; dsimp only; (repeat' split) <;> simp

theorem execQueueKill_keeps (s : State) : s.Keeps (execQueueKill s) := by unfold execQueueKill; split <;> simp

theorem execRegisterWrite_keeps (s : State) :
    s.Keeps (execRegisterWrite s) := by unfold execRegisterWrite; split <;> simp

theorem execInvalidateObject_keeps (s : State) :
    s.Keeps (execInvalidateObject s) := by unfold execInvalidateObject; split <;> simp

theorem execInvalidateExtent_keeps (s : State) :
    s.Keeps (execInvalidateExtent s) := by unfold execInvalidateExtent; split <;> simp

theorem execInvalidateSecondStage_keeps (s : State) :
    s.Keeps (execInvalidateSecondStage s) := by unfold execInvalidateSecondStage; split <;> simp

theorem execInvalidateAll_keeps (s : State) :
    s.Keeps (execInvalidateAll s) := by unfold execInvalidateAll; split <;> simp

theorem execInvalidateDone_keeps (s : State) :
    s.Keeps (execInvalidateDone s) := by unfold execInvalidateDone; (repeat' split) <;> simp

theorem execMintCreate_keeps (s : State) : s.Keeps (execMintCreate s) := by unfold execMintCreate; split <;> simp

theorem execMintFree_keeps (s : State) : s.Keeps (execMintFree s) := by
  unfold execMintFree
  split
  · split
    · simp
    · split
      · simp
      · rename_i h; simp [State.mintEntry_monitor h]
  · simp

theorem execMintAlias_keeps (s : State) :
    s.Keeps (execMintAlias s) := by unfold execMintAlias; (repeat' split) <;> simp

theorem execMintCheckpoint_keeps (s : State) :
    s.Keeps (execMintCheckpoint s) := by unfold execMintCheckpoint; split <;> simp

theorem execCxlMemRead_keeps (s : State) : s.Keeps (execCxlMemRead s) := by
  unfold execCxlMemRead
  split
  · split
    · exact State.keeps_served fun t ht => by simp [ht]
    · simp
  · simp

theorem execCxlMemWrite_keeps (s : State) : s.Keeps (execCxlMemWrite s) := by
  unfold execCxlMemWrite
  split
  · split
    · exact State.keeps_served fun t ht => by simp [ht]
    · simp
  · simp

theorem execCollectiveStart_keeps (s : State) :
    s.Keeps (execCollectiveStart s) := by unfold execCollectiveStart; (repeat' split) <;> simp

theorem execCollectiveDone_keeps (s : State) : s.Keeps (execCollectiveDone s) := by
  unfold execCollectiveDone
  (repeat' split) <;> try (simp; done)
  extract_lets i l piece rd
  split
  · simp
  refine State.keeps_next ((State.arrayRead_monitor _ _ _ fun t => ?_).trans
    (State.serve_monitor ‹State.serve _ _ _ _ = some _›))
  dsimp only
  split <;> simp

theorem execCollectiveTimeout_keeps (s : State) :
    s.Keeps (execCollectiveTimeout s) := by unfold execCollectiveTimeout; (repeat' split) <;> simp

theorem execLinkRetry_keeps (s : State) : s.Keeps (execLinkRetry s) := by unfold execLinkRetry; split <;> simp

theorem execFabricFlitRetry_keeps (s : State) :
    s.Keeps (execFabricFlitRetry s) := by unfold execFabricFlitRetry; split <;> simp

theorem execFabricRetrain_keeps (s : State) :
    s.Keeps (execFabricRetrain s) := by unfold execFabricRetrain; split <;> simp

theorem execFabricRequestArrive_keeps (s : State) :
    s.Keeps (execFabricRequestArrive s) := by unfold execFabricRequestArrive; split <;> simp

theorem execRemoteHomeTimeout_keeps (s : State) :
    s.Keeps (execRemoteHomeTimeout s) := by unfold execRemoteHomeTimeout; (repeat' split) <;> simp

theorem execPluginCall_keeps (s : State) : s.Keeps (execPluginCall s) := by unfold execPluginCall; split <;> simp

theorem execPluginFault_keeps (s : State) : s.Keeps (execPluginFault s) := by unfold execPluginFault; split <;> simp

theorem execPluginLoad_keeps (s : State) : s.Keeps (execPluginLoad s) := by unfold execPluginLoad; split <;> simp

theorem execFunctionLevelReset_keeps (s : State) :
    s.Keeps (execFunctionLevelReset s) := by unfold execFunctionLevelReset; split <;> simp

theorem execOperatorKeyEnrol_keeps (s : State) :
    s.Keeps (execOperatorKeyEnrol s) := by unfold execOperatorKeyEnrol; split <;> simp

theorem execIllegalInstruction_keeps (s : State) :
    s.Keeps (execIllegalInstruction s) := by unfold execIllegalInstruction; split <;> simp

theorem execPacketRuleViolation_keeps (s : State) :
    s.Keeps (execPacketRuleViolation s) := by unfold execPacketRuleViolation; split <;> simp

theorem execDeferredCauseEntry_keeps (s : State) :
    s.Keeps (execDeferredCauseEntry s) := by unfold execDeferredCauseEntry; split <;> simp

theorem execDivisionComplete_keeps (s : State) :
    s.Keeps (execDivisionComplete s) := by unfold execDivisionComplete; split <;> simp

/-! ## The purses, the counter and the period -/

theorem forall_mem_modAt {α : Type} {P : α → Prop} {f : α → α} (hf : ∀ a, P a → P (f a)) :
    ∀ {l : List α} (k : Nat), (∀ a ∈ l, P a) → ∀ a ∈ modAt l k f, P a
  | [], _, h => h
  | _ :: _, 0, h => List.forall_mem_cons.2 ⟨hf _ (List.forall_mem_cons.1 h).1, (List.forall_mem_cons.1 h).2⟩
  | _ :: _, k + 1, h =>
    List.forall_mem_cons.2 ⟨(List.forall_mem_cons.1 h).1, forall_mem_modAt hf k (List.forall_mem_cons.1 h).2⟩

/-- A purse within the bounds of R14 and R326. -/
def Purse.Within (p : Purse) : Prop := p.pennies ≤ 2 ^ 20 ∧ p.rate ≤ 16

theorem Purse.refill_within {p : Purse} (h : p.Within) : p.refill.Within := by
  unfold Purse.refill
  split
  · exact h
  · exact ⟨min_le_left _ _, h.2⟩

/-- A state whose purses alone differ keeps the bounds when its purses are within theirs. -/
theorem State.within_of_purses {s t : State} {l : List Purse} (h : t.monitor = (l, s.period, s.lms))
    (hn : l.length = s.purses.length) (hl : (∀ p ∈ s.purses, p.Within) → ∀ p ∈ l, p.Within) : s.Within t := by
  simp only [State.monitor, Prod.mk.injEq] at h
  obtain ⟨rfl, hd, hc⟩ := h
  refine ⟨fun ⟨h200, hp, hlo, hhi, hlms⟩ => ?_, hc.ge⟩
  exact ⟨hn.trans h200, hl hp, hd ▸ hlo, hd ▸ hhi, hc ▸ hlms⟩

theorem State.keeps_of_purse {s t : State} {k : Nat} {f : Purse → Purse}
    (h : t.monitor = (modAt s.purses k f, s.period, s.lms)) (hf : ∀ p : Purse, p.Within → (f p).Within) : s.Keeps (.next t) :=
  ⟨t, rfl, State.within_of_purses h (modAt_length f _ k) fun hp => forall_mem_modAt hf k hp⟩

theorem execPurseRefill_keeps (s : State) : s.Keeps (execPurseRefill s) := by
  unfold execPurseRefill
  split
  · exact State.keeps_of_purse rfl fun p => Purse.refill_within
  · simp

theorem execPurseThrottle_keeps (s : State) : s.Keeps (execPurseThrottle s) := by
  unfold execPurseThrottle
  split
  · rename_i k b _
    refine State.keeps_of_purse (k := k) (f := fun p => { p with hot := b }) ?_ fun p hp => hp
    split <;> simp
  · simp

theorem execRefillRateSet_keeps (s : State) : s.Keeps (execRefillRateSet s) := by
  unfold execRefillRateSet
  split
  · split
    · rename_i hr
      exact State.keeps_of_purse rfl fun p hp => ⟨hp.1, hr⟩
    · simp
  · simp

/-- The start of an array takes its pennies from the purse of its column and changes no bound. -/
theorem execArrayStart_keeps (s : State) : s.Keeps (execArrayStart s) := by
  unfold execArrayStart
  split
  · split
    · simp
    · rename_i l _ _ m cc _
      extract_lets bs t u
      have ht : t.monitor = s.monitor := State.foldl_monitor _ _ _ fun t j => State.updCore_monitor ..
      simp only [State.monitor, Prod.mk.injEq] at ht
      obtain ⟨hp, hd, hl⟩ := ht
      refine State.keeps_of_purse (k := s.physOf l) (f := fun p => { p with pennies := p.pennies - 2 * (gangOf m).length * cc })
        ?_ fun p hp => ⟨(Nat.sub_le _ _).trans hp.1, hp.2⟩
      rw [State.updArray_monitor, ← hp, ← hd, ← hl]
      rfl
  · simp

/-- An attestation counts up to 2^20 and no further (R341). -/
theorem execAttestationRequest_keeps (s : State) : s.Keeps (execAttestationRequest s) := by
  unfold execAttestationRequest
  split
  · refine ⟨_, rfl, ?_⟩
    split
    · rename_i hlt
      exact ⟨fun ⟨h200, hp, hlo, hhi, _⟩ => ⟨h200, hp, hlo, hhi, hlt⟩, Nat.le_succ _⟩
    · exact ⟨id, le_rfl⟩
  · simp

/-- A boot chooses a period and rates within their bounds, fills the purses and keeps the counter (R453). -/
theorem execDeviceReset_keeps (s : State) : s.Keeps (execDeviceReset s) := by
  unfold execDeviceReset
  split
  · rename_i b _
    extract_lets mon ok cols
    have hs : ∀ p : BitVec 64 × State, p = (if ok = true then (0, s) else s.draw) → p.2.monitor = s.monitor := by
      rintro p rfl; split <;> simp
    revert hs
    generalize (if ok = true then ((0 : BitVec 64), s) else s.draw) = p
    obtain ⟨v, u⟩ := p
    intro hs
    have hu : u.monitor = s.monitor := hs _ rfl
    refine ⟨_, rfl, ?_⟩
    split
    · exact State.within_of_monitor hu
    · simp only [State.monitor, Prod.mk.injEq] at hu
      obtain ⟨-, -, hl⟩ := hu
      refine ⟨fun ⟨_, _, _, _, hlms⟩ => ⟨by simp, ?_, by simp, by simp, hl ▸ hlms⟩, hl.ge⟩
      intro p hp
      obtain ⟨k, -, rfl⟩ := List.mem_map.1 hp
      exact ⟨le_rfl, min_le_left _ _⟩
  · simp

/-! ## Every instruction -/

/-- Every word and every event answers a next state within the bounds. -/
theorem exec_keeps (i : Instr) (s : State) : s.Keeps (exec i s) := by
  cases i with
  | add rd ra rb => exact (scalar2_keeps .. : s.Keeps (execAdd rd ra rb s))
  | sub rd ra rb => exact (scalar2_keeps .. : s.Keeps (execSub rd ra rb s))
  | and rd ra rb => exact (scalar2_keeps .. : s.Keeps (execAnd rd ra rb s))
  | or rd ra rb => exact (scalar2_keeps .. : s.Keeps (execOr rd ra rb s))
  | xor rd ra rb => exact (scalar2_keeps .. : s.Keeps (execXor rd ra rb s))
  | shl rd ra rb => exact (scalar2_keeps .. : s.Keeps (execShl rd ra rb s))
  | shr rd ra rb => exact (scalar2_keeps .. : s.Keeps (execShr rd ra rb s))
  | sra rd ra rb => exact (scalar2_keeps .. : s.Keeps (execSra rd ra rb s))
  | mul rd ra rb => exact (scalar2_keeps .. : s.Keeps (execMul rd ra rb s))
  | mulh rd ra rb => exact (scalar2_keeps .. : s.Keeps (execMulh rd ra rb s))
  | mulhn rd ra rb => exact (scalar2_keeps .. : s.Keeps (execMulhn rd ra rb s))
  | div rd ra rb => exact (divide_keeps .. : s.Keeps (execDiv rd ra rb s))
  | divn rd ra rb => exact (divide_keeps .. : s.Keeps (execDivn rd ra rb s))
  | rem rd ra rb => exact (divide_keeps .. : s.Keeps (execRem rd ra rb s))
  | remn rd ra rb => exact (divide_keeps .. : s.Keeps (execRemn rd ra rb s))
  | min rd ra rb => exact (scalar2_keeps .. : s.Keeps (execMin rd ra rb s))
  | max rd ra rb => exact (scalar2_keeps .. : s.Keeps (execMax rd ra rb s))
  | minn rd ra rb => exact (scalar2_keeps .. : s.Keeps (execMinn rd ra rb s))
  | maxn rd ra rb => exact (scalar2_keeps .. : s.Keeps (execMaxn rd ra rb s))
  | slt rd ra rb => exact (scalar2_keeps .. : s.Keeps (execSlt rd ra rb s))
  | sltn rd ra rb => exact (scalar2_keeps .. : s.Keeps (execSltn rd ra rb s))
  | clz rd ra => exact (scalar1_keeps .. : s.Keeps (execClz rd ra s))
  | ctz rd ra => exact (scalar1_keeps .. : s.Keeps (execCtz rd ra s))
  | popc rd ra => exact (scalar1_keeps .. : s.Keeps (execPopc rd ra s))
  | sext rd ra w => exact (scalar1_keeps .. : s.Keeps (execSext rd ra w s))
  | zext rd ra w => exact (scalar1_keeps .. : s.Keeps (execZext rd ra w s))
  | bext rd ra rb => exact (scalar2_keeps .. : s.Keeps (execBext rd ra rb s))
  | bins rd ra rb => exact (scalar_keeps .. : s.Keeps (execBins rd ra rb s))
  | nop => simp [exec, execNop]
  | sel rd ra rb k => exact (scalar_keeps .. : s.Keeps (execSel rd ra rb k s))
  | pcmp c p ra rb => exact (scalarP_keeps .. : s.Keeps (execPcmp c p ra rb s))
  | pand d a b => exact (scalarP_keeps .. : s.Keeps (execPand d a b s))
  | por d a b => exact (scalarP_keeps .. : s.Keeps (execPor d a b s))
  | pnot d a => exact (scalarP_keeps .. : s.Keeps (execPnot d a s))
  | jr ra => simp [exec, execJr]
  | tret => exact execTret_keeps ..
  | wfe => exact execWfe_keeps ..
  | xtake rd x => simp [exec, execXtake]
  | xtst p x => simp [exec, execXtst]
  | xclr x => simp [exec, execXclr]
  | feinit ra rb => exact execFeinit_keeps ..
  | rinit q ra => simp [exec, execRinit]
  | addi rd ra imm => exact (scalarI_keeps .. : s.Keeps (execAddi rd ra imm s))
  | slti rd ra imm => exact (scalarI_keeps .. : s.Keeps (execSlti rd ra imm s))
  | andi rd ra imm => exact (scalarI_keeps .. : s.Keeps (execAndi rd ra imm s))
  | ori rd ra imm => exact (scalarI_keeps .. : s.Keeps (execOri rd ra imm s))
  | xori rd ra imm => exact (scalarI_keeps .. : s.Keeps (execXori rd ra imm s))
  | shli rd ra n => exact (scalar1_keeps .. : s.Keeps (execShli rd ra n s))
  | shri rd ra n => exact (scalar1_keeps .. : s.Keeps (execShri rd ra n s))
  | srai rd ra n => exact (scalar1_keeps .. : s.Keeps (execSrai rd ra n s))
  | pcmpi c p ra imm => exact (scalarP_keeps .. : s.Keeps (execPcmpi c p ra imm s))
  | movi rd imm => exact (scalar_keeps .. : s.Keeps (execMovi rd imm s))
  | csrr rd csr => simp [exec, execCsrr]
  | csrw ra csr => exact (csrWrite_keeps .. : s.Keeps (execCsrw ra csr s))
  | csrs ra csr => exact (csrWrite_keeps .. : s.Keeps (execCsrs ra csr s))
  | csrc ra csr => exact (csrWrite_keeps .. : s.Keeps (execCsrc ra csr s))
  | fence o sc => simp [exec, execFence]
  | cset w ra imm => simp [exec, execCset]
  | cadd w ra imm => simp [exec, execCadd]
  | wait w => simp [exec, execWait]
  | waitle w ra imm => simp [exec, execWaitle]
  | trap code => exact (trapWord_keeps .. : s.Keeps (execTrap code s))
  | svc code => exact (trapWord_keeps .. : s.Keeps (execSvc code s))
  | br disp => simp [exec, execBr]
  | bp p disp => simp [exec, execBp]
  | bnp p disp => simp [exec, execBnp]
  | jal disp => simp [exec, execJal]
  | loop ra imm => simp [exec, execLoop]
  | ldb rt ra disp => exact (loadWord_keeps .. : s.Keeps (execLdb rt ra disp s))
  | ldbn rt ra disp => exact (loadWord_keeps .. : s.Keeps (execLdbn rt ra disp s))
  | ldh rt ra disp => exact (loadWord_keeps .. : s.Keeps (execLdh rt ra disp s))
  | ldhn rt ra disp => exact (loadWord_keeps .. : s.Keeps (execLdhn rt ra disp s))
  | ldw rt ra disp => exact (loadWord_keeps .. : s.Keeps (execLdw rt ra disp s))
  | ldwn rt ra disp => exact (loadWord_keeps .. : s.Keeps (execLdwn rt ra disp s))
  | ldd rt ra disp => exact (loadWord_keeps .. : s.Keeps (execLdd rt ra disp s))
  | ldbAcq rt ra disp => exact (loadWord_keeps .. : s.Keeps (execLdbAcq rt ra disp s))
  | ldbnAcq rt ra disp => exact (loadWord_keeps .. : s.Keeps (execLdbnAcq rt ra disp s))
  | ldhAcq rt ra disp => exact (loadWord_keeps .. : s.Keeps (execLdhAcq rt ra disp s))
  | ldhnAcq rt ra disp => exact (loadWord_keeps .. : s.Keeps (execLdhnAcq rt ra disp s))
  | ldwAcq rt ra disp => exact (loadWord_keeps .. : s.Keeps (execLdwAcq rt ra disp s))
  | ldwnAcq rt ra disp => exact (loadWord_keeps .. : s.Keeps (execLdwnAcq rt ra disp s))
  | lddAcq rt ra disp => exact (loadWord_keeps .. : s.Keeps (execLddAcq rt ra disp s))
  | stb rt ra disp => exact (storeWord_keeps .. : s.Keeps (execStb rt ra disp s))
  | sth rt ra disp => exact (storeWord_keeps .. : s.Keeps (execSth rt ra disp s))
  | stw rt ra disp => exact (storeWord_keeps .. : s.Keeps (execStw rt ra disp s))
  | std rt ra disp => exact (storeWord_keeps .. : s.Keeps (execStd rt ra disp s))
  | stbRel rt ra disp => exact (storeWord_keeps .. : s.Keeps (execStbRel rt ra disp s))
  | sthRel rt ra disp => exact (storeWord_keeps .. : s.Keeps (execSthRel rt ra disp s))
  | stwRel rt ra disp => exact (storeWord_keeps .. : s.Keeps (execStwRel rt ra disp s))
  | stdRel rt ra disp => exact (storeWord_keeps .. : s.Keeps (execStdRel rt ra disp s))
  | ldfe rt ra disp => exact execLdfe_keeps ..
  | stfe rt ra disp => exact execStfe_keeps ..
  | vadd vd va vb t => exact (vmap2_keeps .. : s.Keeps (execVadd vd va vb t s))
  | vsub vd va vb t => exact (vmap2_keeps .. : s.Keeps (execVsub vd va vb t s))
  | vmul vd va vb t => exact (vmap2_keeps .. : s.Keeps (execVmul vd va vb t s))
  | vmin vd va vb t => exact (vmap2_keeps .. : s.Keeps (execVmin vd va vb t s))
  | vmax vd va vb t => exact (vmap2_keeps .. : s.Keeps (execVmax vd va vb t s))
  | vabs vd va t => exact (vmap1_keeps .. : s.Keeps (execVabs vd va t s))
  | vneg vd va t => exact (vmap1_keeps .. : s.Keeps (execVneg vd va t s))
  | vdiv vd va vb t => exact (vmap2_keeps .. : s.Keeps (execVdiv vd va vb t s))
  | vsqrt vd va t => exact (vmap1_keeps .. : s.Keeps (execVsqrt vd va t s))
  | vand vd va vb t => exact (vmap2_keeps .. : s.Keeps (execVand vd va vb t s))
  | vor vd va vb t => exact (vmap2_keeps .. : s.Keeps (execVor vd va vb t s))
  | vxor vd va vb t => exact (vmap2_keeps .. : s.Keeps (execVxor vd va vb t s))
  | vnot vd va t => exact (vmap1_keeps .. : s.Keeps (execVnot vd va t s))
  | vshl vd va vb t => exact (vmap2_keeps .. : s.Keeps (execVshl vd va vb t s))
  | vshr vd va vb t => exact (vmap2_keeps .. : s.Keeps (execVshr vd va vb t s))
  | vsra vd va vb t => exact (vmap2_keeps .. : s.Keeps (execVsra vd va vb t s))
  | vmulh vd va vb t => exact (vmap2_keeps .. : s.Keeps (execVmulh vd va vb t s))
  | vexp vd va t => exact (vmap1_keeps .. : s.Keeps (execVexp vd va t s))
  | vexp2 vd va t => exact (vmap1_keeps .. : s.Keeps (execVexp2 vd va t s))
  | vlog2 vd va t => exact (vmap1_keeps .. : s.Keeps (execVlog2 vd va t s))
  | vrcp vd va t => exact (vmap1_keeps .. : s.Keeps (execVrcp vd va t s))
  | vrsqrt vd va t => exact (vmap1_keeps .. : s.Keeps (execVrsqrt vd va t s))
  | vtanh vd va t => exact (vmap1_keeps .. : s.Keeps (execVtanh vd va t s))
  | vsigm vd va t => exact (vmap1_keeps .. : s.Keeps (execVsigm vd va t s))
  | vfma vd va vb vc t => exact (vmap3_keeps .. : s.Keeps (execVfma vd va vb vc t s))
  | vfms vd va vb vc t => exact (vmap3_keeps .. : s.Keeps (execVfms vd va vb vc t s))
  | vfnma vd va vb vc t => exact (vmap3_keeps .. : s.Keeps (execVfnma vd va vb vc t s))
  | vfnms vd va vb vc t => exact (vmap3_keeps .. : s.Keeps (execVfnms vd va vb vc t s))
  | vsel vd vm vt vf t => exact (vmap3_keeps .. : s.Keeps (execVsel vd vm vt vf t s))
  | vcmp vd va vb t c => exact (vmap2_keeps .. : s.Keeps (execVcmp vd va vb t c s))
  | vcvt vd va dt st rm sat => simp [exec, execVcvt]
  | vqnt vd va vs rm => exact execVqnt_keeps ..
  | vdqnt vd va vs dt => simp [exec, execVdqnt]
  | vrsum vd va t => exact (rowReduce_keeps .. : s.Keeps (execVrsum vd va t s))
  | vcsum vd va t => exact (columnReduce_keeps .. : s.Keeps (execVcsum vd va t s))
  | vrmax vd va t => exact (rowReduce_keeps .. : s.Keeps (execVrmax vd va t s))
  | vcmax vd va t => exact (columnReduce_keeps .. : s.Keeps (execVcmax vd va t s))
  | vmov vd va => simp [exec, execVmov]
  | vbcast vd va => simp [exec, execVbcast]
  | vtrn vd va t => simp [exec, execVtrn]
  | vext vd va vb t => simp [exec, execVext]
  | vins vd va vb t => simp [exec, execVins]
  | vsplat vd g t => simp [exec, execVsplat]
  | vld vd ga gb => exact execVld_keeps ..
  | vst vd ga gb => exact execVst_keeps ..
  | vgat vd ga vb t => simp [exec, execVgat]
  | vsct vd ga vb t => simp [exec, execVsct]
  | vviewImage vd ga k => simp [exec, execVviewImage]
  | vview vd ga gb t => simp [exec, execVview]
  | vaddImm vd imm => exact (vmapImm_keeps .. : s.Keeps (execVaddImm vd imm s))
  | vsubImm vd imm => exact (vmapImm_keeps .. : s.Keeps (execVsubImm vd imm s))
  | vmulImm vd imm => exact (vmapImm_keeps .. : s.Keeps (execVmulImm vd imm s))
  | vminImm vd imm => exact (vmapImm_keeps .. : s.Keeps (execVminImm vd imm s))
  | vmaxImm vd imm => exact (vmapImm_keeps .. : s.Keeps (execVmaxImm vd imm s))
  | vandImm vd imm => exact (vmapImm_keeps .. : s.Keeps (execVandImm vd imm s))
  | vorImm vd imm => exact (vmapImm_keeps .. : s.Keeps (execVorImm vd imm s))
  | vxorImm vd imm => exact (vmapImm_keeps .. : s.Keeps (execVxorImm vd imm s))
  | vshlImm vd imm => exact (vmapImm_keeps .. : s.Keeps (execVshlImm vd imm s))
  | vshrImm vd imm => exact (vmapImm_keeps .. : s.Keeps (execVshrImm vd imm s))
  | vsraImm vd imm => exact (vmapImm_keeps .. : s.Keeps (execVsraImm vd imm s))
  | vsplatImm vd imm => exact execVsplatImm_keeps ..
  | vshape w r => simp [exec, execVshape]
  | mmul ad ta tb sa sb sat acc fd rsum csum sv =>
    exact (productWord_keeps .. : s.Keeps (execMmul ad ta tb sa sb sat acc fd rsum csum sv s))
  | mmsp ad ta tb sa sb sat acc fd rsum csum sv =>
    exact (productWord_keeps .. : s.Keeps (execMmsp ad ta tb sa sb sat acc fd rsum csum sv s))
  | mgang m => simp [exec, execMgang]
  | mzero ad => exact execMzero_keeps ..
  | mfade ad => simp [exec, execMfade]
  | tidset t ga => exact execTidset_keeps ..
  | tidq t rd sel => simp [exec, execTidq]
  | mdrain ad t vp rm sat => simp [exec, execMdrain]
  | mdrainr ad t ga vp rm sat => exact execMdrainr_keeps ..
  | bcopy ga gb gc w => exact execBcopy_keeps ..
  | tload ga gb gc w => exact (tileWord_keeps .. : s.Keeps (execTload ga gb gc w s))
  | tstore ga gb gc w => exact (tileWord_keeps .. : s.Keeps (execTstore ga gb gc w s))
  | aadd rd ra rb o => exact (atomWord_keeps .. : s.Keeps (execAadd rd ra rb o s))
  | aswp rd ra rb o => exact (atomWord_keeps .. : s.Keeps (execAswp rd ra rb o s))
  | acas rd ra rb o => exact (atomWord_keeps .. : s.Keeps (execAcas rd ra rb o s))
  | amin rd ra rb o => exact (atomWord_keeps .. : s.Keeps (execAmin rd ra rb o s))
  | amax rd ra rb o => exact (atomWord_keeps .. : s.Keeps (execAmax rd ra rb o s))
  | aminn rd ra rb o => exact (atomWord_keeps .. : s.Keeps (execAminn rd ra rb o s))
  | amaxn rd ra rb o => exact (atomWord_keeps .. : s.Keeps (execAmaxn rd ra rb o s))
  | aand rd ra rb o => exact (atomWord_keeps .. : s.Keeps (execAand rd ra rb o s))
  | aor rd ra rb o => exact (atomWord_keeps .. : s.Keeps (execAor rd ra rb o s))
  | axor rd ra rb o => exact (atomWord_keeps .. : s.Keeps (execAxor rd ra rb o s))
  | afadd rd ra rb o => exact (atomWord_keeps .. : s.Keeps (execAfadd rd ra rb o s))
  | xput ga gb x => simp [exec, execXput]
  | amsg ga gb => simp [exec, execAmsg]
  | radvPop ga q => exact (radv_keeps .. : s.Keeps (execRadvPop ga q s))
  | radvPush ga q => exact (radv_keeps .. : s.Keeps (execRadvPush ga q s))
  | radvCredit ga q => exact (radv_keeps .. : s.Keeps (execRadvCredit ga q s))
  | radvFill ga q => exact (radv_keeps .. : s.Keeps (execRadvFill ga q s))
  | tinit ga gb gc => simp [exec, execTinit]
  | tspawn ga gb => exact (pushWord_keeps .. : s.Keeps (execTspawn ga gb s))
  | tfork ga gb => exact (pushWord_keeps .. : s.Keeps (execTfork ga gb s))
  | tsig ga gb => simp [exec, execTsig]
  | tend => simp [exec, execTend]
  | cmpo rd rs n => exact execCmpo_keeps ..
  | cmpr => exact execCmpr_keeps ..
  | cmpq rd => simp [exec, execCmpq]
  | hld rd c go o => exact execHld_keeps ..
  | hst rv c go o => exact execHst_keeps ..
  | hldv v c go => exact execHldv_keeps ..
  | hstv v c go => exact execHstv_keeps ..
  | hgat v c ix => exact (gatherWord_keeps .. : s.Keeps (execHgat v c ix s))
  | hsct v c ix => exact (gatherWord_keeps .. : s.Keeps (execHsct v c ix s))
  | hldX gt c go o => exact execHldX_keeps ..
  | hship ga c go => exact (shipWord_keeps .. : s.Keeps (execHship ga c go s))
  | hpull ga c go => exact (shipWord_keeps .. : s.Keeps (execHpull ga c go s))
  | bgemv ga c go => exact execBgemv_keeps ..
  | hfenceL => simp [exec, execHfenceL]
  | oxfer c gd => simp [exec, execOxfer]
  | oacq c => exact (escrowWord_keeps .. : s.Keeps (execOacq c s))
  | cmov d sel => simp [exec, execCmov]
  | cmovRemote d sel gc => simp [exec, execCmovRemote]
  | cderive d sel gb => simp [exec, execCderive]
  | crights d sel ga => simp [exec, execCrights]
  | hatomAdd rd c go o => exact (hatomWord_keeps .. : s.Keeps (execHatomAdd rd c go o s))
  | hatomSwp rd c go o => exact (hatomWord_keeps .. : s.Keeps (execHatomSwp rd c go o s))
  | hatomCas rd c go o => exact (hatomWord_keeps .. : s.Keeps (execHatomCas rd c go o s))
  | hatomMin rd c go o => exact (hatomWord_keeps .. : s.Keeps (execHatomMin rd c go o s))
  | hatomMax rd c go o => exact (hatomWord_keeps .. : s.Keeps (execHatomMax rd c go o s))
  | hatomMinn rd c go o => exact (hatomWord_keeps .. : s.Keeps (execHatomMinn rd c go o s))
  | hatomMaxn rd c go o => exact (hatomWord_keeps .. : s.Keeps (execHatomMaxn rd c go o s))
  | hatomFadd rd c go o => exact (hatomWord_keeps .. : s.Keeps (execHatomFadd rd c go o s))
  | hwimm p => simp [exec, execHwimm]
  | hblk l => simp [exec, execHblk]
  | hgran g => simp [exec, execHgran]
  | hrm r => simp [exec, execHrm]
  | illegalInstruction => exact execIllegalInstruction_keeps ..
  | packetRuleViolation => exact execPacketRuleViolation_keeps ..
  | fetchFault => simp [exec, execFetchFault]
  | ownerTimer => simp [exec, execOwnerTimer]
  | deferredCauseEntry => exact execDeferredCauseEntry_keeps ..
  | storeBufferExit => exact execStoreBufferExit_keeps ..
  | remoteAck => exact execRemoteAck_keeps ..
  | remoteStoreApply => exact execRemoteStoreApply_keeps ..
  | remoteLoadApply => exact execRemoteLoadApply_keeps ..
  | remoteLoadReply => exact execRemoteLoadReply_keeps ..
  | atomicApply => exact execAtomicApply_keeps ..
  | depositApply => exact execDepositApply_keeps ..
  | capDepositApply => exact execCapDepositApply_keeps ..
  | messageApply => exact execMessageApply_keeps ..
  | signalApply => exact execSignalApply_keeps ..
  | setAsidePushApply => exact execSetAsidePushApply_keeps ..
  | ringCreditArrive => exact execRingCreditArrive_keeps ..
  | ringFillArrive => exact execRingFillArrive_keeps ..
  | feRemoteApply => exact execFeRemoteApply_keeps ..
  | feParkedRetry => exact execFeParkedRetry_keeps ..
  | bankOpApply => exact execBankOpApply_keeps ..
  | bulkCommandStart => exact execBulkCommandStart_keeps ..
  | bulkBeat => exact execBulkBeat_keeps ..
  | stealProbe => exact execStealProbe_keeps ..
  | stealRequestApply => exact execStealRequestApply_keeps ..
  | stealReply => exact execStealReply_keeps ..
  | taskPop => exact execTaskPop_keeps ..
  | composeBind => exact execComposeBind_keeps ..
  | gangBarrier => exact execGangBarrier_keeps ..
  | gangMismatch => exact execGangMismatch_keeps ..
  | arrayStart => exact execArrayStart_keeps ..
  | arrayComplete => exact execArrayComplete_keeps ..
  | sliceComplete => exact execSliceComplete_keeps ..
  | mdrainrWake => exact execMdrainrWake_keeps ..
  | purseRefill => exact execPurseRefill_keeps ..
  | purseThrottle => exact execPurseThrottle_keeps ..
  | watchdog => exact execWatchdog_keeps ..
  | terminationWave => exact execTerminationWave_keeps ..
  | turnAnnounce => simp [exec, execTurnAnnounce]
  | turnDrain => simp [exec, execTurnDrain]
  | turnMove => simp [exec, execTurnMove]
  | turnLaneRetry => exact execTurnLaneRetry_keeps ..
  | turnLaneFallback => exact execTurnLaneFallback_keeps ..
  | turnRemap => simp [exec, execTurnRemap]
  | turnResume => simp [exec, execTurnResume]
  | resultForward => exact execResultForward_keeps ..
  | preempt => exact execPreempt_keeps ..
  | contextRestore => exact execContextRestore_keeps ..
  | hbmReadReply => exact execHbmReadReply_keeps ..
  | hbmWriteArrive => exact execHbmWriteArrive_keeps ..
  | hshipBeat => exact execHshipBeat_keeps ..
  | hpullBeat => exact execHpullBeat_keeps ..
  | bgemvBeat => exact execBgemvBeat_keeps ..
  | translationResolved => exact execTranslationResolved_keeps ..
  | translationMiss => exact execTranslationMiss_keeps ..
  | runAheadEnd => exact execRunAheadEnd_keeps ..
  | pageRequestDequeue => exact execPageRequestDequeue_keeps ..
  | pageRequestTimeout => exact execPageRequestTimeout_keeps ..
  | checkpointReissue => exact execCheckpointReissue_keeps ..
  | bulkRecordResume => exact execBulkRecordResume_keeps ..
  | frameReclaim => exact execFrameReclaim_keeps ..
  | hbmScrub => exact execHbmScrub_keeps ..
  | transferParityRetry => exact execTransferParityRetry_keeps ..
  | laneTest => exact execLaneTest_keeps ..
  | laneSwap => exact execLaneSwap_keeps ..
  | backgroundScrub => exact execBackgroundScrub_keeps ..
  | launch => exact execLaunch_keeps ..
  | launchStart => exact execLaunchStart_keeps ..
  | load => exact execLoad_keeps ..
  | store => exact execStore_keeps ..
  | signalAdd => exact execSignalAdd_keeps ..
  | signalSet => exact execSignalSet_keeps ..
  | waitPacket => exact execWaitPacket_keeps ..
  | waitComplete => exact execWaitComplete_keeps ..
  | armOnce => exact execArmOnce_keeps ..
  | armPeriodic => exact execArmPeriodic_keeps ..
  | armCancel => exact execArmCancel_keeps ..
  | barrier => exact execBarrier_keeps ..
  | barrierComplete => exact execBarrierComplete_keeps ..
  | loadStoreComplete => exact execLoadStoreComplete_keeps ..
  | timerTick => simp [exec, execTimerTick]
  | notify => exact execNotify_keeps ..
  | queueKill => exact execQueueKill_keeps ..
  | registerWrite => exact execRegisterWrite_keeps ..
  | mapperBind => exact execMapperBind_keeps ..
  | mapperEvict => exact execMapperEvict_keeps ..
  | packetTake => exact execPacketTake_keeps ..
  | headerReread => exact execHeaderReread_keeps ..
  | submitTimeout => exact execSubmitTimeout_keeps ..
  | completionWrite => exact execCompletionWrite_keeps ..
  | pageReplyMapped => exact execPageReplyMapped_keeps ..
  | pageReplyRefused => exact execPageReplyRefused_keeps ..
  | invalidateObject => exact execInvalidateObject_keeps ..
  | invalidateExtent => exact execInvalidateExtent_keeps ..
  | invalidateSecondStage => exact execInvalidateSecondStage_keeps ..
  | invalidateAll => exact execInvalidateAll_keeps ..
  | invalidateDone => exact execInvalidateDone_keeps ..
  | mintCreate => exact execMintCreate_keeps ..
  | mintFree => exact execMintFree_keeps ..
  | mintAlias => exact execMintAlias_keeps ..
  | mintCheckpoint => exact execMintCheckpoint_keeps ..
  | cxlMemRead => exact execCxlMemRead_keeps ..
  | cxlMemWrite => exact execCxlMemWrite_keeps ..
  | collectiveStart => exact execCollectiveStart_keeps ..
  | collectiveDone => exact execCollectiveDone_keeps ..
  | collectiveTimeout => exact execCollectiveTimeout_keeps ..
  | linkRetry => exact execLinkRetry_keeps ..
  | linkDown => simp [exec, execLinkDown]
  | linkDownTimeout => simp [exec, execLinkDownTimeout]
  | loadStoreLinkTimeout => exact execLoadStoreLinkTimeout_keeps ..
  | fabricFlitRetry => exact execFabricFlitRetry_keeps ..
  | fabricRetrain => exact execFabricRetrain_keeps ..
  | remoteHomeTimeout => exact execRemoteHomeTimeout_keeps ..
  | pluginCall => exact execPluginCall_keeps ..
  | pluginFault => exact execPluginFault_keeps ..
  | pluginLoad => exact execPluginLoad_keeps ..
  | deviceReset => exact execDeviceReset_keeps ..
  | attestationRequest => exact execAttestationRequest_keeps ..
  | functionLevelReset => exact execFunctionLevelReset_keeps ..
  | regionCreate => exact execRegionCreate_keeps ..
  | regionResize => exact execRegionResize_keeps ..
  | regionFree => exact execRegionFree_keeps ..
  | linkUp => simp [exec, execLinkUp]
  | hostEnumeration => simp [exec, execHostEnumeration]
  | pageRequestRingEnable => exact execPageRequestRingEnable_keeps ..
  | reclaimReply => exact execReclaimReply_keeps ..
  | fabricRequestArrive => exact execFabricRequestArrive_keeps ..
  | divisionComplete => exact execDivisionComplete_keeps ..
  | frameCountsSet => exact execFrameCountsSet_keeps ..
  | refillRateSet => exact execRefillRateSet_keeps ..
  | operatorKeyEnrol => exact execOperatorKeyEnrol_keeps ..

/-! ## Packets -/

section
variable {ex : Instr → State → Res?} (hex : ∀ (i : Instr) (s : State), s.Keeps (ex i s))
include hex

theorem fire_keeps (i : Instr) (a : EvArg) (s : State) : s.Keeps (fire ex i a s) :=
  State.Keeps.of_monitor (s := { s with ev := a }) (by simp) (hex i _)

theorem runHints_within : ∀ (hs : List Instr) (s : State), s.Within (runHints ex hs s)
  | [], s => s.within_refl
  | h :: hs, s => by
    obtain ⟨t, ht, hst⟩ := hex h s
    rw [runHints, ht]
    exact hst.trans (runHints_within hs t)

theorem State.hold_within (s : State) (w : PWord) (commit : Bool) : s.Within (s.hold ex w commit) :=
  (State.within_of_monitor (by simp)).trans (runHints_within hex _ _)

/-- A held word's answer keeps the bounds of the state before its packet. -/
theorem hold_keeps (s : State) (w : PWord) (commit : Bool) : s.Keeps (ex w.i (s.hold ex w commit)) := by
  obtain ⟨t, ht, hst⟩ := hex w.i (s.hold ex w commit)
  exact ⟨t, ht, (State.hold_within hex s w commit).trans hst⟩

/-- What a word that is tried answers is within the bounds of the state it is tried on. -/
def Probe.Within (s : State) : Probe → Prop
  | .fine | .operand => True
  | .waits t => s.Within t
  | .misses r | .traps _ r | .stops r => s.Keeps r

theorem probe_within (s : State) (w : PWord) : (probe ex s w).Within s := by
  obtain ⟨t, ht, hst⟩ := hold_keeps hex s w false
  rw [probe, ht]
  dsimp only
  split
  · trivial
  · trivial
  · exact hst
  · exact ⟨t, rfl, hst⟩
  · exact ⟨t, rfl, hst⟩

theorem commitAll_keeps {s0 : State} : ∀ (ws : List PWord) (s : State), s0.Within s → s0.Keeps (commitAll ex s0 ws s)
  | [], s, h => by
    unfold commitAll
    split
    · simp
    · exact ⟨s, rfl, h⟩
  | w :: ws, s, h => by
    obtain ⟨t, ht, hst⟩ := hold_keeps hex s w true
    rw [commitAll, ht]
    dsimp only
    split
    · exact commitAll_keeps ws t (h.trans hst)
    · exact ⟨t, rfl, h.trans hst⟩
    · exact ⟨_, rfl, State.waits_within (h.trans hst)⟩

end

/-- Every probe of a packet is within the bounds of the state before it. -/
def ProbesWithin (s : State) (ps : List (BitVec 6 × BitVec 2 × (Illegal ⊕ Probe))) : Prop :=
  ∀ p ∈ ps, ∀ q, p.2.2 = .inr q → q.Within s

theorem encodingFault_keeps {s : State} {m : BitVec 6} {k : BitVec 2} {r : Res?} :
    ∀ {ps : List (BitVec 6 × BitVec 2 × (Illegal ⊕ Probe))}, ProbesWithin s ps →
      encodingFault ps = some (m, k, .inr r) → s.Keeps r
  | [], _, h => nomatch h
  | (_, _, .inl _) :: _, _, h => nomatch h
  | (m, k, .inr q) :: ps, hp, h => by
    obtain ⟨hq, hps⟩ := List.forall_mem_cons.1 hp
    cases q with
    | traps cls r =>
      unfold encodingFault at h
      split at h
      · obtain rfl : r = _ := by simpa using (congrArg (Prod.snd ∘ Prod.snd) (Option.some.inj h))
        exact hq _ rfl
      · exact encodingFault_keeps hps h
    | _ => exact encodingFault_keeps hps h

theorem operandFault_keeps {s : State} {r : Res?} {ps : List (BitVec 6 × BitVec 2 × (Illegal ⊕ Probe))}
    (hp : ProbesWithin s ps) (h : operandFault ps = some r) : s.Keeps r := by
  obtain ⟨⟨m, k, _ | q⟩, hmem, hr⟩ := List.exists_of_findSome?_eq_some h
  · cases hr
  cases q with
  | traps cls q => cases hr; exact hp _ hmem _ rfl
  | stops q => cases hr; exact hp _ hmem _ rfl
  | _ => cases hr

theorem missAnswer_keeps {s : State} {r : Res?} {ps : List (BitVec 6 × BitVec 2 × (Illegal ⊕ Probe))}
    (hp : ProbesWithin s ps) (h : missAnswer ps = some r) : s.Keeps r := by
  unfold missAnswer at h
  split at h
  · cases h
  obtain ⟨⟨m, k, _ | q⟩, hmem, hr⟩ := List.exists_of_findSome?_eq_some h
  · cases hr
  cases q with
  | misses q => cases hr; exact hp _ hmem _ rfl
  | _ => cases hr

theorem waiting_within {s : State} {ps : List (BitVec 6 × BitVec 2 × (Illegal ⊕ Probe))} (hp : ProbesWithin s ps) :
    ∀ t ∈ waiting ps, s.Within t := by
  intro t ht
  obtain ⟨⟨m, k, _ | q⟩, hmem, hr⟩ := List.mem_filterMap.1 ht
  · cases hr
  cases q with
  | waits t => cases hr; exact hp _ hmem _ rfl
  | _ => cases hr

theorem State.keeps_of_ite {s : State} {p : Prop} [Decidable p] {q r : Res?} (hq : s.Keeps q) (hr : s.Keeps r) :
    s.Keeps (if p then q else r) := by
  split
  · exact hq
  · exact hr

theorem mapNext_keeps {s : State} {f : State → State} {r : Res?} (hf : ∀ t : State, (f t).monitor = t.monitor) (h : s.Keeps r) :
    s.Keeps (mapNext f r) := by
  obtain ⟨t, rfl, ht⟩ := h
  exact ⟨_, rfl, ht.trans (State.within_of_monitor (hf t))⟩

section
variable {ex : Instr → State → Res?} (hex : ∀ (i : Instr) (s : State), s.Keeps (ex i s))
include hex

theorem issuePacket_keeps (s : State) : s.Keeps (issuePacket ex s) := by
  unfold issuePacket
  dsimp only
  refine State.keeps_of_ite (mapNext_keeps State.afterPacket_monitor (fire_keeps hex _ _ _)) ?_
  generalize hu : (s.onMe _).onMe _ = u
  have hsu : u.monitor = s.monitor := by rw [← hu]; simp
  refine State.Keeps.of_monitor hsu ?_
  clear hu hsu
  split
  · exact mapNext_keeps State.afterPacket_monitor (fire_keeps hex _ _ _)
  split
  · simp
  generalize hps : List.map _ _ = ps
  have hp : ProbesWithin u ps := by
    subst hps
    intro p hp q hq
    obtain ⟨⟨m, k, d⟩, -, rfl⟩ := List.mem_map.1 hp
    cases d with
    | inl r => exact nomatch hq
    | inr w => exact (Sum.inr.inj hq) ▸ probe_within hex u w
  split
  · simp
  split
  · simp
  split
  · exact mapNext_keeps State.afterPacket_monitor
      (State.Keeps.of_monitor (s := u.onMe _) (by simp) (fire_keeps hex _ _ _))
  · exact mapNext_keeps State.afterPacket_monitor (encodingFault_keeps hp ‹_›)
  split
  · exact mapNext_keeps State.afterPacket_monitor (operandFault_keeps hp ‹_›)
  split
  · exact mapNext_keeps State.afterPacket_monitor (missAnswer_keeps hp ‹_›)
  split
  · rename_i t ts hw
    refine ⟨_, rfl, ?_⟩
    refine State.Within.trans (State.waitsAll_within (hw ▸ waiting_within hp)) (State.within_of_monitor ?_)
    simp
  · refine mapNext_keeps (fun t => by simp) (commitAll_keeps hex _ _ (State.within_of_monitor ?_))
    simp

theorem State.finishWfe_within (waits : Bool) (s : State) : s.Within (s.finishWfe ex waits) := by
  unfold State.finishWfe
  split
  · exact s.within_refl
  · obtain ⟨t, ht, hst⟩ := issuePacket_keeps hex (s.onMe fun c => { c with latch := true })
    rw [ht]
    exact (State.within_of_monitor (by simp)).trans (hst.trans (State.within_of_monitor (by simp)))

theorem State.dueEntry_keeps {waits task : Bool} {s : State} {r : Res?} (h : s.dueEntry ex waits task = some r) :
    s.Keeps r := by
  have entered : ∀ i, s.Keeps (fire ex i .none (s.finishWfe ex waits)) := by
    intro i
    obtain ⟨t, ht, hst⟩ := fire_keeps hex i .none (s.finishWfe ex waits)
    exact ⟨t, ht, (State.finishWfe_within hex waits s).trans hst⟩
  unfold State.dueEntry at h
  split at h
  · cases h
  split at h
  · cases h; simp
  split at h
  · cases h
  split at h
  · cases h; exact entered _
  split at h
  · cases h; exact entered _
  · cases h

theorem State.lastEntry_within (s : State) : s.Within (s.lastEntry ex) := by
  unfold State.lastEntry
  split
  · obtain ⟨t, ht, hst⟩ := State.dueEntry_keeps hex ‹_›
    cases ht; exact hst
  · exact s.within_refl
  · split
    · exact s.within_refl
    · obtain ⟨t, ht, hst⟩ := issuePacket_keeps hex (s.onMe fun c => { c with done := false })
      rw [ht]
      dsimp only
      split
      · exact s.within_refl
      · exact (State.within_of_monitor (by simp)).trans hst

theorem State.finishWaits_within (e : Instr) (s : State) : s.Within (s.finishWaits ex e) :=
  State.foldl_within _ _ (fun s (c : Core) => State.onCore_within (fun s =>
    (State.finishWfe_within hex _ s).trans (State.lastEntry_within hex _)) s c.id) s

theorem takeTurn_keeps (s : State) : s.Keeps (takeTurn ex s) := by
  unfold takeTurn
  extract_lets waits task u rest
  have hu : u.monitor = s.monitor := by simp [u]
  have hrest : ∀ v : State, v.Keeps (rest v) := fun v => State.keeps_next (by simp)
  refine State.Keeps.of_monitor hu ?_
  split
  · exact hrest u
  split
  · split
    · split
      · exact fire_keeps hex _ _ _
      · exact hrest u
    · exact hrest u
  split
  · exact hrest u
  split
  · exact issuePacket_keeps hex u
  split
  · exact State.dueEntry_keeps hex ‹_›
  split
  · exact hrest u
  · exact issuePacket_keeps hex u

end

/-! ## The step -/

theorem State.serveErrors_monitor (s : State) : s.serveErrors.monitor = s.monitor := by
  unfold State.serveErrors
  rw [State.foldl_monitor]
  · simp
  · intro s e
    split <;> simp

theorem State.tick_within (s : State) : s.Within s.tick := by
  have hs : (s.regions.foldl State.tickEngines s).monitor = s.monitor :=
    State.foldl_monitor _ _ _ State.tickEngines_monitor
  refine (State.within_of_monitor hs).trans ?_
  unfold State.tick
  extract_lets u n t v
  have ht : t.monitor = (u.purses.map Purse.refill, u.period, u.lms) := by unfold State.monitor; rfl
  have hv : v.monitor = t.monitor := by simp [v]
  refine State.within_of_purses (l := u.purses.map Purse.refill) ?_ (List.length_map ..) fun hp => ?_
  · split
    · exact (State.newWindow_monitor v).trans (hv.trans ht)
    · exact hv.trans ht
  · intro p hp'
    obtain ⟨q, hq, rfl⟩ := List.mem_map.1 hp'
    exact Purse.refill_within (hp q hq)

theorem State.endCycle_within (s : State) : s.Within s.endCycle := by
  unfold State.endCycle
  split
  · refine s.tick_within.trans (State.within_of_monitor ?_)
    dsimp only
    split <;> simp
  · exact State.within_of_monitor (by simp)

/-- Every step goes on, within the monitor's bounds. -/
theorem step_keeps (s : State) : s.Keeps (step s) := by
  unfold step
  split
  · rename_i e a l _
    obtain ⟨t, ht, hst⟩ := exec_keeps e (({ s with agenda := l, ev := a } : State).finishWaits exec e)
    refine ⟨t, ht, State.Within.trans ?_ hst⟩
    exact (State.within_of_monitor (by simp)).trans (State.finishWaits_within exec_keeps e _)
  split
  · exact State.keeps_next s.serveErrors_monitor
  split
  · exact takeTurn_keeps exec_keeps s
  split
  · exact State.keeps_next s.rotate_monitor
  · exact ⟨_, rfl, s.endCycle_within⟩

end Sys2Proof.Machine

namespace Sys2Proof.Proofs

open Sys2Proof Sys2Proof.Machine

/-- Settles O59: every word and every event answers a next state, and so does the step. -/
theorem stepGoesOn : Obligations.StepGoesOn := by
  intro s
  obtain ⟨t, ht, -⟩ := step_keeps s
  exact ⟨t, ht⟩

/-- Settles O60: the step keeps the bounds, since only the purse events, a cc, an attestation and a
boot touch what they bound, and each of these stays within them. -/
theorem stepKeepsBounds : Obligations.StepKeepsBounds := by
  intro s t hs ht
  obtain ⟨u, hu, hb, hl⟩ := step_keeps s
  obtain rfl : u = t := Host.Outcome.next.inj (hu.symm.trans ht)
  exact ⟨hb hs, hl⟩

end Sys2Proof.Proofs
end


section
/-! The scalar words (07_scalar_control.md R162 to R168): each is the frame `act` with one write owed.
What the frame does when its operands are at hand is `act_next`; here stand the values. -/

namespace Sys2Proof.Machine

open Sys2Proof

set_option Elab.async false

/-- Fewer operands are at hand when more are. -/
theorem Core.ready.mono {c : Core} {src dst src' dst' : List Res} (h : c.ready src dst) (hs : src' ⊆ src)
    (hd : dst' ⊆ dst) : c.ready src' dst' := by
  obtain ⟨ha, hw, ho, hh⟩ := h
  refine ⟨ha, fun r hr => hw r ?_, ?_, ?_⟩
  · rw [List.mem_append] at hr ⊢
    exact hr.imp (@hs r) (@hd r)
  · unfold Core.mOwed at ho ⊢
    rw [List.any_eq_false] at ho ⊢
    exact fun r hr => ho r (hs hr)
  · unfold Core.mHeld at hh ⊢
    rw [List.any_eq_false] at hh ⊢
    exact fun r hr => hh r (hd hr)

/-- A ready word that owes one general register, with the value told. -/
theorem scalar_next {s : State} {src : List Res} {rd : BitVec 6} {v w : BitVec 64} {L : Nat}
    (h : s.me.ready src [.g rd]) (hv : v = w) : scalar src rd v L s = .next (s.later (.g rd w) L) :=
  hv ▸ act_next h rfl rfl h.1

theorem scalar2_next {s : State} {f : BitVec 64 → BitVec 64 → BitVec 64} {rd ra rb : BitVec 6} {w : BitVec 64} {L : Nat}
    (h : s.me.ready [.g ra, .g rb] [.g rd]) (hv : f (s.me.gr ra) (s.me.gr rb) = w) :
    scalar2 f L rd ra rb s = .next (s.later (.g rd w) L) := scalar_next h hv

theorem scalar1_next {s : State} {f : BitVec 64 → BitVec 64} {rd ra : BitVec 6} {w : BitVec 64}
    (h : s.me.ready [.g ra] [.g rd]) (hv : f (s.me.gr ra) = w) :
    scalar1 f rd ra s = .next (s.later (.g rd w) 1) := scalar_next h hv

theorem scalarP_next {s : State} {src : List Res} {p : BitVec 3} {v w : Bool} (h : s.me.ready src [.p p])
    (hv : v = w) : scalarP src p v s = .next (s.later (.p p w) 1) := hv ▸ act_next h rfl rfl h.1

/-! ## Comparisons as numbers -/

theorem ite_slt {α : Type} (a b : BitVec 64) (x y : α) :
    (if a.slt b then x else y) = if a.toInt < b.toInt then x else y := by simp only [BitVec.slt_iff_toInt_lt]

theorem ite_ult {α : Type} (a b : BitVec 64) (x y : α) :
    (if a.ult b then x else y) = if a.toNat < b.toNat then x else y := by simp only [BitVec.ult_iff_lt, BitVec.lt_def]

theorem condHolds_eq (c : Cond) (a b : BitVec 64) : condHolds c a b = match c with
    | .eq => decide (a = b)
    | .ne => decide (a ≠ b)
    | .lt => decide (a.toInt < b.toInt)
    | .ge => decide (b.toInt ≤ a.toInt)
    | .ltn => decide (a.toNat < b.toNat)
    | .gen => decide (b.toNat ≤ a.toNat) := by
  cases c with
  | ne => simp only [condHolds, bne, ne_eq, decide_not]; rfl
  | _ => rfl

/-! ## Division -/

theorem Core.setG_ckpt (c : Core) (n : BitVec 6) (v : BitVec 64) : (c.setG n v).ckpt = c.ckpt := by
  unfold Core.setG
  split <;> rfl

/-- A ready division is owed to its register. -/
theorem divide_next {s : State} {f : BitVec 64 → BitVec 64 → BitVec 64} {rd ra rb : BitVec 6} {w : BitVec 64}
    (h : s.me.ready [.g ra, .g rb] [.g rd]) (hv : f (s.me.gr ra) (s.me.gr rb) = w) :
    divide f rd ra rb s = .next (s.onMe fun c => { c with
      outs := c.outs ++ [⟨.division, rd, c.seq, none, false, true, w, 34⟩], seq := c.seq + 1 }) :=
  hv ▸ act_next h rfl rfl h.1

theorem quotN_eq (a b : BitVec 64) : quotN a b = if b = 0 then -1 else BitVec.ofNat 64 (a.toNat / b.toNat) := by
  simp only [quotN, BitVec.udiv_eq, BitVec.udiv_def]

theorem remN_eq (a b : BitVec 64) : remN a b = if b = 0 then a else BitVec.ofNat 64 (a.toNat % b.toNat) := by
  simp only [remN, BitVec.umod_eq, BitVec.umod_def]

end Sys2Proof.Machine

namespace Sys2Proof.Proofs

open Sys2Proof Sys2Proof.Machine

/-- Settles O1: each word is the frame with its own value. -/
theorem registerWordResults : Obligations.RegisterWordResults := by
  intro s rd ra rb h
  dsimp only
  refine ⟨?_, ?_, ?_, ?_, ?_, ?_, ?_, ?_, ?_, ?_, ?_, ?_, ?_, ?_, ?_, ?_, ?_, ?_⟩
  · exact (scalar2_next h rfl : execAdd rd ra rb s = _)
  · exact (scalar2_next h rfl : execSub rd ra rb s = _)
  · exact (scalar2_next h rfl : execAnd rd ra rb s = _)
  · exact (scalar2_next h rfl : execOr rd ra rb s = _)
  · exact (scalar2_next h rfl : execXor rd ra rb s = _)
  · exact (scalar2_next h (by rw [low6_toNat]) : execShl rd ra rb s = _)
  · exact (scalar2_next h (by rw [low6_toNat]) : execShr rd ra rb s = _)
  · exact (scalar2_next h (by rw [low6_toNat]) : execSra rd ra rb s = _)
  · exact (scalar2_next h rfl : execMul rd ra rb s = _)
  · exact (scalar2_next h (mulh_high ..) : execMulh rd ra rb s = _)
  · exact (scalar2_next h (mulhn_high ..) : execMulhn rd ra rb s = _)
  · exact (scalar2_next h (ite_slt ..) : execMin rd ra rb s = _)
  · exact (scalar2_next h (ite_slt ..) : execMax rd ra rb s = _)
  · exact (scalar2_next h (ite_ult ..) : execMinn rd ra rb s = _)
  · exact (scalar2_next h (ite_ult ..) : execMaxn rd ra rb s = _)
  · exact (scalar2_next h (ite_slt ..) : execSlt rd ra rb s = _)
  · exact (scalar2_next h (ite_ult ..) : execSltn rd ra rb s = _)
  · exact (scalar2_next h (bitField_eq ..) : execBext rd ra rb s = _)

/-- Settles O2: the counts and extensions by what their loops find, `bins` bit by bit. -/
theorem bitFieldWords : Obligations.BitFieldWords := by
  refine ⟨fun s rd ra w h => ?_, fun s rd ra rb k => ⟨fun h => ?_, fun h => ?_, fun h => ?_⟩⟩
  · have hw : w.toNat + 1 ≤ 64 := w.isLt
    obtain ⟨n, hn, hv, hz, ho⟩ := countLead_spec (s.me.gr ra)
    obtain ⟨m, hm, hu, hy, hp⟩ := countTrail_spec (s.me.gr ra)
    dsimp only
    refine ⟨⟨n, hn, ?_, hz, ho⟩, ⟨m, hm, ?_, hy, hp⟩, ?_, ?_, ?_⟩
    · exact (scalar1_next h hv : execClz rd ra s = _)
    · exact (scalar1_next h hu : execCtz rd ra s = _)
    · exact (scalar1_next h (countOnes_spec _) : execPopc rd ra s = _)
    · exact (scalar1_next h (signLow_spec _ _ (Nat.succ_pos _) hw) : execSext rd ra w s = _)
    · exact (scalar1_next h (lowMask_spec _ _ hw) : execZext rd ra w s = _)
  · exact ⟨_, (scalar_next h rfl : execBins rd ra rb s = _), fun j hj => putField_bit _ _ _ j hj⟩
  · exact (scalar_next h rfl : execSel rd ra rb k s = _)
  · exact (act_next h rfl rfl h.1 : execNop s = _)

/-- Settles O3: the immediate is the one that `State.widen` makes of the field and the hints. -/
theorem immediateWordResults : Obligations.ImmediateWordResults := by
  intro s rd ra n imm m h
  have none : s.me.ready [] [.g rd] := h.mono (List.nil_subset _) (List.Subset.refl _)
  dsimp only
  have wide : ∀ v, s.widen m = v → exec (.movi rd m) s = .next (s.later (.g rd v) 1) :=
    fun v hv => (scalar_next none hv : execMovi rd m s = _)
  refine ⟨?_, ?_, ?_, ?_, ?_, ?_, ?_, ?_, fun hw => wide _ ?_, fun x hw => wide _ ?_⟩
  · exact (scalar_next h rfl : execAddi rd ra imm s = _)
  · exact (scalar_next h (ite_slt ..) : execSlti rd ra imm s = _)
  · exact (scalar_next h rfl : execAndi rd ra imm s = _)
  · exact (scalar_next h rfl : execOri rd ra imm s = _)
  · exact (scalar_next h rfl : execXori rd ra imm s = _)
  · exact (scalar1_next h rfl : execShli rd ra n s = _)
  · exact (scalar1_next h rfl : execShri rd ra n s = _)
  · exact (scalar1_next h rfl : execSrai rd ra n s = _)
  · simp only [State.widen, hw]
  · simp only [State.widen, hw]

/-- Settles O4: a division is owed at issue; DIVISION_COMPLETE finds the one that is due, since no
earlier one has its register. -/
theorem divisionResults : Obligations.DivisionResults := by
  intro s rd ra rb h
  dsimp only
  refine ⟨?_, ?_, ?_, ?_, fun u l o hev hk hrd houts hl => ⟨?_, fun hc => ?_, fun k hc hq hz => ?_⟩⟩
  · exact (divide_next h rfl : execDiv rd ra rb s = _)
  · exact (divide_next h (quotN_eq ..) : execDivn rd ra rb s = _)
  · exact (divide_next h rfl : execRem rd ra rb s = _)
  · exact (divide_next h (remN_eq ..) : execRemn rd ra rb s = _)
  · have hfind : u.me.outs.find? (fun o => o.kind == .division && o.rd == rd) = some o := by
      rw [houts, List.find?_append, List.find?_eq_none.2, Option.none_or]
      · simp [hk, hrd]
      · intro x hx
        simpa using hl x hx
    have hnew : o ∉ l := fun hm => hl o hm ⟨hk, hrd⟩
    have herase : u.me.outs.erase o = l := by
      rw [houts, List.erase_append_right _ hnew]; simp
    show execDivisionComplete u = _
    simp only [execDivisionComplete, hev, State.updCore, ite_true, hfind, herase]
  · simp only [Core.landG, Core.setG_ckpt, hc]
  · simp only [Core.landG, Core.setG_ckpt, hc, hq, ne_eq, hz, not_false_eq_true, and_self, ite_true]

/-- Settles O5: a predicate is owed 1 cc after issue. -/
theorem predicateWordResults : Obligations.PredicateWordResults := by
  intro s c p x y ra rb imm
  dsimp only
  refine ⟨fun h => ?_, fun h => ?_, fun h => ⟨?_, ?_⟩, fun h => ?_⟩
  · exact (scalarP_next h (condHolds_eq ..) : execPcmp c p ra rb s = _)
  · exact (scalarP_next h (condHolds_eq ..) : execPcmpi c p ra imm s = _)
  · exact (scalarP_next h rfl : execPand p x y s = _)
  · exact (scalarP_next h rfl : execPor p x y s = _)
  · exact (scalarP_next h rfl : execPnot p x s = _)

end Sys2Proof.Proofs
end


section
/-! How writes land (02_execution_model.md R51, 03_storage_model.md R135, R160). -/

namespace Sys2Proof.Machine

open Sys2Proof

set_option Elab.async false

theorem Core.gr_setG (c : Core) (n m : BitVec 6) (v : BitVec 64) :
    (c.setG n v).gr m = if m = 0 then 0 else if m = n then v else c.gr m := by
  unfold Core.gr Core.setG
  by_cases hm : m = 0
  · simp only [hm, ite_true]
  by_cases hn : n = 0
  · subst hn; simp only [hm, ite_true, ite_false]
  simp only [hm, hn, ite_false, Vector.getElem_set, BitVec.toNat_inj, eq_comm (a := n)]

theorem Core.pr_setP (c : Core) (n m : BitVec 3) (v : Bool) :
    (c.setP n v).pr m = if m = 0 then true else if m = n then v else c.pr m := by
  unfold Core.pr Core.setP
  by_cases hm : m = 0
  · simp only [hm, ite_true]
  by_cases hn : n = 0
  · subst hn; simp only [hm, ite_true, ite_false]
  simp only [hm, hn, ite_false, Vector.getElem_set, BitVec.toNat_inj, eq_comm (a := n)]

theorem Core.setG_eq (c : Core) (n : BitVec 6) (v : BitVec 64) : c.setG n v = { c with g := (c.setG n v).g } := by
  unfold Core.setG
  split <;> rfl

theorem Core.setP_eq (c : Core) (n : BitVec 3) (v : Bool) : c.setP n v = { c with p := (c.setP n v).p } := by
  unfold Core.setP
  split <;> rfl

/-! ## A cc without a division due -/

theorem Core.tickDivs_of_none {c : Core} (h : c.outs = []) : c.tickDivs = c := by
  simp only [Core.tickDivs, h, List.filter_nil, List.foldl_nil, List.map_nil]
  rw [← h]

/-- A command that is spent leaves with its records, and nothing else changes. -/
theorem Core.retire_eq (c : Core) : c.retire = { c with bulks := c.retire.bulks, score := c.retire.score } := by
  unfold Core.retire
  dsimp only
  split <;> rfl

/-- One register write lands as itself. -/
theorem Core.applyAll_g (c : Core) (n : BitVec 6) (v : BitVec 64) : c.applyAll [.g n v] = c.setG n v := by
  simp [Core.applyAll, Core.countAll, Write.late, Write.rowFlags, Core.apply]
  rw [Core.setG_eq]

/-- With no division outstanding, a register write that is due lands and nothing else. -/
theorem Core.tick_lands {c : Core} {n : BitVec 6} {v : BitVec 64} (ho : c.outs = []) (hr : c.rearmed = false)
    (hp : c.pend = [⟨.g n v, 1⟩]) (m : BitVec 6) :
    c.tick.gr m = (c.apply (.g n v)).gr m ∧ c.tick.pend = [] ∧ c.tick.p = c.p ∧ c.tick.csr = c.csr ∧
      c.tick.scr = c.scr ∧ c.tick.vmem = c.vmem := by
  unfold Core.tick
  rw [Core.tickDivs_of_none ho, Core.retire_eq]
  simp only [hp, hr, Bool.not_false, Bool.true_or, Bool.true_and, le_refl, decide_true, List.filter_cons_of_pos,
    List.filter_nil, List.map_cons, List.map_nil, Bool.not_true, Bool.false_eq_true, not_false_eq_true,
    List.filter_cons_of_neg, Core.applyAll_g]
  refine ⟨(Core.gr_setG ..).trans ?_, ?_⟩
  · rw [Core.apply, Core.gr_setG]
    rfl
  rw [Core.setG_eq]
  exact ⟨rfl, rfl, rfl, rfl, rfl⟩

/-- With no division outstanding and no write due, every write comes one cc nearer. -/
theorem Core.tick_nearer {c : Core} (ho : c.outs = []) (hr : c.rearmed = false) (hp : ∀ q ∈ c.pend, 1 < q.d) :
    c.tick.pend = c.pend.map (fun q => { q with d := q.d - 1 }) ∧ c.tick.g = c.g ∧ c.tick.p = c.p ∧
      c.tick.csr = c.csr ∧ c.tick.scr = c.scr ∧ c.tick.vmem = c.vmem := by
  have hnone : (c.pend.filter fun q => decide (q.d ≤ 1)) = [] := by
    rw [List.filter_eq_nil_iff]
    exact fun q hq => by simpa using hp q hq
  have hall : (c.pend.filter fun q => !decide (q.d ≤ 1)) = c.pend := by
    rw [List.filter_eq_self]
    exact fun q hq => by simpa using hp q hq
  unfold Core.tick
  rw [Core.tickDivs_of_none ho, Core.retire_eq]
  simp [hr, hnone, hall, Core.applyAll_nil]

theorem Write.outward_of_captured {w : Write} (h : w.captured = true) : w.outward = false := by
  cases w <;> simp_all [Write.captured, Write.outward]

/-- Before the first packet after a resume, what it replays stands still. -/
theorem Core.tick_replayed {c : Core} (ho : c.outs = []) (hr : c.rearmed = true) (hp : ∀ q ∈ c.pend, q.w.captured = true) :
    c.tick.pend = c.pend ∧ c.tick.vbusy = c.vbusy ∧ c.tick.g = c.g ∧ c.tick.p = c.p ∧
      c.tick.csr = c.csr ∧ c.tick.scr = c.scr ∧ c.tick.vmem = c.vmem := by
  have hout : ∀ q ∈ c.pend, q.w.outward = false := fun q hq => Write.outward_of_captured (hp q hq)
  have hnone : (c.pend.filter fun q => q.w.outward && decide (q.d ≤ 1)) = [] := by
    rw [List.filter_eq_nil_iff]
    exact fun q hq => by simp [hout q hq]
  have hall : (c.pend.filter fun q => !q.w.outward || !decide (q.d ≤ 1)) = c.pend := by
    rw [List.filter_eq_self]
    exact fun q hq => by simp [hout q hq]
  have hstill : c.pend.map (fun q => if q.w.outward = true then ({ q with d := q.d - 1 } : Pend) else q) = c.pend := by
    have hself : ∀ q ∈ c.pend, (if q.w.outward = true then ({ q with d := q.d - 1 } : Pend) else q) = q :=
      fun q hq => if_neg (by rw [hout q hq]; exact Bool.false_ne_true)
    exact (List.map_congr_left hself).trans (List.map_id' _)
  unfold Core.tick
  rw [Core.tickDivs_of_none ho, Core.retire_eq]
  simp [hr, hnone, hall, hstill, Core.applyAll_nil]

end Sys2Proof.Machine

namespace Sys2Proof.Proofs

open Sys2Proof Sys2Proof.Machine

/-- Settles O6: a write of a register changes its file alone, and a cc lands what is due. -/
theorem landedWrites : Obligations.LandedWrites := by
  intro c n m x y v b
  refine ⟨rfl, rfl, Core.setG_eq c n v, Core.setP_eq c x b, Core.gr_setG c n m v, Core.pr_setP c x y b,
    fun ho hr hp => Core.tick_lands ho hr hp m, Core.tick_nearer, Core.tick_replayed⟩

end Sys2Proof.Proofs
end


section
/-! Branches, loops, CSRs and hints (07_scalar_control.md R168 to R172, 06_encoding.md R150 to R154). -/

namespace Sys2Proof.Machine

open Sys2Proof

set_option Elab.async false

theorem check_true {b : Bool} {e : Exc} (h : b = true) : check b e = some e := if_pos h

theorem check_false {b : Bool} {e : Exc} (h : b = false) : check b e = none := (check_none b e).2 h

/-! ## Branches -/

/-- The target check of a branch passes exactly inside the fetch range (R379). -/
theorem State.targetCheck_none {s : State} {mj : BitVec 6} {t : Int} (h : 0 ≤ t ∧ t < s.me.fetchEnd) :
    s.targetCheck mj t = none :=
  check_false (by simp only [Bool.or_eq_false_iff, decide_eq_false_iff_not]; unfold Core.branchEnd; omega)

theorem State.targetCheck_some {s : State} {mj : BitVec 6} {t : Int} (h : ¬(0 ≤ t ∧ t < s.me.fetchEnd)) :
    s.targetCheck mj t = some ⟨0x15, 7, 0, BitVec.ofInt 48 t, mj⟩ :=
  check_true (by simp only [Bool.or_eq_true, decide_eq_true_eq]; unfold Core.branchEnd; omega)

theorem branch_next {src dst : List Res} {b : Bool} {disp : BitVec 19} {pre s : State} (h : s.me.ready src dst)
    (ht : 0 ≤ s.target disp ∧ s.target disp < s.me.fetchEnd) (hp : pre.me.ahead = none) :
    branch src dst b disp pre s = .next (if b then pre.onMe fun c => c.jump (s.target disp).toNat else pre) :=
  actBranch_next h (State.targetCheck_none ht) (by cases b <;> exact hp)

theorem branch_raise {src dst : List Res} {b : Bool} {disp : BitVec 19} {pre s : State} (h : s.me.ready src dst)
    (ht : ¬(0 ≤ s.target disp ∧ s.target disp < s.me.fetchEnd)) : branch src dst b disp pre s =
      .next (s.raise ⟨0x15, 7, 0, BitVec.ofInt 48 (s.target disp), 0x0E⟩) :=
  actBranch_raise h (State.targetCheck_some ht)

theorem extractLow2_ne {a : BitVec 64} : (a.extractLsb' 0 2 != 0) = decide (a.toNat % 4 ≠ 0) := by
  have h : (a.extractLsb' 0 2).toNat = a.toNat % 4 := by simp [BitVec.extractLsb'_toNat]
  rw [Bool.eq_iff_iff, bne_iff_ne, decide_eq_true_eq, ne_eq, BitVec.toNat_eq, h]
  rfl

/-! ## The return of a loop -/

theorem Core.advance_on {c : Core} (h : c.csr.lpcnt = 0 ∨ c.issue.nxt % 2 ^ 19 ≠ c.csr.lpend.toNat) :
    c.advance = { c with pc := c.issue.nxt, blkLeft := c.blkLeft - 1 } :=
  if_neg (fun ⟨hc, hn⟩ => h.elim hc fun hn' => hn' hn)

theorem Core.advance_back {c : Core} (hn : c.issue.nxt % 2 ^ 19 = c.csr.lpend.toNat) (hc : 1 < c.csr.lpcnt.toNat) :
    c.advance.pc = c.csr.lpbeg.toNat ∧ c.advance.csr = { c.csr with lpcnt := c.csr.lpcnt - 1 } := by
  have h0 : c.csr.lpcnt ≠ 0 := by rintro h; simp [h] at hc
  simp only [Core.advance, h0, hn, hc, ne_eq, not_false_eq_true, and_self, ite_true]

theorem Core.advance_last {c : Core} (hn : c.issue.nxt % 2 ^ 19 = c.csr.lpend.toNat) (hc : c.csr.lpcnt = 1) :
    c.advance.pc = c.issue.nxt ∧ c.advance.csr = { c.csr with lpcnt := 0 } := by
  unfold Core.advance
  dsimp only
  rw [if_pos ⟨by rw [hc]; decide, hn⟩, if_neg (by rw [hc]; decide)]
  exact ⟨rfl, rfl⟩

/-! ## CSRs -/

/-- The CSRs of level 1 by name. -/
theorem Csr.level1_iff (k : Csr) : Csr.level1 k = true ↔ k ∈ [Csr.tlpcnt, .epc, .ecause, .einfo, .escr0, .escr1] := by
  cases k <;> decide

theorem State.csrCheck_none {s : State} {mj : BitVec 6} {k : Csr} {b : Bool}
    (h : s.me.csr.level = 0 → ¬(Csr.level1 k = true ∨ b = true ∧ k = .estat)) : s.csrCheck mj k b = none := by
  refine check_false (Bool.eq_false_iff.2 fun hb => ?_)
  simp only [Bool.and_eq_true, beq_iff_eq, Bool.or_eq_true] at hb
  exact h hb.1 hb.2

theorem State.csrCheck_some {s : State} {mj : BitVec 6} {k : Csr} {b : Bool}
    (h : ¬(s.me.csr.level = 0 → ¬(Csr.level1 k = true ∨ b = true ∧ k = .estat))) :
    s.csrCheck mj k b = some ⟨0x13, 1, 0, 0, mj⟩ := by
  refine check_true ?_
  simp only [Bool.and_eq_true, beq_iff_eq, Bool.or_eq_true]
  by_contra hn
  exact h fun hl hk => hn ⟨hl, hk⟩

theorem csrWrite_next {s : State} {mj : BitVec 6} {ra : BitVec 6} {k : Csr} {w : BitVec 64 → Write}
    (h : s.me.ready [.g ra] (csrRes k)) (hk : s.csrCheck mj k true = none) :
    csrWrite mj ra k w s = .next (s.later (w (s.me.gr ra)) 1) := act_next h hk rfl h.1

theorem Core.setCsr_readOnly {k : Csr} (h : k ∈ [Csr.cyc, .ocyc, .turnno, .devtime, .lcid, .rgsize]) (c : Core)
    (v : BitVec 64) : c.setCsr k v = c := by
  simp only [List.mem_cons, List.not_mem_nil, or_false] at h
  obtain rfl | rfl | rfl | rfl | rfl | rfl := h <;> rfl

end Sys2Proof.Machine

namespace Sys2Proof.Proofs

open Sys2Proof Sys2Proof.Machine

/-- Settles O7: a branch is the frame `actBranch` with the target check before its effect. -/
theorem branches : Obligations.Branches := by
  intro s disp p ra
  dsimp only
  refine ⟨fun n => ⟨rfl, rfl, rfl⟩, fun h ht => ?_, fun h ht => ⟨?_, ?_⟩, fun h ht => ?_, fun h h4 hl => ?_, fun h ht => ?_,
    fun h ht => ⟨?_, ?_⟩, fun h hb => ?_⟩
  · exact (branch_next h ht h.1 : execBr disp s = _)
  · exact (branch_next h ht h.1 : execBp p disp s = _)
  · refine (branch_next h ht h.1 : execBnp p disp s = _).trans ?_
    cases s.me.pr p <;> rfl
  · exact (branch_next h ht h.1 : execJal disp s = _)
  · refine (actBranch_next h (check_false ?_) h.1 : execJr ra s = _)
    rw [extractLow2_ne]
    simp only [Bool.or_eq_false_iff, decide_eq_false_iff_not]
    unfold Core.branchEnd
    omega
  · exact (branch_raise h ht : execBr disp s = _)
  · exact (branch_raise h ht : execBp p disp s = _)
  · exact (branch_raise h ht : execBnp p disp s = _)
  · refine (actBranch_raise h (check_true ?_) : execJr ra s = _)
    rw [extractLow2_ne]
    simp only [Bool.or_eq_true, decide_eq_true_eq]
    unfold Core.branchEnd
    omega

/-- Settles O8: `loop` by its check of the body, and the advance of the pc by its three cases. -/
theorem loops : Obligations.Loops := by
  intro s ra imm
  dsimp only
  refine ⟨fun h hb he => ?_, fun h he => ?_, fun c => ⟨Core.advance_on, Core.advance_back, Core.advance_last⟩⟩
  · refine (actBranch_next h (check_false ?_) ?_ : execLoop ra imm s = _)
    · simp only [Bool.or_eq_false_iff, decide_eq_false_iff_not]
      unfold Core.branchEnd
      omega
    · simp only [State.onMe_me]
      split <;> exact h.1
  · refine (actBranch_raise h (check_true ?_) : execLoop ra imm s = _)
    simp only [Bool.or_eq_true, decide_eq_true_eq]
    exact he

/-- Settles O9: the check of the level first, then the value or the write owed. -/
theorem csrWords : Obligations.CsrWords := by
  intro s rd ra k
  dsimp only
  refine ⟨fun h hr => ?_, fun h hw => ?_, fun h hr => ?_, fun h hw => ?_,
    fun c v => ⟨fun hk => ?_, rfl, rfl, rfl, rfl, rfl⟩⟩
  · refine (act_next h (State.csrCheck_none fun hl => ?_) rfl h.1 : execCsrr rd k s = _)
    simpa [Csr.level1_iff] using hr hl
  · have hk : ∀ mj, s.csrCheck mj k true = none := fun mj => State.csrCheck_none fun hl => by
      simpa [Csr.level1_iff] using hw hl
    exact ⟨(csrWrite_next h (hk _) : execCsrw ra k s = _), (csrWrite_next h (hk _) : execCsrs ra k s = _),
      (csrWrite_next h (hk _) : execCsrc ra k s = _)⟩
  · refine (act_raise h (State.csrCheck_some fun hc => hr fun hl => ?_) : execCsrr rd k s = _)
    simpa [Csr.level1_iff] using hc hl
  · have hk : ∀ mj, s.csrCheck mj k true = some ⟨0x13, 1, 0, 0, mj⟩ := fun mj =>
      State.csrCheck_some fun hc => hw fun hl => by simpa [Csr.level1_iff] using hc hl
    exact ⟨(act_raise h (hk _) : execCsrw ra k s = _), (act_raise h (hk _) : execCsrs ra k s = _),
      (act_raise h (hk _) : execCsrc ra k s = _)⟩
  · exact ⟨Core.setCsr_readOnly hk c _, Core.setCsr_readOnly hk c _, Core.setCsr_readOnly hk c _⟩

/-- Settles O13: a hint changes the packet being issued. -/
theorem hintWords : Obligations.HintWords := by
  intro s x l g r
  refine ⟨rfl, rfl, rfl, ?_, fun f hw => ⟨?_, rfl⟩⟩
  · show execHblk l s = _
    simp only [execHblk, Bool.and_eq_true, beq_iff_eq]
  · simp only [State.widen, hw]

/-- Settles O55: the table decoder on four words. -/
theorem decodeWords : Obligations.DecodeWords := by
  unfold Obligations.DecodeWords
  decide

/-- Settles O58: the state after reset and a fresh core, field by field. -/
theorem resetState : Obligations.ResetState := by
  refine ⟨rfl, rfl, rfl, rfl, rfl, rfl, rfl, rfl, fun p hp => ?_, ⟨?_, fun p hp => ?_, ?_, ?_, ?_⟩, ?_⟩
  · rw [List.eq_of_mem_replicate hp]
  · rfl
  · rw [List.eq_of_mem_replicate hp]
    decide
  · decide
  · decide
  · decide
  · rintro id c rfl
    refine ⟨rfl, rfl, rfl, rfl, rfl, rfl, rfl, rfl, rfl, rfl, rfl, ?_⟩
    simp only [Core.fresh, Csrs.reset, decide_eq_true_eq]

end Sys2Proof.Proofs
end


section
/-! Entries, traps and the return (07_scalar_control.md R175 to R179, 02_execution_model.md R51, R158). -/

namespace Sys2Proof.Machine

open Sys2Proof

set_option Elab.async false

theorem Core.finishDivs_of_none {c : Core} (h : ∀ o ∈ c.outs, o.timed = false) : c.finishDivs = c := by
  have hnone : c.outs.filter (·.timed) = [] := List.filter_eq_nil_iff.2 fun o ho => by rw [h o ho]; exact Bool.false_ne_true
  have hall : c.outs.filter (fun o => !o.timed) = c.outs := List.filter_eq_self.2 fun o ho => by rw [h o ho]; rfl
  simp only [Core.finishDivs, hnone, List.foldl_nil, hall]

/-- What a capture leaves at a boundary of a task, when no division is under way. -/
theorem Core.capture_task {c : Core} {n : Nat} (hi : c.interlocked = false) (ho : ∀ o ∈ c.outs, o.timed = false) :
    c.capture n = { (c.applyAll ((c.pend.filter fun p => !(p.w.captured && decide (n < p.d))).map (·.w))).rowsLanded c.rowsOwed with
      pend := [], vbusy := 0, rearmed := false
      qimg := queueImage ((c.pend.filter fun p => p.w.captured && decide (n < p.d)).map fun p => { p with d := p.d - n })
        (c.vbusy - n) } := by
  simp only [Core.capture, Core.finishDivs_of_none ho, hi, Bool.false_eq_true, ite_false]

theorem ecause_toNat (e : Exc) : ((0 : BitVec 4) ++ e.code ++ (0 : BitVec 8) ++ e.cls).toNat =
    e.cls.toNat + (if (0x12 ≤ e.cls.toNat ∧ e.cls.toNat ≤ 0x1C) ∨ (0x20 ≤ e.cls.toNat ∧ e.cls.toNat ≤ 0x23) ∨
      e.cls = 0x30 ∨ e.cls = 0x31 then e.mj.toNat * 2 ^ 22 else 0) := by
  rw [cause_toNat, Exc.code_toNat]
  split
  · omega
  · rfl

/-- Above level 0 an exception stops the core where it is, with its report. -/
theorem Core.raise_stop {c : Core} (hp : c.pend = []) (ho : c.outs = []) (hl : c.csr.level ≠ 0) (e : Exc) :
    ∃ d, c.Kept d ∧ c.raise e = { d with
      csr := { d.csr with
        epc := BitVec.ofNat 17 (d.pc / 4)
        ecause := (0 : BitVec 4) ++ e.code ++ (0 : BitVec 8) ++ e.cls
        einfo := e.info (e.word c.issue.word) }
      stopped := true
      issue := { d.issue with status := .trapped, taken := true } } := by
  refine ⟨c.landAll, Core.kept_landAll (Core.kept_self hp), ?_⟩
  have hd : c.finishDivs = c := Core.finishDivs_of_none (by simp [ho])
  simp only [Core.raise, hl, ite_false, hd]

/-- An exception with nothing in flight, at level 0. -/
theorem Core.raise_enter {c : Core} (hp : c.pend = []) (hl : c.csr.level = 0) (e : Exc) :
    ∃ d, c.Kept d ∧ c.raise e = { d.enter e.cls e.code (e.info (e.word c.issue.word)) with
      issue := { d.issue with status := .trapped, taken := true } } :=
  ⟨c.capture 0, Core.kept_capture hp 0, Core.raise_entry hl e⟩

/-! ## The return -/

theorem Core.landAll_of_none {c : Core} (hp : c.pend = []) : c.landAll = c := by
  simp only [Core.landAll, hp, List.map_nil, Core.applyAll_nil, Core.rowsOwed_nil hp, Core.rowsLanded_zero]
  rw [← hp]

/-- A core that takes up the wait it had before an entry changes what it waits for alone. -/
theorem Core.waitsAgain_eq (c : Core) : ∃ n a m b,
    c.waitsAgain = { c with needs := n, answered := a, homeMissed := m, waitBack := b } := by
  unfold Core.waitsAgain
  dsimp only
  split
  · exact ⟨_, _, _, _, rfl⟩
  · exact ⟨_, _, _, _, rfl⟩

/-- What a return restores and replays when nothing of the handler is left to land. -/
structure Core.Returned (c : Core) (ps : List Pend) (r : Core) : Prop where
  pc : r.pc = c.csr.epc.toNat * 4
  level : r.csr.level = c.csr.plev
  lpcnt : r.csr.lpcnt = c.csr.tlpcnt
  bubble : r.bubble = 2
  pend : r.pend = ps
  vbusy : r.vbusy = c.qimg.nat 0x3FF8 8 % 32
  rearmed : r.rearmed = (!ps.isEmpty || decide (r.vbusy ≠ 0))
  g : r.g = c.g
  p : r.p = c.p
  scr : r.scr = c.scr
  vmem : r.vmem = c.vmem
  ahead : r.ahead = c.ahead

theorem Core.back_returned {c : Core} (hp : c.pend = []) (ps : List Pend) : c.Returned ps (c.back ps) := by
  unfold Core.back
  dsimp only
  rw [Core.landAll_of_none hp]
  generalize hd : ({ c.replay ps _ with csr := _, pc := _, bubble := _, blk := _, blkAt := _, blkLeft := _, qimg := _, issue := _ } : Core) = d
  obtain ⟨n, a, m, b, hw⟩ := Core.waitsAgain_eq d
  rw [hw, ← hd]
  refine ⟨rfl, rfl, rfl, rfl, ?_, rfl, rfl, rfl, rfl, rfl, rfl, rfl⟩
  show c.pend ++ ps = ps
  rw [hp, List.nil_append]

/-! ## Traps -/

/-- The level that a trap may enter (R175, R176). -/
def Core.trapUp (c : Core) (cls : BitVec 8) : Bool := c.csr.level == 0 || (c.csr.level == 1 && c.firm && cls == 0x02)

theorem Core.trapUp_task {c : Core} (hl : c.csr.level = 0) (cls : BitVec 8) : c.trapUp cls = true := by
  simp [Core.trapUp, hl]

theorem Core.trapUp_above {c : Core} {cls : BitVec 8} (hl : c.csr.level ≠ 0)
    (hn : c.csr.level ≠ 1 ∨ c.firm = false ∨ cls ≠ 0x02) : c.trapUp cls = false := by
  refine Bool.eq_false_iff.2 fun hu => ?_
  simp only [Core.trapUp, Bool.or_eq_true, Bool.and_eq_true, beq_iff_eq] at hu
  obtain hu | ⟨⟨h1, hf⟩, hc⟩ := hu
  · exact hl hu
  obtain hn | hn | hn := hn
  · exact hn h1
  · exact Bool.false_ne_true (hn.symm.trans hf)
  · exact hn hc

theorem trapWord_next {s : State} {cls : BitVec 8} {code : BitVec 12} (h : s.me.ready [] []) (ho : s.me.owesRemote = false)
    (hu : s.me.trapUp cls = true) : trapWord cls code s = .next { s with me := s.me.trapTo cls code } :=
  act_next h (check_false (by rw [← Core.trapUp, hu]; rfl)) ho ((Core.trapTo_ahead _ _ _ ho).trans h.1)

theorem trapWord_raise {s : State} {cls : BitVec 8} {code : BitVec 12} (h : s.me.ready [] [])
    (hu : s.me.trapUp cls = false) : trapWord cls code s = .next (s.raise ⟨0x13, 4, 0, 0, 0x0D⟩) :=
  act_raise h (check_true (by rw [← Core.trapUp, hu]; rfl))

/-- At level 0 a trap captures what is due after the boundary that follows its packet (R51). -/
theorem trapWord_captured {s : State} {cls : BitVec 8} {code : BitVec 12} (h : s.me.ready [] [])
    (ho : s.me.owesRemote = false) (hl : s.me.csr.level = 0) : ∃ c, trapWord cls code s = .next { s with me := c } ∧
      c.qimg = (s.me.advance.capture 1).qimg ∧ c.pend = (s.me.advance.capture 1).pend ∧
      c.vbusy = (s.me.advance.capture 1).vbusy ∧ c.csr.level = (s.me.advance.capture 1).csr.level + 1 ∧
      c.g = (s.me.advance.capture 1).g ∧ c.p = (s.me.advance.capture 1).p ∧ c.t = (s.me.advance.capture 1).t ∧
      c.vmem = (s.me.advance.capture 1).vmem ∧ c.scr = (s.me.advance.capture 1).scr := by
  refine ⟨_, trapWord_next h ho (Core.trapUp_task hl cls), ?_⟩
  rw [Core.trapTo_now _ _ _ ho]
  generalize s.me.advance.capture 1 = d
  exact ⟨rfl, rfl, rfl, rfl, rfl, rfl, rfl, rfl, rfl⟩

theorem Core.unfinished_false {c : Core} (h : c.unfinished = false) : c.pend = [] := by
  simp only [Core.unfinished, Bool.or_eq_false_iff, Bool.not_eq_false'] at h
  obtain ⟨⟨⟨hp, -⟩, -⟩, -⟩ := h
  exact List.isEmpty_iff.1 hp

end Sys2Proof.Machine

namespace Sys2Proof.Proofs

open Sys2Proof Sys2Proof.Machine

/-- Settles O10: a capture by its definition, an entry by what a capture keeps, and the image by what
`imageWrites` reads back of it. -/
theorem exceptionEntry : Obligations.ExceptionEntry := by
  refine ⟨fun c n hi ho => ?_, fun c e hl => ?_, fun num vb ps hn hv h => ?_, fun c e hp ho => ?_⟩
  · dsimp only
    rw [Core.capture_task hi ho]
    exact ⟨rfl, rfl, rfl, rfl, rfl, rfl, rfl, rfl⟩
  · dsimp only
    rw [Core.raise_entry hl]
    exact ⟨rfl, rfl, rfl, rfl, rfl, rfl, rfl, rfl⟩
  · obtain ⟨hperm, hsorted⟩ := imageOrder_spec ps
    exact ⟨imageOrder ps, hperm, hsorted, imageWrites_queueImage vb hn h, queueImage_vbusy vb hv⟩
  · by_cases hl : c.csr.level = 0
    · obtain ⟨d, k, hr⟩ := Core.raise_enter hp hl e
      dsimp only
      rw [hr]
      refine ⟨?_, ecause_toNat e, rfl, k.g ho, k.p, k.scr, k.vmem, k.sb, k.fe, k.x, fun _ => ⟨?_, ?_, ?_, rfl, ?_, k.stopped⟩,
        fun h => absurd hl h⟩
      · exact congrArg (fun n => BitVec.ofNat 17 (n / 4)) k.pc
      · show d.csr.level + 1 = 1
        rw [k.csr, hl]; rfl
      · exact (congrArg Csrs.level k.csr).trans hl
      · exact congrArg Csrs.lpcnt k.csr
      · exact congrArg (fun r : Csrs => r.evec.toNat * 4096 + 64 * e.cls.toNat) k.csr
    · obtain ⟨d, k, hr⟩ := Core.raise_stop hp ho hl e
      dsimp only
      rw [hr]
      refine ⟨?_, ecause_toNat e, rfl, k.g ho, k.p, k.scr, k.vmem, k.sb, k.fe, k.x, fun h => absurd h hl, fun _ => ⟨?_, k.pc, rfl⟩⟩
      · exact congrArg (fun n => BitVec.ofNat 17 (n / 4)) k.pc
      · show d.csr.level = _
        rw [k.csr]

/-- Settles O11: a trap is `Core.trapTo` in its frame, and a return what `Core.Returned` says. -/
theorem trapWords : Obligations.TrapWords := by
  refine ⟨fun s code h ho => ?_, fun s h hu => ⟨fun hl => ?_, fun hl ps hps => ?_, fun hl hps => ?_⟩⟩
  · have enters : ∀ cls, s.me.pend = [] → s.me.trapUp cls = true → ∃ c, trapWord cls code s = .next { s with me := c } ∧
        c.pc = s.me.csr.evec.toNat * 4096 + 64 * cls.toNat ∧
        c.csr.level = s.me.csr.level + 1 ∧ c.csr.plev = s.me.csr.level ∧
        c.csr.epc = BitVec.ofNat 17 (s.me.advance.pc / 4) ∧
        c.csr.ecause = (0 : BitVec 4) ++ code ++ (0 : BitVec 8) ++ cls ∧ c.csr.einfo = 0 ∧
        c.csr.tlpcnt = s.me.advance.csr.lpcnt ∧ c.csr.lpcnt = 0 ∧
        (s.me.pend = [] → s.me.outs = [] → c.g = s.me.g ∧ c.p = s.me.p ∧ c.scr = s.me.scr ∧ c.vmem = s.me.vmem) :=
      fun cls hp hu => ⟨_, trapWord_next h ho hu, Core.trapTo_registers _ _ _ hp ho⟩
    dsimp only
    refine ⟨fun hl hp => ⟨enters 1 hp (Core.trapUp_task hl _), enters 2 hp (Core.trapUp_task hl _)⟩, fun hl hf hp => enters 2 hp ?_,
      fun hl i hi => ?_, fun hl => ⟨trapWord_raise h (Core.trapUp_above hl (.inr (.inr (by decide)))), fun hn => 
      trapWord_raise h (Core.trapUp_above hl ?_)⟩⟩
    · simp [Core.trapUp, hl, hf]
    · simp only [List.mem_cons, List.not_mem_nil, or_false] at hi
      obtain rfl | rfl := hi
      · obtain ⟨c, hc, hk⟩ := trapWord_captured (cls := 0x01) (code := code) h ho hl
        exact ⟨c, (hc : execTrap code s = _), hk⟩
      · obtain ⟨c, hc, hk⟩ := trapWord_captured (cls := 0x02) (code := code) h ho hl
        exact ⟨c, (hc : execSvc code s = _), hk⟩
    · exact hn.imp_right .inl
  · refine (?_ : execTret s = _)
    rw [execTret, if_pos hl]
    exact act_raise h rfl
  · have back := Core.back_returned (Core.unfinished_false hu) ps
    refine ⟨s.me.back ps, (?_ : execTret s = _), back.pc, back.level, back.lpcnt, back.bubble, back.pend, back.vbusy,
      back.rearmed, back.g, back.p, back.scr, back.vmem⟩
    rw [execTret, if_neg hl, hu, Bool.and_false, if_neg Bool.false_ne_true, hps]
    exact act_next h rfl rfl (back.ahead.trans h.1)
  · refine ⟨⟨0x18, 1, 0, (firstBad s.me.id.num s.me.qimg).setWidth 48, 0x01⟩, rfl, rfl, (?_ : execTret s = _)⟩
    rw [execTret, if_neg hl, hu, Bool.and_false, if_neg Bool.false_ne_true, hps]
    exact act_raise h rfl

/-- Settles O12: each entry is the exception of its class; the timer and a deferred cause enter at the
boundary. -/
theorem hardwareEntries : Obligations.HardwareEntries := by
  intro s ha hl ho
  have raises : ∀ e, s.raise e = s.onMe fun c => c.raise e := State.raise_eq ha ho
  dsimp only
  refine ⟨fun mj sub reg hev => ?_, fun sub w hev => ?_, ?_, fun hen hdue hr hp => ?_, fun d l hd hrank hr hp => ?_⟩
  · show execIllegalInstruction s = _
    simp only [execIllegalInstruction, hev, raises]
  · show execPacketRuleViolation s = _
    simp only [execPacketRuleViolation, hev]
    rw [State.raise_eq (s := s.onMe fun c => { c with issue := { c.issue with word := w } }) ha ho, State.onMe_onMe]
  · show execFetchFault s = _
    simp only [execFetchFault, raises]
    cases hc : s.me.composed <;> simp [State.onMe, hc]
  · have entered := Core.enterHere_entered hp hl 3 0
    refine ⟨_, (?_ : execOwnerTimer s = .next { s with me := { s.me.enterHere 3 0 with csr :=
      { (s.me.enterHere 3 0).csr with ocmp := (s.me.enterHere 3 0).csr.ocmp &&& 0x7FFFFFFFFFFFFFFF } } }),
      entered.pc, entered.level, entered.cause, entered.info, entered.epc, ?_⟩
    · have hrun : s.me.running.isSome = true := Option.isSome_iff_ne_none.2 hr
      simp only [execOwnerTimer, hl, hen, decide_eq_true hdue, ha, hrun, ho, beq_self_eq_true, Bool.and_true,
        Option.isNone_none, Bool.not_false, ite_true, State.onMe]
    · show (s.me.capture 0).csr.ocmp &&& _ = _
      rw [(Core.kept_capture hp 0).csr]
  · have entered := Core.enterHere_entered (c := { s.me with deferred := l }) hp hl d.exc.cls (d.exc.info 0)
    refine ⟨_, execDeferredCauseEntry_of_first (by rw [hd, firstDeferred_head d l hrank]) hl ha hr ho, entered.deferred,
      entered.pc, entered.level, entered.cause.trans ?_, entered.info, entered.epc⟩
    have hcls := d.exc.cls.isLt
    rw [BitVec.toNat_eq, cause_toNat, BitVec.toNat_setWidth]
    show _ + 0 * _ = _
    omega

end Sys2Proof.Proofs
end


section
/-! What an on-chip address names (08_storage_sync.md R182). An address is read field by field; each
field of `space * 2^45 + rest` is a division and a remainder. -/

namespace Sys2Proof.Machine

open Sys2Proof

set_option Elab.async false

/-- A field of an address given as a number. -/
theorem field_toNat {x : Nat} (a n : Nat) (hx : x < 2 ^ 64) :
    ((BitVec.ofNat 64 x).extractLsb' a n).toNat = x / 2 ^ a % 2 ^ n := by
  rw [ofNat_field, Nat.mod_eq_of_lt hx]

/-- A field that is clear. -/
theorem field_zero {x : Nat} {a n : Nat} (hx : x < 2 ^ 64) (h : x / 2 ^ a % 2 ^ n = 0) :
    (BitVec.ofNat 64 x).extractLsb' a n = 0 := by
  rw [BitVec.toNat_eq, field_toNat a n hx, h]; rfl

/-- A field that has a bit set. -/
theorem field_ne_zero {x : Nat} {a n : Nat} (hx : x < 2 ^ 64) (h : x / 2 ^ a % 2 ^ n ≠ 0) :
    (BitVec.ofNat 64 x).extractLsb' a n ≠ 0 := by
  rw [ne_eq, BitVec.toNat_eq, field_toNat a n hx]; exact h

section
variable {s : State} {mj reg : BitVec 6} {n al off : Nat}

theorem State.locate_scratch (hc : s.me.composed = false) (ho : off < 2 ^ 19) :
    s.locate mj reg anySpace (BitVec.ofNat 64 off) n al =
      if off % al ≠ 0 then .error (addrExc mj 3 reg (BitVec.ofNat 64 off))
      else if s.me.scrSize < off + n then .error (addrExc mj 4 reg (BitVec.ofNat 64 off)) else .ok (.scratch off) := by
  have hx : off < 2 ^ 64 := by omega
  have hspace : off / 2 ^ 45 % 2 ^ 3 = 0 := by omega
  have hoff : off / 2 ^ 0 % 2 ^ 19 = off := by omega
  have hlow : (BitVec.ofNat 64 off).extractLsb' 19 26 = 0 := field_zero hx (by omega)
  have hhi : (BitVec.ofNat 64 off).extractLsb' 48 16 = 0 := field_zero hx (by omega)
  simp only [State.locate, anySpace, field_toNat _ _ hx, hspace, hoff, hlow, hhi, hc, Bool.false_eq_true, if_false, if_true,
    ite_true, bne_self_eq_false, beq_self_eq_true, Bool.not_true, Bool.or_self]

theorem State.locate_regs (ho : off < 2 ^ 17) :
    s.locate mj reg anySpace (BitVec.ofNat 64 (1 * 2 ^ 45 + off)) n al =
      if viewEnd s.me.id.num < off + n ∧ off < regSize s.me.id.num ∧ s.me.csr.level = 0 then .error ⟨0x13, 3, reg, 0, mj⟩
      else if off % al ≠ 0 then .error (addrExc mj 3 reg (BitVec.ofNat 64 (1 * 2 ^ 45 + off)))
      else if regSize s.me.id.num < off + n then .error (addrExc mj 4 reg (BitVec.ofNat 64 (1 * 2 ^ 45 + off)))
      else .ok (.regs off) := by
  have hx : 1 * 2 ^ 45 + off < 2 ^ 64 := by omega
  have hspace : (1 * 2 ^ 45 + off) / 2 ^ 45 % 2 ^ 3 = 1 := by omega
  have hoff : (1 * 2 ^ 45 + off) / 2 ^ 0 % 2 ^ 17 = off := by omega
  have hlow : (BitVec.ofNat 64 (1 * 2 ^ 45 + off)).extractLsb' 17 28 = 0 := field_zero hx (by omega)
  have hhi : (BitVec.ofNat 64 (1 * 2 ^ 45 + off)).extractLsb' 48 16 = 0 := field_zero hx (by omega)
  simp only [State.locate, anySpace, field_toNat _ _ hx, hspace, hoff, hlow, hhi, Nat.one_ne_zero, Bool.false_eq_true, if_false, if_true,
    ite_true, bne_self_eq_false, Bool.not_true, Bool.or_self]

/-- A space that names nothing. -/
theorem State.locate_nowhere {space : Nat} (hs : space ∈ [3, 5, 6, 7]) (ho : off < 2 ^ 45) :
    s.locate mj reg anySpace (BitVec.ofNat 64 (space * 2 ^ 45 + off)) n al =
      .error (addrExc mj 1 reg (BitVec.ofNat 64 (space * 2 ^ 45 + off))) := by
  simp only [List.mem_cons, List.not_mem_nil, or_false] at hs
  generalize hv : space * 2 ^ 45 + off = x
  have hx : x < 2 ^ 64 := by omega
  have hspace : x / 2 ^ 45 % 2 ^ 3 = space := by omega
  have h0 : space ≠ 0 := by omega
  have h1 : space ≠ 1 := by omega
  have h2 : space ≠ 2 := by omega
  have h4 : space ≠ 4 := by omega
  simp only [State.locate, field_toNat _ _ hx, hspace, h0, h1, h2, h4, if_false]

/-- Bits above the store's in an address of own scratch. -/
theorem State.locate_reserved (hc : s.me.composed = false) (hlow : 2 ^ 19 ≤ off) (ho : off < 2 ^ 45) :
    s.locate mj reg anySpace (BitVec.ofNat 64 off) n al = .error (addrExc mj 2 reg (BitVec.ofNat 64 off)) := by
  have hx : off < 2 ^ 64 := by omega
  have hspace : off / 2 ^ 45 % 2 ^ 3 = 0 := by omega
  have hset : (BitVec.ofNat 64 off).extractLsb' 19 26 ≠ 0 := field_ne_zero hx (by omega)
  simp only [State.locate, anySpace, field_toNat _ _ hx, hspace, hc, beq_eq_false_iff_ne.2 hset, Bool.false_eq_true,
    if_false, if_true, Bool.not_true, Bool.not_false, Bool.or_true]

end

end Sys2Proof.Machine

namespace Sys2Proof.Proofs

open Sys2Proof Sys2Proof.Machine

/-- Settles O15: one lemma for each space. -/
theorem onChipAddresses : Obligations.OnChipAddresses := by
  intro s mj reg off num lcol n al hc _ hnum hcol
  dsimp only
  refine ⟨fun ho => ?_, State.locate_regs,
    fun ho => State.locate_remote s mj reg off num n al _ hnum ho rfl,
    fun ho => State.locate_bank s mj reg off lcol n al _ hcol ho rfl,
    fun space hs => State.locate_nowhere hs, fun hlow ho => ?_⟩
  · rw [Nat.zero_mul, Nat.zero_add]
    exact State.locate_scratch hc ho
  · rw [Nat.zero_mul, Nat.zero_add]
    exact State.locate_reserved hc hlow ho

end Sys2Proof.Proofs
end


section
/-! Synchronisation words (08_storage_sync.md R181, R195, R200 to R202, R207). -/

namespace Sys2Proof.Machine

open Sys2Proof

set_option Elab.async false

theorem act_stall {src dst : List Res} {w : Bool} {eff s : State} (h : s.me.ready src dst) (hw : w = true)
    (hk : s.me.issue.commit = false) : act src dst none w eff s = .next (s.stall .waiting) := act_wait h hk rfl hw

theorem actShared_stall {src dst : List Res} {w : Bool} {eff dry s : State} (h : s.me.ready src dst) (hw : w = true)
    (hk : s.me.issue.commit = false) : actShared src dst none w eff dry s = .next (s.stall .waiting) :=
  actShared_wait h hk rfl hw

theorem Core.cell_setCell (c : Core) (w : BitVec 5) (v : BitVec 32) : (c.setCell w v).cell w = v := by
  simp [Core.setCell, Core.cell]

theorem Core.xp_setXp (c : Core) (x : BitVec 5) (b : Bool) : (c.setXp x b).xp x = b := by
  simp [Core.setXp, Core.xp]

/-- Outside run-ahead a word waits as its condition says. -/
theorem wait_eq {c : Core} {src dst : List Res} (h : c.ready src dst) (b : Bool) : (b && c.ahead.isNone) = b := by
  rw [h.1]; simp

/-- The comparison of `waitle` as numbers. -/
theorem cellAbove_iff (a : BitVec 64) (w : BitVec 32) :
    a.slt (w.signExtend 64) = true ↔ ¬w.toInt ≤ a.toInt := by
  rw [BitVec.slt_iff_toInt_lt, BitVec.toInt_signExtend_of_le (by decide), not_le]

theorem execXtake_eq {s : State} (ha : s.me.ahead = none) (rd : BitVec 6) (x : BitVec 5) : execXtake rd x s =
    actShared [] [.g rd] none (!s.me.xp x || s.me.writeHeld)
      ((s.onMe fun c => c.setXp x false).later (.g rd (s.me.xr x)) 1)
      ((s.onMe fun c => c.setXp x false).later (.g rd (s.me.xr x)) 1) s := by
  simp only [execXtake, ha, Option.isSome_none, Bool.false_and, Bool.false_eq_true, if_false]

end Sys2Proof.Machine

namespace Sys2Proof.Proofs

open Sys2Proof Sys2Proof.Machine

/-- Settles O14: each word is its frame with its condition to wait. -/
theorem syncWords : Obligations.SyncWords := by
  intro s o sc w x p rd ra imm
  dsimp only
  refine ⟨fun h ho => ?_, fun h ho hk => ?_, fun h => ⟨fun hw => ⟨?_, ?_⟩, fun hw => ⟨fun hk => ?_, fun hk => ?_⟩⟩,
    fun h => ⟨fun h0 hr => ?_, fun hw hk => ?_⟩, fun h => ⟨fun hle hr => ?_, fun hw hk => ?_⟩,
    fun h => ⟨fun hp hw => ?_, fun hp hk => ?_⟩, fun h => ⟨fun hr => ?_, fun hr hk => ?_⟩,
    fun h => ⟨fun hw => ?_, fun hw hk => ?_⟩, fun h => ⟨fun hl => ?_, fun hl hk => ?_⟩,
    fun c => ⟨rfl, rfl, Core.cell_setCell c w _, rfl, Core.xp_setXp c x false⟩⟩
  · refine (act_next h rfl ?_ ?_ : execFence o sc s = _)
    · rw [wait_eq h]
      simpa [not_or, imp_iff_not_or] using ho
    · split <;> exact h.1
  · refine (act_stall h ?_ hk : execFence o sc s = _)
    rw [wait_eq h]
    simpa using ho
  · exact (actShared_next h rfl hw h.1 : execCset w ra imm s = _)
  · exact (actShared_next h rfl hw h.1 : execCadd w ra imm s = _)
  · exact (actShared_stall h hw hk : execCset w ra imm s = _)
  · exact (actShared_stall h hw hk : execCadd w ra imm s = _)
  · refine (act_next h rfl ?_ h.1 : execWait w s = _)
    rw [wait_eq h]
    simp [h0, hr]
  · refine (act_stall h ?_ hk : execWait w s = _)
    rw [wait_eq h]
    simpa using hw
  · refine (act_next h rfl ?_ h.1 : execWaitle w ra imm s = _)
    rw [wait_eq h, hr, Bool.or_false, Bool.eq_false_iff, ne_eq, cellAbove_iff, not_not]
    exact hle
  · refine (act_stall h ?_ hk : execWaitle w ra imm s = _)
    rw [wait_eq h, Bool.or_eq_true, cellAbove_iff]
    exact hw
  · refine (execXtake_eq h.1 rd x).trans (actShared_next h rfl ?_ h.1)
    rw [hp, hw]; rfl
  · refine (execXtake_eq h.1 rd x).trans (actShared_stall h ?_ hk)
    simpa using hp
  · refine (act_next h rfl ?_ h.1 : execXtst p x s = _)
    rw [wait_eq h, hr]
  · refine (act_stall h ?_ hk : execXtst p x s = _)
    rw [wait_eq h, hr]
  · exact (actShared_next h rfl hw h.1 : execXclr x s = _)
  · exact (actShared_stall h hw hk : execXclr x s = _)
  · exact (actShared_next h rfl (by rw [hl]; rfl) h.1 : execWfe s = _)
  · refine (actShared_stall (s := s.onMe fun c => { c with onLatch := !s.me.latch }) h ?_ hk : execWfe s = _).trans ?_
    · rw [hl]; rfl
    · rw [hl]; rfl

end Sys2Proof.Proofs
end


section
/-! Loads and stores (08_storage_sync.md R184 to R188): where the address names a place the word has its
effect there, and where it names none its exception. -/

namespace Sys2Proof.Machine

open Sys2Proof

set_option Elab.async false

/-- The value of a load: its bytes, extended. -/
theorem extendBytes_bytes {n : Nat} (hn : n ∈ [1, 2, 4, 8]) (signed : Bool) {bs : List Byte} (hl : bs.length = n) :
    extendBytes signed n (bytesNat bs) = if signed then (BitVec.ofNat (8 * n) (bytesNat bs)).signExtend 64
      else (BitVec.ofNat (8 * n) (bytesNat bs)).setWidth 64 := by
  have hlt := bytesNat_lt bs
  rw [hl] at hlt
  exact (extendBytes_spec n hn signed _).resolve_right (by omega)

section
variable {mj : BitVec 6} {n : Nat} {signed acq : Bool} {rt ra : BitVec 6} {disp : BitVec 10} {s : State}

theorem loadWord_error {e : Exc} (hl : s.locate mj ra anySpace (s.slAddress ra disp n) n n = .error e)
    (h : s.me.ready [.g ra] [.g rt]) : loadWord mj n signed acq rt ra disp s = .next (s.raise e) := by
  simp only [loadWord, hl]
  exact act_raise h rfl

theorem loadWord_scratch (hn : n ∈ [1, 2, 4, 8]) {off : Nat}
    (hl : s.locate mj ra anySpace (s.slAddress ra disp n) n n = .ok (.scratch off))
    (h : s.me.ready [.g ra, .scr off n] [.g rt]) (hw : s.me.loadWaits (.scratch off) n = false)
    (hs : s.me.scoreHolds off n false = false) : loadWord mj n signed acq rt ra disp s =
      .next (s.later (.g rt (if signed then (BitVec.ofNat (8 * n) (bytesNat (s.ownBytes off n))).signExtend 64
        else (BitVec.ofNat (8 * n) (bytesNat (s.ownBytes off n))).setWidth 64)) 4) := by
  rw [← extendBytes_bytes hn signed (s.ownBytes_length off n)]
  simp only [loadWord, hl]
  exact act_next h rfl (by rw [hw, hs]; rfl) h.1

theorem loadWord_regs (hn : n ∈ [1, 2, 4, 8]) {off : Nat}
    (hl : s.locate mj ra anySpace (s.slAddress ra disp n) n n = .ok (.regs off))
    (h : s.me.ready (.g ra :: (Loc.regs off).res n s.me.id.num) [.g rt]) (hw : s.me.loadWaits (.regs off) n = false) :
    loadWord mj n signed acq rt ra disp s =
      .next (s.later (.g rt (if signed then (BitVec.ofNat (8 * n) (bytesNat (s.regBytes off n))).signExtend 64
        else (BitVec.ofNat (8 * n) (bytesNat (s.regBytes off n))).setWidth 64)) 4) := by
  rw [← extendBytes_bytes hn signed (s.regBytes_length off n)]
  simp only [loadWord, hl]
  exact act_next h rfl (by rw [hw]; rfl) h.1

theorem loadWord_remote {l : Loc} {d : Place} {off : Nat}
    (hl : s.locate mj ra anySpace (s.slAddress ra disp n) n n = .ok l)
    (hd : (∃ num, l = .remote num off ∧ d = .core num) ∨ ∃ c, l = .bank c off ∧ d = .bank c)
    (h : s.me.ready [.g ra] [.g rt]) (hw : s.me.loadWaits l n = false) (hb : s.me.behindRead d = false)
    (hr : s.me.remoteOuts < 16) : loadWord mj n signed acq rt ra disp s =
      .next ((s.onMe fun c => { c with
        outs := c.outs ++ [⟨.load, rt, c.seq, some d, acq, false, 0, 0⟩], seq := c.seq + 1 }).send s.me.id d
          (.load off n signed rt) s.me.seq) := by
  have hfew : decide (16 ≤ s.me.remoteOuts) = false := decide_eq_false (by omega)
  obtain ⟨num, rfl, rfl⟩ | ⟨c, rfl, rfl⟩ := hd
  · simp only [loadWord, hl]
    exact actOut_next h rfl (by rw [hw]; show (_ || s.me.behindRead (.core num) || _) = _; rw [hb, hfew]; rfl) h.1
  · simp only [loadWord, hl]
    exact actOut_next h rfl (by rw [hw]; show (_ || s.me.behindRead (.bank c) || _) = _; rw [hb, hfew]; rfl) h.1

end

section
variable {mj : BitVec 6} {n : Nat} {rel : Bool} {rt ra : BitVec 6} {disp : BitVec 10} {s : State}

theorem storeWord_error {e : Exc} (hl : s.locate mj ra anySpace (s.slAddress ra disp n) n n = .error e)
    (h : s.me.ready [.g ra, .g rt] []) : storeWord mj n rel rt ra disp s = .next (s.raise e) := by
  simp only [storeWord, hl]
  exact act_raise h rfl

theorem storeWord_scratch {off : Nat} (hl : s.locate mj ra anySpace (s.slAddress ra disp n) n n = .ok (.scratch off))
    (h : s.me.ready [.g ra, .g rt] []) (hb : s.me.sb.length < 32) (hs : s.me.scoreHolds off n true = false) :
    storeWord mj n rel rt ra disp s = .next (s.onMe fun c => { c with
      sb := c.sb ++ [⟨.scr off (natBytes n (s.me.gr rt).toNat), rel, c.seq, true, c.rowsOwed⟩], seq := c.seq + 1 }) := by
  simp only [storeWord, hl]
  exact actOut_buffer h rfl (by rw [Core.sbFull_false hb, hs]; rfl)

theorem storeWord_remote {l : Loc} {d : Place} {off : Nat}
    (hl : s.locate mj ra anySpace (s.slAddress ra disp n) n n = .ok l)
    (hd : (∃ num, l = .remote num off ∧ d = .core num) ∨ ∃ c, l = .bank c off ∧ d = .bank c)
    (h : s.me.ready [.g ra, .g rt] []) (hb : s.me.sb.length < 32) :
    storeWord mj n rel rt ra disp s = .next (s.onMe fun c => { c with
      sb := c.sb ++ [⟨.send d (.store off (natBytes n (s.me.gr rt).toNat)), rel, c.seq, true, c.rowsOwed⟩]
      seq := c.seq + 1 }) := by
  obtain ⟨num, rfl, rfl⟩ | ⟨c, rfl, rfl⟩ := hd
  · simp only [storeWord, hl]
    exact actOut_buffer h rfl (Core.sbFull_false hb)
  · simp only [storeWord, hl]
    exact actOut_buffer h rfl (Core.sbFull_false hb)

theorem storeWord_regs {off : Nat} (hl : s.locate mj ra anySpace (s.slAddress ra disp n) n n = .ok (.regs off))
    (h : s.me.ready [.g ra, .g rt] ((Loc.regs off).res n s.me.id.num)) (hw : s.me.writeHeld = false) :
    storeWord mj n rel rt ra disp s = .next (s.later (.regs off (natBytes n (s.me.gr rt).toNat)) 1) := by
  simp only [storeWord, hl]
  exact act_next h rfl hw h.1

end

end Sys2Proof.Machine

namespace Sys2Proof.Proofs

open Sys2Proof Sys2Proof.Machine

/-- Settles O16: the fourteen words are one frame, `loadWord`, at their size, sign and order. -/
theorem loadWords : Obligations.LoadWords := by
  intro s rt ra disp x hx
  obtain ⟨i, n, signed, acq⟩ := x
  have frame : exec i s = loadWord (if acq then 0x11 else 0x10) n signed acq rt ra disp s ∧ n ∈ [1, 2, 4, 8] := by
    simp only [List.mem_cons, Prod.mk.injEq, List.not_mem_nil, or_false] at hx
    obtain ⟨rfl, rfl, rfl, rfl⟩ | ⟨rfl, rfl, rfl, rfl⟩ | ⟨rfl, rfl, rfl, rfl⟩ | ⟨rfl, rfl, rfl, rfl⟩ |
      ⟨rfl, rfl, rfl, rfl⟩ | ⟨rfl, rfl, rfl, rfl⟩ | ⟨rfl, rfl, rfl, rfl⟩ | ⟨rfl, rfl, rfl, rfl⟩ |
      ⟨rfl, rfl, rfl, rfl⟩ | ⟨rfl, rfl, rfl, rfl⟩ | ⟨rfl, rfl, rfl, rfl⟩ | ⟨rfl, rfl, rfl, rfl⟩ |
      ⟨rfl, rfl, rfl, rfl⟩ | ⟨rfl, rfl, rfl, rfl⟩ := hx <;> exact ⟨rfl, by decide⟩
  obtain ⟨hi, hn⟩ := frame
  dsimp only
  rw [hi]
  exact ⟨fun off hl h hw hs => loadWord_scratch hn hl h hw hs, fun off hl h hw => loadWord_regs hn hl h hw,
    fun l d off hl hd h hw hb hr => loadWord_remote hl hd h hw hb hr, fun e hl h => loadWord_error hl h⟩

/-- Settles O17: the eight words are one frame, `storeWord`, at their size and order. -/
theorem storeWords : Obligations.StoreWords := by
  intro s rt ra disp x hx
  obtain ⟨i, n, rel⟩ := x
  have hi : exec i s = storeWord (if rel then 0x13 else 0x12) n rel rt ra disp s := by
    simp only [List.mem_cons, Prod.mk.injEq, List.not_mem_nil, or_false] at hx
    obtain ⟨rfl, rfl, rfl⟩ | ⟨rfl, rfl, rfl⟩ | ⟨rfl, rfl, rfl⟩ | ⟨rfl, rfl, rfl⟩ | ⟨rfl, rfl, rfl⟩ | ⟨rfl, rfl, rfl⟩ |
      ⟨rfl, rfl, rfl⟩ | ⟨rfl, rfl, rfl⟩ := hx <;> rfl
  dsimp only
  rw [hi]
  exact ⟨fun off hl h hb hs => storeWord_scratch hl h hb hs, fun l d off hl hd h hb => storeWord_remote hl hd h hb,
    fun off hl h hw => storeWord_regs hl h hw, fun e hl h => storeWord_error hl h⟩

end Sys2Proof.Proofs
end


section
/-! Full and empty lines (08_storage_sync.md R197 to R199, R157; 22_faults_machinery.md R377). -/

namespace Sys2Proof.Machine

open Sys2Proof

set_option Elab.async false

theorem State.feSet_ahead (s : State) (o : Nat) (b : Bool) : (s.feSet o b).me.ahead = s.me.ahead := by
  simp only [State.feSet, State.updCore]
  split <;> rfl

/-- A load that is owed and whose request goes through the store buffer. -/
theorem Core.owe_buffer {c : Core} (h : c.ahead = none) (k : OutKind) (rd : BitVec 6) (d : Place) (acq rel : Bool)
    (e : SbKind) : (c.owe k rd (some d) acq).buffer e rel = { c with
      outs := c.outs ++ [⟨k, rd, c.seq, some d, acq, false, 0, 0⟩]
      sb := c.sb ++ [⟨e, rel, c.seq, true, c.rowsOwed⟩], seq := c.seq + 1 } :=
  Core.buffer_eq (c := c.owe k rd (some d) acq) h e rel

/-- A local load of a line is owed and lands with its line. -/
theorem State.owe_line (t : State) (rt : BitVec 6) (v : BitVec 64) :
    (t.onMe fun c => c.owed .lineLoad rt v 4).later (.lineLoad rt) 4 = t.onMe fun c => { c with
      outs := c.outs ++ [⟨.lineLoad, rt, c.seq, none, false, true, v, 4⟩]
      pend := c.pend ++ [⟨.lineLoad rt, 4⟩], seq := c.seq + 1 } := rfl

/-! ## What reaches a line from another core -/

/-- What an operation on a line does at its core, and whether it has left the traffic. -/
def State.feArrive (s : State) (c : Core) (m : Msg) : State × Bool :=
  if c.feReady m then ((s.feApply c m).retryAll c.id, true)
  else if c.waitList.length < 16 then (s.updCore c.id fun d => { d with waitList := d.waitList ++ [m] }, false)
  else (s.spillTo c.id (.fe m), decide (256 ≤ c.spill.length))

theorem execFeRemoteApply_of_target {s : State} {k : Nat} {m : Msg} {c : Core} (h : s.arrives k m)
    (hop : (∃ off rd, m.op = .ldfe off rd) ∨ ∃ off v, m.op = .stfe off v) (hc : (s.less k).targetOf m = some c) :
    execFeRemoteApply s = .next (if ((s.less k).feArrive c m).2 then ((s.less k).feArrive c m).1.counted m
      else ((s.less k).feArrive c m).1) := by
  refine State.deliver_eq h _ ?_
  obtain ⟨off, rd, hm⟩ | ⟨off, v, hm⟩ := hop
  · simp only [hm, hc, Option.map_some]
    rfl
  · simp only [hm, hc, Option.map_some]
    rfl

/-- A retry with one operation parked. -/
theorem State.retryAll_one {s : State} {id : CoreId} {c : Core} {m : Msg} (hc : s.core? id = some c)
    (hp : c.parkedFe = [(m, true)]) : s.retryAll id =
      if c.feReady m then ((s.feApply c m).updCore id fun d => { d with waitList := d.waitList.erase m }).counted m
      else s := by
  simp only [State.retryAll, hc, hp, Option.map_some, Option.getD_some, List.length_singleton, State.retryFe]
  cases hr : c.feReady m <;> simp [hr] <;> rfl

end Sys2Proof.Machine

namespace Sys2Proof.Proofs

open Sys2Proof Sys2Proof.Machine

/-- Settles O18: each word at the place its address names, and an operation of another core by whether
its line allows it. -/
theorem fullEmptyWords : Obligations.FullEmptyWords := by
  intro s rt ra rb disp
  dsimp only
  refine ⟨fun off hl h hw hs => ⟨fun hf => ?_, fun hf hk => ?_⟩, fun num off hl h hb hw hr => ?_,
    fun l hl h hb hs => ?_, fun line count hc hw h ha h1 hn hsize full hb => ?_, fun k m num c id hd hid hc hop => ⟨fun h => ?_, fun hev hp => ?_⟩⟩
  · replace hl : s.locate 0x14 ra feSpace (s.slAddress ra disp 8) 8 8 = .ok (.scratch off) := hl
    show execLdfe rt ra disp s = _
    simp only [execLdfe, hl]
    rw [← State.owe_line]
    refine actShared_next h rfl ?_ ((s.feSet_ahead off false).trans h.1)
    simp only [hw, Loc.off, hs, hf, Bool.not_true, Bool.or_self]
  · replace hl : s.locate 0x14 ra feSpace (s.slAddress ra disp 8) 8 8 = .ok (.scratch off) := hl
    show execLdfe rt ra disp s = _
    simp only [execLdfe, hl]
    refine actShared_stall h ?_ hk
    simp only [Loc.off, hf, Bool.not_false, Bool.or_true]
  · replace hl : s.locate 0x14 ra feSpace (s.slAddress ra disp 8) 8 8 = .ok (.remote num off) := hl
    show execLdfe rt ra disp s = _
    simp only [execLdfe, hl]
    refine (actOut_next h rfl ?_ (Core.buffer_ahead (c := s.me.owe ..) h.1 _ _)).trans ?_
    · simp only [Core.sbFull_false hb, hw, Bool.or_self, Bool.false_or, decide_eq_false_iff_not]
      omega
    · simp only [State.onMe, Core.owe_buffer h.1]
      rfl
  · replace hl : s.locate 0x15 ra feSpace (s.slAddress ra disp 8) 8 8 = .ok l := hl
    show execStfe rt ra disp s = _
    simp only [execStfe, hl]
    by_cases hr : l.isRemote = true
    · simp only [hr, if_true]
      exact (actOut_buffer h rfl (Core.sbFull_false hb)).trans rfl
    · simp only [hr, if_false, Bool.false_eq_true]
      refine (actOut_buffer h rfl ?_).trans rfl
      rw [Core.sbFull_false hb, hs.resolve_left hr]; rfl
  · have hscr : s.me.scrSize ≤ 2 ^ 19 := by unfold Core.scrSize; split <;> decide
    have hx : 128 * line < 2 ^ 64 := by omega
    have hy : (count + if full then 2 ^ 63 else 0) < 2 ^ 64 := by split <;> omega
    have hline : ((s.me.gr ra).extractLsb' 7 12).toNat = line := by rw [ha, field_toNat _ _ hx]; omega
    have hlow : (s.me.gr ra).extractLsb' 0 7 = 0 := by rw [ha]; exact field_zero hx (by omega)
    have hcount : ((s.me.gr rb).extractLsb' 0 13).toNat = count := by rw [hb, field_toNat _ _ hy]; split <;> omega
    have hmid : (s.me.gr rb).extractLsb' 13 50 = 0 := by rw [hb]; exact field_zero hy (by split <;> omega)
    have hfull : (s.me.gr rb).getLsbD 63 = full := by
      rw [hb, ← BitVec.testBit_toNat, BitVec.toNat_ofNat, Nat.mod_eq_of_lt hy, Nat.testBit_eq_decide_div_mod_eq]
      cases full <;> simp <;> omega
    have h0 : decide (count = 0) = false := decide_eq_false (by omega)
    have hmax : decide (4096 < count) = false := decide_eq_false (by omega)
    have hfits : decide (s.me.scrSize < 128 * (line + count)) = false := decide_eq_false (by omega)
    show execFeinit ra rb s = _
    simp only [execFeinit, hc, hline, hlow, hcount, hmid, hfull, h0, hmax, hfits, bne_self_eq_false, Bool.or_self,
      Bool.false_eq_true, if_false]
    exact actShared_next h rfl hw h.1
  · subst hid
    refine (execFeRemoteApply_of_target h hop (State.targetOf_eq hd ((s.less_core? k _).trans hc))).trans ?_
    unfold State.feArrive
    by_cases hr : c.feReady m = true
    · simp only [hr, if_true]
    by_cases hw : c.waitList.length < 16
    · simp only [hr, hw, if_true, if_false, Bool.false_eq_true]
    · simp only [hr, hw, if_false, decide_eq_true_eq, Bool.false_eq_true]
  · show execFeParkedRetry s = _
    simp only [execFeParkedRetry, hev, State.retryAll_one hc hp]

end Sys2Proof.Proofs
end


section
/-! Atomics and messages (08_storage_sync.md R191 to R193, R206; 09_tasks_compose.md R219 to R223). -/

namespace Sys2Proof.Machine

open Sys2Proof

set_option Elab.async false

/-! ## Atomics -/

section
variable {op : AtomOp} {rd ra rb : BitVec 6} {o : Order} {s : State}

/-- The bytes of an atomic (R191). -/
def AtomOp.bytes (op : AtomOp) : Nat := if op = .fadd then 4 else 8

theorem atomWord_error {e : Exc} (h : s.me.ready [.g ra, .g rb, .g rd] [.g rd])
    (hl : s.locate 0x39 ra atomSpace (s.me.gr ra) (AtomOp.bytes op) (AtomOp.bytes op) = .error e) :
    atomWord op rd ra rb o s = .next (s.raise e) := by
  simp only [AtomOp.bytes] at hl
  simp only [atomWord, hl]
  exact act_raise h rfl

theorem atomWord_next {l : Loc} (h : s.me.ready [.g ra, .g rb, .g rd] [.g rd])
    (hl : s.locate 0x39 ra atomSpace (s.me.gr ra) (AtomOp.bytes op) (AtomOp.bytes op) = .ok l) (hb : s.me.sb.length < 32)
    (hw : s.me.loadWaits l (AtomOp.bytes op) = false) (hr : s.me.remoteOuts < 16) :
    atomWord op rd ra rb o s = .next (s.onMe fun c => { c with
      outs := c.outs ++ [⟨.atomic, rd, c.seq, some (s.atomPlace l).1, o == .acq, false, 0, 0⟩]
      sb := c.sb ++ [⟨.send (s.atomPlace l).1 (.atomic op (s.atomPlace l).2 (c.gr rb) (c.gr rd) rd), o == .rel, c.seq, true,
        c.rowsOwed⟩]
      seq := c.seq + 1 }) := by
  have hfew : decide (16 ≤ s.me.remoteOuts) = false := decide_eq_false (by omega)
  simp only [AtomOp.bytes] at hl hw
  simp only [atomWord, hl]
  refine (actOut_next h rfl ?_ (Core.buffer_ahead (c := s.me.owe ..) h.1 _ _)).trans ?_
  · simp only [Core.sbFull_false hb, hw, hfew, Bool.or_self]
  · simp only [State.onMe, Core.owe_buffer h.1]
    rfl

end

/-- The sum of an atomic, by what its operands are (R91, R239). -/
theorem Fmt.add_cases (f : Fmt) (r : Rnd) (a b : FVal) :
    (∀ sa ma ea sb mb eb, a = .fin sa ma ea → b = .fin sb mb eb → f.add r a b = f.sum r sa ma ea sb mb eb) ∧
    (∀ sa, a = .inf sa → (b = .inf sa ∨ ∃ sb mb eb, b = .fin sb mb eb) → (f.add r a b).1 = f.infBits sa) ∧
    (∀ sa ma ea sb, a = .fin sa ma ea → b = .inf sb → (f.add r a b).1 = f.infBits sb) ∧
    (∀ sa, a = .inf sa → b = .inf (!sa) → (f.add r a b).1 = f.nanBits) ∧
    ∀ x, f.firstNan [a, b] = some x → f.add r a b = x := by
  refine ⟨?_, ?_, ?_, ?_, ?_⟩
  · rintro sa ma ea sb mb eb rfl rfl
    rfl
  · rintro sa rfl (rfl | ⟨sb, mb, eb, rfl⟩)
    · simp [Fmt.add, Fmt.firstNan, FVal.isNan]
    · rfl
  · rintro sa ma ea sb rfl rfl
    rfl
  · rintro sa rfl rfl
    cases sa <;> rfl
  · intro x hx
    simp only [Fmt.add, hx]


/-! ## Messages and pushes -/

/-- An entry joins the store buffer when there is a place. -/
theorem actOut_enters {s : State} {src : List Res} {chk : Option Exc} {k : SbKind} {rel : Bool} (h : s.me.ready src [])
    (hc : chk = none) (hb : s.me.sb.length < 32) : actOut src [] chk s.me.sbFull (s.onMe fun c => c.buffer k rel) s =
      .next (s.onMe fun c => { c with sb := c.sb ++ [⟨k, rel, c.seq, true, c.rowsOwed⟩], seq := c.seq + 1 }) :=
  (actOut_buffer h hc (Core.sbFull_false hb)).trans rfl

/-- The first failing check is the second of two. -/
theorem firstOf_second {b : Option Exc} {a : Option Exc} (ha : a = none) : firstOf [a, b] = b := by
  subst ha
  cases b <;> rfl

theorem firstOf_two {a b : Option Exc} (ha : a = none) (hb : b = none) : firstOf [a, b] = none := by
  subst ha hb; rfl

theorem firstOf_first {e : Exc} {a : Option Exc} {l : List (Option Exc)} (ha : a = some e) : firstOf (a :: l) = some e := by
  subst ha; rfl

theorem low_eq_zero {a : BitVec 64} {k : Nat} (h : a.toNat % 2 ^ k = 0) : (a.extractLsb' 0 k != 0) = false := by
  rw [bne_eq_false_iff_eq, BitVec.toNat_eq, BitVec.extractLsb'_toNat]
  simpa using h

theorem high_eq_zero {a : BitVec 64} {k : Nat} (hk : k ≤ 64) (h : a.toNat < 2 ^ k) :
    (a.extractLsb' k (64 - k) != 0) = false := by
  rw [bne_eq_false_iff_eq, BitVec.toNat_eq, BitVec.extractLsb'_toNat, Nat.shiftRight_eq_div_pow, Nat.div_eq_of_lt h]
  simp

/-- The first two words of the control block that `tinit` writes (R223). -/
def tcbWords (w l : BitVec 64) (state : BitVec 64) : List Byte :=
  natBytes 8 ((w &&& 0xFFFFFFFFFFFFCFFF) ||| state).toNat ++ natBytes 8 l.toNat

/-- `tinit` with operands in order has one check left, the place of a push. -/
theorem execTinit_checked {s : State} {ga gb gc : BitVec 6} (hcomp : s.me.composed = false)
    (ht : (s.me.gr ga).toNat % 64 = 0) (hsize : (s.me.gr ga).toNat + 64 ≤ openEnd s.me.id.num)
    (hl8 : (s.me.gr gc).toNat % 8 = 0) (hl : (s.me.gr gc).toNat < 2 ^ 19) (hres : (s.me.gr gb).extractLsb' 48 16 = 0)
    (hres' : (s.me.gr gb).extractLsb' 14 2 = 0) (hres'' : (s.me.gr gb).getLsbD 11 = false) {push : Bool}
    (hp : ((s.me.gr gb).extractLsb' 16 16 == 0) = push) : execTinit ga gb gc s =
    actOut [.g ga, .g gb, .g gc] [] (check (push && !s.me.hasPlace ((s.me.gr gb).getLsbD 10) false) ⟨0x21, 1, 0, 0, 0x3B⟩)
      (decide ((if push then 31 else 32) ≤ s.me.sb.length) || s.me.scoreHolds (s.me.gr ga).toNat 16 true)
      (s.onMe fun c =>
        let c := c.buffer (.scr (s.me.gr ga).toNat (tcbWords (s.me.gr gb) (s.me.gr gc) (if push then 0x2000 else 0x1000))) false
        if push then c.buffer (.pushTcb (s.me.gr ga).toNat ((s.me.gr gb).getLsbD 10)) false else c) s := by
  subst hp
  have hfit : decide (openEnd s.me.id.num < (s.me.gr ga).toNat + 64) = false := decide_eq_false (by omega)
  simp only [execTinit, low_eq_zero (k := 6) ht, low_eq_zero (k := 3) hl8, hcomp, Bool.false_eq_true, if_false, hfit, hres, hres', hres'',
    high_eq_zero (k := 19) (by decide) hl, bne_self_eq_false, Bool.or_self, check_false, firstOf]
  cases check ((s.me.gr gb).extractLsb' 16 16 == 0 && !s.me.hasPlace ((s.me.gr gb).getLsbD 10) false) ⟨0x21, 1, 0, 0, 0x3B⟩ <;> rfl

/-- Two entries join the store buffer one after the other. -/
theorem Core.buffer_buffer {c : Core} (h : c.ahead = none) (k j : SbKind) : (c.buffer k false).buffer j false = { c with
    sb := c.sb ++ [⟨k, false, c.seq, true, c.rowsOwed⟩, ⟨j, false, c.seq + 1, true, c.rowsOwed⟩], seq := c.seq + 2 } := by
  rw [Core.buffer_eq (Core.buffer_ahead h k false), Core.buffer_eq h]
  simp only [List.append_assoc, List.singleton_append]
  rfl

end Sys2Proof.Machine

namespace Sys2Proof.Proofs

open Sys2Proof Sys2Proof.Machine

/-- Settles O19: the eleven words are one frame, `atomWord`; the values are `atomNew`'s. -/
theorem atomicWords : Obligations.AtomicWords := by
  intro s rd ra rb o
  refine ⟨fun x hx => ?_, fun old b e => ⟨?_, rfl, rfl, rfl, ite_slt .., ite_slt .., ite_ult .., ite_ult .., rfl, rfl, rfl⟩⟩
  · obtain ⟨i, op⟩ := x
    have hi : exec i s = atomWord op rd ra rb o s := by
      simp only [List.mem_cons, Prod.mk.injEq, List.not_mem_nil, or_false] at hx
      obtain ⟨rfl, rfl⟩ | ⟨rfl, rfl⟩ | ⟨rfl, rfl⟩ | ⟨rfl, rfl⟩ | ⟨rfl, rfl⟩ | ⟨rfl, rfl⟩ | ⟨rfl, rfl⟩ | ⟨rfl, rfl⟩ |
        ⟨rfl, rfl⟩ | ⟨rfl, rfl⟩ | ⟨rfl, rfl⟩ := hx <;> rfl
    dsimp only
    rw [hi]
    exact fun h => ⟨fun l hl hb hw hr => atomWord_next h hl hb hw hr, fun e hl => atomWord_error h hl⟩
  · obtain ⟨hfin, hinf, hinf', hnan, hfirst⟩ := Fmt.add_cases fmt32 ⟨.rne, 0, false⟩
      (fmt32.decode (old.toNat % 2 ^ 32)) (fmt32.decode (b.toNat % 2 ^ 32))
    have sum : ∀ v, (fmt32.add ⟨.rne, 0, false⟩ (fmt32.decode (old.toNat % 2 ^ 32)) (fmt32.decode (b.toNat % 2 ^ 32))).1 = v →
        atomNew .fadd old b e = BitVec.ofNat 64 v := fun v hv => congrArg (BitVec.ofNat 64) hv
    exact ⟨fun sa ma ea sb mb eb hx hy => sum _ (congrArg Prod.fst (hfin sa ma ea sb mb eb hx hy)),
      fun sa hx hy => sum _ (hinf sa hx hy), fun sa ma ea sb hx hy => sum _ (hinf' sa ma ea sb hx hy),
      fun sa hx hy => sum _ (hnan sa hx hy), fun r hr => sum _ (congrArg Prod.fst (hfirst r hr))⟩

/-- Settles O20: each word's checks in their order, then its entry. -/
theorem messageWords : Obligations.MessageWords := by
  intro s ga gb gc x
  dsimp only
  intro hb
  have hb32 : s.me.sb.length < 32 := by omega
  refine ⟨fun h => ⟨fun ha hn => ?_, fun ha hn => ?_, fun ha => ?_, fun hc hn => ?_, fun hc hn => ?_⟩,
    fun h => ⟨fun hc hn => ?_, fun hc hn => ?_, fun hc y hy => ?_⟩, fun h hcomp ht hsize hl8 hl hres hres' hres'' hs =>
      ⟨fun hp => ?_, fun hp hplace => ?_, fun hp hplace => ?_⟩⟩
  · refine (actOut_enters h (firstOf_two (check_false ?_) (State.coreCheck_none hn)) hb32 : execXput ga gb x s = _)
    rw [high_bits_zero]
    exact decide_eq_false (by omega)
  · refine (actOut_raise h ((firstOf_second (check_false ?_)).trans (State.coreCheck_some hn)) : execXput ga gb x s = _)
    rw [high_bits_zero]
    exact decide_eq_false (by omega)
  · refine (actOut_raise h (firstOf_first (check_true ?_)) : execXput ga gb x s = _)
    rw [high_bits_zero]
    exact decide_eq_true ha
  · exact (actOut_enters h (firstOf_two hc (State.coreCheck_none hn)) hb32 : execTsig ga gb s = _)
  · exact (actOut_raise h ((firstOf_second hc).trans (State.coreCheck_some hn)) : execTsig ga gb s = _)
  · rw [← headerCheck_argc hc]
    exact (actOut_enters h (firstOf_two hc (State.coreCheck_none hn)) hb32 : execAmsg ga gb s = _)
  · exact (actOut_raise h ((firstOf_second hc).trans (State.coreCheck_some hn)) : execAmsg ga gb s = _)
  · obtain ⟨i, top⟩ := y
    have hi : exec i s = pushWord top ga gb s := by
      simp only [List.mem_cons, Prod.mk.injEq, List.not_mem_nil, or_false] at hy
      obtain ⟨rfl, rfl⟩ | ⟨rfl, rfl⟩ := hy <;> rfl
    dsimp only
    rw [hi]
    split
    · rename_i hplace
      rw [← headerCheck_argc hc]
      exact actOut_enters h (firstOf_two hc (check_false (by rw [hplace]; rfl))) hb32
    · rename_i hplace
      exact actOut_raise h ((firstOf_second hc).trans (check_true (by rw [Bool.eq_false_iff.2 hplace]; rfl)))
  · refine ((execTinit_checked hcomp ht hsize hl8 hl hres hres' hres'' (beq_eq_false_iff_ne.2 hp)).trans
      (actOut_buffer h rfl ?_) : execTinit ga gb gc s = _).trans rfl
    rw [hs, Bool.or_false]
    exact decide_eq_false (Nat.not_le.2 hb32)
  · refine ((execTinit_checked hcomp ht hsize hl8 hl hres hres' hres'' (beq_iff_eq.2 hp)).trans
      (actOut_next h (check_false ?_) ?_ ?_) : execTinit ga gb gc s = _).trans ?_
    · rw [hplace]; rfl
    · rw [hs, Bool.or_false]
      exact decide_eq_false (Nat.not_le.2 hb)
    · exact Core.buffer_ahead (Core.buffer_ahead h.1 _ _) _ _
    · exact congrArg (fun c => Host.Outcome.next { s with me := c }) (Core.buffer_buffer h.1 _ _)
  · refine ((execTinit_checked hcomp ht hsize hl8 hl hres hres' hres'' (beq_iff_eq.2 hp)).trans
      (actOut_raise h (check_true ?_)) : execTinit ga gb gc s = _)
    rw [hplace]; rfl

end Sys2Proof.Proofs
end


section
/-! Ring handles (03_storage_model.md R69, R71; 08_storage_sync.md R203 to R205). -/

namespace Sys2Proof.Machine

open Sys2Proof

set_option Elab.async false

section
variable {s : State} {ga : BitVec 6} {q : BitVec 3} {c : Nat}

/-- The checks of `radv` pass for a handle of the word's role, a count within the ring, and a peer in the
region. -/
theorem State.radvCheck_none {kind : Nat} (hr : radvRole kind (ringRole (s.me.ringNow q)) = true)
    (hc : c ≤ 2 ^ ringLcount (s.me.ringNow q))
    (hn : 2 ≤ kind → s.names s.me.id (ringPeer (s.me.ringNow q)) = true) : s.radvCheck kind ga q c = none := by
  have hlt : ringPeer (s.me.ringNow q) < 2 ^ 12 := BitVec.isLt _
  have hpeer : (if 2 ≤ kind then s.coreCheck 0x3A 4 (q.setWidth 6) (BitVec.ofNat 12 (ringPeer (s.me.ringNow q))) else none) = none := by
    split
    · rename_i hk
      refine State.coreCheck_none ?_
      rw [BitVec.toNat_ofNat, Nat.mod_eq_of_lt hlt]
      exact hn hk
    · rfl
  have hfit : decide (2 ^ ringLcount (s.me.ringNow q) < c) = false := decide_eq_false (by omega)
  simp only [State.radvCheck, hr, hfit, hpeer, Bool.not_true, check_false, firstOf]

theorem execRadvPop_eq (ha : s.me.ahead = none) (hn : ((s.me.gr ga).extractLsb' 0 11).toNat = c) : execRadvPop ga q s =
    actNow [.g ga] [] (s.radvCheck 0 ga q c)
      (decide ((ringFill (s.me.ringNow q)).toNat < c) || (!s.me.issue.commit && s.me.writeHeld))
      (if c = 0 then s else s.later (.ringPop q c) 1) s := by
  subst hn
  simp only [execRadvPop, radv, ha, Option.isSome_none, Option.isSome_some, Bool.false_eq_true, if_false, if_true,
    Bool.false_and, Bool.or_false]

theorem execRadvPush_eq (ha : s.me.ahead = none) (hn : ((s.me.gr ga).extractLsb' 0 11).toNat = c) : execRadvPush ga q s =
    actNow [.g ga] [] (s.radvCheck 1 ga q c)
      (decide ((ringFree (s.me.ringNow q)).toNat < c) || (!s.me.issue.commit && s.me.writeHeld))
      (if c = 0 then s else s.later (.ringPush q c) 1) s := by
  subst hn
  simp only [execRadvPush, radv, ha, Option.isSome_none, Option.isSome_some, Bool.false_eq_true, if_false, if_true,
    Bool.false_and, Bool.or_false]

theorem execRadvCredit_eq (ha : s.me.ahead = none) (hn : ((s.me.gr ga).extractLsb' 0 11).toNat = c) (hc : c ≠ 0) : execRadvCredit ga q s =
    actNow [.g ga] [] (s.radvCheck 2 ga q c) (!s.me.issue.commit && (s.me.acquiring || s.me.sbFull))
      (s.onMe fun k => k.buffer (.send (.core (ringPeer (s.me.ringNow q)))
        (.credit (ringPq (s.me.ringNow q)) (BitVec.ofNat 11 c))) false) s := by
  subst hn
  simp only [execRadvCredit, radv, ha, Option.isSome_none, Option.isSome_some, Bool.false_eq_true, if_false, hc,
    Bool.true_and, Bool.false_or]

theorem execRadvFill_eq (ha : s.me.ahead = none) (hn : ((s.me.gr ga).extractLsb' 0 11).toNat = c) (hc : c ≠ 0) : execRadvFill ga q s =
    actNow [.g ga] [] (s.radvCheck 3 ga q c) (!s.me.issue.commit && (s.me.writeHeld || s.me.sbFull))
      ((s.later (.ringPush q c) 1).onMe fun k => k.buffer (.send (.core (ringPeer (s.me.ringNow q)))
        (.fill (ringPq (s.me.ringNow q)) (BitVec.ofNat 11 c))) true) s := by
  subst hn
  simp only [execRadvFill, radv, ha, Option.isSome_none, Option.isSome_some, Bool.false_eq_true, if_false, if_true, hc,
    Bool.true_and, Bool.false_or]

/-- A move of a ring by slots it has, and a wait for slots it has not. -/
theorem actNow_slots {src : List Res} {have_ c : Nat} {b : Bool} {eff : State} (h : s.me.ready src []) (hb : b = false)
    (he : eff.me.ahead = none) : actNow src [] none (decide (have_ < c) || (!s.me.issue.commit && b)) eff s =
      .next (if c ≤ have_ then eff else s.stall .waiting) := by
  subst hb
  split
  · exact actNow_next h rfl (by rw [decide_eq_false (by omega), Bool.and_false]; rfl) he
  · exact actNow_wait h rfl (by rw [decide_eq_true (by omega)]; rfl)

end

/-! ## What arrives from the peer -/

theorem Core.both_of_none {c : Core} (h : c.ckpt = none) (f : Core → Core) : c.both f = f c := by
  simp only [Core.both, h]

theorem Core.arch_of_none {c : Core} (h : c.ckpt = none) : c.arch = c := by
  simp only [Core.arch, h]

/-- What a ring of the bound peer gets. -/
theorem State.ringArrive_bound (s : State) (c : Core) (q : BitVec 3) (f : BitVec 256 → BitVec 256) :
    s.ringArrive c q true f =
      s.updCore c.id fun d => d.both fun d => { d.setRing q (f (d.ring q)) with latch := true } := rfl

theorem boundTo_true {h : BitVec 256} {role peer : Nat} (hr : ringRole h = role) (hp : ringPeer h = peer) :
    boundTo h role peer = true := by
  simp [boundTo, hr, hp]

end Sys2Proof.Machine

namespace Sys2Proof.Proofs

open Sys2Proof Sys2Proof.Machine

/-- Settles O21: the checks by the role of the handle, and the fields that a move puts. -/
theorem ringWords : Obligations.RingWords := by
  intro s q ra
  generalize hn : ((s.me.gr ra).extractLsb' 0 11).toNat = c
  dsimp only
  intro h
  have popRole : ringRole (s.me.ringNow q) = 0 ∨ ringRole (s.me.ringNow q) = 1 → radvRole 0 (ringRole (s.me.ringNow q)) = true := by
    rintro (hr | hr) <;> rw [hr] <;> rfl
  have pushRole : ringRole (s.me.ringNow q) = 0 ∨ ringRole (s.me.ringNow q) = 2 → radvRole 1 (ringRole (s.me.ringNow q)) = true := by
    rintro (hr | hr) <;> rw [hr] <;> rfl
  refine ⟨fun hcomp hal hin => ⟨fun hheld hz hok => ?_, fun hheld hk => ?_⟩,
    fun hw hk hc => ⟨fun hr => ?_, fun hr => ?_⟩,
    fun hw hc hpos => ⟨fun hr => ?_, fun hr => ?_, fun hr hacq hpeer hb => ?_, fun hr hpeer hb => ?_⟩,
    fun hc hw => ⟨fun hr => ?_, fun hr => ?_⟩, fun hr => ?_, ?_⟩
  · have hfit : decide ((s.me.gr ra).toNat + 32 ≤ s.me.scrSize) = true := decide_eq_true hin
    show execRinit q ra s = _
    simp only [execRinit, hcomp, Bool.false_eq_true, if_false, low_eq_zero (k := 5) hal, hfit, hheld, hz, hok, Bool.not_true,
      Bool.and_false, check_false, firstOf]
    exact actShared_next h rfl rfl h.1
  · have hfit : decide ((s.me.gr ra).toNat + 32 ≤ s.me.scrSize) = true := decide_eq_true hin
    show execRinit q ra s = _
    simp only [execRinit, hcomp, Bool.false_eq_true, if_false, low_eq_zero (k := 5) hal, hfit, hheld, Bool.not_true,
      Bool.false_and, check_false, firstOf]
    exact actShared_stall h rfl hk
  · show execRadvPop ra q s = _
    rw [execRadvPop_eq h.1 hn, State.radvCheck_none (popRole hr) hc (by omega)]
    exact actNow_wait h rfl (by rw [hk, hw]; simp)
  · show execRadvPush ra q s = _
    rw [execRadvPush_eq h.1 hn, State.radvCheck_none (pushRole hr) hc (by omega)]
    exact actNow_wait h rfl (by rw [hk, hw]; simp)
  · show execRadvPop ra q s = _
    rw [execRadvPop_eq h.1 hn, State.radvCheck_none (popRole hr) hc (by omega), if_neg (Nat.pos_iff_ne_zero.1 hpos)]
    exact actNow_slots h hw h.1
  · show execRadvPush ra q s = _
    rw [execRadvPush_eq h.1 hn, State.radvCheck_none (pushRole hr) hc (by omega), if_neg (Nat.pos_iff_ne_zero.1 hpos)]
    exact actNow_slots h hw h.1
  · show execRadvCredit ra q s = _
    rw [execRadvCredit_eq h.1 hn (Nat.pos_iff_ne_zero.1 hpos), State.radvCheck_none (kind := 2) (by rw [hr]; rfl) hc fun _ => hpeer, hacq,
      Core.sbFull_false hb]
    refine (actNow_next h rfl (Bool.and_false _) (Core.buffer_ahead h.1 _ _)).trans ?_
    exact congrArg (fun c => Host.Outcome.next { s with me := c }) (Core.buffer_eq h.1 _ _)
  · show execRadvFill ra q s = _
    rw [execRadvFill_eq h.1 hn (Nat.pos_iff_ne_zero.1 hpos), State.radvCheck_none (kind := 3) (by rw [hr]; rfl) hc fun _ => hpeer, hw,
      Core.sbFull_false hb]
    refine (actNow_next h rfl (Bool.and_false _) (Core.buffer_ahead (c := s.me.later ..) h.1 _ _)).trans ?_
    exact congrArg (fun c => Host.Outcome.next { s with me := c }) (Core.buffer_eq (c := s.me.later ..) h.1 _ _)
  · show execRadvPop ra q s = _
    rw [execRadvPop_eq h.1 hn, State.radvCheck_none (popRole hr) (hc ▸ Nat.zero_le _) (by omega), if_pos hc, hw]
    exact actNow_next h rfl (by simp [hc]) h.1
  · show execRadvPush ra q s = _
    rw [execRadvPush_eq h.1 hn, State.radvCheck_none (pushRole hr) (hc ▸ Nat.zero_le _) (by omega), if_pos hc, hw]
    exact actNow_next h rfl (by simp [hc]) h.1
  · show execRadvPop ra q s = _
    rw [execRadvPop_eq h.1 hn]
    exact actNow_raise h (firstOf_first (check_true (by rw [hr]; rfl)))
  · obtain ⟨hhead, htail, hfill, hfree⟩ := ringWith_fields (s.me.ringNow q)
      (ringMove (s.me.ringNow q) (ringHead (s.me.ringNow q)) (c)) (ringTail (s.me.ringNow q))
      (ringFill (s.me.ringNow q) - BitVec.ofNat 11 (c)) (ringFree (s.me.ringNow q))
    obtain ⟨khead, ktail, kfill, kfree⟩ := ringWith_fields (s.me.ringNow q) (ringHead (s.me.ringNow q))
      (ringMove (s.me.ringNow q) (ringTail (s.me.ringNow q)) (c))
      (if ringRole (s.me.ringNow q) = 0 then ringFill (s.me.ringNow q) + BitVec.ofNat 11 (c)
        else ringFill (s.me.ringNow q)) (ringFree (s.me.ringNow q) - BitVec.ofNat 11 (c))
    exact ⟨(congrArg BitVec.toNat hhead).trans (BitVec.toNat_ofNat ..), hfill, htail, hfree,
      (congrArg BitVec.toNat ktail).trans (BitVec.toNat_ofNat ..), kfree, khead, kfill⟩

/-- Settles O22: the arrival is delivered to its core, whose handle is bound to the sender. -/
theorem ringArrivals : Obligations.RingArrivals := by
  intro s k num m c q n h hd hc hpeer
  have htarget : (s.less k).targetOf m = some c := State.targetOf_eq hd ((s.less_core? k _).trans hc)
  dsimp only
  refine ⟨fun d f hk => ⟨Core.both_of_none hk f, Core.arch_of_none hk⟩, fun hop hr => ?_, fun hop hr hrun hspill => ?_⟩
  · refine (State.deliver_eq h _ (d := true) ?_ : execRingCreditArrive s = _)
    simp only [hop, htarget, Option.map_some, boundTo_true hr hpeer, State.ringArrive_bound]
  · have hpaused : (s.less k).paused = false := by
      show (s.phase != .run) = false
      rw [hrun]; rfl
    refine (State.deliver_eq h _ (d := true) ?_ : execRingFillArrive s = _)
    simp only [hop, htarget, Option.map_some, hpaused, Bool.false_and, Bool.false_or, boundTo_true hr hpeer, State.ringArrive_bound]
    exact congrArg some (if_neg fun hs => Bool.false_ne_true (hspill.symm.trans hs))

end Sys2Proof.Proofs
end


section
/-! The end of a task (09_tasks_compose.md R218, R224). -/

namespace Sys2Proof.Machine

open Sys2Proof

set_option Elab.async false

/-- What `tend` asks of its successors' references (R224). -/
def State.refsExc (s : State) (e : BitVec 512) : Option Exc :=
  firstOf [firstOf ((s.successors e).map (refCheck 0x3B 0)), s.badRef 0 (s.successors e)]

/-- What `tend` enters for a task with a control block. -/
def State.ended (s : State) (e : BitVec 512) : State := s.onMe fun c =>
  (if entryTcb e then c.buffer (.finish (s.successors e) (c.gr 10) (entryHome e) (entryOff e + 1)) true else c).idle

/-- `tend` of a finished task whose references are at hand. -/
theorem execTend_eq {s : State} {e : BitVec 512} (ha : s.me.ahead = none) (hu : s.me.unfinished = false)
    (hr : s.me.running = some e) (ho : s.me.issue.commit = false → s.me.refsOwed e = false) : execTend s =
    act [.g 10] [] (if s.me.readsHeld (s.me.listRanges e) then none else s.refsExc e)
      ((entryTcb e && s.me.sbFull) || s.me.readsHeld (s.me.listRanges e) || s.me.tcbHeld e) (s.ended e) s := by
  have howed : (!s.me.issue.commit && s.me.refsOwed e) = false := by
    cases hk : s.me.issue.commit
    · rw [ho hk]; rfl
    · rfl
  simp only [execTend, ha, Option.isSome_none, Bool.false_eq_true, if_false, hu, Bool.and_false, hr, Option.getD_some, howed]
  rfl

theorem State.refsExc_none {s : State} {e : BitVec 512} (h : ∀ r ∈ s.successors e, refCheck 0x3B 0 r = none)
    (hb : s.badRef 0 (s.successors e) = none) : s.refsExc e = none := by
  have hall : ∀ l : List (BitVec 64), (∀ r ∈ l, refCheck 0x3B 0 r = none) → firstOf (l.map (refCheck 0x3B 0)) = none := by
    intro l
    induction l with
    | nil => exact fun _ => rfl
    | cons r l ih =>
      intro hl
      rw [List.map_cons, firstOf_none]
      exact ⟨hl r List.mem_cons_self, ih fun x hx => hl x (List.mem_cons_of_mem _ hx)⟩
  exact firstOf_two (hall _ h) hb

end Sys2Proof.Machine

namespace Sys2Proof.Proofs

open Sys2Proof Sys2Proof.Machine

/-- Settles O23: the waits of `tend` in their order, and then what `State.ended` enters. -/
theorem taskEnd : Obligations.TaskEnd := by
  intro s h
  dsimp only
  refine ⟨fun hu hk => ?_, fun e hr hu => ⟨fun ho hk => ?_, fun ht => ?_, fun ho hk hheld => ?_, fun ho hk htcb hrefs hbad => ?_,
    fun ht ho hheld htcb hb hrefs hbad => ?_⟩⟩
  · show execTend s = _
    simp only [execTend, h.1, Option.isSome_none, Bool.false_eq_true, if_false, hu, hk, Bool.not_false, Bool.and_self, if_true]
  · show execTend s = _
    simp only [execTend, h.1, Option.isSome_none, Bool.false_eq_true, if_false, hu, hk, Bool.and_false, Bool.not_false, hr,
      Option.getD_some, ho, Bool.and_self, if_true]
  · have hsucc : s.successors e = [] := by simp only [State.successors, ht, Bool.not_false, if_true]
    have hlist : s.me.listRanges e = [] := by
      simp only [Core.listRanges, ht, Bool.false_and, Bool.false_eq_true, if_false]
    have hheld : s.me.readsHeld (s.me.listRanges e) = false := by rw [hlist]; rfl
    have howed : s.me.refsOwed e = false := by simp only [Core.refsOwed, ht, Bool.false_and]
    refine ((execTend_eq h.1 hu hr fun _ => howed).trans (act_next h ?_ ?_ ?_) : execTend s = _).trans ?_
    · rw [hheld]
      exact State.refsExc_none (by rw [hsucc]; exact fun r hr => nomatch hr) (by rw [hsucc]; rfl)
    · simp only [Core.tcbHeld, ht, hheld, Bool.false_and, Bool.or_self]
    · simp only [State.ended, ht, Bool.false_eq_true, if_false]
      exact h.1
    · simp only [State.ended, ht, Bool.false_eq_true, if_false]
      rfl
  · have hchk : (if s.me.readsHeld (s.me.listRanges e) then none else s.refsExc e) = none := if_pos hheld
    refine ((execTend_eq h.1 hu hr fun _ => ho).trans ?_ : execTend s = _)
    rw [hchk]
    exact act_stall h (by rw [hheld]; simp) hk
  · have hchk : (if s.me.readsHeld (s.me.listRanges e) then none else s.refsExc e) = none := by
      split
      · rfl
      · exact State.refsExc_none hrefs hbad
    refine ((execTend_eq h.1 hu hr fun _ => ho).trans ?_ : execTend s = _)
    rw [hchk]
    exact act_stall h (by rw [htcb]; simp) hk
  · refine ((execTend_eq h.1 hu hr fun _ => ho).trans (act_next h ?_ ?_ ?_) : execTend s = _).trans ?_
    · rw [hheld]
      exact State.refsExc_none hrefs hbad
    · rw [hheld, htcb, Core.sbFull_false hb, Bool.and_false]; rfl
    · simp only [State.ended, ht, if_true]
      exact Core.buffer_ahead h.1 _ _
    · simp only [State.ended, ht, if_true, State.onMe, Core.buffer_eq h.1]
      rfl

end Sys2Proof.Proofs
end


section
/-! Bulk words (08_storage_sync.md R209 to R211, 03_storage_model.md R68). -/

namespace Sys2Proof.Machine

open Sys2Proof

set_option Elab.async false

theorem State.kick_ahead {s : State} (h : s.me.ahead = none) (b : Bulk) (r : List ScoreEntry) :
    (s.kick b r).me.ahead = none := Core.buffer_ahead h _ _

/-- A command enters as a release with the ranges of own scratch that it uses. -/
theorem State.kick_eq {s : State} (h : s.me.ahead = none) (b : Bulk) (r : List ScoreEntry) :
    s.kick b r = s.onMe fun c => { c with
      sb := c.sb ++ [⟨.bulk b, true, c.seq, true, c.rowsOwed⟩], seq := c.seq + 1, score := c.score ++ r } := by
  simp only [State.kick, State.onMe, Core.buffer_eq h]

/-- A bulk word whose checks pass and whose command finds its places. -/
theorem actOut_kick {s : State} {src dst : List Res} {chk : Option Exc} {wait : Bool} {b : Bulk} {r : List ScoreEntry}
    (h : s.me.ready src dst) (hc : chk = none) (hw : wait = false) :
    actOut src dst chk wait (s.kick b r) s = .next (s.onMe fun c => { c with
      sb := c.sb ++ [⟨.bulk b, true, c.seq, true, c.rowsOwed⟩], seq := c.seq + 1, score := c.score ++ r }) := by
  rw [← State.kick_eq h.1]
  exact actOut_next h hc hw (State.kick_ahead h.1 b r)

/-- The counts that `bcopy` takes (R209). -/
theorem bcopyCount_iff (n : Nat) : (decide (n % 4 ≠ 0) || decide (n < 4) || decide (16777216 < n)) = true ↔
    n % 4 ≠ 0 ∨ n < 4 ∨ 16777216 < n := by
  simp only [Bool.or_eq_true, decide_eq_true_eq, or_assoc]

theorem bcopyCount_false {n : Nat} (h4 : n % 4 = 0) (hlo : 4 ≤ n) (hhi : n ≤ 16777216) :
    (decide (n % 4 ≠ 0) || decide (n < 4) || decide (16777216 < n)) = false :=
  Bool.eq_false_iff.2 fun h => by have := (bcopyCount_iff n).1 h; omega

end Sys2Proof.Machine

namespace Sys2Proof.Proofs

open Sys2Proof Sys2Proof.Machine

/-- Settles O24: each word kicks its command when its checks pass; the beats by `copyBeats_spec`. -/
theorem bulkWords : Obligations.BulkWords := by
  intro s ga gb gc w x y
  dsimp only
  refine ⟨fun h h4 hlo hhi hx hy hshare hw => ?_, fun h hbad hx hy => ?_,
    fun r ht hin => ⟨fun h hr hy hw => ?_, fun h hr hx hw => ?_⟩, fun src dst => copyBeats_spec _ src dst _ ?_ ?_⟩
  · have hcount := bcopyCount_false h4 hlo hhi
    show execBcopy ga gb gc w s = _
    simp only [execBcopy, hcount, Bool.false_eq_true, if_false, hx, hy, hshare]
    exact actOut_kick h rfl hw
  · have hcount := (bcopyCount_iff _).2 hbad
    show execBcopy ga gb gc w s = _
    simp only [execBcopy, hcount, if_true, hx, hy]
    exact actOut_raise h rfl
  · show tileWord true ga gb gc w s = _
    simp only [tileWord, ht, Option.isSome_none, Bool.false_eq_true, if_false, if_true, hr, hy]
    exact actOut_kick (h.mono (by simp) (List.Subset.refl _)) (by rw [decide_eq_false (by omega)]; rfl) hw
  · show tileWord false ga gb gc w s = _
    simp only [tileWord, ht, Option.isSome_none, Bool.false_eq_true, if_false, hr, hx]
    exact actOut_kick h (by rw [decide_eq_false (by omega)]; rfl) hw
  · split <;> omega
  · omega

end Sys2Proof.Proofs
end


section
/-! Composition (09_tasks_compose.md R226 to R231). -/

namespace Sys2Proof.Machine

open Sys2Proof

set_option Elab.async false

theorem State.sibling_ne (s : State) (i : Nat) : s.sibling (i + 1) ≠ s.me.id := by
  intro h
  have hnum : s.me.id.num + (i + 1) = s.me.id.num := congrArg CoreId.num h
  omega

/-- What is done to the members leaves the leader alone. -/
theorem State.updMembers_me (s : State) (n : Nat) (f : Core → Core) : (s.updMembers n f).me = s.me :=
  State.foldl_siblings_me f _ s fun i _ => s.sibling_ne i

/-- The members are the siblings of the leader as it stands at the start. -/
theorem State.foldl_siblings (f : Core → Core) (id : CoreId) : ∀ (l : List Nat) (s : State), s.me.id = id →
    l.foldl (fun s i => s.updCore (s.sibling (i + 1)) f) s =
      l.foldl (fun t i => t.updCore { id with num := id.num + (i + 1) } f) s
  | [], _, _ => rfl
  | i :: l, s, h => by
    have hme : (s.updCore (s.sibling (i + 1)) f).me.id = id := by
      rw [State.updCore, if_neg (s.sibling_ne i).symm, h]
    rw [List.foldl_cons, List.foldl_cons, State.foldl_siblings f id l _ hme, State.sibling, h]

/-- A member found after what is done to the members. -/
theorem State.updMembers_core? {s : State} {n : Nat} {f : Core → Core} (hid : ∀ c, (f c).id = c.id)
    (hff : ∀ c, f (f c) = f c) {i : Nat} (hi : i < n - 1) :
    (s.updMembers n f).core? (s.sibling (i + 1)) = (s.core? (s.sibling (i + 1))).map f := by
  have hany : ((List.range (n - 1)).any fun j => decide (s.sibling (i + 1) = { s.me.id with num := s.me.id.num + (j + 1) })) = true :=
    List.any_eq_true.2 ⟨i, List.mem_range.2 hi, decide_eq_true rfl⟩
  rw [State.updMembers, State.foldl_siblings f s.me.id _ s rfl, State.foldl_updCore f hid hff]
  simp only [hany, if_true]

theorem State.onMe_core? {s : State} {f : Core → Core} {id : CoreId} (hf : ∀ c, (f c).id = c.id) (hn : id ≠ s.me.id) :
    (s.onMe f).core? id = s.core? id := by
  have hupd : s.onMe f = s.updCore s.me.id f := (if_pos rfl).symm
  rw [hupd, State.updCore_core? s s.me.id id f hf]
  simp only [hn, if_false, Option.map_id']

/-- The leader of a bound composition of k cores, at the target of its `cmpo` (R227). -/
def Core.leads (c : Core) (k : Nat) (rd : BitVec 6) (target : Nat) : Core :=
  { ({ c with
      compo := .leader k (c.csr.lpbeg, c.csr.lpend, c.csr.lpcnt) rd c.issue.nxt
      binding := none
      fetched := []
      csr := { c.csr with lpcnt := 0 } }.jump target) with blk := true }

/-- A member that is given back (R230). -/
def Core.given (c : Core) : Core :=
  { c with g := Vector.replicate 64 0, p := Vector.replicate 8 false, compo := .plain, running := none, bubble := 1 }

/-- The leader after `cmpr` (R230). -/
def Core.resumed (c : Core) (n : Nat) (lb le : BitVec 19) (lc : BitVec 32) (gd : BitVec 6) (resume : Nat) : Core :=
  (Core.setG { c.landAll with
    compo := .plain, fetched := [], csr := { c.landAll.csr with lpbeg := lb, lpend := le, lpcnt := lc } } gd
    (BitVec.ofNat 64 n)).jump resume

theorem Core.resumed_id (c : Core) (n : Nat) (lb le : BitVec 19) (lc : BitVec 32) (gd : BitVec 6) (resume : Nat) :
    (c.resumed n lb le lc gd resume).id = c.id := by
  show (Core.setG _ _ _).id = _
  rw [Core.setG_id]
  exact c.landAll_id

theorem Core.resumed_fields {c : Core} (hp : c.pend = []) (n : Nat) (lb le : BitVec 19) (lc : BitVec 32) (gd : BitVec 6)
    (resume : Nat) : (c.resumed n lb le lc gd resume).pc = resume ∧ (c.resumed n lb le lc gd resume).compo = .plain ∧
      (c.resumed n lb le lc gd resume).gr gd = (if gd = 0 then 0 else BitVec.ofNat 64 n) ∧
      (c.resumed n lb le lc gd resume).csr.lpbeg = lb ∧ (c.resumed n lb le lc gd resume).csr.lpend = le ∧
      (c.resumed n lb le lc gd resume).csr.lpcnt = lc ∧ (c.resumed n lb le lc gd resume).ahead = c.ahead := by
  unfold Core.resumed
  rw [Core.landAll_of_none hp]
  refine ⟨rfl, ?_, (Core.gr_setG ..).trans ?_, ?_, ?_, ?_, ?_⟩
  · rw [Core.setG_eq]; rfl
  · split
    · rfl
    · exact if_pos rfl
  · rw [Core.setG_eq]; rfl
  · rw [Core.setG_eq]; rfl
  · rw [Core.setG_eq]; rfl
  · rw [Core.setG_eq]; rfl

/-- `cmpr` of a finished block whose cores have no stores left. -/
theorem execCmpr_next {s : State} {m : Nat} {lb le : BitVec 19} {lc : BitVec 32} {gd : BitVec 6} {resume : Nat}
    (hcompo : s.me.compo = .leader m (lb, le, lc) gd resume) (h : s.me.ready [] []) (hu : s.me.unfinished = false)
    (hsb : s.me.sb = []) (hsibs : ∀ i < m - 1, ∀ c, s.core? (s.sibling (i + 1)) = some c → c.sb = []) :
    execCmpr s = .next ((s.updMembers m Core.given).onMe fun c => c.resumed m lb le lc gd resume) := by
  have hheld : ((List.range (m - 1)).any fun i =>
      ((s.core? (s.sibling (i + 1))).map fun c => !c.sb.isEmpty).getD false) = false := by
    rw [List.any_eq_false]
    intro i hi
    cases hc : s.core? (s.sibling (i + 1)) with
    | none => exact Bool.false_ne_true
    | some c =>
      rw [Option.map_some, Option.getD_some, hsibs i (List.mem_range.1 hi) c hc]
      exact Bool.false_ne_true
  obtain ⟨-, -, -, -, -, -, hahead⟩ := Core.resumed_fields (Core.unfinished_false hu) m lb le lc gd resume
  simp only [execCmpr, hcompo, hu, Bool.and_false, Bool.false_eq_true, if_false, hsb, List.any_nil, hheld, Bool.or_self]
  refine act_next h rfl rfl ?_
  show (Core.resumed (s.updMembers m Core.given).me m lb le lc gd resume).ahead = none
  rw [State.updMembers_me]
  exact hahead.trans h.1

/-- `cmpo` with operands in order, in a plain core of a task. -/
theorem execCmpo_checked {s : State} {rd rs : BitVec 6} {n : CmpN} (hc : s.me.composed = false) (hl : s.me.csr.level = 0)
    (hal : (s.me.gr rs).toNat % 4 = 0) (hfit : s.me.id.num % 8 + cmpSize n ≤ 8) : execCmpo rd rs n s =
      match s.me.binding with
      | some ⟨_, true⟩ => act [.g rs] [.g rd] none false (s.onMe fun c => c.leads (cmpSize n) rd (s.me.gr rs).toNat) s
      | some ⟨_, false⟩ => act [.g rs] [.g rd] none true s s
      | none =>
        if s.composeRefused (cmpSize n) then act [.g rs] [.g rd] none false (s.later (.g rd 0) 1) s
        else act [.g rs] [.g rd] none false ((s.updMembers (cmpSize n) fun c => { c with compo := .reserved s.me.id.num }).onMe fun c =>
          { c with binding := some ⟨cmpSize n, false⟩, issue := { c.issue with status := .waiting, keep := true } }) s := by
  have hroom : decide (8 < s.me.id.num % 8 + cmpSize n) = false := decide_eq_false (by omega)
  have hlevel : (s.me.csr.level != 0) = false := by rw [hl]; rfl
  simp only [execCmpo, hc, hlevel, low_eq_zero (k := 2) hal, hroom, check_false, firstOf]
  rfl

end Sys2Proof.Machine

namespace Sys2Proof.Proofs

open Sys2Proof Sys2Proof.Machine

/-- Settles O25: `cmpo` by the state of its binding, `cmpr` by what it gives back. -/
theorem composeWords : Obligations.ComposeWords := by
  intro s rd rs n
  dsimp only
  refine ⟨fun h hc hl hal hfit => ⟨fun hb hr => ?_, fun hb hr => ?_, fun hb hk => ?_, fun hb => ?_⟩,
    fun m lb le lc resume gd hcompo h hu hsb _ hsibs => ?_, fun hp h => ?_, fun h => ?_, fun hev hb hu hcol hfl hready => ?_⟩
  · refine ((execCmpo_checked hc hl hal hfit).trans ?_ : execCmpo rd rs n s = _)
    simp only [hb, hr, if_true]
    exact act_next h rfl rfl h.1
  · refine ((execCmpo_checked hc hl hal hfit).trans ?_ : execCmpo rd rs n s = _)
    simp only [hb, hr, Bool.false_eq_true, if_false]
    exact act_next h rfl rfl ((congrArg Core.ahead (s.updMembers_me _ _)).trans h.1)
  · refine ((execCmpo_checked hc hl hal hfit).trans ?_ : execCmpo rd rs n s = _)
    simp only [hb]
    exact act_stall h rfl hk
  · refine ⟨s.me.leads (cmpSize n) rd (s.me.gr rs).toNat, (?_ : execCmpo rd rs n s = _), rfl, rfl, rfl, rfl, rfl, rfl, rfl⟩
    rw [execCmpo_checked hc hl hal hfit]
    simp only [hb]
    exact act_next h rfl rfl h.1
  · obtain ⟨hpc, hplain, hg, hlb, hle, hlc, -⟩ := Core.resumed_fields (Core.unfinished_false hu) m lb le lc gd resume
    have hme : ((s.updMembers m Core.given).onMe fun c => c.resumed m lb le lc gd resume).me =
        s.me.resumed m lb le lc gd resume := by
      rw [State.onMe_me, State.updMembers_me]
    refine ⟨_, (execCmpr_next hcompo h hu hsb hsibs : execCmpr s = _), ?_⟩
    rw [hme]
    refine ⟨hpc, hplain, fun i hi c hc => ⟨c.given, ?_, rfl, rfl, rfl, rfl⟩, hg, hlb, hle, hlc⟩
    rw [State.onMe_core? (fun c => c.resumed_id ..) (by rw [State.updMembers_me]; exact s.sibling_ne i),
      State.updMembers_core? (f := Core.given) (fun _ => rfl) (fun _ => rfl) hi, hc]
    rfl
  · show execCmpr s = _
    simp only [execCmpr, hp]
    exact act_raise h rfl
  · exact (act_next h rfl rfl h.1 : execCmpq rd s = _)
  · have hall : ((List.range (cmpSize n - 1)).all fun i =>
        ((s.core? (s.sibling (i + 1))).map fun c => c.readyFor s.me.id.num).getD false) = true := by
      rw [List.all_eq_true]
      intro i hi
      obtain ⟨c, hc, hr⟩ := hready i (List.mem_range.1 hi)
      rw [hc, Option.map_some, Option.getD_some, hr]
    show execComposeBind s = _
    simp only [execComposeBind, hev, State.onCore_me, hb, hall, hu, hcol, hfl, Bool.not_false, Bool.and_self, if_true]

end Sys2Proof.Proofs
end


section
/-! The element-wise vector words (10_vector.md R233 to R244): over plain views the rows land, and a type or a
row that the word does not take raises its exception. -/

namespace Sys2Proof.Machine

open Sys2Proof

set_option Elab.async false

/-- The rows of a plain view as an operand. -/
def State.plainRows (s : State) (n : BitVec 5) (rows len : Nat) : VRows := ⟨s.viewAddrs n rows, len, none⟩

theorem State.plainRows_res (s : State) (n : BitVec 5) (rows len : Nat) :
    (s.plainRows n rows len).res = s.viewRes n rows len := rfl

theorem State.vop_rows {s : State} {n : BitVec 5} {rows len : Nat} (h : s.plainView n rows len) (mj : BitVec 6)
    (wr pl : Bool) : s.vop mj n rows len wr pl = ⟨s.plainRows n rows len, none, none⟩ := State.vop_plain h mj wr pl

/-- A word over plain views and one destination has its rows land. -/
theorem vectorWord_land {g : List Res} {chk : Option Exc} {srcs : List VRows} {vd : BitVec 5} {r n hold L : Nat}
    {out : List (List Byte)} {fl : BitVec 5} {s : State} (hs : ∀ x ∈ srcs, x.port = none)
    (h : s.me.ready (g ++ srcs.flatMap (·.res)) (s.viewRes vd r n)) (hc : chk = none) (hv : s.me.vbusy = 0) :
    vectorWord g chk srcs [s.plainRows vd r n] false hold L [⟨s.plainRows vd r n, out, fl⟩] 0 s =
      .next (s.rowsLand vd r hold L out fl) := by
  have hports : ∀ x ∈ srcs ++ [s.plainRows vd r n], x.port = none := by
    simp only [List.mem_append, List.mem_singleton]
    rintro x (hx | rfl)
    · exact hs x hx
    · rfl
  refine vectorWord_plain hports ?_ hc rfl hv ((regRows_ahead _ _ _ _ _).trans h.1)
  rw [List.flatMap_cons, List.flatMap_nil, List.append_nil]
  exact h

/-- A word over plain views and one destination raises its first failing check. -/
theorem vectorWord_fails {g : List Res} {chk : Option Exc} {e : Exc} {srcs : List VRows} {vd : BitVec 5} {r n hold L k : Nat}
    {wait : Bool} {outs : List VOut} {s : State} (hs : ∀ x ∈ srcs, x.port = none)
    (h : s.me.ready (g ++ srcs.flatMap (·.res)) (s.viewRes vd r n)) (hc : chk = some e) :
    vectorWord g chk srcs [s.plainRows vd r n] wait hold L outs k s = .next (s.raise e) := by
  have hports : ∀ x ∈ srcs ++ [s.plainRows vd r n], x.port = none := by
    simp only [List.mem_append, List.mem_singleton]
    rintro x (hx | rfl)
    · exact hs x hx
    · rfl
  refine vectorWord_raise hports ?_ hc
  rw [List.flatMap_cons, List.flatMap_nil, List.append_nil]
  exact h

/-- The types that are no floating-point ones. -/
theorem tI_iff (t : EType) : tI t = true ↔ fmtOf t = none := by
  simp only [tI, isFloat, Bool.not_eq_true', Option.isSome_eq_false_iff, Option.isNone_iff_eq_none]

theorem tW_iff (t : EType) : tW t = true ↔ t = .f32 ∨ t = .bf16 ∨ t = .f16 := by
  cases t <;> decide

theorem tWI_iff (t : EType) : tWI t = true ↔ t = .f32 ∨ t = .bf16 ∨ t = .f16 ∨ fmtOf t = none := by
  simp only [tWI, Bool.or_eq_true, tW_iff, tI_iff, or_assoc]

theorem tFS_iff (t : EType) : tFS t = true ↔ isFloat t = true ∨ isSigned t = true := by
  simp only [tFS, Bool.or_eq_true]

theorem tI8_iff (t : EType) : tI8 t = true ↔ fmtOf t = none ∧ 8 ≤ widthOf t := by
  simp only [tI8, Bool.and_eq_true, tI_iff, decide_eq_true_eq]

/-- What a word over plain views does: its rows land, or the type or the row is one it does not take. -/
def lands (s : State) (r : Res?) (mj : BitVec 6) (L : Nat) (ok : Prop) (vd : BitVec 5) (t : EType)
    (out : List (List Byte) × BitVec 5) : Prop :=
  (ok → rowFits t s.shapeBytes = true → r = .next (s.rowsLand vd s.shapeRows s.shapeRows L out.1 out.2)) ∧
    (¬ok → r = .next (s.raise ⟨0x16, 3, 0, 0, mj⟩)) ∧
    (ok → rowFits t s.shapeBytes = false → r = .next (s.raise ⟨0x16, 1, 0, 0, mj⟩))

section
variable {s : State} {vd va vb vc : BitVec 5} {t : EType} {mj : BitVec 6} {L : Nat} {ok : EType → Bool} {p : Prop}

/-- The frame of the element-wise words: rows of plain sources, and the check of the type. -/
theorem lands_of_plain {srcs : List VRows} {out : List (List Byte) × BitVec 5} {chk : Option Exc}
    (hs : ∀ x ∈ srcs, x.port = none) (hp : ok t = true ↔ p) (hv : s.me.vbusy = 0) (hc : chk = none)
    (h : s.me.ready (srcs.flatMap (·.res)) (s.viewRes vd s.shapeRows s.shapeBytes)) :
    lands s (vectorWord [] (firstOf [typeCheck mj (ok t) t s.shapeBytes, chk]) srcs
      [s.plainRows vd s.shapeRows s.shapeBytes] false s.shapeRows L
      [⟨s.plainRows vd s.shapeRows s.shapeBytes, out.1, out.2⟩] 0 s) mj L p vd t out := by
  refine ⟨fun hok hr => ?_, fun hok => ?_, fun hok hr => ?_⟩
  · exact vectorWord_land hs h (firstOf_two (typeCheck_ok (hp.2 hok) hr) hc) hv
  · exact vectorWord_fails hs h (typeCheck_type (Bool.eq_false_iff.2 (mt hp.1 hok)) _)
  · exact vectorWord_fails hs h (typeCheck_row (hp.2 hok) hr _)

theorem vmap1_lands {f : EType → Nat → Nat × BitVec 5} (hp : ok t = true ↔ p) (hv : s.me.vbusy = 0)
    (ha : s.plainView va s.shapeRows s.shapeBytes) (hd : s.plainView vd s.shapeRows s.shapeBytes)
    (h : s.me.ready (s.viewRes va s.shapeRows s.shapeBytes) (s.viewRes vd s.shapeRows s.shapeBytes)) :
    lands s (vmap1 mj L ok f vd va t s) mj L p vd t (packRows (widthOf t) s.shapeBytes
      ((s.viewElems t va s.shapeRows s.shapeBytes (elemsOf t s.shapeBytes)).map fun a => a.map (f t))) := by
  simp only [vmap1, State.vop_rows ha, State.vop_rows hd]
  rw [State.viewElems, List.map_map]
  refine lands_of_plain (fun x hx => ?_) hp hv rfl ?_
  · rw [List.mem_singleton.1 hx]; rfl
  · rw [List.flatMap_cons, List.flatMap_nil, List.append_nil]
    exact h

theorem vmap2_lands {f : EType → Nat → Nat → Nat × BitVec 5} (hp : ok t = true ↔ p) (hv : s.me.vbusy = 0)
    (ha : s.plainView va s.shapeRows s.shapeBytes) (hb : s.plainView vb s.shapeRows s.shapeBytes)
    (hd : s.plainView vd s.shapeRows s.shapeBytes)
    (h : s.me.ready (s.viewRes va s.shapeRows s.shapeBytes ++ s.viewRes vb s.shapeRows s.shapeBytes)
      (s.viewRes vd s.shapeRows s.shapeBytes)) :
    lands s (vmap2 mj L ok f vd va vb t s) mj L p vd t (packRows (widthOf t) s.shapeBytes
      (((s.viewElems t va s.shapeRows s.shapeBytes (elemsOf t s.shapeBytes)).zip
        (s.viewElems t vb s.shapeRows s.shapeBytes (elemsOf t s.shapeBytes))).map fun (a, b) =>
          (a.zip b).map fun (i, j) => f t i j)) := by
  simp only [vmap2, State.vop_rows ha, State.vop_rows hb, State.vop_rows hd]
  rw [State.viewElems, State.viewElems, List.zip_map, List.map_map]
  refine lands_of_plain (fun x hx => ?_) hp hv rfl ?_
  · simp only [List.mem_cons, List.not_mem_nil, or_false] at hx
    obtain rfl | rfl := hx <;> rfl
  · rw [List.flatMap_cons, List.flatMap_cons, List.flatMap_nil, List.append_nil]
    exact h

theorem vmap3_lands {f : EType → Nat → Nat → Nat → Nat × BitVec 5} (hp : ok t = true ↔ p) (hv : s.me.vbusy = 0)
    (ha : s.plainView va s.shapeRows s.shapeBytes) (hb : s.plainView vb s.shapeRows s.shapeBytes)
    (hc : s.plainView vc s.shapeRows s.shapeBytes) (hd : s.plainView vd s.shapeRows s.shapeBytes)
    (h : s.me.ready (s.viewRes va s.shapeRows s.shapeBytes ++ s.viewRes vb s.shapeRows s.shapeBytes ++
      s.viewRes vc s.shapeRows s.shapeBytes) (s.viewRes vd s.shapeRows s.shapeBytes)) :
    lands s (vmap3 mj L ok f vd va vb vc t s) mj L p vd t (packRows (widthOf t) s.shapeBytes
      (((s.viewElems t va s.shapeRows s.shapeBytes (elemsOf t s.shapeBytes)).zip
        ((s.viewElems t vb s.shapeRows s.shapeBytes (elemsOf t s.shapeBytes)).zip
        (s.viewElems t vc s.shapeRows s.shapeBytes (elemsOf t s.shapeBytes)))).map fun (a, b, c) =>
          (a.zip (b.zip c)).map fun (i, j, l) => f t i j l)) := by
  simp only [vmap3, State.vop_rows ha, State.vop_rows hb, State.vop_rows hc, State.vop_rows hd]
  rw [State.viewElems, State.viewElems, State.viewElems, List.zip_map, List.zip_map, List.map_map]
  refine lands_of_plain (fun x hx => ?_) hp hv rfl ?_
  · simp only [List.mem_cons, List.not_mem_nil, or_false] at hx
    obtain rfl | rfl | rfl := hx <;> rfl
  · rw [List.flatMap_cons, List.flatMap_cons, List.flatMap_cons, List.flatMap_nil, List.append_nil, ← List.append_assoc]
    exact h

end

end Sys2Proof.Machine

namespace Sys2Proof.Proofs

open Sys2Proof Sys2Proof.Machine

/-- Settles O26: each word is the frame of its number of sources, with its class of types. -/
theorem vectorElementWords : Obligations.VectorElementWords := by
  have all : ∀ {t : EType}, tAll t = true ↔ True := ⟨fun _ => trivial, fun _ => rfl⟩
  refine ⟨fun s vd va vb t c hv ha hb hd h x hx => ?_, fun s vd va t hv ha hd h x hx => ?_,
    fun s vd va vb vc t hv ha hb hc hd h x hx => ?_⟩
  all_goals obtain ⟨i, mj, L, p, f⟩ := x
  · have frame : ∃ ok, (ok t = true ↔ p) ∧ exec i s = vmap2 mj L ok f vd va vb t s := by
      simp only [List.mem_cons, Prod.mk.injEq, List.not_mem_nil, or_false] at hx
      obtain ⟨rfl, rfl, rfl, rfl, rfl⟩ | ⟨rfl, rfl, rfl, rfl, rfl⟩ | ⟨rfl, rfl, rfl, rfl, rfl⟩ |
        ⟨rfl, rfl, rfl, rfl, rfl⟩ | ⟨rfl, rfl, rfl, rfl, rfl⟩ | ⟨rfl, rfl, rfl, rfl, rfl⟩ |
        ⟨rfl, rfl, rfl, rfl, rfl⟩ | ⟨rfl, rfl, rfl, rfl, rfl⟩ | ⟨rfl, rfl, rfl, rfl, rfl⟩ |
        ⟨rfl, rfl, rfl, rfl, rfl⟩ | ⟨rfl, rfl, rfl, rfl, rfl⟩ | ⟨rfl, rfl, rfl, rfl, rfl⟩ |
        ⟨rfl, rfl, rfl, rfl, rfl⟩ | ⟨rfl, rfl, rfl, rfl, rfl⟩ := hx
      · exact ⟨tAll, all, rfl⟩
      · exact ⟨tAll, all, rfl⟩
      · exact ⟨tAll, all, rfl⟩
      · exact ⟨tAll, all, rfl⟩
      · exact ⟨tAll, all, rfl⟩
      · exact ⟨tW, tW_iff t, rfl⟩
      · exact ⟨tAll, all, rfl⟩
      · exact ⟨tAll, all, rfl⟩
      · exact ⟨tAll, all, rfl⟩
      · exact ⟨tI, tI_iff t, rfl⟩
      · exact ⟨tI, tI_iff t, rfl⟩
      · exact ⟨tS, Iff.rfl, rfl⟩
      · exact ⟨tI8, tI8_iff t, rfl⟩
      · exact ⟨tAll, all, rfl⟩
    obtain ⟨ok, hok, hi⟩ := frame
    exact hi ▸ vmap2_lands hok hv ha hb hd h
  · have frame : ∃ ok, (ok t = true ↔ p) ∧ exec i s = vmap1 mj L ok f vd va t s := by
      simp only [List.mem_cons, Prod.mk.injEq, List.not_mem_nil, or_false] at hx
      obtain ⟨rfl, rfl, rfl, rfl, rfl⟩ | ⟨rfl, rfl, rfl, rfl, rfl⟩ | ⟨rfl, rfl, rfl, rfl, rfl⟩ |
        ⟨rfl, rfl, rfl, rfl, rfl⟩ | ⟨rfl, rfl, rfl, rfl, rfl⟩ | ⟨rfl, rfl, rfl, rfl, rfl⟩ |
        ⟨rfl, rfl, rfl, rfl, rfl⟩ | ⟨rfl, rfl, rfl, rfl, rfl⟩ | ⟨rfl, rfl, rfl, rfl, rfl⟩ |
        ⟨rfl, rfl, rfl, rfl, rfl⟩ | ⟨rfl, rfl, rfl, rfl, rfl⟩ := hx
      · exact ⟨tFS, tFS_iff t, rfl⟩
      · exact ⟨tFS, tFS_iff t, rfl⟩
      · exact ⟨tAll, all, rfl⟩
      · exact ⟨tW, tW_iff t, rfl⟩
      · exact ⟨tW, tW_iff t, rfl⟩
      · exact ⟨tW, tW_iff t, rfl⟩
      · exact ⟨tW, tW_iff t, rfl⟩
      · exact ⟨tW, tW_iff t, rfl⟩
      · exact ⟨tW, tW_iff t, rfl⟩
      · exact ⟨tW, tW_iff t, rfl⟩
      · exact ⟨tW, tW_iff t, rfl⟩
    obtain ⟨ok, hok, hi⟩ := frame
    exact hi ▸ vmap1_lands hok hv ha hd h
  · have frame : ∃ ok, (ok t = true ↔ p) ∧ exec i s = vmap3 mj L ok f vd va vb vc t s := by
      simp only [List.mem_cons, Prod.mk.injEq, List.not_mem_nil, or_false] at hx
      obtain ⟨rfl, rfl, rfl, rfl, rfl⟩ | ⟨rfl, rfl, rfl, rfl, rfl⟩ | ⟨rfl, rfl, rfl, rfl, rfl⟩ |
        ⟨rfl, rfl, rfl, rfl, rfl⟩ | ⟨rfl, rfl, rfl, rfl, rfl⟩ := hx
      · exact ⟨tWI, tWI_iff t, rfl⟩
      · exact ⟨tWI, tWI_iff t, rfl⟩
      · exact ⟨tWI, tWI_iff t, rfl⟩
      · exact ⟨tWI, tWI_iff t, rfl⟩
      · exact ⟨tAll, all, rfl⟩
    obtain ⟨ok, hok, hi⟩ := frame
    exact hi ▸ vmap3_lands hok hv ha hb hc hd h

end Sys2Proof.Proofs
end


section
/-! The immediate vector forms, and how rows land (10_vector.md R240; 04_number_formats.md R94). -/

namespace Sys2Proof.Machine

open Sys2Proof

set_option Elab.async false

/-- The immediate of a vector word, with the payload of its hint (R240). -/
def State.vimm (s : State) (t : EType) (imm : BitVec 16) : Nat :=
  match s.me.issue.hw with
  | [] => vectorImm s.esat t false (imm.setWidth 32)
  | p :: _ => vectorImm s.esat t true ((p.setWidth 16) ++ imm)

section
variable {s : State} {vd : BitVec 5} {imm : BitVec 16} {t : EType}

theorem execVsplatImm_next (hv : s.me.vbusy = 0) (ht : viewType (s.me.view vd.toNat) = some t)
    (hr : rowFits t s.shapeBytes = true) (hd : s.plainView vd s.shapeRows s.shapeBytes)
    (h : s.me.ready [] (s.viewRes vd s.shapeRows s.shapeBytes)) : execVsplatImm vd imm s =
      .next (s.rowsLand vd s.shapeRows s.shapeRows 4 (List.replicate s.shapeRows
        (pack (widthOf t) s.shapeBytes (List.replicate (elemsOf t s.shapeBytes) (s.vimm t imm)))) 0) := by
  simp only [execVsplatImm, ht, State.vop_rows hd, hr, Bool.not_true]
  exact vectorWord_land (fun x hx => nomatch hx) h rfl hv

section
variable {ok : EType → Bool} {f : EType → Nat → Nat → Nat × BitVec 5}

theorem vmapImm_next (hv : s.me.vbusy = 0) (ht : viewType (s.me.view vd.toNat) = some t)
    (hr : rowFits t s.shapeBytes = true) (hd : s.plainView vd s.shapeRows s.shapeBytes) (hok : ok t = true)
    (h : s.me.ready (s.viewRes vd s.shapeRows s.shapeBytes) (s.viewRes vd s.shapeRows s.shapeBytes)) :
    vmapImm ok f vd imm s = .next (s.rowsLand vd s.shapeRows s.shapeRows 4
      (packRows (widthOf t) s.shapeBytes ((s.viewElems t vd s.shapeRows s.shapeBytes (elemsOf t s.shapeBytes)).map
        fun a => a.map fun j => f t j (s.vimm t imm))).1
      (packRows (widthOf t) s.shapeBytes ((s.viewElems t vd s.shapeRows s.shapeBytes (elemsOf t s.shapeBytes)).map
        fun a => a.map fun j => f t j (s.vimm t imm))).2) := by
  simp only [vmapImm, ht, State.vop_rows hd, hr, hok, Bool.not_true]
  rw [State.viewElems, List.map_map]
  refine vectorWord_land (fun x hx => ?_) ?_ rfl hv
  · rw [List.mem_singleton.1 hx]; rfl
  · rw [List.flatMap_cons, List.flatMap_nil, List.append_nil]
    exact h

theorem vmapImm_type (ht : viewType (s.me.view vd.toNat) = some t) (hd : s.plainView vd s.shapeRows s.shapeBytes)
    (hok : ok t = false) (h : s.me.ready (s.viewRes vd s.shapeRows s.shapeBytes) (s.viewRes vd s.shapeRows s.shapeBytes)) :
    vmapImm ok f vd imm s = .next (s.raise ⟨0x16, 3, vd.setWidth 6, 0, 0x2E⟩) := by
  simp only [vmapImm, ht, State.vop_rows hd, hok, Bool.not_false]
  refine vectorWord_fails (fun x hx => ?_) ?_ rfl
  · rw [List.mem_singleton.1 hx]; rfl
  · rw [List.flatMap_cons, List.flatMap_nil, List.append_nil]
    exact h

end

end

/-! ## Rows that land -/

theorem State.viewAddrs_length (s : State) (n : BitVec 5) (rows : Nat) : (s.viewAddrs n rows).length = rows := by
  rw [State.viewAddrs, List.length_map, List.length_range]

/-- The rows of a result become pending writes, one cc apart. -/
theorem State.rowsLand_pend (s : State) (vd : BitVec 5) {rows : Nat} (hold L : Nat) {out : List (List Byte)}
    (fl : BitVec 5) (hn : out.length = rows) : ∃ q : List Pend,
    s.rowsLand vd rows hold L out fl = { s with me := { s.me with vbusy := hold, pend := s.me.pend ++ q } } ∧
    q.length = rows ∧ ∀ i < rows, q[i]? = some
      ⟨.row (viewBase (s.me.view vd.toNat) + i * viewPitch (s.me.view vd.toNat)) (out.getD i [])
        (if i + 1 = rows then fl else 0), L + i⟩ := by
  have hlen : ((s.viewAddrs vd rows).zip out).length = rows := by
    rw [List.length_zip, State.viewAddrs_length, hn, Nat.min_self]
  obtain ⟨q, hq, hql, hqi⟩ := State.regRows_eq L fl ((s.viewAddrs vd rows).zip out) (s.holdPipe hold) 0
  refine ⟨q, hq, hql.trans hlen, fun i hi => ?_⟩
  have hio : i < out.length := hn ▸ hi
  have hget : ((s.viewAddrs vd rows).zip out)[i]? =
      some (viewBase (s.me.view vd.toNat) + i * viewPitch (s.me.view vd.toNat), out.getD i []) := by
    rw [List.getElem?_zip_eq_some]
    refine ⟨?_, ?_⟩
    · rw [State.viewAddrs, List.getElem?_map, List.getElem?_range hi, Option.map_some]
    · rw [List.getD_eq_getElem?_getD, List.getElem?_eq_getElem hio, Option.getD_some]
  have := hqi i _ _ hget
  rw [hlen] at this
  exact this

end Sys2Proof.Machine

namespace Sys2Proof.Proofs

open Sys2Proof Sys2Proof.Machine

/-- Settles O27: the frame of the immediate forms, and the pending rows of a result. -/
theorem vectorImmediateWords : Obligations.VectorImmediateWords := by
  have all : ∀ {t : EType}, tAll t = true ↔ True := ⟨fun _ => trivial, fun _ => rfl⟩
  refine ⟨fun s vd imm t hv ht hr hd => ⟨fun h => execVsplatImm_next hv ht hr hd h, fun h x hx => ?_⟩,
    fun s vd rows hold L out fl hn => ?_⟩
  · obtain ⟨i, p, f⟩ := x
    have frame : ∃ ok, (ok t = true ↔ p) ∧ exec i s = vmapImm ok f vd imm s := by
      simp only [List.mem_cons, Prod.mk.injEq, List.not_mem_nil, or_false] at hx
      obtain ⟨rfl, rfl, rfl⟩ | ⟨rfl, rfl, rfl⟩ | ⟨rfl, rfl, rfl⟩ | ⟨rfl, rfl, rfl⟩ | ⟨rfl, rfl, rfl⟩ |
        ⟨rfl, rfl, rfl⟩ | ⟨rfl, rfl, rfl⟩ | ⟨rfl, rfl, rfl⟩ | ⟨rfl, rfl, rfl⟩ | ⟨rfl, rfl, rfl⟩ | ⟨rfl, rfl, rfl⟩ := hx
      · exact ⟨tAll, all, rfl⟩
      · exact ⟨tAll, all, rfl⟩
      · exact ⟨tAll, all, rfl⟩
      · exact ⟨tAll, all, rfl⟩
      · exact ⟨tAll, all, rfl⟩
      · exact ⟨tAll, all, rfl⟩
      · exact ⟨tAll, all, rfl⟩
      · exact ⟨tAll, all, rfl⟩
      · exact ⟨tI, tI_iff t, rfl⟩
      · exact ⟨tI, tI_iff t, rfl⟩
      · exact ⟨tS, Iff.rfl, rfl⟩
    obtain ⟨ok, hok, hi⟩ := frame
    exact ⟨fun hp => hi ▸ vmapImm_next hv ht hr hd (hok.2 hp) h,
      fun hp => hi ▸ vmapImm_type ht hd (Bool.eq_false_iff.2 (mt hok.1 hp)) h⟩
  · obtain ⟨q, hq, hql, hqi⟩ := State.rowsLand_pend s vd hold L fl hn
    rw [hq]
    refine ⟨rfl, rfl, ?_, fun i hi => ?_, fun c a x bs hwf => ?_⟩
    · rw [List.length_append, hql]
    · rw [List.getElem?_append_right (Nat.le_add_right _ _), Nat.add_sub_cancel_left]
      exact hqi i hi
    · exact Memory.get_putBytes hwf a bs x

end Sys2Proof.Proofs
end


section

/-! The integer element operations: each is `codeOf` of an exact value. -/

namespace Sys2Proof.Machine
open Sys2Proof
set_option Elab.async false

theorem arith_integer {t : EType} (ht : fmtOf t = none) (r : Rnd) (fi : Int → Int → Int)
    (ff : Fmt → Rnd → Nat → Nat → Nat × BitVec 5) (a b : Nat) :
    arith r fi ff t a b =
      (codeOf (widthOf t) (fi (intOf (isSigned t) (widthOf t) a) (intOf (isSigned t) (widthOf t) b)), 0) := by
  simp [arith, ht]

theorem codeOf_eq (w : Nat) (v : Int) : codeOf w v = (v % (2 : Int) ^ w).toNat := by
  simp [codeOf]

/-- Two codes of one width stand for one value only when they are one code. -/
theorem intOf_inj (sg : Bool) {w a b : Nat} (ha : a < 2 ^ w) (hb : b < 2 ^ w) :
    intOf sg w a = intOf sg w b ↔ a = b := by
  refine ⟨fun h => ?_, fun h => h ▸ rfl⟩
  have hab := congrArg (codeOf w) h
  rwa [codeOf_intOf sg le_rfl ha, codeOf_intOf sg le_rfl hb, Nat.mod_eq_of_lt ha, Nat.mod_eq_of_lt hb] at hab

theorem elemCmp_integer {t : EType} (ht : fmtOf t = none) {a b : Nat} (ha : a < 2 ^ widthOf t) (hb : b < 2 ^ widthOf t) :
    let i := intOf (isSigned t) (widthOf t)
    elemCmp .eq t a b = (if a = b then 2 ^ widthOf t - 1 else 0, 0) ∧
    elemCmp .lt t a b = (if i a < i b then 2 ^ widthOf t - 1 else 0, 0) ∧
    elemCmp .ge t a b = (if i b ≤ i a then 2 ^ widthOf t - 1 else 0, 0) := by
  simp [elemCmp, compareElem, ht, intOf_inj (isSigned t) ha hb]

theorem elemShl_eq (t : EType) (a b : Nat) :
    elemShl t a b = (codeOf (widthOf t) ((a * 2 ^ (b % widthOf t) : Nat) : Int), 0) := by
  rw [codeOf_natCast]; rfl

theorem elemShr_eq {t : EType} {a : Nat} (ha : a < 2 ^ widthOf t) (b : Nat) :
    elemShr t a b = (codeOf (widthOf t) ((a / 2 ^ (b % widthOf t) : Nat) : Int), 0) := by
  rw [codeOf_natCast, Nat.mod_eq_of_lt ((Nat.div_le_self _ _).trans_lt ha)]; rfl

theorem bitsOp_of_lt {f : Nat → Nat → Nat} {t : EType} {a b : Nat} (h : f a b < 2 ^ widthOf t) :
    bitsOp f t a b = (f a b, 0) := by
  rw [bitsOp, Nat.mod_eq_of_lt h]

end Sys2Proof.Machine

namespace Sys2Proof.Proofs
open Sys2Proof Sys2Proof.Machine
set_option Elab.async false

/-- Settles O28: an integer operation is `codeOf` of its exact value, and `codeOf` is reduction
modulo 2^w; the bitwise ones stay below 2^w. -/
theorem integerElements : Obligations.IntegerElements := by
  unfold Obligations.IntegerElements
  intro t rnd a b m w p i is ha hb
  refine ⟨fun x hx => ?_, fun ht => ?_, bitsOp_of_lt (Nat.and_lt_two_pow _ hb), bitsOp_of_lt (Nat.or_lt_two_pow ha hb),
    bitsOp_of_lt (Nat.xor_lt_two_pow ha hb), ?_⟩
  · exact intOf_of_lt _ hx
  · obtain ⟨heq, hlt, hge⟩ := elemCmp_integer ht ha hb
    have exact' (fi ff) : is (arith rnd fi ff t a b) (fi (i a) (i b)) := by
      rw [arith_integer ht, codeOf_eq]
    refine ⟨exact' _ _, exact' _ _, exact' _ _, ?_, ?_, ?_, ?_, ?_, heq, hlt, hge⟩
    · rw [← min_def]; exact exact' _ _
    · rw [← max_def]; exact exact' _ _
    · simp only [is, elemMulh, codeOf_eq, p, i, w, Nat.cast_pow, Nat.cast_ofNat]
    · simp only [is, elemShl_eq, codeOf_eq, p, w]; push_cast; rfl
    · simp only [is, elemShr_eq ha, codeOf_eq, p, w]; push_cast; rfl
  · by_cases hm : m % 2 ^ widthOf t = 0 <;> simp [elemSel, hm, w]

end Sys2Proof.Proofs

end


section

/-! The conversion words (10_vector.md R235, R251 to R253): their frames over plain views, with the draws
of a stochastic narrowing. -/

namespace Sys2Proof.Machine
open Sys2Proof
set_option Elab.async false

/-- `srcnt` advanced by `k` draws, 1 cc later. -/
def State.drawn (s u : State) (k : Nat) : State :=
  if k = 0 then u else u.later (.srAdv (s.me.csr.srcnt + BitVec.ofNat 32 k)) 1

theorem State.rowsLand_ahead (s : State) (vd : BitVec 5) (rows hold L : Nat) (out : List (List Byte)) (fl : BitVec 5) :
    (s.rowsLand vd rows hold L out fl).me.ahead = s.me.ahead :=
  (regRows_ahead _ _ _ _ _).trans rfl

/-- A word over plain views and one destination has its rows land and its draws counted. -/
theorem vectorWord_draws {chk : Option Exc} {srcs : List VRows} {vd : BitVec 5} {r n hold L : Nat}
    {out : List (List Byte)} {fl : BitVec 5} {s : State} (hs : ∀ x ∈ srcs, x.port = none)
    (h : s.me.ready (srcs.flatMap (·.res)) (s.viewRes vd r n)) (hc : chk = none) (hv : s.me.vbusy = 0) (k : Nat) :
    vectorWord [] chk srcs [s.plainRows vd r n] false hold L [⟨s.plainRows vd r n, out, fl⟩] k s =
      .next (s.drawn (s.rowsLand vd r hold L out fl) k) := by
  have hports : ∀ x ∈ srcs ++ [s.plainRows vd r n], x.port = none := by
    simp only [List.mem_append, List.mem_singleton]
    rintro x (hx | rfl)
    · exact hs x hx
    · rfl
  refine vectorWord_drawn hports ?_ hc rfl hv ((s.rowsLand_ahead vd r hold L out fl).trans h.1)
  rw [List.flatMap_cons, List.flatMap_nil, List.append_nil]
  exact h

/-- A word over plain views and two destinations has the rows of both land and its draws counted. -/
theorem vectorWord_draws_two {chk : Option Exc} {srcs : List VRows} {vd vs : BitVec 5} {r n m hold L : Nat}
    {out scs : List (List Byte)} {fl : BitVec 5} {s : State} (hs : ∀ x ∈ srcs, x.port = none)
    (h : s.me.ready (srcs.flatMap (·.res)) (s.viewRes vd r n ++ s.viewRes vs r m)) (hc : chk = none)
    (hv : s.me.vbusy = 0) (k : Nat) :
    vectorWord [] chk srcs [s.plainRows vd r n, s.plainRows vs r m] false hold L
      [⟨s.plainRows vd r n, out, fl⟩, ⟨s.plainRows vs r m, scs, 0⟩] k s =
      .next (s.drawn ((s.rowsLand vd r hold L out fl).regRows L 0 0 ((s.viewAddrs vs r).zip scs)) k) := by
  have hports : ∀ x ∈ srcs ++ [s.plainRows vd r n, s.plainRows vs r m], x.port = none := by
    simp only [List.mem_append, List.mem_cons, List.not_mem_nil, or_false]
    rintro x (hx | rfl | rfl)
    · exact hs x hx
    · rfl
    · rfl
  refine vectorWord_drawn hports ?_ hc rfl hv
    ((regRows_ahead _ _ _ _ _).trans ((s.rowsLand_ahead vd r hold L out fl).trans h.1))
  rw [List.flatMap_cons, List.flatMap_cons, List.flatMap_nil, List.append_nil]
  exact h

/-- A word over plain views and two destinations raises its first failing check. -/
theorem vectorWord_fails_two {chk : Option Exc} {e : Exc} {srcs : List VRows} {vd vs : BitVec 5} {r n m hold L k : Nat}
    {outs : List VOut} {s : State} (hs : ∀ x ∈ srcs, x.port = none)
    (h : s.me.ready (srcs.flatMap (·.res)) (s.viewRes vd r n ++ s.viewRes vs r m)) (hc : chk = some e) :
    vectorWord [] chk srcs [s.plainRows vd r n, s.plainRows vs r m] false hold L outs k s = .next (s.raise e) := by
  have hports : ∀ x ∈ srcs ++ [s.plainRows vd r n, s.plainRows vs r m], x.port = none := by
    simp only [List.mem_append, List.mem_cons, List.not_mem_nil, or_false]
    rintro x (hx | rfl | rfl)
    · exact hs x hx
    · rfl
    · rfl
  refine vectorWord_raise hports ?_ hc
  rw [List.flatMap_cons, List.flatMap_cons, List.flatMap_nil, List.append_nil]
  exact h

/-- The one plain source of a word, as a member of its sources. -/
theorem port_of_one {s : State} {n : BitVec 5} {rows len : Nat} : ∀ x ∈ [s.plainRows n rows len], x.port = none := by
  simp only [List.mem_singleton, forall_eq]; rfl

theorem port_of_two {s : State} {n m : BitVec 5} {rows len len' : Nat} :
    ∀ x ∈ [s.plainRows n rows len, s.plainRows m rows len'], x.port = none := by
  simp only [List.mem_cons, List.not_mem_nil, or_false]
  rintro x (rfl | rfl) <;> rfl

theorem res_of_one (s : State) (n : BitVec 5) (rows len : Nat) :
    [s.plainRows n rows len].flatMap (·.res) = s.viewRes n rows len := by
  rw [List.flatMap_cons, List.flatMap_nil, List.append_nil, s.plainRows_res]

theorem res_of_two (s : State) (n m : BitVec 5) (rows len len' : Nat) :
    [s.plainRows n rows len, s.plainRows m rows len'].flatMap (·.res) = s.viewRes n rows len ++ s.viewRes m rows len' := by
  rw [List.flatMap_cons, res_of_one, s.plainRows_res]

theorem State.viewBytes_length (s : State) (n : BitVec 5) (rows len : Nat) : (s.viewBytes n rows len).length = rows := by
  rw [State.viewBytes, List.length_map, s.viewAddrs_length]

theorem State.vread_plainRows (s : State) (n : BitVec 5) (rows len : Nat) :
    s.vread (s.plainRows n rows len) = s.viewBytes n rows len := rfl

section
variable {s : State} {vd va vs : BitVec 5} {t u : EType} {rm : Option RMode} {sat : Bool}

/-- The stochastic state of element `k` of a word. -/
def State.drawOf (s : State) (m : RMode) (k : Nat) : Rnd := ⟨m, if m = .rsr then s.drawAt k else 0, s.esat⟩

/-- `vcvt` over plain views is the frame of one source, with the converted rows. -/
theorem execVcvt_eq {c : Nat} (hc : elemsOf (if widthOf u ≤ widthOf t then t else u) s.shapeBytes = c)
    (ha : s.plainView va s.shapeRows (rowBytes u c)) (hd : s.plainView vd s.shapeRows (rowBytes t c)) :
    let out := packRows (widthOf t) (rowBytes t c)
      (((s.viewElems u va s.shapeRows (rowBytes u c) c).zip (List.range s.shapeRows)).map fun (row, i) =>
        (row.zip (List.range c)).map fun (x, j) => convertElem (s.drawOf (s.rmode rm) (i * c + j)) sat t u x)
    execVcvt vd va t u rm sat s = vectorWord []
      (firstOf [check (!rowFits (if widthOf u ≤ widthOf t then t else u) s.shapeBytes) (viewExc 0x28 1 0),
        check (!rowWhole t c || !rowWhole u c) (viewExc 0x28 5 0), none])
      [s.plainRows va s.shapeRows (rowBytes u c)] [s.plainRows vd s.shapeRows (rowBytes t c)] false s.shapeRows 4
      [⟨s.plainRows vd s.shapeRows (rowBytes t c), out.1, out.2⟩]
      (if s.rmode rm = .rsr ∧ rsrPair t u = true then s.shapeRows * c else 0) s := by
  subst hc
  simp only [execVcvt, State.vop_rows ha, State.vop_rows hd, State.mapDrawn, List.length_map, State.vread_plainRows,
    State.viewBytes_length]
  rfl

/-- `vqnt` of a view of a wide type, over plain views, is the frame of one source and two destinations. -/
theorem execVqnt_eq {f : Fmt} (ht : viewType (s.me.view va.toNat) = some t) (hw : tW t = true) (hf : fmtOf t = some f) {c : Nat}
    (hc : elemsOf t s.shapeBytes = c) (ha : s.plainView va s.shapeRows s.shapeBytes)
    (hd : s.plainView vd s.shapeRows (c / 2)) (hs : s.plainView vs s.shapeRows (c / 8)) :
    let vals := (s.viewElems t va s.shapeRows s.shapeBytes c).map fun row => row.map f.decode
    let codes := vals.map fun row => (chunks 8 row (c / 8)).map blockCode
    let out := packRows 4 (c / 2) (((vals.zip codes).zip (List.range s.shapeRows)).map fun ((row, cs), i) =>
      (row.zip (List.range c)).map fun (x, j) => quantElem (cs.getD (j / 8) 0) (s.drawOf (s.rmode rm) (i * c + j)) x)
    execVqnt vd va vs rm s = vectorWord []
      (firstOf [check (c % 8 != 0) (viewExc 0x29 5 0), none])
      [s.plainRows va s.shapeRows s.shapeBytes] [s.plainRows vd s.shapeRows (c / 2), s.plainRows vs s.shapeRows (c / 8)]
      false s.shapeRows 4
      [⟨s.plainRows vd s.shapeRows (c / 2), out.1, out.2⟩,
        ⟨s.plainRows vs s.shapeRows (c / 8), codes.map fun cs => cs.map (BitVec.ofNat 8), 0⟩]
      (if s.rmode rm = .rsr then s.shapeRows * c else 0) s := by
  subst hc
  have hb : ((viewType (s.me.view va.toNat)).bind fun t => if tW t then (fmtOf t).map fun f => (t, f) else none) =
      some (t, f) := by
    rw [ht, Option.bind_some, if_pos hw, hf, Option.map_some]
  simp only [execVqnt, hb, State.vop_rows ha, State.vop_rows hd, State.vop_rows hs, State.vread_plainRows,
    State.viewElems, List.map_map]
  rfl

/-- `vqnt` of a view of no wide type raises before it looks at a row. -/
theorem execVqnt_type (h : s.me.ready [] []) (ht : ∀ t, viewType (s.me.view va.toNat) = some t → tW t = false) :
    execVqnt vd va vs rm s = .next (s.raise ⟨0x16, 3, va.setWidth 6, 0, 0x29⟩) := by
  have hb : ((viewType (s.me.view va.toNat)).bind fun t => if tW t then (fmtOf t).map fun f => (t, f) else none) = none := by
    cases hv : viewType (s.me.view va.toNat) with
    | none => rfl
    | some t => rw [Option.bind_some, if_neg (by rw [ht t hv]; exact Bool.false_ne_true)]
  simp only [execVqnt, hb]
  exact vectorWord_raise (fun _ hx => absurd hx List.not_mem_nil) h rfl

/-- `vdqnt` over plain views is the frame of two sources. -/
theorem execVdqnt_eq {f : Fmt} (hw : tW t = true) (hf : fmtOf t = some f) {c : Nat} (hc : elemsOf t s.shapeBytes = c)
    (ha : s.plainView va s.shapeRows (c / 2)) (hs : s.plainView vs s.shapeRows ((c + 7) / 8))
    (hd : s.plainView vd s.shapeRows s.shapeBytes) :
    let out := packRows (widthOf t) s.shapeBytes (((s.viewBytes va s.shapeRows (c / 2)).zip
      (s.viewBytes vs s.shapeRows ((c + 7) / 8))).map fun (x, y) =>
        ((unpack 4 c x).zip (List.range c)).map fun (e, j) => dequantElem f (y.getD (j / 8) 0).toNat e)
    execVdqnt vd va vs t s = vectorWord []
      (firstOf [none, check (viewType (s.me.view va.toNat) != some .e2m1) (viewExc 0x29 3 (va.setWidth 6)),
        check (!rowWhole .e2m1 c) (viewExc 0x29 5 0), none])
      [s.plainRows va s.shapeRows (c / 2), s.plainRows vs s.shapeRows ((c + 7) / 8)]
      [s.plainRows vd s.shapeRows s.shapeBytes] false s.shapeRows 4
      [⟨s.plainRows vd s.shapeRows s.shapeBytes, out.1, 0⟩] 0 s := by
  subst hc
  simp only [execVdqnt, hw, hf, State.vop_rows ha, State.vop_rows hd, State.vop_rows hs, State.vread_plainRows]
  rfl

end

end Sys2Proof.Machine

namespace Sys2Proof.Proofs
open Sys2Proof Sys2Proof.Machine
set_option Elab.async false

/-- Settles O29: each word is its frame over plain views, whose checks decide the outcome. -/
theorem vectorConversionWords : Obligations.VectorConversionWords := by
  unfold Obligations.VectorConversionWords
  intro s vd va vs t u rm sat hv r n m q drawn bad
  refine ⟨fun ha hd h => ?_, fun f hf ht => ⟨fun hvt ha hd hs h => ?_, fun ha hs hd h => ?_⟩, fun h ht => ?_⟩
  · rw [← res_of_one] at h
    refine ⟨fun hfit hw => ?_, fun hfit => ?_, fun hfit hw => ?_⟩
    · exact (execVcvt_eq rfl ha hd : execVcvt vd va t u rm sat s = _).trans
        (vectorWord_draws port_of_one h (by simp only [n] at hfit hw ⊢; simp [hfit, hw, firstOf, check]) hv _)
    · exact (execVcvt_eq rfl ha hd : execVcvt vd va t u rm sat s = _).trans
        (vectorWord_fails (g := []) port_of_one h (by rw [hfit]; rfl))
    · have hw' : (!rowWhole t (elemsOf (if widthOf u ≤ widthOf t then t else u) n) ||
          !rowWhole u (elemsOf (if widthOf u ≤ widthOf t then t else u) n)) = true := by
        rwa [← Bool.not_and, Bool.not_eq_true', Bool.and_eq_false_iff, ← Bool.not_eq_true, ← Bool.not_eq_true, ← not_and_or]
      exact (execVcvt_eq rfl ha hd : execVcvt vd va t u rm sat s = _).trans
        (vectorWord_fails (g := []) port_of_one h (by rw [hfit, hw']; rfl))
  · rw [← res_of_one] at h
    refine ⟨fun h8 => ?_, fun h8 => ?_⟩
    · exact (execVqnt_eq hvt ((tW_iff t).2 ht) hf rfl ha hd hs : execVqnt vd va vs rm s = _).trans
        (vectorWord_draws_two port_of_one h (by rw [h8]; rfl) hv _)
    · exact (execVqnt_eq hvt ((tW_iff t).2 ht) hf rfl ha hd hs : execVqnt vd va vs rm s = _).trans
        (vectorWord_fails_two port_of_one h (by rw [bne_iff_ne.2 h8]; rfl))
  · rw [← res_of_two] at h
    refine ⟨fun hvt hw => ?_, fun hvt => ?_, fun hvt hw => ?_⟩
    · exact (execVdqnt_eq ((tW_iff t).2 ht) hf rfl ha hs hd : execVdqnt vd va vs t s = _).trans
        (vectorWord_land (g := []) port_of_two h (by rw [hvt, hw]; rfl) hv)
    · exact (execVdqnt_eq ((tW_iff t).2 ht) hf rfl ha hs hd : execVdqnt vd va vs t s = _).trans
        (vectorWord_fails (g := []) port_of_two h (by rw [bne_iff_ne.2 hvt]; rfl))
    · exact (execVdqnt_eq ((tW_iff t).2 ht) hf rfl ha hs hd : execVdqnt vd va vs t s = _).trans
        (vectorWord_fails (g := []) port_of_two h (by rw [hvt, hw]; rfl))
  · refine execVqnt_type h fun t h' => Bool.eq_false_iff.2 fun hw => ?_
    obtain ⟨h1, h2, h3⟩ := ht t h'
    rcases (tW_iff t).1 hw with h | h | h <;> contradiction

end Sys2Proof.Proofs

end


section

/-! The reductions and the words that move elements (10_vector.md R245 to R247). -/

namespace Sys2Proof.Machine
open Sys2Proof
set_option Elab.async false

section
variable {s : State} {vd va vb : BitVec 5} {t : EType}

/-- A row reduction over plain views is the frame of one source. -/
theorem rowReduce_eq (mx : Bool) (ha : s.plainView va s.shapeRows s.shapeBytes) (hd : s.plainView vd s.shapeRows s.shapeBytes) :
    let out := packRows (widthOf t) s.shapeBytes ((s.viewElems t va s.shapeRows s.shapeBytes (elemsOf t s.shapeBytes)).map
      fun e => List.replicate (elemsOf t s.shapeBytes) (reduceElems mx s.rnd t e))
    rowReduce mx vd va t s = vectorWord []
      (firstOf [typeCheck 0x2A (decide (16 ≤ widthOf t)) t s.shapeBytes, none])
      [s.plainRows va s.shapeRows s.shapeBytes] [s.plainRows vd s.shapeRows s.shapeBytes] false s.shapeRows 6
      [⟨s.plainRows vd s.shapeRows s.shapeBytes, out.1, out.2⟩] 0 s := by
  simp only [rowReduce, State.vop_rows ha, State.vop_rows hd, State.vread_plainRows, State.viewElems, List.map_map]
  rfl

/-- A column reduction over plain views is the frame of one source and one row. -/
theorem columnReduce_eq (mx : Bool) (ha : s.plainView va s.shapeRows s.shapeBytes) (hd : s.plainView vd 1 s.shapeBytes) :
    let els := s.viewElems t va s.shapeRows s.shapeBytes (elemsOf t s.shapeBytes)
    let out := packRows (widthOf t) s.shapeBytes
      [(List.range (elemsOf t s.shapeBytes)).map fun j => reduceElems mx s.rnd t (els.map fun e => e.getD j 0)]
    columnReduce mx vd va t s = vectorWord [] (firstOf [typeCheck 0x2A true t s.shapeBytes, none])
      [s.plainRows va s.shapeRows s.shapeBytes] [s.plainRows vd 1 s.shapeBytes] false 1 6
      [⟨s.plainRows vd 1 s.shapeBytes, out.1, out.2⟩] 0 s := by
  simp only [columnReduce, State.vop_rows ha, State.vop_rows hd, State.vread_plainRows, State.viewElems]
  rfl

/-- `vtrn` over plain views is the frame of one source. -/
theorem execVtrn_eq (ha : s.plainView va s.shapeRows s.shapeBytes) (hd : s.plainView vd s.shapeRows s.shapeBytes) :
    let c := elemsOf t s.shapeBytes
    execVtrn vd va t s = vectorWord []
      (firstOf [typeCheck 0x2B (decide (widthOf t % 8 = 0)) t s.shapeBytes, check (c != s.shapeRows) (viewExc 0x2B 5 0), none])
      [s.plainRows va s.shapeRows s.shapeBytes] [s.plainRows vd s.shapeRows s.shapeBytes] false s.shapeRows 6
      [⟨s.plainRows vd s.shapeRows s.shapeBytes, (List.range s.shapeRows).map fun i => pack (widthOf t) s.shapeBytes
        ((s.viewElems t va s.shapeRows s.shapeBytes c).map fun e => e.getD i 0), 0⟩] 0 s := by
  simp only [execVtrn, State.vop_rows ha, State.vop_rows hd, State.vread_plainRows, State.viewElems]
  rfl

/-- The first row of a plain view. -/
theorem State.viewBytes_first (s : State) (n : BitVec 5) (len : Nat) :
    (s.viewBytes n 1 len).getD 0 [] = s.me.vmem.bytes (viewBase (s.me.view n.toNat)) len := by
  rw [State.viewBytes, State.viewAddrs, List.range_one]
  simp

/-- `vbcast` over plain views is the frame of its one row. -/
theorem execVbcast_eq (ha : s.plainView va 1 s.shapeBytes) (hd : s.plainView vd s.shapeRows s.shapeBytes) :
    execVbcast vd va s = vectorWord [] none [s.plainRows va 1 s.shapeBytes] [s.plainRows vd s.shapeRows s.shapeBytes] false
      s.shapeRows 4 [⟨s.plainRows vd s.shapeRows s.shapeBytes,
        List.replicate s.shapeRows (s.me.vmem.bytes (viewBase (s.me.view va.toNat)) s.shapeBytes), 0⟩] 0 s := by
  simp only [execVbcast, State.vop_rows ha, State.vop_rows hd, State.vread_plainRows, State.viewBytes_first]
  rfl

/-- `vmov` over plain views is the frame of one source. -/
theorem execVmov_eq (ha : s.plainView va s.shapeRows s.shapeBytes) (hd : s.plainView vd s.shapeRows s.shapeBytes) :
    execVmov vd va s = vectorWord [] none [s.plainRows va s.shapeRows s.shapeBytes] [s.plainRows vd s.shapeRows s.shapeBytes]
      false s.shapeRows 4 [⟨s.plainRows vd s.shapeRows s.shapeBytes, s.viewBytes va s.shapeRows s.shapeBytes, 0⟩] 0 s := by
  simp only [execVmov, State.vop_rows ha, State.vop_rows hd, State.vread_plainRows]
  rfl

/-- `vext` over plain views is the frame of two sources. -/
theorem execVext_eq (ha : s.plainView va s.shapeRows s.shapeBytes) (hb : s.plainView vb s.shapeRows s.shapeBytes)
    (hd : s.plainView vd s.shapeRows s.shapeBytes) :
    let c := elemsOf t s.shapeBytes
    let els := fun v => s.viewElems t v s.shapeRows s.shapeBytes c
    execVext vd va vb t s = vectorWord [] (firstOf [typeCheck 0x2B true t s.shapeBytes, none])
      [s.plainRows va s.shapeRows s.shapeBytes, s.plainRows vb s.shapeRows s.shapeBytes]
      [s.plainRows vd s.shapeRows s.shapeBytes] false s.shapeRows 4
      [⟨s.plainRows vd s.shapeRows s.shapeBytes, ((els va).zip (els vb)).map fun (e, k) =>
        pack (widthOf t) s.shapeBytes (k.map fun i => e.getD (i % c) 0), 0⟩] 0 s := by
  simp only [execVext, State.vop_rows ha, State.vop_rows hb, State.vop_rows hd, State.vread_plainRows, State.viewElems,
    List.zip_map, List.map_map]
  rfl

/-- `vins` over plain views is the frame of three sources, its destination one of them. -/
theorem execVins_eq (ha : s.plainView va s.shapeRows s.shapeBytes) (hb : s.plainView vb s.shapeRows s.shapeBytes)
    (hd : s.plainView vd s.shapeRows s.shapeBytes) :
    let c := elemsOf t s.shapeBytes
    let els := fun v => s.viewElems t v s.shapeRows s.shapeBytes c
    execVins vd va vb t s = vectorWord [] (firstOf [typeCheck 0x2B true t s.shapeBytes, none])
      [s.plainRows va s.shapeRows s.shapeBytes, s.plainRows vb s.shapeRows s.shapeBytes, s.plainRows vd s.shapeRows s.shapeBytes]
      [s.plainRows vd s.shapeRows s.shapeBytes] false s.shapeRows 4
      [⟨s.plainRows vd s.shapeRows s.shapeBytes, ((els va).zip ((els vb).zip (els vd))).map fun (e, k, d) =>
        pack (widthOf t) s.shapeBytes ((e.zip k).foldl (fun l (v, i) => setAt l (i % c) v) d), 0⟩] 0 s := by
  simp only [execVins, State.vop_rows ha, State.vop_rows hb, State.vop_rows hd, State.vread_plainRows, State.viewElems,
    List.zip_map, List.map_map]
  rfl

/-- `vsplat` over a plain view is the frame of no source but its general register. -/
theorem execVsplat_eq (ga : BitVec 5) (hd : s.plainView vd s.shapeRows s.shapeBytes) :
    let e := splatElem s.esat t (s.me.gr (ga.setWidth 6))
    execVsplat vd ga t s = vectorWord [.g (ga.setWidth 6)] (firstOf [typeCheck 0x2B true t s.shapeBytes, none])
      [] [s.plainRows vd s.shapeRows s.shapeBytes] false s.shapeRows 4
      [⟨s.plainRows vd s.shapeRows s.shapeBytes, List.replicate s.shapeRows
        (pack (widthOf t) s.shapeBytes (List.replicate (elemsOf t s.shapeBytes) e.1)), e.2⟩] 0 s := by
  simp only [execVsplat, State.vop_rows hd]
  rfl

/-- An integer sum is exact modulo 2^w. -/
theorem reduceElems_integer (ht : fmtOf t = none) (r : Rnd) (l : List Nat) :
    reduceElems false r t l = (codeOf (widthOf t) ((l.map (intOf (isSigned t) (widthOf t))).sum), 0) := by
  simp only [reduceElems, ht, Bool.false_eq_true, if_false]

end

end Sys2Proof.Machine

namespace Sys2Proof.Proofs
open Sys2Proof Sys2Proof.Machine
set_option Elab.async false

/-- Settles O30: each word is its frame over plain views, whose checks decide the outcome. -/
theorem vectorMoveWords : Obligations.VectorMoveWords := by
  unfold Obligations.VectorMoveWords
  intro s vd va vb t r n w c els lands bad a1 hv hfit ha hd
  have type_ok {mj} : firstOf [typeCheck mj true t s.shapeBytes, none] = none := firstOf_two (typeCheck_ok rfl hfit) rfl
  refine ⟨fun h => ?_, fun hd1 h => ?_, fun ha1 h => ?_, fun hb => ⟨fun h => ?_, fun h => ?_⟩, fun h => ?_, fun rnd l ht => ?_⟩
  · have h' : s.me.ready ([] ++ [s.plainRows va r n].flatMap (·.res)) (s.viewRes vd r n) := by
      rw [res_of_one]; exact h
    have sum_lands (mx) (hw : 16 ≤ w) := (rowReduce_eq (t := t) mx ha hd).trans
      (vectorWord_land (g := []) port_of_one h' (firstOf_two (typeCheck_ok (decide_eq_true hw) hfit) rfl) hv)
    have sum_type (mx) (hw : w < 16) := (rowReduce_eq (t := t) mx ha hd).trans
      (vectorWord_fails (g := []) port_of_one h' (typeCheck_type (decide_eq_false (Nat.not_le.2 hw)) _))
    have htrn : exec (.vtrn vd va t) s = _ := execVtrn_eq (t := t) ha hd
    refine ⟨fun hw => ⟨sum_lands false hw, sum_lands true hw⟩, fun hw => ⟨sum_type false hw, sum_type true hw⟩, ?_,
      fun hw hc => ?_, fun hw hc => ?_, fun hw => ?_⟩
    · exact (execVmov_eq ha hd : exec (.vmov vd va) s = _).trans (vectorWord_land (g := []) port_of_one h' rfl hv)
    · refine htrn.trans (vectorWord_land (g := []) port_of_one h' ?_ hv)
      rw [typeCheck_ok (decide_eq_true hw) hfit, show (elemsOf t s.shapeBytes != s.shapeRows) = false from by simp [← hc, c, n, r] ]
      rfl
    · refine htrn.trans (vectorWord_fails (g := []) port_of_one h' ?_)
      rw [typeCheck_ok (decide_eq_true hw) hfit, show (elemsOf t s.shapeBytes != s.shapeRows) = true from bne_iff_ne.2 hc]
      rfl
    · refine htrn.trans (vectorWord_fails (g := []) port_of_one h' ?_)
      unfold typeCheck
      rw [decide_eq_false hw]
      rfl
  · have h' : s.me.ready ([] ++ [s.plainRows va r n].flatMap (·.res)) (s.viewRes vd 1 n) := by
      rw [res_of_one]; exact h
    exact ⟨(columnReduce_eq (t := t) false ha hd1).trans (vectorWord_land (g := []) port_of_one h' type_ok hv),
      (columnReduce_eq (t := t) true ha hd1).trans (vectorWord_land (g := []) port_of_one h' type_ok hv)⟩
  · exact (execVbcast_eq ha1 hd : exec (.vbcast vd va) s = _).trans
      (vectorWord_land (g := []) port_of_one ((res_of_one s va 1 n).symm ▸ h) rfl hv)
  · exact (execVext_eq (t := t) ha hb hd : exec (.vext vd va vb t) s = _).trans
      (vectorWord_land (g := []) port_of_two ((res_of_two s va vb r n n).symm ▸ h) type_ok hv)
  · refine (execVins_eq (t := t) ha hb hd : exec (.vins vd va vb t) s = _).trans (vectorWord_land (g := []) ?_ ?_ type_ok hv)
    · simp only [List.mem_cons, List.not_mem_nil, or_false]
      rintro x (rfl | rfl | rfl) <;> rfl
    · rw [List.flatMap_cons, res_of_two, List.nil_append, ← List.append_assoc]
      exact h
  · exact (execVsplat_eq (t := t) va hd : exec (.vsplat vd va t) s = _).trans
      (vectorWord_land (fun _ hx => absurd hx List.not_mem_nil) h type_ok hv)
  · rw [reduceElems_integer ht, codeOf_eq]

end Sys2Proof.Proofs

end


section

/-! Rows and elements between own scratch and views, and the view words (10_vector.md R248 to R250, R254,
R255): the frame of the words that write scratch, and each word as its frame. -/

namespace Sys2Proof.Machine
open Sys2Proof
set_option Elab.async false

/-- The writes of scratch of a word, one row a cc from `L` cc on. -/
def scrWrites (L : Nat) (rows : List (List (Nat × List Byte) × Nat)) : List Pend :=
  rows.flatMap fun (l, i) => l.map fun (o, bs) => ⟨.scr o bs, L + i⟩

theorem State.foldl_scr (d : Nat) : ∀ (l : List (Nat × List Byte)) (s : State),
    l.foldl (fun s (a, bs) => s.later (.scr a bs) d) s =
      s.onMe fun c => { c with pend := c.pend ++ l.map fun (o, bs) => ⟨.scr o bs, d⟩ }
  | [], s => by simp [State.onMe]
  | x :: l, s => by
    rw [List.foldl_cons, State.foldl_scr d l]
    simp [State.later, Core.later, State.onMe]

theorem State.foldl_scrRows (L : Nat) : ∀ (rows : List (List (Nat × List Byte) × Nat)) (s : State),
    rows.foldl (fun s (l, i) => l.foldl (fun s (a, bs) => s.later (.scr a bs) (L + i)) s) s =
      s.onMe fun c => { c with pend := c.pend ++ scrWrites L rows }
  | [], s => by simp [State.onMe, scrWrites]
  | (l, i) :: rows, s => by
    rw [List.foldl_cons, State.foldl_scrRows L rows]
    dsimp only
    rw [State.foldl_scr]
    simp [scrWrites, State.onMe]

/-- A word from plain views to scratch owes its writes and holds the pipe. -/
theorem scratchRowsWord_next {g : List Res} {chk : Option Exc} {src : List VRows} {rs : List (Nat × Nat)} {L : Nat}
    {rows : List (List (Nat × List Byte))} {s : State} (hs : ∀ x ∈ src, x.port = none)
    (h : s.me.ready (g ++ src.flatMap (·.res)) (rs.map fun (o, k) => Res.scr o k)) (hc : chk = none)
    (hv : s.me.vbusy = 0) (hw : s.me.writesHeld rs = false) (hl : s.lateStore = false) :
    scratchRowsWord g chk src rs L rows s = .next (s.onMe fun c => { c with
      vbusy := s.shapeRows, pend := c.pend ++ scrWrites L (rows.zip (List.range rows.length)) }) := by
  have hs' : ∀ x ∈ src ++ [], x.port = none := by rwa [List.append_nil]
  unfold scratchRowsWord
  simp only [portsOf_none _ hs, h.1, Option.isSome_none, Bool.false_eq_true, if_false, State.foldl_scrRows]
  exact portWord_next h hc (by rw [hl]; rfl) (by rw [State.slotsHeld_none s hs', hv, hw]; rfl) h.1

/-- A word from plain views to scratch raises its first failing check. -/
theorem scratchRowsWord_raise {g : List Res} {chk : Option Exc} {e : Exc} {src : List VRows} {rs : List (Nat × Nat)} {L : Nat}
    {rows : List (List (Nat × List Byte))} {s : State}
    (h : s.me.ready (g ++ src.flatMap (·.res)) (rs.map fun (o, k) => Res.scr o k)) (hc : chk = some e) :
    scratchRowsWord g chk src rs L rows s = .next (s.raise e) := by
  unfold scratchRowsWord
  simp only [h.1, Option.isSome_none, Bool.false_eq_true, if_false]
  exact actNow_raise h hc

theorem strideCheck_ok {r n : Nat} {b : BitVec 64} (h : b.toNat % 4 = 0 ∧ (1 < r → n ≤ b.toNat)) (gb : BitVec 6) :
    strideCheck r n gb b = none := by
  refine check_false ?_
  rw [h.1]
  by_cases hr : 1 < r
  · simp [Nat.not_lt.2 (h.2 hr)]
  · simp [hr]

theorem strideCheck_bad {r n : Nat} {b : BitVec 64} (h : ¬(b.toNat % 4 = 0 ∧ (1 < r → n ≤ b.toNat))) (gb : BitVec 6) :
    strideCheck r n gb b = some ⟨0x18, 2, gb, b.setWidth 48, 0x2C⟩ := by
  refine check_true ?_
  by_cases h4 : b.toNat % 4 = 0
  · have hr : 1 < r ∧ b.toNat < n := by
      by_contra hr
      exact h ⟨h4, fun h1 => Nat.le_of_not_lt fun h2 => hr ⟨h1, h2⟩⟩
    simp [hr.1, hr.2]
  · simp [h4]

section
variable {s : State} {vd ga gb : BitVec 5} {t : EType}

/-- The stride is whole and the rows do not overlap (R248). -/
def State.strideOk (s : State) (gb : BitVec 5) : Prop :=
  (s.me.gr (gb.setWidth 6)).toNat % 4 = 0 ∧ (1 < s.shapeRows → s.shapeBytes ≤ (s.me.gr (gb.setWidth 6)).toNat)

theorem execVld_eq {o : Nat} (hd : s.plainView vd s.shapeRows s.shapeBytes) (hs : s.strideOk gb)
    (hl : s.rowsLocate (ga.setWidth 6) (gb.setWidth 6) = .ok (.scratch o)) :
    let rs := rowRanges o (s.me.gr (gb.setWidth 6)).toNat s.shapeRows s.shapeBytes
    execVld vd ga gb s = vectorWord ([.g (ga.setWidth 6), .g (gb.setWidth 6)] ++ rs.map fun (o, k) => Res.scr o k) none []
      [s.plainRows vd s.shapeRows s.shapeBytes] (s.me.readsHeld rs) s.shapeRows 6
      [⟨s.plainRows vd s.shapeRows s.shapeBytes, rs.map fun (o, k) => s.ownBytes o k, 0⟩] 0 s := by
  simp only [execVld, strideCheck_ok hs, hl, State.vop_rows hd]
  rfl

theorem execVld_stride (hd : s.plainView vd s.shapeRows s.shapeBytes) (hs : ¬s.strideOk gb) :
    execVld vd ga gb s = vectorWord [.g (ga.setWidth 6), .g (gb.setWidth 6)]
      (some ⟨0x18, 2, gb.setWidth 6, (s.me.gr (gb.setWidth 6)).setWidth 48, 0x2C⟩) []
      [s.plainRows vd s.shapeRows s.shapeBytes] false s.shapeRows 6 [] 0 s := by
  simp only [execVld, strideCheck_bad hs, State.vop_rows hd]
  rfl

theorem execVst_eq {o : Nat} (hd : s.plainView vd s.shapeRows s.shapeBytes) (hs : s.strideOk gb)
    (hl : s.rowsLocate (ga.setWidth 6) (gb.setWidth 6) = .ok (.scratch o)) :
    let rs := rowRanges o (s.me.gr (gb.setWidth 6)).toNat s.shapeRows s.shapeBytes
    execVst vd ga gb s = scratchRowsWord [.g (ga.setWidth 6), .g (gb.setWidth 6)] none
      [s.plainRows vd s.shapeRows s.shapeBytes] rs 6
      ((rs.zip (s.viewBytes vd s.shapeRows s.shapeBytes)).map fun ((o, _), bs) => [(o, bs)]) s := by
  simp only [execVst, strideCheck_ok hs, hl, State.vop_rows hd, State.vread_plainRows]
  rfl

theorem execVst_stride (hd : s.plainView vd s.shapeRows s.shapeBytes) (hs : ¬s.strideOk gb) :
    execVst vd ga gb s = scratchRowsWord [.g (ga.setWidth 6), .g (gb.setWidth 6)]
      (some ⟨0x18, 2, gb.setWidth 6, (s.me.gr (gb.setWidth 6)).setWidth 48, 0x2C⟩)
      [s.plainRows vd s.shapeRows s.shapeBytes] [] 6 [] s := by
  simp only [execVst, strideCheck_bad hs, State.vop_rows hd]
  rfl

/-- The addresses of the elements of a gather or scatter over a plain view of indices. -/
def State.gatherAddrs (s : State) (ga gb : BitVec 5) (t : EType) : List (List Nat) :=
  (s.viewElems t gb s.shapeRows s.shapeBytes (elemsOf t s.shapeBytes)).map fun row =>
    row.map fun k => (s.me.gr (ga.setWidth 6)).toNat + k * (widthOf t / 8)

theorem State.elementAddrs_plain (s : State) (ga gb : BitVec 5) (t : EType) :
    s.elementAddrs (s.me.gr (ga.setWidth 6)).toNat (widthOf t / 8) (widthOf t) (elemsOf t s.shapeBytes)
      (s.plainRows gb s.shapeRows s.shapeBytes) = s.gatherAddrs ga gb t := by
  rw [State.elementAddrs, State.vread_plainRows, State.gatherAddrs, State.viewElems, List.map_map]
  rfl

theorem State.elementExc_none {as : List Nat} {a : BitVec 6} {sz : Nat} (hc : s.me.composed = false)
    (h : ∀ x ∈ as, x + sz ≤ s.me.scrSize) : s.elementExc a sz as = none := by
  have hf : (as.find? fun x => decide (s.me.scrSize < x + sz)) = none :=
    List.find?_eq_none.2 fun x hx => by simpa using h x hx
  simp only [State.elementExc, hc, Bool.false_eq_true, if_false, hf, Option.map_none]

section
variable (hd : s.plainView vd s.shapeRows s.shapeBytes) (hb : s.plainView gb s.shapeRows s.shapeBytes)
  (hw : 16 ≤ widthOf t) (hfit : rowFits t s.shapeBytes = true) (hbase : s.elementBase (ga.setWidth 6) (widthOf t / 8) = none)
  (hexc : s.elementExc (ga.setWidth 6) (widthOf t / 8) (s.gatherAddrs ga gb t).flatten = none)
include hd hb hw hfit hbase hexc

theorem execVgat_eq :
    let es := (s.gatherAddrs ga gb t).flatten.map fun x => (x, widthOf t / 8)
    execVgat vd ga gb t s = vectorWord (.g (ga.setWidth 6) :: es.map fun (o, k) => Res.scr o k) none
      [s.plainRows gb s.shapeRows s.shapeBytes] [s.plainRows vd s.shapeRows s.shapeBytes] (s.me.readsHeld es) s.shapeRows 8
      [⟨s.plainRows vd s.shapeRows s.shapeBytes,
        (s.gatherAddrs ga gb t).map fun row => row.flatMap fun x => s.ownBytes x (widthOf t / 8), 0⟩] 0 s := by
  simp only [execVgat, gatherType, State.vop_rows hd, State.vop_rows hb, State.elementAddrs_plain, hbase, hexc,
    typeCheck_ok (decide_eq_true hw) hfit]
  rfl

theorem execVsct_eq :
    let es := (s.gatherAddrs ga gb t).flatten.map fun x => (x, widthOf t / 8)
    execVsct vd ga gb t s = scratchRowsWord [.g (ga.setWidth 6)] none
      [s.plainRows gb s.shapeRows s.shapeBytes, s.plainRows vd s.shapeRows s.shapeBytes] es 8
      (((s.gatherAddrs ga gb t).zip (s.viewBytes vd s.shapeRows s.shapeBytes)).map fun (row, bs) =>
        row.zip (chunks (widthOf t / 8) bs (elemsOf t s.shapeBytes))) s := by
  simp only [execVsct, gatherType, State.vop_rows hd, State.vop_rows hb, State.elementAddrs_plain, hbase, hexc,
    typeCheck_ok (decide_eq_true hw) hfit, State.vread_plainRows]
  rfl
end

/-- `vgat` of a type of fewer than 16 bits raises before it looks at an address. -/
theorem execVgat_type (hd : s.plainView vd s.shapeRows s.shapeBytes) (hb : s.plainView gb s.shapeRows s.shapeBytes)
    (hw : widthOf t < 16) (h : s.me.ready (.g (ga.setWidth 6) :: s.viewRes gb s.shapeRows s.shapeBytes)
      (s.viewRes vd s.shapeRows s.shapeBytes)) :
    execVgat vd ga gb t s = .next (s.raise ⟨0x16, 3, 0, 0, 0x2C⟩) := by
  have hchk (l) : firstOf (gatherType t s.shapeBytes :: l) = some ⟨0x16, 3, 0, 0, 0x2C⟩ := by
    unfold gatherType typeCheck
    rw [decide_eq_false (Nat.not_le.2 hw)]
    rfl
  simp only [execVgat, State.vop_rows hd, State.vop_rows hb, hchk, Option.isSome_some, if_true]
  refine vectorWord_raise ?_ ?_ rfl
  · exact port_of_two
  · rw [res_of_one, List.flatMap_cons, List.flatMap_nil, List.append_nil]
    exact h

end

/-! The 16 bytes of a view entry, from its base, its pitch and its type. -/

section
variable {x y : BitVec 64} {k : BitVec 5}

/-- The entry that `vview` makes (R254). -/
def viewEntry (x y : BitVec 64) (k : BitVec 5) : BitVec 128 :=
  x.setWidth 128 ||| (y.setWidth 128 <<< 32) ||| (k.setWidth 128 <<< 59)

theorem viewEntry_toNat (hx : x.toNat < 2 ^ 17) (hy : y.toNat < 2 ^ 16) :
    (viewEntry x y k).toNat = x.toNat + y.toNat * 2 ^ 32 + k.toNat * 2 ^ 59 := by
  have hk := k.isLt
  have hxy : x.toNat ||| y.toNat * 2 ^ 32 = x.toNat + y.toNat * 2 ^ 32 := by
    rw [Nat.or_comm, Nat.mul_comm, ← Nat.two_pow_add_eq_or_of_lt (by omega), Nat.add_comm]
  have hxyk : (x.toNat + y.toNat * 2 ^ 32) ||| k.toNat * 2 ^ 59 = x.toNat + y.toNat * 2 ^ 32 + k.toNat * 2 ^ 59 := by
    rw [Nat.or_comm, Nat.mul_comm k.toNat, ← Nat.two_pow_add_eq_or_of_lt (by omega), Nat.add_comm]
  simp only [viewEntry, BitVec.toNat_or, BitVec.toNat_shiftLeft, BitVec.toNat_setWidth, Nat.shiftLeft_eq]
  rw [Nat.mod_eq_of_lt (a := x.toNat) (by omega), Nat.mod_eq_of_lt (a := y.toNat) (by omega),
    Nat.mod_eq_of_lt (a := k.toNat) (by omega), Nat.mod_eq_of_lt (a := y.toNat * _) (by omega),
    Nat.mod_eq_of_lt (a := k.toNat * _) (by omega), hxy, hxyk]

variable (hx : x.toNat < 2 ^ 17) (hy : y.toNat < 2 ^ 16)
include hx hy

theorem viewEntry_base : viewBase (viewEntry x y k) = x.toNat := by
  rw [viewBase, BitVec.extractLsb'_toNat, viewEntry_toNat hx hy, Nat.shiftRight_eq_div_pow]; omega

theorem viewEntry_pitch : viewPitch (viewEntry x y k) = y.toNat := by
  rw [viewPitch, BitVec.extractLsb'_toNat, viewEntry_toNat hx hy, Nat.shiftRight_eq_div_pow]; omega

theorem viewEntry_type : (viewEntry x y k).extractLsb' 59 5 = k := by
  apply BitVec.eq_of_toNat_eq
  have hk := k.isLt
  rw [BitVec.extractLsb'_toNat, viewEntry_toNat hx hy, Nat.shiftRight_eq_div_pow]; omega

theorem viewEntry_port : viewPort (viewEntry x y k) = 0 := by
  have hk := k.isLt
  rw [viewPort, BitVec.extractLsb'_toNat, viewEntry_toNat hx hy, Nat.shiftRight_eq_div_pow]; omega

theorem viewEntry_zero {st len : Nat} (h : (viewEntry x y k).toNat / 2 ^ st % 2 ^ len = 0) :
    ((viewEntry x y k).extractLsb' st len == 0) = true := by
  rw [beq_iff_eq]
  apply BitVec.eq_of_toNat_eq
  rw [BitVec.extractLsb'_toNat, Nat.shiftRight_eq_div_pow, h]
  rfl

theorem viewEntry_reserved : viewReservedZero (viewEntry x y k) = true := by
  have hk := k.isLt
  have he := viewEntry_toNat (k := k) hx hy
  unfold viewReservedZero
  rw [viewEntry_zero hx hy (by omega), viewEntry_zero hx hy (by omega), viewEntry_zero hx hy (by omega),
    viewEntry_zero hx hy (by omega)]
  rfl

end

theorem EType.ofCode_code (t : EType) : EType.ofCode t.code = some t := by
  cases t <;> rfl

/-- A field of the bits from `st` on is zero when the word is below them. -/
theorem extractLsb'_of_lt {w : Nat} {x : BitVec w} {st : Nat} (h : x.toNat < 2 ^ st) (len : Nat) : x.extractLsb' st len = 0 := by
  apply BitVec.eq_of_toNat_eq
  rw [BitVec.extractLsb'_toNat, Nat.shiftRight_eq_div_pow, Nat.div_eq_of_lt h]
  rfl

section
variable {s : State} {vd ga gb : BitVec 5} {t : EType} {k : ViewKind}

/-- An image that a view word takes (R255). -/
def viewImageOk (img : BitVec 128) (k : ViewKind) : Bool :=
  !(!viewReservedZero img || viewPort img == 3 || (viewPort img != 0 && k != .v))

theorem viewImageOk_iff (img : BitVec 128) (k : ViewKind) :
    viewImageOk img k = true ↔ viewReservedZero img = true ∧ viewPort img ≠ 3 ∧ (viewPort img = 0 ∨ k = .v) := by
  simp only [viewImageOk, Bool.not_or, Bool.not_not, Bool.and_eq_true, bne_iff_ne, Bool.not_eq_true', beq_eq_false_iff_ne,
    and_assoc, Bool.and_eq_false_iff, bne_eq_false_iff_eq, ne_eq]

/-- The image that own scratch holds at the address of `ga`. -/
def State.viewImage (s : State) (ga : BitVec 5) : BitVec 128 :=
  BitVec.ofNat 128 (s.ownNat (s.me.gr (ga.setWidth 6)).toNat 16)

theorem execVviewImage_eq (hc : s.me.composed = false) (hal : (s.me.gr (ga.setWidth 6)).toNat % 16 = 0)
    (hin : (s.me.gr (ga.setWidth 6)).toNat + 16 ≤ s.me.scrSize)
    (hr : s.me.readsHeld [((s.me.gr (ga.setWidth 6)).toNat, 16)] = false) :
    execVviewImage vd ga k s = act [.g (ga.setWidth 6), .scr (s.me.gr (ga.setWidth 6)).toNat 16] []
      (firstOf [none, none, check (!viewImageOk (s.viewImage ga) k)
        (operandExc 0x2D 1 (ga.setWidth 6) ((s.viewImage ga).setWidth 64))])
      (decide (s.me.vbusy ≠ 0) || false) ((s.holdPipe 1).later (.view (viewIndex k vd) (s.viewImage ga)) 1) s := by
  have hin' : decide (s.me.scrSize < (s.me.gr (ga.setWidth 6)).toNat + 16) = false := decide_eq_false (Nat.not_lt.2 hin)
  simp only [execVviewImage, hc, Bool.false_eq_true, if_false, hal, hr, hin', decide_eq_true hin, viewImageOk, Bool.not_not]
  rfl

section
variable (hc : s.me.composed = false) (hal : (s.me.gr (ga.setWidth 6)).toNat % 16 = 0)
  (hin : (s.me.gr (ga.setWidth 6)).toNat + 16 ≤ s.me.scrSize)
  (hr : s.me.readsHeld [((s.me.gr (ga.setWidth 6)).toNat, 16)] = false)
  (h : s.me.ready [.g (ga.setWidth 6), .scr (s.me.gr (ga.setWidth 6)).toNat 16] [])
include hc hal hin hr h

theorem execVviewImage_next (hv : s.me.vbusy = 0) (hk : viewImageOk (s.viewImage ga) k = true) :
    execVviewImage vd ga k s = .next ((s.holdPipe 1).later (.view (viewIndex k vd) (s.viewImage ga)) 1) := by
  rw [execVviewImage_eq hc hal hin hr, hk]
  exact act_next h rfl (by rw [hv]; rfl) h.1

theorem execVviewImage_raise (hk : viewImageOk (s.viewImage ga) k = false) :
    execVviewImage vd ga k s = .next (s.raise ⟨0x18, 1, ga.setWidth 6, (s.viewImage ga).setWidth 48, 0x2D⟩) := by
  rw [execVviewImage_eq hc hal hin hr, hk]
  refine act_raise h ?_
  rw [← BitVec.setWidth_setWidth_of_le (s.viewImage ga) (show 48 ≤ 64 by decide)]
  rfl

end

theorem execVview_next (hv : s.me.vbusy = 0) (h : s.me.ready [.g (ga.setWidth 6), .g (gb.setWidth 6)] [])
    (hx : (s.me.gr (ga.setWidth 6)).toNat < 2 ^ 17) (hy : (s.me.gr (gb.setWidth 6)).toNat < 2 ^ 16) :
    execVview vd ga gb t s = .next ((s.holdPipe 1).later
      (.view vd.toNat (viewEntry (s.me.gr (ga.setWidth 6)) (s.me.gr (gb.setWidth 6)) t.code)) 1) := by
  refine act_next h ?_ (decide_eq_false (not_not.2 hv)) h.1
  rw [extractLsb'_of_lt hx, extractLsb'_of_lt hy]
  rfl

theorem execVview_raise (h : s.me.ready [.g (ga.setWidth 6), .g (gb.setWidth 6)] [])
    (hx : 2 ^ 17 ≤ (s.me.gr (ga.setWidth 6)).toNat) :
    execVview vd ga gb t s =
      .next (s.raise ⟨0x18, 1, ga.setWidth 6, (s.me.gr (ga.setWidth 6)).setWidth 48, 0x2D⟩) := by
  refine act_raise h (firstOf_first (check_true (bne_iff_ne.2 fun h0 => ?_)))
  have hlt := (s.me.gr (ga.setWidth 6)).isLt
  have := congrArg BitVec.toNat h0
  rw [BitVec.extractLsb'_toNat, Nat.shiftRight_eq_div_pow] at this
  simp only [BitVec.ofNat_eq_ofNat, BitVec.toNat_ofNat] at this
  omega

end

end Sys2Proof.Machine

namespace Sys2Proof.Proofs
open Sys2Proof Sys2Proof.Machine
set_option Elab.async false

/-- Settles O31: each word is its frame, whose checks decide the outcome; the entry that `vview` makes
has the fields it was given. -/
theorem viewMemoryWords : Obligations.ViewMemoryWords := by
  unfold Obligations.ViewMemoryWords
  intro s vd ga gb t hv hcomp r n a b off stride rs scr lands strideOk
  refine ⟨fun hd hs hl => ⟨fun h hr => ?_, fun h hw hlate => ?_⟩, fun hd hs => ⟨fun h => ?_, fun h => ?_⟩, ?_, ?_,
    fun h => ⟨fun hx hy => ?_, fun hx => ?_⟩, fun w k h => ⟨?_, fun c => ?_⟩⟩
  · refine (execVld_eq hd hs hl : exec (.vld vd ga gb) s = _).trans ?_
    rw [show s.me.readsHeld _ = false from hr]
    exact vectorWord_land (fun _ hx => absurd hx List.not_mem_nil) (by rw [List.flatMap_nil, List.append_nil]; exact h) rfl hv
  · refine (execVst_eq hd hs hl : exec (.vst vd ga gb) s = _).trans ?_
    exact scratchRowsWord_next port_of_one (by rw [res_of_one]; exact h) rfl hv hw hlate
  · refine (execVld_stride hd hs : exec (.vld vd ga gb) s = _).trans ?_
    exact vectorWord_fails (fun _ hx => absurd hx List.not_mem_nil) (by rw [List.flatMap_nil, List.append_nil]; exact h) rfl
  · refine (execVst_stride hd hs : exec (.vst vd ga gb) s = _).trans ?_
    exact scratchRowsWord_raise (by rw [res_of_one]; exact h) rfl
  · intro hd hb hfit sz as es
    refine ⟨fun hw hbase hin => ?_, fun hw h => execVgat_type hd hb hw h⟩
    have hexc := State.elementExc_none (a := a) hcomp hin
    refine ⟨fun h hr => ?_, fun h hwr hlate => ?_⟩
    · refine (execVgat_eq hd hb hw hfit hbase hexc : exec (.vgat vd ga gb t) s = _).trans ?_
      rw [show s.me.readsHeld ((s.gatherAddrs ga gb t).flatten.map fun x => (x, widthOf t / 8)) = false from hr]
      exact vectorWord_land port_of_one (by rw [res_of_one]; exact h) rfl hv
    · refine (execVsct_eq hd hb hw hfit hbase hexc : exec (.vsct vd ga gb t) s = _).trans ?_
      exact scratchRowsWord_next port_of_two (by rw [res_of_two]; exact h) rfl hv hwr hlate
  · intro k hal hin h hr img ok
    exact ⟨fun hk => execVviewImage_next hcomp hal hin hr h hv ((viewImageOk_iff img k).2 hk),
      fun hk => execVviewImage_raise hcomp hal hin hr h (Bool.eq_false_iff.2 (mt (viewImageOk_iff img k).1 hk))⟩
  · exact ⟨viewEntry (s.me.gr a) (s.me.gr b) t.code, viewEntry_base hx hy, viewEntry_pitch hx hy,
      by rw [viewType, viewEntry_type hx hy, EType.ofCode_code], viewEntry_port hx hy, viewEntry_reserved hx hy,
      execVview_next hv h hx hy⟩
  · exact execVview_raise h hx
  · exact act_next h rfl (decide_eq_false (not_not.2 hv)) h.1
  · exact BitVec.setWidth_setWidth_of_le (w ++ k) (show 10 ≤ 64 by decide)

end Sys2Proof.Proofs

end


section

/-! Ring ports as vector operands (03_storage_model.md R70): a move from the pop port and to the push port
of a core-local ring. -/

namespace Sys2Proof.Machine
open Sys2Proof
set_option Elab.async false

/-- What a view must be to name the port of a core-local ring with a slot for the rows (R70). -/
structure State.PortView (s : State) (q : BitVec 3) (n : BitVec 5) (push : Bool) : Prop where
  port : viewPort (s.me.view n.toNat) = (if push then 2 else 1)
  ring : viewRing (s.me.view n.toNat) = q
  pitch : viewPitch (s.me.view n.toNat) % 4 = 0
  apart : 1 < s.shapeRows → s.shapeBytes ≤ viewPitch (s.me.view n.toNat)
  fits : (s.shapeRows - 1) * viewPitch (s.me.view n.toNat) + s.shapeBytes ≤ 2 ^ ringLsize (s.me.ringNow q)
  own : ringRole (s.me.ringNow q) = 0

/-- The addresses of the rows in the slot at the head, or at the tail, of the ring. -/
def State.slotAddrs (s : State) (q : BitVec 3) (n : BitVec 5) (push : Bool) : List Nat :=
  (List.range s.shapeRows).map fun i => ringBase (s.me.ringNow q) + 2 ^ ringLsize (s.me.ringNow q) *
    (if push then ringTail (s.me.ringNow q) else ringHead (s.me.ringNow q)).toNat + i * viewPitch (s.me.view n.toNat)

def State.port (s : State) (q : BitVec 3) (push : Bool) : Port :=
  ⟨q, push, 0, ringPeer (s.me.ringNow q), ringPq (s.me.ringNow q)⟩

/-- The rows of a port as an operand. -/
def State.slotRows (s : State) (q : BitVec 3) (n : BitVec 5) (push : Bool) : VRows :=
  ⟨s.slotAddrs q n push, s.shapeBytes, some (s.port q push)⟩

section
variable {s : State} {q : BitVec 3} {n vd va : BitVec 5} {push : Bool}

theorem State.vop_slot (h : s.PortView q n push) (mj : BitVec 6) :
    s.vop mj n s.shapeRows s.shapeBytes push = ⟨s.slotRows q n push, none, none⟩ :=
  State.vop_port q h.port h.ring h.pitch h.apart h.fits h.own rfl

/-- The byte ranges of the rows of the slot. -/
def State.slotRanges (s : State) (q : BitVec 3) (n : BitVec 5) (push : Bool) : List (Nat × Nat) :=
  (s.slotAddrs q n push).map fun o => (o, s.shapeBytes)

theorem slotBytes_slot : slotBytes [s.slotRows q n push] = s.slotRanges q n push := by
  unfold slotBytes
  rw [List.flatMap_cons, List.flatMap_nil, List.append_nil]
  cases push <;> rfl

theorem slotBytes_plain {rows len : Nat} : slotBytes [s.plainRows n rows len] = [] := rfl

theorem State.slotAddrs_length : (s.slotAddrs q n push).length = s.shapeRows := by
  rw [State.slotAddrs, List.length_map, List.length_range]

theorem State.slotRanges_nonempty : (s.slotRanges q n push).isEmpty = false := by
  have h : 0 < (s.slotRanges q n push).length := by
    rw [State.slotRanges, List.length_map, State.slotAddrs_length]
    exact Nat.succ_pos _
  cases hl : s.slotRanges q n push with
  | nil => rw [hl] at h; exact absurd h (Nat.lt_irrefl 0)
  | cons x l => rfl

theorem State.vread_slot : s.vread (s.slotRows q n push) = (s.slotAddrs q n push).map fun o => s.ownBytes o s.shapeBytes := rfl

/-- A pop port waits for a filled slot. -/
theorem State.portWaits_pop (rows : Nat) : s.portWaits [s.port q false] rows = (ringFill (s.me.ringNow q) == 0) := by
  simp [State.portWaits, State.port, Port.entries]

/-- A push port of a core-local ring waits for a free slot. -/
theorem State.portWaits_push (rows : Nat) : s.portWaits [s.port q true] rows = (ringFree (s.me.ringNow q) == 0) := by
  simp [State.portWaits, State.port, Port.entries]

theorem execVmov_pop (hp : s.PortView q n false) (hd : s.plainView vd s.shapeRows s.shapeBytes) (hv : s.me.vbusy = 0)
    (ha : s.me.ahead = none) :
    execVmov vd n s = portWord [] (s.viewRes vd s.shapeRows s.shapeBytes) none (ringFill (s.me.ringNow q) == 0)
      (s.me.readsHeld (s.slotRanges q n false))
      ((s.later (.ringPop q 1) 1).rowsLand vd s.shapeRows s.shapeRows 4
        ((s.slotAddrs q n false).map fun o => s.ownBytes o s.shapeBytes) 0) s := by
  simp only [execVmov, State.vop_slot hp, State.vop_rows hd, State.vread_slot]
  refine (vectorWord_port (p := s.port q false) rfl ha).trans ?_
  rw [State.portWaits_pop, State.slotsHeld, slotBytes_slot, slotBytes_plain, hv]
  simp only [List.flatMap_cons, List.flatMap_nil, List.append_nil, List.isEmpty_nil, Bool.not_true, Bool.false_and,
    Bool.or_false, ne_eq, not_true_eq_false, decide_false, Bool.false_or]
  rfl

/-- The rows of a move into the slot at the tail, one a cc from 4 cc on. -/
def State.slotFilled (s : State) (q : BitVec 3) (n va : BitVec 5) : State :=
  ((s.later (.ringTake q) 1).onMe fun c => { c with
    vbusy := s.shapeRows
    pend := c.pend ++ ((s.slotAddrs q n true).zip ((s.viewBytes va s.shapeRows s.shapeBytes).zip
      (List.range s.shapeRows))).map (fun (o, bs, i) => ⟨.scr o bs, 4 + i⟩) }).later (.ringFilled q) (s.shapeRows + 3)

/-- Rows beside a list of as many addresses, with their positions. -/
theorem zip_zip_range {α β γ : Type} (f : α → β → Nat → γ) : ∀ (l : List α) (m : List β) (ks : List Nat),
    ((l.zip m).zip ks).map (fun x => f x.1.1 x.1.2 x.2) = (l.zip (m.zip ks)).map fun (a, b, k) => f a b k
  | [], _, _ => rfl
  | _ :: _, [], _ => rfl
  | _ :: _, _ :: _, [] => rfl
  | _ :: l, _ :: m, _ :: ks => by
    simp only [List.zip_cons_cons, List.map_cons]
    rw [zip_zip_range f l m ks]

theorem State.vwrite_slot : ((s.portsAdvance [s.port q true]).holdPipe s.shapeRows).vwrite (s.slotRows q n true)
    (s.viewBytes va s.shapeRows s.shapeBytes) 4 0 = s.slotFilled q n va := by
  have hlen : ((s.slotAddrs q n true).zip (s.viewBytes va s.shapeRows s.shapeBytes)).length = s.shapeRows := by
    rw [List.length_zip, State.slotAddrs_length, State.viewBytes_length, Nat.min_self]
  have hlast : 4 + (s.shapeRows - 1) = s.shapeRows + 3 := by
    have : 0 < s.shapeRows := Nat.succ_pos _
    omega
  have hzip := zip_zip_range (fun a bs i => (⟨.scr a bs, 4 + i⟩ : Pend)) (s.slotAddrs q n true)
    (s.viewBytes va s.shapeRows s.shapeBytes) (List.range s.shapeRows)
  simp only [State.vwrite, State.slotRows, State.port, State.slotFilled, hlen, hlast, State.scrRows_eq, ← hzip]
  simp [State.portsAdvance, State.holdPipe, State.later, Core.later, State.onMe]

theorem execVmov_push (hp : s.PortView q n true) (ha' : s.plainView va s.shapeRows s.shapeBytes) (hv : s.me.vbusy = 0)
    (ha : s.me.ahead = none) :
    execVmov n va s = portWord (s.viewRes va s.shapeRows s.shapeBytes) [] none
      ((ringFree (s.me.ringNow q) == 0) || s.lateStore) (s.me.writesHeld (s.slotRanges q n true)) (s.slotFilled q n va) s := by
  simp only [execVmov, State.vop_slot hp, State.vop_rows ha', State.vread_plainRows]
  refine (vectorWord_port (p := s.port q true) rfl ha).trans ?_
  rw [State.portWaits_push, State.slotsHeld, slotBytes_slot, slotBytes_plain, hv, State.slotRanges_nonempty, List.foldl_cons,
    List.foldl_nil, State.vwrite_slot, res_of_one]
  rfl

/-- A port word without a failing check waits for its ports, and for what holds their slots. -/
theorem portWord_held {src dst : List Res} {short wait : Bool} {eff : State} (h : s.me.ready src dst)
    (hw : short = true ∨ (wait = true ∧ s.me.issue.commit = false)) :
    portWord src dst none short wait eff s = .next (s.stall .waiting) := by
  refine actNow_wait h rfl ?_
  rcases hw with hw | ⟨hw, hc⟩
  · rw [hw, Bool.true_or]
  · rw [hw, hc, Bool.true_or, Bool.not_false, Bool.true_and, Bool.or_true]

end

end Sys2Proof.Machine

namespace Sys2Proof.Proofs
open Sys2Proof Sys2Proof.Machine
set_option Elab.async false

/-- Settles O32: a move from or to a port is a port word that waits for the ring and for the slot. -/
theorem portOperands : Obligations.PortOperands := by
  unfold Obligations.PortOperands
  intro s vd va q n push r b v h slot at_ bytes hport hring hpitch hapart hfits hown hv hc
  have hp : s.PortView q n push := ⟨hport, hring, hpitch, hapart, hfits, hown⟩
  refine ⟨fun hpush hn hd hr => ?_, fun hpush hn ha hr => ?_⟩
  · subst hpush hn
    have hmov : exec (.vmov vd va) s = _ := execVmov_pop hp hd hv hr.1
    refine ⟨fun hfill hheld => hmov.trans (portWord_next hr rfl (beq_eq_false_iff_ne.2 hfill) hheld
      ((State.rowsLand_ahead _ _ _ _ _ _ _).trans hr.1)), fun hw => hmov.trans (portWord_held hr ?_)⟩
    exact hw.imp (fun h0 => beq_iff_eq.2 h0) fun hw => hw
  · subst hpush hn
    have hmov : exec (.vmov vd va) s = _ := execVmov_push hp ha hv hr.1
    refine ⟨fun hfree hheld hlate => hmov.trans (portWord_next hr rfl ?_ hheld hr.1), fun hw => hmov.trans (portWord_held hr ?_)⟩
    · rw [hlate, beq_eq_false_iff_ne.2 hfree]; rfl
    · rw [Bool.or_eq_true, beq_iff_eq, or_assoc]
      exact hw

end Sys2Proof.Proofs

end


section

/-! The matrix words (11_matrix.md R256 to R270): identifiers, masks, the accumulator's words, and a
product up to its barrier. -/

namespace Sys2Proof.Machine
open Sys2Proof
set_option Elab.async false

theorem Core.noMatrix_none {c : Core} (h : c.composed = false) (mj : BitVec 6) : c.noMatrix mj = none := check_false h

/-- A mask names the core when it meets the core's bit. -/
theorem Core.ownBit_and (c : Core) (m : BitVec 8) : (m &&& c.ownBit == 0) = !m.getLsbD (c.id.num % 8) := by
  have hlt : c.id.num % 8 < 8 := Nat.mod_lt _ (by decide)
  have hne : BitVec.twoPow 8 (c.id.num % 8) ≠ 0#8 := fun h0 => by
    have := congrArg (BitVec.getLsbD · (c.id.num % 8)) h0
    simp [BitVec.getLsbD_twoPow, hlt] at this
  have hbit : m &&& c.ownBit = if m.getLsbD (c.id.num % 8) then BitVec.twoPow 8 (c.id.num % 8) else 0#8 :=
    BitVec.and_twoPow m _
  rw [hbit]
  cases m.getLsbD (c.id.num % 8) with
  | false => rfl
  | true => exact beq_eq_false_iff_ne.2 hne

section
variable {s : State} {t ga rd : BitVec 6} {sel : BitVec 4} {m : BitVec 8} {ad : BitVec 3}

theorem execTidset_eq {off : Nat} (hc : s.me.composed = false)
    (hl : s.locate 0x33 ga ownSpace (s.me.gr ga) 64 64 = .ok (.scratch off)) (hr : s.me.readsHeld [(off, 64)] = false) :
    let d := BitVec.ofNat 512 (s.ownNat off 64)
    execTidset t ga s = act [.g ga, .scr off 64] [.t t] (check (!tdOk d) ⟨0x17, 1, t, 0, 0x33⟩) false
      (s.later (.t t d) 4) s := by
  simp only [execTidset, s.me.noMatrix_none hc, hl, Loc.off, hr, Bool.not_false, Bool.true_and]
  rfl

/-- `tidq` reads the stated field (R258). -/
theorem tidField_eq (e : BitVec 512) (sel : BitVec 4) :
    tidField e sel = ([tdDword (e &&& tidFields) 0, BitVec.ofNat 64 (tdRows e), BitVec.ofNat 64 (tdCols e),
      BitVec.ofNat 64 (tdPitch e), tdDword e 3, tdDword e 4, tdDword e 5, tdDword e 6, tdDword e 7,
      BitVec.ofNat 64 (tdStored e), BitVec.ofNat 64 (tdScales e)]).getD sel.toNat (BitVec.ofNat 64 (tdRowBytes e)) := by
  rcases sel with ⟨⟨n, hn⟩⟩
  interval_cases n <;> rfl

/-- The checks of an accumulator for a word that takes both types (R260). -/
theorem Core.accCheck_none (c : Core) (mj : BitVec 6) (k : BitVec 3) : c.accCheck mj k none = none ↔
    (viewType (c.view (40 + k.toNat)) = some .f32 ∨ viewType (c.view (40 + k.toNat)) = some .i32) ∧
      c.accBase k % 512 = 0 ∧ viewPitch (c.view (40 + k.toNat)) = 512 ∧ c.accBase k + 0x2000 ≤ viewEnd c.id.num := by
  simp only [Core.accCheck, Core.accBase, firstOf_none, check_none, Bool.not_eq_false', Bool.or_eq_true, beq_iff_eq,
    Bool.or_eq_false_iff, bne_eq_false_iff_eq, decide_eq_false_iff_not, Nat.not_lt, and_assoc]
  simp [firstOf]

/-- A word of the slice path waits while the path is taken, and takes it otherwise (R262). -/
theorem sliceWord_next {chk : Option Exc} {cmd : SliceCmd} (hc : chk = none)
    (hw : s.me.slice.isSome = true → s.me.issue.commit = false)
    (h : s.me.ready (cmd.reads.map fun (o, n) => Res.regs o n) (cmd.writes.map fun (o, n) => Res.regs o n)) :
    sliceWord [] chk cmd 0 s =
      .next (if s.me.slice.isSome then s.stall .waiting else s.onMe fun c => { c with slice := some cmd }) := by
  unfold sliceWord
  cases hs : s.me.slice with
  | none => exact act_next h hc rfl h.1
  | some x => exact act_wait h (hw (by rw [hs]; rfl)) hc rfl

end

/-! A product: its checks, what it leaves at the barrier, and how it issues. -/

/-- The operands of a product word. -/
structure ProductArgs where
  sparse : Bool
  ad : BitVec 3
  ta : BitVec 6
  tb : BitVec 6
  sa : Bool
  sb : Bool
  sat : Bool
  acc : Bool
  fd : Bool
  rsum : Bool
  csum : Bool
  sv : BitVec 3

namespace ProductArgs
variable (x : ProductArgs) (s : State)

def mj : BitVec 6 := if x.sparse then 0x31 else 0x30
def role : Role := if x.sparse then .sparseA else .a
def word : Res? := productWord x.sparse x.ad x.ta x.tb x.sa x.sb x.sat x.acc x.fd x.rsum x.csum x.sv s
def float : Bool := ((tdType (s.me.tid x.ta)).map isFloat).getD false
def sideView : BitVec 5 := 24 + x.sv.setWidth 5
def side : Nat := viewBase (s.me.view x.sideView.toNat)

/-- What waits at the barrier (R263). -/
def product : Product :=
  ⟨x.sparse, x.ad, s.me.resolveTile (s.me.tid x.ta), s.me.resolveTile (s.me.tid x.tb), x.ta, x.tb, x.sa, x.sb, x.sat, x.acc, x.fd,
    x.rsum, x.csum, x.side s, s.me.accBase x.ad, s.me.csr.mgamma, s.granule, s.me.gang.getD s.me.ownBit, s.me.issue.word⟩

def src (a b : Operand) : List Res := [.t x.ta, .t x.tb] ++
  (a.spans ++ b.spans ++ (if x.acc then [(s.me.accBase x.ad, 0x2000)] else [])).map fun (o, n) => Res.regs o n

def dst : List Res :=
  ((s.me.accBase x.ad, 0x2000) :: (if x.rsum || x.csum then [(x.side s, 576)] else [])).map fun (o, n) => Res.regs o n

/-- The checks of a product that its descriptors and its accumulator pass. -/
structure Checked (a b : Operand) : Prop where
  plain : s.me.composed = false
  okA : tdOk (s.me.tid x.ta) = true
  okB : tdOk (s.me.tid x.tb) = true
  acc : s.me.accCheck x.mj x.ad (some (x.float s)) = none
  sides : x.rsum = true ∨ x.csum = true → s.me.blockCheck x.mj x.sideView (if x.float s then .f32 else .i32) 576 = none
  tileA : s.me.tileCheck x.mj x.role (s.me.tid x.ta) = none
  tileB : s.me.tileCheck x.mj .b (s.me.tid x.tb) = none
  opA : s.me.operand x.mj x.role x.sa (tdTv (s.me.tid x.ta) ≠ 0) x.ta (s.me.resolveTile (s.me.tid x.ta)) = .ok a
  opB : s.me.operand x.mj .b x.sb (tdTv (s.me.tid x.tb) ≠ 0) x.tb (s.me.resolveTile (s.me.tid x.tb)) = .ok b

variable {x s} {a b : Operand}

/-- A product whose descriptors pass is a word that checks its pair of operands and goes to the barrier. -/
theorem word_eq (h : x.Checked s a b) :
    x.word s = act (x.src s a b) (x.dst s)
      (firstOf [check (isFloat a.t != isFloat b.t || a.k != b.k) ⟨0x17, 5, x.tb, 0, x.mj⟩,
        check (x.float s && (x.sa || x.sb)) (operandExc x.mj 2 0 1)])
      (!s.me.granted && s.me.product.isSome)
      (if s.me.granted then s.onMe fun c => { c with granted := false, gang := none }
        else (s.onMe fun c => { c with atBarrier := some (x.product s) }).stall .waiting) s := by
  obtain ⟨hc, hA, hB, hacc, hsides, htA, htB, hopA, hopB⟩ := h
  simp only [mj, role, float] at hacc htA htB hopA hopB
  cases hs : (x.rsum || x.csum) with
  | false =>
    simp only [word, productWord, s.me.noMatrix_none hc, hA, hB, roleA, hacc, hs, htA, htB, hopA, hopB, if_true, Bool.not_true,
      Bool.false_eq_true, if_false, check_false, firstOf, bothOperands, dst]
    rfl
  | true =>
    have hside : s.me.blockCheck (if x.sparse then 0x31 else 0x30) (24 + x.sv.setWidth 5)
        (if ((tdType (s.me.tid x.ta)).map isFloat).getD false then .f32 else .i32) 576 = none := hsides (by simpa using hs)
    simp only [word, productWord, s.me.noMatrix_none hc, hA, hB, roleA, hacc, hs, hside, htA, htB, hopA, hopB, if_true,
      Bool.not_true, check_false, firstOf, bothOperands, dst]
    rfl

section
variable (h : x.Checked s a b) (hr : s.me.ready (x.src s a b) (x.dst s))
include h hr

/-- Operands whose types or K differ raise class 0x17 sub 5 (R264). -/
theorem word_pair (hab : isFloat a.t ≠ isFloat b.t ∨ a.k ≠ b.k) :
    x.word s = .next (s.raise ⟨0x17, 5, x.tb, 0, x.mj⟩) := by
  rw [word_eq h]
  exact act_raise hr (firstOf_first (check_true (by rwa [Bool.or_eq_true, bne_iff_ne, bne_iff_ne])))

variable (ht : isFloat a.t = isFloat b.t) (hk : a.k = b.k) (hf : x.float s = true → x.sa = false ∧ x.sb = false)
include ht hk hf

theorem checks_none : firstOf [check (isFloat a.t != isFloat b.t || a.k != b.k) ⟨0x17, 5, x.tb, 0, x.mj⟩,
    check (x.float s && (x.sa || x.sb)) (operandExc x.mj 2 0 1)] = none := by
  refine firstOf_two (check_false ?_) (check_false ?_)
  · rw [ht, hk, bne_self_eq_false, bne_self_eq_false, Bool.or_self]
  · cases hfl : x.float s with
    | false => rfl
    | true => rw [(hf hfl).1, (hf hfl).2]; rfl

theorem word_granted (hg : s.me.granted = true) :
    x.word s = .next (s.onMe fun c => { c with granted := false, gang := none }) := by
  rw [word_eq h, hg, if_pos rfl]
  exact act_next hr (checks_none h hr ht hk hf) rfl hr.1

theorem word_barrier (hg : s.me.granted = false) (hp : s.me.product = none) :
    x.word s = .next ((s.onMe fun c => { c with atBarrier := some (x.product s) }).stall .waiting) := by
  rw [word_eq h, hg, hp, if_neg Bool.false_ne_true]
  exact act_next hr (checks_none h hr ht hk hf) rfl hr.1

theorem word_waits (hg : s.me.granted = false) (hp : s.me.product ≠ none) (hcm : s.me.issue.commit = false) :
    x.word s = .next (s.stall .waiting) := by
  rw [word_eq h, hg]
  exact act_wait hr hcm (checks_none h hr ht hk hf) (Option.isSome_iff_ne_none.2 hp)

end

end ProductArgs

end Sys2Proof.Machine

namespace Sys2Proof.Proofs
open Sys2Proof Sys2Proof.Machine
set_option Elab.async false

/-- Settles O33: the words of identifiers, masks and accumulators are their frames; a product goes through
its checks to the barrier. -/
theorem matrixWords : Obligations.MatrixWords := by
  unfold Obligations.MatrixWords
  refine ⟨?_, ?_⟩
  · intro s t ga rd sel m ad hc off d e base all
    refine ⟨fun hl h hr => ⟨fun hd => ?_, fun hd => ?_⟩, fun h => ?_, fun h => ⟨fun hm => ?_, fun hm => ?_⟩,
      fun mj => s.me.accCheck_none mj ad, fun hacc => ⟨fun hw h => ?_, fun hw h => ?_⟩⟩
    · exact (execTidset_eq hc hl hr : exec (.tidset t ga) s = _).trans (act_next h (check_false (by rw [hd]; rfl)) rfl h.1)
    · exact (execTidset_eq hc hl hr : exec (.tidset t ga) s = _).trans (act_raise h (check_true (by rw [hd]; rfl)))
    · rw [← tidField_eq]
      exact (act_next h (s.me.noMatrix_none hc _) rfl h.1 : execTidq t rd sel s = _)
    · exact (act_next h (firstOf_two (s.me.noMatrix_none hc _) (check_false (by rw [s.me.ownBit_and, hm]; rfl))) rfl h.1 :
        execMgang m s = _)
    · refine (act_raise h ((firstOf_second (s.me.noMatrix_none hc _)).trans (check_true (by rw [s.me.ownBit_and, hm]; rfl))) :
        execMgang m s = _).trans ?_
      rw [operandExc, BitVec.setWidth_setWidth_of_le m (by decide)]
    · exact (sliceWord_next (firstOf_two (s.me.noMatrix_none hc _) hacc) hw h : execMzero ad s = _)
    · exact (sliceWord_next (firstOf_two (s.me.noMatrix_none hc _) hacc) hw h : execMfade ad s = _)
  · intro s ad sv ta tb sa sb sat acc fd rsum csum a b x hx
    obtain ⟨i, mj, sparse⟩ := x
    let y : ProductArgs := ⟨sparse, ad, ta, tb, sa, sb, sat, acc, fd, rsum, csum, sv⟩
    have hi : exec i s = y.word s ∧ mj = y.mj := by
      simp only [List.mem_cons, Prod.mk.injEq, List.not_mem_nil, or_false] at hx
      obtain ⟨rfl, rfl, rfl⟩ | ⟨rfl, rfl, rfl⟩ := hx <;> exact ⟨rfl, rfl⟩
    obtain ⟨hi, rfl⟩ := hi
    intro c mj da db fl ra rb role vs base side own p reads writes regs hc hA hB hacc hsides htA htB hopA hopB hr
    have h : y.Checked s a b := ⟨hc, hA, hB, hacc, hsides, htA, htB, hopA, hopB⟩
    refine ⟨fun ht hk hf => ⟨fun hg => ?_, fun hg hp => ?_, fun hg hp hcm => ?_⟩, fun hab => ?_⟩
    · exact hi.trans (y.word_granted h hr ht hk hf hg)
    · exact hi.trans (y.word_barrier h hr ht hk hf hg hp)
    · exact hi.trans (y.word_waits h hr ht hk hf hg hp hcm)
    · exact hi.trans (y.word_pair h hr hab)

end Sys2Proof.Proofs

end


section

/-! The drains (11_matrix.md R271 to R275): a command given to the slice path, and how it ends. -/

namespace Sys2Proof.Machine
open Sys2Proof
set_option Elab.async false

section
variable {s : State} {ad : BitVec 3} {t ga : BitVec 6} {vp : BitVec 5} {rm : Option RMode} {sat : Bool}

/-- The state in which the slice path has taken a command, with `k` draws counted. -/
def State.sliceTaken (s : State) (cmd : SliceCmd) (k : Nat) : State :=
  if k = 0 then s.onMe fun c => { c with slice := some cmd }
  else (s.onMe fun c => { c with slice := some cmd }).later (.srAdv (s.me.csr.srcnt + BitVec.ofNat 32 k)) 1

/-- A word of the slice path whose checks pass takes the free path. -/
theorem sliceWord_takes {g : List Res} {chk : Option Exc} {cmd : SliceCmd} (hc : chk = none) (hs : s.me.slice = none)
    (h : s.me.ready (g ++ cmd.reads.map fun (o, n) => Res.regs o n) (cmd.writes.map fun (o, n) => Res.regs o n)) (k : Nat) :
    sliceWord g chk cmd k s = .next (s.sliceTaken cmd k) := by
  unfold sliceWord
  refine act_next h hc (by rw [hs]; rfl) ?_
  split
  · exact h.1
  · exact h.1

/-- The rows of a drain, each with its number. -/
def State.numbered (s : State) (ad : BitVec 3) (vp : BitVec 5) (rm : Option RMode) (sat : Bool) (d : BitVec 512) :
    List (DrainRow × Nat) := (s.drainRows ad vp rm sat d).zip (List.range (tdRows d))

/-- The command of `mdrain` (R271). -/
def State.drainCmd (s : State) (ad : BitVec 3) (vp : BitVec 5) (rm : Option RMode) (sat : Bool) (d : BitVec 512) : SliceCmd :=
  ⟨.mdrain, (s.numbered ad vp rm sat d).flatMap fun (r, i) =>
    (⟨i, 4 + i, tdBase d + i * tdPitch d, r.bytes, tdCols d * widthOf ((tdType d).getD .i8)⟩ : SliceRow) ::
      (if r.scales.isEmpty then [] else
        [(⟨i, 4 + i, tdBscale d + i * tdScales d, r.scales, 8 * r.scales.length⟩ : SliceRow)]),
    20, none, [], none, s.granule, s.me.drainReads ad vp d, tdSpans .drain d⟩

theorem execMdrain_eq (hc : s.me.drainCheck 0x34 .drain t ad vp (s.me.tid t) (s.me.resolveTile (s.me.tid t)) none = none) :
    execMdrain ad t vp rm sat s = sliceWord [.t t] none (s.drainCmd ad vp rm sat (s.me.resolveTile (s.me.tid t)))
      (s.drainDraws ad rm (s.me.resolveTile (s.me.tid t))) s := by
  simp only [execMdrain, hc, Option.isSome_none, Bool.false_eq_true, if_false]
  rfl

/-- The header of the wake message of `mdrainr`. -/
def State.wakeHeader (s : State) (ga : BitVec 6) : BitVec 64 := s.me.gr (ga + 1)

/-- The command of `mdrainr` (R273). -/
def State.drainrCmd (s : State) (ad : BitVec 3) (ga : BitVec 6) (vp : BitVec 5) (rm : Option RMode) (sat : Bool) (d : BitVec 512)
    (num off : Nat) : SliceCmd :=
  let n := storedBytes ((tdType d).getD .i8) (tdCols d)
  ⟨.mdrainr, (s.numbered ad vp rm sat d).flatMap fun (r, i) =>
    ((chunks 256 r.bytes (ceilDiv n 256)).zip (List.range (ceilDiv n 256))).map fun (bs, j) =>
      (⟨i, 4 + i, off + i * tdPitch d + 256 * j, bs, tdCols d * widthOf ((tdType d).getD .i8) - 2048 * j⟩ : SliceRow),
    0, some num, [], some (s.wakeHeader ga, s.me.grRun (ga + 2) (headerArgc (s.wakeHeader ga))), s.granule,
    s.me.drainReads ad vp d, []⟩

/-- The checks of a wake header that its word passes (R273). -/
structure State.WakeOk (s : State) (ga : BitVec 6) : Prop where
  last : ga ≠ 63
  reserved : headerReserved (s.wakeHeader ga) = false
  argc : headerArgc (s.wakeHeader ga) ≤ 6
  line : (s.wakeHeader ga).getLsbD 15 = true →
    lineOk ((s.wakeHeader ga).extractLsb' 32 12).toNat ((s.wakeHeader ga).extractLsb' 16 13).toNat = true
  run : ga.toNat + 1 + headerArgc (s.wakeHeader ga) ≤ 63
  home : s.names s.me.id ((s.wakeHeader ga).extractLsb' 32 12).toNat = true

theorem execMdrainr_eq {num off : Nat} (hl : s.drainLocate ga (s.me.gr ga) = .ok (.remote num off)) (hw : s.WakeOk ga)
    (hp : s.me.composed = false)
    (hend : off + (tdRows (s.me.resolveTile (s.me.tid t)) - 1) * tdPitch (s.me.resolveTile (s.me.tid t)) +
      storedBytes ((tdType (s.me.resolveTile (s.me.tid t))).getD .i8) (tdCols (s.me.resolveTile (s.me.tid t))) ≤ 0x80000)
    (hc : s.me.drainCheck 0x35 .drainRemote t ad vp (s.me.tid t) (s.me.resolveTile (s.me.tid t)) none = none) :
    execMdrainr ad t ga vp rm sat s =
      sliceWord ([.t t, .g ga, .g (ga + 1)] ++ resRun (ga + 2) (headerArgc (s.wakeHeader ga))) none
        (s.drainrCmd ad ga vp rm sat (s.me.resolveTile (s.me.tid t)) num off)
        (s.drainDraws ad rm (s.me.resolveTile (s.me.tid t))) s := by
  obtain ⟨hlast, hres, hargc, hline, hrun, hhome⟩ := hw
  simp only [State.wakeHeader] at hres hargc hline hrun hhome ⊢
  have h6 := Nat.min_eq_left hargc
  have hgt := decide_eq_false (Nat.not_lt.2 hargc)
  have hrun' := decide_eq_false (Nat.not_lt.2 hrun)
  have hend' : decide (0x80000 < (Loc.remote num off).off + _ + _) = false := decide_eq_false (Nat.not_lt.2 hend)
  have hline' : ((s.me.gr (ga + 1)).getLsbD 15 &&
      !lineOk ((s.me.gr (ga + 1)).extractLsb' 32 12).toNat ((s.me.gr (ga + 1)).extractLsb' 16 13).toNat) = false := by
    cases hb : (s.me.gr (ga + 1)).getLsbD 15 with
    | false => rfl
    | true => rw [hline hb]; rfl
  unfold execMdrainr
  dsimp only
  rw [s.me.noMatrix_none hp, hl, if_neg hlast, h6]
  dsimp only
  rw [hres, hgt, hrun', hline', s.coreCheck_none hhome, hend', check_false rfl, hc, beq_eq_false_iff_ne.2 hlast]
  rfl

/-- How a command of the slice path ends: a local one with its rows out and its cc over. -/
def Core.sliceEnd (c : Core) : Core :=
  match c.slice with
  | some k => if k.dst = none ∧ k.rows = [] ∧ k.ends = 0 then { c with slice := none } else c
  | none => c

theorem execSliceComplete_eq {id : CoreId} (he : s.ev = .core id) :
    execSliceComplete s = .next (s.updCore id Core.sliceEnd) := by
  simp only [execSliceComplete, he, Option.isNone_iff_eq_none, List.isEmpty_iff]
  rfl

/-- A wake waits while its core is stopped (R275). -/
theorem execMdrainrWake_stopped (he : s.ev = .core s.me.id) (hu : s.unstopped s.me.id = false) : execMdrainrWake s = .next s := by
  simp only [execMdrainrWake, he, hu, Bool.false_and, Bool.false_eq_true, if_false]
  exact congrArg _ (State.updCore_self s fun c => c)

/-- A command whose beats are acknowledged sends its wake message and ends (R273). -/
theorem execMdrainrWake_sends {k : SliceCmd} {h : BitVec 64} {args : List (BitVec 64)} (he : s.ev = .core s.me.id)
    (hk : s.me.slice = some k) (hrows : k.rows = []) (hdst : k.dst ≠ none) (hacks : k.acks = [])
    (hw : k.wake = some (h, args)) (hb : s.me.sb.length < 32) (hu : s.unstopped s.me.id = true) :
    execMdrainrWake s = .next (s.onMe fun c =>
      { c.buffer (.send (.core (h.extractLsb' 32 12).toNat) (.message h args)) true with slice := none }) := by
  have hwakes : s.me.wakes = true := by
    simp only [Core.wakes, hk, hrows, hacks, List.isEmpty_nil, Option.isSome_iff_ne_none.2 hdst, Bool.and_self, Bool.true_and,
      Core.sbFull, Bool.not_eq_true', decide_eq_false_iff_not, Nat.not_le]
    exact hb
  simp only [execMdrainrWake, he, State.updCore_self, State.onMe, hu, hwakes, hk, hw, Option.bind_some, Bool.and_self, if_true]

end

end Sys2Proof.Machine

namespace Sys2Proof.Proofs
open Sys2Proof Sys2Proof.Machine
set_option Elab.async false

/-- Settles O34: a drain is a word of the slice path with its command; the events end it. -/
theorem drainWords : Obligations.DrainWords := by
  unfold Obligations.DrainWords
  intro s ad t ga vp rm sat c d dt bits regs draws gives rows
  have hdraws : draws = s.drainDraws ad rm d := by
    simp only [draws, State.drainDraws]; rfl
  refine ⟨fun hs hc h => ?_, fun num off ga1 hga hlast hl => ?_, fun id he => execSliceComplete_eq he,
    fun k h args he hk hrows hdst hacks hw hb ha => ⟨fun hu => execMdrainrWake_stopped he hu, fun hu => ?_⟩⟩
  · show exec _ s = _
    rw [hdraws]
    refine (execMdrain_eq hc : exec (.mdrain ad t vp rm sat) s = _).trans ((sliceWord_takes rfl hs h _).trans ?_)
    simp only [State.drainCmd, List.isEmpty_iff]
    rfl
  · subst hga
    intro n h argc home hs hp hend hc hres hargc hline hrun hhome hr
    show exec _ s = _
    rw [hdraws]
    exact (execMdrainr_eq hl ⟨hlast, hres, hargc, hline, hrun, hhome⟩ hp hend hc : exec (.mdrainr ad t ga vp rm sat) s = _).trans
      (sliceWord_takes rfl hs hr _)
  · refine (execMdrainrWake_sends he hk hrows hdst hacks hw hb hu).trans ?_
    rw [State.onMe, Core.buffer_eq ha]
    rfl

end Sys2Proof.Proofs

end


section

/-! The joint array, its purses and the watchdog (11_matrix.md R260 to R268, 14_scheduling.md R14, R326,
R393 to R395). -/

namespace Sys2Proof.Machine
open Sys2Proof
set_option Elab.async false

/-! ## Cores changed one after another -/

theorem State.updCore_same (s : State) (id : CoreId) : s.updCore id (fun c => c) = s := by
  unfold State.updCore
  split
  · rfl
  · simp

/-- A walk that changes the core `at_ j` by `f j` leaves every core what its own changes make of it. -/
theorem State.foldl_updCore_each (f : Nat → Core → Core) (hf : ∀ j c, (f j c).id = c.id) (at_ : Nat → CoreId) (id : CoreId) :
    ∀ (l : List Nat) (s : State), (l.foldl (fun t j => t.updCore (at_ j) (f j)) s).core? id =
      (s.core? id).map fun c => (l.filter fun j => id = at_ j).foldl (fun c j => f j c) c
  | [], s => by simp
  | j :: l, s => by
    rw [List.foldl_cons, State.foldl_updCore_each f hf at_ id l, State.updCore_core? _ _ _ _ (hf j), Option.map_map]
    by_cases h : id = at_ j <;> simp [h, Function.comp_def]

theorem State.foldl_updCore_each_purses (f : Nat → Core → Core) (at_ : Nat → CoreId) :
    ∀ (l : List Nat) (s : State), (l.foldl (fun t j => t.updCore (at_ j) (f j)) s).purses = s.purses
  | [], _ => rfl
  | j :: l, s => by
    rw [List.foldl_cons, State.foldl_updCore_each_purses f at_ l]
    unfold State.updCore
    split <;> rfl

/-- Of the eight cores of a column at most one is the core `id`, the one of its number. -/
theorem ColId.filter_coreAt (l : ColId) (id : CoreId) : ((List.range 8).filter fun j => id = ColId.coreAt l j) =
    if id = ColId.coreAt l (id.num % 8) then [id.num % 8] else [] := by
  have hlt : id.num % 8 < 8 := Nat.mod_lt _ (by decide)
  by_cases h : id = ColId.coreAt l (id.num % 8)
  · have hj : ∀ j ∈ List.range 8, decide (id = ColId.coreAt l j) = (j == id.num % 8) := by
      intro j hj
      rw [List.mem_range] at hj
      rw [Bool.eq_iff_iff, decide_eq_true_iff, beq_iff_eq]
      refine ⟨fun hid => ?_, fun hid => hid ▸ h⟩
      have hnum : id.num = 8 * l.lcol + j := congrArg CoreId.num hid
      omega
    rw [if_pos h, List.filter_congr hj, List.filter_beq, List.count_eq_one_of_mem List.nodup_range (List.mem_range.2 hlt)]
    rfl
  · rw [if_neg h, List.filter_eq_nil_iff]
    intro j hj hid
    rw [List.mem_range] at hj
    have hid := of_decide_eq_true hid
    have hnum : id.num = 8 * l.lcol + j := congrArg CoreId.num hid
    exact h (by rw [show id.num % 8 = j by omega]; exact hid)

/-! ## Gangs that disagree -/

theorem Core.raiseWaiting_id (c : Core) (p : Product) (cls sub : BitVec 8) (v : BitVec 48) :
    (c.raiseWaiting p cls sub v).id = c.id := by
  unfold Core.raiseWaiting
  exact Core.raise_id _ _

/-- What the walk of GANG_MISMATCH makes of core `j` of a column. -/
def State.mismatched (s : State) (l : ColId) (j : Nat) (c : Core) : Core :=
  match s.waiting l j, (s.waiting l j).bind (s.mismatch l) with
  | some p, some (sub, v) => c.raiseWaiting p 0x22 sub v
  | _, _ => c

theorem State.mismatched_id (s : State) (l : ColId) (j : Nat) (c : Core) : (s.mismatched l j c).id = c.id := by
  unfold State.mismatched
  split
  · exact Core.raiseWaiting_id _ _ _ _ _
  · rfl

theorem execGangMismatch_eq {s : State} {l : ColId} (he : s.ev = .col l) : execGangMismatch s =
    .next ((List.range 8).foldl (fun t j => t.updCore (ColId.coreAt l j) (s.mismatched l j)) s) := by
  have hstep : (fun (t : State) j => match s.waiting l j with
      | none => t
      | some p => match s.mismatch l p with
        | none => t
        | some (sub, v) => t.updCore (ColId.coreAt l j) fun c => c.raiseWaiting p 0x22 sub v) =
      fun t j => t.updCore (ColId.coreAt l j) (s.mismatched l j) := by
    funext t j
    unfold State.mismatched
    cases hw : s.waiting l j with
    | none => exact (t.updCore_same _).symm
    | some p =>
      cases hm : s.mismatch l p with
      | none => simp only [Option.bind_some, hm]; exact (t.updCore_same _).symm
      | some x => simp only [Option.bind_some, hm]
  simp only [execGangMismatch, he]
  exact congrArg (fun f => Host.Outcome.next ((List.range 8).foldl f s)) hstep

theorem State.waiting_of_core {s : State} {l : ColId} {j : Nat} {c : Core} (h : s.core? (ColId.coreAt l j) = some c) :
    s.waiting l j = c.atBarrier := by
  rw [State.waiting, h, Option.bind_some]

/-- After the walk every core has taken its own mismatch, and no other (R264). -/
theorem State.mismatches_core? (s : State) (l : ColId) (id : CoreId) :
    ((List.range 8).foldl (fun t j => t.updCore (ColId.coreAt l j) (s.mismatched l j)) s).core? id =
      (s.core? id).map fun c => if id = ColId.coreAt l (id.num % 8) then
        match c.atBarrier, c.atBarrier.bind (s.mismatch l) with
        | some p, some (sub, v) => c.raiseWaiting p 0x22 sub v
        | _, _ => c
      else c := by
  rw [State.foldl_updCore_each _ (s.mismatched_id l)]
  cases hc : s.core? id with
  | none => rfl
  | some c =>
    rw [Option.map_some, Option.map_some, ColId.filter_coreAt]
    by_cases h : id = ColId.coreAt l (id.num % 8)
    · rw [if_pos h, if_pos h, List.foldl_cons, List.foldl_nil, State.mismatched, State.waiting_of_core (h ▸ hc)]
    · rw [if_neg h, if_neg h, List.foldl_nil]

theorem gangOf_sorted (m : BitVec 8) : (gangOf m).Pairwise (· < ·) :=
  List.pairwise_lt_range.sublist (List.filter_sublist)

/-- The first hit of a rising list is the one below which there is none. -/
theorem findSome?_of_least {β : Type} {f : Nat → Option β} {b : Nat} {y : β} (hy : f b = some y) :
    ∀ (l : List Nat), l.Pairwise (· < ·) → b ∈ l → (∀ i ∈ l, i < b → f i = none) → l.findSome? f = some y
  | [], _, hb, _ => absurd hb List.not_mem_nil
  | a :: l, hs, hb, hn => by
    rw [List.pairwise_cons] at hs
    rcases List.mem_cons.1 hb with rfl | hb'
    · rw [List.findSome?_cons, hy]
    · rw [List.findSome?_cons, hn a List.mem_cons_self (hs.1 b hb')]
      exact findSome?_of_least hy l hs.2 hb' fun i hi => hn i (List.mem_cons_of_mem _ hi)

/-- A core disagrees with the lowest core of its gang whose parameters differ from its own (R264). -/
theorem State.mismatch_of_least {s : State} {l : ColId} {b : Nat} {p q : Product} {d : BitVec 8}
    (hall : ∀ i ∈ gangOf p.mask, (s.waiting l i).isSome = true) (hb : b ∈ gangOf p.mask) (hq : s.waiting l b = some q)
    (hd : p.differs q = some d) (hn : ∀ i ∈ gangOf p.mask, i < b → ∀ u, s.waiting l i = some u → p.differs u = none) :
    s.mismatch l p = some (d, (BitVec.ofNat 40 b ++ q.mask : BitVec 48)) := by
  unfold State.mismatch
  dsimp only
  rw [if_pos (List.all_eq_true.2 hall)]
  refine findSome?_of_least ?_ _ (gangOf_sorted _) hb fun i hi hib => ?_
  · rw [hq]; simp only [hd, Option.map_some]
  · cases hw : s.waiting l i with
    | none => rfl
    | some u => simp only [hn i hi hib u hw, Option.map_none]

/-- A core that waits takes its entry in front of its packet (R263). -/
theorem Core.raiseWaiting_raised {c : Core} (p : Product) {cls : BitVec 8} (sub : BitVec 8) (v : BitVec 48)
    (hcls : cls = 0x22 ∨ cls = 0x23) (hp : c.pend = []) (hl : c.csr.level = 0) :
    let r := c.raiseWaiting p cls sub v
    r.pc = c.csr.evec.toNat * 4096 + 64 * cls.toNat ∧ r.csr.epc = BitVec.ofNat 17 (c.pc / 4) ∧ r.csr.level = 1 ∧
      r.csr.einfo = v ++ sub ++ p.ad.setWidth 6 ++ p.word ∧ r.atBarrier = none ∧ r.gang = c.gang ∧ r.vmem = c.vmem := by
  let e : Exc := ⟨cls, sub, p.ad.setWidth 6, v, if p.sparse then 0x31 else 0x30⟩
  let w : Core := { c with issue := { c.issue with word := p.word }, atBarrier := none }
  have heq : c.raiseWaiting p cls sub v = { w.raise e with issue := Issue.idle, done := false } := rfl
  obtain ⟨hpc, hepc, hlevel, hinfo, -, -, hvmem, -, -, -, hgang, hbar⟩ := Core.raise_raised (c := w) hp hl e
  have hword : e.word p.word = p.word := by
    obtain rfl | rfl := hcls <;> rfl
  intro r
  rw [show r = _ from heq]
  generalize w.raise e = d at hpc hepc hlevel hinfo hvmem hgang hbar
  refine ⟨hpc, hepc, hlevel, hinfo.trans ?_, hbar, hgang, hvmem⟩
  rw [show w.issue.word = p.word from rfl, hword]
  rfl

/-! ## Gangs that start and end -/

/-- What the start of a gang makes of one of its cores (R265). -/
def Core.started (bs : Nat → Option Operand) (c : Core) : Core :=
  match c.atBarrier with
  | some p => { c with product := c.startProduct p bs, granted := true, atBarrier := none, done := false }
  | none => c

theorem Core.started_id (bs : Nat → Option Operand) (c : Core) : (c.started bs).id = c.id := by
  unfold Core.started; split <;> rfl

theorem Core.started_started (bs : Nat → Option Operand) (c : Core) : (c.started bs).started bs = c.started bs := by
  cases h : c.atBarrier with
  | none => simp only [Core.started, h]
  | some p => simp only [Core.started, h]

section
variable {s : State} {l : ColId} {m : BitVec 8} {q : List (BitVec 8)} {j : Nat} {p : Product}

/-- The pennies that a gang pays: 2 per core and cc (R14). -/
def Product.cost (p : Product) (m : BitVec 8) : Nat := 2 * (gangOf m).length * p.arrayCc

theorem State.startable_eq (ha : s.array l = ⟨m :: q, none⟩) (hr : s.gangReady l m = true) (hj : (gangOf m).head? = some j)
    (hp : s.waiting l j = some p) :
    s.startable l = if p.cost m ≤ (s.purse (s.physOf l)).pennies then some (m, p.arrayCc) else none := by
  simp only [State.startable, ha, hj, Option.bind_some, hp, hr, true_and, Product.cost]
  congr

/-- The cores of a gang once it has started. -/
def State.startedCores (s : State) (l : ColId) (m : BitVec 8) : State :=
  (gangOf m).foldl (fun t j => t.updCore (ColId.coreAt l j) (Core.started (s.gangB l m (s.waiting l)))) s

theorem execArrayStart_pays (he : s.ev = .col l) (ha : s.array l = ⟨m :: q, none⟩) (hr : s.gangReady l m = true)
    (hj : (gangOf m).head? = some j) (hp : s.waiting l j = some p) (hc : p.cost m ≤ (s.purse (s.physOf l)).pennies) :
    execArrayStart s = .next (({ s.startedCores l m with
      purses := modAt (s.startedCores l m).purses (s.physOf l) fun u => { u with pennies := u.pennies - p.cost m } } : State).updArray l
        fun a => { queue := a.queue.drop 1, run := some ⟨m, p.arrayCc + 16⟩ }) := by
  simp only [execArrayStart, he, State.startable_eq ha hr hj hp, if_pos hc]
  rfl

theorem execArrayStart_waits (he : s.ev = .col l) (ha : s.array l = ⟨m :: q, none⟩) (hr : s.gangReady l m = true)
    (hj : (gangOf m).head? = some j) (hp : s.waiting l j = some p) (hc : (s.purse (s.physOf l)).pennies < p.cost m) :
    execArrayStart s = .next s := by
  simp only [execArrayStart, he, State.startable_eq ha hr hj hp, if_neg (Nat.not_le.2 hc)]

theorem State.startedCores_core? (id : CoreId) : (s.startedCores l m).core? id = (s.core? id).map fun c =>
    if (gangOf m).any (fun i => id = ColId.coreAt l i) then c.started (s.gangB l m (s.waiting l)) else c :=
  State.foldl_updCore _ (Core.started_id _) (Core.started_started _) _ _ _ _

theorem State.startedCores_rest : (s.startedCores l m).purses = s.purses ∧ (s.startedCores l m).regions = s.regions :=
  State.foldl_updCore_rest _ _ _ _

end

/-! ## The watchdog -/

section
variable {s : State} {id : CoreId} {c : Core} {p : Product}

/-- A core that waits for pennies, or in a gang, longer than its limit. -/
def Core.overdue (d : Core) : Core :=
  match d.atBarrier with
  | some q => d.raiseWaiting q 0x23 2 (BitVec.ofNat 48 d.waited)
  | none => d

variable (he : s.ev = .core id) (hc : s.core? id = some c) (hp : c.atBarrier = some p)
include he hc hp

theorem execWatchdog_early (hw : c.waited ≤ (s.fn id.owner).wdLimit) : execWatchdog s = .next s := by
  simp only [execWatchdog, he, hc, hp, if_neg (Nat.not_lt.2 hw)]

theorem execWatchdog_alone (hw : (s.fn id.owner).wdLimit < c.waited) (hq : (s.array c.column).queue.contains p.mask = false) :
    execWatchdog s = .next (s.updCore id fun d => d.raiseWaiting p 0x23 1 (BitVec.ofNat 48 c.waited)) := by
  simp only [execWatchdog, he, hc, hp, if_pos hw, hq, Bool.false_eq_true, if_false]

theorem execWatchdog_gang (hw : (s.fn id.owner).wdLimit < c.waited) (hq : (s.array c.column).queue.contains p.mask = true) :
    execWatchdog s = .next (((gangOf p.mask).foldl (fun t j => t.updCore (ColId.coreAt c.column j) Core.overdue) s).updArray
      c.column fun a => { a with queue := a.queue.filter (· ≠ p.mask) }) := by
  simp only [execWatchdog, he, hc, hp, if_pos hw, hq, if_true]
  rfl

end

end Sys2Proof.Machine

namespace Sys2Proof.Proofs
open Sys2Proof Sys2Proof.Machine
set_option Elab.async false

/-- Settles O35: the walks over the cores of a gang change each of them by its own function; the rest are
the equations of the events. -/
theorem arrayEvents : Obligations.ArrayEvents := by
  unfold Obligations.ArrayEvents
  refine ⟨?_, ?_⟩
  · intro s l he ready at_
    refine ⟨?_, fun m hm => State.gangReady_of hm, ⟨_, execGangMismatch_eq he, State.foldl_updCore_each_purses _ _ _ _,
        fun id => s.mismatches_core? l id⟩, fun b p q d hall hb hq hd hn => State.mismatch_of_least hall hb hq hd hn,
      fun c p sub v cls hcls hp ho hl => ?_, ?_, fun m hr => ?_, fun c p hp hside => ⟨fun hb => ?_, fun t row sub hb => ?_⟩⟩
    · simp only [exec, execGangBarrier, he]; rfl
    · exact Core.raiseWaiting_raised p sub v (by simpa using hcls) hp hl
    · intro m q j p ha hr hj hp cost k bs
      refine ⟨fun hc => ⟨_, execArrayStart_pays he ha hr hj hp hc, ?_, ?_, fun id => ?_⟩, fun hc =>
        execArrayStart_waits he ha hr hj hp hc⟩
      · exact congrArg (modAt · _ _) State.startedCores_rest.1
      · simp only [State.updArray, State.updRegion, State.startedCores_rest.2]
      · exact State.startedCores_core? id
    · simp only [exec, execArrayComplete, he, hr]
      rfl
    · simp only [Core.endProduct, hp, hside, hb, List.foldl_nil]
      rfl
    · simp only [Core.endProduct, hp, hside, hb, List.foldl_nil]
      rfl
  · intro s k r hot upd
    refine ⟨fun he => ?_, fun he => ?_, fun he => ⟨fun hr => ?_, fun hr => ?_⟩, fun id c p he hc hp =>
      ⟨execWatchdog_early he hc hp, execWatchdog_alone he hc hp, execWatchdog_gang he hc hp⟩⟩
    · simp only [exec, execPurseRefill, he]; rw [← he]; rfl
    · simp only [exec, execPurseThrottle, he]; rw [← he]
    · simp only [exec, execRefillRateSet, he, if_pos hr]; rw [← he]
    · simp only [exec, execRefillRateSet, he, if_neg (Nat.not_le.2 hr)]

end Sys2Proof.Proofs

end


section

/-! Single, row and atomic accesses to HBM (12_memory_core.md R277 to R285, R384, R406 to R415): what each
word is as an HBM word, and the outcomes of one that fails a check or goes to another module. -/

namespace Sys2Proof.Machine
open Sys2Proof
set_option Elab.async false

section
variable {s : State} {rd gt go : BitVec 6} {c : BitVec 4} {o : Order} {v : BitVec 5} {ps : List (Nat × Nat)} {m : Mmu}

/-- The check of one access at the offset in `go` (R78, R381). -/
def State.capAt (s : State) (c : BitVec 4) (go : BitVec 6) (r : Right) (n : Nat) : Option Exc :=
  capCheck 0x3D c (s.me.cap c) [r] 0 [((s.me.gr go).toNat, (s.me.gr go).toNat, n)]

/-- The walk of one access at the offset in `go` (R80). -/
def State.walkAt (s : State) (c : BitVec 4) (go : BitVec 6) (n : Nat) (rd wr : Bool) : Tx × Mmu :=
  s.translate (s.me.cap c).index (s.me.gr go).toNat n rd wr

/-- The checks of an access: its alignment and its capability. -/
def State.accessCheck (s : State) (c : BitVec 4) (go : BitVec 6) (r : Right) (n al : Nat) : Option Exc :=
  firstOf [alignCheck go (s.me.gr go) al, s.capAt c go r n]

theorem State.accessCheck_none {r : Right} {n al : Nat} (ha : (s.me.gr go).toNat % al = 0) (hc : s.capAt c go r n = none) :
    s.accessCheck c go r n al = none := firstOf_two (alignCheck_none ha) hc

/-! ## What each word is -/

theorem execHld_eq : execHld rd c go o s = hbmWord c [.g go] [] [.g rd] (s.accessCheck c go .read 8 8)
    (s.walkAt c go 8 true false).1 s.me.hbmWaits false whole
    (fun u => u.hbmLoad (s.walkAt c go 8 true false).2 ((s.walkAt c go 8 true false).1.parts.map fun (h, _) => .load h rd) rd (o = .acq))
    (farWhole fun u => u.farLoad (s.me.cap c) [.load (s.me.gr go).toNat rd] rd (o = .acq)) s := rfl

theorem execHst_eq : execHst rd c go o s = hbmWord c [.g go] [.g rd] [] (s.accessCheck c go .write 8 8)
    (s.walkAt c go 8 false true).1 s.me.sbFull true whole
    (fun u => u.hbmStore (s.walkAt c go 8 false true).2
      (spreadParts (s.walkAt c go 8 false true).1.parts (natBytes 8 (s.me.gr rd).toNat)) (o = .rel))
    (farWhole fun u => u.onMe fun d => d.farBuffer (s.me.cap c)
      (.store [((s.me.gr go).toNat, natBytes 8 (d.gr rd).toNat)]) (o = .rel)) s := rfl

theorem execHldX_eq : execHldX gt c go o s = hbmWord c [.g go, .g gt] [] []
    (firstOf [check ((s.me.gr gt).extractLsb' 17 47 != 0) (operandExc 0x3D 1 gt (s.me.gr gt)), alignCheck go (s.me.gr go) 8,
      s.capAt c go .read 8, s.coreCheck 0x3D 1 gt ((s.me.gr gt).extractLsb' 0 12)])
    (s.walkAt c go 8 true false).1 s.me.hbmWaits true whole
    (fun u => u.hbmLoad (s.walkAt c go 8 true false).2 ((s.walkAt c go 8 true false).1.parts.map fun (h, _) =>
      .loadX h ((s.me.gr gt).extractLsb' 0 12).toNat ((s.me.gr gt).extractLsb' 12 5)) 0 (o = .acq))
    (farWhole fun u => u.farLoad (s.me.cap c) [.loadX (s.me.gr go).toNat ((s.me.gr gt).extractLsb' 0 12).toNat
      ((s.me.gr gt).extractLsb' 12 5)] 0 (o = .acq)) s := rfl

theorem execHldv_eq : execHldv v c go s = hbmWord c [.g go] [] (s.viewRes v s.shapeRows s.shapeBytes)
    (firstOf [s.viewLimits v s.shapeRows s.shapeBytes, alignCheck go (s.me.gr go) 4,
      s.capAt c go .read (s.shapeRows * s.shapeBytes)])
    (s.walkAt c go (s.shapeRows * s.shapeBytes) true false).1 s.me.hbmWaits false whole
    (fun u => u.hbmLoad (s.walkAt c go (s.shapeRows * s.shapeBytes) true false).2
      ((rowParts s.shapeRows (s.walkAt c go (s.shapeRows * s.shapeBytes) true false).1.parts s.shapeBytes).zip
        (s.viewAddrs v s.shapeRows) |>.map fun (q, x) => .loadRow q x) 0 false)
    (farWhole fun u => u.farLoad (s.me.cap c) (((s.viewAddrs v s.shapeRows).zip (List.range s.shapeRows)).map fun (x, i) =>
      .loadRow ((s.me.gr go).toNat + i * s.shapeBytes) s.shapeBytes x) 0 false) s := by
  simp only [State.viewRes]
  rfl

theorem execHstv_eq : execHstv v c go s = hbmWord c [.g go] (s.viewRes v s.shapeRows s.shapeBytes) []
    (firstOf [s.viewLimits v s.shapeRows s.shapeBytes, alignCheck go (s.me.gr go) 4,
      s.capAt c go .write (s.shapeRows * s.shapeBytes)])
    (s.walkAt c go (s.shapeRows * s.shapeBytes) false true).1 s.me.sbFull true whole
    (fun u => u.hbmStore (s.walkAt c go (s.shapeRows * s.shapeBytes) false true).2
      (spreadParts (s.walkAt c go (s.shapeRows * s.shapeBytes) false true).1.parts
        ((s.viewAddrs v s.shapeRows).flatMap fun x => s.me.vmem.bytes x s.shapeBytes)) false)
    (farWhole fun u => u.onMe fun d => d.farBuffer (s.me.cap c)
      (.store [((s.me.gr go).toNat, (s.viewAddrs v s.shapeRows).flatMap fun x => d.vmem.bytes x s.shapeBytes)]) false) s := rfl

/-- The bytes of an atomic on HBM. -/
def AtomOp.hbmSize (op : AtomOp) : Nat := if op = .fadd then 4 else 8

/-- The value that an atomic on HBM expects. -/
def State.expected (s : State) (op : AtomOp) (rd : BitVec 6) : BitVec 64 := if op = .cas then s.me.gr (rd + 1) else 0

/-- The registers whose values an atomic on HBM reads. -/
def AtomOp.hbmSrc (op : AtomOp) (rd : BitVec 6) : List Res := Res.g rd :: (if op = .cas then [Res.g (rd + 1)] else [])

/-- An atomic on HBM: a result that is owed, a walk and an entry of the store buffer. -/
def State.hbmAtomic (u : State) (m : Mmu) (e : SbKind) (rd : BitVec 6) (acq rel : Bool) : State :=
  (u.setMmu m).onMe fun d => (d.owe .hbm rd none acq).shadow.buffer e rel

theorem Core.owe_buffer_eq {d : Core} (h : d.ahead = none) (e : SbKind) (rd : BitVec 6) (acq rel : Bool) :
    (d.owe .hbm rd none acq).shadow.buffer e rel = { d with
      outs := d.outs ++ [⟨.hbm, rd, d.seq, none, acq, false, 0, 0⟩]
      walks := d.walks ++ [d.seq]
      sb := d.sb ++ [⟨e, rel, d.seq, true, d.rowsOwed⟩]
      seq := d.seq + 1 } :=
  Core.buffer_eq (c := (d.owe .hbm rd none acq).shadow) h e rel

theorem State.hbmAtomic_eq {u : State} (h : u.me.ahead = none) (m : Mmu) (e : SbKind) (rd : BitVec 6) (acq rel : Bool) :
    u.hbmAtomic m e rd acq rel = (u.setMmu m).onMe fun d => { d with
      outs := d.outs ++ [⟨.hbm, rd, d.seq, none, acq, false, 0, 0⟩]
      walks := d.walks ++ [d.seq]
      sb := d.sb ++ [⟨e, rel, d.seq, true, d.rowsOwed⟩]
      seq := d.seq + 1 } := by
  simp only [State.hbmAtomic, State.onMe, Core.owe_buffer_eq ((u.setMmu_ahead m).trans h)]

theorem State.hbmAtomic_ahead {u : State} (h : u.me.ahead = none) (m : Mmu) (e : SbKind) (rd : BitVec 6) (acq rel : Bool) :
    (u.hbmAtomic m e rd acq rel).me.ahead = none := by
  rw [State.hbmAtomic_eq h]
  exact (u.setMmu_ahead m).trans h

theorem hatomWord_eq {op : AtomOp} (h63 : op = .cas → rd ≠ 63) : hatomWord op rd c go o s =
    hbmWord c [.g go] (op.hbmSrc rd) [.g rd] (s.accessCheck c go .atomic op.hbmSize op.hbmSize)
      (s.walkAt c go op.hbmSize true true).1 (s.me.sbFull || s.me.acquiring || s.me.nearLoad) true whole
      (fun u => u.hbmAtomic (s.walkAt c go op.hbmSize true true).2
        (.hatom op (((s.walkAt c go op.hbmSize true true).1.parts.map (·.1)).headD 0) (s.me.gr rd) (s.expected op rd) rd)
        rd (o = .acq) (o = .rel))
      (farWhole fun u => u.onMe fun d => (d.owe .hbm rd (some (.home (s.me.cap c).home)) (o = .acq)).farBuffer (s.me.cap c)
        (.atomic op (s.me.gr go).toNat (s.me.gr rd) (s.expected op rd) rd) (o = .rel)) s := by
  have hbeq : (op == AtomOp.cas) = decide (op = .cas) := by cases op <;> rfl
  have h63' : check (decide (op = .cas) && rd == 63) (operandExc 0x3D 3 rd (rd.setWidth 64)) = none := by
    refine check_false ?_
    by_cases hc : op = .cas
    · rw [decide_eq_true hc, beq_eq_false_iff_ne.2 (h63 hc)]; rfl
    · rw [decide_eq_false hc]; rfl
  have hchk (x y) : firstOf [x, none, y] = firstOf [x, y] := by cases x <;> rfl
  simp only [hatomWord, hbeq, h63', hchk, decide_eq_true_eq]
  rfl

/-! ## What a word does in this module -/

theorem State.hbmLoad_eq (u : State) (m : Mmu) (ops : List HbmOp) (rd : BitVec 6) (acq : Bool) : u.hbmLoad m ops rd acq =
    (u.setMmu m).onMe fun c => { c with
      outs := c.outs ++ [⟨.hbm, rd, c.seq, none, acq, false, 0, 0⟩], walks := c.walks ++ [c.seq]
      hbmAcc := c.hbmAcc ++ ops.map fun o => (⟨o, c.seq, acq⟩ : HbmAcc), seq := c.seq + 1 } := rfl

/-! ## The outcomes of an access that does not perform here -/

/-- The outcomes of a word with one access of `n` bytes: a misaligned offset, a failed check, the other
module's walk, or a fault of the walk here; `far` is the state once the access has left the core. -/
def State.accessFails (s : State) (c : BitVec 4) (go : BitVec 6) (r : Right) (n : Nat) (t : Tx × Mmu) (far : State)
    (res : Res?) : Prop :=
  ((s.me.gr go).toNat % n ≠ 0 → res = .next (s.raise ⟨0x18, 2, go, (s.me.gr go).setWidth 48, 0x3D⟩)) ∧
  (∀ e, (s.me.gr go).toNat % n = 0 → s.capAt c go r n = some e → res = .next (s.raise e)) ∧
  ((s.me.gr go).toNat % n = 0 → s.capAt c go r n = none → (s.me.cap c).home ≠ s.fabricId →
    (s.me.homeAns = none → res = .next
      ((s.onMe fun d => { d with homeHeld := some ((s.me.cap c).home, d.heldFor) }).stall .waiting)) ∧
    (∀ cls sub val, s.me.homeAns = some (.fault cls sub val) → res = .next (s.raise ⟨cls, sub, c.setWidth 6, val, 0x3D⟩)) ∧
    (∀ l, s.me.homeAns = some (.missed l) → res = .next (s.homeMiss c)) ∧
    (s.me.homeAns = some .mapped → s.me.sb.length < 32 → s.me.farWaits (s.me.cap c).home = false → res = .next far)) ∧
  (∀ cls sub val m, (s.me.gr go).toNat % n = 0 → s.capAt c go r n = none → (s.me.cap c).home = s.fabricId →
    t = (.fault cls sub val, m) → res = .next (s.raise ⟨cls, sub, c.setWidth 6, val, 0x3D⟩))

theorem hbmWord_fails {r : Right} {n : Nat} {val dst : List Res} {t : Tx × Mmu} {wait out : Bool} {eff far : State → State}
    (h : s.me.ready ([.c c, .g go] ++ val) dst) (hfar : (far s).me.ahead = none) :
    s.accessFails c go r n t (far s)
      (hbmWord c [.g go] val dst (s.accessCheck c go r n n) t.1 wait out whole eff (farWhole far) s) := by
  have away (hal : (s.me.gr go).toNat % n = 0) (hc : s.capAt c go r n = none) (hh : (s.me.cap c).home ≠ s.fabricId) :=
    hbmWord_away (wait := wait) (out := out) (part := whole) (tx := t.1) (eff := eff) (far := farWhole far) h
      (State.accessCheck_none hal hc) hh
  refine ⟨fun hal => ?_, fun e hal hc => ?_, fun hal hc hh => ⟨fun ha => ?_, fun cls sub v ha => ?_, fun l ha => ?_, fun ha hb hw => ?_⟩,
    fun cls sub v m hal hc hh ht => ?_⟩
  · exact hbmWord_raise h (firstOf_first (alignCheck_some hal))
  · exact hbmWord_raise h ((firstOf_second (alignCheck_none hal)).trans hc)
  · exact (away hal hc hh).trans (homeWord_asks ha)
  · exact (away hal hc hh).trans (homeWord_fault ha)
  · exact (away hal hc hh).trans (homeWord_missed h.1 ha)
  · exact (away hal hc hh).trans (homeWord_far h.1 ha (Core.sbFull_false hb) hw hfar)
  · exact hbmWord_fault h (State.accessCheck_none hal hc) hh (by rw [ht])

/-! ## Accesses that perform here -/

section
variable (hh : (s.me.cap c).home = s.fabricId)
include hh

theorem execHld_next (hal : (s.me.gr go).toNat % 8 = 0) (hc : s.capAt c go .read 8 = none)
    (ht : s.walkAt c go 8 true false = (.ok ps, m)) (hw : s.me.hbmWaits = false) (h : s.me.ready [.c c, .g go] [.g rd]) :
    execHld rd c go o s = .next (s.hbmLoad m (ps.map fun x => .load x.1 rd) rd (decide (o = .acq))) := by
  rw [execHld_eq, ht]
  exact hbmWord_next h (State.accessCheck_none hal hc) hh rfl hw ((State.hbmLoad_ahead _ _ _ _ _).trans h.1)

theorem execHldX_next {num : BitVec 12} {x : BitVec 5} (hal : (s.me.gr go).toNat % 8 = 0) (hc : s.capAt c go .read 8 = none)
    (ht : s.walkAt c go 8 true false = (.ok ps, m)) (hw : s.me.hbmWaits = false)
    (hg : s.me.gr gt = ((0 : BitVec 47) ++ x ++ num)) (hn : s.names s.me.id num.toNat = true)
    (h : s.me.ready [.c c, .g go, .g gt] []) :
    execHldX gt c go o s = .next (s.hbmLoad m (ps.map fun p => .loadX p.1 num.toNat x) 0 (decide (o = .acq))) := by
  have hv : (s.me.gr gt).toNat = x.toNat * 2 ^ 12 + num.toNat := by
    rw [hg, append_toNat, append_toNat]
    simp
  have hx := x.isLt
  have hnum := num.isLt
  have h12 : (s.me.gr gt).extractLsb' 0 12 = num := by
    apply BitVec.eq_of_toNat_eq
    rw [BitVec.extractLsb'_toNat, hv, Nat.shiftRight_eq_div_pow]
    omega
  have h5 : (s.me.gr gt).extractLsb' 12 5 = x := by
    apply BitVec.eq_of_toNat_eq
    rw [BitVec.extractLsb'_toNat, hv, Nat.shiftRight_eq_div_pow]
    omega
  have h47 : (s.me.gr gt).extractLsb' 17 47 = 0 := extractLsb'_of_lt (by omega) _
  rw [execHldX_eq, ht, h12, h5, h47, alignCheck_none hal, hc, State.coreCheck_none hn]
  exact hbmWord_next h rfl hh rfl hw ((State.hbmLoad_ahead _ _ _ _ _).trans h.1)

theorem execHst_next (hal : (s.me.gr go).toNat % 8 = 0) (hc : s.capAt c go .write 8 = none)
    (ht : s.walkAt c go 8 false true = (.ok ps, m)) (hb : s.me.sb.length < 32) (h : s.me.ready [.c c, .g go, .g rd] []) :
    execHst rd c go o s = .next (s.hbmStore m (spreadParts ps (natBytes 8 (s.me.gr rd).toNat)) (decide (o = .rel))) := by
  rw [execHst_eq, ht]
  exact hbmWord_next h (State.accessCheck_none hal hc) hh rfl (Core.sbFull_false hb) (State.hbmStore_ahead h.1 _ _ _)

theorem execHldv_next (hal : (s.me.gr go).toNat % 4 = 0) (hl : s.viewLimits v s.shapeRows s.shapeBytes = none)
    (hc : s.capAt c go .read (s.shapeRows * s.shapeBytes) = none)
    (ht : s.walkAt c go (s.shapeRows * s.shapeBytes) true false = (.ok ps, m)) (hw : s.me.hbmWaits = false)
    (h : s.me.ready [.c c, .g go] (s.viewRes v s.shapeRows s.shapeBytes)) :
    execHldv v c go s = .next (s.hbmLoad m ((rowParts s.shapeRows ps s.shapeBytes).zip
      (s.viewAddrs v s.shapeRows) |>.map fun (q, x) => .loadRow q x) 0 false) := by
  rw [execHldv_eq, ht, hl, alignCheck_none hal, hc]
  exact hbmWord_next h rfl hh rfl hw ((State.hbmLoad_ahead _ _ _ _ _).trans h.1)

theorem execHstv_next (hal : (s.me.gr go).toNat % 4 = 0) (hl : s.viewLimits v s.shapeRows s.shapeBytes = none)
    (hc : s.capAt c go .write (s.shapeRows * s.shapeBytes) = none)
    (ht : s.walkAt c go (s.shapeRows * s.shapeBytes) false true = (.ok ps, m)) (hb : s.me.sb.length < 32)
    (h : s.me.ready (.c c :: .g go :: s.viewRes v s.shapeRows s.shapeBytes) []) :
    execHstv v c go s = .next (s.hbmStore m (spreadParts ps
      ((s.viewAddrs v s.shapeRows).flatMap fun x => s.me.vmem.bytes x s.shapeBytes)) false) := by
  rw [execHstv_eq, ht, hl, alignCheck_none hal, hc]
  exact hbmWord_next h rfl hh rfl (Core.sbFull_false hb) (State.hbmStore_ahead h.1 _ _ _)

theorem hatomWord_next {op : AtomOp} (h63 : op = .cas → rd ≠ 63) (hal : (s.me.gr go).toNat % op.hbmSize = 0)
    (hc : s.capAt c go .atomic op.hbmSize = none) (ht : s.walkAt c go op.hbmSize true true = (.ok ps, m))
    (hb : s.me.sb.length < 32) (hacq : s.me.acquiring = false) (hnear : s.me.nearLoad = false)
    (h : s.me.ready ([.c c, .g go] ++ op.hbmSrc rd) [.g rd]) :
    hatomWord op rd c go o s = .next (s.hbmAtomic m (.hatom op ((ps.map (·.1)).headD 0) (s.me.gr rd) (s.expected op rd) rd)
      rd (decide (o = .acq)) (decide (o = .rel))) := by
  rw [hatomWord_eq h63, ht]
  refine hbmWord_next h (State.accessCheck_none hal hc) hh rfl ?_ (State.hbmAtomic_ahead h.1 _ _ _ _ _)
  rw [Core.sbFull_false hb, hacq, hnear]
  rfl

end

/-! ## Accesses that leave for another module -/

/-- A load that has left for another module. -/
theorem State.farLoad_eq (s : State) (k : Cap) (off : Nat) (rd : BitVec 6) (acq : Bool) : s.farLoad k [.load off rd] rd acq =
    { s.onMe fun d => { d with outs := d.outs ++ [⟨.hbm, rd, s.me.seq, some (.home k.home), acq, false, 0, 0⟩], seq := d.seq + 1 } with
      homeOut := s.homeOut ++ [⟨s.me.id, s.me.seq, k.home, k.bits.extractLsb' 0 15, .load off rd, 0⟩] } := by
  simp only [State.farLoad, State.onMe, Core.owe, Core.count, List.filterMap_cons, List.filterMap_nil, List.append_nil,
    List.map_cons, List.map_nil]

/-- A store or an atomic that has left for another module, with what it owes. -/
theorem Core.farBuffer_eq {d : Core} (h : d.ahead = none) (k : Cap) (op : HomeOp) (rel : Bool) : d.farBuffer k op rel =
    { d with sb := d.sb ++ [⟨.home k.home (k.bits.extractLsb' 0 15) op, rel, d.seq, true, d.rowsOwed⟩], seq := d.seq + 1 } :=
  Core.buffer_eq h _ _

theorem execHld_fails (h : s.me.ready [.c c, .g go] [.g rd]) :
    s.accessFails c go .read 8 (s.walkAt c go 8 true false)
      (s.farLoad (s.me.cap c) [.load (s.me.gr go).toNat rd] rd (decide (o = .acq))) (execHld rd c go o s) := by
  rw [execHld_eq]
  exact hbmWord_fails h h.1

theorem execHst_fails (h : s.me.ready [.c c, .g go, .g rd] []) :
    s.accessFails c go .write 8 (s.walkAt c go 8 false true)
      (s.onMe fun d => d.farBuffer (s.me.cap c) (.store [((s.me.gr go).toNat, natBytes 8 (d.gr rd).toNat)]) (decide (o = .rel)))
      (execHst rd c go o s) := by
  rw [execHst_eq]
  exact hbmWord_fails h (Core.buffer_ahead h.1 _ _)

theorem hatomWord_fails {op : AtomOp} (h63 : op = .cas → rd ≠ 63) (h : s.me.ready ([.c c, .g go] ++ op.hbmSrc rd) [.g rd]) :
    s.accessFails c go .atomic op.hbmSize (s.walkAt c go op.hbmSize true true)
      (s.onMe fun d => (d.owe .hbm rd (some (.home (s.me.cap c).home)) (o = .acq)).farBuffer (s.me.cap c)
        (.atomic op (s.me.gr go).toNat (s.me.gr rd) (s.expected op rd) rd) (o = .rel))
      (hatomWord op rd c go o s) := by
  rw [hatomWord_eq h63]
  exact hbmWord_fails h (Core.buffer_ahead (c := s.me.owe _ _ _ _) h.1 _ _)

end

end Sys2Proof.Machine

namespace Sys2Proof.Proofs
open Sys2Proof Sys2Proof.Machine
set_option Elab.async false

/-- Settles O36: each word is an HBM word; it performs here, or fails, asks and leaves as such a word does. -/
theorem hbmAccessWords : Obligations.HbmAccessWords := by
  unfold Obligations.HbmAccessWords
  intro s rd gt go c o v ps m k off acq rel cap tr loads enters r n atoms atomN obj owed farLoad farOp atomSrc
  have hatoms : ∀ a ∈ atoms, exec a.1 s = hatomWord a.2 rd c go o s := by
    intro a ha
    simp only [atoms, List.mem_cons, List.not_mem_nil, or_false] at ha
    obtain rfl | rfl | rfl | rfl | rfl | rfl | rfl | rfl := ha <;> rfl
  refine ⟨fun r n => capCheck_one _ _ _ _ _ _, fun hh => ⟨fun hal hc ht hw => ⟨fun h => ?_, fun num x hg hn h => ?_⟩,
    fun hal hc ht hb h => ?_, fun hal hl => ⟨fun hc ht hw h => ?_, fun hc ht hb h => ?_⟩,
    fun x hx hal hc h63 ht hb hacq hnear h => ?_⟩, fun x hx h63 h => ?_⟩
  · exact (execHld_next hh hal hc ht hw h : exec (.hld rd c go o) s = _)
  · exact (execHldX_next hh hal hc ht hw hg hn h : exec (.hldX gt c go o) s = _)
  · refine (execHst_next hh hal hc ht hb h : exec (.hst rd c go o) s = _).trans ?_
    rw [State.hbmStore_eq h.1]
    simp only [List.append_nil]
    rfl
  · exact (execHldv_next hh hal hl hc ht hw h : exec (.hldv v c go) s = _)
  · refine (execHstv_next hh hal hl hc ht hb h : exec (.hstv v c go) s = _).trans ?_
    rw [State.hbmStore_eq h.1]
    simp only [List.append_nil]
    rfl
  · refine (hatoms x hx).trans ((hatomWord_next hh h63 hal hc ht hb hacq hnear h).trans ?_)
    rw [State.hbmAtomic_eq h.1]
    rfl
  · have settle {i : Instr} {n : Nat} {r : Right} {a b : Bool} {far u : State} (hf : far = u)
        (hs : s.accessFails c go r n (s.walkAt c go n a b) far (exec i s)) :
        s.accessFails c go r n (s.walkAt c go n a b) u (exec i s) := hf ▸ hs
    suffices hs : s.accessFails c go x.2.2.1 x.2.1 (s.walkAt c go x.2.1 x.2.2.2.1 x.2.2.2.2.1) x.2.2.2.2.2.2.2 (exec x.1 s) by
      obtain ⟨h1, h2, h3, h4⟩ := hs
      exact ⟨h1, h2, h3, fun cls sub val => h4 cls sub val m⟩
    rw [List.mem_append, List.mem_cons, List.mem_cons, List.mem_map] at hx
    obtain (rfl | rfl | hx) | ⟨a, ha, rfl⟩ := hx
    · exact settle (State.farLoad_eq _ _ _ _ _) (execHld_fails h : s.accessFails _ _ _ _ _ _ (exec (.hld rd c go o) s))
    · refine settle ?_ (execHst_fails h : s.accessFails _ _ _ _ _ _ (exec (.hst rd c go o) s))
      simp only [farOp, State.onMe, Core.farBuffer_eq h.1, List.append_nil]
      rfl
    · exact absurd hx List.not_mem_nil
    · refine settle ?_ ((hatoms a ha).symm ▸ hatomWord_fails (fun _ => h63) h)
      simp only [farOp, State.onMe]
      rw [Core.farBuffer_eq (d := s.me.owe .hbm rd (some (.home (s.me.cap c).home)) (o = .acq)) h.1]
      rfl

end Sys2Proof.Proofs

end


section

/-! Gathers, scatters and the bulk words of HBM (12_memory_core.md R283 to R290, R412). -/

namespace Sys2Proof.Machine
open Sys2Proof
set_option Elab.async false

/-! ## The mask of a gather -/

theorem foldl_elemBits (i : Nat) : ∀ (es : List Nat) (m : BitVec 64),
    (es.foldl (fun m e => m ||| (1 : BitVec 64) <<< e) m).getLsbD i = (m.getLsbD i || (decide (i < 64) && es.contains i))
  | [], m => by simp
  | e :: es, m => by
    rw [List.foldl_cons, foldl_elemBits i es, BitVec.getLsbD_or, List.contains_cons]
    by_cases hi : i < 64
    · by_cases he : i = e
      · subst he; simp [hi]
      · have hbit : ((1 : BitVec 64) <<< e).getLsbD i = false := by
          rw [BitVec.getLsbD_shiftLeft, BitVec.ofNat_eq_ofNat, BitVec.getLsbD_one]
          simp only [Bool.and_eq_false_imp, Bool.and_eq_true, decide_eq_true_eq, Bool.not_eq_true', decide_eq_false_iff_not]
          omega
        simp only [hi, decide_true, Bool.true_and, hbit, Bool.or_false, beq_eq_false_iff_ne.2 he, Bool.false_or]
    · simp [hi]

theorem elemBits_bit (es : List Nat) (i : Nat) : (elemBits es).getLsbD i = (decide (i < 64) && es.contains i) := by
  rw [elemBits, foldl_elemBits]
  simp

/-- Clearing the bits of elements leaves the others (R284). -/
theorem gmask_falls (g : BitVec 64) (es : List Nat) (e : Nat) :
    (g &&& ~~~elemBits es).getLsbD e = (g.getLsbD e && !es.contains e) := by
  rw [BitVec.getLsbD_and, BitVec.getLsbD_not, elemBits_bit]
  by_cases he : e < 64
  · simp [he]
  · simp [he, BitVec.getLsbD_of_ge g e (Nat.le_of_not_lt he)]

theorem Core.apply_gmask {c : Core} (hm : c.isMem = true) (x : BitVec 64) :
    (c.apply (.csrClr .gmask x)).csr.gmask = c.csr.gmask &&& ~~~x := by
  simp only [Core.apply, Core.setCsr, Core.heldCsr, hm, if_true]

section
variable {s : State} {v i : BitVec 5} {c : BitVec 4} {ok : List (Elem × Nat)} {ps : List (Nat × Nat)} {m : Mmu} {sz w iw : Nat}

/-- The width of an element of a gather in bytes, from its view. -/
def State.gatherSize (s : State) (v : BitVec 5) : Nat := ((viewType (s.me.view v.toNat)).map widthOf).getD 32 / 8

/-- The width of an index of a gather in bytes. -/
def State.indexSize (s : State) (i : BitVec 5) : Nat := if viewType (s.me.view i.toNat) = some .n64 then 8 else 4

/-- The state in which the mask bits of the elements are to fall with the packet. -/
def State.fallen (s : State) (ok : List (Elem × Nat)) : State := s.later (.csrClr .gmask (elemBits (ok.map fun x => x.1.e))) 1

section
variable (hsz : s.gatherSize v = sz) (hw : s.shapeBytes / sz = w) (hi : s.indexSize i = iw)
  (hh : (s.me.cap c).home = s.fabricId) (hok : ok ≠ [])
include hsz hw hi hh hok

theorem execHgat_next (hc : s.gatherCheck v i c .read sz w iw (s.elems v i sz w iw) = none)
    (ht : s.walkElems (s.me.cap c).index sz true false (s.elems v i sz w iw) = (ok, .ok ps, m))
    (h : s.me.ready (.c c :: s.viewRes i s.shapeRows (w * iw)) (s.viewRes v s.shapeRows s.shapeBytes))
    (hwait : s.me.hbmWaits = false) :
    execHgat v c i s = .next ((s.fallen ok).hbmLoad m (ok.map fun (x, h) => .loadRow [(h, sz)] x.at_) 0 false) := by
  have hne : ok.isEmpty = false := by cases ok <;> trivial
  subst hsz hw hi
  simp only [State.gatherSize, State.indexSize] at hc ht h ⊢
  simp only [execHgat, gatherWord, if_true, hc, Option.isSome_none, Bool.false_eq_true, if_false, Bool.not_true, ht, hne]
  exact hbmWord_next ((List.append_nil _).symm ▸ h) rfl hh rfl hwait ((State.hbmLoad_ahead _ _ _ _ _).trans h.1)

theorem execHsct_next (hc : s.gatherCheck v i c .write sz w iw (s.elems v i sz w iw) = none)
    (ht : s.walkElems (s.me.cap c).index sz false true (s.elems v i sz w iw) = (ok, .ok ps, m))
    (h : s.me.ready (.c c :: s.viewRes i s.shapeRows (w * iw) ++ s.viewRes v s.shapeRows s.shapeBytes) [])
    (hb : s.me.sb.length < 32) :
    execHsct v c i s = .next ((s.fallen ok).hbmStore m (ok.map fun (x, h) => (h, s.me.vmem.bytes x.at_ sz)) false) := by
  have hne : ok.isEmpty = false := by cases ok <;> trivial
  subst hsz hw hi
  simp only [State.gatherSize, State.indexSize] at hc ht h ⊢
  simp only [execHsct, gatherWord, if_true, hc, Option.isSome_none, Bool.false_eq_true, if_false, Bool.not_false, ht, hne]
  exact hbmWord_next h rfl hh rfl (Core.sbFull_false hb) (State.hbmStore_ahead (s := s.fallen ok) h.1 _ _ _)

end
end

/-! ## `hship` and `hpull` -/

section
variable {s : State} {ga go : BitVec 6} {c : BitVec 4} {num off : Nat}

/-- The geometry that a ship word takes (R286). -/
structure ShipOk (s : State) (ga : BitVec 6) (off : Nat) : Prop where
  last : ga ≠ 63
  zero : (s.me.gr (ga + 1)).extractLsb' 29 2 = 0
  zero' : (s.me.gr (ga + 1)).getLsbD 23 = false
  pitch : (ShipGeo.of (s.me.gr (ga + 1))).hpitch % 4 = 0
  apart : 1 < (ShipGeo.of (s.me.gr (ga + 1))).rows → (ShipGeo.of (s.me.gr (ga + 1))).n ≤ (ShipGeo.of (s.me.gr (ga + 1))).hpitch ∧
    (ShipGeo.of (s.me.gr (ga + 1))).n ≤ (ShipGeo.of (s.me.gr (ga + 1))).dpitch
  fits : off + (((ShipGeo.of (s.me.gr (ga + 1))).rows - 1) * (ShipGeo.of (s.me.gr (ga + 1))).dpitch +
    (ShipGeo.of (s.me.gr (ga + 1))).n) ≤ (if (ShipGeo.of (s.me.gr (ga + 1))).regs then viewEnd 0 else 0x80000)

/-- The rows of a ship word at the object and at the other core's store, one beat after another. -/
def State.shipBeats (s : State) (ga go : BitVec 6) (off : Nat) : List Beat :=
  let g := ShipGeo.of (s.me.gr (ga + 1))
  tileBeats (s.me.gr go).toNat g.hpitch off g.dpitch g.n g.rows

/-- The command of a ship word (R286). -/
def State.shipCommand (s : State) (pull : Bool) (ga : BitVec 6) (c : BitVec 4) (go : BitVec 6) (num off : Nat) : Bulk :=
  let g := ShipGeo.of (s.me.gr (ga + 1))
  let side : Side := if g.regs then .regs num else .scratch num
  if pull then
    { s.command .hpull side (.hbm (s.me.cap c)) ((s.shipBeats ga go off).map fun b => ⟨b.dst, b.src, b.len⟩) g.cell with creg := c }
  else { s.command .hship (.hbm (s.me.cap c)) side (s.shipBeats ga go off) g.cell with creg := c }

/-- The check of the capability of a ship word. -/
def State.shipCheck (s : State) (pull : Bool) (ga : BitVec 6) (c : BitVec 4) (go : BitVec 6) : Option Exc :=
  let g := ShipGeo.of (s.me.gr (ga + 1))
  capCheck 0x3D c (s.me.cap c) [if pull then .write else .read] 0
    [((s.me.gr go).toNat, (s.me.gr go).toNat, (g.rows - 1) * g.hpitch + g.n)]

theorem firstOf_one (a : Option Exc) : firstOf [a] = a := by cases a <;> rfl

theorem firstOf_skip {a : Option Exc} (ha : a = none) (l : List (Option Exc)) : firstOf (a :: l) = firstOf l := by
  subst ha; rfl

/-- A ship word whose geometry passes checks its capability and kicks its command. -/
theorem shipWord_eq (pull : Bool) (ht : s.shipTarget ga (s.me.gr ga) = .ok (num, off)) (hg : ShipOk s ga off) :
    shipWord pull ga c go s = actOut [.c c, .g ga, .g (ga + 1), .g go] [] (s.shipCheck pull ga c go) (s.me.bulkWaits [])
      (s.kick (s.shipCommand pull ga c go num off) []) s := by
  obtain ⟨hlast, hz, hz', hp, ha, hf⟩ := hg
  have hnext : s.me.next ga = s.me.gr (ga + 1) := if_neg hlast
  have hres : ((s.me.gr (ga + 1)).extractLsb' 29 2 != 0 || (s.me.gr (ga + 1)).getLsbD 23) = false := by rw [hz, hz']; rfl
  generalize hgeo : ShipGeo.of (s.me.gr (ga + 1)) = g at hp ha hf
  have hlim : (decide (g.hpitch % 4 ≠ 0) || (decide (1 < g.rows) && (decide (g.hpitch < g.n) || decide (g.dpitch < g.n)))) =
      false := by
    rw [hp]
    by_cases hr : 1 < g.rows
    · simp [Nat.not_lt.2 (ha hr).1, Nat.not_lt.2 (ha hr).2]
    · simp [hr]
  have hscr : (!g.regs && decide (0x80000 < off + ((g.rows - 1) * g.dpitch + g.n))) = false := by
    cases hr : g.regs with
    | false => rw [hr] at hf; exact decide_eq_false (Nat.not_lt.2 hf)
    | true => rfl
  have hview : (g.regs && decide (viewEnd 0 < off + ((g.rows - 1) * g.dpitch + g.n))) = false := by
    cases hr : g.regs with
    | false => rfl
    | true => rw [hr] at hf; exact decide_eq_false (Nat.not_lt.2 hf)
  unfold shipWord
  dsimp only
  rw [ht, hnext]
  dsimp only
  rw [hgeo, hres, hlim, beq_eq_false_iff_ne.2 hlast, check_false rfl, check_false rfl, check_false rfl]
  simp only [Option.isNone_none, Bool.and_self, Bool.true_and, hscr, hview, check_false, State.shipCheck, State.shipCommand,
    State.shipBeats, hgeo]
  rw [firstOf_skip rfl, firstOf_skip rfl, firstOf_skip rfl, firstOf_skip rfl, firstOf_skip rfl, firstOf_one]

theorem shipWord_next (pull : Bool) (h : s.me.ready [.c c, .g ga, .g (ga + 1), .g go] [])
    (ht : s.shipTarget ga (s.me.gr ga) = .ok (num, off)) (hg : ShipOk s ga off) (hw : s.me.bulkWaits [] = false)
    (hc : s.shipCheck pull ga c go = none) :
    shipWord pull ga c go s = .next (s.kick (s.shipCommand pull ga c go num off) []) :=
  (shipWord_eq pull ht hg).trans (actOut_next h hc hw (State.kick_ahead h.1 _ _))

theorem shipWord_raise (pull : Bool) {e : Exc} (h : s.me.ready [.c c, .g ga, .g (ga + 1), .g go] [])
    (ht : s.shipTarget ga (s.me.gr ga) = .ok (num, off)) (hg : ShipOk s ga off) (hc : s.shipCheck pull ga c go = some e) :
    shipWord pull ga c go s = .next (s.raise e) :=
  (shipWord_eq pull ht hg).trans (actOut_raise h hc)

/-! ## `bgemv` -/

/-- The descriptor in own scratch that a `bgemv` names. -/
def State.bgemvDesc (s : State) (go : BitVec 6) : BitVec 512 := BitVec.ofNat 512 (s.ownNat (s.me.gr go).toNat 64)

/-- Where the vector of a `bgemv` stands in the view area. -/
def State.bgemvVec (s : State) (ga : BitVec 6) : Nat := ((s.me.gr (ga + 1)).extractLsb' 0 17).toNat

/-- The descriptor and the parameter register that `bgemv` takes (R289). -/
structure BgemvOk (s : State) (ga go : BitVec 6) (off : Nat) : Prop where
  last : ga ≠ 63
  held : s.me.readsHeld [((s.me.gr go).toNat, 64)] = false
  align : (s.me.gr go).toNat % 64 = 0
  inside : (s.me.gr go).toNat + 64 ≤ s.me.scrSize
  ok : tdOk (s.bgemvDesc go) = true
  tv : tdTv (s.bgemvDesc go) = 0
  dense : tdSparse (s.bgemvDesc go) = 0
  type : bgemvType (tdType (s.bgemvDesc go)) = true
  rows : 1 ≤ tdRows (s.bgemvDesc go) ∧ tdRows (s.bgemvDesc go) ≤ 16384
  cols : 1 ≤ tdCols (s.bgemvDesc go) ∧ tdCols (s.bgemvDesc go) ≤ 16384
  target : off + 4 * tdRows (s.bgemvDesc go) ≤ 0x80000
  zero : (s.me.gr (ga + 1)).extractLsb' 29 35 = 0
  zero' : (s.me.gr (ga + 1)).extractLsb' 17 7 = 0
  vec : s.bgemvVec ga % 4 = 0
  vecEnd : s.bgemvVec ga + 2 * tdCols (s.bgemvDesc go) ≤ viewEnd s.me.id.num

/-- The command of `bgemv`, with its vector as it was read at issue. -/
def State.bgemvCommand (s : State) (ga : BitVec 6) (c : BitVec 4) (go : BitVec 6) (num off : Nat) : Bulk :=
  { s.command .bgemv (.hbm (s.me.cap c)) (.scratch num)
      (execBgemv.copyRows 0 off (4 * tdRows (s.bgemvDesc go)) (4 * tdRows (s.bgemvDesc go) / 256 + 1))
      ((s.me.gr (ga + 1)).extractLsb' 24 5) with
    creg := c
    desc := s.bgemvDesc go
    vec := (List.range (tdCols (s.bgemvDesc go))).map fun i => BitVec.ofNat 16 (s.me.vmem.nat (s.bgemvVec ga + 2 * i) 2) }

theorem tdOk_reserved {d : BitVec 512} (h : tdOk d = true) : ((d.extractLsb' 20 44 == 0) && (d.extractLsb' 14 2 == 0) &&
    (d.extractLsb' 9 3 == 0) && (d.extractLsb' 5 3 == 0) && (d.extractLsb' 160 32 == 0)) = true := by
  simp only [tdOk, Bool.and_eq_true] at h ⊢
  exact h.1.1

/-- A `bgemv` whose operands pass checks its capability and kicks its command. -/
theorem execBgemv_eq (ht : s.shipTarget ga (s.me.gr ga) = .ok (num, off)) (hg : BgemvOk s ga go off) :
    execBgemv ga c go s = actOut [.c c, .g ga, .g (ga + 1), .g go, .regs (s.bgemvVec ga) (2 * tdCols (s.bgemvDesc go))] []
      (firstOf [capCheck 0x3D c (s.me.cap c) [.read] 0 (bgemvRanges (s.bgemvDesc go)),
        check ((s.me.cap c).home != s.fabricId) ⟨0x1C, 5, c.setWidth 6, 0, 0x3D⟩])
      (s.me.bulkWaits []) (s.kick (s.bgemvCommand ga c go num off) []) s := by
  obtain ⟨hlast, hheld, hal, hin, hok, htv, hsp, hty, hrows, hcols, htgt, hz, hz', hva, hvend⟩ := hg
  have hnext : s.me.next ga = s.me.gr (ga + 1) := if_neg hlast
  have hfits : (decide ((s.me.gr go).toNat % 64 = 0) && decide ((s.me.gr go).toNat + 64 ≤ s.me.scrSize)) = true := by
    rw [decide_eq_true hal, decide_eq_true hin]; rfl
  have hpres : ((s.me.gr (ga + 1)).extractLsb' 29 35 != 0 || (s.me.gr (ga + 1)).extractLsb' 17 7 != 0) = false := by
    rw [hz, hz']; rfl
  have hd : (if (decide ((s.me.gr go).toNat % 64 = 0) && decide ((s.me.gr go).toNat + 64 ≤ s.me.scrSize)) = true then
    BitVec.ofNat 512 (s.ownNat (s.me.gr go).toNat 64) else 0) = s.bgemvDesc go := if_pos hfits
  generalize hdd : s.bgemvDesc go = d at *
  have hlim : (tdTv d != 0 || tdSparse d != 0 || !bgemvType (tdType d) || !(decide (1 ≤ tdRows d) && decide (tdRows d ≤ 16384)) ||
      !(decide (1 ≤ tdCols d) && decide (tdCols d ≤ 16384))) = false := by
    rw [htv, hsp, hty, decide_eq_true hrows.1, decide_eq_true hrows.2, decide_eq_true hcols.1, decide_eq_true hcols.2]; rfl
  have htgt' := decide_eq_false (Nat.not_lt.2 htgt)
  replace hva : ((s.me.gr (ga + 1)).extractLsb' 0 17).toNat % 4 = 0 := hva
  replace hvend : ((s.me.gr (ga + 1)).extractLsb' 0 17).toNat + 2 * tdCols d ≤ viewEnd s.me.id.num := hvend
  have hgood : (true && (check (!false && !true) (operandExc 0x3D 1 go (s.me.gr go))).isNone &&
      (check (!false && false) (operandExc 0x3D 2 go (tdDword d 0))).isNone) = true := rfl
  unfold execBgemv
  dsimp only
  rw [ht, hnext]
  dsimp only
  rw [hd, hheld, hfits, tdOk_reserved hok, hlim, hpres, decide_eq_false (not_not.2 hva), decide_eq_false (Nat.not_lt.2 hvend),
    beq_eq_false_iff_ne.2 hlast, if_pos hgood, if_pos hgood, htgt', Bool.or_false, State.bgemvCommand, hdd]
  rfl

end

end Sys2Proof.Machine

namespace Sys2Proof.Proofs
open Sys2Proof Sys2Proof.Machine
set_option Elab.async false

/-- Settles O37: a gather or scatter is an HBM word of its elements; the bulk words kick their commands
when their checks pass, and the beats of `bgemv` by `copyRows_sum`. -/
theorem gatherTransferWords : Obligations.GatherTransferWords := by
  unfold Obligations.GatherTransferWords
  intro s v i ga go c num off k kicks rows n sz w iw es data index
  have kicked {b : Bulk} (hr : s.me.ahead = none) : s.kick b [] = s.onMe fun c =>
      { c with sb := c.sb ++ [⟨.bulk b, true, c.seq, true, c.rowsOwed⟩], seq := c.seq + 1 } := by
    simp only [State.kick_eq hr, List.append_nil]
  refine ⟨fun ok ps m hh hok => ⟨fun hc ht h hw => ?_, fun hc ht h hb => ?_⟩, fun c es e => ⟨fun hm => ?_, gmask_falls _ _ _⟩,
    fun h ht hlast hw => ?_, fun ht hlast hw => ?_⟩
  · refine (execHgat_next rfl rfl rfl hh hok hc ht h hw : exec (.hgat v c i) s = _).trans ?_
    rw [State.hbmLoad_eq]
    simp only [List.map_map]
    rfl
  · refine (execHsct_next rfl rfl rfl hh hok hc ht h hb : exec (.hsct v c i) s = _).trans ?_
    rw [State.hbmStore_eq (s := s.fallen ok) h.1]
    rfl
  · rw [Core.apply_gmask hm, gmask_falls]
  · intro w g o oc cell side hz hz' hp ha hf ck
    have hg : ShipOk s ga off := ⟨hlast, hz, hz', hp, ha, hf⟩
    refine ⟨fun hc => ?_, fun hc => ?_, fun e hc => shipWord_raise false h ht hg hc, fun e hc => shipWord_raise true h ht hg hc⟩
    · exact (shipWord_next false h ht hg hw hc).trans (congrArg _ (kicked h.1))
    · exact (shipWord_next true h ht hg hw hc).trans (congrArg _ (kicked h.1))
  · intro p da d va h hheld hal hin hok htv hsp hty hr1 hr2 hc1 hc2 htgt hz hz' hva hvend hcap
    have hg : BgemvOk s ga go off :=
      ⟨hlast, hheld, hal, hin, hok, htv, hsp, hty, ⟨hr1, hr2⟩, ⟨hc1, hc2⟩, htgt, hz, hz', hva, hvend⟩
    have heq := execBgemv_eq (c := c) ht hg
    refine ⟨fun hh => ⟨_, (heq.trans (actOut_next h (firstOf_two hcap (check_false ?_)) hw (State.kick_ahead h.1 _ _))).trans
      (congrArg _ (kicked h.1)), copyRows_sum _ _ _ _ ?_⟩, fun hh => heq.trans (actOut_raise h ((firstOf_second hcap).trans (check_true ?_)))⟩
    · exact bne_eq_false_iff_eq.2 hh
    · have := Nat.div_add_mod (4 * tdRows d) 256
      have := Nat.mod_lt (4 * tdRows d) (show 256 > 0 by decide)
      change 4 * tdRows d ≤ 256 * (4 * tdRows d / 256 + 1)
      omega
    · exact bne_iff_ne.2 hh

end Sys2Proof.Proofs

end


section

/-! The capability words and the words that change an object's state (12_memory_core.md R291 to R296, R77, R84). -/

namespace Sys2Proof.Machine
open Sys2Proof
set_option Elab.async false

/-- The low field of a number that fits is the number. -/
theorem extractLsb'_low_toNat {w : Nat} {x : BitVec w} {n : Nat} (h : x.toNat < 2 ^ n) : (x.extractLsb' 0 n).toNat = x.toNat := by
  rw [BitVec.extractLsb'_toNat, Nat.shiftRight_zero, Nat.mod_eq_of_lt h]

theorem extractLsb'_low {w : Nat} (x : BitVec w) (n : Nat) : x.extractLsb' 0 n = x.setWidth n := by
  apply BitVec.eq_of_toNat_eq
  rw [BitVec.extractLsb'_toNat, Nat.shiftRight_zero, BitVec.toNat_setWidth]

theorem Core.cap_setCap (c : Core) (n : BitVec 4) (x : Cap) : (c.setCap n x).cap n = x := by
  simp only [Core.cap, Core.setCap, Vector.getElem_set_self]

section
variable {s : State} {d cs : BitVec 4} {gb gc : BitVec 6}

/-! ## Moves -/

theorem execCmovRemote_eq (ht : (s.me.gr gc).toNat < 4096) : execCmovRemote d cs gc s =
    actOut [.c cs, .g gc] [] (s.coreCheck 0x3D 1 gc ((s.me.gr gc).extractLsb' 0 12)) s.me.sbFull
      (s.onMe fun c => c.buffer (.send (.core (s.me.gr gc).toNat) (.capDeposit d (c.cap cs))) true) s := by
  have hn : ((s.me.gr gc).extractLsb' 0 12).toNat = (s.me.gr gc).toNat := extractLsb'_low_toNat ht
  simp only [execCmovRemote, high_bits_zero, decide_eq_false (Nat.not_le.2 ht), check_false, hn]
  rw [firstOf_skip rfl, firstOf_one]

theorem execCmovRemote_high (h : s.me.ready [.c cs, .g gc] []) (ht : 4096 ≤ (s.me.gr gc).toNat) :
    execCmovRemote d cs gc s = .next (s.raise ⟨0x18, 1, gc, (s.me.gr gc).setWidth 48, 0x3D⟩) :=
  actOut_raise h (firstOf_first (check_true (by rw [high_bits_zero]; exact decide_eq_true ht)))

/-! ## Narrowed bounds -/

/-- The bounds that `cderive` gives. -/
def State.newLower (s : State) (gb : BitVec 6) : BitVec 48 := (s.me.gr gb).setWidth 48
def State.newUpper (s : State) (gb : BitVec 6) : BitVec 48 := (s.me.gr (gb + 1)).setWidth 48

/-- A capability with other bounds. -/
def Cap.narrowed (k : Cap) (lo up : BitVec 48) : Cap := ⟨up ++ lo ++ k.bits.extractLsb' 0 32, true⟩

/-- The new bounds lie within the old ones (R294). -/
def Cap.nests (k : Cap) (lo up : BitVec 48) : Prop := k.lower ≤ lo.toNat ∧ lo.toNat ≤ up.toNat ∧ up.toNat ≤ k.upper

theorem Cap.narrowed_toNat (k : Cap) (lo up : BitVec 48) :
    (k.narrowed lo up).bits.toNat = (up.toNat * 2 ^ 48 + lo.toNat) * 2 ^ 32 + k.bits.toNat % 2 ^ 32 := by
  rw [Cap.narrowed, append_toNat, append_toNat, BitVec.extractLsb'_toNat, Nat.shiftRight_zero]

theorem Cap.narrowed_fields (k : Cap) (lo up : BitVec 48) : (k.narrowed lo up).lower = lo.toNat ∧
    (k.narrowed lo up).upper = up.toNat ∧ (k.narrowed lo up).index = k.index ∧ (k.narrowed lo up).home = k.home := by
  have hv := k.narrowed_toNat lo up
  have hlo := lo.isLt
  have hup := up.isLt
  refine ⟨?_, ?_, ?_, ?_⟩
  · rw [Cap.lower, BitVec.extractLsb'_toNat, hv, Nat.shiftRight_eq_div_pow]; omega
  · rw [Cap.upper, BitVec.extractLsb'_toNat, hv, Nat.shiftRight_eq_div_pow]; omega
  · rw [Cap.index, Cap.index, BitVec.extractLsb'_toNat, BitVec.extractLsb'_toNat, hv, Nat.shiftRight_zero, Nat.shiftRight_zero]
    omega
  · apply BitVec.eq_of_toNat_eq
    rw [Cap.home, Cap.home, BitVec.extractLsb'_toNat, BitVec.extractLsb'_toNat, hv, Nat.shiftRight_eq_div_pow,
      Nat.shiftRight_eq_div_pow]
    omega

theorem Cap.nests_iff (k : Cap) (lo up : BitVec 48) :
    (decide (k.lower ≤ lo.toNat) && decide (lo.toNat ≤ up.toNat) && decide (up.toNat ≤ k.upper)) = true ↔ k.nests lo up := by
  simp only [Bool.and_eq_true, decide_eq_true_eq, Cap.nests, and_assoc]

/-- `cderive` checks the tag, the bounds and the right, in this order. -/
theorem execCderive_eq (hb : gb ≠ 63) : ∃ val, execCderive d cs gb s = act [.c cs, .g gb, .g (gb + 1)] [.c d]
    (firstOf [check (!(s.me.cap cs).tag) ⟨0x19, 0, cs.setWidth 6, 0, 0x3D⟩,
      check (!(decide ((s.me.cap cs).lower ≤ (s.newLower gb).toNat) && decide ((s.newLower gb).toNat ≤ (s.newUpper gb).toNat) &&
        decide ((s.newUpper gb).toNat ≤ (s.me.cap cs).upper))) ⟨0x1A, 3, cs.setWidth 6, val, 0x3D⟩,
      check (!(s.me.cap cs).bits.getLsbD 27) ⟨0x1B, 27, cs.setWidth 6, 0, 0x3D⟩]) false
    (s.later (.cap d ((s.me.cap cs).narrowed (s.newLower gb) (s.newUpper gb))) 1) s := by
  have hnext : s.me.next gb = s.me.gr (gb + 1) := if_neg hb
  unfold execCderive
  dsimp only
  rw [hnext, extractLsb'_low, extractLsb'_low, beq_eq_false_iff_ne.2 hb, check_false rfl, firstOf_skip rfl]
  exact ⟨_, rfl⟩

section
variable (h : s.me.ready [.c cs, .g gb, .g (gb + 1)] [.c d]) (hb : gb ≠ 63)
include h hb

theorem execCderive_untagged (ht : (s.me.cap cs).tag = false) :
    execCderive d cs gb s = .next (s.raise ⟨0x19, 0, cs.setWidth 6, 0, 0x3D⟩) := by
  obtain ⟨val, heq⟩ := execCderive_eq (s := s) (d := d) (cs := cs) hb
  exact heq.trans (act_raise h (firstOf_first (check_true (by rw [ht]; rfl))))

theorem execCderive_wider (ht : (s.me.cap cs).tag = true) (hn : ¬(s.me.cap cs).nests (s.newLower gb) (s.newUpper gb)) :
    ∃ val, execCderive d cs gb s = .next (s.raise ⟨0x1A, 3, cs.setWidth 6, val, 0x3D⟩) := by
  obtain ⟨val, heq⟩ := execCderive_eq (s := s) (d := d) (cs := cs) hb
  refine ⟨val, heq.trans (act_raise h ?_)⟩
  rw [ht, Bool.eq_false_iff.2 (mt (Cap.nests_iff _ _ _).1 hn)]
  rfl

theorem execCderive_right (ht : (s.me.cap cs).tag = true) (hn : (s.me.cap cs).nests (s.newLower gb) (s.newUpper gb))
    (hr : (s.me.cap cs).bits.getLsbD 27 = false) :
    execCderive d cs gb s = .next (s.raise ⟨0x1B, 27, cs.setWidth 6, 0, 0x3D⟩) := by
  obtain ⟨val, heq⟩ := execCderive_eq (s := s) (d := d) (cs := cs) hb
  refine heq.trans (act_raise h ?_)
  rw [ht, (Cap.nests_iff _ _ _).2 hn, hr]
  rfl

theorem execCderive_next (ht : (s.me.cap cs).tag = true) (hn : (s.me.cap cs).nests (s.newLower gb) (s.newUpper gb))
    (hr : (s.me.cap cs).bits.getLsbD 27 = true) :
    execCderive d cs gb s = .next (s.later (.cap d ((s.me.cap cs).narrowed (s.newLower gb) (s.newUpper gb))) 1) := by
  obtain ⟨val, heq⟩ := execCderive_eq (s := s) (d := d) (cs := cs) hb
  refine heq.trans (act_next h ?_ rfl h.1)
  rw [ht, (Cap.nests_iff _ _ _).2 hn, hr]
  rfl

end

/-! ## Cleared rights -/

/-- A capability with the rights of a mask alone. -/
def Cap.limited (k : Cap) (g : BitVec 64) : Cap :=
  ⟨putBits k.bits 24 (k.bits.extractLsb' 24 8 &&& g.setWidth 8 &&& 0x3F), k.tag⟩

theorem Cap.limited_bit (k : Cap) (g : BitVec 64) {j : Nat} (hj : j < 128) : (k.limited g).bits.getLsbD j =
    if 24 ≤ j ∧ j < 32 then k.bits.getLsbD j && g.getLsbD (j - 24) && decide (j < 30) else k.bits.getLsbD j := by
  rw [Cap.limited, putBits_bit _ _ _ _ hj]
  by_cases h : 24 ≤ j ∧ j < 32
  · rw [if_pos h, if_pos h]
    obtain ⟨h24, h32⟩ := h
    have hmask : (0x3F : BitVec 8).getLsbD (j - 24) = decide (j < 30) := by interval_cases j <;> rfl
    rw [BitVec.getLsbD_and, BitVec.getLsbD_and, hmask, BitVec.getLsbD_extractLsb', BitVec.getLsbD_setWidth,
      show 24 + (j - 24) = j by omega, decide_eq_true (show j - 24 < 8 by omega), Bool.true_and, Bool.true_and]
  · rw [if_neg h, if_neg h]

/-! ## Objects -/

/-- A word on the escrow of an object of this module, with the entry that the walk finds (R292, R293). -/
theorem escrowWord_eq {src : List Res} {chk : Option Exc} {absent : BitVec 8} {test : BitVec 512 → Option (BitVec 8)} {wait : Bool}
    {new : BitVec 512 → BitVec 512} {ps : List (Nat × Nat)} {m : Mmu} {h : Nat} (ha : s.me.ahead = none) (hc : chk = none)
    (hcap : capCheck 0x3D cs (s.me.cap cs) [.transfer] 0 [] = none) (hh : (s.me.cap cs).home = s.fabricId)
    (hix : (s.me.cap cs).index < s.guest.count) (ht : s.entryAddr (s.me.cap cs).index = (.ok ps, m))
    (hps : (ps.map fun p => p.1).head? = some h) :
    escrowWord cs src chk absent test wait new s = hbmWord cs src [] []
      ((test (BitVec.ofNat 512 (s.hbm.nat h 64))).map fun sub => ⟨0x1C, sub, cs.setWidth 6, 0, 0x3D⟩) (.ok ps) wait false whole
      (fun u => (u.setMmu m).setEntry h (s.me.cap cs).index (new (BitVec.ofNat 512 (s.hbm.nat h 64)))) (farWhole whole) s := by
  have hne : ps.isEmpty = false := by
    cases ps with
    | nil => cases hps
    | cons x l => rfl
  have hhead : (ps.map (·.1)).headD 0 = h := by rw [List.headD_eq_head?_getD, hps]; rfl
  have hlt : decide (s.guest.count ≤ (s.me.cap cs).index) = false := decide_eq_false (Nat.not_le.2 hix)
  simp only [escrowWord, ha, Option.isSome_none, Bool.false_eq_true, if_false, hc, hcap, bne_eq_false_iff_eq.2 hh, check_false, hlt,
    firstOf, Option.isNone_none, ht, Tx.parts, hne, Bool.not_false, Bool.and_self, if_true, hhead]

/-- What the words on an object's escrow find: a capability of this module with the right, and the entry (R292). -/
structure EscrowOk (s : State) (cs : BitVec 4) (ps : List (Nat × Nat)) (m : Mmu) (h : Nat) : Prop where
  cap : capCheck 0x3D cs (s.me.cap cs) [.transfer] 0 [] = none
  home : (s.me.cap cs).home = s.fabricId
  index : (s.me.cap cs).index < s.guest.count
  walk : s.entryAddr (s.me.cap cs).index = (.ok ps, m)
  first : (ps.map fun p => p.1).head? = some h

section
variable {src : List Res} {chk : Option Exc} {absent : BitVec 8} {test : BitVec 512 → Option (BitVec 8)} {wait : Bool}
  {new : BitVec 512 → BitVec 512} {ps : List (Nat × Nat)} {m : Mmu} {x : Nat} (hr : s.me.ready (.c cs :: src) [])
  (hc : chk = none) (he : EscrowOk s cs ps m x)
include hr hc he

theorem escrowWord_next (ht : test (BitVec.ofNat 512 (s.hbm.nat x 64)) = none) (hw : wait = false) :
    escrowWord cs src chk absent test wait new s =
      .next ((s.setMmu m).setEntry x (s.me.cap cs).index (new (BitVec.ofNat 512 (s.hbm.nat x 64)))) := by
  rw [escrowWord_eq hr.1 hc he.cap he.home he.index he.walk he.first, ht]
  refine hbmWord_next (val := []) ((List.append_nil _).symm ▸ hr) rfl he.home rfl hw ?_
  exact (State.setEntry_ahead _ _ _ _).trans ((s.setMmu_ahead m).trans hr.1)

theorem escrowWord_raise {sub : BitVec 8} (ht : test (BitVec.ofNat 512 (s.hbm.nat x 64)) = some sub) :
    escrowWord cs src chk absent test wait new s = .next (s.raise ⟨0x1C, sub, cs.setWidth 6, 0, 0x3D⟩) := by
  rw [escrowWord_eq hr.1 hc he.cap he.home he.index he.walk he.first, ht]
  exact hbmWord_raise (val := []) ((List.append_nil _).symm ▸ hr) rfl

end

/-- Why an entry is not given away (R292). -/
def State.xferRefusal (s : State) (gd : BitVec 6) (e : BitVec 512) : Option (BitVec 8) :=
  if objState e ≠ 1 then some 1 else if objCirc e ≠ s.guest.circ then some 6
    else if ((s.me.gr gd).extractLsb' 0 1).toNat = objCirc e then some 2 else none

/-- Why an entry is not taken (R293). -/
def State.acqRefusal (s : State) (e : BitVec 512) : Option (BitVec 8) :=
  if objState e ≠ 2 then some 3 else if objEdst e ≠ s.guest.circ then some 4 else none

/-- An entry in escrow for the other circuit. -/
def xferEntry (v : BitVec 64) (e : BitVec 512) : BitVec 512 := putBits (putBits e 0 (2 : BitVec 2)) 5 (v.extractLsb' 0 1)

/-- An entry owned by the circuit that it was in escrow for. -/
def acqEntry (e : BitVec 512) : BitVec 512 :=
  putBits (putBits (putBits e 0 (1 : BitVec 2)) 4 (e.extractLsb' 5 1)) 32 (e.extractLsb' 32 32 + 1)

theorem execOxfer_eq (hd : (s.me.gr gc).toNat < 2) : execOxfer cs gc s = escrowWord cs [.g gc] none 1 (s.xferRefusal gc)
    (s.me.writesOpen || s.me.accessesOpen) (xferEntry (s.me.gr gc)) s := by
  unfold execOxfer
  dsimp only
  rw [show (s.me.gr gc).extractLsb' 1 63 = 0 from extractLsb'_of_lt hd _]
  rfl

theorem execOacq_eq : execOacq cs s = escrowWord cs [] none 3 s.acqRefusal s.me.writeHeld acqEntry s := rfl

theorem State.xferRefusal_none {e : BitVec 512} (hd : (s.me.gr gc).toNat < 2) (hst : objState e = 1)
    (hcirc : objCirc e = s.guest.circ) (hto : (s.me.gr gc).toNat ≠ objCirc e) : s.xferRefusal gc e = none := by
  rw [State.xferRefusal, if_neg (not_not.2 hst), if_neg (not_not.2 hcirc), extractLsb'_low_toNat hd, if_neg hto]

theorem State.acqRefusal_none {e : BitVec 512} (hst : objState e = 2) (hdst : objEdst e = s.guest.circ) :
    s.acqRefusal e = none := by
  rw [State.acqRefusal, if_neg (not_not.2 hst), if_neg (not_not.2 hdst)]

end

end Sys2Proof.Machine

namespace Sys2Proof.Proofs
open Sys2Proof Sys2Proof.Machine
set_option Elab.async false

/-- Settles O38: each word is a word of the core, or a word on the escrow of an object. -/
theorem capabilityWords : Obligations.CapabilityWords := by
  unfold Obligations.CapabilityWords
  intro s d cs gb gc k reg
  refine ⟨fun h hw => ?_, fun h => ?_, fun c x => Core.cap_setCap c d x, fun h hb => ?_, fun hb h => ?_, fun h => ⟨fun ht => ?_, fun ht => ?_⟩,
    fun ps m x hcap hh hix ht hps => ?_⟩
  · refine (?_ : execHfenceL s = _)
    cases hwo : s.me.writesOpen with
    | false => exact act_next h rfl hwo h.1
    | true => exact act_wait h (hw hwo) rfl hwo
  · exact (act_next h rfl rfl h.1 : execCmov d cs s = _)
  · intro t
    have hlow (ht : t.toNat < 4096) : (t.extractLsb' 0 12).toNat = t.toNat := extractLsb'_low_toNat ht
    refine ⟨fun ht hn => ?_, fun ht hn => ?_, fun ht => execCmovRemote_high h ht⟩
    · refine ((execCmovRemote_eq ht).trans (actOut_next h (State.coreCheck_none (hlow ht ▸ hn)) (Core.sbFull_false hb)
        (Core.buffer_ahead h.1 _ _)) : execCmovRemote d cs gc s = _).trans ?_
      rw [State.onMe, Core.buffer_eq h.1]
      rfl
    · refine ((execCmovRemote_eq ht).trans (actOut_raise h (State.coreCheck_some (hlow ht ▸ hn))) : execCmovRemote d cs gc s = _).trans ?_
      have hv : (t.extractLsb' 0 12).setWidth 48 = t.setWidth 48 := by
        apply BitVec.eq_of_toNat_eq
        rw [BitVec.toNat_setWidth, BitVec.toNat_setWidth, hlow ht]
      exact congrArg (fun v => Host.Outcome.next (s.raise ⟨0x20, 1, gc, v, 0x3D⟩)) hv
  · intro lo up nested new
    exact ⟨execCderive_next h hb, Cap.narrowed_fields _ _ _, execCderive_untagged h hb,
      execCderive_right h hb, execCderive_wider h hb⟩
  · exact ⟨k.limited (s.me.gr gc), (act_next h (check_false (by rw [ht]; rfl)) rfl h.1 : execCrights d cs gc s = _), ht,
      fun j hj => k.limited_bit _ hj⟩
  · exact (act_raise h (check_true (by rw [ht]; rfl)) : execCrights d cs gc s = _)
  · intro e puts
    have he : EscrowOk s cs ps m x := ⟨hcap, hh, hix, ht, hps⟩
    refine ⟨fun h hd hst hcirc hto hw => ?_, fun h hst hdst hw => ?_, fun h hd hst => ?_, fun h hst => ?_⟩
    · exact ((execOxfer_eq hd).trans (escrowWord_next h rfl he (State.xferRefusal_none hd hst hcirc hto) hw) : execOxfer cs gc s = _)
    · exact (execOacq_eq.trans (escrowWord_next h rfl he (State.acqRefusal_none hst hdst) hw) : execOacq cs s = _)
    · exact ((execOxfer_eq hd).trans (escrowWord_raise h rfl he (if_pos hst)) : execOxfer cs gc s = _)
    · exact (execOacq_eq.trans (escrowWord_raise h rfl he (if_pos hst)) : execOacq cs s = _)

end Sys2Proof.Proofs

end


section

/-! The store buffer's exits and what remote accesses do where they arrive (02_execution_model.md R36,
08_storage_sync.md R186 to R193). -/

namespace Sys2Proof.Machine
open Sys2Proof
set_option Elab.async false

/-! ## The head of the store buffer -/

section
variable {s : State} {e : SbEntry} {es : List SbEntry}

theorem State.running_ne {s : State} (hf : s.flows = true) (hp : s.phase ≠ .announce) :
    (s.flows && s.phase != .announce) = true := by
  rw [hf, bne_iff_ne.2 hp]; rfl

theorem execStoreBufferExit_eq (hev : s.ev = .core s.me.id) (hf : s.flows = true) (hp : s.phase ≠ .announce)
    (hsb : s.me.sb = e :: es) :
    execStoreBufferExit s = .next (if s.me.mayExit e then (s.exit e).getD s else s) := by
  simp only [execStoreBufferExit, hev, State.running_ne hf hp, if_true, State.onCore_me, hsb]

/-- The state without the head of its store buffer. -/
def State.popped (s : State) (es : List SbEntry) : State := s.onMe fun c => { c with sb := es }

/-- A message that an entry sends: unacknowledged until its answer, counted as an injection. -/
def State.sent (s t : State) (e : SbEntry) (d : Place) (op : RemoteOp) : State :=
  { t.updRegion s.me.id.owner s.me.id.circ fun r => { r with inj := r.inj + 1 } with
    me := { t.me with unacked := t.me.unacked ++ [⟨e.seq, d, (op.covers.getD (0, 0)).1, (op.covers.getD (0, 0)).2⟩] }
    net := s.net ++ [⟨s.me.id, d, op, e.seq, s.stamp⟩] }

theorem State.sendEntry_onMe (s : State) (f : Core → Core) (hid : (f s.me).id = s.me.id) (d : Place) (op : RemoteOp) (e : SbEntry) :
    (s.onMe f).sendEntry d op e.seq = s.sent (s.onMe f) e d op := by
  simp only [State.sendEntry, State.send, State.sent, State.onMe, hid]
  rfl

variable (hsb : s.me.sb = e :: es)
include hsb

theorem exit_scr {o : Nat} {bs : List Byte} (hk : e.kind = .scr o bs) (hc : s.me.composed = false) :
    s.exit e = some ((s.popped es).onMe fun c => c.writeScr o bs) := by
  have hput (t : State) (ht : t.me.composed = false) : t.scrPut o bs = t.onMe fun c => c.writeScr o bs := by
    unfold State.scrPut; rw [ht]; rfl
  simp only [State.exit, hk, State.popSb_eq hsb]
  exact congrArg some (hput _ hc)

theorem exit_stfe {o : Nat} {v : BitVec 64} (hk : e.kind = .stfe o v) (hc : s.me.composed = false) :
    s.exit e = if s.me.fe.contains (o / 128) then none else some ((s.popped es).onMe fun c =>
      { c.writeScr o (natBytes 8 v.toNat) with fe := feLines c.fe (o / 128) true 1 }) := by
  have hput (t : State) (ht : t.me.composed = false) (bs : List Byte) : t.scrPut o bs = t.onMe fun c => c.writeScr o bs := by
    unfold State.scrPut; rw [ht]; rfl
  have heff : ((s.popped es).scrPut o (natBytes 8 v.toNat)).feSet o true = (s.popped es).onMe fun c =>
      { c.writeScr o (natBytes 8 v.toNat) with fe := feLines c.fe (o / 128) true 1 } := by
    rw [hput (s.popped es) hc]
    exact State.feSet_plain o true hc
  simp only [State.exit, hk, State.popSb_eq hsb, State.feIs_plain o hc]
  rw [← heff]
  rfl

theorem exit_send {d : Place} {op : RemoteOp} (hk : e.kind = .send d op) :
    s.exit e = some (s.sent (s.popped es) e d op) := by
  simp only [State.exit, hk, State.popSb_eq hsb]
  exact congrArg some (s.sendEntry_onMe _ rfl d op e)

theorem exit_push {x : BitVec 512} {top : Bool} (hk : e.kind = .push x top) :
    s.exit e = some ((s.popped es).onMe fun c => c.push x top) := by
  simp only [State.exit, hk, State.popSb_eq hsb]
  rfl

theorem exit_pushTcb {o : Nat} {hi : Bool} (hk : e.kind = .pushTcb o hi) (hc : s.me.composed = false) :
    s.exit e = some ((s.popped es).onMe fun c => c.push (tcbEntry s.me.scr s.me.id.num o) false) := by
  have hh : (s.popped es).holds o = (s.me.id, o) := by
    unfold State.holds
    exact if_neg (by rw [show (s.popped es).me.composed = false from hc]; exact Bool.false_ne_true)
  have hm : (s.popped es).core? s.me.id = some (s.popped es).me := (s.popped es).core?_me
  simp only [State.exit, hk, State.popSb_eq hsb]
  change some _ = _
  rw [show (s.onMe fun c => { c with sb := es }) = s.popped es from rfl, hh]
  dsimp only
  rw [hm]
  rfl

theorem exit_bulk {b : Bulk} (hk : e.kind = .bulk b) :
    s.exit e = some ((s.popped es).onMe fun c => { c with bulks := c.bulks ++ [b] }) := by
  simp only [State.exit, hk, State.popSb_eq hsb]
  rfl

theorem exit_finish_signal {r : BitVec 64} {rs : List (BitVec 64)} {v : BitVec 64} {home o : Nat}
    (hk : e.kind = .finish (r :: rs) v home o) :
    s.exit e = some (s.sent (s.onMe fun c => { c with sb := { e with kind := .finish rs v home o } :: es }) e
      (.core (r.extractLsb' 0 12).toNat) (.signal r v)) := by
  have hpop : (s.onMe fun c => { c with sb := { e with kind := .finish rs v home o } :: c.sb.drop 1 }) =
      s.onMe fun c => { c with sb := { e with kind := .finish rs v home o } :: es } := by
    simp only [State.onMe, hsb, List.drop_succ_cons, List.drop_zero]
  simp only [State.exit, hk]
  rw [hpop]
  exact congrArg some (s.sendEntry_onMe _ rfl _ _ e)

theorem exit_finish_last {v : BitVec 64} {home o : Nat} (hk : e.kind = .finish [] v home o) :
    s.exit e = some (if home = s.me.id.num then (s.popped es).onMe fun c => c.writeScr o [withState (c.scr.get o) 0]
      else s.sent (s.popped es) e (.core home) (.state o 0)) := by
  simp only [State.exit, hk, State.popSb_eq hsb]
  by_cases hh : home = s.me.id.num
  · rw [if_pos hh, if_pos hh]; rfl
  · rw [if_neg hh, if_neg hh]
    exact congrArg some (s.sendEntry_onMe _ rfl _ _ e)

theorem exit_hbm {ps : List (Nat × List Byte)} (hk : e.kind = .hbm ps) :
    s.exit e = some (((s.popped es).onMe fun c => { c with hbmWr := c.hbmWr ++ ps.map fun p => (p.1, p.2.length) }).putHbm ps) := by
  simp only [State.exit, hk, State.popSb_eq hsb]
  rfl

theorem exit_home {h : BitVec 9} {obj : BitVec 15} {op : HomeOp} (hk : e.kind = .home h obj op) :
    s.exit e = some { (s.popped es).onMe fun c => { c with unacked := c.unacked ++ [⟨e.seq, .home h, 0, 0⟩] } with
      homeOut := s.homeOut ++ [⟨s.me.id, e.seq, h, obj, op, 0⟩] } := by
  simp only [State.exit, hk, State.popSb_eq hsb]
  rfl

omit hsb in
theorem Core.landG_sb (c : Core) (l : List SbEntry) (rd : BitVec 6) (v : BitVec 64) (q : Nat) :
    ({ c with sb := l } : Core).landG rd v q = { c.landG rd v q with sb := l } := by
  have hset : ({ c with sb := l } : Core).setG rd v = { c.setG rd v with sb := l } := by
    unfold Core.setG
    split <;> rfl
  unfold Core.landG
  rw [hset]
  generalize c.setG rd v = d
  dsimp only
  split
  · split <;> rfl
  · rfl

section
variable {op : AtomOp} {a : Nat} {b exp : BitVec 64} {rd : BitVec 6} (hk : e.kind = .hatom op a b exp rd)
include hk

theorem exit_hatom_waits (hs : s.serve s.me.id.owner [(a, atomSize op)] true = none) : s.exit e = none := by
  simp only [State.exit, hk, hs, Option.map_none]

theorem exit_hatom {u : State} (hs : s.serve s.me.id.owner [(a, atomSize op)] true = some u)
    (hfl : ∀ x ∈ s.flaws, a / 32 ≤ x.1 → a + atomSize op ≤ 32 * x.1) :
    s.exit e = some ((u.onMe fun c => { c.landG rd (BitVec.ofNat 64 (s.hbm.nat a (atomSize op))) e.seq with
      sb := es, outs := c.outs.filter fun y => y.seq ≠ e.seq, hbmWr := c.hbmWr ++ [(a, atomSize op)] }).putHbm
        [(a, natBytes (atomSize op) (atomNew op (BitVec.ofNat 64 (s.hbm.nat a (atomSize op))) b exp).toNat)]) := by
  obtain ⟨l, rfl⟩ := Laws.serve_chans hs
  have hclean (f : State → State) : ({ s with chans := l } : State).arrayRead [(a, atomSize op)] f = f { s with chans := l } := by
    refine Laws.arrayRead_clean f fun x hx p hp => ?_
    rw [List.mem_singleton.1 hp]
    exact hfl x hx
  simp only [State.exit, hk, hs, Option.map_some]
  rw [hclean]
  have hpop : s.me.popSb = { s.me with sb := es } := by
    simp only [Core.popSb, hsb, List.drop_succ_cons, List.drop_zero]
  simp only [atomOn, State.onMe, hpop, Core.landG_sb]

end
end

theorem Core.mayExit_of_idle {c : Core} {e : SbEntry}
    (ho : (c.outs.any fun o => decide (o.seq < e.seq) && !o.performed && o.kind != .division && o.kind != .steal) = false)
    (hu : c.unacked = []) (hb : e.behind = 0) (hw : c.walks = []) : c.mayExit e = true := by
  simp [Core.mayExit, ho, hu, hb, hw]

theorem Core.mayExit_release {c : Core} {e : SbEntry} (hr : e.rel = true) (hu : c.unacked ≠ []) : c.mayExit e = false := by
  have hne : c.unacked.isEmpty = false := by
    cases h : c.unacked with
    | nil => exact absurd h hu
    | cons x l => rfl
  simp only [Core.mayExit, hr, hne, Bool.true_or, Bool.not_false, Bool.and_self, Bool.not_true, Bool.and_false, Bool.false_and]

theorem execResultForward_eq {s : State} {k : Nat} {m : Msg} (hev : s.ev = .msg k) (hm : s.msg? k = some m)
    (hst : m.stamp + 1 = s.stamp) (hp : s.phase = .run) :
    execResultForward s = .next { s with net := setAt s.net k { m with stamp := s.stamp } } := by
  have hc : m.stamp + 1 = s.stamp ∧ (s.phase = .remap ∨ s.phase = .run) := ⟨hst, .inr hp⟩
  simp only [execResultForward, hev, hm, if_pos hc]

/-! ## Arrivals at a core -/

section
variable {s : State} {k : Nat} {m : Msg}

/-- What an arrival at a core does: it changes the core, in run-ahead what is kept at b too, and sets the latch. -/
def State.arrivedAt (u : State) (c : Core) (f : Core → Core) : State :=
  u.updCore c.id fun d => d.both fun d => { f d with latch := true }

/-- The answer of a load or atomic: performed at its core, with its old value. -/
def State.answered (t : State) (m : Msg) (rd : BitVec 6) (v : BitVec 64) : State :=
  ((t.performed m).answer m (.reply rd v)).counted m

section
variable {num : Nat} {c : Core} (h : s.arrives k m) (hd : m.dst = .core num) (hc : s.core? { m.src with num := num } = some c)
include h hd hc

theorem State.less_target : (s.less k).targetOf m = some c :=
  State.targetOf_eq hd ((s.less_core? k _).trans hc)

theorem execRemoteStoreApply_core {o : Nat} {bs : List Byte} (hop : m.op = .store o bs) : execRemoteStoreApply s =
    .next ((((s.less k).arrivedAt c fun d => d.writeScr o bs).acknowledge m).counted m) := by
  refine State.deliver_eq h _ (d := true) ?_
  simp only [hop, applyStore, hd, State.less_target h hd hc, Option.map_some]
  rfl

theorem execRemoteLoadApply_core {o n : Nat} {sg : Bool} {rd : BitVec 6} (hop : m.op = .load o n sg rd) : execRemoteLoadApply s =
    .next (((s.less k).arrivedAt c id).answered m rd (extendBytes sg n (c.scr.nat o n))) := by
  refine State.deliver_eq h _ (d := true) ?_
  simp only [hop, applyLoad, hd, State.less_target h hd hc, Option.map_some]
  rfl

theorem execAtomicApply_core {op : AtomOp} {o : Nat} {b exp : BitVec 64} {rd : BitVec 6} (hop : m.op = .atomic op o b exp rd) :
    execAtomicApply s = .next (((s.less k).arrivedAt c fun d => d.writeScr o (atomOn c.scr op o b exp).2).answered m rd
      (atomOn c.scr op o b exp).1) := by
  refine State.deliver_eq h _ (d := true) ?_
  simp only [hop, applyAtomic, hd, State.less_target h hd hc, Option.map_some]
  rfl

theorem execRemoteAck_core {q : Nat} (hop : m.op = .ack q) : execRemoteAck s =
    .next (((s.less k).updCore c.id fun d => { d with
      unacked := dropSeq d.unacked q
      slice := d.slice.map fun y => { y with acks := y.acks.erase q } }).counted m) := by
  refine State.deliver_eq h _ (d := true) ?_
  simp only [hop, State.less_target h hd hc, Option.map_some]

omit h hd hc in
theorem Core.landG_refs (c : Core) (rd : BitVec 6) (v : BitVec 64) (q : Nat) : (c.landG rd v q).refs = c.refs := by
  have hset : (c.setG rd v).refs = c.refs := by
    unfold Core.setG
    split <;> rfl
  unfold Core.landG
  dsimp only
  split
  · split <;> exact hset
  · exact hset

theorem execRemoteLoadReply_core {rd : BitVec 6} {v : BitVec 64} (hop : m.op = .reply rd v)
    (ho : (c.outs.any (·.seq == m.seq)) = true) (hs : (c.outs.any fun o => o.seq == m.seq && o.kind == .successor) = false)
    (hid : (s.less k).me.id = c.id) (hme : (s.less k).me = c) : execRemoteLoadReply s =
      .next (({ s.less k with me := { c.landG rd v m.seq with
        outs := c.outs.filter (·.seq ≠ m.seq), unacked := dropSeq c.unacked m.seq } } : State).counted m) := by
  refine State.deliver_eq h _ (d := true) ?_
  simp only [hop, applyReply, State.less_target h hd hc, Option.map_some, ← hid, State.updCore_self]
  simp only [State.onMe, hme, ho, hs, if_true, Bool.false_eq_true, if_false, ← Core.landG_refs c rd v m.seq]

end

/-! ## Arrivals at a bank -/

theorem Memory.nat_putBytes_nil (o n : Nat) (bs : List Byte) (hn : bs.length = n) :
    (Memory.putBytes [] o bs).nat o n = bytesNat bs := by
  subst hn
  rw [Memory.nat, Memory.bytes_putBytes rfl]

section
variable {l : Nat} (h : s.arrives k m) (hd : m.dst = .bank l)
include h hd

theorem bankStore_eq {o : Nat} {bs : List Byte} (hop : m.op = .store o bs) : ∀ i ∈ [Instr.remoteStoreApply, .bankOpApply],
    exec i s = .next ((((s.less k).updRegion m.src.owner m.src.circ fun r => r.bankPut l o bs).acknowledge m).counted m) := by
  simp only [List.mem_cons, List.not_mem_nil, or_false]
  rintro i (rfl | rfl)
  · refine (State.deliver_eq h _ (d := true) ?_ : execRemoteStoreApply s = _)
    simp only [hop, applyStore, hd]
    rfl
  · refine (State.deliver_eq h _ (d := true) ?_ : execBankOpApply s = _)
    simp only [hop, applyStore, hd]
    rfl

variable {r : Region} (hr : s.region? m.src.owner m.src.circ = some r) (hv : r.veil = [])
include hr hv

theorem State.bankOf_nat (o n : Nat) : ((s.less k).bankOf m l o n).nat o n = (r.banks.getD l []).nat o n := by
  have hb : (s.less k).bankOf m l o n = Memory.putBytes [] o (r.bankBytes l o n) := by
    unfold State.bankOf
    rw [show (s.less k).region? m.src.owner m.src.circ = some r from hr]
  rw [hb, Region.bankBytes, Region.veiled_nil r hv, Memory.nat_putBytes_nil o n _ (Memory.bytes_length _ _ _)]
  rfl

theorem bankLoad_eq {o n : Nat} {sg : Bool} {rd : BitVec 6} (hop : m.op = .load o n sg rd) :
    ∀ i ∈ [Instr.remoteLoadApply, .bankOpApply], exec i s =
      .next ((s.less k).answered m rd (extendBytes sg n ((r.banks.getD l []).nat o n))) := by
  simp only [List.mem_cons, List.not_mem_nil, or_false]
  rintro i (rfl | rfl)
  · refine (State.deliver_eq h _ (d := true) ?_ : execRemoteLoadApply s = _)
    simp only [hop, applyLoad, hd, State.bankOf_nat h hd hr hv]
  · refine (State.deliver_eq h _ (d := true) ?_ : execBankOpApply s = _)
    simp only [hop, applyLoad, hd, State.bankOf_nat h hd hr hv]

theorem bankAtomic_eq {op : AtomOp} {o : Nat} {b exp : BitVec 64} {rd : BitVec 6} (hop : m.op = .atomic op o b exp rd) :
    ∀ i ∈ [Instr.atomicApply, .bankOpApply], exec i s =
      .next (((s.less k).updRegion m.src.owner m.src.circ fun r' => r'.bankPut l o (atomOn (r.banks.getD l []) op o b exp).2).answered
        m rd (atomOn (r.banks.getD l []) op o b exp).1) := by
  simp only [List.mem_cons, List.not_mem_nil, or_false]
  rintro i (rfl | rfl)
  · refine (State.deliver_eq h _ (d := true) ?_ : execAtomicApply s = _)
    simp only [hop, applyAtomic, hd, atomOn, State.bankOf_nat h hd hr hv]
    rfl
  · refine (State.deliver_eq h _ (d := true) ?_ : execBankOpApply s = _)
    simp only [hop, applyAtomic, hd, atomOn, State.bankOf_nat h hd hr hv]
    rfl

end
end

/-! ## What the operations of an atomic make of the old value -/

theorem atomNew_signed (old b exp : BitVec 64) : (atomNew .min old b exp).toInt = min old.toInt b.toInt ∧
    (atomNew .max old b exp).toInt = max old.toInt b.toInt := by
  by_cases h : old.toInt < b.toInt <;>
    simp [atomNew, BitVec.slt, h, min_def, max_def] <;> omega

theorem atomNew_unsigned (old b exp : BitVec 64) : (atomNew .minn old b exp).toNat = min old.toNat b.toNat ∧
    (atomNew .maxn old b exp).toNat = max old.toNat b.toNat := by
  by_cases h : old.toNat < b.toNat <;>
    simp [atomNew, BitVec.ult, h, min_def, max_def] <;> omega

end Sys2Proof.Machine

namespace Sys2Proof.Proofs
open Sys2Proof Sys2Proof.Machine
set_option Elab.async false

/-- Settles O39: the head of the store buffer by its kind, and an arrival by its operation. -/
theorem remoteAccesses : Obligations.RemoteAccesses := by
  unfold Obligations.RemoteAccesses
  refine ⟨fun c f h => Core.both_of_none h f, fun s ps => rfl, ⟨fun s e es hev hf hp hsb => ?_,
    fun s k m hev hm hst hp => execResultForward_eq hev hm hst hp⟩, fun s k m h => ?_⟩
  · intro exits sends
    have hexit : exec .storeBufferExit s = _ := execStoreBufferExit_eq hev hf hp hsb
    refine ⟨fun hm => ?_, fun hm => ?_, Core.mayExit_of_idle, Core.mayExit_release⟩
    · rw [hexit, hm]; rfl
    · have out {t : State} (he : s.exit e = some t) : exec .storeBufferExit s = .next t := by
        rw [hexit, hm, he]; rfl
      have stays (he : s.exit e = none) : exec .storeBufferExit s = .next s := by
        rw [hexit, hm, he]; rfl
      refine ⟨fun o bs hk hc => out (exit_scr hsb hk hc), fun o v hk hc => ?_, fun d op hk => out (exit_send hsb hk),
        fun o hi hk hc => out (exit_pushTcb hsb hk hc), fun r rs v home o hk => out (exit_finish_signal hsb hk),
        fun v home o hk => ?_, fun x obj op hk => out (exit_home hsb hk), fun op a b exp rd hk => ?_,
        fun x top hk => out (exit_push hsb hk), fun b hk => out (exit_bulk hsb hk), fun ps hk => out (exit_hbm hsb hk)⟩
      · have he := exit_stfe hsb hk hc
        split
        · next hfull => exact stays (he.trans (if_pos hfull))
        · next hfull => exact out (he.trans (if_neg hfull))
      · have he := exit_finish_last hsb hk
        split
        · next hh => exact out (he.trans (congrArg some (if_pos hh)))
        · next hh => exact out (he.trans (congrArg some (if_neg hh)))
      · exact ⟨fun hs => stays (exit_hatom_waits hsb hk hs), fun hfl u hs => out (exit_hatom hsb hk hs hfl)⟩
  · intro u back
    refine ⟨fun num c hd hc => ?_, fun l hd => ⟨fun o bs hop => bankStore_eq h hd hop,
        fun r o n sg rd hr hop hv => bankLoad_eq h hd hr hv hop,
        fun r op o b exp rd hr hop hv => bankAtomic_eq h hd hr hv hop⟩,
      fun old b exp => ⟨rfl, rfl, rfl, (atomNew_signed old b exp).1, (atomNew_signed old b exp).2,
        (atomNew_unsigned old b exp).1, (atomNew_unsigned old b exp).2, rfl, rfl, rfl⟩⟩
    exact ⟨fun o bs hop => execRemoteStoreApply_core h hd hc hop, fun o n sg rd hop => execRemoteLoadApply_core h hd hc hop,
      fun op o b exp rd hop => execAtomicApply_core h hd hc hop, fun q hop => execRemoteAck_core h hd hc hop,
      fun rd v hop ho hs hid hme => execRemoteLoadReply_core h hd hc hop ho hs hid hme⟩

end Sys2Proof.Proofs

end


section

/-! Deposits, messages and signals where they arrive, and the start of tasks (03_storage_model.md R41 to R43,
09_tasks_compose.md R217, R218, R222, R223, 23_faults_memory.md R390). -/

namespace Sys2Proof.Machine
open Sys2Proof
set_option Elab.async false

/-! ## What an arrival does at its core -/

/-- An arrival that cannot take effect yet stays in the network. -/
theorem State.deliver_none {s : State} {k : Nat} {m : Msg} (h : s.arrives k m) (f : Msg → State → Option (State × Bool))
    (hf : f m (s.less k) = none) : s.deliver f = .next s := by
  obtain ⟨hev, hm, hfl, hst⟩ := h
  simp only [State.deliver, hev, hm, hfl, hst, BEq.rfl, Bool.and_true, if_true]
  rw [← hev, show f m { s with net := dropAt s.net k } = none from hf]

section
variable {s : State} {k num : Nat} {m : Msg} {c : Core} (h : s.arrives k m) (hd : m.dst = .core num)
  (hc : s.core? { m.src with num := num } = some c)
include h hd hc

theorem State.less_core_id : (s.less k).core? c.id = some c := by
  rw [State.less_core?, State.core?_id hc, hc]

theorem execDepositApply_present {x : BitVec 5} {v : BitVec 64} (hop : m.op = .deposit x v) (hx : c.arch.xp x = false)
    (hq : c.queued x = false) : execDepositApply s = .next ((((s.less k).arrivedAt c fun d =>
      (d.setX x v).setXp x true).acknowledge m).counted m) := by
  refine State.deliver_eq h _ (d := true) ?_
  simp only [hop, applyDeposit, State.less_target h hd hc, Option.map_some, hx, hq, Bool.or_false, Bool.false_eq_true, if_false]
  rfl

theorem execDepositApply_overrun {x : BitVec 5} {v : BitVec 64} (hop : m.op = .deposit x v) (hx : c.arch.xp x = true)
    (hp : s.paused = false) : execDepositApply s = .next (((((s.less k).spillTo c.id (.deposit x v)).updCore c.id fun d =>
      d.deferOnce (.overrun x (BitVec.ofNat 12 m.src.num))).acknowledge m).counted m) := by
  have hp' : ((s.less k).spillTo c.id (.deposit x v)).paused = false := (State.spillTo_paused ..).trans hp
  refine State.deliver_eq h _ (d := true) ?_
  simp only [hop, applyDeposit, State.less_target h hd hc, Option.map_some, hx, Bool.true_or, if_true, hp', Bool.false_eq_true,
    if_false]

theorem execCapDepositApply_eq {x : BitVec 4} {v : Cap} (hop : m.op = .capDeposit x v) : execCapDepositApply s =
    .next ((((s.less k).arrivedAt c fun d => d.setCap x v).acknowledge m).counted m) := by
  refine State.deliver_eq h _ (d := true) ?_
  simp only [hop, State.less_target h hd hc, Option.map_some]
  rfl

/-- A message whose header names no control block is a push at its core (R217). -/
theorem execMessageApply_push {hw : BitVec 64} {args : List (BitVec 64)} (hop : m.op = .message hw args)
    (hh : hw.getLsbD 15 = false) : execMessageApply s =
      let r := (s.less k).arrivePush c.id (headerEntry hw args) m.src.num
      .next (if r.2 then (r.1.acknowledge m).counted m else r.1.acknowledge m) := by
  refine State.deliver_eq h _ ?_
  simp only [hop, State.less_target h hd hc, Option.map_some, hh, Bool.false_eq_true, if_false]

theorem execStealRequestApply_entry (hop : m.op = .steal) {e : BitVec 512} {d : Core} (ht : c.takeTop = some (e, d)) :
    execStealRequestApply s = .next ((((s.less k).updCore c.id fun _ => d.both fun d => { d with latch := true }).answer m
      (.stealReply (some e))).counted m) := by
  refine State.deliver_eq h _ (d := true) ?_
  simp only [hop, State.less_target h hd hc, Option.map_some, ht]

theorem execStealRequestApply_nothing (hop : m.op = .steal) (ht : c.takeTop = none) :
    execStealRequestApply s = .next ((((s.less k).arrivedAt c id).answer m (.stealReply none)).counted m) := by
  refine State.deliver_eq h _ (d := true) ?_
  simp only [hop, State.less_target h hd hc, Option.map_some, ht]
  rfl

theorem execStealReply_some {e : BitVec 512} (hop : m.op = .stealReply (some e)) (hm : s.me = c) (hf : c.tcbHeld e = false) :
    execStealReply s = .next (((s.less k).begin e).counted m) := by
  subst hm
  refine State.deliver_eq h _ (d := true) ?_
  simp only [hop, State.less_target h hd hc, Option.bind_some, Option.map_some, Option.getD_some, hf, Bool.false_eq_true, if_false]
  exact congrArg (fun t => some (t, true)) ((s.less k).onCore_me _)

theorem execStealReply_none (hop : m.op = .stealReply none) (hm : s.me = c) :
    execStealReply s = .next (((s.less k).onMe fun c => { c with awaiting := false }).counted m) := by
  subst hm
  refine State.deliver_eq h _ (d := true) ?_
  simp only [hop, State.less_target h hd hc, Option.bind_some, Option.map_none, Option.getD_none, Bool.false_eq_true, if_false]
  exact congrArg (fun t => some (t, true)) ((s.less k).onCore_me _)

theorem execStealReply_held {e : BitVec 512} (hop : m.op = .stealReply (some e)) (hf : c.tcbHeld e = true) :
    execStealReply s = .next s := by
  refine State.deliver_none h _ ?_
  simp only [hop, State.less_target h hd hc, Option.bind_some, Option.map_some, Option.getD_some, hf, if_true]

end

/-! ## A decrement of a count above 0 -/

/-- What a core that took an arrival is: its latch is set, in what is kept at `b` too. -/
def Core.noted (c : Core) : Core := c.both fun d => { d with latch := true }

theorem Core.noted_hasPlace (c : Core) (hi top : Bool) : c.noted.hasPlace hi top = c.hasPlace hi top := by
  unfold Core.noted Core.both
  cases c.ckpt <;> rfl

theorem Core.noted_spill (c : Core) : c.noted.spill = c.spill := by
  unfold Core.noted Core.both
  cases c.ckpt <;> rfl

theorem Core.noted_id (c : Core) : c.noted.id = c.id := Core.both_id (fun d => { d with latch := true }) (fun _ => rfl) c

/-- The control block at `off` with the arguments that came. -/
def Core.withArgs (c : Core) (off : Nat) (args : List (Nat × BitVec 64)) : Core :=
  args.foldl (fun d (x : Nat × BitVec 64) => d.writeScr (off + 8 + 8 * x.1) (natBytes 8 x.2.toNat)) c

/-- The control block with its arguments and one less in its count. -/
def Core.counted (c : Core) (off : Nat) (args : List (Nat × BitVec 64)) : Core :=
  (c.withArgs off args).writeScr (off + 2) (natBytes 2 (c.scr.nat (off + 2) 2 - 1))

/-- The control block made ready. -/
def Core.readied (c : Core) (off : Nat) (args : List (Nat × BitVec 64)) : Core :=
  (c.counted off args).writeScr (off + 1) [withState ((c.counted off args).scr.get (off + 1)) 2]

/-- Writes of scratch keep what no byte of scratch is part of. -/
theorem Core.readied_keeps {α : Sort _} (p : Core → α) (hp : ∀ (c : Core) a bs, p (c.writeScr a bs) = p c) (off : Nat)
    (args : List (Nat × BitVec 64)) (c : Core) : p (c.readied off args) = p c := by
  rw [Core.readied, hp, Core.counted, hp, Core.withArgs]
  induction args generalizing c with
  | nil => rfl
  | cons x xs ih => exact (ih _).trans (hp c _ _)

section
variable {s : State} {id : CoreId} {off : Nat} {c : Core} (hc : s.core? id = some c) (args : List (Nat × BitVec 64)) (src : Nat)
include hc

theorem State.decrement_more (h1 : 1 < c.scr.nat (off + 2) 2) :
    s.decrement id off args src = (s.updCore id fun _ => (c.counted off args).noted, true) := by
  simp only [State.decrement, hc, if_neg (Nat.ne_of_gt (Nat.zero_lt_of_lt h1)), if_neg (Nat.ne_of_gt h1)]
  rfl

theorem State.updCore_const {d : Core} (hd : d.id = id) : (s.updCore id fun _ => d).core? id = some d := by
  have hf : s.updCore id (fun _ => d) = s.updCore id fun c => if c.id = id then d else c := by
    unfold State.updCore
    split
    next h => exact congrArg (fun c => { s with me := c }) (if_pos h).symm
    next =>
      refine congrArg (fun l => { s with others := l }) (List.map_congr_left fun c _ => ?_)
      split
      next h => exact (if_pos h).symm
      next => rfl
  rw [hf, State.updCore_core? s id id _ fun c => ?_, hc, Option.map_some, if_pos rfl, if_pos (State.core?_id hc)]
  split
  next h => exact hd.trans h.symm
  next => rfl

/-- The last decrement makes the block ready and pushes its entry (R218, R222). -/
theorem State.decrement_last (h1 : c.scr.nat (off + 2) 2 = 1)
    (hp : c.hasPlace (entryHi (tcbEntry (c.readied off args).scr id.num off)) false = true)
    (hw : (c.spill.any fun y => match y with | .push _ => true | _ => false) = false) :
    s.decrement id off args src = (((s.updCore id fun _ => (c.readied off args).noted).updCore id fun d =>
      (d.push (tcbEntry (c.readied off args).scr id.num off) false).noted), true) := by
  have hid : (c.readied off args).noted.id = id :=
    (Core.noted_id _).trans ((Core.readied_keeps Core.id (fun _ _ _ => rfl) off args c).trans (State.core?_id hc))
  have hroom := arrivePush_room (src := src) (x := tcbEntry (c.readied off args).scr id.num off) (State.updCore_const hc hid)
    ((Core.noted_hasPlace ..).trans
      ((Core.readied_keeps (fun c => c.hasPlace _ _) (fun _ _ _ => rfl) off args c).trans hp))
    (by rw [Core.noted_spill, Core.readied_keeps Core.spill (fun _ _ _ => rfl) off args c]; exact hw)
  unfold State.decrement
  rw [hc]
  dsimp only
  rw [if_neg (by rw [h1]; exact Nat.one_ne_zero), if_pos h1, if_pos h1]
  exact hroom

end

theorem signalArgs_eq {r : BitVec 3} {v : BitVec 64} :
    (if r.toNat = 0 then [] else [(r.toNat, v)]) = if r = 0 then [] else [(r.toNat, v)] := by
  by_cases h : r = 0
  · have h0 : r.toNat = 0 := by rw [h]; rfl
    rw [if_pos h, if_pos h0]
  · have h0 : r.toNat ≠ 0 := fun e => h (BitVec.eq_of_toNat_eq e)
    rw [if_neg h, if_neg h0]

/-! ## The entry of a control block -/

section
variable (t : Memory) (n off : Nat)

/-- The words of the entry: its low one, the one above it and the arguments. -/
theorem tcbEntry_toNat : (tcbEntry t n off).toNat =
    t.nat (off + 16) 48 % 2 ^ 384 * 2 ^ 128 + (t.nat (off + 8) 8 % 2 ^ 19 * 2 ^ 96 + t.nat off 8 / 2 ^ 32 % 2 ^ 16 * 2 ^ 64) +
      (t.nat off 8 % 2 ^ 11 + 2 ^ 11 + n % 4096 * 2 ^ 12 + off / 64 % 8192 * 2 ^ 24) := by
  have h0 : ∀ x : Nat, x % 2 ^ 64 / 2 ^ 32 % 2 ^ 16 = x / 2 ^ 32 % 2 ^ 16 := fun x => by omega
  have h1 : ∀ x : Nat, x % 2 ^ 64 % 2 ^ 19 = x % 2 ^ 19 := fun x => by omega
  have h2 : ∀ x : Nat, x % 2 ^ 64 % 2 ^ 11 = x % 2 ^ 11 := fun x => by omega
  simp only [tcbEntry, append_toNat, BitVec.toNat_ofNat, BitVec.extractLsb'_toNat, Nat.shiftRight_eq_div_pow, Nat.pow_zero,
    Nat.div_one, h0, h1, h2]
  omega

/-- The part of a sum above the power of two that bounds the rest. -/
theorem mul_add_div_of_lt (a : Nat) {m b : Nat} (h : b < m) : (a * m + b) / m = a := by
  rw [Nat.mul_comm, Nat.mul_add_div (Nat.zero_lt_of_lt h), Nat.div_eq_of_lt h, Nat.add_zero]

theorem tcbEntry_high : (tcbEntry t n off).toNat / 2 ^ 128 = t.nat (off + 16) 48 % 2 ^ 384 ∧
    (tcbEntry t n off).toNat / 2 ^ 96 = t.nat (off + 16) 48 % 2 ^ 384 * 2 ^ 32 + t.nat (off + 8) 8 % 2 ^ 19 := by
  rw [tcbEntry_toNat]
  constructor
  · rw [Nat.add_assoc]
    exact mul_add_div_of_lt _ (by omega)
  · refine Eq.trans (congrArg (· / 2 ^ 96) ?_) (mul_add_div_of_lt (m := 2 ^ 96)
      (b := t.nat off 8 / 2 ^ 32 % 2 ^ 16 * 2 ^ 64 +
        (t.nat off 8 % 2 ^ 11 + 2 ^ 11 + n % 4096 * 2 ^ 12 + off / 64 % 8192 * 2 ^ 24)) _ (by omega))
    omega

theorem tcbEntry_fields : let x := tcbEntry t n off
    entryTcb x = true ∧ entryHandler x = t.nat off 8 % 1024 ∧ entryHome x = n % 4096 ∧
    entryOff x = off / 64 % 8192 * 64 ∧ entryScount x = t.nat off 8 / 2 ^ 32 % 2 ^ 16 ∧
    entrySlist x = t.nat (off + 8) 8 % 2 ^ 19 ∧ x.extractLsb' 128 384 = BitVec.ofNat 384 (t.nat (off + 16) 48) := by
  intro x
  have hx : x.toNat = _ := tcbEntry_toNat t n off
  obtain ⟨hargs, hlist⟩ : x.toNat / 2 ^ 128 = _ ∧ x.toNat / 2 ^ 96 = _ := tcbEntry_high t n off
  refine ⟨?_, ?_, ?_, ?_, ?_, ?_, BitVec.eq_of_toNat_eq ?_⟩
  · rw [entryTcb, BitVec.getLsbD, Nat.testBit_eq_decide_div_mod_eq, hx]
    exact decide_eq_true (by omega)
  case refine_6 =>
    rw [entrySlist, BitVec.extractLsb'_toNat, Nat.shiftRight_eq_div_pow, hlist]
    omega
  case refine_7 =>
    rw [BitVec.extractLsb'_toNat, BitVec.toNat_ofNat, Nat.shiftRight_eq_div_pow, hargs, Nat.mod_mod]
  all_goals
    simp only [entryHandler, entryHome, entryOff, entryScount, BitVec.extractLsb'_toNat,
      Nat.shiftRight_eq_div_pow, Nat.pow_zero, Nat.div_one, hx]
    omega

end

/-! ## The start of a task -/

/-- The registers with what an entry gives them (R217). -/
def Core.withEntry (c : Core) (e : BitVec 512) : Core :=
  ((List.range 6).foldl (fun c i => c.setG (BitVec.ofNat 6 (3 + i)) (entryArg e (i + 1))) c).setG 9 (entryG9 e c.id.num)

theorem Core.withEntry_eq (c : Core) (e : BitVec 512) : c.withEntry e = { c with g := (c.withEntry e).g } := by
  have hl : ∀ (l : List Nat) (d : Core), ∃ g,
      l.foldl (fun c i => c.setG (BitVec.ofNat 6 (3 + i)) (entryArg e (i + 1))) d = { d with g := g } := by
    intro l
    induction l with
    | nil => exact fun d => ⟨_, rfl⟩
    | cons i l ih =>
      intro d
      obtain ⟨g, hg⟩ := ih (d.setG (BitVec.ofNat 6 (3 + i)) (entryArg e (i + 1)))
      refine ⟨g, hg.trans ?_⟩
      rw [Core.setG_eq]
  obtain ⟨g, hg⟩ := hl (List.range 6) c
  rw [Core.withEntry, hg, Core.setG_eq]

theorem Core.withEntry_gr (c : Core) (e : BitVec 512) :
    (∀ j < 6, (c.withEntry e).gr (BitVec.ofNat 6 (3 + j)) = e.extractLsb' (128 + 64 * j) 64) ∧
      (c.withEntry e).gr 9 = entryG9 e c.id.num := by
  have hr : List.range 6 = [0, 1, 2, 3, 4, 5] := rfl
  refine ⟨fun j hj => ?_, ?_⟩
  · simp only [Core.withEntry, hr, List.foldl_cons, List.foldl_nil, Core.gr_setG]
    interval_cases j <;> simp [entryArg]
  · rw [Core.withEntry, Core.gr_setG, if_neg (by decide), if_pos rfl]

/-- A core as a task of `e` enters it (R217, R390), before the state of its control block changes. -/
def Core.entered (c : Core) (e : BitVec 512) : Core :=
  { c.withEntry e with
    running := some e
    awaiting := false
    sweep := 0
    pc := (c.withEntry e).scr.nat (handlerTable c.id.num + 4 * entryHandler e) 4
    bubble := max (c.withEntry e).bubble 1
    blk := false
    csr := { (c.withEntry e).csr with level := 0 } }

theorem Core.entered_eq (c : Core) (e : BitVec 512) : c.entered e =
    { c with
      g := (c.withEntry e).g
      running := some e
      awaiting := false
      sweep := 0
      pc := c.scr.nat (handlerTable c.id.num + 4 * entryHandler e) 4
      bubble := max c.bubble 1
      blk := false
      csr := { c.csr with level := 0 } } := by
  rw [Core.entered, Core.withEntry_eq]

/-- The core once its task has begun: the state of the block becomes running. -/
def Core.began (c : Core) (e : BitVec 512) : Core :=
  let d := c.entered e
  let o := entryOff e + 1
  if entryTcb e then
    if entryHome e = c.id.num then d.writeScr o [withState (d.scr.get o) 3]
    else d.buffer (.send (.core (entryHome e)) (.state o 3)) false
  else d

theorem State.begin_eq (s : State) (e : BitVec 512) : s.begin e = { s with me := s.me.began e } := by
  unfold State.begin Core.began
  dsimp only
  split
  · split
    · rfl
    · rfl
  · rfl

section
variable {c : Core} {e : BitVec 512}

theorem Core.began_bare (ht : entryTcb e = false) : c.began e = c.entered e := by
  rw [Core.began, ht]
  exact if_neg Bool.false_ne_true

theorem Core.began_own (ht : entryTcb e = true) (hh : entryHome e = c.id.num) : c.began e =
    (c.entered e).writeScr (entryOff e + 1) [withState ((c.entered e).scr.get (entryOff e + 1)) 3] := by
  simp only [Core.began, ht, if_true, if_pos hh]

theorem Core.began_far (ht : entryTcb e = true) (hh : entryHome e ≠ c.id.num) : c.began e =
    (c.entered e).buffer (.send (.core (entryHome e)) (.state (entryOff e + 1) 3)) false := by
  simp only [Core.began, ht, if_true, if_neg hh]

theorem Core.entered_rest : (c.entered e).running = some e ∧ (c.entered e).awaiting = false ∧
    (c.entered e).csr.level = 0 ∧ (c.entered e).pc = c.scr.nat (handlerTable c.id.num + 4 * entryHandler e) 4 := by
  rw [Core.entered_eq]
  exact ⟨rfl, rfl, rfl, rfl⟩

theorem Core.buffer_rest (c : Core) (k : SbKind) (r : Bool) : (c.buffer k r).running = c.running ∧
    (c.buffer k r).awaiting = c.awaiting ∧ (c.buffer k r).csr = c.csr ∧ (c.buffer k r).pc = c.pc ∧
    (c.buffer k r).g = c.g ∧ (c.buffer k r).scr = c.scr := by
  unfold Core.buffer
  split <;> exact ⟨rfl, rfl, rfl, rfl, rfl, rfl⟩

theorem Core.began_rest : (c.began e).running = (c.entered e).running ∧ (c.began e).awaiting = (c.entered e).awaiting ∧
    (c.began e).csr = (c.entered e).csr ∧ (c.began e).pc = (c.entered e).pc ∧ (c.began e).g = (c.entered e).g := by
  cases ht : entryTcb e with
  | false => rw [Core.began_bare ht]; exact ⟨rfl, rfl, rfl, rfl, rfl⟩
  | true =>
    by_cases hh : entryHome e = c.id.num
    · rw [Core.began_own ht hh]; exact ⟨rfl, rfl, rfl, rfl, rfl⟩
    · rw [Core.began_far ht hh]
      obtain ⟨hr, ha, hc, hp, hg, -⟩ := (c.entered e).buffer_rest (.send (.core (entryHome e)) (.state (entryOff e + 1) 3)) false
      exact ⟨hr, ha, hc, hp, hg⟩

theorem Core.began_gr (n : BitVec 6) : (c.began e).gr n = (c.withEntry e).gr n := by
  obtain ⟨-, -, -, -, hg⟩ := Core.began_rest (c := c) (e := e)
  unfold Core.gr
  rw [hg]
  rfl

theorem Core.began_g9 : (c.began e).gr 9 = entryG9 e c.id.num := Core.began_gr 9 |>.trans (c.withEntry_gr e).2

theorem entryG9_bare {num : Nat} (ht : entryTcb e = false) : entryG9 e num = 0xFFFFFFFFFFFFFFFF := by
  rw [entryG9, ht]
  rfl

theorem entryG9_own {num : Nat} (ht : entryTcb e = true) (hh : entryHome e = num) :
    entryG9 e num = BitVec.ofNat 64 (entryOff e) := by
  simp only [entryG9, ht, Bool.not_true, Bool.false_eq_true, if_false, if_pos hh]

theorem entryG9_far {num : Nat} (ht : entryTcb e = true) (hh : entryHome e ≠ num) :
    entryG9 e num = BitVec.ofNat 64 (2 * 2 ^ 45 + entryHome e * 2 ^ 33 + entryOff e) := by
  simp only [entryG9, ht, Bool.not_true, Bool.false_eq_true, if_false, if_neg hh]

end

/-! ## Pops and steals -/

theorem execTaskPop_eq {s : State} {e : BitVec 512} {d : Core} (hev : s.ev = .core s.me.id) (hm : s.mayIssue s.me = true)
    (hf : s.me.free = true) (hp : s.me.pop = some (e, d)) (hh : s.me.tcbHeld e = false) :
    execTaskPop s = .next ({ s with me := d }.begin e) := by
  simp only [execTaskPop, hev]
  refine congrArg Host.Outcome.next ((State.onCore_me s _).trans ?_)
  simp only [hm, hf, Bool.and_self, if_true, hp, hh, Bool.false_eq_true, if_false]
  rw [← hev]

theorem execStealProbe_eq {s : State} {r : Region} {dist v : Nat} (hev : s.ev = .core s.me.id) (hm : s.mayIssue s.me = true)
    (hf : s.me.free = true) (hw : s.me.hasWork = false) (hmem : s.me.isMem = false) (hr : s.myRegion? = some r)
    (hl : r.launch.isSome = true) (hv : s.nextVictim = some (dist, v)) :
    execStealProbe s = .next { (s.updRegion s.me.id.owner s.me.id.circ fun r => { r with inj := r.inj + 1 }) with
      me := { s.me with awaiting := true, sweep := s.me.sweep + 1, stealPtr := bump s.me.stealPtr dist }
      net := s.net ++ [⟨s.me.id, .core v, .steal, 0, s.stamp⟩] } := by
  simp only [execStealProbe, hev]
  refine congrArg Host.Outcome.next ((State.onCore_me s _).trans ?_)
  simp only [hm, hf, hw, hmem, hr, Option.bind_some, hl, Bool.not_false, Bool.and_self, if_true, hv]
  rfl

/-- A push set aside is made once a place is free (R219, R376). -/
theorem execSetAsidePushApply_eq {s : State} {id : CoreId} {c : Core} {x : BitVec 512} (hev : s.ev = .core id)
    (hc : s.core? id = some c) (hs : c.spill = [.push x]) (hp : c.hasPlace (entryHi x) false = true) :
    execSetAsidePushApply s = .next ((s.updCore id fun d =>
      { d.push x false with spill := d.spill.erase (.push x), latch := true }).updRegion id.owner id.circ
        fun r => { r with ej := r.ej + 1 }) := by
  simp only [execSetAsidePushApply, hev, hc, hs, List.find?_cons, hp, if_true]

end Sys2Proof.Machine

namespace Sys2Proof.Proofs
open Sys2Proof Sys2Proof.Machine

/-- Settles O40: what a deposit, a message, a signal and a steal do at the core they reach, and how a task begins. -/
theorem messagesAndTasks : Obligations.MessagesAndTasks := by
  refine ⟨⟨fun s k num m c h hd hc => ?_, fun s id c x hev hc hs hp => execSetAsidePushApply_eq hev hc hs hp⟩,
    fun s e d hev hm hf => ⟨fun hp hh => execTaskPop_eq hev hm hf hp hh,
      fun r dist v hw hmem hr hl hv => execStealProbe_eq hev hm hf hw hmem hr hl hv⟩, fun s k num m c h hd hc => ?_, fun s e => ?_⟩
  · have hcu := State.less_core_id h hd hc
    have hid := State.core?_id hc
    refine ⟨fun x v hop => ⟨fun hx hq => execDepositApply_present h hd hc hop hx hq,
        fun hx hp => execDepositApply_overrun h hd hc hop hx hp⟩,
      fun x v hop => execCapDepositApply_eq h hd hc hop, fun hw args hop hb => ⟨?_, ?_⟩, fun hw args hop hb h0 => ?_,
      fun i off args hi => ?_, fun t n off => tcbEntry_fields t n off⟩
    · rintro ⟨hp, hs⟩
      refine (execMessageApply_push h hd hc hop hb).trans ?_
      rw [arrivePush_room hcu hp hs]
      rfl
    · intro hp hl
      refine (execMessageApply_push h hd hc hop hb).trans ?_
      rw [arrivePush_full hcu hp hl]
      rfl
    · refine (execMessageApply_counter h hd hc hop hb).trans ?_
      rw [State.decrement_of_zero hcu h0]
      rfl
    · have he : exec i s =
          let r := (s.less k).decrement c.id off args m.src.num
          .next (if r.2 then (r.1.acknowledge m).counted m else r.1.acknowledge m) := by
        obtain ⟨hw, vs, hop, hb, rfl, rfl, rfl⟩ | ⟨r, v, hop, rfl, rfl, rfl⟩ := hi
        · exact execMessageApply_counter h hd hc hop hb
        · rw [← signalArgs_eq]
          exact execSignalApply_counter h hd hc hop
      refine ⟨fun h1 => ?_, fun h1 hroom => ?_⟩
      · refine he.trans ?_
        rw [State.decrement_more hcu args m.src.num h1]
        rfl
      · obtain ⟨hp, hs⟩ := hroom
        refine he.trans ?_
        rw [State.decrement_last hcu args m.src.num h1 hp hs]
        rfl
  · exact ⟨fun hop e d ht => execStealRequestApply_entry h hd hc hop ht, fun hop ht => execStealRequestApply_nothing h hd hc hop ht,
      fun hop hm => (execStealReply_none h hd hc hop hm).trans (by subst hm; rfl),
      fun e hop hm => ⟨fun hh => execStealReply_some h hd hc hop hm hh, fun hh => execStealReply_held h hd hc hop hh⟩⟩
  · obtain ⟨hr, ha, hcsr, hpc, -⟩ := Core.began_rest (c := s.me) (e := e)
    obtain ⟨hr', ha', hl', hpc'⟩ := Core.entered_rest (c := s.me) (e := e)
    rw [State.begin_eq]
    refine ⟨hr.trans hr', ha.trans ha', hcsr ▸ hl', hpc.trans hpc',
      fun j hj => (Core.began_gr _).trans ((s.me.withEntry_gr e).1 j hj), fun ht => ⟨Core.began_g9.trans (entryG9_bare ht), ?_⟩,
      fun ht hh => ⟨Core.began_g9.trans (entryG9_own ht hh), ?_⟩,
      fun ht hh hahead => ⟨Core.began_g9.trans (entryG9_far ht hh), ?_, ?_⟩⟩
    · rw [Core.began_bare ht, Core.entered_eq]
    · rw [Core.began_own ht hh, Core.entered_eq]
      rfl
    · rw [Core.began_far ht hh, Core.entered_eq]
      exact (Core.buffer_rest ..).2.2.2.2.2
    · have ha : (s.me.entered e).ahead = none := by
        rw [Core.entered_eq]
        exact hahead
      rw [Core.began_far ht hh, Core.buffer_eq ha, Core.entered_eq]
      rfl

end Sys2Proof.Proofs
end


section

/-! Bulk commands at their engines: starts, beats and records (08_storage_sync.md R211, R212,
12_memory_core.md R287 to R290). -/

namespace Sys2Proof.Machine
open Sys2Proof
set_option Elab.async false

section
variable {s : State} {id : CoreId} {c : Core} {i : Nat} {b : Bulk} (hev : s.ev = .coreIdx id i) (hc : s.core? id = some c)
  (hb : c.bulks[i]? = some b)
include hev hc hb

theorem execBulkCommandStart_eq (h0 : b.started = false) (hx : ∀ x ∈ c.bulks.take i, x.started = true)
    (hr : s.engineRuns id = true) : execBulkCommandStart s = .next (s.updBulk id i fun b => { b with started := true }) := by
  have hf : ((c.bulks.take i).any fun b => !b.started) = false := by
    rw [List.any_eq_false]
    intro x h
    rw [hx x h]
    exact Bool.false_ne_true
  simp only [execBulkCommandStart, hev, hc, hb, hf, h0, hr, Bool.not_false, Bool.and_self, if_true]

theorem execBulkRecordResume_eq (hrec : b.record = true) (hw : b.waiting.isSome = true) (ha : b.answer.isSome = true)
    (hr : s.engineRuns id = true) : execBulkRecordResume s = .next (s.updBulk id i fun b => { b with record := false }) := by
  simp only [execBulkRecordResume, hev, hc, Option.bind_some, hb, hrec, hw, ha, hr, Bool.and_self, if_true]

omit hev in
/-- The command whose beat may go. -/
theorem State.bulk?_eq (hs : b.started = true) (hrec : b.record = false) (hm : s.mayBeat id b = true) : s.bulk? id i = some b := by
  simp only [State.bulk?, hc, Option.bind_some, hb, hs, hrec, hm, Bool.not_false, Bool.and_self, if_true]

end

/-! ## Deliveries -/

theorem State.deliverBeat_flows {u : State} (h : u.flows = true) (b : Bulk) (id : CoreId) (off : Nat) (bs : List Byte) :
    u.deliverBeat b id off bs = (u.sidePutBytes id b.dst off bs).countBeat b id bs.length := by
  simp only [State.deliverBeat, h]

theorem State.deliverBeat_held {u : State} (h : u.flows = false) {b : Bulk} {n : Nat} (hd : b.dst = .scratch n) (id : CoreId)
    (off : Nat) (bs : List Byte) :
    u.deliverBeat b id off bs = u.send id (.core n) (.deliver false off bs b.cell) b.id := by
  simp only [State.deliverBeat, h, hd]

theorem State.deliverBeat_heldRegs {u : State} (h : u.flows = false) {b : Bulk} {n : Nat} (hd : b.dst = .regs n) (id : CoreId)
    (off : Nat) (bs : List Byte) :
    u.deliverBeat b id off bs = u.send id (.core n) (.deliver true off bs b.cell) b.id := by
  simp only [State.deliverBeat, h, hd]

/-! ## Beats -/

section
variable {s : State} {id : CoreId} {i : Nat} {b : Bulk} {t : Beat} {rest : List Beat} (hev : s.ev = .coreIdx id i)
  (hb : s.bulk? id i = some b) (ht : b.beats = t :: rest)
include hev hb ht

theorem execBulkBeat_eq (hk : b.kind ∈ [BulkKind.bcopy, .tload, .tstore]) (hr : s.engineRuns id = true) :
    execBulkBeat s = .next
      (((s.sidePutBytes id b.dst t.dst (s.sideBytes id b.src t.src t.len)).countBeat b id t.len).beatDone id i rest) := by
  simp only [List.mem_cons, List.not_mem_nil, or_false] at hk
  obtain hk | hk | hk := hk <;>
    simp only [execBulkBeat, hev, hb, hr, hk, ht, Bool.not_true, Bool.false_eq_true, if_false]

section
variable {cap : Cap} (hk : b.kind = .hship) (hs : b.src = .hbm cap) (hd : s.delivers id = true)
include hk hs hd

theorem execHshipBeat_ask (hh : s.homed cap = false) :
    execHshipBeat s = .next (s.askHome id b cap (.ship b.id t.src t.len)) := by
  simp only [execHshipBeat, hev, hb, hk, hs, ht, hd, hh, Bool.not_true, Bool.not_false, Bool.false_eq_true, if_false, if_true]

variable (hh : s.homed cap = true) {m : Mmu}
include hh

theorem execHshipBeat_ok {ps : List (Nat × Nat)} (hw : s.beatWalk id b cap t.src t.len true false = (.ok ps, m)) {u : State}
    (hu : s.serve id.owner ps false = some u) : execHshipBeat s = .next ((u.keepWalk id i m).arrayRead ps fun s =>
      (s.deliverBeat b id t.dst (partBytes s.hbm ps)).beatDone id i rest) := by
  simp only [execHshipBeat, hev, hb, hk, hs, ht, hd, hh, Bool.not_true, Bool.false_eq_true, if_false, hw, hu]

theorem execHshipBeat_waits {ps : List (Nat × Nat)} (hw : s.beatWalk id b cap t.src t.len true false = (.ok ps, m))
    (hu : s.serve id.owner ps false = none) : execHshipBeat s = .next s := by
  simp only [execHshipBeat, hev, hb, hk, hs, ht, hd, hh, Bool.not_true, Bool.false_eq_true, if_false, hw, hu]

theorem execHshipBeat_miss {g : Nat} {r w : Bool} {l : List (Nat × Bool × Bool)}
    (hw : s.beatWalk id b cap t.src t.len true false = (.misses ((g, r, w) :: l), m)) :
    execHshipBeat s = .next (s.beatMiss id i g r w) := by
  simp only [execHshipBeat, hev, hb, hk, hs, ht, hd, hh, Bool.not_true, Bool.false_eq_true, if_false, hw]

theorem execHshipBeat_fault {cls sub : BitVec 8} {v : BitVec 48}
    (hw : s.beatWalk id b cap t.src t.len true false = (.fault cls sub v, m)) :
    execHshipBeat s = .next (s.beatFault id i b cls sub v) := by
  simp only [execHshipBeat, hev, hb, hk, hs, ht, hd, hh, Bool.not_true, Bool.false_eq_true, if_false, hw]

end

section
variable {cap : Cap} (hk : b.kind = .hpull) (hs : b.dst = .hbm cap) (hr : s.engineRuns id = true)
include hk hs hr

theorem execHpullBeat_ask (hh : s.homed cap = false) :
    execHpullBeat s = .next (s.askHome id b cap (.pull b.id t.dst (s.sideBytes id b.src t.src t.len))) := by
  simp only [execHpullBeat, hev, hb, hk, hs, ht, hr, hh, Bool.not_true, Bool.not_false, Bool.false_eq_true, if_false, if_true]

theorem execHpullBeat_ok (hh : s.homed cap = true) {ps : List (Nat × Nat)} {m : Mmu}
    (hw : s.beatWalk id b cap t.dst t.len false true = (.ok ps, m)) {v : State} (hv : s.serve id.owner ps false = some v) :
    execHpullBeat s = .next ((((v.keepWalk id i m).putHbm (spreadParts ps (s.sideBytes id b.src t.src t.len))).countBeat b id
      t.len).beatDone id i rest) := by
  simp only [execHpullBeat, hev, hb, hk, hs, ht, hr, hh, Bool.not_true, Bool.false_eq_true, if_false, hw, hv]

end

end

theorem State.delivers_of_engineRuns {s : State} {id : CoreId} (h : s.engineRuns id = true) : s.delivers id = true :=
  (Bool.and_eq_true_iff.1 h).2

/-- A question is added for a command that has none under way (R389). -/
theorem State.askHome_eq {s : State} {id : CoreId} (h : ∀ q ∈ s.homeOut, q.src ≠ id) (b : Bulk) (cap : Cap) (op : HomeOp) :
    s.askHome id b cap op =
      { s with homeOut := s.homeOut ++ [⟨id, b.id, cap.home, cap.bits.extractLsb' 0 15, op, 0⟩] } := by
  refine if_neg ?_
  rw [List.any_eq_true]
  rintro ⟨q, hq, e⟩
  rw [Bool.and_eq_true, beq_iff_eq] at e
  exact h q hq e.1

theorem State.homed_iff {s : State} {cap : Cap} : s.homed cap = true ↔ cap.home = s.fabricId := beq_iff_eq

theorem State.updCore_flaws (s : State) (id : CoreId) (f : Core → Core) : (s.updCore id f).flaws = s.flaws := by
  unfold State.updCore
  split <;> rfl

theorem State.keepWalk_flaws (s : State) (id : CoreId) (i : Nat) (m : Mmu) : (s.keepWalk id i m).flaws = s.flaws := by
  unfold State.keepWalk State.updBulk
  rw [State.updCore_flaws, State.updCore_flaws]
  rfl

/-- A walk that a beat keeps leaves a clean read clean. -/
theorem State.keepWalk_clean {s u : State} {id : CoreId} {i : Nat} {m : Mmu} {ps : List (Nat × Nat)} (f : State → State)
    (hu : u.flaws = s.flaws) (h : ∀ x ∈ s.flaws, ∀ p ∈ ps, p.1 / 32 ≤ x.1 → p.1 + p.2 ≤ 32 * x.1) :
    (u.keepWalk id i m).arrayRead ps f = f (u.keepWalk id i m) := by
  refine Sys2Proof.Laws.arrayRead_clean f ?_
  rw [State.keepWalk_flaws, hu]
  exact h

theorem State.serve_flaws {s u : State} {o : Nat} {ps : List (Nat × Nat)} {x : Bool} (h : s.serve o ps x = some u) :
    u.flaws = s.flaws := by
  obtain ⟨l, rfl⟩ := Sys2Proof.Laws.serve_chans h
  rfl

theorem State.beatFault_core {s : State} {b : Bulk} (h : b.packet = none) (id : CoreId) (i : Nat) (cls sub : BitVec 8)
    (v : BitVec 48) : s.beatFault id i b cls sub v =
      (s.dropBulk id i).updCore id fun c => c.defer (.memory ⟨cls, sub, b.creg.setWidth 6, v, 0⟩) := by
  simp only [State.beatFault, h]

/-- The rows of the matrix that a beat of `bgemv` reads. -/
def Bulk.gemvRanges (b : Bulk) (rows : Nat) : List (Nat × Nat) :=
  (List.range rows).map fun n => (tdBase b.desc + n * tdPitch b.desc, tdRowBytes b.desc)

/-- The products of a beat's rows, of which `scan` gives the elements (R287). -/
def State.gemvScan (s : State) (id : CoreId) (b : Bulk) (cap : Cap) (m : Mmu) (rows : Nat) : Scan × List (List MVal) :=
  scanRows (s.objByte id m cap) (fun x => if s.sideInside id m cap x then readNat (s.objByte id m cap) x 8 else 0xFFFF00000000)
    b.desc ((tdType b.desc).getD .i8) (tdType b.desc == some .i8) rows

/-- What a beat of `bgemv` whose rows are read leaves, before a bad row of the command is told. -/
def State.gemvDone (s : State) (id : CoreId) (i : Nat) (b : Bulk) (t : Beat) (rest : List Beat) (m : Mmu)
    (scan : Scan × List (List MVal)) : State :=
  (((s.keepWalk id i m).updBulk id i fun c => { c with
      bad := b.bad.or (scan.1.bad.map fun (r, u) => (BitVec.ofNat 48 r, BitVec.ofNat 8 u)) }).deliverBeat b id t.dst
    (((gemvRows b.desc b.vec scan).drop (t.src / 4)).flatMap fun y => natBytes 4 y.toNat)).beatDone id i rest

/-- The last beat tells the first bad row of its command (R290). -/
def State.gemvTold (s : State) (id : CoreId) (rest : List Beat) (bad : Option (BitVec 48 × BitVec 8)) : State :=
  match rest, bad with
  | [], some (r, u) => s.updCore id fun c => c.defer (.matrix 0 r u)
  | _, _ => s

/-- A beat of `bgemv` over a matrix of one type, all of whose rows are read (R287 to R290). -/
theorem execBgemvBeat_eq {s : State} {id : CoreId} {i : Nat} {b : Bulk} {t : Beat} {rest : List Beat} {cap : Cap}
    (hev : s.ev = .coreIdx id i) (hb : s.bulk? id i = some b) (ht : b.beats = t :: rest) (hk : b.kind = .bgemv)
    (hs : b.src = .hbm cap) (hf : tdFp4 b.desc = false) (hd : s.delivers id = true) {ps : List (Nat × Nat)} {m : Mmu}
    (hw : s.rangeWalks id b cap (b.gemvRanges ((t.src + t.len) / 4)) = (.ok ps, m)) {scan : Scan × List (List MVal)}
    (hsc : s.gemvScan id b cap m ((t.src + t.len) / 4) = scan) (he : scan.1.entries = 0)
    (hp : ∀ x ∈ s.flaws, ∀ p ∈ ps, p.1 / 32 ≤ x.1 → p.1 + p.2 ≤ 32 * x.1) : execBgemvBeat s = .next
      ((s.gemvDone id i b t rest m scan).gemvTold id rest
        (b.bad.or (scan.1.bad.map fun (r, u) => (BitVec.ofNat 48 r, BitVec.ofNat 8 u)))) := by
  unfold Bulk.gemvRanges at hw
  unfold State.gemvScan at hsc
  simp only [execBgemvBeat, hev, hb, hk, hs, ht, hd, hf, Bool.not_true, Bool.false_eq_true, if_false, List.append_nil, hw, hsc,
    he, List.range_zero, List.map_nil, List.filter_nil]
  refine congrArg Host.Outcome.next ((State.keepWalk_clean _ rfl hp).trans ?_)
  rfl

end Sys2Proof.Machine

namespace Sys2Proof.Proofs
open Sys2Proof Sys2Proof.Machine

/-- Settles O41: what starts a bulk command, and what each of its beats does. -/
theorem bulkEngines : Obligations.BulkEngines := by
  intro s id c i b hev hc hb
  refine ⟨fun h0 hx hr => execBulkCommandStart_eq hev hc hb h0 hx hr,
    fun hrec hw ha hr => execBulkRecordResume_eq hev hc hb hrec hw ha hr,
    fun u off bs => ⟨fun h => State.deliverBeat_flows h b id off bs, fun n h => ⟨fun hd => State.deliverBeat_held h hd id off bs,
      fun hd => State.deliverBeat_heldRegs h hd id off bs⟩⟩, ?_⟩
  intro sound t rest hs hrec hm ht
  have hq := State.bulk?_eq hc hb hs hrec hm
  refine ⟨fun hk hr => execBulkBeat_eq hev hq ht hk hr, fun cap m hk hsrc hh hd => ⟨fun ps hw => ⟨fun u hps hu => ?_, fun hu => ?_⟩,
      fun g r w l hw => ?_, fun cls sub v hw hp => ?_⟩, fun cap ps m v hk hdst hh hr hw hv => ?_, fun cap hk hside hh hr hout => ?_, ?_⟩
  · refine (execHshipBeat_ok hev hq ht hk hsrc hd (State.homed_iff.2 hh) hw hu).trans ?_
    rw [State.keepWalk_clean _ (State.serve_flaws hu) hps]
  · exact execHshipBeat_waits hev hq ht hk hsrc hd (State.homed_iff.2 hh) hw hu
  · exact execHshipBeat_miss hev hq ht hk hsrc hd (State.homed_iff.2 hh) hw
  · refine (execHshipBeat_fault hev hq ht hk hsrc hd (State.homed_iff.2 hh) hw).trans ?_
    rw [State.beatFault_core hp]
  · exact execHpullBeat_ok hev hq ht hk hdst hr (State.homed_iff.2 hh) hw hv
  · have hn : s.homed cap = false := Bool.eq_false_iff.2 fun h => hh (State.homed_iff.1 h)
    refine ⟨fun hk => ?_, fun hk => ?_⟩
    · refine (execHshipBeat_ask hev hq ht hk ((if_pos hk).symm.trans hside) (State.delivers_of_engineRuns hr) hn).trans ?_
      rw [State.askHome_eq hout]
    · have hk' : b.kind ≠ .hship := fun e => BulkKind.noConfusion (hk.symm.trans e)
      refine (execHpullBeat_ask hev hq ht hk ((if_neg hk').symm.trans hside) hr hn).trans ?_
      rw [State.askHome_eq hout]
  · intro cap hk hsrc hf hd d hi walk rd sd scan ys bad ps hw he hps done
    have hrun := execBgemvBeat_eq hev hq ht hk hsrc hf hd (Prod.ext hw rfl) (scan := scan) rfl he hps
    refine ⟨fun hbad => hrun.trans ?_, fun r u hrest hbad => hrun.trans ?_⟩
    · replace hbad : b.bad.or (scan.1.bad.map fun (r, u) => (BitVec.ofNat 48 r, BitVec.ofNat 8 u)) = none := hbad
      rw [hbad]
      cases rest <;> rfl
    · replace hbad : b.bad.or (scan.1.bad.map fun (r, u) => (BitVec.ofNat 48 r, BitVec.ofNat 8 u)) = some (r, u) := hbad
      subst hrest
      rw [hbad]
      rfl

end Sys2Proof.Proofs
end


section

/-! The steps of a turn (02_execution_model.md R30 to R39, 22_faults_machinery.md R400 to R403). -/

namespace Sys2Proof.Machine
open Sys2Proof
set_option Elab.async false

/-- A fold of steps that keep something keeps it. -/
theorem foldl_keeps {α β γ : Type _} (p : β → γ) {f : β → α → β} (h : ∀ t x, p (f t x) = p t) (l : List α) (t : β) :
    p (l.foldl f t) = p t := by
  induction l generalizing t with
  | nil => rfl
  | cons x l ih => exact (ih _).trans (h t x)

/-! ## No write moves the pc -/

theorem Core.setG_pc (c : Core) (n : BitVec 6) (v : BitVec 64) : (c.setG n v).pc = c.pc := by
  rw [Core.setG_eq]

theorem Core.setP_pc (c : Core) (n : BitVec 3) (v : Bool) : (c.setP n v).pc = c.pc := by
  rw [Core.setP_eq]

theorem Core.landG_pc (c : Core) (n : BitVec 6) (v : BitVec 64) (q : Nat) : (c.landG n v q).pc = c.pc := by
  unfold Core.landG
  dsimp only
  split
  · split
    · exact Core.setG_pc c n v
    · exact Core.setG_pc c n v
  · exact Core.setG_pc c n v

theorem Core.setCsr_pc (c : Core) (k : Csr) (v : BitVec 64) : (c.setCsr k v).pc = c.pc := by
  cases k
  case gmask =>
    unfold Core.setCsr
    dsimp only
    split <;> rfl
  all_goals rfl

theorem Core.putArea_pc (c : Core) (r : Nat) (b : Byte) : (c.putArea r b).pc = c.pc := by
  have hx : ((List.range 8).foldl (fun c i => c.setXp (BitVec.ofNat 5 (8 * (r - 0x340) + i)) (b.getLsbD i)) c).pc = c.pc :=
    foldl_keeps Core.pc (f := fun c i => c.setXp (BitVec.ofNat 5 (8 * (r - 0x340) + i)) (b.getLsbD i)) (fun _ _ => rfl) _ c
  unfold Core.putArea
  dsimp only
  cases Csr.ofCode (BitVec.ofNat 12 ((r - 0xA00) / 8)) <;>
  simp only [apply_ite Core.pc, Core.setG_pc, Core.setP_pc, Core.setCsr_pc, Core.setX, Core.setCell, Core.setCap, Core.setRing,
    Core.setView, Core.setTid, hx, ite_self]

theorem Core.putRegs_pc (c : Core) (a : Nat) (bs : List Byte) : (c.putRegs a bs).pc = c.pc := by
  induction bs generalizing c a with
  | nil => rfl
  | cons b bs ih =>
    rw [Core.putRegs, ih]
    split
    · rfl
    · exact Core.putArea_pc ..

theorem Core.apply_pc (c : Core) (w : Write) : (c.apply w).pc = c.pc := by
  cases w
  case g => exact Core.setG_pc ..
  case p => exact Core.setP_pc ..
  case csrSet => exact Core.setCsr_pc ..
  case csrOr => exact Core.setCsr_pc ..
  case csrClr => exact Core.setCsr_pc ..
  case regs => exact Core.putRegs_pc ..
  case scr o bs =>
    rw [Core.apply]
    dsimp only
    split <;> rfl
  case lineLoad rd =>
    rw [Core.apply, Core.landLine]
    dsimp only
    split
    · rfl
    · exact Core.landG_pc ..
  all_goals rfl

theorem Core.both_pc (f : Core → Core) (h : ∀ c, (f c).pc = c.pc) (c : Core) : (c.both f).pc = c.pc := by
  unfold Core.both
  dsimp only
  split <;> exact h c

theorem Core.applyAll_pc (c : Core) (ws : List Write) : (c.applyAll ws).pc = c.pc := by
  unfold Core.applyAll Core.countAll
  dsimp only
  rw [foldl_keeps Core.pc Core.apply_pc, foldl_keeps Core.pc fun c w => Core.both_pc _ (fun d => d.apply_pc w) c,
    foldl_keeps Core.pc Core.apply_pc]

theorem Core.capture_pc (c : Core) (n : Nat) : (c.capture n).pc = c.pc := by
  have h : c.finishDivs.pc = c.pc :=
    foldl_keeps Core.pc (fun (c : Core) (o : Outst) => c.landG_pc o.rd o.v o.seq) _ c
  unfold Core.capture Core.landAll Core.rowsLanded
  dsimp only
  split
  · show (c.finishDivs.applyAll _).pc = _
    rw [Core.applyAll_pc, h]
  · show (c.finishDivs.applyAll _).pc = _
    rw [Core.applyAll_pc, h]

/-! ## Announcement, drain and move -/

theorem execTurnAnnounce_eq {s : State} (hd : s.turnDue = true) (hp : s.phase = .run) (hs : s.switching = [])
    (hr : ∀ r ∈ s.regions, r.preempt = false ∧ r.blocked = false ∧ (s.fn r.id.owner).rollback = false) :
    execTurnAnnounce s = .next { (s.regions.filter (·.resident)).foldl (fun t r => t.haltRegion r.id) s with
      phase := .announce, pauseAt := s.cyc.toNat, turnDue := false } := by
  have hall : (s.regions.all fun r => !r.preempt) = true := by
    rw [List.all_eq_true]
    intro r h
    rw [(hr r h).1]
    rfl
  have hl : (s.regions.filter fun r => r.resident && !r.blocked && !(s.fn r.id.owner).rollback) = s.regions.filter (·.resident) := by
    refine List.filter_congr fun r h => ?_
    obtain ⟨-, hb, hf⟩ := hr r h
    rw [hb, hf, Bool.not_false, Bool.and_true, Bool.and_true]
  have hcyc : ∀ (l : List Region) (t : State), (l.foldl (fun t r => t.haltRegion r.id) t).cyc = t.cyc := by
    intro l
    induction l with
    | nil => exact fun t => rfl
    | cons r l ih => exact fun t => (ih _).trans (State.haltRegion_cyc ..)
  simp only [execTurnAnnounce, hd, hp, hs, hall, hl, hcyc, BEq.rfl, List.isEmpty_nil, Bool.and_self, if_true]

/-- The state that a core which stops has, but for what the capture leaves (R31). -/
theorem Core.halt_captured (c : Core) : let k := c.capture (if c.rearmed then 0 else c.bubble)
    c.halt.pc = k.pc ∧ c.halt.qimg = k.qimg ∧ c.halt.pend = k.pend ∧ c.halt.vbusy = k.vbusy ∧
      c.halt.g = k.g ∧ c.halt.p = k.p ∧ c.halt.t = k.t ∧ c.halt.vmem = k.vmem ∧ c.halt.scr = k.scr := by
  intro k
  unfold Core.halt
  dsimp only
  generalize hk : k = d
  replace hk : c.capture (if c.rearmed then 0 else c.bubble) = d := hk
  rw [hk]
  split
  · split <;> exact ⟨rfl, rfl, rfl, rfl, rfl, rfl, rfl, rfl, rfl⟩
  · split <;> exact ⟨rfl, rfl, rfl, rfl, rfl, rfl, rfl, rfl, rfl⟩

theorem execTurnDrain_eq {s : State} (hp : s.phase = .announce) (hr : ∀ r ∈ s.regions, r.resident = true → s.enginesStopped r = true) :
    execTurnDrain s = .next { (s.regions.filter (·.resident)).foldl State.stopEngines s with phase := .drain } := by
  have hall : (s.regions.all fun r => !r.resident || s.enginesStopped r) = true := by
    rw [List.all_eq_true]
    intro r h
    cases hres : r.resident with
    | false => rfl
    | true => rw [hr r h hres]; rfl
  simp only [execTurnDrain, hp, hall, BEq.rfl, Bool.and_self, if_true]

theorem State.claim_failing (col : Nat) (st : StoreKind) (n : Nat) (s : State) : (State.claim col st n s).failing = s.failing := by
  induction n generalizing s with
  | zero => rfl
  | succ n ih =>
    unfold State.claim
    split
    · rfl
    · split
      · rfl
      · exact ih _

theorem State.growStripes_failing (s : State) : s.growStripes.failing = s.failing :=
  foldl_keeps State.failing (fun t _ =>
    (foldl_keeps State.failing (fun u x => State.claim_failing _ _ _ u) _ _).trans (State.addStripes_rest t _).1) _ s

theorem execTurnMove_eq {s : State} (hp : s.phase = .drain) (hd : s.drained = true) (hf : s.failing = []) :
    let resident := s.regions.filter (·.resident)
    execTurnMove s = .next { resident.foldl State.forget { s.growStripes with
        moveFor := (5 * 2 ^ 20 + resident.foldl (fun m r => max m (s.extent r)) 0) / 256
        moveExtra := [], moveTries := [] } with phase := .move } := by
  intro resident
  have hg : s.growStripes.failing = [] := (State.growStripes_failing s).trans hf
  simp only [execTurnMove, hp, hd, BEq.rfl, Bool.and_self, if_true, State.entered, hg, List.filter_nil, List.flatMap_nil, List.foldl_nil]
  rfl

/-! ## Stripes that are sent again -/

section
variable {s : State} {x : Stripe} {ok : Bool} (hev : s.ev = .stripe x ok)
include hev

theorem execTurnLaneRetry_none (hx : s.sent? x = none) : execTurnLaneRetry s = .next s := by
  simp only [execTurnLaneRetry, hev, hx]

theorem execTurnLaneFallback_none (hx : s.sent? x = none) : execTurnLaneFallback s = .next s := by
  simp only [execTurnLaneFallback, hev, hx]

variable {k : Stripe} {col lane mesh : Nat} (hx : s.sent? x = some (k, col)) (hp : s.phase = .move)
  (ht : s.triesOf k = (lane, mesh)) (hm : s.meshOnly (col / 4) = false)
include hx hp ht hm

theorem execTurnLaneRetry_again (hl : lane < 3) : execTurnLaneRetry s = .next
    (((s.stripeRecord 0x06 col k).setTries k (lane + 1, mesh)).prolong col 256) := by
  simp only [execTurnLaneRetry, hev, hx, ht, hp, hm, decide_eq_true hl, BEq.rfl, Bool.not_false, Bool.and_self, if_true]

theorem execTurnLaneRetry_spent (hl : 3 ≤ lane) : execTurnLaneRetry s = .next s := by
  simp only [execTurnLaneRetry, hev, hx, ht, decide_eq_false (Nat.not_lt.2 hl), Bool.and_false, Bool.false_and, Bool.false_eq_true,
    if_false]

theorem execTurnLaneFallback_early (hl : lane < 3) : execTurnLaneFallback s = .next s := by
  have h3 : (lane == 3) = false := beq_eq_false_iff_ne.2 (Nat.ne_of_lt hl)
  simp only [execTurnLaneFallback, hev, hx, ht, hm, h3, Bool.or_self, Bool.and_false, Bool.false_eq_true, if_false]

theorem execTurnLaneFallback_mesh (hl : lane = 3) (h0 : mesh = 0) (hok : ok = true) : execTurnLaneFallback s = .next
    (({ s.stripeRecord 0x07 col k with
      failing := if s.failing.contains (col / 4) then s.failing else s.failing ++ [col / 4] }.prolong col 1024).setTries
        k (3, 1)) := by
  subst hl h0 hok
  have h4 : decide (0 < 4) = true := rfl
  simp only [execTurnLaneFallback, hev, hx, ht, hp, hm, h4, BEq.rfl, Bool.or_false, Bool.and_self, if_true, and_self, Bool.false_and,
    Bool.false_eq_true, if_false, Bool.true_or, Nat.zero_add]

end

theorem State.prolong_first {s : State} (h : s.moveExtra = []) (col n : Nat) : (s.prolong col n).moveFor = s.moveFor + n := by
  simp only [State.prolong, h, List.lookup_nil, Option.getD_none, List.filter_nil, List.foldl_cons, List.foldl_nil]
  omega

/-! ## The remap -/

/-- With no broken column no region stands on one. -/
theorem State.onBroken_sound {t : State} (hc : ∀ c ∈ t.cols, c.broken = none) (r : Region) : t.onBroken r = false := by
  unfold State.onBroken
  rw [List.any_eq_false]
  intro l _
  cases hl : t.cols[t.physCol r l]? with
  | none => exact Bool.false_ne_true
  | some c =>
    rw [Option.bind_some, hc c (List.mem_of_getElem? hl)]
    exact Bool.false_ne_true

theorem State.block_sound {t : State} (hc : ∀ c ∈ t.cols, c.broken = none) : t.block = { t with
    regions := t.regions.map fun (r : Region) => ({ r with blocked := false } : Region)
    cols := t.cols.map fun (c : PhysCol) => ({ c with residues := [] } : PhysCol) } := by
  simp only [State.block, State.onBroken_sound hc]

/-- Every region one position forward on its ring (R34). -/
def State.stepped (s : State) : State :=
  { s with regions := s.regions.map fun (r : Region) => ({ r with head := s.forward r.id.circ r.head 1 } : Region) }

theorem execTurnRemap_eq {s : State} (hp : s.phase = .move) (hm : s.moveFor = 0) (hf : s.failing = [])
    (hc : ∀ c ∈ s.cols, c.broken = none) : execTurnRemap s = .next { s with
      phase := .remap
      stamp := s.stamp + 1
      regions := s.regions.map fun r => { r with head := s.forward r.id.circ r.head 1, blocked := false }
      cols := s.cols.map fun c => { c with residues := [] }
      moveExtra := [], moveTries := [] } := by
  have hfence : s.fence = s := by
    simp only [State.fence, hf, List.filter_nil, List.foldl_nil]
  have hmend : s.stepped.mend = s.stepped := State.mend_none _ hc
  have hblock : s.stepped.block = _ := State.block_sound (t := s.stepped) hc
  unfold execTurnRemap
  rw [if_pos (by rw [hp, hm]; rfl), hfence]
  dsimp only
  rw [← State.stepped, hmend, hblock]
  have hregions : (s.stepped.regions.map fun (r : Region) => ({ r with blocked := false } : Region)) =
      s.regions.map fun r => { r with head := s.forward r.id.circ r.head 1, blocked := false } := List.map_map ..
  rw [hregions]
  rfl

/-! ## The resume -/

theorem turnEntry_fields (h : BitVec 11) (a b c d : BitVec 64) : let x := turnEntry h [a, b, c, d, 0, 0]
    entryHandler x = h.toNat % 1024 ∧ entryHi x = true ∧ entryTcb x = false ∧ entryArg x 1 = a ∧
      entryArg x 2 = b ∧ entryArg x 3 = c ∧ entryArg x 4 = d := by
  intro x
  have hb : (((1 : BitVec 1) ++ h.extractLsb' 0 10).setWidth 64).extractLsb' 0 11 = (1 : BitVec 1) ++ h.extractLsb' 0 10 := by
    rw [extractLsb'_low, BitVec.setWidth_setWidth_of_le _ (by decide), BitVec.setWidth_eq]
  have hx : x = (0 : BitVec 64) ++ (0 : BitVec 64) ++ d ++ c ++ b ++ a ++ (0 : BitVec 64) ++
      (((1 : BitVec 1) ++ h.extractLsb' 0 10).setWidth 64) := by
    show turnEntry h [a, b, c, d, 0, 0] = _
    unfold turnEntry headerEntry
    rw [hb]
    rfl
  have above {v w i n : Nat} {y : BitVec v} {z : BitVec w} (hi : w ≤ i) : (y ++ z).extractLsb' i n = y.extractLsb' (i - w) n :=
    BitVec.extractLsb'_append_eq_of_le hi
  rw [hx]
  refine ⟨?_, ?_, ?_, ?_, ?_, ?_, ?_⟩
  · rw [entryHandler, BitVec.extractLsb'_append_eq_of_add_le (by decide), extractLsb'_low, BitVec.setWidth_setWidth_of_le _ (by decide),
      BitVec.toNat_setWidth, append_toNat, BitVec.extractLsb'_toNat, Nat.shiftRight_zero]
    omega
  · rw [entryHi, BitVec.getLsbD_append, if_pos (by decide), BitVec.getLsbD_setWidth, BitVec.getLsbD_append, if_neg (by decide)]
    decide
  · rw [entryTcb, BitVec.getLsbD_append, if_pos (by decide), BitVec.getLsbD_setWidth, BitVec.getLsbD_append, if_neg (by decide)]
    decide
  · rw [entryArg, above (by decide), above (by decide)]
    exact BitVec.extractLsb'_append_eq_right
  · rw [entryArg, above (by decide), above (by decide), above (by decide)]
    exact BitVec.extractLsb'_append_eq_right
  · rw [entryArg, above (by decide), above (by decide), above (by decide), above (by decide)]
    exact BitVec.extractLsb'_append_eq_right
  · rw [entryArg, above (by decide), above (by decide), above (by decide), above (by decide), above (by decide)]
    exact BitVec.extractLsb'_append_eq_right

/-- The root task of a turn handler that finds a place (R39). -/
theorem State.pushTurn_room {s : State} {r : RegionId} {c : Core} (hc : s.core? ⟨r.owner, r.circ, 0⟩ = some c)
    (hh : c.csr.turnh.getLsbD 10 = true) (hp : c.hasPlace true false = true)
    (hw : (c.spill.any fun y => match y with | .push _ => true | _ => false) = false) (turns pause count : Nat) :
    s.pushTurn r turns pause count =
      (s.updCore c.id fun d => (d.push (turnEntry c.csr.turnh
        [BitVec.ofNat 64 turns, BitVec.ofNat 64 pause, s.stamp.setWidth 64, BitVec.ofNat 64 count, 0, 0]) false).both
          fun d => { d with latch := true }).updRegion r.owner r.circ fun q => { q with inj := q.inj + 1, ej := q.ej + 1 } := by
  obtain ⟨-, hhi, -⟩ := turnEntry_fields c.csr.turnh (BitVec.ofNat 64 turns) (BitVec.ofNat 64 pause) (s.stamp.setWidth 64)
    (BitVec.ofNat 64 count)
  unfold State.pushTurn
  dsimp only
  rw [hc]
  dsimp only
  rw [if_pos hh, State.pushRoot, arrivePush_room hc (by rw [hhi]; exact hp) hw, State.core?_id hc]
  rfl

theorem execTurnResume_eq {s : State} (hp : s.phase = .remap) (hpause : s.cyc.toNat - s.pauseAt ≤ 2 ^ 18)
    (hfn : ∀ f ∈ s.fns, f.ckptK = 0 ∧ f.rollback = false)
    (hr : ∀ r ∈ s.regions, r.preempt = false ∧ r.blocked = false ∧ r.resident = true) :
    let pause := s.cyc.toNat - s.pauseAt
    let each := fun (f : Core → Core) (t : State) => s.regions.foldl (fun t r => t.eachCore r.id f) t
    let pushed := s.regions.foldl
      (fun t r => t.pushTurn r.id (r.turnno.toNat + r.missed + 1) pause (r.missed + 1)) { s with
        regions := s.regions.map fun r => { r with
          turnno := r.turnno + BitVec.ofNat 64 (r.missed + 1), missed := 0, lastPause := pause } }
    pushed.fns = s.fns → execTurnResume s = .next
      { each Core.reissue (each Core.restart pushed).applyForwarded with phase := .run }.dueSwitch := by
  intro pause each pushed hkeep
  have hlive : (s.regions.filter fun r => r.resident && !r.blocked) = s.regions := by
    refine List.filter_eq_self.2 fun r h => ?_
    obtain ⟨-, hb, hres⟩ := hr r h
    rw [hb, hres]
    rfl
  have hturned : (s.regions.map fun r =>
      if r.resident && !r.blocked then
        ({ r with turnno := r.turnno + BitVec.ofNat 64 (r.missed + 1), missed := 0, lastPause := pause } : Region)
      else { r with missed := r.missed + 1, lastPause := pause }) = s.regions.map fun r => { r with
        turnno := r.turnno + BitVec.ofNat 64 (r.missed + 1), missed := 0, lastPause := pause } := by
    refine List.map_congr_left fun r h => ?_
    obtain ⟨-, hb, hres⟩ := hr r h
    rw [hb, hres]
    rfl
  have hck : pushed.takeCheckpoints = pushed := State.takeCheckpoints_none _ (by rw [hkeep]; exact fun f hf => (hfn f hf).1)
  have hroll : ({ pushed with fns := pushed.fns.map fun (fn : Fn) => ({ fn with rollback := false } : Fn) } : State) = pushed := by
    have hid : (pushed.fns.map fun (fn : Fn) => ({ fn with rollback := false } : Fn)) = pushed.fns := by
      rw [hkeep]
      refine (List.map_congr_left fun f hf => ?_).trans (List.map_id _)
      rw [← (hfn f hf).2]
      rfl
    rw [hid]
  unfold execTurnResume
  rw [if_pos (by rw [hp]; rfl)]
  dsimp only
  rw [if_neg (Nat.not_lt.2 hpause), hlive, hturned, hck, hroll]

end Sys2Proof.Machine

namespace Sys2Proof.Proofs
open Sys2Proof Sys2Proof.Machine

/-- Settles O42: each step of a turn, from the announcement to the resume. -/
theorem turnSteps : Obligations.TurnSteps := by
  intro s resident
  refine ⟨fun hd hp hs hr => execTurnAnnounce_eq hd hp hs hr, fun c hp ho hc hb => Core.halt_plain c hp ho hc hb, fun c => ?_,
    fun hp hr => execTurnDrain_eq hp hr, fun hp hd hf => execTurnMove_eq hp hd hf,
    fun x ok hev hx => ⟨execTurnLaneRetry_none hev hx, execTurnLaneFallback_none hev hx⟩,
    fun x k col ok lane mesh hp hev hx ht hm => ⟨fun hl => execTurnLaneRetry_again hev hx hp ht hm hl,
      fun hl h0 hok => execTurnLaneFallback_mesh hev hx hp ht hm hl h0 hok,
      fun hl => execTurnLaneFallback_early hev hx hp ht hm hl, fun hl => execTurnLaneRetry_spent hev hx hp ht hm hl⟩,
    fun col n h => State.prolong_first h col n, fun hp hm hf hc => execTurnRemap_eq hp hm hf hc,
    fun hp hpause hfn hr => execTurnResume_eq hp hpause hfn hr, fun r turns pause count c hc => ?_⟩
  · obtain ⟨hpc, hrest⟩ := c.halt_captured
    exact ⟨hpc.trans (Core.capture_pc ..), hrest⟩
  · obtain ⟨hh, hhi, ht, h1, h2, h3, h4⟩ := turnEntry_fields c.csr.turnh (BitVec.ofNat 64 turns) (BitVec.ofNat 64 pause)
      (s.stamp.setWidth 64) (BitVec.ofNat 64 count)
    refine ⟨fun hoff => State.pushTurn_off s r turns pause count fun d hd => ?_,
      fun hon hp hw => State.pushTurn_room hc hon hp hw turns pause count, hh, hhi, ht, h1, h2, h3, h4⟩
    obtain rfl : c = d := Option.some.inj (hc.symm.trans hd)
    exact hoff

end Sys2Proof.Proofs
end


section

/-! Switches of contexts, launches that end, and regions made, resized and freed (02_execution_model.md R27 to
R29, R46, R48 to R50, 25_containment.md). -/

namespace Sys2Proof.Machine
open Sys2Proof
set_option Elab.async false

/-! ## The switches asked for -/

/-- What is asked for and under way of switches. -/
def State.asked (s : State) : List (RegionId × Option RegionId) × List (RegionId × RegionId) := (s.switches, s.switching)

theorem State.claim_asked (col : Nat) (st : StoreKind) (n : Nat) (s : State) : (State.claim col st n s).asked = s.asked := by
  induction n generalizing s with
  | zero => rfl
  | succ n ih =>
    unfold State.claim
    split
    · rfl
    · split
      · rfl
      · exact ih _

theorem State.addStripes_asked (s : State) (l : List Stripe) : (s.addStripes l).asked = s.asked := rfl

theorem State.updRegion_asked (s : State) (o k : Nat) (f : Region → Region) : (s.updRegion o k f).asked = s.asked := rfl

theorem State.saveBank_asked (s : State) (id : RegionId) : (s.saveBank id).asked = s.asked := rfl

theorem State.growStripes_asked (s : State) : s.growStripes.asked = s.asked :=
  foldl_keeps State.asked (fun t _ =>
    (foldl_keeps State.asked (fun u _ => State.claim_asked _ _ _ u) _ _).trans (State.addStripes_asked t _)) _ s

theorem State.updCore_asked (s : State) (id : CoreId) (f : Core → Core) : (s.updCore id f).asked = s.asked := by
  unfold State.updCore
  split <;> rfl

theorem State.stopArray_asked (s : State) (l : ColId) : (s.stopArray l).asked = s.asked := by
  unfold State.stopArray
  split
  · rfl
  · exact foldl_keeps State.asked (fun t _ => State.updCore_asked t _ _) _ s

theorem State.stopEngines_asked (s : State) (r : Region) : (s.stopEngines r).asked = s.asked :=
  (foldl_keeps State.asked (fun t _ => State.updCore_asked t _ _) _ _).trans
    (foldl_keeps State.asked State.stopArray_asked _ s)

theorem State.forget_asked (s : State) (r : Region) : (s.forget r).asked = s.asked := by
  unfold State.forget
  dsimp only
  split <;> rfl

theorem State.openSwitches_nil {s : State} (h : s.switches = []) : s.openSwitches = [] := by
  unfold State.openSwitches
  split
  · rfl
  · rw [h]
    rfl

theorem State.dueSwitch_idle {s : State} (h : s.openSwitches = []) : s.dueSwitch = s := by
  unfold State.dueSwitch
  rw [h]
  rfl

theorem State.clash_self (s : State) (a : RegionId) : s.clash a a = true := by
  unfold State.clash
  rw [BEq.rfl]
  rfl

/-- The one switch asked for, of which the context has left, waits for the context to come (R48). -/
theorem State.switchedOut_one {t : State} {x : RegionId × Option RegionId} {l : List (RegionId × RegionId)} {id : RegionId}
    (h : t.asked = ([x], l)) (hx : x.1 = id) :
    t.switchedOut id = { t with switches := [], switching := l ++ (x.2.map fun n => (id, n)).toList } := by
  obtain ⟨hs, hl⟩ := Prod.mk.inj h
  have hid : (x.1 == id) = true := beq_iff_eq.2 hx
  simp only [State.switchedOut, hs, hl, List.find?_cons, hid, List.erase_cons_head]

/-! ## Pre-emption -/

section
variable {s : State} {id : RegionId} {r : Region} (hev : s.ev = .region id) (hr : s.region? id.owner id.circ = some r)
  (hp : s.phase = .run)
include hev hr

theorem execPreempt_done (hp : s.phase = .run) {x : RegionId × Option RegionId} (hs : s.switches = [x]) (hres : r.resident = true)
    (hpre : r.preempt = true) (hsw : s.switchable r = true) (hx : x.1 = id) : execPreempt s = .next
      { (((s.growStripes.stopEngines r).forget r).updRegion id.owner id.circ fun r =>
          { r with resident := false, preempt := false, lastRes := s.cyc.toNat, lastPause := 0 }).saveBank id with
        switches := [], switching := s.switching ++ (x.2.map fun n => (id, n)).toList } := by
  have hask (f : Region → Region) : ((((s.growStripes.stopEngines r).forget r).updRegion id.owner id.circ f).saveBank id).asked =
      ([x], s.switching) := by
    rw [State.saveBank_asked, State.updRegion_asked, State.forget_asked, State.stopEngines_asked, State.growStripes_asked,
      State.asked, hs]
  simp only [execPreempt, hev, hr, hres, hpre, hp, hsw, BEq.rfl, Bool.and_self, if_true]
  rw [State.switchedOut_one (hask _) hx, State.dueSwitch_idle (State.openSwitches_nil rfl)]

theorem execPreempt_waits (hsw : s.switchable r = false) : execPreempt s = .next s := by
  simp only [execPreempt, hev, hr, hsw, Bool.and_false, Bool.false_eq_true, if_false]

/-- A context whose place is free, and that missed no turn, becomes resident (R49). -/
theorem execContextRestore_eq (hp : s.phase = .run) (hres : r.resident = false) (hm : r.missed = 0) (hk : s.keptOut id = false)
    (hb : s.onBroken r = false) (hfree : ∀ q ∈ s.regions, q.resident = true → q.id ≠ id → s.shares q r = false) :
    execContextRestore s = .next ({ ((s.updRegion id.owner id.circ fun q =>
        { q with resident := true, started := true, turnno := r.turnno, missed := 0, blocked := s.onBroken q }).fetchStripes r) with
          switching := s.switching.filter (·.2 ≠ id) }.restartRegion id).dueSwitch := by
  have hany : (s.regions.any fun q => q.resident && q.id != id && s.shares q r) = false := by
    rw [List.any_eq_false]
    intro q hq h
    rw [Bool.and_eq_true, Bool.and_eq_true, bne_iff_ne] at h
    obtain ⟨⟨h1, h2⟩, h3⟩ := h
    exact Bool.false_ne_true ((hfree q hq h1 h2).symm.trans h3)
  simp only [execContextRestore, hev, hr, hp, hres, hk, hany, hm, hb, BEq.rfl, Bool.not_false, Bool.and_self, if_true, Nat.add_zero,
    BitVec.ofNat_toNat, BitVec.setWidth_eq, Bool.false_eq_true, if_false]

/-! ## The end of a launch -/

/-- Every core of a region is quiet, and its arrays stand still (R46). -/
def State.regionIdle (s : State) (id : RegionId) (r : Region) : Bool :=
  (s.cores.filter fun c => c.id.owner = id.owner ∧ c.id.circ = id.circ).all Core.quiet &&
    r.arrays.all fun a => a.queue.isEmpty && a.run.isNone

omit hev hr in
theorem State.regionIdle_of (hc : ∀ c ∈ s.cores, c.id.owner = id.owner → c.id.circ = id.circ → c.quiet = true)
    (ha : ∀ a ∈ r.arrays, a.queue = [] ∧ a.run = none) : s.regionIdle id r = true := by
  rw [State.regionIdle, Bool.and_eq_true, List.all_eq_true, List.all_eq_true]
  refine ⟨fun c h => ?_, fun a h => ?_⟩
  · obtain ⟨hm, hid⟩ := List.mem_filter.1 h
    obtain ⟨ho, hk⟩ := of_decide_eq_true hid
    exact hc c hm ho hk
  · obtain ⟨hq, hrun⟩ := ha a h
    rw [hq, hrun]
    rfl

section
variable (hp : s.phase = .run) {l : Launch} (hl : r.launch = some l)
include hp hl

theorem execTerminationWave_first (hi : s.regionIdle id r = true) (he : r.inj = r.ej) (hw : r.wave ≠ some (r.inj, r.ej)) :
    execTerminationWave s = .next (s.updRegion id.owner id.circ fun q => { q with wave := some (q.inj, q.ej) }) := by
  unfold State.regionIdle at hi
  simp only [execTerminationWave, hev, hr, hi, he, hp, hl, BEq.rfl, Bool.and_self, if_true]
  rw [if_neg (by rw [← he] at hw ⊢; exact hw)]

theorem execTerminationWave_second (hi : s.regionIdle id r = true) (he : r.inj = r.ej) (hw : r.wave = some (r.inj, r.ej)) :
    execTerminationWave s = .next ((s.updRegion id.owner id.circ fun r => { r with launch := none, wave := none }).complete
      id.owner l.q l.sseq 1 0 (r.ocyc - l.startOcyc)) := by
  unfold State.regionIdle at hi
  rw [he] at hw
  simp only [execTerminationWave, hev, hr, hi, he, hp, hl, hw, BEq.rfl, Bool.and_self, if_true]

end

theorem execTerminationWave_traffic (he : r.inj ≠ r.ej) : execTerminationWave s = .next
    (s.updRegion id.owner id.circ fun r => { r with wave := none }) := by
  have hn : (r.inj == r.ej) = false := beq_eq_false_iff_ne.2 he
  simp only [execTerminationWave, hev, hr, hn, Bool.and_false, Bool.false_and, Bool.false_eq_true, if_false]

end

/-! ## A request for a switch -/

section
variable {s : State} {id : RegionId} {x : Option RegionId} (hev : s.ev = .switch id x)
include hev

theorem execPreempt_asks : execPreempt s = .next ((s.askSwitch id x).openSwitches.foldl State.beginSwitch (s.askSwitch id x)) := by
  simp only [execPreempt, hev]

omit hev in
theorem State.beginSwitch_resident {r : Region} (hr : s.region? id.owner id.circ = some r) (hid : r.id = id) (hres : r.resident = true)
    (hpre : r.preempt = false) (hb : r.blocked = false) : s.beginSwitch (id, x) =
      (s.updRegion id.owner id.circ fun r => { r with preempt := true }).haltRegion id := by
  subst hid
  simp only [State.beginSwitch, hr, hres, hpre, hb, Bool.not_false, Bool.and_self, if_true, Bool.false_eq_true, if_false]

theorem execPreempt_turnDue (hs : s.switches = []) (ht : s.turnDue = true) :
    execPreempt s = .next { s with switches := [(id, x)] } := by
  have ho : (s.askSwitch id x).openSwitches = [] := if_pos (by
    show (_ || s.turnDue) = true
    rw [ht, Bool.or_true])
  rw [execPreempt_asks hev, ho, State.askSwitch, hs]
  rfl

theorem execPreempt_begins (hs : s.switches = []) (hsw : s.switching = []) (hp : s.phase = .run) (ht : s.turnDue = false) {r : Region}
    (hr : s.region? id.owner id.circ = some r) (hid : r.id = id) (hres : r.resident = true) (hpre : r.preempt = false)
    (hb : r.blocked = false) : execPreempt s = .next (({ s with switches := [(id, x)] }.updRegion id.owner id.circ
      fun r => { r with preempt := true }).haltRegion id) := by
  have hask : s.askSwitch id x = { s with switches := [(id, x)] } := by rw [State.askSwitch, hs]; rfl
  have ho : ({ s with switches := [(id, x)] } : State).openSwitches = [(id, x)] := by
    unfold State.openSwitches
    rw [if_neg (by show ¬(s.phase != .run || s.turnDue) = true; rw [hp, ht]; exact Bool.false_ne_true)]
    simp only [hsw, List.any_nil, Bool.not_false, Bool.and_true]
    refine List.filter_eq_self.2 fun y hy => ?_
    obtain rfl := List.mem_singleton.1 hy
    simp only [List.find?_cons, State.clash_self, BEq.rfl]
  rw [execPreempt_asks hev, hask, ho]
  refine congrArg Host.Outcome.next (State.beginSwitch_resident (id := id) (x := x) (s := { s with switches := [(id, x)] }) hr hid hres hpre hb)

end

/-! ## Regions made, resized and freed -/

section
variable {s : State} {id : RegionId} {pos head : Nat} {mcs : List Nat} (hev : s.ev = .newRegion id pos head mcs)
  (hok : s.placeOk id pos head mcs = true)
include hev hok

theorem execRegionCreate_eq (hr : s.region? id.owner id.circ = none) (hq : ∀ q ∈ s.regions, q.resident = false)
    (hs : s.switching = []) (hc : ∀ c ∈ s.cols, c.broken = none) :
    let r : Region := { wholeRegion with
      id := id, pos := pos, head := head, mcs := mcs, resident := true, started := true,
      arrays := List.replicate (4 * pos) ⟨[], none⟩, banks := List.replicate (4 * pos) [] }
    execRegionCreate s = .next (State.fetchStripes { s with
      regions := s.regions ++ [r]
      others := s.others ++ (coreNums pos mcs.length).map fun n => Core.fresh ⟨id.owner, id.circ, n⟩ } r) := by
  intro r
  have hany : ∀ q : Region, (s.regions.any fun p => p.resident && s.shares p q) = false := by
    intro q
    rw [List.any_eq_false]
    intro p hp
    rw [hq p hp]
    exact Bool.false_ne_true
  simp only [execRegionCreate, hev, hr, hok, hany, hs, State.onBroken_sound hc, Option.isNone_none, Bool.and_self, if_true, List.any_nil,
    Bool.not_false, Bool.and_false]
  rfl

theorem execRegionResize_eq {r : Region} (hr : s.region? id.owner id.circ = some r) (hres : r.resident = false) :
    ∃ t, execRegionResize s = .next t ∧ t.net = s.net ∧ t.hbm = s.hbm ∧ t.fns = s.fns ∧
      t.regions = s.regions.map fun q =>
        let banks := (q.banks ++ List.replicate (4 * pos - q.banks.length) []).take (4 * pos)
        let arrays := List.replicate (4 * pos) ⟨[], none⟩
        if q.id.owner = id.owner ∧ q.id.circ = id.circ then
          { q with pos := pos, head := head, mcs := mcs, arrays := arrays, banks := banks }
        else q := by
  obtain ⟨hn, hh, hf, hreg, -⟩ := s.keepCores_rest fun c => !inRegion c id || (coreNums pos mcs.length).contains c.num
  simp only [execRegionResize, hev, hr, hok, hres, Bool.not_false, Bool.and_self, if_true]
  refine ⟨_, rfl, hn, hh, hf, ?_⟩
  rw [State.updRegion]
  exact congrArg (List.map _) hreg

end

theorem State.dropRegion_spec (s : State) (id : RegionId) : let t := s.dropRegion id
    t.regions = s.regions.filter (·.id ≠ id) ∧ t.net = s.net.filter (fun m => !m.ofRegion id) ∧
      t.stripes = s.stripes.filter (·.r ≠ id) ∧ t.fns = s.fns ∧ t.hbm = s.hbm ∧
      ∀ c ∈ t.cores, ¬(c.id.owner = id.owner ∧ c.id.circ = id.circ) ∨ c = Core.fresh nobody := by
  obtain ⟨hn, hh, hf, hreg, hs⟩ := s.keepCores_rest fun c => !inRegion c id
  refine ⟨congrArg _ hreg, congrArg _ hn, congrArg _ hs, hf, hh, fun c hc => ?_⟩
  refine (s.keepCores_cores (fun c => !inRegion c id) c hc).imp (fun h => ?_) fun h => h
  rintro ⟨ho, hk⟩
  rw [inRegion, ho, hk, BEq.rfl, BEq.rfl] at h
  exact Bool.false_ne_true h

end Sys2Proof.Machine

namespace Sys2Proof.Proofs
open Sys2Proof Sys2Proof.Machine

/-- Settles O43: a switch of contexts from its request to the restore, the end of a launch, and the regions
that firmware makes, resizes and frees. -/
theorem regionEvents : Obligations.RegionEvents := by
  refine ⟨fun s id r hev hr hp => ?_, fun s id r x hev hr hid hp hs hsw hres hpre hb =>
      ⟨fun ht => execPreempt_begins hev hs hsw hp ht hr hid hres hpre hb, fun ht => execPreempt_turnDue hev hs ht⟩,
    fun s h => State.dueSwitch_idle h, fun s id pos head mcs => ⟨fun hev hok =>
      ⟨fun hr hq hs hc => execRegionCreate_eq hev hok hr hq hs hc, fun r hr hres => execRegionResize_eq hev hok hr hres⟩,
      fun r hev hr => ⟨fun hres => ?_, fun hres => ?_⟩⟩⟩
  · intro upd
    refine ⟨fun x hs hres hpre hsw hx => execPreempt_done hev hr hp hs hres hpre hsw hx,
      fun _ _ hsw => execPreempt_waits hev hr hsw,
      fun hres hm hk hb hfree => execContextRestore_eq hev hr hp hres hm hk hb hfree, fun l hl => ?_⟩
    intro idle
    refine ⟨fun hi he hw => ?_, fun hi he hw => ?_, fun he => execTerminationWave_traffic hev hr he⟩
    · obtain ⟨hc, ha⟩ := hi
      exact execTerminationWave_first hev hr hp hl (State.regionIdle_of hc ha) he hw
    · obtain ⟨hc, ha⟩ := hi
      exact execTerminationWave_second hev hr hp hl (State.regionIdle_of hc ha) he hw
  · show execRegionFree s = _
    simp only [execRegionFree, hev, hr, hres, if_true]
  · have he : execRegionFree s = .next (s.dropRegion id) := by
      simp only [execRegionFree, hev, hr, hres, Bool.false_eq_true, if_false]
    exact ⟨_, he, State.dropRegion_spec s id⟩

end Sys2Proof.Proofs
end


section

/-! Page requests and their replies, the counts of frames, and reclaims (03_storage_model.md, 15_host_fabric_firmware.md,
23_faults_memory.md R331, R409 to R411, R417). -/

namespace Sys2Proof.Machine
open Sys2Proof
set_option Elab.async false

/-- Two changes that agree on the function's own row are one. -/
theorem State.updFn_congr {s : State} {f : Nat} {g h : Fn → Fn} (e : g (s.fn f) = h (s.fn f)) : s.updFn f g = s.updFn f h :=
  congrArg (fun l => { s with fns := l }) (modAt_congr g h Fn.reset s.fns f e)

/-- A request takes the next tag and an entry, and the ring's tail when it is written at once. -/
theorem State.enterRequest_eq {s : State} {f : Nat} {now : Bool} (hnow : ((s.fn f).prEn && s.linkUp) = now) (g : Nat) (r w : Bool) :
    s.enterRequest f g r w = { s.updFn f fun fn => { fn with
        reqs := fn.reqs ++ [⟨fn.nextTag, g, r, w, 0, now⟩], nextTag := fn.nextTag + 1
        prTail := if now then fn.prTail + 1 else fn.prTail } with
      host := if now then s.host.putBytes ((s.fn f).prBase.toNat + 16 * ((s.fn f).prTail.toNat % 1024))
        (natBytes 8 (g * 2 ^ 13 + (if r then 2 else 0) + (if w then 4 else 0)) ++ natBytes 8 (s.fn f).nextTag.toNat) else s.host } := by
  have hrow : s.updFn f (fun fn => { fn with
        reqs := fn.reqs ++ [⟨(s.fn f).nextTag, g, r, w, 0, now⟩], nextTag := (s.fn f).nextTag + 1
        prTail := if now then fn.prTail + 1 else fn.prTail }) = s.updFn f fun fn => { fn with
        reqs := fn.reqs ++ [⟨fn.nextTag, g, r, w, 0, now⟩], nextTag := fn.nextTag + 1
        prTail := if now then fn.prTail + 1 else fn.prTail } := State.updFn_congr rfl
  unfold State.enterRequest
  dsimp only
  rw [hnow, hrow]
  cases now <;> rfl

section
variable {s : State} {f : Nat} (hf : f < s.fns.length)
include hf

/-! ## Requests -/

theorem execPageRequestDequeue_enters {g : Nat} {r w : Bool} {l : List (Nat × Bool × Bool)} (hev : s.ev = .num f)
    (hq : (s.fn f).reqQueue = (g, r, w) :: l) (h4 : (s.fn f).reqs.length < 4) :
    let fn := s.fn f
    let now := fn.prEn && s.linkUp
    execPageRequestDequeue s = .next { s.updFn f fun fn => { fn with
        reqQueue := l, reqs := fn.reqs ++ [⟨fn.nextTag, g, r, w, 0, now⟩], nextTag := fn.nextTag + 1
        prTail := if now then fn.prTail + 1 else fn.prTail } with
      host := if now then s.host.putBytes (fn.prBase.toNat + 16 * (fn.prTail.toNat % 1024))
        (natBytes 8 (g * 2 ^ 13 + (if r then 2 else 0) + (if w then 4 else 0)) ++ natBytes 8 fn.nextTag.toNat) else s.host
      reqOrder := s.reqOrder.erase f } := by
  intro fn now
  have he : s.entryFree f = true := by
    rw [State.entryFree, decide_eq_true h4]
    rfl
  have hfn : (s.updFn f fun fn => { fn with reqQueue := l }).fn f = { s.fn f with reqQueue := l } := State.fn_updFn hf _
  have hnow : (((s.updFn f fun fn => { fn with reqQueue := l }).fn f).prEn && (s.updFn f fun fn => { fn with reqQueue := l }).linkUp) =
      now := by rw [hfn]; rfl
  have hpops : execPageRequestDequeue s = .next
      { (s.updFn f fun fn => { fn with reqQueue := l }).enterRequest f g r w with reqOrder := s.reqOrder.erase f } := by
    simp only [execPageRequestDequeue, hev, hq, he, decide_eq_true h4, Bool.true_or, Bool.and_self, if_true]
  rw [hpops, State.enterRequest_eq hnow, State.updFn_updFn, hfn]
  rfl

/-! ## Replies -/

section
variable {tag : BitVec 32} {q : PageReq} (hev : s.ev = .tag f tag) (hq : s.requestOf f tag = some q)
include hev hq

omit hf

/-- Frames that a mapped reply would newly charge (R331). -/
def State.newFrames (s : State) (f : Nat) (q : PageReq) : List Nat :=
  (s.framesOf f q.gran).filter fun x => !(s.fn f).frames.contains x

theorem execPageReplyMapped_charged (h : s.newFrames f q = []) : execPageReplyMapped s = .next (s.reply f q 4) := by
  unfold State.newFrames at h
  simp only [execPageReplyMapped, hev, hq, h, List.isEmpty_nil, if_true]

theorem execPageReplyMapped_new (h : s.newFrames f q ≠ [])
    (hl : (s.fn f).held + (s.newFrames f q).length ≤ max (s.fn f).burst (s.fn f).guar)
    (hg : (s.fn f).frames.length + (s.newFrames f q).length ≤ (s.fn f).guar ∨ (s.newFrames f q).length ≤ s.freeFrames) :
    execPageReplyMapped s = .next ((s.updFn f fun fn => { fn with frames := fn.frames ++ s.newFrames f q }).reply f q 4) := by
  unfold State.newFrames at h hl hg ⊢
  have hn : ¬((s.fn f).limit < (s.fn f).held + ((s.framesOf f q.gran).filter fun x => !(s.fn f).frames.contains x).length ∨
      (s.fn f).guar < (s.fn f).frames.length + ((s.framesOf f q.gran).filter fun x => !(s.fn f).frames.contains x).length ∧
        s.freeFrames < ((s.framesOf f q.gran).filter fun x => !(s.fn f).frames.contains x).length) := by
    rw [Fn.limit]
    omega
  unfold execPageReplyMapped
  rw [hev]
  dsimp only
  rw [hq]
  dsimp only
  rw [if_neg (fun e => h (List.isEmpty_iff.1 e)), if_neg hn]

theorem execPageReplyMapped_beyond (h : s.newFrames f q ≠ [])
    (hl : max (s.fn f).burst (s.fn f).guar < (s.fn f).held + (s.newFrames f q).length ∨
      (s.fn f).guar < (s.fn f).frames.length + (s.newFrames f q).length ∧ s.freeFrames < (s.newFrames f q).length) :
    execPageReplyMapped s = .next (s.reply f q 1) := by
  unfold State.newFrames at h hl
  rw [← Fn.limit] at hl
  unfold execPageReplyMapped
  rw [hev]
  dsimp only
  rw [hq]
  dsimp only
  rw [if_neg (fun e => h (List.isEmpty_iff.1 e)), if_pos hl]

theorem execPageReplyRefused_eq : execPageReplyRefused s = .next (s.reply f q 1) := by
  simp only [execPageReplyRefused, hev, hq]

theorem execPageRequestTimeout_eq : execPageRequestTimeout s = .next
    (if (s.fn f).replyLimit < q.age then s.reply f q 2 else s) := by
  simp only [execPageRequestTimeout, hev, hq]

end

omit hf in
theorem execPageRequestRingEnable_eq {off : Nat} {v : BitVec 64} (hev : s.ev = .reg f off v) (hv : v.getLsbD 0 = true) (hf : f ≠ 64) :
    execPageRequestRingEnable s =
      .next ((s.updFn f fun fn => { fn with prBase := v &&& 0xFFFFFFFFFFFFF000, prEn := true }).writeRequests f) := by
  simp only [execPageRequestRingEnable, hev, hv, if_true, if_neg hf]

omit hf in
theorem State.writeRequests_one (hen : (s.fn f).prEn = true) (hup : s.linkUp = true) {q : PageReq} (hq : (s.fn f).reqs = [q])
    (hw : q.written = false) : s.writeRequests f = s.writeRequest f q := by
  simp only [State.writeRequests, hen, hup, Bool.and_self, if_true, hq, List.filter_cons, hw, Bool.not_false, List.filter_nil,
    List.foldl_cons, List.foldl_nil]

theorem State.writeRequest_reqs {q : PageReq} (hq : (s.fn f).reqs = [q]) :
    ((s.writeRequest f q).fn f).reqs = [{ q with written := true, age := 0 }] := by
  refine (congrArg Fn.reqs (State.fn_updFn hf _)).trans ?_
  dsimp only
  rw [hq, List.map_cons, if_pos rfl, List.map_nil]

omit hf in
theorem State.writeRequests_none (h : ∀ q ∈ (s.fn f).reqs, q.written = true) : s.writeRequests f = s := by
  have hl : ((s.fn f).reqs.filter fun r => !r.written) = [] := by
    rw [List.filter_eq_nil_iff]
    intro q hq
    rw [h q hq]
    exact Bool.false_ne_true
  rw [State.writeRequests, hl, List.foldl_nil, ite_self]

end

theorem State.reply_alone {s : State} {f : Nat} (hc : (s.cores.filter fun c => c.id.owner = f) = []) (hi : s.fabricIn = [])
    (q : PageReq) (sub : BitVec 8) : s.reply f q sub = s.updFn f fun fn => { fn with reqs := fn.reqs.filter (·.tag ≠ q.tag) } := by
  unfold State.reply
  refine (congrArg (fun l => List.foldl _ _ l) hc).trans ?_
  unfold State.updFn
  dsimp only [List.foldl_nil]
  rw [hi]
  rfl

theorem Core.hear_needed {c : Core} (hb : c.bulks = []) (hw : c.waitBack.2.1 = []) {g : Nat} (hn : c.needs.any (·.1 == g) = true)
    (ha : c.answered.any (·.1 == g) = false) (sub : BitVec 8) : c.hear g sub = { c with answered := c.answered ++ [(g, sub)] } := by
  simp only [Core.hear, hb, List.map_nil, heard, hn, ha, hw, List.any_nil, Bool.not_false, Bool.and_self, if_true, Bool.false_and,
    Bool.false_eq_true, if_false]
  rw [← hw]

/-! ## Reclaims -/

theorem State.writeReclaims_one {s : State} (hen : s.pf.prEn = true) (hup : s.linkUp = true) (h : ∀ r ∈ s.reclaims, r.2.2 = true)
    (x : Nat) (tag : BitVec 32) : ({ s with reclaims := s.reclaims ++ [(x, tag, false)] } : State).writeReclaims =
      ({ s with reclaims := s.reclaims ++ [(x, tag, false)] } : State).writeReclaim x tag := by
  have hl : ((s.reclaims ++ [(x, tag, false)]).filter fun r => !r.2.2) = [(x, tag, false)] := by
    rw [List.filter_append, List.filter_eq_nil_iff.2 fun r hr => by rw [h r hr]; exact Bool.false_ne_true]
    rfl
  simp only [State.writeReclaims, hen, hup, Bool.and_self, if_true, hl, List.foldl_cons, List.foldl_nil]

section
variable {s : State} {f : Nat} (hev : s.ev = .num f)
include hev

theorem execFrameReclaim_asks (hl : (s.fn f).frames.length < (s.fn f).guar) (hn : (s.fn f).needsFrame = true)
    (h0 : s.freeFrames = 0) {x : Nat} (hx : s.reclaimed = some x) :
    execFrameReclaim s = .next { s with reclaims := s.reclaims ++ [(x, BitVec.ofNat 32 x, false)] }.writeReclaims := by
  simp only [execFrameReclaim, hev, hl, hn, h0, hx, and_self, if_true]

theorem execFrameReclaim_none (h : (s.fn f).guar ≤ (s.fn f).frames.length ∨ (s.fn f).needsFrame = false ∨ 0 < s.freeFrames) :
    execFrameReclaim s = .next s := by
  have hn : ¬((s.fn f).frames.length < (s.fn f).guar ∧ (s.fn f).needsFrame ∧ s.freeFrames = 0) := by
    rintro ⟨h1, h2, h3⟩
    obtain h | h | h := h
    · omega
    · exact Bool.false_ne_true (h.symm.trans h2)
    · omega
  simp only [execFrameReclaim, hev, if_neg hn]

end

theorem State.writeReclaims_off {s : State} (h : (s.pf.prEn && s.linkUp) = false) : s.writeReclaims = s := by
  rw [State.writeReclaims, h]
  rfl

/-- One step of the search for the frame whose use is the oldest. -/
def State.older (s : State) (best : Option Nat) (x : Nat) : Option Nat :=
  match best with
  | none => some x
  | some b => if s.lastUse x < s.lastUse b ∨ (s.lastUse x = s.lastUse b ∧ x < b) then some x else best

/-- The search finds a frame of the list, or keeps its first one, whose last use is no later than that of any. -/
theorem State.foldl_older (s : State) (l : List Nat) (b : Nat) : ∃ x, l.foldl s.older (some b) = some x ∧ (x = b ∨ x ∈ l) ∧
    s.lastUse x ≤ s.lastUse b ∧ ∀ y ∈ l, s.lastUse x ≤ s.lastUse y := by
  induction l generalizing b with
  | nil => exact ⟨b, rfl, Or.inl rfl, Nat.le_refl _, fun y hy => absurd hy List.not_mem_nil⟩
  | cons y l ih =>
    rw [List.foldl_cons, State.older]
    split
    next h =>
      obtain ⟨x, hx, hm, hle, hall⟩ := ih y
      refine ⟨x, hx, Or.inr ?_, by omega, fun z hz => ?_⟩
      · exact hm.elim (fun e => e ▸ List.mem_cons_self) (fun e => List.mem_cons_of_mem _ e)
      · exact (List.mem_cons.1 hz).elim (fun e => e ▸ hle) (hall z)
    next h =>
      obtain ⟨x, hx, hm, hle, hall⟩ := ih b
      refine ⟨x, hx, hm.imp_right (List.mem_cons_of_mem _), hle, fun z hz => ?_⟩
      refine (List.mem_cons.1 hz).elim (fun e => ?_) (hall z)
      subst e
      omega

theorem State.reclaimed_spec {s : State} {x : Nat} (h : s.reclaimed = some x) : x ∈ s.surplus ∧ s.reclaims.any (·.1 == x) = false ∧
    ∀ y ∈ s.surplus, s.reclaims.any (·.1 == y) = false → s.lastUse x ≤ s.lastUse y := by
  replace h : (s.surplus.filter fun x => !s.reclaims.any (·.1 == x)).foldl s.older none = some x := h
  have hmem : ∀ y, y ∈ (s.surplus.filter fun x => !s.reclaims.any (·.1 == x)) ↔ y ∈ s.surplus ∧ s.reclaims.any (·.1 == y) = false := by
    intro y
    rw [List.mem_filter, Bool.not_eq_true']
  generalize (s.surplus.filter fun x => !s.reclaims.any (·.1 == x)) = l at h hmem
  cases l with
  | nil => exact absurd h (by exact fun e => nomatch e)
  | cons b l =>
    obtain ⟨z, hz, hm, hle, hall⟩ := s.foldl_older l b
    obtain rfl : z = x := Option.some.inj (hz.symm.trans h)
    have hin : z ∈ b :: l := hm.elim (fun e => e ▸ List.mem_cons_self) (List.mem_cons_of_mem _)
    obtain ⟨h1, h2⟩ := (hmem z).1 hin
    refine ⟨h1, h2, fun y hy hr => ?_⟩
    exact (List.mem_cons.1 ((hmem y).2 ⟨hy, hr⟩)).elim (fun e => e ▸ hle) (hall y)

theorem execReclaimReply_eq {s : State} {f : Nat} {tag : BitVec 32} {x : Nat} (hev : s.ev = .tag f tag)
    (hx : s.reclaims.find? (fun r => r.2.1 == tag && r.2.2) = some (x, tag, true)) : execReclaimReply s = .next { s with
      fns := s.fns.map fun fn => { fn with frames := fn.frames.filter (· ≠ x) }
      reclaims := s.reclaims.filter (·.2.1 ≠ tag) } := by
  simp only [execReclaimReply, hev, hx]

end Sys2Proof.Machine

namespace Sys2Proof.Proofs
open Sys2Proof Sys2Proof.Machine

/-- Settles O45: page requests, their replies and time-outs, the counts of frames, and reclaims. -/
theorem pageAndFrameEvents : Obligations.PageAndFrameEvents := by
  refine ⟨fun s f hf => ⟨fun g r w l hev hq h4 _ _ => execPageRequestDequeue_enters hf hev hq h4, fun hev hq => ?_,
      fun g r w h1 h2 h3 h4 h5 => State.request_later h1 h2 h3 h4 h5, fun tag q hev hq => ?_,
      fun off v hev hv h64 => execPageRequestRingEnable_eq hev hv h64,
      fun hen hup q hq hw => ⟨State.writeRequests_one hen hup hq hw, State.writeRequest_reqs hf hq, rfl⟩,
      State.writeRequests_none, fun q sub hc hi => State.reply_alone hc hi q sub,
      fun c g sub hb hw hn ha => Core.hear_needed hb hw hn ha sub⟩, fun s => ⟨fun f guar burst hev => ?_, fun f b n hev => ?_,
      fun f r hev => ?_, fun f n hev => ?_, fun f x hev hl hn h0 hx => ?_, fun x tag => ⟨rfl, rfl⟩,
      fun f hev h => execFrameReclaim_none hev h, fun x h => State.reclaimed_spec h, fun f tag x hev hx => execReclaimReply_eq hev hx⟩⟩
  · show execPageRequestDequeue s = _
    simp only [execPageRequestDequeue, hev, hq]
  · intro new
    exact ⟨fun h => execPageReplyMapped_charged hev hq h, fun h hl hg => execPageReplyMapped_new hev hq h hl hg,
      fun h hl => execPageReplyMapped_beyond hev hq h hl, execPageReplyRefused_eq hev hq, execPageRequestTimeout_eq hev hq⟩
  · show execFrameCountsSet s = _
    simp only [execFrameCountsSet, hev]
  · show execFrameCountsSet s = _
    simp only [execFrameCountsSet, hev]
    rfl
  · show execFrameCountsSet s = _
    simp only [execFrameCountsSet, hev]
    rfl
  · show execFrameCountsSet s = _
    simp only [execFrameCountsSet, hev]
    rfl
  · intro t
    refine ⟨fun hoff => (execFrameReclaim_asks hev hl hn h0 hx).trans ?_, fun hen hup hall => (execFrameReclaim_asks hev hl hn h0 hx).trans ?_⟩
    · exact congrArg Host.Outcome.next (State.writeReclaims_off (s := t) hoff)
    · exact congrArg Host.Outcome.next (State.writeReclaims_one hen hup hall x _)

end Sys2Proof.Proofs
end


section

/-! Packets of a queue: launches, moves, signals, waits, timers and barriers (14_scheduling.md R316, R317,
R444, R447). -/

namespace Sys2Proof.Machine
open Sys2Proof
set_option Elab.async false

variable {s : State} {f q : Nat} {sseq : BitVec 16}

/-! ## Moves -/

section
variable {id : CoreId} {i : Nat} {b : Bulk} (hm : s.moveOf f q sseq = some (id, i, b))
include hm

theorem execLoadStoreComplete_last (hev : s.ev = .packet f q sseq) (hb : b.beats = []) {n : Nat}
    (hp : b.packet = some (f, q, sseq, n)) :
    execLoadStoreComplete s = .next (s.endMove f q sseq id i b 0 (BitVec.ofNat 64 n)) := by
  simp only [execLoadStoreComplete, hev, hm, hb, hp, List.isEmpty_nil, if_true, Option.map_some, Option.getD_some]

theorem execLoadStoreComplete_refused {st : BitVec 4} {d : BitVec 64} (hev : s.ev = .status f q sseq st d) :
    execLoadStoreComplete s = .next (s.endMove f q sseq id i b 7 1) := by
  simp only [execLoadStoreComplete, hev, hm]

theorem execLoadStoreLinkTimeout_late (hev : s.ev = .packet f q sseq) (hl : s.linkUp = true) (hh : 2 ^ 30 < b.held) :
    execLoadStoreLinkTimeout s = .next (s.endMove f q sseq id i b 7 2) := by
  simp only [execLoadStoreLinkTimeout, hev, hm, hl, decide_eq_true hh, Bool.and_self, if_true]

end

/-! ## Waits -/

theorem execWaitComplete_eq {t : Taken} {w : BitVec 8 × Bool × BitVec 64} (hev : s.ev = .packet f q sseq) (hw : t.wait = some w)
    (ht : (s.queue f q).taken.find? (fun t => t.sseq == sseq && t.wait.isSome) = some t) :
    execWaitComplete s = .next (if s.waitHolds f w then s.complete f q sseq 5 0 (s.sem f w.1) else s) := by
  simp only [execWaitComplete, hev, ht, hw]

theorem execBarrierComplete_eq {t : Taken} {l : List Taken} (hev : s.ev = .packet f q sseq) (ht : (s.queue f q).taken = t :: l) :
    execBarrierComplete s = .next (if t.type = 7 ∧ t.sseq = sseq then s.complete f q sseq 7 0 0 else s) := by
  simp only [execBarrierComplete, hev, ht]

/-! ## Launches -/

section
variable {t : Taken} {r : Region} {core : BitVec 12} {handler : BitVec 10} {dom : BitVec 2} {args : List (BitVec 64)}
  (hev : s.ev = .fq f q) (ht : (s.queue f q).taken.find? (fun t => t.launch.isSome) = some t)
  (hl : t.launch = some (core, handler, dom, args)) (hr : s.region? f (s.queue f q).circ = some r)
include hev ht hl hr

theorem execLaunchStart_waits (h : r.launch.isSome = true) : execLaunchStart s = .next s := by
  have hn : r.launch.isNone = false := by
    rw [Option.isSome_iff_exists] at h
    obtain ⟨l, h⟩ := h
    rw [h]
    rfl
  simp only [execLaunchStart, hev, ht, hl, hr, hn, Bool.and_false, Bool.false_and, Bool.false_eq_true, if_false]

/-- The launch whose region is free pushes its root task (R45). -/
theorem execLaunchStart_eq (hp : s.phase = .run) (hn : r.launch = none) (he : r.ending = none) (hk : (s.queue f q).killing = false) :
    let u := s.updRegion f (s.queue f q).circ fun r =>
      { r with launch := some ⟨q, t.sseq, core.toNat, dom, r.ocyc⟩, dom := dom, wave := none }
    let w := u.updQueue f q fun k => { k with taken := k.taken.map fun u => if u = t then ⟨1, t.sseq, none, none⟩ else u }
    execLaunchStart s = .next (w.pushRoot ⟨f, (s.queue f q).circ, core.toNat⟩ (headerEntry (handler.setWidth 64) args)) := by
  intro u w
  simp only [execLaunchStart, hev, ht, hl, hr, hp, hn, he, hk, Option.isNone_none, BEq.rfl, Bool.not_false, Bool.and_self, if_true]
  rfl

end

theorem State.waitHolds_iff {k : BitVec 8} {e : Bool} {v : BitVec 64} : s.waitHolds f (k, e, v) = true ↔
    (e = true ∧ (s.fn f).sems.getD k.toNat 0 = v) ∨ (e = false ∧ v.toNat ≤ ((s.fn f).sems.getD k.toNat 0).toNat) := by
  unfold State.waitHolds State.sem
  cases e with
  | true => simp only [if_true, beq_iff_eq, true_and, Bool.true_eq_false, false_and, or_false]
  | false => simp only [Bool.false_eq_true, if_false, BitVec.ule, decide_eq_true_eq, false_and, true_and, false_or]

end Sys2Proof.Machine

namespace Sys2Proof.Proofs
open Sys2Proof Sys2Proof.Machine

/-- Settles O47: what each packet of a queue does when it is taken, and when it completes. -/
theorem packets : Obligations.Packets := by
  intro s f q sseq onQ takes ends
  refine ⟨fun core handler dom args hev => ?_, fun host obj lm off len hev load => ?_, fun id i b hm => ?_, fun k v hev => ?_,
    fun k e v hev => ?_, fun t k e v hev hw ht => ?_, fun k sem time per v hev => ?_, fun hev => ?_,
    fun t r core handler dom args hev ht hl hr hp => ?_⟩
  · show execLaunch s = _
    simp only [execLaunch, hev]
    rfl
  · intro id cap beat b
    cases load with
    | true =>
      show execLoad s = _
      simp only [execLoad, hev]
      rfl
    | false =>
      show execStore s = _
      simp only [execStore, hev]
      rfl
  · intro type
    exact ⟨fun n hev hb hp => execLoadStoreComplete_last hm hev hb hp, fun st d hev => execLoadStoreComplete_refused hm hev,
      fun hev hl hh => execLoadStoreLinkTimeout_late hm hev hl hh⟩
  · constructor
    · show execSignalAdd s = _
      simp only [execSignalAdd, hev]
      rfl
    · show execSignalSet s = _
      simp only [execSignalSet, hev]
      rfl
  · show execWaitPacket s = _
    simp only [execWaitPacket, hev]
    rfl
  · intro now
    refine (execWaitComplete_eq hev hw ht).trans (congrArg Host.Outcome.next ?_)
    by_cases h : s.waitHolds f (k, e, v) = true
    · rw [if_pos h, if_pos (State.waitHolds_iff.1 h)]
      rfl
    · rw [if_neg h, if_neg fun h' => h (State.waitHolds_iff.2 h')]
  · intro sets
    refine ⟨?_, ?_, ?_⟩
    · show execArmOnce s = _
      simp only [execArmOnce, hev]
      rfl
    · show execArmPeriodic s = _
      simp only [execArmPeriodic, hev]
      rfl
    · show execArmCancel s = _
      simp only [execArmCancel, hev]
      rfl
  · refine ⟨?_, fun t l ht => execBarrierComplete_eq hev ht⟩
    show execBarrier s = _
    simp only [execBarrier, hev]
    rfl
  · exact ⟨fun hn he hk => execLaunchStart_eq hev ht hl hr hp hn he hk, fun h => execLaunchStart_waits hev ht hl hr h⟩

end Sys2Proof.Proofs
end


section

/-! Queues: notifies, the mapper, packets that are taken, completions, kills, timers and the register
window (14_scheduling.md R313 to R324, 15_host_fabric_firmware.md R329, R439, R441). -/

namespace Sys2Proof.Machine
open Sys2Proof
set_option Elab.async false

section
variable {s : State} {f q : Nat}

/-! ## Notifies, and the choice of a queue -/

theorem execNotify_live {v : BitVec 64} (hev : s.ev = .notify f q v) (hen : (s.queue f q).dw0.getLsbD 0 = true)
    (hv : v.extractLsb' 16 48 = 0) : execNotify s = .next (s.updQueue f q fun k => { k with
      prod := v.setWidth 16, announced := k.announced || (!k.bound && k.head != v.setWidth 16) }) := by
  have he : (s.queue f q).en = true := hen
  simp only [execNotify, hev, he, hv, BEq.rfl, Bool.and_self, if_true]

theorem execNotify_ignored {v : BitVec 64} (hev : s.ev = .notify f q v)
    (h : (s.queue f q).dw0.getLsbD 0 = false ∨ v.extractLsb' 16 48 ≠ 0) : execNotify s = .next s := by
  have hn : ((s.queue f q).en && v.extractLsb' 16 48 == 0) = false := by
    obtain h | h := h
    · rw [Queue.en, h, Bool.false_and]
    · rw [beq_eq_false_iff_ne.2 h, Bool.and_false]
  simp only [execNotify, hev, hn, Bool.false_eq_true, if_false]

theorem execMapperBind_eq {ctr : List (Nat × Int)} (hs : s.slots.length < 64)
    (hw : weighted (fun f => (s.fn f).share.toNat) s.bindCtr
      ((s.highest (s.queuesWith fun k => k.announced && k.en && !k.killing)).map (·.1)).eraseDups = some (f, ctr))
    (hr : roundRobin (s.highest (s.queuesWith fun k => k.announced && k.en && !k.killing)) f (s.fn f).lastQueue = some q) :
    execMapperBind s = .next
      { (s.updFn f fun fn => { fn with lastQueue := q }).updQueue f q fun k =>
          { k with announced := false, bound := true, idle := 0 } with
        slots := s.slots ++ [(f, q)], bindCtr := ctr } := by
  simp only [execMapperBind, if_neg (Nat.not_le.2 hs), hw, hr]
  rfl

theorem execPacketTake_eq {ctr : List (Nat × Int)} (h0 : s.takeWait = 0) (hl : s.linkUp = true)
    (hw : weighted (fun f => (s.fn f).share.toNat) s.takeCtr ((s.highest (s.queuesWith Queue.takeable)).map (·.1)).eraseDups =
      some (f, ctr))
    (hr : roundRobin (s.highest (s.queuesWith Queue.takeable)) f (s.fn f).lastTake = some q) :
    let t := { s.updFn f fun fn => { fn with lastTake := q } with takeCtr := ctr, takeWait := 4 }
    execPacketTake s = .next (if s.arrived (s.queue f q) then t.accept f q
      else t.updQueue f q fun k => { k with rereads := 1, rereadAt := s.devtime.toNat + 64 }) := by
  intro t
  have hn : ¬(s.takeWait ≠ 0 ∨ s.linkUp = false) := by
    rintro (h | h)
    · exact h h0
    · exact Bool.false_ne_true (h.symm.trans hl)
  simp only [execPacketTake, if_neg hn, hw, hr]
  split <;> rfl

/-! ## Events of one queue -/

section
variable (hev : s.ev = .fq f q)
include hev

theorem execMapperEvict_eq (hb : (s.queue f q).bound = true) (hr : s.resting f (s.queue f q) = true) (hi : 4096 ≤ (s.queue f q).idle) :
    execMapperEvict s = .next ((s.release f q).updQueue f q fun k => { k with announced := k.head != k.prod || k.blocked }) := by
  simp only [execMapperEvict, hev, hb, hr, decide_eq_true hi, Bool.and_self, if_true]

theorem execHeaderReread_eq (h0 : (s.queue f q).rereads ≠ 0) (h64 : (s.queue f q).rereads < 64) (hk : (s.queue f q).killing = false)
    (hl : s.linkUp = true) (ht : (s.queue f q).rereadAt ≤ s.devtime.toNat) :
    execHeaderReread s = .next (if s.arrived (s.queue f q) then s.updQueue f q fun q => { q with rereads := 0 }
      else s.updQueue f q fun k =>
        { k with
          rereads := (s.queue f q).rereads + 1
          rereadAt := s.devtime.toNat + min 65536 (64 * 2 ^ (s.queue f q).rereads) }) := by
  have hn : ¬((s.queue f q).rereads = 0 ∨ 64 < (s.queue f q).rereads ∨ (s.queue f q).killing ∨ s.linkUp = false ∨
      s.devtime.toNat < (s.queue f q).rereadAt) := by
    rw [hk, hl]
    simp only [Bool.false_eq_true, Bool.true_eq_false, false_or]
    omega
  have hle : ¬64 < (s.queue f q).rereads + 1 := by omega
  simp only [execHeaderReread, hev, if_neg hn, if_neg hle, backOff, Nat.add_sub_cancel]
  split <;> rfl

theorem execSubmitTimeout_eq (h : (s.queue f q).rereads = 65) : execSubmitTimeout s = .next
    ((s.release f q).updQueue f q fun k => { k with
      dw0 := k.dw0 &&& 0xFFFFFFFFFFFFFFFE, rereads := 0, announced := false
      comps := k.comps ++ [⟨5, 0, 0, k.sseq.setWidth 64⟩] }) := by
  have h65 : 64 < (s.queue f q).rereads := by omega
  simp only [execSubmitTimeout, hev, if_pos h65]

theorem execQueueKill_live (hen : (s.queue f q).dw0.getLsbD 0 = true) : execQueueKill s = .next
    (if s.phase = .run ∧ (s.fn f).rollback = false then s.killQueue f q
      else s.updQueue f q fun k => { k with killAsked := true }) := by
  have he : (s.queue f q).en = true := hen
  simp only [execQueueKill, hev, he, if_true, State.askKill]
  by_cases h : s.phase = .run ∧ (s.fn f).rollback = false
  · obtain ⟨hp, hr⟩ := h
    have hn : (s.paused || (s.fn f).rollback) = false := by
      rw [State.paused, hp, hr]
      rfl
    rw [hn, if_pos (⟨hp, hr⟩ : s.phase = .run ∧ (s.fn f).rollback = false)]
    rfl
  · have hp : (s.paused || (s.fn f).rollback) = true := by
      rw [State.paused, Bool.or_eq_true, bne_iff_ne]
      by_cases hp : s.phase = .run
      · exact Or.inr (Bool.eq_true_of_not_eq_false fun hr => h ⟨hp, hr⟩)
      · exact Or.inl hp
    rw [if_neg h, if_pos hp]

theorem execQueueKill_dead (hen : (s.queue f q).dw0.getLsbD 0 = false) : execQueueKill s = .next s := by
  have he : (s.queue f q).en = false := hen
  simp only [execQueueKill, hev, he, Bool.false_eq_true, if_false]

variable {c : Completion} {cs : List Completion} (hc : (s.queue f q).comps = c :: cs)
include hc

theorem execCompletionWrite_full (h : (s.queue f q).ctail - (s.queue f q).cons = BitVec.ofNat 16 (s.queue f q).csize) :
    execCompletionWrite s = .next s := by
  have hf : (s.queue f q).full = true := beq_iff_eq.2 h
  simp only [execCompletionWrite, hev, hc, hf, Bool.not_true, Bool.and_false, Bool.false_eq_true, if_false]

theorem execCompletionWrite_room (hl : s.linkUp = true)
    (h : (s.queue f q).ctail - (s.queue f q).cons ≠ BitVec.ofNat 16 (s.queue f q).csize) :
    let k := s.queue f q
    execCompletionWrite s = .next
      { s.updQueue f q fun k => { k with comps := cs, ctail := k.ctail + 1, csq := k.csq + 1 } with
        host := s.host.putBytes ((k.dw1 &&& 0xFFFFFFFFFFFFF000).toNat + 16 * (k.ctail.toNat % k.csize))
          (natBytes 8 ((0 : BitVec 24) ++ c.status ++ c.type ++ c.sseq ++ k.csq : BitVec 64).toNat ++ natBytes 8 c.detail.toNat) } := by
  have hf : (s.queue f q).full = false := beq_eq_false_iff_ne.2 h
  simp only [execCompletionWrite, hev, hc, hl, hf, Bool.not_false, Bool.and_self, if_true]
  rfl

end

end

/-! ## Timers -/

/-- What a tick makes of one function (R322). -/
def Fn.ticked (fn : Fn) (now : Nat) : Fn :=
  { fn with
    sems := (fn.timers.filter fun t => t.armed && decide (t.time.toNat ≤ now)).foldl (fun l t => modAt l t.sem.toNat (· + t.v)) fn.sems
    timers := fn.timers.map fun t => if t.armed && decide (t.time.toNat ≤ now) then t.fire now else t }

theorem execTimerTick_eq (s : State) : execTimerTick s =
    .next { s with fns := s.fns.map fun fn => fn.ticked s.devtime.toNat, wheelTick := s.devtime.toNat / 250 } := rfl

theorem Fn.ticked_early {fn : Fn} {now : Nat} (h : ∀ x ∈ fn.timers, x.armed = true → now < x.time.toNat) : fn.ticked now = fn := by
  have hdue : ∀ x ∈ fn.timers, (x.armed && decide (x.time.toNat ≤ now)) = false := by
    intro x hx
    cases ha : x.armed with
    | false => rfl
    | true => rw [decide_eq_false (Nat.not_le.2 (h x hx ha))]; rfl
  have hmap : (fn.timers.map fun t => if t.armed && decide (t.time.toNat ≤ now) then t.fire now else t) = fn.timers := by
    refine (List.map_congr_left fun x hx => ?_).trans (List.map_id _)
    rw [hdue x hx]
    rfl
  rw [Fn.ticked, hmap, List.filter_eq_nil_iff.2 fun x hx => by rw [hdue x hx]; exact Bool.false_ne_true]
  rfl

theorem Fn.ticked_one {fn : Fn} {now : Nat} {x : Timer}
    (h : (fn.timers.filter fun y => y.armed && decide (y.time.toNat ≤ now)) = [x]) : fn.ticked now = { fn with
      sems := modAt fn.sems x.sem.toNat (· + x.v)
      timers := fn.timers.map fun y => if y = x then x.fire now else y } := by
  have hmap : (fn.timers.map fun t => if t.armed && decide (t.time.toNat ≤ now) then t.fire now else t) =
      fn.timers.map fun y => if y = x then x.fire now else y := by
    refine List.map_congr_left fun y hy => ?_
    have hiff : (y.armed && decide (y.time.toNat ≤ now)) = true ↔ y = x := by
      have hm : y ∈ [x] ↔ y ∈ fn.timers ∧ (y.armed && decide (y.time.toNat ≤ now)) = true := by rw [← h, List.mem_filter]
      rw [List.mem_singleton] at hm
      exact ⟨fun hd => hm.2 ⟨hy, hd⟩, fun hd => (hm.1 hd).2⟩
    by_cases hd : y = x
    · rw [if_pos (hiff.2 hd), if_pos hd, hd]
    · rw [if_neg fun e => hd (hiff.1 e), if_neg hd]
  rw [Fn.ticked, hmap, h]
  rfl

/-! ## The register window -/

section
variable {s : State} {f : Nat} (hen : (s.fn f).enabled = true) (hrec : s.recovery = false) (hf : f < 64)
include hen hrec hf

theorem State.registerDword_descriptor {q : Nat} (hq : q < 32) :
    s.registerDword f (32 * q) = (s.queue f q).dw0 &&& 0xFFFFFFFFFFFFF0FF := by
  have h0 : 32 * q % 32 / 8 = 0 := by omega
  have h1 : 32 * q / 32 = q := by omega
  have h2 : 32 * q < 0x400 := by omega
  simp only [State.registerDword, if_neg (Nat.not_lt.2 (Nat.le_of_lt hf)), if_neg (Nat.ne_of_lt hf), hen, hrec, Bool.not_true, Bool.or_self,
    Bool.false_eq_true, if_false, if_pos h2, h0, h1]

theorem State.registerDword_gap {off : Nat} (hlo : 0x400 ≤ off) (hhi : off < 0x500) : s.registerDword f off = 0 := by
  have h1 : ¬off < 0x400 := by omega
  have h2 : ¬(0x500 ≤ off ∧ off < 0x600) := by omega
  have h3 : ¬(0x600 ≤ off ∧ off < 0xE00) := by omega
  have h4 : ¬(0x1000 ≤ off ∧ off < 0x1040) := by omega
  have h5 : ∀ n, 0x500 ≤ n → off ≠ n := fun n hn => by omega
  simp only [State.registerDword, if_neg (Nat.not_lt.2 (Nat.le_of_lt hf)), if_neg (Nat.ne_of_lt hf), hen, hrec, Bool.not_true, Bool.or_self,
    Bool.false_eq_true, if_false, if_neg h1, if_neg h2, if_neg h3, if_neg h4]
  rw [if_neg (h5 _ (by decide)), if_neg (h5 _ (by decide)), if_neg (h5 _ (by decide)), if_neg (h5 _ (by decide)),
    if_neg (h5 _ (by decide))]

theorem State.registerDword_timers {i : Nat} (hi : i < 63) : s.registerDword f (0x500 + 4 * i) =
    (((s.fn f).timers.getD i Timer.reset).miss).setWidth 64 ||| (((s.fn f).timers.getD (i + 1) Timer.reset).miss).setWidth 64 <<< 32 := by
  have h1 : ¬0x500 + 4 * i < 0x400 := by omega
  have h2 : 0x500 ≤ 0x500 + 4 * i ∧ 0x500 + 4 * i < 0x600 := by omega
  have h3 : (0x500 + 4 * i - 0x500) / 4 = i := by omega
  simp only [State.registerDword, if_neg (Nat.not_lt.2 (Nat.le_of_lt hf)), if_neg (Nat.ne_of_lt hf), hen, hrec, Bool.not_true, Bool.or_self,
    Bool.false_eq_true, if_false, if_neg h1, if_pos h2, h3]

theorem State.registerDword_semaphore {i : Nat} (hi : i < 256) : s.registerDword f (0x600 + 8 * i) = (s.fn f).sems.getD i 0 := by
  have h1 : ¬0x600 + 8 * i < 0x400 := by omega
  have h2 : ¬(0x500 ≤ 0x600 + 8 * i ∧ 0x600 + 8 * i < 0x600) := by omega
  have h3 : 0x600 ≤ 0x600 + 8 * i ∧ 0x600 + 8 * i < 0xE00 := by omega
  have h4 : (0x600 + 8 * i - 0x600) / 8 = i := by omega
  simp only [State.registerDword, if_neg (Nat.not_lt.2 (Nat.le_of_lt hf)), if_neg (Nat.ne_of_lt hf), hen, hrec, Bool.not_true, Bool.or_self,
    Bool.false_eq_true, if_false, if_neg h1, if_neg h2, if_pos h3, h4]

end

section
variable (s : State) (f : Nat) {off : Nat}

theorem State.registerRead_dword (h : off % 8 = 0) : s.registerRead f off = s.registerDword f off := by
  rw [State.registerRead, if_pos h]

/-- A read in the middle of a dword gives its high half. -/
theorem State.registerRead_middle (h : off % 8 = 4) : s.registerRead f off = s.registerDword f (off - 4) >>> 32 := by
  rw [State.registerRead, if_neg (by omega), if_pos h]

end

theorem or_shift_low (a b : BitVec 32) : (a.setWidth 64 ||| b.setWidth 64 <<< 32).setWidth 32 = a := by
  apply BitVec.eq_of_getLsbD_eq
  intro i hi
  simp [BitVec.getLsbD_setWidth, hi]

theorem or_shift_high (a b : BitVec 32) : ((a.setWidth 64 ||| b.setWidth 64 <<< 32) >>> 32).setWidth 32 = b := by
  apply BitVec.eq_of_getLsbD_eq
  intro i hi
  have h32 : 32 + i < 64 := by omega
  have h64 : i < 64 := by omega
  simp [BitVec.getLsbD_setWidth, hi, h32, h64]

section
variable {s : State} {f : Nat} (hen : (s.fn f).enabled = true) (hrec : s.recovery = false) (hf : f < 64)
include hen hrec hf

/-- The misses of a timer are a half of a dword (R441). -/
theorem State.registerRead_timer {i : Nat} (hi : i < 64) :
    (s.registerRead f (0x500 + 4 * i)).setWidth 32 = ((s.fn f).timers.getD i Timer.reset).miss := by
  obtain h | h : i % 2 = 0 ∨ i % 2 = 1 := by omega
  · rw [State.registerRead_dword s f (by omega), State.registerDword_timers hen hrec hf (by omega), or_shift_low]
  · obtain ⟨j, rfl⟩ : ∃ j, i = j + 1 := ⟨i - 1, by omega⟩
    rw [State.registerRead_middle s f (by omega), show 0x500 + 4 * (j + 1) - 4 = 0x500 + 4 * j by omega,
      State.registerDword_timers hen hrec hf (by omega), or_shift_high]

theorem State.registerRead_gap {off : Nat} (hlo : 0x400 ≤ off) (hhi : off < 0x500) : s.registerRead f off = 0 := by
  unfold State.registerRead
  rw [State.registerDword_gap hen hrec hf hlo hhi]
  split
  · rfl
  · split
    next h => rw [State.registerDword_gap hen hrec hf (by omega) (by omega)]; rfl
    next => rfl

variable {off : Nat} {v : BitVec 64} (hev : s.ev = .reg f off v) (h8 : off % 8 = 0)
include hev h8

theorem execRegisterWrite_open : (!(s.fn f).enabled || s.recovery || off % 8 != 0 || decide (64 < f)) = false := by
  rw [hen, hrec, h8, decide_eq_false (by omega)]
  rfl

theorem execRegisterWrite_descriptor (h : off < 0x400) :
    execRegisterWrite s = .next (s.writeDescriptor f (off / 32) (off % 32 / 8) v) := by
  unfold execRegisterWrite
  rw [hev]
  dsimp only
  rw [if_neg (by omega), execRegisterWrite_open hen hrec hf hev h8, if_neg Bool.false_ne_true, if_pos h]

theorem execRegisterWrite_notify (hlo : 0x400 ≤ off) (hhi : off < 0x500) :
    execRegisterWrite s = .next (s.due .notify (.notify f ((off - 0x400) / 8) v)) := by
  unfold execRegisterWrite
  rw [hev]
  dsimp only
  rw [if_neg (by omega), execRegisterWrite_open hen hrec hf hev h8, if_neg Bool.false_ne_true, if_neg (by omega), if_pos hhi]

theorem execRegisterWrite_inval (h : off = 0xE00) : execRegisterWrite s = .next (s.writeInval f v) := by
  unfold execRegisterWrite
  rw [hev]
  dsimp only
  rw [if_neg (by omega), execRegisterWrite_open hen hrec hf hev h8, if_neg Bool.false_ne_true, if_neg (by omega), if_neg (by omega), if_pos h]

/-- A mapped reply that firmware writes (R331). -/
theorem execRegisterWrite_mapped (h : off = 0xE50) (h0 : v.extractLsb' 1 31 = 0) (hm : v.getLsbD 0 = false) :
    execRegisterWrite s = .next (s.due .pageReplyMapped (.tag f (v.extractLsb' 32 32))) := by
  unfold execRegisterWrite
  rw [hev]
  dsimp only
  rw [if_neg (by omega), execRegisterWrite_open hen hrec hf hev h8, if_neg Bool.false_ne_true, if_neg (by omega), if_neg (by omega),
    if_neg (by omega), if_neg (by omega), if_pos h, if_neg (not_not.2 h0), hm]
  rfl

omit hen hrec hf hev h8

theorem State.writeInval_object (hv : v.extractLsb' 52 12 = 0) (hr : v.extractLsb' 2 11 = 0) (hk : v.setWidth 2 = (0 : BitVec 2)) :
    s.writeInval f v = s.due .invalidateObject (.granule f (v.extractLsb' 13 39)) := by
  have hn : ¬(v.extractLsb' 52 12 ≠ 0 ∨ v.extractLsb' 2 11 ≠ 0 ∨ (v.setWidth 2 = (2 : BitVec 2) ∧ f ≠ 64)) := by
    rw [hv, hr, hk]
    simp only [ne_eq, not_true_eq_false, false_or]
    exact fun e => absurd e.1 (by decide)
  rw [State.writeInval, if_neg hn, hk]
  rfl

theorem State.writeDescriptor_free {q : Nat} (hk : (s.queue f q).dw0.getLsbD 0 = false) (hkill : (s.queue f q).killing = false) :
    s.writeDescriptor f q 0 v = s.updQueue f q fun k => { k with dw0 := v } := by
  have hn : ¬((s.queue f q).en = true ∨ (s.queue f q).killing = true) := by
    rw [Queue.en, hk, hkill]
    exact not_or.2 ⟨Bool.false_ne_true, Bool.false_ne_true⟩
  rw [State.writeDescriptor, if_neg hn]

/-- Clearing the enable bit of a live queue kills it (R318). -/
theorem State.writeDescriptor_off {q : Nat} (hk : (s.queue f q).dw0.getLsbD 0 = true) (hv : v.getLsbD 0 = false) :
    s.writeDescriptor f q 0 v = s.due .queueKill (.fq f q) := by
  have hen : (s.queue f q).en = true := hk
  rw [State.writeDescriptor, if_pos (Or.inl hen), if_pos (⟨rfl, hv⟩ : 0 = 0 ∧ v.getLsbD 0 = false)]

end

end Sys2Proof.Machine

namespace Sys2Proof.Proofs
open Sys2Proof Sys2Proof.Machine

/-- Settles O48: what each event of a queue does, and the registers of a window. -/
theorem queues : Obligations.Queues := by
  intro s f q k onQ
  refine ⟨fun v hev => ⟨fun hen hv => execNotify_live hev hen hv, fun h => execNotify_ignored hev h⟩,
    fun ctr hs => ?_, fun ctr h0 hl => ?_, fun hev => ?_, ?_, fun x now hx => Timer.fire_spec x now hx, fun off hev => ?_,
    fun hen hrec hf => ?_, fun off v hev hen hrec h8 hf => ?_⟩
  · intro l hw hr
    exact execMapperBind_eq hs hw hr
  · intro l hw hr
    exact execPacketTake_eq h0 hl hw hr
  · intro off gone
    refine ⟨fun hb hr hi => execMapperEvict_eq hev hb hr hi, fun h0 h64 hk hl ht => execHeaderReread_eq hev h0 h64 hk hl ht,
      fun h => execSubmitTimeout_eq hev h, fun hen => execQueueKill_live hev hen, fun hen => execQueueKill_dead hev hen,
      fun c cs hc hl => ⟨fun h => execCompletionWrite_room hev hc hl h, fun h => execCompletionWrite_full hev hc h⟩⟩
  · refine ⟨_, execTimerTick_eq s, rfl, rfl, rfl, fun fn hfn h => ?_, fun fn hfn x h => ?_⟩
    · exact List.mem_map.2 ⟨fn, hfn, Fn.ticked_early h⟩
    · exact List.mem_map.2 ⟨fn, hfn, Fn.ticked_one h⟩
  · show execRegisterWrite s = _
    simp only [execRegisterWrite, hev]
  · refine ⟨fun hq => ?_, fun i hi => ?_, fun i hi => State.registerRead_timer hen hrec hf hi,
      fun off hlo hhi => State.registerRead_gap hen hrec hf hlo hhi⟩
    · exact (State.registerRead_dword s f (by omega)).trans (State.registerDword_descriptor hen hrec hf hq)
    · exact (State.registerRead_dword s f (by omega)).trans (State.registerDword_semaphore hen hrec hf hi)
  · intro dues
    refine ⟨fun hlo hhi => execRegisterWrite_notify hen hrec hf hev h8 hlo hhi, fun h hv hr hk => ?_,
      fun h h0 hm => execRegisterWrite_mapped hen hrec hf hev h8 h h0 hm, fun h hq hk hkill => ?_, fun h hq hk hv => ?_⟩
    · refine (execRegisterWrite_inval hen hrec hf hev h8 h).trans ?_
      rw [State.writeInval_object hv hr hk]
      rfl
    · refine (execRegisterWrite_descriptor hen hrec hf hev h8 (by omega)).trans ?_
      rw [show off / 32 = q by omega, show off % 32 / 8 = 0 by omega, State.writeDescriptor_free hk hkill]
      rfl
    · refine (execRegisterWrite_descriptor hen hrec hf hev h8 (by omega)).trans ?_
      rw [show off / 32 = q by omega, show off % 32 / 8 = 0 by omega, State.writeDescriptor_off hk hv]
      rfl

end Sys2Proof.Proofs
end


section

/-! Collective commands of the copy harts (15_host_fabric_firmware.md R336, R337, R450). -/

namespace Sys2Proof.Machine
open Sys2Proof
set_option Elab.async false

section
variable {s : State} {h f : Nat} {obj : BitVec 15} {peers : List (List Byte)} {result : BitVec 8} {k : Hart}
  (hev : s.ev = .hart h f obj peers result) (hk : s.harts[h]? = some k)
include hev hk

/-! ## Starts -/

section
variable (hb : k.busy = false) (hw : k.waits = false)
include hb hw

omit hev hk in
theorem Hart.serves_idle : k.serves f obj = false := by
  rw [Hart.serves, hw, hb]
  rfl

theorem execCollectiveStart_taken {j : Hart} (hj : j ∈ s.harts) (hs : j.serves f obj = true) : execCollectiveStart s = .next s := by
  have hany : (s.harts.any (·.serves f obj)) = true := List.any_eq_true.2 ⟨j, hj, hs⟩
  simp only [execCollectiveStart, hev, hk, Hart.serves_idle hb hw, hany, Bool.or_true, if_true, Bool.false_eq_true, if_false]

theorem execCollectiveStart_idle (hn : ∀ j ∈ s.harts, j.serves f obj = false) {c : Collective}
    (hc : s.collective f obj.toNat = some c) : let met := result == 0 && s.ownerRuns f
    execCollectiveStart s =
      .next (if c.kick = c.seq ∧ c.done ≠ c.seq then s.updHart h ⟨f, obj, c.seq, !met, met, 0, 0, false⟩ else s) := by
  have hany : (s.harts.any (·.serves f obj)) = false := by
    rw [List.any_eq_false]
    intro j hj e
    exact Bool.false_ne_true ((hn j hj).symm.trans e)
  simp only [execCollectiveStart, hev, hk, Hart.serves_idle hb hw, hany, hb, hw, Bool.or_self, Bool.false_eq_true, if_false, hc]

end

theorem execCollectiveStart_again (hs : k.waits = true ∨ k.busy = true) (hf : k.fn = f) (ho : k.obj = obj) (hr : result = 0)
    (hrun : s.ownerRuns f = true) :
    execCollectiveStart s = .next (s.updHart h { k with waits := false, busy := true, halted := false }) := by
  have hserves : k.serves f obj = true := by
    rw [Hart.serves, hf, ho, BEq.rfl, BEq.rfl, Bool.and_true, Bool.and_true, Bool.or_eq_true]
    exact hs
  subst hr
  simp only [execCollectiveStart, hev, hk, hserves, hrun, BEq.rfl, Bool.and_self, if_true]

/-! ## Pieces, halts and ends -/

theorem execCollectiveDone_abandons (hs : k.busy = true ∨ k.waits = true) (hr : result = 2 ∨ result = 3) :
    execCollectiveDone s = .next (s.abandon h k result) := by
  have hc : ((k.waits || k.busy) && (result == 2 || result == 3)) = true := by
    rw [Bool.and_eq_true, Bool.or_eq_true, Bool.or_eq_true, beq_iff_eq, beq_iff_eq]
    exact ⟨hs.symm, hr⟩
  simp only [execCollectiveDone, hev, hk, hc, if_true]

theorem execCollectiveDone_halts (hb : k.busy = true) (hr : result = 4) :
    execCollectiveDone s = .next (s.updHart h { k with halted := true }) := by
  have h2 : ((4 : BitVec 8) == 2 || (4 : BitVec 8) == 3) = false := rfl
  subst hr
  simp only [execCollectiveDone, hev, hk, hb, h2, Bool.and_false, Bool.false_eq_true, if_false, Bool.not_true, if_true]

section
variable (hb : k.busy = true) (hr : result = 0)
include hb hr

theorem execCollectiveDone_stands (hs : k.halted = true ∨ s.ownerRuns k.fn = false) : execCollectiveDone s = .next s := by
  have h2 : ((0 : BitVec 8) == 2 || (0 : BitVec 8) == 3) = false := rfl
  have h4 : ¬(0 : BitVec 8) = 4 := by decide
  have hc : (k.halted || !s.ownerRuns k.fn) = true := by
    rw [Bool.or_eq_true, Bool.not_eq_true']
    exact hs
  subst hr
  simp only [execCollectiveDone, hev, hk, hb, h2, h4, hc, Bool.and_false, Bool.false_eq_true, if_false, Bool.not_true, if_true]

/-- The parts of its own contribution that the next piece reads. -/
def State.ownParts (s : State) (k : Hart) (c : Collective) (i : Nat) : List (Nat × Nat) :=
  match c.ownAt i k.pos with
  | some o => s.hartParts k o true false
  | none => []

/-- A piece of a result, written (R336). -/
def State.writePiece (t : State) (k : Hart) (c : Collective) (i : Nat) (all : List (List Byte)) : State :=
  (t.writeObj k.fn k.obj.toNat (c.dst + k.pos) (((c.result i all).drop k.pos).take 256)).getD t

/-- The contributions in the order of the group. -/
def Collective.ordered (c : Collective) (peers : List (List Byte)) (i : Nat) (own : List Byte) : List (List Byte) :=
  peers.take i ++ [own] ++ (peers.drop i).take (c.p - 1 - i)

variable (hh : k.halted = false) (hrun : s.ownerRuns k.fn = true) {c : Collective} {own : List Byte}
  (hc : s.collective k.fn k.obj.toNat = some c) (ho : s.readObj k.fn k.obj.toNat c.src c.given = some own)
include hh hrun hc ho

/-- A piece of a result goes when the channels of its accesses serve it. -/
theorem execCollectiveDone_runs : let i := c.group.idxOf s.fabricId
    execCollectiveDone s = (s.serve k.fn (s.hartParts k (c.dst + k.pos) false true ++ s.ownParts k c i) false).elim (.next s)
      fun u => .next (u.arrayRead (s.ownParts k c i) fun u =>
        let t := u.writePiece k c i (c.ordered peers i own)
        if c.taken ≤ k.pos + 256 then t.endCollective h { k with pos := k.pos + 256 } 0
        else t.updHart h { k with pos := k.pos + 256 }) := by
  intro i
  have h2 : ((k.waits || k.busy) && ((0 : BitVec 8) == 2 || (0 : BitVec 8) == 3)) = false := Bool.and_false _
  have hgo : (k.halted || !s.ownerRuns k.fn) = false := by
    rw [hh, hrun]
    rfl
  subst hr
  unfold execCollectiveDone
  rw [hev]
  dsimp only
  rw [hk]
  dsimp only
  rw [h2, if_neg Bool.false_ne_true, if_neg (by rw [hb]; exact Bool.false_ne_true), if_neg (by decide), hgo, if_neg Bool.false_ne_true, hc]
  dsimp only
  rw [ho]
  show (match s.serve k.fn (s.hartParts k (c.dst + k.pos) false true ++ s.ownParts k c i) false with
    | none => Host.Outcome.next s
    | some u => .next (u.arrayRead (s.ownParts k c i) fun u =>
        if c.taken ≤ k.pos + 256 then
          (u.writePiece k c i (c.ordered peers i own)).endCollective h { k with pos := k.pos + 256 } 0
        else (u.writePiece k c i (c.ordered peers i own)).updHart h { k with pos := k.pos + 256 })) = _
  cases s.serve k.fn (s.hartParts k (c.dst + k.pos) false true ++ s.ownParts k c i) false <;> rfl

theorem execCollectiveDone_waits (hs : s.serve k.fn (s.hartParts k (c.dst + k.pos) false true ++
    s.ownParts k c (c.group.idxOf s.fabricId)) false = none) : execCollectiveDone s = .next s := by
  rw [execCollectiveDone_runs hev hk hb hr hh hrun hc ho, hs]
  rfl

theorem execCollectiveDone_piece {u : State} (hs : s.serve k.fn (s.hartParts k (c.dst + k.pos) false true ++
      s.ownParts k c (c.group.idxOf s.fabricId)) false = some u)
    (hf : ∀ x ∈ s.flaws, ∀ p ∈ s.ownParts k c (c.group.idxOf s.fabricId), p.1 / 32 ≤ x.1 → p.1 + p.2 ≤ 32 * x.1) :
    let t := u.writePiece k c (c.group.idxOf s.fabricId) (c.ordered peers (c.group.idxOf s.fabricId) own)
    execCollectiveDone s = .next (if c.taken ≤ k.pos + 256 then t.endCollective h { k with pos := k.pos + 256 } 0
      else t.updHart h { k with pos := k.pos + 256 }) := by
  intro t
  rw [← State.serve_flaws hs] at hf
  rw [execCollectiveDone_runs hev hk hb hr hh hrun hc ho, hs, Option.elim_some, Sys2Proof.Laws.arrayRead_clean _ hf]

end

theorem execCollectiveTimeout_eq : execCollectiveTimeout s =
    .next (if k.waits = true ∧ (s.fn k.fn).rdvLimit < k.waited then s.abandon h k 1 else s) := by
  simp only [execCollectiveTimeout, hev, hk, Bool.and_eq_true, decide_eq_true_eq]

end

theorem State.endCollective_written {t u w : State} {h : Nat} {k : Hart} {r : BitVec 8}
    (hu : t.writeObj k.fn k.obj.toNat 0x50 (natBytes 8 r.toNat) = some u)
    (hw : u.writeObj k.fn k.obj.toNat 0x48 (natBytes 4 k.seq.toNat) = some w) : t.endCollective h k r = w.updHart h Hart.idle := by
  simp only [State.endCollective, hu, Option.getD_some, hw]

section
variable {c : Collective} (i : Nat) (l : List (List Byte))

theorem Collective.result_gather (h : c.op = 1) : c.result i l = l.flatten := by
  simp only [Collective.result, h]

theorem Collective.result_reduce (h : c.op = 0) : c.result i l = reduceBytes c.type c.len l := by
  simp only [Collective.result, h]

theorem Collective.result_scatter (h : c.op = 2) :
    c.result i l = reduceBytes c.type c.len (l.map fun b => (b.drop (i * c.len)).take c.len) := by
  simp only [Collective.result, h]

theorem Collective.result_broadcast (h : 3 ≤ c.op) : c.result i l = l.headD [] := by
  obtain ⟨n, hn⟩ : ∃ n, c.op = n + 3 := ⟨c.op - 3, by omega⟩
  simp only [Collective.result, hn]

end

end Sys2Proof.Machine

namespace Sys2Proof.Proofs
open Sys2Proof Sys2Proof.Machine

/-- Settles O51: what starts, halts, abandons and ends a collective command, and each of its pieces. -/
theorem collectives : Obligations.Collectives := by
  intro s h f obj peers result k hev hk sets ends
  refine ⟨fun c hb hw hn hc => ?_, fun j hj hs hb hw => execCollectiveStart_taken hev hk hb hw hj hs,
    fun hs hf ho hr hrun => execCollectiveStart_again hev hk hs hf ho hr hrun, fun hb hr => execCollectiveDone_halts hev hk hb hr,
    fun hb hr hs => execCollectiveDone_stands hev hk hb hr hs, fun c own hb hh hr hrun hc ho => ?_,
    fun hs hr => execCollectiveDone_abandons hev hk hs hr, execCollectiveTimeout_eq hev hk,
    fun t r u w hu hw => State.endCollective_written hu hw, fun c i l => ⟨Collective.result_gather i l, Collective.result_broadcast i l,
      Collective.result_reduce i l, Collective.result_scatter i l⟩⟩
  · intro met
    have hi := execCollectiveStart_idle hev hk hb hw hn hc
    refine ⟨fun hkick hdone => hi.trans ?_, fun hno => hi.trans ?_⟩
    · exact congrArg Host.Outcome.next (if_pos ⟨hkick, hdone⟩)
    · exact congrArg Host.Outcome.next (if_neg fun e => hno.elim (fun h => h e.1) fun h => e.2 h)
  · intro i all rd asks
    refine ⟨fun hs => execCollectiveDone_waits hev hk hb hr hh hrun hc ho hs, fun u hs hf => ?_⟩
    have hp := execCollectiveDone_piece hev hk hb hr hh hrun hc ho hs hf
    intro t
    refine ⟨fun hlt => hp.trans ?_, fun hle => hp.trans ?_⟩
    · exact congrArg Host.Outcome.next (if_neg (Nat.not_le.2 hlt))
    · exact congrArg Host.Outcome.next (if_pos hle)

end Sys2Proof.Proofs
end


section

/-! Errors of the stacks and their lanes, and the scrub of the stores (22_faults_machinery.md R397, R399,
R419 to R424). -/

namespace Sys2Proof.Machine
open Sys2Proof
set_option Elab.async false

/-! ## Records -/

theorem State.arrayRecord_logs (s : State) (kind bit a : Nat) : (s.arrayRecord kind bit a).pfLog.length = s.pfLog.length + 1 ∧
    (s.arrayRecord kind bit a).arrayLog.length = s.arrayLog.length := by
  unfold State.arrayRecord
  exact ⟨List.length_append, modAt_length _ _ _⟩

theorem State.transferRecord_logs (s : State) (kind tries lane ago : Nat) (x : Burst) :
    (s.transferRecord kind tries lane ago x).pfLog.length = s.pfLog.length + 1 ∧
      (s.transferRecord kind tries lane ago x).pfLog.getLast?.map (·.2) = some (s.cyc - BitVec.ofNat 64 ago) := by
  unfold State.transferRecord
  refine ⟨List.length_append, ?_⟩
  dsimp only
  rw [List.getLast?_append, List.getLast?_singleton]
  rfl

/-! ## Bursts and lanes -/

section
variable {s : State} {x : Burst} {tries : Nat} {lane : Option (BitVec 5)} {ok : Bool} (hev : s.ev = .burst x tries lane ok)
include hev

/-- A burst of no stack or channel that exists does nothing. -/
theorem burst_nowhere (hr : burstReal x = false) : execTransferParityRetry s = .next s ∧ execLaneTest s = .next s ∧
    execLaneSwap s = .next s := by
  refine ⟨?_, ?_, ?_⟩
  · simp only [execTransferParityRetry, hev, hr, Bool.false_and, Bool.false_eq_true, if_false]
  · simp only [execLaneTest, hev, hr, Bool.not_false, if_true]
  · cases lane with
    | none => simp only [execLaneSwap, hev]
    | some l => simp only [execLaneSwap, hev, hr, Bool.not_false, or_true, if_true]

theorem execTransferParityRetry_failed (hok : ok = false) : execTransferParityRetry s = .next s := by
  subst hok
  simp only [execTransferParityRetry, hev, Bool.and_false, Bool.false_and, Bool.false_eq_true, if_false]

variable (hr : burstReal x = true)
include hr

theorem execTransferParityRetry_delivered (hok : ok = true) (h1 : 1 ≤ tries) (h4 : tries ≤ 4) :
    execTransferParityRetry s = .next (s.transferRecord 0 tries 0 (16 * tries) x) := by
  subst hok
  simp only [execTransferParityRetry, hev, hr, decide_eq_true h1, decide_eq_true h4, Bool.and_self, if_true]

theorem execLaneTest_none (hl : lane = none) : execLaneTest s = .next ((s.transferRecord 2 4 0 1088 x).lose x.addr) := by
  subst hl
  simp only [execLaneTest, hev, hr, Bool.not_true, Bool.false_eq_true, if_false, State.loseBurst]

theorem execLaneTest_spent {l : BitVec 5} (hl : lane = some l) (h0 : s.sparesOf x = 0) :
    execLaneTest s = .next ((s.transferRecord 2 4 l.toNat 1088 x).lose x.addr) := by
  subst hl
  simp only [execLaneTest, hev, hr, Bool.not_true, Bool.false_eq_true, if_false, h0, if_true, State.loseBurst]

theorem execLaneTest_spare {l : BitVec 5} (hl : lane = some l) (h0 : s.sparesOf x ≠ 0) : execLaneTest s = .next s := by
  subst hl
  simp only [execLaneTest, hev, hr, Bool.not_true, Bool.false_eq_true, if_false, h0]

/-- A swap takes one spare of the channel and writes a record (R423). -/
theorem execLaneSwap_swaps {l : BitVec 5} (hl : lane = some l) (h0 : s.sparesOf x ≠ 0) (hok : ok = true) : ∃ t,
    execLaneSwap s = .next t ∧ t.sparesOf x = s.sparesOf x - 1 ∧ t.hbm = s.hbm ∧ t.pfLog.length = s.pfLog.length + 1 := by
  subst hl hok
  have hn : ¬(s.sparesOf x = 0 ∨ (!burstReal x) = true) := by
    rw [hr]
    exact fun e => e.elim h0 Bool.false_ne_true
  simp only [execLaneSwap, hev, if_neg hn, if_true]
  refine ⟨_, rfl, ?_, rfl, (State.transferRecord_logs ..).1⟩
  rw [State.sparesOf, State.transferRecord, List.lookup_cons_self]
  rfl

end

/-! ## Words of the stores -/

section
variable {s : State} {id : CoreId} {st : StoreKind} {o : Nat}

theorem State.storeRecord_eq (kind off : Nat) : s.storeRecord kind id st off = if st = .bank
    then s.record ((s.colOf id).getD (id.num % 256)) (errorRecord kind 15 id.owner 0xFFF ((s.colOf id).getD (id.num % 256)) 15 2 off)
    else s.coreRecord kind id (storeCode st) off := by
  cases st <;> rfl

theorem execBackgroundScrub_single {bit : Nat} (hev : s.ev = .stored id st o (.single bit)) : execBackgroundScrub s = .next
    (s.storeRecord (1 + storeCode st) id st (storeOffset id.num st o / 8)) := by
  simp only [execBackgroundScrub, hev, State.checkWord]

theorem execBackgroundScrub_owned (hev : s.ev = .stored id st o .double) (ha : s.allocated id st o = true) :
    execBackgroundScrub s = .next ((s.storeRecord 0x04 id st (storeOffset id.num st o / 8)).strike id.owner 0x01) := by
  simp only [execBackgroundScrub, hev, State.checkWord, ha, if_true]

theorem execBackgroundScrub_free (hev : s.ev = .stored id st o .double) (ha : s.allocated id st o = false) :
    execBackgroundScrub s = .next ((s.storeRecord 0x04 id st (storeOffset id.num st o / 8)).clearWord id st o) := by
  simp only [execBackgroundScrub, hev, State.checkWord, ha, Bool.false_eq_true, if_false]

end

end Sys2Proof.Machine

namespace Sys2Proof.Proofs
open Sys2Proof Sys2Proof.Machine

/-- Settles O46: what a scrub, a retry, a lane test, a lane swap and the check of a stored word do. -/
theorem stackAndLaneErrors : Obligations.StackAndLaneErrors := by
  intro s a x
  refine ⟨fun hev => ?_, fun bit hev => ?_, fun hev => ?_, fun kind bit o => ⟨rfl, rfl, s.arrayRecord_logs kind bit o⟩,
    fun kind tries lane ago => (s.transferRecord_logs kind tries lane ago x).2, fun tries lane ok hev hr i hi => ?_, fun tries lane ok hev hs hc => ?_, fun id st o =>
      ⟨fun kind off => State.storeRecord_eq kind off, fun bit hev => execBackgroundScrub_single hev,
        fun hev ha => execBackgroundScrub_owned hev ha, fun hev ha => execBackgroundScrub_free hev ha⟩⟩
  · show execHbmScrub s = _
    simp only [execHbmScrub, hev]
  · show execHbmScrub s = _
    simp only [execHbmScrub, hev]
  · show execHbmScrub s = _
    simp only [execHbmScrub, hev]
  · obtain ⟨h1, h2, h3⟩ := burst_nowhere hev hr
    simp only [List.mem_cons, List.not_mem_nil, or_false] at hi
    obtain rfl | rfl | rfl := hi
    · exact h1
    · exact h2
    · exact h3
  · have hr : burstReal x = true := by
      rw [burstReal, decide_eq_true hs, decide_eq_true hc]
      rfl
    exact ⟨fun hok h1 h4 => execTransferParityRetry_delivered hev hr hok h1 h4, fun hok => execTransferParityRetry_failed hev hok,
      fun hl => execLaneTest_none hev hr hl, fun l hl => ⟨fun h0 => execLaneTest_spent hev hr hl h0,
        fun h0 => execLaneTest_spare hev hr hl h0, fun h0 hok => execLaneSwap_swaps hev hr hl h0 hok⟩⟩

end Sys2Proof.Proofs
end


section

/-! The host link, the fabric ports and the accesses of other modules (15_host_fabric_firmware.md R333 to R335,
R415, R446 to R449). -/

namespace Sys2Proof.Machine
open Sys2Proof
set_option Elab.async false

theorem getElem?_modAt {α : Type} {f : α → α} : ∀ {l : List α} {k : Nat} {a : α}, l[k]? = some a → (modAt l k f)[k]? = some (f a)
  | x :: l, 0, a, h => by
    obtain rfl : x = a := Option.some.inj h
    rfl
  | x :: l, k + 1, a, h => getElem?_modAt (l := l) h

theorem getElem?_setAt {α : Type} {b : α} : ∀ {l : List α} {k : Nat} {a : α}, l[k]? = some a → (setAt l k b)[k]? = some b
  | x :: l, 0, a, h => rfl
  | x :: l, k + 1, a, h => getElem?_setAt (l := l) h

/-! ## The host link -/

section
variable {s : State}

theorem execLinkRetry_eq {w v : Nat} (hev : s.ev = .link w v) (hw : w ∈ [16, 8, 4]) (hv : v ∈ [128, 64, 32]) (hwl : w ≤ s.linkWidth)
    (hvl : v ≤ s.linkSpeed) : execLinkRetry s = .next { s with linkWidth := w, linkSpeed := v } := by
  simp only [execLinkRetry, hev]
  rw [if_pos ⟨List.contains_iff_mem.2 hw, List.contains_iff_mem.2 hv, hwl, hvl⟩]

theorem execLinkDownTimeout_up (hl : s.linkUp = true) : execLinkDownTimeout s = .next s := by
  simp only [execLinkDownTimeout, hl, Bool.not_true, Bool.false_and, Bool.false_eq_true, if_false]

theorem execLinkDownTimeout_late (hl : s.linkUp = false) (ht : s.linkLimit < s.linkDownFor) :
    ∃ t, execLinkDownTimeout s = .next t ∧ ∀ f ∈ t.fns, f.enabled = false := by
  simp only [execLinkDownTimeout, hl, decide_eq_true ht, Bool.not_false, Bool.and_self, if_true]
  refine ⟨_, rfl, fun f hf => ?_⟩
  obtain ⟨g, -, rfl⟩ := List.mem_map.1 hf
  rfl

/-- A link that comes up finds nothing to write, and ends the waits of the moves (R447). -/
theorem execLinkUp_eq (hl : s.linkUp = false) (hr : ∀ f, (s.fn f).reqs = []) (hc : ∀ r ∈ s.reclaims, r.2.2 = true) :
    execLinkUp s = .next { s with linkUp := true, me := s.me.linkBack, others := s.others.map Core.linkBack } := by
  have hwrites : ∀ l : List Nat, l.foldl State.writeRequests
      { s with linkUp := true, me := s.me.linkBack, others := s.others.map Core.linkBack } =
        { s with linkUp := true, me := s.me.linkBack, others := s.others.map Core.linkBack } :=
    foldl_fixed _ _ fun f => State.writeRequests_none fun q hq => absurd ((hr f) ▸ hq) List.not_mem_nil
  have hreclaims : ({ s with linkUp := true, me := s.me.linkBack, others := s.others.map Core.linkBack } : State).writeReclaims =
      { s with linkUp := true, me := s.me.linkBack, others := s.others.map Core.linkBack } := by
    have hn : (s.reclaims.filter fun r => !r.2.2) = [] := by
      rw [List.filter_eq_nil_iff]
      intro r h
      rw [hc r h]
      exact Bool.false_ne_true
    unfold State.writeReclaims
    dsimp only
    rw [hn, List.foldl_nil, ite_self]
  rw [execLinkUp, hl, if_neg Bool.false_ne_true]
  dsimp only
  rw [hwrites, hreclaims]

theorem Core.linkBack_eq (c : Core) : c.linkBack = { c with bulks := c.bulks.map fun b =>
    if b.packet.isSome = true ∧ b.held ≤ 2 ^ 30 then { b with held := 0 } else b } := by
  simp only [Core.linkBack, Bool.and_eq_true, decide_eq_true_eq]

/-! ## The ports -/

theorem execFabricFlitRetry_eq {p n : Nat} {ok : Bool} (hev : s.ev = .flit p ok) (hn : s.resends[p]? = some n) :
    ∃ t, execFabricFlitRetry s = .next t ∧ t = { s with resends := t.resends } ∧
      t.resends[p]? = some (if 8 ≤ n then n else if ok then 0 else n + 1) := by
  simp only [execFabricFlitRetry, hev]
  refine ⟨_, rfl, ?_, getElem?_modAt hn⟩
  rw [← hev]

section
variable {p bad n : Nat} (hev : s.ev = .lanes p bad) (hn : s.resends[p]? = some n)
include hev hn

omit hev in
theorem State.resends_getD : s.resends.getD p 0 = n := by
  rw [List.getD_eq_getElem?_getD, hn]
  rfl

theorem execFabricRetrain_early (h8 : n < 8) : execFabricRetrain s = .next s := by
  simp only [execFabricRetrain, hev, State.resends_getD hn, if_pos h8]

theorem execFabricRetrain_lanes (h8 : 8 ≤ n) : ∃ t, execFabricRetrain s = .next t ∧
    t = { s with ports := t.ports, resends := t.resends } ∧ t.resends[p]? = some 0 ∧
    ∀ (l : List Lane) (x : Lane) (i : Nat), s.ports[p]? = some l → l[i]? = some x → i < 4 →
      (t.ports[p]?).bind (·[i]?) = some (⟨x.up && !bad.testBit i, x.part⟩ : Lane) := by
  simp only [execFabricRetrain, hev, State.resends_getD hn, if_neg (Nat.not_lt.2 h8)]
  refine ⟨_, rfl, ?_, getElem?_setAt hn, fun l x i hl hx hi => ?_⟩
  · rw [← hev]
  · have hz : (l.zip (List.range 4))[i]? = some (x, i) := List.getElem?_zip_eq_some.2 ⟨hx, List.getElem?_range hi⟩
    rw [getElem?_modAt hl, Option.bind_some, List.getElem?_map, hz]
    rfl

end

section
variable {p : Nat} {parts : List (Option Nat)} (hev : s.ev = .split p parts)
include hev

theorem execFabricRetrain_split (h4 : parts.length = 4) (hp : ∀ o, some o ∈ parts → (s.fn o).privileged = true) :
    ∃ t, execFabricRetrain s = .next t ∧ t = { s with ports := t.ports } ∧
      ∀ (l : List Lane) (x : Lane) (i : Nat) y, s.ports[p]? = some l → l[i]? = some x → parts[i]? = some y →
        (t.ports[p]?).bind (·[i]?) = some (⟨x.up, y⟩ : Lane) := by
  have hall : (parts.all fun x => (x.map fun o => (s.fn o).privileged).getD true) = true := by
    rw [List.all_eq_true]
    intro x hx
    cases x with
    | none => rfl
    | some o => exact hp o hx
  simp only [execFabricRetrain, hev, h4, hall, BEq.rfl, Bool.and_self, if_true]
  refine ⟨_, rfl, ?_, fun l x i y hl hx hy => ?_⟩
  · rw [← hev]
  · have hz : (l.zip parts)[i]? = some (x, y) := List.getElem?_zip_eq_some.2 ⟨hx, hy⟩
    rw [getElem?_modAt hl, Option.bind_some, List.getElem?_map, hz]
    rfl

theorem execFabricRetrain_unprivileged {o : Nat} (ho : some o ∈ parts) (hp : (s.fn o).privileged = false) :
    execFabricRetrain s = .next s := by
  have hall : (parts.all fun x => (x.map fun o => (s.fn o).privileged).getD true) = false := by
    rw [List.all_eq_false]
    refine ⟨some o, ho, ?_⟩
    rw [Option.map_some, Option.getD_some, hp]
    exact Bool.false_ne_true
  simp only [execFabricRetrain, hev, hall, Bool.and_false, Bool.false_eq_true, if_false]

end

end

/-! ## Accesses of other modules -/

theorem State.request_fabricIn (t : State) (f g : Nat) (r w : Bool) : (t.request f g r w).fabricIn = t.fabricIn := by
  unfold State.request
  dsimp only
  split
  · rfl
  · split
    · unfold State.enterRequest
      dsimp only
      split <;> rfl
    · rfl

/-- A walk of an access, from what the memory unit answers. -/
theorem State.fabricWalk_eq {s : State} {x : FabricReq} {l : List (Except TxFail (Nat × Nat))} {m : Mmu}
    (h : (⟨s.hbm, [], []⟩ : Mmu).access ⟨(s.fn x.fn).objBase, (s.fn x.fn).objCount, (s.fn x.fn).ssRoot, x.circ % 2, refusals x.answered⟩
      x.obj.toNat x.off x.bytes x.rights.1 x.rights.2 = (l, m)) : s.fabricWalk x = (settle x.answered l, m) := by
  unfold State.fabricWalk
  dsimp only
  rw [h]

/-- Whether the channels serve an access as an atomic one. -/
def FabricReq.isAtomic (x : FabricReq) : Bool :=
  match x.op with
  | .atomic _ _ _ => true
  | _ => false

section
variable {s : State} {i : Nat} {x : FabricReq} (hx : s.fabricIn[i]? = some x)
include hx

theorem State.fabricStep_blocked (hb : ((s.fabricIn.take i).any fun y => y.src == x.src) = true) : s.fabricStep i = s := by
  unfold State.fabricStep
  rw [hx]
  dsimp only
  rw [if_pos hb]

variable (hb : ((s.fabricIn.take i).any fun y => y.src == x.src) = false) {m : Mmu}
include hb

theorem State.fabricStep_fault {c u : BitVec 8} {v : BitVec 48} (hw : s.fabricWalk x = (.fault c u v, m)) :
    s.fabricStep i = s.answerFabric i x.src (.fault c u v) := by
  unfold State.fabricStep
  rw [hx]
  dsimp only
  rw [hb, if_neg Bool.false_ne_true, hw]

theorem State.fabricStep_miss {g : Nat} {r w : Bool} (hw : s.fabricWalk x = (.misses [(g, r, w)], m)) : s.fabricStep i =
    { s.request x.fn g r w with fabricIn := modAt s.fabricIn i fun y => { y with asked := [g] } } := by
  unfold State.fabricStep
  rw [hx]
  dsimp only
  rw [hb, if_neg Bool.false_ne_true, hw]
  dsimp only [List.foldl_cons, List.foldl_nil, List.map_cons, List.map_nil]
  exact congrArg (fun l => ({ s.request x.fn g r w with fabricIn := modAt l i fun y => { y with asked := [g] } } : State))
    (State.request_fabricIn s x.fn g r w)

/-- An access that translates and that its channels serve is applied and answered. -/
theorem State.fabricStep_ok {ps : List (Nat × Nat)} (hw : s.fabricWalk x = (.ok ps, m)) {t : State}
    (ht : s.serve x.fn ps x.isAtomic = some t)
    (hp : x.rights.1 = true → ∀ y ∈ s.flaws, ∀ p ∈ ps, p.1 / 32 ≤ y.1 → p.1 + p.2 ≤ 32 * y.1) :
    s.fabricStep i = (({ t with hbm := m.hbm } : State).applyFabric x ps).1.answerFabric i x.src
      (({ t with hbm := m.hbm } : State).applyFabric x ps).2 := by
  unfold State.fabricStep
  rw [hx]
  dsimp only
  rw [hb, if_neg Bool.false_ne_true, hw]
  show (match s.serve x.fn ps x.isAtomic with
    | none => s
    | some t =>
      if x.rights.1 then ({ t with hbm := m.hbm } : State).arrayRead ps fun t =>
        (t.applyFabric x ps).1.answerFabric i x.src (t.applyFabric x ps).2
      else (({ t with hbm := m.hbm } : State).applyFabric x ps).1.answerFabric i x.src
        (({ t with hbm := m.hbm } : State).applyFabric x ps).2) = _
  rw [ht]
  dsimp only
  split
  next hr =>
    refine Sys2Proof.Laws.arrayRead_clean _ ?_
    show ∀ y ∈ t.flaws, _
    rw [State.serve_flaws ht]
    exact hp hr
  next => rfl

end

/-! ## Homes that cannot be reached -/

section
variable {s : State}

theorem execRemoteHomeTimeout_core {id : CoreId} {c : Core} (hev : s.ev = .core id) (hc : s.core? id = some c) :
    execRemoteHomeTimeout s = .next (if 2 ^ 28 ≤ (c.homeHeld.map (·.2)).getD 0 then s.strike id.owner 0x06 else s) := by
  simp only [execRemoteHomeTimeout, hev, hc, decide_eq_true_eq]
  rfl

theorem execRemoteHomeTimeout_bulk {id : CoreId} {c : Core} {i : Nat} {b : Bulk} (hev : s.ev = .coreIdx id i) (hc : s.core? id = some c)
    (hb : c.bulks[i]? = some b) :
    execRemoteHomeTimeout s = .next (if b.packet = none ∧ 2 ^ 28 ≤ b.held then s.strike id.owner 0x06 else s) := by
  simp only [execRemoteHomeTimeout, hev, hc, Option.bind_some, hb, Bool.and_eq_true, decide_eq_true_eq, Option.isNone_iff_eq_none]

theorem execRemoteHomeTimeout_out {k : Nat} {q : HomeReq} (hev : s.ev = .num k) (hq : s.homeOut[k]? = some q) :
    execRemoteHomeTimeout s = .next (if 2 ^ 28 ≤ q.held then s.strike q.src.owner 0x06 else s) := by
  simp only [execRemoteHomeTimeout, hev, hq]

end

end Sys2Proof.Machine

namespace Sys2Proof.Proofs
open Sys2Proof Sys2Proof.Machine

/-- Settles O50: the host link, the fabric ports, the accesses of other modules and the wait for a home. -/
theorem linkEvents : Obligations.LinkEvents := by
  intro s
  refine ⟨fun w v hev hw hv hwl hvl => execLinkRetry_eq hev hw hv hwl hvl, rfl, fun hl => execLinkDownTimeout_up hl,
    fun hl ht => execLinkDownTimeout_late hl ht, fun hl hr hc => ?_, fun hr hl => ?_, fun hr => ?_,
    fun p ok n hev hn => execFabricFlitRetry_eq hev hn, fun p bad n hev hn h8 => execFabricRetrain_early hev hn h8,
    fun p bad n hev hn h8 => execFabricRetrain_lanes hev hn h8,
    fun p parts hev => ⟨fun h4 hp => execFabricRetrain_split hev h4 hp, fun o ho hp => execFabricRetrain_unprivileged hev ho hp⟩,
    fun i hev => ?_, fun x hev => ?_, fun i x hx => ?_, fun id c hev hc => execRemoteHomeTimeout_core hev hc,
    fun id c i b hev hc hb => execRemoteHomeTimeout_bulk hev hc hb, fun k q hev hq => execRemoteHomeTimeout_out hev hq⟩
  · intro back
    have hback : back = Core.linkBack := funext fun c => (Core.linkBack_eq c).symm
    rw [hback]
    exact execLinkUp_eq hl hr hc
  · show execHostEnumeration s = _
    rw [execHostEnumeration, hr, hl]
    rfl
  · show execHostEnumeration s = _
    rw [execHostEnumeration, hr]
    rfl
  · show execFabricRequestArrive s = _
    simp only [execFabricRequestArrive, hev]
  · show execFabricRequestArrive s = _
    simp only [execFabricRequestArrive, hev]
  · intro fn sound blocked answers
    refine ⟨fun hb => State.fabricStep_blocked hx hb, fun hb l m hm => ?_⟩
    have hwalk := State.fabricWalk_eq hm
    refine ⟨fun ps t v hs hop ht => ?_, fun ps t hs hop hps ht => ?_, fun a n ps t op b e hs hop hps ht => ?_, fun c u v hs => ?_,
      fun g r w hs => ?_⟩
    · have hat : x.isAtomic = false := by rw [FabricReq.isAtomic, hop]
      have hr : x.rights = (false, true) := by rw [FabricReq.rights, hop]
      rw [State.fabricStep_ok hx hb (hwalk.trans (by rw [hs])) (by rw [hat]; exact ht) (by rw [hr]; exact fun e => nomatch e),
        State.applyFabric, hop]
      obtain ⟨c, rfl⟩ := Sys2Proof.Laws.serve_chans ht
      rfl
    · have hat : x.isAtomic = false := by rw [FabricReq.isAtomic, hop]
      rw [State.fabricStep_ok hx hb (hwalk.trans (by rw [hs])) (by rw [hat]; exact ht) (fun _ => hps), State.applyFabric, hop]
      obtain ⟨c, rfl⟩ := Sys2Proof.Laws.serve_chans ht
      rfl
    · have hat : x.isAtomic = true := by rw [FabricReq.isAtomic, hop]
      rw [State.fabricStep_ok hx hb (hwalk.trans (by rw [hs])) (by rw [hat]; exact ht) (fun _ => hps), State.applyFabric, hop]
      obtain ⟨c, rfl⟩ := Sys2Proof.Laws.serve_chans ht
      rfl
    · exact State.fabricStep_fault hx hb (hwalk.trans (by rw [hs]))
    · exact State.fabricStep_miss hx hb (hwalk.trans (by rw [hs]))

end Sys2Proof.Proofs
end


section

/-! Plug-ins, device reset, attestation and function-level reset (15_host_fabric_firmware.md R338 to R341, R439,
R451 to R453). -/

namespace Sys2Proof.Machine
open Sys2Proof
set_option Elab.async false

variable {s : State} {f : Nat}

/-! ## Plug-ins -/

section
variable {core : Nat} (hev : s.ev = .call f core)
include hev

theorem execPluginCall_calls (hl : (s.fn f).plugin.loaded = true) (hs : (s.fn f).plugin.stopped = false)
    (hc : (s.fn f).plugin.called = none) (hn : ∀ g ∈ s.fns, g.plugin.called.map (·.1) ≠ some core) : execPluginCall s = .next
      (s.updFn f fun fn => { fn with plugin := { fn.plugin with called := some (core, 0) } }) := by
  have hcall : (s.fn f).plugin.callable = true := by
    rw [Plugin.callable, hl, hs]
    rfl
  have hany : (s.fns.any fun g => (g.plugin.called.map (·.1)) == some core) = false := by
    rw [List.any_eq_false]
    exact fun g hg e => hn g hg (beq_iff_eq.1 e)
  simp only [execPluginCall, hev, hcall, hany, hc, Option.isSome_none, Bool.or_self, Bool.not_true, Bool.false_eq_true, if_false]

theorem execPluginCall_default (h : (s.fn f).plugin.loaded = false ∨ (s.fn f).plugin.stopped = true) : execPluginCall s = .next
    (s.updFn f fun fn => { fn with share := 16, plugin := { fn.plugin with slice := 0 } }) := by
  have hcall : (s.fn f).plugin.callable = false := by
    rw [Plugin.callable]
    obtain h | h := h
    · rw [h, Bool.false_and]
    · rw [h, Bool.not_true, Bool.and_false]
  simp only [execPluginCall, hev, hcall, Bool.not_false, if_true]
  rfl

end

theorem execPluginCall_protect {core k : Nat} {v : BitVec 64} (hev : s.ev = .protect core k v) (hc : core < 4) (hk : k < 16) :
    execPluginCall s = .next { s with regionRegs := setAt s.regionRegs (16 * core + k) (v &&& 0xFFFFFFFFFFFFF07F) } := by
  simp only [execPluginCall, hev]
  rw [if_pos ⟨hc, hk⟩]

/-- A value within the monitor's limits (R338). -/
theorem clampTo_eq {n : Nat} (l : BitVec n × BitVec n) (v : BitVec n) :
    clampTo l v = if v.toNat < l.1.toNat then l.1 else if l.2.toNat < v.toNat then l.2 else v := by
  simp only [clampTo, BitVec.ult, decide_eq_true_eq]

section
variable {core n : Nat} {share : BitVec 8} {slice : BitVec 64} {accs : List (Nat × Nat × Bool)}
  (hev : s.ev = .plugin f core share slice accs) (hc : (s.fn f).plugin.called = some (core, n)) (hn : n ≤ 2 ^ 16)
  (hb : (s.fn f).plugin.breach = false)
include hev hc hn hb

omit hev in
theorem State.plugin_runs : ¬(((s.fn f).plugin.called.map (·.1)) ≠ some core ∨ (s.fn f).plugin.faulty) := by
  rw [Plugin.faulty, hb, hc, Option.map_some, Option.map_some, Option.getD_some, decide_eq_false (Nat.not_lt.2 hn)]
  exact fun e => e.elim (fun h => h rfl) Bool.false_ne_true

theorem execPluginCall_returns (hp : ∀ x ∈ accs, s.permitted core x.1 x.2.1 x.2.2 = true) :
    execPluginCall s = .next (s.updFn f fun fn => fn.returned share slice) := by
  have hany : (accs.any fun (a, n, wr) => !s.permitted core a n wr) = false := by
    rw [List.any_eq_false]
    intro x hx e
    replace e : (!s.permitted core x.1 x.2.1 x.2.2) = true := e
    rw [hp x hx] at e
    exact Bool.false_ne_true e
  simp only [execPluginCall, hev, if_neg (State.plugin_runs hc hn hb), hany, Bool.false_eq_true, if_false]

theorem execPluginCall_breaches {x : Nat × Nat × Bool} (hx : x ∈ accs) (hp : s.permitted core x.1 x.2.1 x.2.2 = false) :
    execPluginCall s = .next ((s.updFn f fun fn => { fn with plugin := { fn.plugin with breach := true } }).due .pluginFault (.num f)) := by
  have hany : (accs.any fun (a, n, wr) => !s.permitted core a n wr) = true := by
    rw [List.any_eq_true]
    refine ⟨x, hx, ?_⟩
    show (!s.permitted core x.1 x.2.1 x.2.2) = true
    rw [hp]
    rfl
  simp only [execPluginCall, hev, if_neg (State.plugin_runs hc hn hb), hany, if_true]

end

/-- A plug-in that breached its regions, or has not returned in time. -/
theorem Plugin.faulty_iff (p : Plugin) : p.faulty = true ↔ p.breach = true ∨ ∃ core n, p.called = some (core, n) ∧ 2 ^ 16 < n := by
  unfold Plugin.faulty
  rw [Bool.or_eq_true]
  refine or_congr Iff.rfl ?_
  cases p.called with
  | none => exact ⟨fun e => absurd e Bool.false_ne_true, fun ⟨_, _, e, _⟩ => nomatch e⟩
  | some x =>
    rw [Option.map_some, Option.getD_some, decide_eq_true_eq]
    refine ⟨fun h => ⟨x.1, x.2, rfl, h⟩, ?_⟩
    rintro ⟨core, n, e, h⟩
    rw [Option.some.inj e]
    exact h

section
variable (hev : s.ev = .num f)
include hev

theorem execPluginFault_stops (hl : (s.fn f).plugin.loaded = true) (hs : (s.fn f).plugin.stopped = false)
    (hf : (s.fn f).plugin.faulty = true) : execPluginFault s = .next (s.note.updFn f fun fn => { fn with
      share := 16, plugin := { fn.plugin with stopped := true, slice := 0, called := none, breach := false } }) := by
  have hcall : (s.fn f).plugin.callable = true := by
    rw [Plugin.callable, hl, hs]
    rfl
  simp only [execPluginFault, hev, hcall, hf, Bool.and_self, if_true]
  rfl

theorem execPluginFault_none (hf : (s.fn f).plugin.faulty = false) : execPluginFault s = .next s := by
  simp only [execPluginFault, hev, hf, Bool.and_false, Bool.false_eq_true, if_false]

end

/-! ## Images -/

theorem Image.accepted_iff (i : Image) (k : BitVec 384 × BitVec 384) : Image.accepted i k = true ↔
    i.ecdsaOk = true ∧ i.lmsOk = true ∧ (i.ecdsaKey = k.1 ∧ i.lmsKey = k.2) ∧ i.digest.isSome = true := by
  simp only [Image.accepted, Bool.and_eq_true, beq_iff_eq, and_assoc]

theorem State.acceptsPlugin_iff (i : Image) : s.acceptsPlugin i = true ↔ i.ecdsaOk = true ∧ i.lmsOk = true ∧
    (i.ecdsaKey = s.fuses.1 ∧ i.lmsKey = s.fuses.2 ∨ s.operatorKey = some (i.ecdsaKey, i.lmsKey)) ∧ i.digest.isSome = true := by
  rw [State.acceptsPlugin, Bool.or_eq_true, Image.accepted_iff]
  cases s.operatorKey with
  | none =>
    simp only [Option.map_none, Option.getD_none, Bool.false_eq_true, or_false, reduceCtorEq]
  | some k =>
    rw [Option.map_some, Option.getD_some, Image.accepted_iff, Option.some.injEq, Prod.ext_iff, eq_comm (a := k.1),
      eq_comm (a := k.2)]
    tauto

section
variable {i : Image} {core : Nat} {regs : List (BitVec 64)} (hev : s.ev = .image f i core regs)
include hev

theorem execPluginLoad_loads (hi : s.acceptsPlugin i = true) {d : BitVec 384} (hd : i.digest = some d) : execPluginLoad s = .next
    { s.updFn f fun fn => { fn with plugin := { fn.plugin with
        loaded := true, stopped := false, called := none, breach := false } } with
      measures := s.measures ++ [d]
      regionRegs := s.regionRegs.take (16 * core) ++
        ((List.range 16).map fun k => regs.getD k 0 &&& 0xFFFFFFFFFFFFF07F) ++ s.regionRegs.drop (16 * core + 16) } := by
  simp only [execPluginLoad, hev, hi, if_true, hd]
  rfl

theorem execPluginLoad_refuses (hi : s.acceptsPlugin i = false) : execPluginLoad s = .next
    (s.updFn f fun fn => { fn with share := 16, plugin := { fn.plugin with
      loaded := false, slice := 0, called := none, breach := false } }) := by
  simp only [execPluginLoad, hev, hi, Bool.false_eq_true, if_false]
  rfl

end

/-! ## Function-level reset -/

/-- A queue that is killed (R318). -/
def Queue.killed (k : Queue) : Queue :=
  { k with bound := false, idle := 0, killing := true, killAsked := false, announced := false, rereads := 0 }

/-- A function's row after the first `n` of its queues are killed. -/
def Fn.killed (fn : Fn) (n : Nat) : Fn :=
  { fn with queues := (List.range n).foldl (fun l q => modAt l q Queue.killed) fn.queues }

theorem State.killQueue_spec (s : State) (f q : Nat) : (s.killQueue f q).fns =
      modAt s.fns f (fun fn => { fn with queues := modAt fn.queues q Queue.killed }) ∧
    (s.killQueue f q).me = s.me ∧ (s.killQueue f q).others = s.others ∧ (s.killQueue f q).phase = s.phase := by
  refine ⟨?_, rfl, rfl, rfl⟩
  refine (modAt_modAt _ _ s.fns f).trans (congrArg (modAt s.fns f) (funext fun fn => ?_))
  dsimp only
  rw [modAt_modAt]
  rfl

theorem State.askKill_now (hp : s.phase = .run) (hr : (s.fn f).rollback = false) (q : Nat) : s.askKill f q = s.killQueue f q := by
  have hn : (s.paused || (s.fn f).rollback) = false := by
    rw [State.paused, hp, hr]
    rfl
  rw [State.askKill, hn]
  rfl

theorem modAt_same {α : Type} : ∀ (l : List α) (k : Nat), modAt l k (fun a => a) = l
  | [], _ => rfl
  | _ :: _, 0 => rfl
  | a :: l, k + 1 => congrArg (a :: ·) (modAt_same l k)

theorem getD_modAt_ne {α : Type} (f : α → α) (d : α) : ∀ (l : List α) (k j : Nat), j ≠ k → (modAt l k f).getD j d = l.getD j d
  | [], _, _, _ => rfl
  | _ :: _, 0, 0, h => absurd rfl h
  | _ :: _, 0, _ + 1, _ => rfl
  | _ :: _, _ + 1, 0, _ => rfl
  | _ :: l, k + 1, j + 1, h => getD_modAt_ne f d l k j fun e => h (congrArg Nat.succ e)

/-- Killing queues one after another outside a pause and a rollback (R318, R453). -/
theorem State.killQueues_spec (hp : s.phase = .run) (hr : (s.fn f).rollback = false) (hf : f < s.fns.length) (n : Nat) :
    let t := (List.range n).foldl (fun s q => s.askKill f q) s
    t.fns = modAt s.fns f (·.killed n) ∧ t.me = s.me ∧ t.others = s.others ∧ t.phase = s.phase := by
  induction n with
  | zero => exact ⟨(modAt_same s.fns f).symm, rfl, rfl, rfl⟩
  | succ n ih =>
    obtain ⟨hfns, hme, hothers, hphase⟩ := ih
    rw [List.range_succ, List.foldl_append]
    generalize (List.range n).foldl (fun s q => s.askKill f q) s = u at hfns hme hothers hphase
    have hrow : u.fn f = (s.fn f).killed n := by
      rw [State.fn, hfns]
      exact getD_modAt _ _ _ _ hf
    have hkill : u.askKill f n = u.killQueue f n := State.askKill_now (hphase.trans hp) (by rw [hrow]; exact hr) n
    obtain ⟨kfns, kme, kothers, kphase⟩ := u.killQueue_spec f n
    rw [List.foldl_cons, List.foldl_nil, hkill]
    refine ⟨?_, kme.trans hme, kothers.trans hothers, kphase.trans hphase⟩
    rw [kfns, hfns, modAt_modAt]
    refine congrArg (modAt s.fns f) (funext fun fn => ?_)
    rw [Fn.killed, Fn.killed, List.range_succ, List.foldl_append]
    rfl

theorem foldl_killed_length (ns : List Nat) (l : List Queue) :
    (ns.foldl (fun l q => modAt l q Queue.killed) l).length = l.length :=
  foldl_keeps List.length (fun l q => modAt_length Queue.killed l q) ns l

/-- Each of the queues below `n` is killed once, and no other. -/
theorem getD_foldl_killed (q : Nat) (l : List Queue) (n : Nat) (hn : n ≤ l.length) :
    ((List.range n).foldl (fun l q => modAt l q Queue.killed) l).getD q Queue.reset =
      if q < n then (l.getD q Queue.reset).killed else l.getD q Queue.reset := by
  induction n with
  | zero => rfl
  | succ n ih =>
    rw [List.range_succ, List.foldl_append, List.foldl_cons, List.foldl_nil]
    by_cases hq : q = n
    · subst hq
      rw [getD_modAt _ _ _ _ (by rw [foldl_killed_length]; exact hn), ih (by omega), if_neg (by omega), if_pos (by omega)]
    · rw [getD_modAt_ne _ _ _ _ _ hq, ih (by omega)]
      by_cases hlt : q < n
      · rw [if_pos hlt, if_pos (by omega)]
      · rw [if_neg hlt, if_neg (by omega)]

theorem execFunctionLevelReset_eq (hev : s.ev = .num f) (hf : f < s.fns.length) (hq : (s.fn f).queues.length = 32)
    (hp : s.phase = .run) (hr : (s.fn f).rollback = false) : ∃ t, execFunctionLevelReset s = .next t ∧ (t.fn f).flr = true ∧
      t.me = s.me ∧ t.others = s.others ∧ (∀ g, g ≠ f → t.fn g = s.fn g) ∧ ∀ q < 32, t.queue f q = (s.queue f q).killed := by
  have hspec := State.killQueues_spec hp hr hf 32
  have hreset : s.resetFn f = ((List.range 32).foldl (fun s q => s.askKill f q) s).updFn f fun fn => { fn with flr := true } := rfl
  generalize (List.range 32).foldl (fun s q => s.askKill f q) s = u at hspec hreset
  obtain ⟨hfns, hme, hothers, -⟩ := hspec
  have hrow : ((s.resetFn f).fns) = modAt s.fns f fun fn => { fn.killed 32 with flr := true } := by
    rw [hreset, State.updFn_fns, hfns, modAt_modAt]
  have hfn : (s.resetFn f).fn f = { (s.fn f).killed 32 with flr := true } := by
    rw [State.fn, hrow]
    exact getD_modAt _ _ _ _ hf
  have hcores : (s.resetFn f).me = s.me ∧ (s.resetFn f).others = s.others := by
    rw [hreset]
    exact ⟨hme, hothers⟩
  refine ⟨s.resetFn f, ?_, ?_, hcores.1, hcores.2, fun g hg => ?_, fun q hlt => ?_⟩
  · simp only [execFunctionLevelReset, hev]
  · rw [hfn]
  · rw [State.fn, hrow]
    exact getD_modAt_ne _ _ _ _ _ hg
  · rw [State.queue, hfn]
    have hk := getD_foldl_killed q (s.fn f).queues 32 (Nat.le_of_eq hq.symm)
    rw [if_pos hlt] at hk
    rw [Fn.killed]
    dsimp only
    rw [hk, State.queue]

/-! ## Device reset -/

section
variable {b : BootChoice} (hev : s.ev = .boot b)
include hev

theorem execDeviceReset_unplaced (hid : 432 ≤ b.fabricId.toNat) (hm : Image.accepted b.monitor s.fuses = true)
    (hs : Image.accepted b.scheduler s.fuses = true) : execDeviceReset s = .next s := by
  simp only [execDeviceReset, hev, hm, hs, Bool.and_self, if_true, if_pos hid]

omit hev

/-- Every firmware core of a boot has its name, and stands as after reset where the boot starts none. -/
theorem startedFirm_none {b : BootChoice} (h : b.starts = []) (mon ok : Bool) (k : Nat) : startedFirm b mon ok k = Core.firmware k := by
  unfold startedFirm
  rw [h]
  rfl

theorem startedFirm_one {b : BootChoice} {k : Nat} {m : Bool} {pc : Nat} {bs : List Byte} (h : b.starts = [(k, m, pc, bs)]) :
    (startedFirm b true true k).id = (Core.firmware k).id ∧ (startedFirm b true true k).stopped = false ∧
      (startedFirm b true true k).pc = pc ∧ (startedFirm b true true k).csr.level = if m then 2 else 1 := by
  have hfind : b.starts.find? (fun x => x.1 == k && (if x.2.1 then true else true)) = some (k, m, pc, bs) := by
    rw [h, List.find?_cons, BEq.rfl, ite_self]
    rfl
  unfold startedFirm
  dsimp only
  rw [hfind]
  exact ⟨rfl, rfl, rfl, rfl⟩

include hev

/-- A boot gives the machine after reset with what the boot has chosen (R340, R341). -/
theorem execDeviceReset_boots (hid : b.fabricId.toNat < 432) : ∃ t, execDeviceReset s = .next t ∧ t.lms = s.lms ∧ t.host = s.host ∧
    t.config = b.config ∧ t.fuses = s.fuses ∧ t.identity = s.identity ∧ t.fabricId = b.fabricId ∧
    2 ^ 24 ≤ t.period ∧ t.period ≤ 2 ^ 32 ∧ t.me = State.reset.me ∧ t.regions = [] ∧
    (t.others = (List.range 4).map (startedFirm b (Image.accepted b.monitor s.fuses)
      (Image.accepted b.monitor s.fuses && Image.accepted b.scheduler s.fuses))) ∧
    t.hbm = [] ∧ t.cyc = 0 ∧ t.recovery = !(Image.accepted b.monitor s.fuses && Image.accepted b.scheduler s.fuses) ∧
    t.fns = List.replicate 64
      { Fn.reset with enabled := Image.accepted b.monitor s.fuses && Image.accepted b.scheduler s.fuses } ∧
    ∀ p ∈ t.purses, p.pennies = 2 ^ 20 ∧ p.rate ≤ 16 := by
  unfold execDeviceReset
  rw [hev]
  dsimp only
  generalize (Image.accepted b.monitor s.fuses && Image.accepted b.scheduler s.fuses) = ok
  have hkeep : (if ok then ((0 : BitVec 64), s) else s.draw).2 =
      { s with draws := (if ok then ((0 : BitVec 64), s) else s.draw).2.draws } := by
    cases ok <;> rfl
  generalize (if ok then ((0 : BitVec 64), s) else s.draw) = vs at hkeep
  obtain ⟨v, u⟩ := vs
  dsimp only at hkeep ⊢
  rw [if_neg (Nat.not_le.2 hid)]
  refine ⟨_, rfl, ?_, ?_, rfl, ?_, ?_, rfl, ?_, ?_, rfl, rfl, rfl, rfl, rfl, rfl, rfl, fun p hp => ?_⟩
  · rw [hkeep]
  · rw [hkeep]
  · rw [hkeep]
  · rw [hkeep]
  · dsimp only
    omega
  · dsimp only
    omega
  · obtain ⟨k, -, rfl⟩ := List.mem_map.1 hp
    exact ⟨rfl, Nat.min_le_left ..⟩

end

end Sys2Proof.Machine

namespace Sys2Proof.Proofs
open Sys2Proof Sys2Proof.Machine

/-- Settles O52: plug-ins, images, device reset, attestation, the operator's key and function-level reset. -/
theorem firmwareEvents : Obligations.FirmwareEvents := by
  intro s
  refine ⟨fun f core hev => ⟨fun hl hs hc hn => execPluginCall_calls hev hl hs hc hn, fun h => execPluginCall_default hev h⟩,
    fun core k v hev hc hk => execPluginCall_protect hev hc hk, fun f core n share slice accs hev hc hn hb => ?_, fun f hev => ?_,
    fun f i core regs hev => ?_, fun b hev hid => ?_, fun b hev hid hm hs => execDeviceReset_unplaced hev hid hm hs,
    fun n counted hev => ⟨fun hl => ?_, fun hl => ?_⟩, fun k l hev => ?_⟩
  · intro within
    refine ⟨fun hp => (execPluginCall_returns hev hc hn hb hp).trans ?_, fun x hx hp => execPluginCall_breaches hev hc hn hb hx hp⟩
    refine congrArg (fun g => Host.Outcome.next (s.updFn f g)) (funext fun fn => ?_)
    rw [Fn.returned, clampTo_eq, clampTo_eq]
  · intro late
    refine ⟨fun hl hs h => ?_, fun hb hn => ?_, fun hf hq hp hr => ?_⟩
    · exact ⟨_, execPluginFault_stops hev hl hs ((Plugin.faulty_iff _).2 h), rfl, List.length_append, rfl⟩
    · refine execPluginFault_none hev (Bool.eq_false_iff.2 fun h => ?_)
      exact ((Plugin.faulty_iff _).1 h).elim (fun e => Bool.false_ne_true (hb.symm.trans e)) hn
    · exact execFunctionLevelReset_eq hev hf hq hp hr
  · intro keys
    refine ⟨fun d he hl hk hd => ?_, fun h => ?_⟩
    · exact execPluginLoad_loads hev ((State.acceptsPlugin_iff i).2 ⟨he, hl, hk, by rw [hd]; rfl⟩) hd
    · refine execPluginLoad_refuses hev (Bool.eq_false_iff.2 fun e => ?_)
      obtain ⟨he, hl, hk, hd⟩ := (State.acceptsPlugin_iff i).1 e
      obtain h | h | h | h := h
      · exact Bool.false_ne_true (h.symm.trans he)
      · exact Bool.false_ne_true (h.symm.trans hl)
      · exact h hk
      · rw [h] at hd
        exact Bool.false_ne_true hd
  · obtain ⟨t, hrun, hlms, hhost, hconfig, hfuses, hident, hfab, hlo, hhi, hme, hregs, hothers, hhbm, hcyc, hrec, hfns, hpurses⟩ :=
      execDeviceReset_boots hev hid
    have hok : t.recovery = true ↔ ¬(Image.accepted b.monitor s.fuses = true ∧ Image.accepted b.scheduler s.fuses = true) := by
      rw [hrec, Bool.not_eq_true', ← Bool.not_eq_true, Bool.and_eq_true]
    have hrow : ∀ f ∈ t.fns, f.enabled = !t.recovery := by
      intro f hf
      rw [hfns] at hf
      rw [hrec, Bool.not_not, List.eq_of_mem_replicate hf]
    refine ⟨t, hrun, hlms, hhost, hconfig, hfuses, hident, hfab, hlo, hhi, hme, hregs, fun hs => ?_, fun k m pc bs hs hk hr => ?_, hhbm,
      hcyc, hok, fun hr f hf => by rw [hrow f hf, hr]; rfl, fun hr f hf => by rw [hrow f hf, hr]; rfl, hpurses⟩
    · rw [hothers]
      exact List.map_congr_left fun k _ => startedFirm_none hs _ _ k
    · have hboth : Image.accepted b.monitor s.fuses = true ∧ Image.accepted b.scheduler s.fuses = true :=
        not_not.1 fun h => Bool.false_ne_true (hr.symm.trans (hok.2 h))
      refine ⟨startedFirm b true true k, ?_, startedFirm_one hs⟩
      rw [hothers, hboth.1, hboth.2]
      exact List.mem_map.2 ⟨k, List.mem_range.2 hk, rfl⟩
  · show execAttestationRequest s = _
    simp only [execAttestationRequest, hev, if_pos hl]
  · show execAttestationRequest s = _
    simp only [execAttestationRequest, hev, if_neg (Nat.not_lt.2 hl)]
  · show execOperatorKeyEnrol s = _
    simp only [execOperatorKeyEnrol, hev]

end Sys2Proof.Proofs
end


section

/-! The step of a core whose packet is one word (06_encoding.md R133, R134, R136, R363; 02_execution_model.md R51). -/

namespace Sys2Proof.Machine
open Sys2Proof
set_option Elab.async false

/-! ## The turn of a core -/

/-- A core in turn that may issue, and in front of whose packet no entry is due or waited for, issues its packet. -/
theorem takeTurn_issues {ex : Instr → State → Res?} {s : State} (hbegun : s.turnBegun = s) (hi : s.mayIssue s.me = true)
    (hr : s.me.running.isSome = true) (hb : s.me.bubble = 0) (ha : s.me.ahead = none)
    (hdue : s.dueEntry ex s.me.onLatch s.me.onTask = none) (hw : s.entryWaits = false) (hn : s.me.needs = []) :
    takeTurn ex s = issuePacket ex s := by
  have hr' : s.me.running.isNone = false := by rw [← Option.not_isSome, hr]; rfl
  have hb' : (s.onMe fun c => { c with atBarrier := none, onLatch := false, onTask := false }) = s := hbegun
  simp only [takeTurn, hb', hi, hr', hb, ha, hdue, hw, hn, List.isEmpty_nil, Bool.not_true, Bool.false_eq_true, if_false, lt_self_iff_false,
    Option.isSome_none, Bool.or_self]

theorem State.timerDue_off {s : State} (h : s.me.csr.ocmp.getLsbD 63 = false) : s.timerDue = false := by
  rw [State.timerDue, h, Bool.and_false, Bool.false_and]

theorem State.dueEntry_none {ex : Instr → State → Res?} {s : State} (ht : s.me.trapDue = none) (hd : s.me.deferred = [])
    (hc : s.me.csr.ocmp.getLsbD 63 = false) : s.dueEntry ex false false = none := by
  simp only [State.dueEntry, ht, hd, State.timerDue_off hc, Option.isSome_none, List.isEmpty_nil, Bool.not_true, Bool.and_false,
    Bool.false_eq_true, if_false, ite_self]

theorem State.entryWaits_none {s : State} (ht : s.me.trapDue = none) (hd : s.me.deferred = [])
    (hc : s.me.csr.ocmp.getLsbD 63 = false) : s.entryWaits = false := by
  simp only [State.entryWaits, ht, hd, State.timerDue_off hc, Option.isSome_none, List.isEmpty_nil, Bool.not_true, Bool.and_false,
    Bool.or_self]

/-- A core that waits at nothing begins its turn as it is. -/
theorem Core.begun_id {c : Core} (hb : c.atBarrier = none) (hl : c.onLatch = false) (ht : c.onTask = false) :
    { c with atBarrier := none, onLatch := false, onTask := false } = c := by
  obtain ⟨⟩ := c
  dsimp only at hb hl ht
  subst hb hl ht
  rfl

/-! ## The packet -/

/-- The core in turn with its word fetched, before the word acts. -/
def State.fetchedOne (s : State) (w : IWord) : State :=
  { s with me := { s.me.keep s.me.pc [w] with issue := { Issue.idle with fst := s.me.pc, nxt := s.me.pc + 4 } } }

/-- A word that stands alone, with no hint. -/
def loneWord (i : Instr) : PWord := ⟨0, i, []⟩

/-- A word that is no hint decodes to itself alone. -/
theorem decodeWords_one {mem : Bool} {w : IWord} {i : Instr} (hd : decode mem w = .ok i)
    (hh : ∀ p l g r, i ≠ .hwimm p ∧ i ≠ .hblk l ∧ i ≠ .hgran g ∧ i ≠ .hrm r) :
    decodeWords mem 0 [] [w] = [(major w, 0, .inr (loneWord i))] := by
  unfold decodeWords
  rw [hd]
  dsimp only
  split
  next p => exact absurd rfl (hh p 0 0 .rne).1
  next g => exact absurd rfl (hh 0 0 g .rne).2.2.1
  next r => exact absurd rfl (hh 0 0 0 r).2.2.2
  next l => exact absurd rfl (hh 0 l 0 .rne).2.1
  next => rw [List.any_nil, Bool.and_false, if_neg Bool.false_ne_true]; rfl

/-- What a packet of one word answers, by what its word answers when it is tried (R363, R364). -/
def State.answerOne (s : State) (i : Instr) : Probe → Res?
  | .operand => .next ((s.stuck exec [loneWord i]).stall .operand).afterPacket
  | .traps _ r => mapNext State.afterPacket r
  | .stops r => mapNext State.afterPacket r
  | .misses r => mapNext State.afterPacket r
  | .waits t => .next ((s.waits t).stuck exec [loneWord i]).afterPacket
  | .fine => mapNext (fun t => (t.onMe fun c => { c with blk := c.blk && c.issue.taken }).afterPacket)
      (commitAll exec s [loneWord i] (s.onMe fun c => { c with blk := false }))

section
variable {s : State} {w : IWord} {i : Instr} (hw : s.wordAt s.me.pc = w) (he : eBit w = true) (hf : s.me.pc + 4 ≤ s.me.fetchEnd)
  (hs : slotOf w ≠ .h) (hd : decode s.me.isMem w = .ok i) (hh : ∀ p l g r, i ≠ .hwimm p ∧ i ≠ .hblk l ∧ i ≠ .hgran g ∧ i ≠ .hrm r)
  (hb : s.me.blk = false) (ha : s.me.ahead = none)
include hw he hf hs hd hh hb ha

theorem issuePacket_one : issuePacket exec s =
    (s.fetchedOne w).answerOne i (probe exec (s.fetchedOne w) (loneWord i)) := by
  have hfetch : ¬(s.me.fetchEnd ≤ s.me.pc ∨
      (if [w].any eBit then s.me.fetchEnd < s.me.pc + 4 * [w].length else s.closes s.me.pc = false)) := by
    simp only [List.any_cons, he, Bool.true_or, if_true, List.length_singleton]
    omega
  have hblk : (s.fetchedOne w).me.blk = false := (Core.keep_same s.me s.me.pc w).1.trans hb
  have hahead : (s.fetchedOne w).me.ahead = none := (Core.keep_same s.me s.me.pc w).2.1.trans ha
  have hmem : (s.fetchedOne w).me.isMem = s.me.isMem := congrArg (fun n : CoreId => decide (0x800 ≤ n.num)) (Core.keep_same s.me s.me.pc w).2.2
  have hdec := decodeWords_one hd hh
  unfold issuePacket
  dsimp only
  rw [State.packetAt_one hw he, if_neg hfetch]
  rw [show ((s.onMe fun c => c.keep s.me.pc [w]).onMe fun c => { c with
    issue := { Issue.idle with fst := s.me.pc, nxt := s.me.pc + 4 * [w].length } }) = s.fetchedOne w from rfl]
  rw [show (s.fetchedOne w).wholePacket s.me.pc [w] = [w] from rfl, packetRule_one w hs]
  dsimp only
  rw [if_neg (by rw [hblk]; exact fun h => Bool.false_ne_true h.1), hmem, hdec]
  simp only [List.map_cons, List.map_nil, List.filterMap_cons, List.filterMap_nil]
  rw [if_neg (by rw [hahead]; exact fun h => Bool.false_ne_true h.1)]
  cases hp : probe exec (s.fetchedOne w) (loneWord i) with
  | operand => rfl
  | traps c r =>
    by_cases hc : c = 0x13 ∨ c = 0x14
    · have henc : encodingFault [(major w, 0, .inr (.traps c r))] = some (major w, 0, .inr r) := if_pos hc
      rw [henc]; rfl
    · have henc : encodingFault [(major w, 0, .inr (.traps c r))] = none := if_neg hc
      rw [henc]; rfl
  | stops r => rfl
  | misses r => rfl
  | waits t => rfl
  | fine => rw [actOrder_one]; rfl

end

/-! ## What the word answers when it is tried, and what the packet makes of it -/

/-- The core in turn with its word fetched and held, tried or in earnest. -/
def State.heldOne (s : State) (w : IWord) (commit : Bool) : State :=
  { s with me := { s.me.keep s.me.pc [w] with
    issue := { Issue.idle with fst := s.me.pc, nxt := s.me.pc + 4, commit := commit } } }

/-- What a packet is tried with once nothing is left to be replayed. -/
def Core.bare (c : Core) : Core := { c with pend := [], vbusy := 0 }

/-- Whether an answer is a stall. -/
def State.isStuck (v : State) : Bool := decide (v.me.issue.status = .operand) || decide (v.me.issue.status = .waiting)

/-- What a core in turn keeps of a word that waits and keeps no progress. -/
def Core.waitsAs (t c : Core) : Core := { c with atBarrier := t.atBarrier, onLatch := t.onLatch, homeHeld := t.homeHeld }

theorem Core.keep_rearmed (c : Core) (a : Nat) (w : IWord) : (c.keep a [w]).rearmed = c.rearmed := by
  rw [Core.keep_one]; split <;> rfl

section
variable {s t v : State} {w : IWord} {i : Instr}

/-- A single word that is tried, by the state its meaning answers. -/
theorem probe_lone {r : Probe} (h : exec i (s.hold exec (loneWord i) false) = .next t)
    (hr : (match t.me.issue.status with
      | .ready => Probe.fine
      | .operand => .operand
      | .waiting => .waits t
      | .missed => .misses (.next t)
      | .trapped => .traps t.trapClass (.next t)) = r) : probe exec s (loneWord i) = r := by
  have h' : exec (loneWord i).i (s.hold exec (loneWord i) false) = .next t := h
  unfold probe
  rw [h']
  exact hr

theorem stalls_lone (h : exec i (s.hold exec (loneWord i) false) = .next v) : stalls exec s [loneWord i] = v.isStuck := by
  unfold stalls
  rw [List.any_cons, List.any_nil, Bool.or_false, State.isStuck]
  cases hst : v.me.issue.status with
  | ready => rw [probe_lone h (r := .fine) (by rw [hst])]; rfl
  | operand => rw [probe_lone h (r := .operand) (by rw [hst])]; rfl
  | waiting => rw [probe_lone h (r := .waits v) (by rw [hst])]; rfl
  | missed => rw [probe_lone h (r := .misses (.next v)) (by rw [hst])]; rfl
  | trapped => rw [probe_lone h (r := .traps v.trapClass (.next v)) (by rw [hst])]; rfl

/-- A packet of one word that stalls. -/
theorem State.stuck_lone (h : exec i ((s.onMe Core.bare).hold exec (loneWord i) false) = .next v) :
    s.stuck exec [loneWord i] = s.onMe fun c => { c with rearmed := c.rearmed && v.isStuck, onTask := taskWord i } := by
  have hs : stalls exec (s.onMe fun c => { c with pend := [], vbusy := 0 }) [loneWord i] = v.isStuck := stalls_lone h
  unfold State.stuck
  rw [hs]
  dsimp only
  rw [Bool.not_not, List.any_cons, List.any_nil, Bool.or_false]
  rfl

theorem answerOne_trapped {c : Nat} (ht : t.me.issue.status = .trapped) :
    s.answerOne i (.traps c (.next t)) = .next (t.onMe fun c => { c with issue := Issue.idle }) := by
  show Host.Outcome.next t.afterPacket = _
  rw [State.afterPacket, ht]

/-- A core whose packet has stalled in this cc. -/
def Core.stalled (task stuck : Bool) (c : Core) : Core :=
  { c with issue := Issue.idle, done := true, onTask := task, rearmed := c.rearmed && stuck }

/-- A packet of one word that waits for an operand, after its turn. -/
theorem State.afterPacket_operand (h : exec i ((s.onMe Core.bare).hold exec (loneWord i) false) = .next v) :
    ((s.stuck exec [loneWord i]).stall .operand).afterPacket = s.onMe (Core.stalled (taskWord i) v.isStuck) := by
  rw [State.stuck_lone h]
  rfl

/-- A packet of one word that waits for a condition, after its turn. -/
theorem State.afterPacket_waiting (h : exec i (((s.stall .waiting).onMe Core.bare).hold exec (loneWord i) false) = .next v) :
    ((s.stall .waiting).stuck exec [loneWord i]).afterPacket = s.onMe (Core.stalled (taskWord i) v.isStuck) := by
  rw [State.stuck_lone h]
  rfl

/-- A stall ends the core's turn with the words fetched. -/
theorem Core.stalled_keep (c : Core) (a : Nat) (w : IWord) (x : Issue) (task stuck : Bool) :
    Core.stalled task stuck { c.keep a [w] with issue := x } = { c.keep a [w] with
      issue := Issue.idle, done := true, onTask := task, rearmed := c.rearmed && stuck } := by
  have hr := Core.keep_rearmed c a w
  generalize c.keep a [w] = k at hr ⊢
  rw [← hr]
  rfl

theorem answerOne_operand (h : exec i (((s.fetchedOne w).onMe Core.bare).hold exec (loneWord i) false) = .next v) :
    (s.fetchedOne w).answerOne i .operand = .next (s.onMe fun c => { c.keep c.pc [w] with
      issue := Issue.idle, done := true, onTask := taskWord i, rearmed := c.rearmed && v.isStuck }) :=
  congrArg Host.Outcome.next ((State.afterPacket_operand h).trans
    (congrArg (fun c => { s with me := c }) (Core.stalled_keep s.me s.me.pc w _ (taskWord i) v.isStuck)))

/-- A state that waits and keeps no progress. -/
theorem State.waits_of_dropped (hk : t.me.issue.keep = false) : s.waits t = (s.onMe (Core.waitsAs t.me)).stall .waiting := by
  rw [State.waits, hk]
  rfl

/-- A wait ends the core's turn with the words fetched and what the wait keeps. -/
theorem Core.stalled_waitsAs (c d : Core) (a : Nat) (w : IWord) (x : Issue) (task stuck : Bool) :
    Core.stalled task stuck (Core.waitsAs d { c.keep a [w] with issue := x }) = { Core.waitsAs d (c.keep a [w]) with
      issue := Issue.idle, done := true, onTask := task, rearmed := c.rearmed && stuck } := by
  have hr := Core.keep_rearmed c a w
  generalize c.keep a [w] = k at hr ⊢
  rw [← hr]
  rfl

/-- The core that a waiting word leaves, held again with nothing left to be replayed. -/
theorem State.hold_waitsAs : ((((s.fetchedOne w).onMe (Core.waitsAs t.me)).stall .waiting).onMe Core.bare).hold exec (loneWord i) false =
    (s.heldOne w false).onMe fun c => Core.bare (Core.waitsAs t.me c) := by
  unfold State.fetchedOne State.heldOne
  generalize s.me.keep s.me.pc [w] = k
  rfl

theorem answerOne_waits (hk : t.me.issue.keep = false)
    (h : exec i ((s.heldOne w false).onMe fun c => Core.bare (Core.waitsAs t.me c)) = .next v) :
    (s.fetchedOne w).answerOne i (.waits t) = .next (s.onMe fun c => { Core.waitsAs t.me (c.keep c.pc [w]) with
      issue := Issue.idle, done := true, onTask := taskWord i, rearmed := c.rearmed && v.isStuck }) := by
  refine congrArg Host.Outcome.next ?_
  rw [State.waits_of_dropped hk]
  exact (State.afterPacket_waiting (State.hold_waitsAs.symm ▸ h)).trans
    (congrArg (fun c => { s with me := c }) (Core.stalled_waitsAs s.me t.me s.me.pc w _ (taskWord i) v.isStuck))

theorem Core.blk_id {c : Core} (h : c.blk = false) : { c with blk := false } = c := by
  obtain ⟨⟩ := c
  dsimp only at h
  subst h
  rfl

/-- What the issue of a packet leaves in a core outside run-ahead whose pc has moved. -/
def Core.doneAlone (d : Core) : Core :=
  { d with issue := Issue.idle, done := true, waited := 0, homeHeld := none, homeAns := none, homeMissed := false,
           rearmed := false, answered := [] }

/-- The core that a packet leaves, past it unless a word of it has set the pc (R136). -/
def Core.issuedAlone (c : Core) : Core :=
  (if c.issue.taken then c else Core.advance { c with blk := false }).doneAlone

theorem Core.doneAlone_of_ahead {d : Core} (ha : d.ahead = none) : ({ d with
    issue := Issue.idle, done := true, waited := 0, homeHeld := none, homeAns := none, rearmed := false,
    answered := if d.ahead.isSome then d.answered else [], homeMissed := d.homeMissed && d.ahead.isSome,
    ahead := d.ahead.map fun a => { a with packets := a.packets + 1 } } : Core) = d.doneAlone := by
  obtain ⟨⟩ := d
  dsimp only at ha
  subst ha
  simp only [Core.doneAlone, Option.isSome_none, Bool.and_false, Option.map_none, Bool.false_eq_true, if_false]

theorem Core.issued_alone {c : Core} (ha : c.ahead = none) :
    Core.issued { c with blk := c.blk && c.issue.taken } = c.issuedAlone := by
  cases htk : c.issue.taken with
  | true =>
    rw [Core.issuedAlone, if_pos htk, Bool.and_true, ← Core.doneAlone_of_ahead ha]
    unfold Core.issued
    dsimp only
    rw [if_pos htk]
  | false =>
    have hadv : (Core.advance { c with blk := false }).ahead = none := (Core.advance_same _).1.trans ha
    rw [Core.issuedAlone, if_neg (by rw [htk]; exact Bool.false_ne_true), Bool.and_false, ← Core.doneAlone_of_ahead hadv]
    unfold Core.issued
    dsimp only
    rw [if_neg (by rw [htk]; exact Bool.false_ne_true)]

theorem Core.issuedAlone_ahead (c : Core) : c.issuedAlone.ahead = c.ahead := by
  unfold Core.issuedAlone
  split
  · rfl
  · exact (Core.advance_same _).1

/-- A packet that has issued outside run-ahead. -/
theorem State.afterPacket_alone {u : State} (hu : u.me.issue.status = .ready) (ha : u.me.ahead = none) :
    (u.onMe fun c => { c with blk := c.blk && c.issue.taken }).afterPacket = u.onMe Core.issuedAlone := by
  have hissued := Core.issued_alone ha
  have hahead : (Core.issued { u.me with blk := u.me.blk && u.me.issue.taken }).ahead = none := by
    rw [hissued, Core.issuedAlone_ahead, ha]
  unfold State.afterPacket
  change (match u.me.issue.status with | .ready => _ | .trapped => _ | _ => _) = _
  rw [hu]
  change (match (Core.issued { u.me with blk := u.me.blk && u.me.issue.taken }).ahead with | some a => _ | none => _) = _
  rw [hahead]
  exact congrArg (fun c => { u with me := c }) hissued

/-- A packet of one word that is tried without fault issues: the pc moves on unless the word has set it (R136). -/
theorem answerOne_fine {u : State} (hx : exec i (s.heldOne w true) = .next u) (hu : u.me.issue.status = .ready) (ha : u.me.ahead = none)
    (hb : s.me.blk = false) (hsb : u.me.sb.length ≤ 32)
    (ho : (u.me.outs.filter fun o => o.kind = .load ∨ o.kind = .atomic).length ≤ 16) :
    (s.fetchedOne w).answerOne i .fine = .next (u.onMe fun c =>
          let d := if c.issue.taken then c else Core.advance { c with blk := false }
          { d with issue := Issue.idle, done := true, waited := 0, homeHeld := none, homeAns := none, homeMissed := false,
                   rearmed := false, answered := [] }) := by
  have hblk : ((s.fetchedOne w).onMe fun c => { c with blk := false }) = s.fetchedOne w := by
    exact State.onMe_id (Core.blk_id ((Core.keep_same s.me s.me.pc w).1.trans hb))
  have hx' : exec (loneWord i).i ((s.fetchedOne w).hold exec (loneWord i) true) = .next u := hx
  have hcrowd : Core.crowded (s.fetchedOne w).me u.me = false := by
    unfold Core.crowded
    dsimp only
    rw [decide_eq_false (Nat.not_lt.2 hsb), decide_eq_false (Nat.not_lt.2 ho)]
    rfl
  have hcommit : commitAll exec (s.fetchedOne w) [loneWord i] (s.fetchedOne w) = .next u := by
    unfold commitAll
    rw [hx']
    dsimp only
    rw [hu]
    dsimp only
    unfold commitAll
    rw [hcrowd]
    rfl
  show mapNext _ (commitAll exec (s.fetchedOne w) [loneWord i] _) = _
  rw [hblk, hcommit]
  exact congrArg Host.Outcome.next (State.afterPacket_alone hu ha)

end

end Sys2Proof.Machine

namespace Sys2Proof.Proofs
open Sys2Proof Sys2Proof.Machine

/-- Settles O57: the turn of such a core is its packet's issue, and what the packet does is what its one word answers
when it is tried. -/
theorem stepRunsDecoded : Obligations.StepRunsDecoded := by
  unfold Obligations.StepRunsDecoded
  intro s w i hagenda herr hdone hlatch htask hi hr hbub ha hd ht hn hbar hocmp hblk hw he hf hs hdec hh held bare stuck t hx
  have hbegun : s.turnBegun = s := State.onMe_id (Core.begun_id hbar hlatch htask)
  have hdue : s.dueEntry exec s.me.onLatch s.me.onTask = none := by
    rw [hlatch, htask]
    exact State.dueEntry_none ht hd hocmp
  have hstep : step s = (s.fetchedOne w).answerOne i (probe exec (s.fetchedOne w) (loneWord i)) :=
    (step_eq_takeTurn hagenda herr hdone).trans ((takeTurn_issues hbegun hi hr hbub ha hdue (State.entryWaits_none ht hd hocmp) hn).trans
      (issuePacket_one hw he hf hs hdec hh hblk ha))
  have hprobe : ∀ {r}, _ = r → probe exec (s.fetchedOne w) (loneWord i) = r := probe_lone (s := s.fetchedOne w) hx
  rw [hstep]
  refine ⟨fun hst u hu hur hua hsb ho => ?_, fun hst => ?_, fun hst v hv => ?_, fun hst hk v hv => ?_⟩
  · rw [hprobe (r := .fine) (by rw [hst])]
    exact answerOne_fine hu hur hua hblk hsb ho
  · rw [hprobe (r := .traps t.trapClass (.next t)) (by rw [hst])]
    exact answerOne_trapped hst
  · rw [hprobe (r := .operand) (by rw [hst])]
    exact answerOne_operand hv
  · rw [hprobe (r := .waits t) (by rw [hst])]
    exact answerOne_waits hk hv

end Sys2Proof.Proofs
end
